-- ==== Sys2Proof/Word.lean ====
section
/-!
DEFINITION. The word types of the part and their plainest arithmetic (spec/00 R8: little-endian, bits from 0).
-/
namespace Sys2Proof

/-- A 64-bit doubleword: a scalar register, an address while it is computed, a special register. -/
abbrev Word := BitVec 64

/-- A byte of memory. -/
abbrev Byte := BitVec 8

/-- A 16-bit parcel of the instruction stream (spec/03 R88). -/
abbrev Parcel := BitVec 16

/-- A v register (spec/03 R78). -/
abbrev VWord := BitVec 128

/-- A scalar register field (spec/03 R91). -/
abbrev Reg := BitVec 5

/-- A v register field (spec/03 R91). -/
abbrev VReg := BitVec 4

/-- One bit as a truth value. -/
def bit1 (b : Bool) : Nat := if b then 1 else 0

end Sys2Proof
end

