-- ==== Sys2Proof/Config.lean ====
section
/-!
DEFINITION. What an implementation fixes and the values the spec leaves open. Every free value is an opaque
constant: nothing in Lean can evaluate it, so a statement that holds, holds whatever it is.
-/
namespace Sys2Proof.Config

/-- Architectural cores of one module (spec/00 R2). -/
def numCores : Nat := 102400

/-- A 64-bit free value, numbered by `State.tick` and, within one step, by an index (log 6: DESIGN CHOICE): the l and o registers of
a window after SAVE, of a window that is not resident (spec/03 R76, spec/07 R173), unspecified local memory
(spec/05 R123). -/
opaque freeWord : Nat → Nat → Word

/-- How many cycles beyond the first one step takes (log 2: DESIGN CHOICE; spec/00 R10: below its bound a time is not
architectural). Indexed by `State.tick`. -/
opaque extraCycles : Nat → Nat

/-- A free choice of the part between two outcomes that the spec both allows, numbered by `State.tick` and an index
(log 6: DESIGN CHOICE): for example whether a trace record meets a full queue (spec/16 R317). -/
opaque freeChoice : Nat → Nat → Bool

/-- Does the RSA-4096 signature of a firmware image over its SHA-512 digest verify (spec/21 R402, log 15: DESIGN CHOICE)? The
arguments are the image's bytes and its digest. -/
opaque signatureOk : List Byte → List Byte → Bool

/-- The module's RSASSA-PSS signature of a report (spec/21 R403, log 15: DESIGN CHOICE); the spec fixes neither salt nor key. -/
opaque reportSignature : Nat → List Byte → List Byte

end Sys2Proof.Config
end

