-- ==== Sys2Proof/Syntax.lean ====
section
/-!
DEFINITION. The instructions: one constructor per row of spec/opcode_table.json. The operands are the fields of the
encoding, read out once by the decoder; a field whose codes are names is an inductive type.
-/
namespace Sys2Proof

/-- Access width and extension (spec/03 R92): code 0-6; 7 is reserved. -/
inductive Width where
  | b | h | w | d | bz | hz | wz
  deriving DecidableEq, Repr

/-- The operation of AMO (spec/05 R133). -/
inductive AmoOp where
  | add | swap | and | or
  deriving DecidableEq, Repr

/-- The ordering of AMO and CAS (spec/05 R133). -/
inductive AmoOrd where
  | plain | acq | rel | ar
  deriving DecidableEq, Repr

/-- The condition of WAITW (spec/05 R139). -/
inductive WaitCond where
  | eq | ne | geU | ltU | geS | ltS
  deriving DecidableEq, Repr

/-- The scalar float types (spec/03 R92). -/
inductive FType where
  | f32 | f16 | bf16 | f64
  deriving DecidableEq, Repr

/-- A rounding field: one of the five modes, or FRM (spec/03 R92, code 7). -/
inductive Rnd where
  | rne | rz | rdn | rup | rmm | frm
  deriving DecidableEq, Repr

/-- The sign operation of FSGN (spec/06 R150). -/
inductive SgnOp where
  | copy | inverse | xor
  deriving DecidableEq, Repr

/-- The element types (spec/03 R92). -/
inductive EType where
  | f32 | f16 | bf16 | f64 | i32 | i16 | i8 | i64 | n32 | n16 | n8 | n64
  deriving DecidableEq, Repr

/-- The types of the compact lane forms (spec/03 R93). -/
inductive CType where
  | f32 | f16 | bf16 | i32
  deriving DecidableEq, Repr

/-- The condition of VCMP (spec/06 R154). -/
inductive VCond where
  | eq | ne | lt | le | gt | ge
  deriving DecidableEq, Repr

/-- The operation of VRED and REDV (spec/06 R158, spec/16 R305). -/
inductive RedOp where
  | sum | min | max
  deriving DecidableEq, Repr

/-- The types of REDV (spec/16 R305). -/
inductive RedType where
  | f32 | f64 | i64 | n64
  deriving DecidableEq, Repr

/-- The integer types of CVT (spec/06 R160). -/
inductive IType where
  | i8 | i16 | i32 | i64 | n8 | n16 | n32 | n64
  deriving DecidableEq, Repr

/-- The conversions of CVT (spec/06 R160). -/
inductive CvtKind where
  | floatFloat (src dst : FType)
  | intFloat (src : IType) (dst : FType)
  | floatInt (src : FType) (dst : IType) (sat : Bool)
  deriving DecidableEq, Repr

/-- The floe formats (spec/02 R66). -/
inductive Floe where
  | fl2 | fl4 | fl7
  deriving DecidableEq, Repr

/-- The special functions (spec/06 R164). -/
inductive SfuFn where
  | recip | rsqrt | exp2 | log2 | sinPi | cosPi | tanh | sigmoid | exp
  deriving DecidableEq, Repr

/-- A stream pointer field, s0-s3 (spec/11 R220). -/
abbrev SReg := BitVec 2

/-- The 5-bit types of the vector-stream modifier word (spec/11 R220). -/
inductive SType where
  | elem (t : EType)
  | floe (f : Floe)
  deriving DecidableEq, Repr

/-- The matrix formats (spec/11 R229). -/
inductive MxFmt where
  | fl2 | fl4 | fl7 | i8 | f16 | bf16 | f32
  deriving DecidableEq, Repr

/-- The engines of a core (spec/10 R202), numbered as ENG of spec/10 R207. -/
inductive Eng where
  | vs | mx | cp
  deriving DecidableEq, Repr

/-- A unit whose corrected errors are counted and which can be retired (spec/21 R397, R398). -/
inductive ErrUnit where
  | core (n : Nat)
  | l2Way (cluster way : Nat)
  | dramPage (pa : Nat)
  | cacheBank (die bank : Nat)
  | linkLane (port lane : Nat)
  | flashBlock (n : Nat)
  deriving DecidableEq, Repr

/-- Where an uncorrectable error strikes (spec/10 R195, spec/15 R292, spec/13 R256, spec/07 R167, spec/21 R398): a row, a
word in L2, a directory entry, a line of a slice that two caches hold, a register of a kind (kinds in the order of the
codes of R167), a unit with the words of memory whose data is lost. -/
inductive ErrSite where
  | localRow (core row : Nat)
  | homeWord (word : Nat)
  | dirEntry (line : Nat)
  | sliceLine (core line : Nat)
  | threadState (core thr : Nat) (kind : BitVec 2) (index : BitVec 8)
  | unit (u : ErrUnit) (words : List Nat)
  deriving DecidableEq, Repr

/-- What a core of another module asks of a home (spec/22 R409). -/
inductive FabAccess where
  | load (size : Nat)
  | store (bytes : List Byte)
  | amo (op : AmoOp) (dbl : Bool) (b : Word)
  | cas (dbl : Bool) (expected new : Word)
  deriving DecidableEq, Repr

/-- A remote access that arrives at its home: one of this module's own by its number, or one that a core of another module
has sent, to this module or to a third one (spec/22 R409). -/
inductive FabArrival where
  | own (id : Nat)
  | foreign (module : BitVec 6) (core : BitVec 17) (pa : Word) (acc : FabAccess)
  deriving DecidableEq, Repr

/-- A transfer that a member on another module sends to a core of this one: the sender's identity, the destination and its
local address, its rows with their poison, none for a row that is lost (spec/16 R303, R304; spec/22 R413, R414). -/
structure FabXfer where
  src  : BitVec 23
  dst  : Nat
  t    : Nat
  rows : List (Option (List Byte × Bool))
  deriving DecidableEq, Repr

/-- What comes to an exchange phase from outside: which of the captured transfers the fabric has lost, by their places, and
the transfers of members on other modules that have arrived (spec/16 R304; spec/22 R413). -/
structure PhaseEnd where
  lost    : List Nat
  arrived : List FabXfer
  deriving DecidableEq, Repr

/-- The instructions and steps of the part. -/
inductive Instr where
  -- the 186 major instructions, in the order of spec/03 R98
  -- 04 R102
  | add (rd ra rb : Reg) (w sat : Bool)
  | sub (rd ra rb : Reg) (w sat : Bool)
  | mul (rd ra rb : Reg) (w sat : Bool)
  | mulh (rd ra rb : Reg) (w sat : Bool)
  | mulhu (rd ra rb : Reg) (w sat : Bool)
  | div (rd ra rb : Reg) (w sat : Bool)
  | divu (rd ra rb : Reg) (w sat : Bool)
  | rem (rd ra rb : Reg) (w sat : Bool)
  | remu (rd ra rb : Reg) (w sat : Bool)
  | and (rd ra rb : Reg) (w sat : Bool)
  | or (rd ra rb : Reg) (w sat : Bool)
  | xor (rd ra rb : Reg) (w sat : Bool)
  | andn (rd ra rb : Reg) (w sat : Bool)
  -- 04 R104
  | sll (rd ra rb : Reg) (w : Bool)
  | srl (rd ra rb : Reg) (w : Bool)
  | sra (rd ra rb : Reg) (w : Bool)
  -- 04 R102
  | min (rd ra rb : Reg) (w sat : Bool)
  | max (rd ra rb : Reg) (w sat : Bool)
  | minu (rd ra rb : Reg) (w sat : Bool)
  | maxu (rd ra rb : Reg) (w sat : Bool)
  -- 04 R105
  | cmp (rd ra rb : Reg) (w : Bool)
  -- 04 R106
  | sel (rd ra rb rc : Reg)
  -- 04 R107
  | clz (rd ra : Reg) (w : Bool)
  | ctz (rd ra : Reg) (w : Bool)
  | popc (rd ra : Reg) (w : Bool)
  | brev (rd ra : Reg) (w : Bool)
  | bswap (rd ra : Reg) (w : Bool)
  -- 04 R108
  | bfx (rd ra rb : Reg) (signed : Bool)
  | bfi (rd ra rb : Reg)
  -- 04 R109
  | addi (rd ra : Reg) (imm : BitVec 10)
  | andi (rd ra : Reg) (imm : BitVec 10)
  | ori (rd ra : Reg) (imm : BitVec 10)
  | xori (rd ra : Reg) (imm : BitVec 10)
  | slli (rd ra : Reg) (imm : BitVec 10)
  | srli (rd ra : Reg) (imm : BitVec 10)
  | srai (rd ra : Reg) (imm : BitVec 10)
  | cmpi (rd ra : Reg) (imm : BitVec 10)
  -- 04 R110
  | li (rd : Reg) (imm : BitVec 32)
  | lih (rd : Reg) (imm : BitVec 32)
  -- 04 R111
  | lea (rd ra rb : Reg) (sh : BitVec 2)
  -- 04 R112
  | pcrel (rd : Reg) (imm : BitVec 32)
  -- 04 R113
  | bz (ra : Reg) (off : BitVec 15)
  | bnz (ra : Reg) (off : BitVec 15)
  | j (off : BitVec 20)
  | jr (ra : Reg) (imm : BitVec 10)
  | call (off : BitVec 20)
  | callr (ra : Reg) (imm : BitVec 10)
  | ret
  -- 04 R116, R117
  | save (rd ra : Reg) (imm : BitVec 10)
  | restore (rd ra : Reg) (imm : BitVec 10)
  -- 04 R118
  | loop (k : Bool) (ra : Reg) (span : BitVec 16)
  | loopi (k : Bool) (count span : BitVec 16)
  -- 04 R120
  | loopx (which : BitVec 2)
  -- 05 R125
  | ld (rd ra : Reg) (disp : BitVec 5) (wd : Width) (acq : Bool)
  | st (rd ra : Reg) (disp : BitVec 5) (wd : Width) (rel : Bool)
  | ldx (rd ra rb : Reg) (wd : Width) (acq : Bool)
  | stx (rd ra rb : Reg) (wd : Width) (rel : Bool)
  | ldl (rd ra : Reg) (disp : BitVec 32) (wd : Width) (acq : Bool)
  | stl (rd ra : Reg) (disp : BitVec 32) (wd : Width) (rel : Bool)
  -- 05 R130
  | vld (vd : VReg) (ra : Reg) (disp : BitVec 32) (pair acq : Bool)
  | vst (vd : VReg) (ra : Reg) (disp : BitVec 32) (pair rel : Bool)
  -- 05 R131
  | ldm (vd : VReg) (ra : Reg) (disp : BitVec 32) (acq : Bool)
  | stm (vd : VReg) (ra : Reg) (disp : BitVec 32) (rel : Bool)
  -- 05 R132
  | movm (vd va : VReg)
  -- 05 R133
  | amo (rd ra rb : Reg) (op : AmoOp) (dbl : Bool) (ord : AmoOrd)
  -- 05 R134
  | cas (rd ra rb rc : Reg) (dbl : Bool) (ord : AmoOrd)
  -- 05 R135
  | fence
  -- 05 R137
  | pld (rd ra : Reg) (k : BitVec 3) (off : BitVec 16) (wd : Width)
  -- 05 R139
  | waitw (rd ra rb : Reg) (cond : WaitCond) (dbl acq : Bool)
  -- 06 R145
  | fadd (rd ra rb : Reg) (t : FType) (rm : Rnd)
  | fsub (rd ra rb : Reg) (t : FType) (rm : Rnd)
  | fmul (rd ra rb : Reg) (t : FType) (rm : Rnd)
  | fdiv (rd ra rb : Reg) (t : FType) (rm : Rnd)
  | fsqrt (rd ra : Reg) (t : FType) (rm : Rnd)
  -- 06 R146
  | fma (rd ra rb rc : Reg) (t : FType) (rm : Rnd)
  -- 06 R147, R148
  | fmin (rd ra rb : Reg) (t : FType)
  | fmax (rd ra rb : Reg) (t : FType)
  | fcmp (rd ra rb : Reg) (t : FType)
  -- 06 R149
  | fclass (rd ra : Reg) (t : FType)
  -- 06 R150
  | fsgn (rd ra rb : Reg) (t : FType) (op : SgnOp)
  -- 06 R152
  | vadd (vd va vb : VReg) (t : EType) (sat : Bool) (rm : Rnd)
  | vsub (vd va vb : VReg) (t : EType) (sat : Bool) (rm : Rnd)
  | vmul (vd va vb : VReg) (t : EType) (sat : Bool) (rm : Rnd)
  | vfma (vd va vb : VReg) (t : EType) (sat : Bool) (rm : Rnd)
  -- 06 R152, R153
  | vmin (vd va vb : VReg) (t : EType)
  | vmax (vd va vb : VReg) (t : EType)
  | vand (vd va vb : VReg) (t : EType)
  | vor (vd va vb : VReg) (t : EType)
  | vxor (vd va vb : VReg) (t : EType)
  | vshl (vd va vb : VReg) (t : EType)
  | vshr (vd va vb : VReg) (t : EType)
  -- 06 R154
  | vcmp (vd va vb : VReg) (t : EType) (cond : VCond)
  -- 06 R153
  | vsel (vd va vb : VReg) (t : EType)
  -- 06 R156
  | vsplat (vd : VReg) (ra : Reg) (t : EType)
  | vext (rd : Reg) (va : VReg) (t : EType) (lane : BitVec 4)
  | vins (vd : VReg) (ra : Reg) (t : EType) (lane : BitVec 4)
  -- 06 R155
  | vshuf (vd va vb : VReg)
  -- 06 R157
  | vdot (vd va vb : VReg) (t : EType) (sat : Bool) (rm : Rnd)
  -- 06 R158
  | vred (vd va : VReg) (t : EType) (op : RedOp) (sat : Bool)
  -- 06 R160
  | cvt (rd ra : Reg) (c : CvtKind) (rm : Rnd)
  -- 06 R161
  | vcvt (vd va : VReg) (dt st : EType) (part : BitVec 3) (sat : Bool) (rm : Rnd)
  -- 06 R163
  | flenc (vd va : VReg) (fmt : Floe) (slot : BitVec 4)
  | fldec (vd va : VReg) (fmt : Floe) (slot : BitVec 4)
  -- 06 R164
  | sfu (rd ra : Reg) (func : SfuFn) (t : FType) (rm : Rnd)
  | vsfu (vd va : VReg) (func : SfuFn) (t : EType)
  -- 11 R221
  | spset (sd : SReg) (ra : Reg) (stride : BitVec 16)
  | spget (rd : Reg) (sa : SReg)
  -- 11 R222
  | vsadd (sd sa sb : SReg) (rc : Reg) (t : EType) (sat : Bool) (rm : Rnd)
  | vssub (sd sa sb : SReg) (rc : Reg) (t : EType) (sat : Bool) (rm : Rnd)
  | vsmul (sd sa sb : SReg) (rc : Reg) (t : EType) (sat : Bool) (rm : Rnd)
  | vsfma (sd sa sb : SReg) (rc : Reg) (t : EType) (sat : Bool) (rm : Rnd)
  | vsaxpy (sd sa sb : SReg) (rc x : Reg) (t : EType) (sat : Bool) (rm : Rnd)
  | vsmax (sd sa sb : SReg) (rc : Reg) (t : EType)
  | vsmin (sd sa sb : SReg) (rc : Reg) (t : EType)
  | vsexp (sd sa : SReg) (rc x : Reg) (t : EType) (rm : Rnd)
  | vsred (sd sa : SReg) (rc : Reg) (t : EType) (rm : Rnd)
  | vsdot (sd sa sb : SReg) (rc : Reg) (t : EType) (rm : Rnd)
  -- 11 R225
  | vscvt (sd sa : SReg) (rc : Reg) (dt st : SType) (sat : Bool) (rm : Rnd)
  -- 11 R222
  | vscopy (sd sa : SReg) (rc : Reg) (t : EType)
  | vsfill (sd : SReg) (rc x : Reg) (t : EType)
  -- 11 R230
  | mxwl (fmt : MxFmt) (ra rb : Reg)
  | mxwf
  -- 11 R231
  | mxa (fmt : MxFmt) (rd ra rb rc : Reg) (jn : BitVec 5) (split : Bool)
  -- 11 R233
  | mxd (fmt : MxFmt) (ra rb rc : Reg) (clr : Bool)
  -- 11 R234
  | mxz (ra rb : Reg)
  -- 11 R235
  | mxstat (rd : Reg) (sel : BitVec 2)
  -- 11 R238
  | mxrem (rd ra rb : Reg)
  -- 11 R241
  | cpy (rd ra rb : Reg)
  | cpyn (rd ra rb rc : Reg) (val : BitVec 32)
  -- 11 R242
  | cpy2d (rd ra rb rc : Reg)
  -- 11 R243
  | cpyg (rd ra rb rc : Reg) (size : BitVec 16)
  -- 11 R244
  | cpye (rd ra rb : Reg) (tag : BitVec 3)
  -- 11 R246
  | qfence (mask : BitVec 3)
  -- 11 R247
  | gang (rd ra : Reg)
  -- 11 R248
  | detach
  | rejoin
  | chkpt
  -- 13 R264
  | stp (rd ra rb : Reg) (disp : BitVec 32) (wd : Width) (rel : Bool)
  -- 13 R265
  | pushl (ra rb : Reg)
  -- 13 R267
  | hold (rd ra rb : Reg) (acq : Bool)
  -- 13 R268
  | unhold (rd ra : Reg) (rel : Bool)
  -- 13 R272
  | dqpush (rd ra : Reg)
  -- 13 R273
  | dqpop (rd : Reg) (wait : Bool)
  -- 16 R298
  | sync
  -- 16 R301
  | exch (rd ra rb : Reg) (dst : BitVec 15) (clear : Bool)
  -- 16 R305
  | redv (rd ra : Reg) (ch : BitVec 2) (op : RedOp) (ty : RedType) (sat : Bool)
  -- 16 R296
  | domset (rd ra : Reg)
  | domget (rd : Reg) (sel : BitVec 2)
  -- 21 R388
  | launch (rd ra : Reg)
  -- 17 R336
  | cxopen (rd ra rb : Reg)
  -- 17 R337
  | cxclose (rd ra : Reg)
  -- 17 R338
  | cxins (rd ra rb rc : Reg)
  | cxrep (rd ra rb rc : Reg)
  | cxdel (rd ra rb : Reg)
  -- 17 R339
  | cxcommit (rd ra rb rc : Reg)
  -- 17 R340
  | cxsettle (rd ra : Reg)
  | cxwaitb (rd ra rb rc : Reg)
  -- 17 R341
  | cxstate (rd ra : Reg) (sel : BitVec 2)
  -- 17 R342
  | cxlen (rd ra rb rc : Reg)
  -- 17 R344
  | cxfork (rd ra rb rc : Reg) (rekey : Bool)
  -- 17 R347
  | kvaddr (rd ra rb rc : Reg)
  -- 17 R348
  | kvld (rd ra rb rc : Reg) (n : BitVec 16)
  -- 17 R343
  | kvapp (rd ra rb rc : Reg)
  -- 17 R346
  | slabgrow (rd ra rb rc : Reg)
  -- 17 R352
  | lah (rd ra rb : Reg)
  -- 18 R358
  | tap (rd ra rb rc : Reg) (t : BitVec 5)
  -- 18 R356
  | tapld (rd ra rb : Reg) (op : BitVec 2)
  -- 18 R368
  | rng (rd ra rb : Reg) (half : Bool)
  -- 18 R370
  | gumb (vd va : VReg) (ra rb : Reg)
  -- 18 R372
  | penal (vd : VReg) (ra rb : Reg)
  -- 18 R373
  | tourn (rd ra rb : Reg)
  -- 07 R173
  | rsr (rd : Reg) (num : BitVec 12)
  | wsr (num : BitVec 12) (ra : Reg)
  -- 07 R174
  | trap (imm : BitVec 10)
  -- 07 R175, R176
  | tret
  | tfence
  -- 11 R249
  | fetchb
  -- 11 R250
  | cwb (ra : Reg)
  | cinv (ra : Reg)
  | iinv (ra : Reg)
  -- 03 R96
  | dmapsel (k : BitVec 2)
  | dmapld (rd ra : Reg) (third : Bool)
  -- 21 R395
  | tlbinv (ra : Reg) (scope : BitVec 2)
  -- 15 R290
  | region (rd ra rb : Reg) (c : Bool)
  -- 16 R313
  | freeze (rd : Reg)
  -- 07 R177
  | stop
  -- the compact instructions (spec/03 R93, R94) and DEP
  -- 06 R159
  | cVadd (vd vs : VReg) (t : CType)
  | cVsub (vd vs : VReg) (t : CType)
  | cVmul (vd vs : VReg) (t : CType)
  | cVmin (vd vs : VReg) (t : CType)
  | cVmax (vd vs : VReg) (t : CType)
  | cVand (vd vs : VReg) (t : CType)
  | cVor (vd vs : VReg) (t : CType)
  | cVxor (vd vs : VReg) (t : CType)
  | cVshl (vd vs : VReg) (t : CType)
  | cVshr (vd vs : VReg) (t : CType)
  | cVceq (vd vs : VReg) (t : CType)
  | cVclt (vd vs : VReg) (t : CType)
  | cVmov (vd vs : VReg) (t : CType)
  | cVabs (vd vs : VReg) (t : CType)
  | cVneg (vd vs : VReg) (t : CType)
  | cVspl (vd vs : VReg) (t : CType)
  -- 03 R94
  | cMov (rd ra : Reg)
  | cAddi (rd : Reg) (imm : BitVec 5)
  | cLi (rd : Reg) (imm : BitVec 5)
  | cBz (ra : Reg) (off : BitVec 5)
  | cBnz (ra : Reg) (off : BitVec 5)
  | cJ (off : BitVec 10)
  | cLdw (rd ra : BitVec 3) (idx : BitVec 4)
  | cStw (rd ra : BitVec 3) (idx : BitVec 4)
  | cSlli (rd : Reg) (sh : BitVec 5)
  | cSrai (rd : Reg) (sh : BitVec 5)
  | cRet
  | cNop
  | cTfence
  | cWaitt (mask : BitVec 6)
  -- 03 R83, R94
  | dep (yield : Bool) (mask : BitVec 6) (tag : BitVec 3)
  -- the events: steps of the part that no instruction word names
  -- 03 R81
  | asyncResultLands (core thr id : Nat)
  -- 05 R129
  | asyncPoisonTrap (core thr : Nat)
  -- 11 R223, R231, R240
  | vstreamOpRun (core : Nat)
  | matrixOpRun (core : Nat)
  | copyOpRun (core : Nat)
  -- 10 R205
  | engineOpComplete (core : Nat) (eng : Eng)
  -- 11 R238
  | mxremArrival (core : Nat)
  -- 13 R259
  | pushArrival (id : Nat)
  -- 13 R261
  | pushOutcome (id : Nat)
  -- 13 R262
  | pushInvalidation (id : Nat)
  -- 15 R280
  | registration (id : Nat)
  | registrationReply (id : Nat)
  -- 15 R284
  | readMiss (line : Nat)
  -- 15 R284, R285
  | forward (id : Nat)
  | revoke (id : Nat)
  -- 15 R287
  | homeAtomic (line : Nat)
  -- 13 R269
  | holdTimerExpiry (core thr line : Nat)
  -- 05 R139
  | waitwReread (core thr : Nat)
  -- 13 R273
  | dqpopResearch (core thr : Nat)
  -- 13 R274
  | stealRequest (core thr : Nat)
  -- 16 R299
  | barrierComplete (core : Nat)
  -- 16 R304
  | exchangePhaseEnd (core : Nat) (outside : PhaseEnd)
  -- 17 R330
  | taskInject (handle : Nat)
  -- 17 R345
  | unsharingRelocationEnd (die : Nat)
  -- 17 R346
  | slabRelocationEnd (die : Nat)
  -- 17 R351
  | kvPageSpill (part : Nat)
  | kvPageResident (page : Nat)
  -- 18 R365
  | tapEventEntry (part : Nat)
  -- 18 R375
  | budgetExpiry (core thr : Nat)
  -- 16 R309
  | preemptRequest (launch : Nat)
  -- 16 R310
  | contextSave (launch : Nat)
  -- 16 R312
  | preemptTimeout (launch : Nat)
  -- 16 R311
  | contextResume (launch : Nat)
  -- 21 R386
  | timeSliceExpiry (launch : Nat)
  -- 10 R214
  | lockstepCheckpoint (core : Nat)
  -- 10 R216
  | lockstepMismatch (core : Nat)
  -- 21 R389
  | launchStart (launch : Nat)
  | launchComplete (launch : Nat)
  -- 21 R396
  | hostWrite (cxl : Bool) (half : Nat) (bytes : List (Option Byte))
  | hostRead (half : Nat)
  | snoopReply (half : Nat) (bytes : List (Option Byte))
  -- 21 R384
  | snoopTimeout (half : Nat)
  -- 21 R400
  | createPartition (fn : Nat)
  | destroyPartition (fn : Nat)
  | resizePartition (fn : Nat)
  | setErrorWindow (fn : Nat)
  -- 21 R400, R402
  | fwUpdate (fn : Nat) (image : List Byte)
  -- 21 R400, R403
  | attest (fn : Nat)
  -- 21 R401
  | debugFreeze (fn : Nat)
  | resume (fn : Nat)
  | query (fn : Nat)
  | stepOne (fn : Nat)
  | readState (fn : Nat)
  | writeState (fn : Nat) (bytes : List Byte)
  | trace (fn : Nat)
  | record (fn : Nat)
  | replay (fn : Nat)
  -- 21 R399
  | mailboxRequestComplete (fn : Nat)
  | hostMmioWrite (fn off : Nat) (bytes : List Byte)
  -- 16 R295
  | domWrite (ra : Reg)
  -- 03 R87
  | dmapWrite (ra : Reg)
  -- 05 R136, R137
  | pwbWrite (k : BitVec 3) (size : Bool) (ra : Reg)
  -- 13 R263
  | holdstWrite (ra : Reg)
  -- 22 R409
  | fabricRemoteAccess (acc : FabArrival)
  -- 22 R410
  | fabricAck (id : Nat)
  -- 22 R414
  | fabricDeliveryTimeout (id : Nat)
  -- 22 R411
  | fabricLaunchReceive (src : Nat) (bytes image : List Byte)
  -- 22 R412
  | startBarrierComplete (gen : Nat) (ok : Bool)
  -- 22 R414
  | linkPortDown (port : Nat)
  -- 21 R397
  | unitRetire (unit : ErrUnit)
  -- 00 R3
  | powerLimitReached
  -- 10 R197
  | l1iFill (core line : Nat)
  -- 10 R195; 15 R292
  | uncorrectableError (site : ErrSite)
  -- 21 R397
  | correctedError (unit : ErrUnit)
  -- 21 R402
  | powerOn (images : List (List Byte))
  -- 22 R404
  | portTraining (port gen : Nat)
  -- 21 R383
  | hostLinkTraining (cxl : Bool) (gen width : Nat)
  -- 21 R394
  | tlbEntryLeave (core : Nat) (cluster : Bool) (index : Nat)
  -- 21 R399
  | mbdoor (fn value : Nat)
  deriving DecidableEq, Repr

end Sys2Proof
end

