-- ==== Sys2Proof/WellFormed.lean ====
section
/-!
DEFINITION. Which instructions the part has: the limits that the entries put on fields beyond their types
(spec/03 R99, R100). A term that breaks one has no encoding that the part executes.
-/
namespace Sys2Proof

/-- Is the type an integer type? -/
def EType.isInt : EType → Bool
  | .f32 | .f16 | .bf16 | .f64 => false
  | _ => true

/-- Width in bits of an element type (spec/03 R78). -/
def EType.bits : EType → Nat
  | .f32 | .i32 | .n32 => 32
  | .f16 | .bf16 | .i16 | .n16 => 16
  | .i8 | .n8 => 8
  | .f64 | .i64 | .n64 => 64

/-- Is the integer type signed? -/
def EType.signed : EType → Bool
  | .i32 | .i16 | .i8 | .i64 => true
  | _ => false

/-- The width codes that stores accept (spec/05 R125, spec/13 R264). -/
def Width.isStore : Width → Bool
  | .b | .h | .w | .d => true
  | _ => false

/-- Groups of `n` registers from `a` and from `b` that share some registers but not all (spec/03 R99). -/
def partialOverlap (a b : VReg) (n : Nat) : Bool :=
  a != b && a.toNat < b.toNat + n && b.toNat < a.toNat + n

/-- The last slot of a floe format in a group of four (spec/06 R162). -/
def Floe.lastSlot : Floe → Nat
  | .fl7 => 2
  | .fl4 => 4
  | .fl2 => 7

/-- A rounding lane operation: `.sat` on integer types only, a rounding mode on float types only (spec/06 R151,
spec/11 R220). -/
def lanesOk (t : EType) (sat : Bool) (rm : Rnd) : Bool :=
  if t.isInt then rm == .frm else !sat

/-- The float types of at most 32 bits. -/
def EType.isSmallFloat (t : EType) : Bool := t == .f32 || t == .f16 || t == .bf16

/-- The pairs of types of VSCVT (spec/11 R225); a conversion between integer types does not round (R220). -/
def scvtOk (dt st : SType) (sat : Bool) (rm : Rnd) : Bool :=
  match dt, st with
  | .elem d, .elem s => d != s && (!sat || d.isInt) && (!(d.isInt && s.isInt) || rm == .frm)
  | .floe _, .elem s => s.isSmallFloat && rm == .frm && !sat
  | .elem d, .floe _ => d.isSmallFloat && !sat
  | .floe _, .floe _ => false

/-- A thread of the part. -/
def threadOk (core thr : Nat) : Bool := core < Config.numCores && thr < 4

/-- A function with a mailbox (spec/21 R383): 0 is the physical function. -/
def fnOk (fn : Nat) : Bool := fn ≤ 128

/-- A unit named by its number within its range (spec/21 R398). -/
def ErrUnit.ok : ErrUnit → Bool
  | .core n => n < Config.numCores
  | .l2Way c w => c < 3200 && w < 16
  | .dramPage pa => pa < 2 ^ 48
  | .cacheBank die bank => die < 8 && bank < 256
  | .linkLane port lane => port < 12 && lane < 8
  | .flashBlock _ => true

/-- A place where an error can strike. -/
def ErrSite.ok : ErrSite → Bool
  | .localRow core row => core < Config.numCores && row < 1536
  | .homeWord w => w < 2 ^ 46
  | .dirEntry line => line < 2 ^ 41
  | .sliceLine core line => core < Config.numCores && line < 2 ^ 41
  | .threadState core thr _ _ => threadOk core thr
  | .unit u words => u.ok && words.all fun w => w < 2 ^ 46

/-- An access of another module has the size of a load, a store or an atomic. -/
def FabAccess.ok : FabAccess → Bool
  | .load size => 1 ≤ size && size ≤ 64
  | .store bytes => 1 ≤ bytes.length && bytes.length ≤ 64
  | .amo _ _ _ | .cas _ _ _ => true

/-- Where an arriving access may come from. -/
def FabArrival.ok : FabArrival → Bool
  | .own _ => true
  | .foreign _ core _ acc => core.toNat < Config.numCores && acc.ok

/-- A transfer of whole rows inside a core's local memory. -/
def FabXfer.ok (x : FabXfer) : Bool :=
  x.dst < Config.numCores && x.t % 16 == 0 && x.t + 16 * x.rows.length ≤ 0x6000
  && x.rows.all fun r => r.all fun v => v.1.length == 16

/-- The limits of the entries (spec/03 R99, R100 and each entry's own), and the ranges of an event's operands.
Constructors not named have no limit beyond their fields' types. -/
def Instr.wellFormed : Instr → Bool
  | .mulh _ _ _ _ sat | .mulhu _ _ _ _ sat | .divu _ _ _ _ sat | .rem _ _ _ _ sat | .remu _ _ _ _ sat
  | .min _ _ _ _ sat | .max _ _ _ _ sat | .minu _ _ _ _ sat | .maxu _ _ _ _ sat => !sat
  | .and _ _ _ w sat | .or _ _ _ w sat | .xor _ _ _ w sat | .andn _ _ _ w sat => !w && !sat
  | .slli _ _ imm | .srli _ _ imm | .srai _ _ imm => imm.toNat < 64
  | .loop _ _ span => 4 ≤ span.toNat
  | .loopi _ _ span => 4 ≤ span.toNat
  | .loopx which => which != 3
  | .st _ _ _ wd _ | .stx _ _ _ wd _ | .stl _ _ _ wd _ | .stp _ _ _ _ wd _ => wd.isStore
  | .vld vd _ _ pair _ | .vst vd _ _ pair _ => !pair || vd != 15
  | .ldm vd _ _ _ | .stm vd _ _ _ => vd.toNat ≤ 12
  | .movm vd va => vd.toNat ≤ 12 && va.toNat ≤ 12 && !partialOverlap vd va 4
  | .vadd _ _ _ t sat rm | .vsub _ _ _ t sat rm | .vmul _ _ _ t sat rm | .vfma _ _ _ t sat rm => lanesOk t sat rm
  | .vshl _ _ _ t | .vshr _ _ _ t => t.isInt
  | .vext _ _ t lane | .vins _ _ t lane => lane.toNat < 128 / t.bits
  | .vdot _ _ _ t sat rm =>
    (t == .f16 || t == .bf16 || t == .i16 || t == .i8 || t == .n8) && lanesOk t sat rm
  | .vred _ _ t _ sat => t.isInt || !sat
  | .cvt _ _ (.floatFloat src dst) _ => src != dst
  | .vcvt _ _ dt src part sat _ =>
    dt != src && part.toNat < Nat.max dt.bits src.bits / Nat.min dt.bits src.bits && (!sat || dt.isInt)
  | .flenc vd va fmt slot | .fldec vd va fmt slot =>
    vd.toNat ≤ 12 && va.toNat ≤ 12 && !partialOverlap vd va 4 && slot.toNat ≤ fmt.lastSlot
  | .vsfu _ _ _ t => t.isSmallFloat
  | .vsadd _ _ _ _ t sat rm | .vssub _ _ _ _ t sat rm | .vsmul _ _ _ _ t sat rm | .vsfma _ _ _ _ t sat rm
  | .vsaxpy _ _ _ _ _ t sat rm => lanesOk t sat rm
  | .vsexp _ _ _ _ t _ => t.isSmallFloat
  | .vsred _ _ _ t _ | .vsdot _ _ _ _ t _ => !t.isInt
  | .vscvt _ _ _ dt src sat rm => scvtOk dt src sat rm
  | .mxwl fmt _ _ => fmt != .f32
  | .mxa fmt _ _ _ rc jn _ => fmt != .f32 && (rc == 0) == (jn == 0)
  | .mxd fmt _ _ _ _ => fmt != .i8
  | .mxstat _ pick => pick != 3
  | .cpyg _ _ _ _ size => 1 ≤ size.toNat && size.toNat ≤ 4096
  | .cpye _ _ _ tag => tag != 0 && tag != 7
  | .qfence mask => mask != 0
  | .exch rd ra rb dst clear => !clear || (rd == 0 && ra == 0 && rb == 0 && dst == 0)
  | .redv _ _ _ op ty sat => !sat || (op == .sum && (ty == .i64 || ty == .n64))
  | .cxstate _ _ pick => pick != 3
  | .tlbinv _ scope => scope != 3
  | .cVshl _ _ t | .cVshr _ _ t => t == .i32
  | .dep _ _ tag => tag != 7
  | .asyncResultLands core thr _ | .asyncPoisonTrap core thr | .holdTimerExpiry core thr _ | .waitwReread core thr
  | .dqpopResearch core thr | .stealRequest core thr | .budgetExpiry core thr => threadOk core thr
  | .vstreamOpRun core | .matrixOpRun core | .copyOpRun core | .engineOpComplete core _ | .mxremArrival core
  | .barrierComplete core | .lockstepCheckpoint core | .lockstepMismatch core
  | .l1iFill core _ | .tlbEntryLeave core _ _ => core < Config.numCores
  | .exchangePhaseEnd core outside => core < Config.numCores && outside.arrived.all FabXfer.ok
  | .fabricRemoteAccess acc => acc.ok
  | .unsharingRelocationEnd die | .slabRelocationEnd die => die < 8
  | .hostWrite _ _ bytes | .snoopReply _ bytes => bytes.length == 64
  | .createPartition fn | .destroyPartition fn | .resizePartition fn | .setErrorWindow fn | .fwUpdate fn _ | .attest fn
  | .debugFreeze fn | .resume fn | .query fn | .stepOne fn | .readState fn | .writeState fn _ | .trace fn | .record fn
  | .replay fn | .mailboxRequestComplete fn | .hostMmioWrite fn _ _ | .mbdoor fn _ => fnOk fn
  | .fabricLaunchReceive src bytes _ => src < 64 && bytes.length == 256
  | .linkPortDown port => port < 12
  | .unitRetire unit | .correctedError unit => unit.ok
  | .uncorrectableError site => site.ok
  | .portTraining port gen => port < 12 && (gen == 1 || gen == 2)
  | .hostLinkTraining cxl gen width =>
    (if cxl then gen == 2 || gen == 3 else 4 ≤ gen && gen ≤ 7) && (width == 4 || width == 8 || width == 16)
  | _ => true

end Sys2Proof
end

