-- ==== Sys2Proof/Machine/Floats.lean ====
section
/-!
DEFINITION. IEEE arithmetic to the bit (spec/02 R54-R65): exact results as dyadic numbers, rounded once. Flags are the
bits of FS (spec/03 R84): NV 1, DZ 2, OF 4, UF 8, NX 16, SAT 32.
-/
namespace Sys2Proof.Machine

/-- The flags of FS. -/
abbrev Flags := BitVec 8

def flagNV : Flags := 1
def flagDZ : Flags := 2
def flagOF : Flags := 4
def flagUF : Flags := 8
def flagNX : Flags := 16
def flagSAT : Flags := 32
def flagPWOOB : Flags := 64
def flagKVNF : Flags := 128

/-- The five rounding modes (spec/02 R57). -/
inductive RMode where
  | rne | rz | rdn | rup | rmm
  deriving DecidableEq, Repr

/-- A binary format (spec/02 R54): exponent bits and fraction bits. -/
structure FFmt where
  eb : Nat
  fb : Nat
  deriving DecidableEq, Repr

def fmtF64 : FFmt := ⟨11, 52⟩
def fmtF32 : FFmt := ⟨8, 23⟩
def fmtF16 : FFmt := ⟨5, 10⟩
def fmtBF16 : FFmt := ⟨8, 7⟩

def ffmtOf : FType → FFmt
  | .f32 => fmtF32
  | .f16 => fmtF16
  | .bf16 => fmtBF16
  | .f64 => fmtF64

/-- Width of the format. -/
def FFmt.width (f : FFmt) : Nat := 1 + f.eb + f.fb

def FFmt.bias (f : FFmt) : Nat := 2 ^ (f.eb - 1) - 1

/-- The encoding of +infinity. -/
def FFmt.inf (f : FFmt) : Nat := (2 ^ f.eb - 1) * 2 ^ f.fb

/-- The default quiet NaN (spec/02 R56). -/
def FFmt.dnan (f : FFmt) : Nat := f.inf + 2 ^ (f.fb - 1)

/-- The sign bit's value. -/
def FFmt.signBit (f : FFmt) : Nat := 2 ^ (f.eb + f.fb)

/-- A number: n · 2^e. -/
structure Dy where
  n : Int
  e : Int
  deriving DecidableEq, Repr

/-- 2^k for an integer exponent that is not negative. -/
def shl (n : Int) (k : Int) : Int := n * (2 : Int) ^ k.toNat

def Dy.add (a b : Dy) : Dy :=
  if a.e ≤ b.e then ⟨a.n + shl b.n (b.e - a.e), a.e⟩ else ⟨shl a.n (a.e - b.e) + b.n, b.e⟩

def Dy.mul (a b : Dy) : Dy := ⟨a.n * b.n, a.e + b.e⟩

def Dy.neg (a : Dy) : Dy := ⟨-a.n, a.e⟩

/-- The sum of a list, exact. -/
def Dy.sum : List Dy → Dy
  | [] => ⟨0, 0⟩
  | d :: ds => d.add (Dy.sum ds)

def Dy.lt (a b : Dy) : Bool := decide ((a.add b.neg).n < 0)

/-- A value of a format (spec/02 R54, R56). A finite value is (-1)^s · m · 2^e. -/
inductive FVal where
  | nan (s : Bool) (frac : Nat)
  | inf (s : Bool)
  | fin (s : Bool) (m : Nat) (e : Int)
  deriving DecidableEq, Repr

/-- Reads the low bits of a register as a format. -/
def unpack (f : FFmt) (x : Nat) : FVal :=
  let frac := x % 2 ^ f.fb
  let ex := x / 2 ^ f.fb % 2 ^ f.eb
  let s := x / 2 ^ (f.eb + f.fb) % 2 = 1
  if ex = 2 ^ f.eb - 1 then (if frac = 0 then .inf s else .nan s frac)
  else if ex = 0 then .fin s frac (1 - (f.bias : Int) - f.fb)
  else .fin s (2 ^ f.fb + frac) ((ex : Int) - f.bias - f.fb)

/-- Is the NaN's top fraction bit set (spec/02 R56)? -/
def isQuiet (f : FFmt) (frac : Nat) : Bool := 2 ^ (f.fb - 1) ≤ frac

/-- Is the value a signalling NaN of the format? -/
def isSNaN (f : FFmt) : FVal → Bool
  | .nan _ frac => !isQuiet f frac
  | _ => false

def FVal.isNaN : FVal → Bool
  | .nan _ _ => true
  | _ => false

def FVal.isZero : FVal → Bool
  | .fin _ 0 _ => true
  | _ => false

def FVal.isInf : FVal → Bool
  | .inf _ => true
  | _ => false

def FVal.sign : FVal → Bool
  | .nan s _ => s
  | .inf s => s
  | .fin s _ _ => s

/-- The exact value of a finite one; 0 of the others. -/
def FVal.dy : FVal → Dy
  | .fin s m e => ⟨if s then -(m : Int) else m, e⟩
  | _ => ⟨0, 0⟩

/-- Puts a sign on a magnitude's encoding. -/
def withSign (f : FFmt) (s : Bool) (mag : Nat) : Nat := if s then f.signBit + mag else mag

/-- The quieted NaN of the same format (spec/02 R56, R61). -/
def quiet (f : FFmt) (s : Bool) (frac : Nat) : Nat :=
  withSign f s (f.inf + (if isQuiet f frac then frac else frac + 2 ^ (f.fb - 1)))

/-- Does rounding go away from zero? `q` is the truncated magnitude, `cmp` compares the rest with half a unit, `exact`
says that nothing is left (spec/02 R57). -/
def roundUp (rm : RMode) (s : Bool) (q : Nat) (cmp : Ordering) (exact : Bool) : Bool :=
  if exact then false
  else match rm with
    | .rne => cmp == .gt || (cmp == .eq && q % 2 = 1)
    | .rmm => cmp != .lt
    | .rz => false
    | .rdn => s
    | .rup => !s

/-- A magnitude m · 2^e (more than that, by less than 2^e, when `sticky`) as a multiple of 2^qe, with whether the
multiple is exact. -/
def roundAt (rm : RMode) (s : Bool) (m : Nat) (e : Int) (sticky : Bool) (qe : Int) : Nat × Bool :=
  if qe ≤ e then (m * 2 ^ (e - qe).toNat, !sticky)
  else
    let k := (qe - e).toNat
    let q := m / 2 ^ k
    let rest := m % 2 ^ k
    let half := 2 ^ (k - 1)
    let cmp : Ordering := if rest < half then .lt else if rest = half then (if sticky then .gt else .eq) else .gt
    let exact := rest == 0 && !sticky
    (if roundUp rm s q cmp exact then q + 1 else q, exact)

/-- The magnitude's encoding and the flags of a result beyond the largest finite value (spec/02 R58). -/
def overflowed (f : FFmt) (rm : RMode) (s : Bool) : Nat × Flags :=
  let toInf := match rm with
    | .rne | .rmm => true
    | .rz => false
    | .rdn => s
    | .rup => !s
  (if toInf then f.inf else f.inf - 1, flagOF ||| flagNX)

/-- Rounds a non-zero magnitude to the format (spec/02 R57-R59): the magnitude's encoding and its flags. -/
def roundMag (f : FFmt) (rm : RMode) (s : Bool) (m : Nat) (e : Int) (sticky : Bool) : Nat × Flags :=
  let top : Int := e + (Nat.log2 m : Int)
  let emin : Int := 1 - (f.bias : Int)
  let (q, exact) := roundAt rm s m e sticky ((if top < emin then emin else top) - f.fb)
  let mag := if top < emin then q else ((top + f.bias).toNat * 2 ^ f.fb) + q - 2 ^ f.fb
  if f.inf ≤ mag then overflowed f rm s
  else
    let tiny := top < emin && !(top + 1 = emin && (roundAt rm s m e sticky (top - f.fb)).1 = 2 ^ (f.fb + 1))
    (mag, if exact then 0 else if tiny then flagUF ||| flagNX else flagNX)

/-- Rounds an exact result; `zs` is the sign of an exact zero. -/
def roundDy (f : FFmt) (rm : RMode) (d : Dy) (zs : Bool) : Nat × Flags :=
  if d.n = 0 then (withSign f zs 0, 0)
  else
    let s := decide (d.n < 0)
    let (mag, fl) := roundMag f rm s d.n.natAbs d.e false
    (withSign f s mag, fl)

/-- NV when an operand is a signalling NaN (spec/02 R59, R61). -/
def snanFlag (f : FFmt) (vs : List FVal) : Flags := if vs.any (isSNaN f) then flagNV else 0

/-- The first NaN among operands, quieted (spec/02 R61). -/
def firstNaN (f : FFmt) : List FVal → Option Nat
  | [] => none
  | .nan s frac :: _ => some (quiet f s frac)
  | _ :: rest => firstNaN f rest

/-- Answers the NaN of R61 when an operand is one, else `k`. -/
def nanOr (f : FFmt) (vs : List FVal) (k : Nat × Flags) : Nat × Flags :=
  match firstNaN f vs with
  | some x => (x, snanFlag f vs)
  | none => k

/-- The sign of an exact zero sum (spec/02 R58). -/
def zeroSign (rm : RMode) (sa sb : Bool) : Bool := if sa = sb then sa else rm == .rdn

/-- a + b (spec/06 R145). -/
def fAdd (f : FFmt) (rm : RMode) (x y : Nat) : Nat × Flags :=
  let a := unpack f x
  let b := unpack f y
  nanOr f [a, b] <|
    match a, b with
    | .inf s, .inf s' => if s = s' then (withSign f s f.inf, 0) else (f.dnan, flagNV)
    | .inf s, _ => (withSign f s f.inf, 0)
    | _, .inf s => (withSign f s f.inf, 0)
    | _, _ =>
      roundDy f rm (a.dy.add b.dy) (if a.isZero && b.isZero then zeroSign rm a.sign b.sign else rm == .rdn)

/-- The encoding with the sign inverted; a NaN is left as it is, so that R61 keeps its sign. -/
def flipSign (f : FFmt) (x : Nat) : Nat :=
  if (unpack f x).isNaN then x else if f.signBit ≤ x % 2 ^ f.width then x - f.signBit else x + f.signBit

/-- a - b. -/
def fSub (f : FFmt) (rm : RMode) (x y : Nat) : Nat × Flags := fAdd f rm x (flipSign f (y % 2 ^ f.width))

/-- a · b. -/
def fMul (f : FFmt) (rm : RMode) (x y : Nat) : Nat × Flags :=
  let a := unpack f x
  let b := unpack f y
  let s := a.sign != b.sign
  nanOr f [a, b] <|
    if a.isInf || b.isInf then
      (if a.isZero || b.isZero then (f.dnan, flagNV) else (withSign f s f.inf, 0))
    else roundDy f rm (a.dy.mul b.dy) s

/-- a · b + c with one rounding (spec/02 R62). -/
def fFma (f : FFmt) (rm : RMode) (x y z : Nat) : Nat × Flags :=
  let a := unpack f x
  let b := unpack f y
  let c := unpack f z
  let s := a.sign != b.sign
  if a.isNaN || b.isNaN then nanOr f [a, b, c] (f.dnan, flagNV)
  else if (a.isInf && b.isZero) || (a.isZero && b.isInf) then
    (match c with
      | .nan cs frac => (quiet f cs frac, flagNV)
      | _ => (f.dnan, flagNV))
  else
    nanOr f [c] <|
      if a.isInf || b.isInf then
        (if c.isInf && c.sign != s then (f.dnan, flagNV) else (withSign f s f.inf, 0))
      else if c.isInf then (withSign f c.sign f.inf, 0)
      else
        let p := a.dy.mul b.dy
        roundDy f rm (p.add c.dy) (if p.n = 0 && c.isZero then zeroSign rm s c.sign else rm == .rdn)

/-- A quotient of magnitudes with at least `bits` bits: m · 2^e, and whether more is left. -/
def quotient (m1 : Nat) (e1 : Int) (m2 : Nat) (e2 : Int) (bits : Nat) : Nat × Int × Bool :=
  let k := bits + Nat.log2 m2 + 1
  (m1 * 2 ^ k / m2, e1 - e2 - k, m1 * 2 ^ k % m2 != 0)

/-- a / b (spec/06 R145). -/
def fDiv (f : FFmt) (rm : RMode) (x y : Nat) : Nat × Flags :=
  let a := unpack f x
  let b := unpack f y
  let s := a.sign != b.sign
  nanOr f [a, b] <|
    match a, b with
    | .inf _, .inf _ => (f.dnan, flagNV)
    | .inf _, _ => (withSign f s f.inf, 0)
    | _, .inf _ => (withSign f s 0, 0)
    | .fin _ m1 e1, .fin _ m2 e2 =>
      if m2 = 0 then (if m1 = 0 then (f.dnan, flagNV) else (withSign f s f.inf, flagDZ))
      else if m1 = 0 then (withSign f s 0, 0)
      else
        let (m, e, sticky) := quotient m1 e1 m2 e2 (f.fb + 3)
        let (mag, fl) := roundMag f rm s m e sticky
        (withSign f s mag, fl)
    | _, _ => (f.dnan, flagNV)

/-- The integer square root, bit by bit from bit `k - 1` down, over `r` already found. -/
def isqrtFrom (n : Nat) : Nat → Nat → Nat
  | 0, r => r
  | k + 1, r => if (r + 2 ^ k) * (r + 2 ^ k) ≤ n then isqrtFrom n k (r + 2 ^ k) else isqrtFrom n k r

/-- The integer square root. -/
def isqrt (n : Nat) : Nat := isqrtFrom n (Nat.log2 n / 2 + 1) 0

/-- The square root of m · 2^e with at least `bits` bits. -/
def rootOf (m : Nat) (e : Int) (bits : Nat) : Nat × Int × Bool :=
  let k : Nat := 2 * bits + (if e % 2 = 0 then 0 else 1)
  let n := m * 2 ^ k
  let r := isqrt n
  (r, (e - k) / 2, r * r != n)

/-- The square root of a (spec/06 R145). -/
def fSqrt (f : FFmt) (rm : RMode) (x : Nat) : Nat × Flags :=
  let a := unpack f x
  nanOr f [a] <|
    match a with
    | .inf false => (f.inf, 0)
    | .fin s 0 _ => (withSign f s 0, 0)
    | .fin false m e =>
      let (r, e', sticky) := rootOf m e (f.fb + 3)
      roundMag f rm false r e' sticky
    | _ => (f.dnan, flagNV)

/-- Order of two values that are no NaN; +0 and -0 compare equal. -/
def fOrd (a b : FVal) : Ordering :=
  match a, b with
  | .inf s, .inf s' => if s = s' then .eq else if s then .lt else .gt
  | .inf s, _ => if s then .lt else .gt
  | _, .inf s => if s then .gt else .lt
  | _, _ => if a.dy.lt b.dy then .lt else if b.dy.lt a.dy then .gt else .eq

/-- FMIN (`max` false) and FMAX (spec/06 R147). -/
def fMinMax (f : FFmt) (max : Bool) (x y : Nat) : Nat × Flags :=
  let a := unpack f x
  let b := unpack f y
  let fl := snanFlag f [a, b]
  match a.isNaN, b.isNaN with
  | true, true => nanOr f [a, b] (x % 2 ^ f.width, fl)
  | true, false => (y % 2 ^ f.width, fl)
  | false, true => (x % 2 ^ f.width, fl)
  | false, false =>
    let aFirst := match fOrd a b with
      | .lt => true
      | .gt => false
      | .eq => a.sign || !b.sign
    (if aFirst != max then x % 2 ^ f.width else y % 2 ^ f.width, fl)

/-- FCMP's seven bits (spec/06 R148). -/
def fCmp (f : FFmt) (x y : Nat) : BitVec 7 × Flags :=
  let a := unpack f x
  let b := unpack f y
  if a.isNaN || b.isNaN then (0x60, snanFlag f [a, b])
  else match fOrd a b with
    | .lt => (0x46, 0)
    | .eq => (0x15, 0)
    | .gt => (0x58, 0)

/-- FCLASS's one-hot mask (spec/06 R149). -/
def fClass (f : FFmt) (x : Nat) : BitVec 10 :=
  match unpack f x with
  | .nan _ frac => if isQuiet f frac then 0x200 else 0x100
  | .inf s => if s then 0x001 else 0x080
  | .fin s m _ =>
    if m = 0 then (if s then 0x008 else 0x010)
    else if m < 2 ^ f.fb then (if s then 0x004 else 0x020)
    else (if s then 0x002 else 0x040)

/-! ### Conversions (spec/02 R63-R65) -/

/-- Float to float. -/
def fConv (src dst : FFmt) (rm : RMode) (x : Nat) : Nat × Flags :=
  match unpack src x with
  | .nan s frac =>
    let q := if isQuiet src frac then frac else frac + 2 ^ (src.fb - 1)
    let p := if src.fb ≤ dst.fb then q * 2 ^ (dst.fb - src.fb) else q / 2 ^ (src.fb - dst.fb)
    (withSign dst s (dst.inf + p), if isQuiet src frac then 0 else flagNV)
  | .inf s => (withSign dst s dst.inf, 0)
  | .fin s m e => roundDy dst rm ⟨if s then -(m : Int) else m, e⟩ s

/-- Integer to float; a zero gives +0. A 16-bit value of 65,520 or more overflows FP16 by R58 under the modes that round it away
from the greatest finite number, though R64 names no 16-bit source among those that can (log 111: DEDUCED). -/
def intToFloat (dst : FFmt) (rm : RMode) (n : Int) : Nat × Flags := roundDy dst rm ⟨n, 0⟩ false

/-- The least and the greatest integer of a width (spec/02 R52). -/
def intMin (w : Nat) (signed : Bool) : Int := if signed then -(2 : Int) ^ (w - 1) else 0
def intMax (w : Nat) (signed : Bool) : Int := if signed then (2 : Int) ^ (w - 1) - 1 else (2 : Int) ^ w - 1

/-- The clamped value and SAT when clamping changed it (spec/02 R53). -/
def clampInt (w : Nat) (signed : Bool) (n : Int) : Int × Flags :=
  if n < intMin w signed then (intMin w signed, flagSAT)
  else if intMax w signed < n then (intMax w signed, flagSAT) else (n, 0)

/-- Wraps or clamps an exact integer result (spec/02 R53): the encoding in `w` bits. -/
def narrow (w : Nat) (signed sat : Bool) (n : Int) : Nat × Flags :=
  let (v, fl) := if sat then clampInt w signed n else (n, 0)
  ((v % (2 : Int) ^ w).toNat, fl)

/-- Float to integer (spec/02 R65): the encoding in `w` bits. -/
def floatToInt (src : FFmt) (rm : RMode) (w : Nat) (signed sat : Bool) (x : Nat) : Nat × Flags :=
  let wrap (n : Int) : Nat := (n % (2 : Int) ^ w).toNat
  match unpack src x with
  | .nan _ _ => (0, flagNV)
  | .inf s => (if sat then wrap (if s then intMin w signed else intMax w signed) else 0, flagNV)
  | .fin s m e =>
    let (q, exact) := roundAt rm s m e false 0
    let n : Int := if s then -(q : Int) else q
    if intMin w signed ≤ n ∧ n ≤ intMax w signed then (wrap n, if exact then 0 else flagNX)
    else (wrap (if sat then (clampInt w signed n).1 else n), flagNV)

end Sys2Proof.Machine
end

