-- ==== Sys2Proof/Decode.lean ====
section
/-!
DEFINITION. From the bytes of an instruction to the instruction, through a decode table, and back. The decoder is
total on any bytes: an encoding that is not an instruction (spec/03 R100) answers none. The encoder writes the words
of a well-formed instruction from the same encoding tables.
-/
set_option linter.constructorNameAsVariable false

namespace Sys2Proof

/-! ### Field codes (spec/03 R92 and the entries) -/

/-- The name whose code is `c` in a list of names in code order. -/
def nth {α : Type} (l : List α) (c : Nat) : Option α := l[c]?

/-- Width codes 0-6 (spec/03 R92). -/
def Width.code : Width → Nat
  | .b => 0 | .h => 1 | .w => 2 | .d => 3 | .bz => 4 | .hz => 5 | .wz => 6

def Width.of (c : Nat) : Option Width := nth [.b, .h, .w, .d, .bz, .hz, .wz] c

/-- AMO operation codes (spec/05 R133). -/
def AmoOp.code : AmoOp → Nat
  | .add => 0 | .swap => 1 | .and => 2 | .or => 3

def AmoOp.of (c : Nat) : Option AmoOp := nth [.add, .swap, .and, .or] c

/-- Atomic ordering codes (spec/05 R133). -/
def AmoOrd.code : AmoOrd → Nat
  | .plain => 0 | .acq => 1 | .rel => 2 | .ar => 3

def AmoOrd.of (c : Nat) : Option AmoOrd := nth [.plain, .acq, .rel, .ar] c

/-- WAITW conditions (spec/05 R139). -/
def WaitCond.code : WaitCond → Nat
  | .eq => 0 | .ne => 1 | .geU => 2 | .ltU => 3 | .geS => 4 | .ltS => 5

def WaitCond.of (c : Nat) : Option WaitCond := nth [.eq, .ne, .geU, .ltU, .geS, .ltS] c

/-- Float type codes (spec/03 R92). -/
def FType.code : FType → Nat
  | .f32 => 0 | .f16 => 1 | .bf16 => 2 | .f64 => 3

def FType.of (c : Nat) : Option FType := nth [.f32, .f16, .bf16, .f64] c

/-- Rounding codes: 0-4, and 7 from FRM (spec/03 R92). -/
def Rnd.code : Rnd → Nat
  | .rne => 0 | .rz => 1 | .rdn => 2 | .rup => 3 | .rmm => 4 | .frm => 7

def Rnd.of (c : Nat) : Option Rnd := if c = 7 then some .frm else nth [.rne, .rz, .rdn, .rup, .rmm] c

/-- FSGN operations (spec/06 R150). -/
def SgnOp.code : SgnOp → Nat
  | .copy => 0 | .inverse => 1 | .xor => 2

def SgnOp.of (c : Nat) : Option SgnOp := nth [.copy, .inverse, .xor] c

/-- Element type codes (spec/03 R92). -/
def EType.code : EType → Nat
  | .f32 => 0 | .f16 => 1 | .bf16 => 2 | .f64 => 3 | .i32 => 4 | .i16 => 5 | .i8 => 6 | .i64 => 7
  | .n32 => 8 | .n16 => 9 | .n8 => 10 | .n64 => 11

def EType.of (c : Nat) : Option EType :=
  nth [.f32, .f16, .bf16, .f64, .i32, .i16, .i8, .i64, .n32, .n16, .n8, .n64] c

/-- Compact lane types (spec/03 R93). -/
def CType.code : CType → Nat
  | .f32 => 0 | .f16 => 1 | .bf16 => 2 | .i32 => 3

def CType.of (c : Nat) : Option CType := nth [.f32, .f16, .bf16, .i32] c

/-- VCMP conditions (spec/06 R154). -/
def VCond.code : VCond → Nat
  | .eq => 0 | .ne => 1 | .lt => 2 | .le => 3 | .gt => 4 | .ge => 5

def VCond.of (c : Nat) : Option VCond := nth [.eq, .ne, .lt, .le, .gt, .ge] c

/-- Reduction operations (spec/06 R158, spec/16 R305). -/
def RedOp.code : RedOp → Nat
  | .sum => 0 | .min => 1 | .max => 2

def RedOp.of (c : Nat) : Option RedOp := nth [.sum, .min, .max] c

/-- REDV types (spec/16 R305). -/
def RedType.code : RedType → Nat
  | .f32 => 0 | .f64 => 1 | .i64 => 2 | .n64 => 3

def RedType.of (c : Nat) : Option RedType := nth [.f32, .f64, .i64, .n64] c

/-- CVT integer codes (spec/06 R160). -/
def IType.code : IType → Nat
  | .i8 => 0 | .i16 => 1 | .i32 => 2 | .i64 => 3 | .n8 => 4 | .n16 => 5 | .n32 => 6 | .n64 => 7

def IType.of (c : Nat) : Option IType := nth [.i8, .i16, .i32, .i64, .n8, .n16, .n32, .n64] c

/-- Floe format codes (spec/06 R163). -/
def Floe.code : Floe → Nat
  | .fl2 => 0 | .fl4 => 1 | .fl7 => 2

def Floe.of (c : Nat) : Option Floe := nth [.fl2, .fl4, .fl7] c

/-- Function codes (spec/06 R164). -/
def SfuFn.code : SfuFn → Nat
  | .recip => 0 | .rsqrt => 1 | .exp2 => 2 | .log2 => 3 | .sinPi => 4 | .cosPi => 5 | .tanh => 6 | .sigmoid => 7
  | .exp => 8

def SfuFn.of (c : Nat) : Option SfuFn :=
  nth [.recip, .rsqrt, .exp2, .log2, .sinPi, .cosPi, .tanh, .sigmoid, .exp] c

/-- Stream types: 0-11 element types, 16-18 floes (spec/11 R220). -/
def SType.code : SType → Nat
  | .elem t => t.code
  | .floe f => 16 + f.code

def SType.of (c : Nat) : Option SType :=
  if c < 16 then (EType.of c).map .elem else (Floe.of (c - 16)).map .floe

/-- Matrix format codes (spec/11 R229). -/
def MxFmt.code : MxFmt → Nat
  | .fl2 => 0 | .fl4 => 1 | .fl7 => 2 | .i8 => 3 | .f16 => 4 | .bf16 => 5 | .f32 => 6

def MxFmt.of (c : Nat) : Option MxFmt := nth [.fl2, .fl4, .fl7, .i8, .f16, .bf16, .f32] c

/-- CVT's rb field and float type (spec/06 R160): kind in bits 4:3, the other type in bits 2:0. -/
def CvtKind.code : CvtKind → Nat × Nat
  | .floatFloat s d => (d.code, s.code)
  | .intFloat s d => (8 + s.code, d.code)
  | .floatInt s d false => (16 + d.code, s.code)
  | .floatInt s d true => (24 + d.code, s.code)

def CvtKind.of (rb ft : Nat) : Option CvtKind := do
  let f ← FType.of ft
  if rb < 8 then return .floatFloat f (← FType.of rb)
  else if rb < 16 then return .intFloat (← IType.of (rb - 8)) f
  else if rb < 24 then return .floatInt f (← IType.of (rb - 16)) false
  else return .floatInt f (← IType.of (rb - 24)) true

/-! ### Operations, formats and opcode maps -/

/-- The 186 native operations (spec/03 R98). -/
inductive Op where
  | add | sub | mul | mulh | mulhu | div | divu | rem | remu | and
  | or | xor | andn | sll | srl | sra | min | max | minu | maxu
  | cmp | sel | clz | ctz | popc | brev | bswap | bfx | bfi | addi
  | andi | ori | xori | slli | srli | srai | cmpi | li | lih | lea
  | pcrel | bz | bnz | j | jr | call | callr | ret | save | restore
  | loop | loopi | loopx | ld | st | ldx | stx | ldl | stl | vld
  | vst | ldm | stm | movm | amo | cas | fence | pld | waitw | fadd
  | fsub | fmul | fdiv | fsqrt | fma | fmin | fmax | fcmp | fclass | fsgn
  | vadd | vsub | vmul | vfma | vmin | vmax | vand | vor | vxor | vshl
  | vshr | vcmp | vsel | vsplat | vext | vins | vshuf | vdot | vred | cvt
  | vcvt | flenc | fldec | sfu | vsfu | spset | spget | vsadd | vssub | vsmul
  | vsfma | vsaxpy | vsmax | vsmin | vsexp | vsred | vsdot | vscvt | vscopy | vsfill
  | mxwl | mxwf | mxa | mxd | mxz | mxstat | mxrem | cpy | cpyn | cpy2d
  | cpyg | cpye | qfence | gang | detach | rejoin | chkpt | stp | pushl | hold
  | unhold | dqpush | dqpop | sync | exch | redv | domset | domget | launch | cxopen
  | cxclose | cxins | cxrep | cxdel | cxcommit | cxsettle | cxwaitb | cxstate | cxlen | cxfork
  | kvaddr | kvld | kvapp | slabgrow | lah | tap | tapld | rng | gumb | penal
  | tourn | rsr | wsr | trap | tret | tfence | fetchb | cwb | cinv | iinv
  | dmapsel | dmapld | tlbinv | region | freeze | stop
  deriving DecidableEq, Repr

/-- The formats of the native instructions (spec/03 R89, R90). -/
inductive Fmt where
  | r | i | b | j | s | v | l
  deriving DecidableEq, Repr

/-- The native opcode map (spec/03 R98): in a row the k-th operation has opcode base + k. -/
def nativeRows : List (Nat × List Op) :=
  [ (0x000, [.add, .sub, .mul, .mulh, .mulhu, .div, .divu, .rem, .remu, .and, .or, .xor, .andn, .sll, .srl, .sra,
        .min, .max, .minu, .maxu, .cmp, .sel, .clz, .ctz, .popc, .brev, .bswap, .bfx, .bfi]),
    (0x040, [.addi, .andi, .ori, .xori, .slli, .srli, .srai, .cmpi, .li, .lih, .lea, .pcrel]),
    (0x080, [.bz, .bnz, .j, .jr, .call, .callr, .ret, .save, .restore, .loop, .loopi, .loopx]),
    (0x0C0, [.ld, .st, .ldx, .stx, .ldl, .stl, .vld, .vst, .ldm, .stm, .movm, .amo, .cas, .fence, .pld, .waitw]),
    (0x100, [.fadd, .fsub, .fmul, .fdiv, .fsqrt, .fma, .fmin, .fmax, .fcmp, .fclass, .fsgn]),
    (0x140, [.vadd, .vsub, .vmul, .vfma, .vmin, .vmax, .vand, .vor, .vxor, .vshl, .vshr, .vcmp, .vsel, .vsplat,
        .vext, .vins, .vshuf, .vdot, .vred]),
    (0x1C0, [.cvt, .vcvt, .flenc, .fldec, .sfu, .vsfu]),
    (0x200, [.spset, .spget, .vsadd, .vssub, .vsmul, .vsfma, .vsaxpy, .vsmax, .vsmin, .vsexp, .vsred, .vsdot,
        .vscvt, .vscopy, .vsfill]),
    (0x240, [.mxwl, .mxwf, .mxa, .mxd, .mxz, .mxstat, .mxrem]),
    (0x280, [.cpy, .cpyn, .cpy2d, .cpyg, .cpye, .qfence]),
    (0x290, [.gang, .detach, .rejoin, .chkpt]),
    (0x2C0, [.stp, .pushl, .hold, .unhold, .dqpush, .dqpop]),
    (0x300, [.sync, .exch, .redv, .domset, .domget]),
    (0x320, [.launch]),
    (0x340, [.cxopen, .cxclose, .cxins, .cxrep, .cxdel, .cxcommit, .cxsettle, .cxwaitb, .cxstate, .cxlen, .cxfork,
        .kvaddr, .kvld, .kvapp, .slabgrow, .lah, .tap, .tapld]),
    (0x380, [.rng, .gumb, .penal, .tourn]),
    (0x3C0, [.rsr, .wsr, .trap, .tret, .tfence, .fetchb, .cwb, .cinv, .iinv, .dmapsel, .dmapld, .tlbinv, .region,
        .freeze, .stop]) ]

/-- The JX7 map (spec/03 R97): opcodes `base` to `last` are the native ones from `native` on. -/
def jx7Rows : List (Nat × Nat × Nat) :=
  [ (0x000, 0x01C, 0x000), (0x020, 0x02B, 0x040), (0x030, 0x03B, 0x080), (0x040, 0x04F, 0x0C0), (0x050, 0x05A, 0x100),
    (0x060, 0x072, 0x140), (0x078, 0x079, 0x1C0), (0x07A, 0x07B, 0x1C4), (0x080, 0x08E, 0x200), (0x090, 0x095, 0x240),
    (0x0A0, 0x0A3, 0x280), (0x0A4, 0x0A4, 0x285), (0x0A8, 0x0AC, 0x300), (0x0B0, 0x0B9, 0x3C0) ]

/-- Each operation's format (spec/03 R98's last column). -/
def Op.fmt (o : Op) : Fmt :=
  match o with
  | .addi | .andi | .ori | .xori | .slli | .srli | .srai | .cmpi | .jr | .callr | .save | .restore | .loopx |
        .qfence | .trap | .dmapsel => .i
  | .bz | .bnz => .b
  | .j | .call => .j
  | .rsr | .wsr => .s
  | .vadd | .vsub | .vmul | .vfma | .vmin | .vmax | .vand | .vor | .vxor | .vshl | .vshr | .vcmp | .vsel | .vshuf |
        .vdot | .vred | .vsfu => .v
  | .li | .lih | .pcrel | .loop | .loopi | .ldl | .stl | .vld | .vst | .ldm | .stm | .cas | .pld | .fma | .vsplat |
        .vext | .vins | .vcvt | .flenc | .fldec | .spset | .vsadd | .vssub | .vsmul | .vsfma | .vsaxpy | .vsmax |
        .vsmin | .vsexp | .vsred | .vsdot | .vscvt | .vscopy | .vsfill | .mxwl | .mxwf | .mxa | .mxd | .cpy | .cpyn
        | .cpy2d | .cpyg | .cpye | .stp | .exch | .launch | .cxopen | .cxins | .cxrep | .cxdel | .cxcommit |
        .cxwaitb | .cxlen | .cxfork | .kvaddr | .kvld | .kvapp | .slabgrow | .lah | .tap | .tapld | .gumb | .penal |
        .tourn | .dmapld | .region => .l
  | _ => .r

/-- The operation a row list gives an opcode. -/
def rowsLookup : List (Nat × List Op) → Nat → Option Op
  | [], _ => none
  | (base, ops) :: rest, c => if base ≤ c ∧ c < base + ops.length then ops[c - base]? else rowsLookup rest c

/-- Table 0: the operation of a native opcode, none where unassigned (spec/03 R98). -/
def nativeOp (c : Nat) : Option Op := rowsLookup nativeRows c

/-- The native opcode of an operation. -/
def rowsOpcode : List (Nat × List Op) → Op → Nat
  | [], _ => 0
  | (base, ops) :: rest, o =>
    match ops.findIdx? (· == o) with
    | some k => base + k
    | none => rowsOpcode rest o

def Op.opcode (o : Op) : Nat := rowsOpcode nativeRows o

/-- Table 1: the JX7 map (spec/03 R97). -/
def jx7Op (c : Nat) : Option Op :=
  match jx7Rows.find? (fun r => r.1 ≤ c && c ≤ r.2.1) with
  | some (base, _, nat) => nativeOp (nat + (c - base))
  | none => none

/-- A loaded table (spec/03 R96): entry 0xFFFF is unassigned, any other names a native opcode. -/
def loadedOp (table : List (BitVec 16)) (c : Nat) : Option Op :=
  match table[c]? with
  | some e => if e = 0xFFFF then none else nativeOp e.toNat
  | none => none

/-! ### Encodings, field by field (spec/03 R89, R90, R93) -/

/-- An instruction word cut into its fields; `c` is a compact parcel: bits 15:6 and the compact opcode. -/
inductive Enc where
  | c (hi : BitVec 10) (op : BitVec 5)
  | r (op : BitVec 10) (fn rb ra rd : BitVec 5)
  | i (op : BitVec 10) (imm : BitVec 10) (ra rd : BitVec 5)
  | b (op : BitVec 10) (off : BitVec 15) (ra : BitVec 5)
  | j (op : BitVec 10) (off : BitVec 20)
  | s (op : BitVec 10) (top : BitVec 3) (num : BitVec 12) (reg : BitVec 5)
  | v (op : BitVec 10) (fn ty vb va vd : BitVec 4)
  | l (op : BitVec 10) (imm : BitVec 32) (rc rb ra rd : BitVec 5)
  deriving DecidableEq, Repr

/-- Length in bytes (spec/03 R88). -/
def Enc.len : Enc → Nat
  | .c _ _ => 2
  | .l _ _ _ _ _ _ => 8
  | _ => 4

/-- The instruction word, zero-extended to 64 bits. -/
def Enc.word : Enc → Word
  | .c hi op => (hi ++ op ++ 0#1).setWidth 64
  | .r op fn rb ra rd => (fn ++ rb ++ ra ++ rd ++ op ++ 1#2).setWidth 64
  | .i op imm ra rd => (imm ++ ra ++ rd ++ op ++ 1#2).setWidth 64
  | .b op off ra => (off ++ ra ++ op ++ 1#2).setWidth 64
  | .j op off => (off ++ op ++ 1#2).setWidth 64
  | .s op top num reg => (top ++ num ++ reg ++ op ++ 1#2).setWidth 64
  | .v op fn ty vb va vd => (fn ++ ty ++ vb ++ va ++ vd ++ op ++ 1#2).setWidth 64
  | .l op imm rc rb ra rd => imm ++ rc ++ rb ++ ra ++ rd ++ op ++ 3#2

/-- The length that bits 1:0 of the first parcel fix (spec/03 R88). -/
def wordLen (w : Word) : Nat :=
  if w.getLsbD 0 then (if w.getLsbD 1 then 8 else 4) else 2

/-- A format's length. -/
def Fmt.len : Fmt → Nat
  | .l => 8
  | _ => 4

/-- Bits `lo` to `lo + n - 1` of a word. -/
def field (w : Word) (lo n : Nat) : BitVec n := w.extractLsb' lo n

/-- A word cut by a format. -/
def cut (f : Fmt) (w : Word) : Enc :=
  match f with
  | .r => .r (field w 2 10) (field w 27 5) (field w 22 5) (field w 17 5) (field w 12 5)
  | .i => .i (field w 2 10) (field w 22 10) (field w 17 5) (field w 12 5)
  | .b => .b (field w 2 10) (field w 17 15) (field w 12 5)
  | .j => .j (field w 2 10) (field w 12 20)
  | .s => .s (field w 2 10) (field w 29 3) (field w 17 12) (field w 12 5)
  | .v => .v (field w 2 10) (field w 28 4) (field w 24 4) (field w 20 4) (field w 16 4) (field w 12 4)
  | .l => .l (field w 2 10) (field w 32 32) (field w 27 5) (field w 22 5) (field w 17 5) (field w 12 5)

/-! ### Shared shapes of fields -/

/-- `i` when every field the entry does not use is as it must be. -/
def only (c : Bool) (i : Instr) : Option Instr := if c then some i else none

/-- A v register in a 5-bit field: 16-31 is no v register (spec/03 R91). -/
def vfield (x : BitVec 5) : Option VReg := if x.getLsbD 4 then none else some (x.setWidth 4)

/-- A stream pointer in a 5-bit field (spec/11 R220). -/
def sfield (x : BitVec 5) : Option SReg := if x.toNat < 4 then some (x.setWidth 2) else none

/-- The memory modifier (spec/03 R92): width and whether the access is ordered. -/
def memMod (x : BitVec 5) : Option (Width × Bool) :=
  match Width.of (x.toNat % 8), x.toNat / 8 with
  | some w, 0 => some (w, false)
  | some w, 1 => some (w, true)
  | _, _ => none

def memCode (w : Width) (o : Bool) : BitVec 5 := BitVec.ofNat 5 (w.code + 8 * bit1 o)

/-- The float modifier (spec/03 R92). -/
def floatMod (x : BitVec 5) : Option (FType × Rnd) :=
  match FType.of (x.toNat % 4), Rnd.of (x.toNat / 4) with
  | some t, some r => some (t, r)
  | _, _ => none

def floatCode (t : FType) (r : Rnd) : BitVec 5 := BitVec.ofNat 5 (t.code + 4 * r.code)

/-- `fn` of the register arithmetic: bit 0 `.w`, bit 1 `.sat` (spec/04 R102). -/
def alu (mk : Reg → Reg → Reg → Bool → Bool → Instr) (fn rb ra rd : BitVec 5) : Option Instr :=
  only (fn.toNat < 4) (mk rd ra rb (fn.getLsbD 0) (fn.getLsbD 1))

def aluCode (w sat : Bool) : BitVec 5 := BitVec.ofNat 5 (bit1 w + 2 * bit1 sat)

/-- `fn` that is `.w` or zero (spec/04 R104, R105, R107). -/
def one (b : Bool) : BitVec 5 := BitVec.ofNat 5 (bit1 b)

/-- The ordering bit in a field's bits 4:3 (spec/05 R130, spec/13 R267). -/
def ordCode (b : Bool) : BitVec 5 := BitVec.ofNat 5 (8 * bit1 b)

def ordOf (x : BitVec 5) : Option Bool :=
  if x = 0 then some false else if x = 8 then some true else none

/-- A float binary operation's `fn` (spec/06 R145). -/
def fbin (mk : Reg → Reg → Reg → FType → Rnd → Instr) (fn rb ra rd : BitVec 5) : Option Instr :=
  match floatMod fn with
  | some (t, r) => some (mk rd ra rb t r)
  | none => none

/-- The `fn` of an instruction that does not round: the type, and 7 in bits 4:2 (spec/06 R147). -/
def ftypeOnly (fn : BitVec 5) : Option FType :=
  match floatMod fn with
  | some (t, .frm) => some t
  | _ => none

def fcmpLike (mk : Reg → Reg → Reg → FType → Instr) (fn rb ra rd : BitVec 5) : Option Instr :=
  match ftypeOnly fn with
  | some t => some (mk rd ra rb t)
  | none => none

/-- The V format's `fn` with a rounding code and `.sat` (spec/06 R151). -/
def laneMod (fn : BitVec 4) : Option (Bool × Rnd) :=
  match Rnd.of (fn.toNat % 8) with
  | some r => some (fn.getLsbD 3, r)
  | none => none

def laneCode (sat : Bool) (r : Rnd) : BitVec 4 := BitVec.ofNat 4 (8 * bit1 sat + r.code)

def vArith (mk : VReg → VReg → VReg → EType → Bool → Rnd → Instr) (fn ty vb va vd : BitVec 4) : Option Instr :=
  match EType.of ty.toNat, laneMod fn with
  | some t, some (sat, r) => some (mk vd va vb t sat r)
  | _, _ => none

def vPlain (mk : VReg → VReg → VReg → EType → Instr) (fn ty vb va vd : BitVec 4) : Option Instr :=
  match EType.of ty.toNat with
  | some t => only (fn == 7) (mk vd va vb t)
  | none => none

/-- The stream modifier word (spec/11 R220). -/
def streamCode (x : Reg) (sat : Bool) (r : Rnd) (st ty : Nat) : BitVec 32 :=
  0#13 ++ x ++ BitVec.ofBool sat ++ BitVec.ofNat 3 r.code ++ BitVec.ofNat 5 st ++ BitVec.ofNat 5 ty

/-- The stream modifier word cut: x, `.sat`, rounding, source type, type. -/
def streamMod (imm : BitVec 32) : Option (Reg × Bool × Rnd × Nat × Nat) :=
  match Rnd.of (imm.extractLsb' 10 3).toNat with
  | some r =>
    if imm.extractLsb' 19 13 = 0 then
      some (imm.extractLsb' 14 5, (imm.extractLsb' 13 1) = 1#1, r, (imm.extractLsb' 5 5).toNat, (imm.extractLsb' 0 5).toNat)
    else none
  | none => none

/-- A stream command over element types: the modifier word with stype 0, and the stream fields; `useX` says whether
the entry reads x. -/
def stream (imm : BitVec 32) (useX : Bool) (mk : Reg → EType → Bool → Rnd → Option Instr) : Option Instr :=
  match streamMod imm with
  | some (x, sat, r, st, ty) =>
    match EType.of ty with
    | some t => if st = 0 ∧ (useX ∨ x = 0) then mk x t sat r else none
    | none => none
  | none => none

def vs3 (mk : SReg → SReg → SReg → Reg → EType → Bool → Rnd → Instr) (imm : BitVec 32) (rc rb ra rd : BitVec 5) :
    Option Instr :=
  match sfield rd, sfield ra, sfield rb with
  | some d, some a, some b => stream imm false fun _ t sat r => some (mk d a b rc t sat r)
  | _, _, _ => none

def vs3n (mk : SReg → SReg → SReg → Reg → EType → Instr) (imm : BitVec 32) (rc rb ra rd : BitVec 5) : Option Instr :=
  match sfield rd, sfield ra, sfield rb with
  | some d, some a, some b => stream imm false fun _ t sat r => only (!sat && r == .frm) (mk d a b rc t)
  | _, _, _ => none

/-- An L-format instruction over four registers with a zero modifier word. -/
def l4 (mk : Reg → Reg → Reg → Reg → Instr) (imm : BitVec 32) (rc rb ra rd : BitVec 5) : Option Instr :=
  only (imm == 0) (mk rd ra rb rc)

def l3 (mk : Reg → Reg → Reg → Instr) (imm : BitVec 32) (rc rb ra rd : BitVec 5) : Option Instr :=
  only (imm == 0 && rc == 0) (mk rd ra rb)

def l2 (mk : Reg → Reg → Instr) (imm : BitVec 32) (rc rb ra rd : BitVec 5) : Option Instr :=
  only (imm == 0 && rc == 0 && rb == 0) (mk rd ra)

/-- An L-format instruction with a 32-bit immediate and a destination. -/
def lImm (mk : Reg → BitVec 32 → Instr) (imm : BitVec 32) (rc rb ra rd : BitVec 5) : Option Instr :=
  only (rc == 0 && rb == 0 && ra == 0) (mk rd imm)

/-! ### Decoding by format -/

/-- R-format entries. -/
def decodeR (o : Op) (fn rb ra rd : BitVec 5) : Option Instr :=
  match o with
  | .add => alu .add fn rb ra rd
  | .sub => alu .sub fn rb ra rd
  | .mul => alu .mul fn rb ra rd
  | .mulh => alu .mulh fn rb ra rd
  | .mulhu => alu .mulhu fn rb ra rd
  | .div => alu .div fn rb ra rd
  | .divu => alu .divu fn rb ra rd
  | .rem => alu .rem fn rb ra rd
  | .remu => alu .remu fn rb ra rd
  | .and => alu .and fn rb ra rd
  | .or => alu .or fn rb ra rd
  | .xor => alu .xor fn rb ra rd
  | .andn => alu .andn fn rb ra rd
  | .sll => only (fn.toNat < 2) (.sll rd ra rb (fn.getLsbD 0))
  | .srl => only (fn.toNat < 2) (.srl rd ra rb (fn.getLsbD 0))
  | .sra => only (fn.toNat < 2) (.sra rd ra rb (fn.getLsbD 0))
  | .min => alu .min fn rb ra rd
  | .max => alu .max fn rb ra rd
  | .minu => alu .minu fn rb ra rd
  | .maxu => alu .maxu fn rb ra rd
  | .cmp => only (fn.toNat < 2) (.cmp rd ra rb (fn.getLsbD 0))
  | .sel => some (.sel rd ra rb fn)
  | .clz => only (fn.toNat < 2 && rb == 0) (.clz rd ra (fn.getLsbD 0))
  | .ctz => only (fn.toNat < 2 && rb == 0) (.ctz rd ra (fn.getLsbD 0))
  | .popc => only (fn.toNat < 2 && rb == 0) (.popc rd ra (fn.getLsbD 0))
  | .brev => only (fn.toNat < 2 && rb == 0) (.brev rd ra (fn.getLsbD 0))
  | .bswap => only (fn.toNat < 2 && rb == 0) (.bswap rd ra (fn.getLsbD 0))
  | .bfx => only (fn.toNat < 2) (.bfx rd ra rb (fn.getLsbD 0))
  | .bfi => only (fn == 0) (.bfi rd ra rb)
  | .lea => only (fn.toNat < 4) (.lea rd ra rb (fn.setWidth 2))
  | .ret => only (fn == 0 && rb == 0 && ra == 0 && rd == 0) .ret
  | .ld => (memMod fn).map fun (w, o) => .ld rd ra rb w o
  | .st => (memMod fn).map fun (w, o) => .st rd ra rb w o
  | .ldx => (memMod fn).map fun (w, o) => .ldx rd ra rb w o
  | .stx => (memMod fn).map fun (w, o) => .stx rd ra rb w o
  | .movm =>
    match vfield rd, vfield ra with
    | some d, some a => only (fn == 0 && rb == 0) (.movm d a)
    | _, _ => none
  | .amo =>
    match AmoOp.of (fn.toNat % 4), AmoOrd.of (fn.toNat / 8) with
    | some op, some ord => some (.amo rd ra rb op (fn.getLsbD 2) ord)
    | _, _ => none
  | .fence => only (fn == 0 && rb == 0 && ra == 0 && rd == 0) .fence
  | .waitw => (WaitCond.of (fn.toNat % 8)).map fun c => .waitw rd ra rb c (fn.getLsbD 3) (fn.getLsbD 4)
  | .fadd => fbin .fadd fn rb ra rd
  | .fsub => fbin .fsub fn rb ra rd
  | .fmul => fbin .fmul fn rb ra rd
  | .fdiv => fbin .fdiv fn rb ra rd
  | .fsqrt => if rb = 0 then fbin (fun d a _ t r => .fsqrt d a t r) fn rb ra rd else none
  | .fmin => fcmpLike .fmin fn rb ra rd
  | .fmax => fcmpLike .fmax fn rb ra rd
  | .fcmp => fcmpLike .fcmp fn rb ra rd
  | .fclass => if rb = 0 then fcmpLike (fun d a _ t => .fclass d a t) fn rb ra rd else none
  | .fsgn =>
    match FType.of (fn.toNat % 4), SgnOp.of (fn.toNat / 4) with
    | some t, some op => some (.fsgn rd ra rb t op)
    | _, _ => none
  | .cvt =>
    match CvtKind.of rb.toNat (fn.toNat % 4), Rnd.of (fn.toNat / 4) with
    | some c, some r => some (.cvt rd ra c r)
    | _, _ => none
  | .sfu =>
    match SfuFn.of rb.toNat, floatMod fn with
    | some f, some (t, r) => some (.sfu rd ra f t r)
    | _, _ => none
  | .spget =>
    match sfield ra with
    | some a => only (fn == 0 && rb == 0) (.spget rd a)
    | none => none
  | .mxz => only (fn == 0 && rd == 0) (.mxz ra rb)
  | .mxstat => only (fn.toNat < 4 && rb == 0 && ra == 0) (.mxstat rd (fn.setWidth 2))
  | .mxrem => only (fn == 0) (.mxrem rd ra rb)
  | .gang => only (fn == 0 && rb == 0) (.gang rd ra)
  | .detach => only (fn == 0 && rb == 0 && ra == 0 && rd == 0) .detach
  | .rejoin => only (fn == 0 && rb == 0 && ra == 0 && rd == 0) .rejoin
  | .chkpt => only (fn == 0 && rb == 0 && ra == 0 && rd == 0) .chkpt
  | .pushl => only (fn == 0 && rd == 0) (.pushl ra rb)
  | .hold => (ordOf fn).map fun o => .hold rd ra rb o
  | .unhold => if rb = 0 then (ordOf fn).map fun o => .unhold rd ra o else none
  | .dqpush => only (fn == 0 && rb == 0) (.dqpush rd ra)
  | .dqpop => only (fn.toNat < 2 && rb == 0 && ra == 0) (.dqpop rd (fn.getLsbD 0))
  | .sync => only (fn == 0 && rb == 0 && ra == 0 && rd == 0) .sync
  | .redv =>
    match RedOp.of (fn.toNat % 4), RedType.of (fn.toNat / 4 % 4) with
    | some op, some ty => only (rb.toNat < 4) (.redv rd ra (rb.setWidth 2) op ty (fn.getLsbD 4))
    | _, _ => none
  | .domset => only (fn == 0 && rb == 0) (.domset rd ra)
  | .domget => only (fn.toNat < 4 && rb == 0 && ra == 0) (.domget rd (fn.setWidth 2))
  | .cxclose => only (fn == 0 && rb == 0) (.cxclose rd ra)
  | .cxsettle => only (fn == 0 && rb == 0) (.cxsettle rd ra)
  | .cxstate => only (fn.toNat < 4 && rb == 0) (.cxstate rd ra (fn.setWidth 2))
  | .rng => only (fn.toNat < 2) (.rng rd ra rb (fn.getLsbD 0))
  | .tret => only (fn == 0 && rb == 0 && ra == 0 && rd == 0) .tret
  | .tfence => only (fn == 0 && rb == 0 && ra == 0 && rd == 0) .tfence
  | .fetchb => only (fn == 0 && rb == 0 && ra == 0 && rd == 0) .fetchb
  | .cwb => only (fn == 0 && rb == 0 && rd == 0) (.cwb ra)
  | .cinv => only (fn == 0 && rb == 0 && rd == 0) (.cinv ra)
  | .iinv => only (fn == 0 && rb == 0 && rd == 0) (.iinv ra)
  | .tlbinv => only (fn.toNat < 4 && rb == 0 && rd == 0) (.tlbinv ra (fn.setWidth 2))
  | .freeze => only (fn == 0 && rb == 0 && ra == 0) (.freeze rd)
  | .stop => only (fn == 0 && rb == 0 && ra == 0 && rd == 0) .stop
  | _ => none

/-- I-format entries. -/
def decodeI (o : Op) (imm : BitVec 10) (ra rd : BitVec 5) : Option Instr :=
  match o with
  | .addi => some (.addi rd ra imm)
  | .andi => some (.andi rd ra imm)
  | .ori => some (.ori rd ra imm)
  | .xori => some (.xori rd ra imm)
  | .slli => some (.slli rd ra imm)
  | .srli => some (.srli rd ra imm)
  | .srai => some (.srai rd ra imm)
  | .cmpi => some (.cmpi rd ra imm)
  | .jr => only (rd == 0) (.jr ra imm)
  | .callr => only (rd == 0) (.callr ra imm)
  | .save => some (.save rd ra imm)
  | .restore => some (.restore rd ra imm)
  | .loopx => only (imm.toNat < 4 && ra == 0 && rd == 0) (.loopx (imm.setWidth 2))
  | .qfence => only (imm.toNat < 8 && ra == 0 && rd == 0) (.qfence (imm.setWidth 3))
  | .trap => only (ra == 0 && rd == 0) (.trap imm)
  | .dmapsel => only (imm.toNat < 4 && ra == 0 && rd == 0) (.dmapsel (imm.setWidth 2))
  | _ => none

/-- V-format entries. -/
def decodeV (o : Op) (fn ty vb va vd : BitVec 4) : Option Instr :=
  match o with
  | .vadd => vArith .vadd fn ty vb va vd
  | .vsub => vArith .vsub fn ty vb va vd
  | .vmul => vArith .vmul fn ty vb va vd
  | .vfma => vArith .vfma fn ty vb va vd
  | .vmin => vPlain .vmin fn ty vb va vd
  | .vmax => vPlain .vmax fn ty vb va vd
  | .vand => vPlain .vand fn ty vb va vd
  | .vor => vPlain .vor fn ty vb va vd
  | .vxor => vPlain .vxor fn ty vb va vd
  | .vshl => vPlain .vshl fn ty vb va vd
  | .vshr => vPlain .vshr fn ty vb va vd
  | .vsel => vPlain .vsel fn ty vb va vd
  | .vcmp =>
    match EType.of ty.toNat, VCond.of fn.toNat with
    | some t, some c => some (.vcmp vd va vb t c)
    | _, _ => none
  | .vshuf => only (fn == 7 && ty == 10) (.vshuf vd va vb)
  | .vdot => vArith .vdot fn ty vb va vd
  | .vred =>
    match EType.of ty.toNat, RedOp.of (fn.toNat % 4) with
    | some t, some op => only (fn.toNat < 8 && vb == 0) (.vred vd va t op (fn.getLsbD 2))
    | _, _ => none
  | .vsfu =>
    match EType.of ty.toNat, SfuFn.of fn.toNat with
    | some t, some f => only (vb == 0) (.vsfu vd va f t)
    | _, _ => none
  | _ => none

/-- L-format entries. -/
def decodeL (o : Op) (imm : BitVec 32) (rc rb ra rd : BitVec 5) : Option Instr :=
  match o with
  | .li => lImm .li imm rc rb ra rd
  | .lih => lImm .lih imm rc rb ra rd
  | .pcrel => lImm .pcrel imm rc rb ra rd
  | .loop =>
    only (rd.toNat < 2 && rc == 0 && rb == 0 && imm.extractLsb' 16 16 == 0)
      (.loop (rd.getLsbD 0) ra (imm.setWidth 16))
  | .loopi =>
    only (rd.toNat < 2 && rc == 0 && rb == 0 && ra == 0)
      (.loopi (rd.getLsbD 0) (imm.extractLsb' 16 16) (imm.extractLsb' 0 16))
  | .ldl => if rb = 0 then (memMod rc).map fun (w, o) => .ldl rd ra imm w o else none
  | .stl => if rb = 0 then (memMod rc).map fun (w, o) => .stl rd ra imm w o else none
  | .vld =>
    match vfield rd, ordOf (rc &&& 0x1E) with
    | some d, some o => only (rb == 0) (.vld d ra imm (rc.getLsbD 0) o)
    | _, _ => none
  | .vst =>
    match vfield rd, ordOf (rc &&& 0x1E) with
    | some d, some o => only (rb == 0) (.vst d ra imm (rc.getLsbD 0) o)
    | _, _ => none
  | .ldm =>
    match vfield rd, ordOf rc with
    | some d, some o => only (rb == 0) (.ldm d ra imm o)
    | _, _ => none
  | .stm =>
    match vfield rd, ordOf rc with
    | some d, some o => only (rb == 0) (.stm d ra imm o)
    | _, _ => none
  | .cas =>
    match AmoOrd.of (imm.toNat / 8) with
    | some ord =>
      if imm.toNat % 8 = 2 then some (.cas rd ra rb rc false ord)
      else if imm.toNat % 8 = 3 then some (.cas rd ra rb rc true ord) else none
    | none => none
  | .pld =>
    match memMod rc with
    | some (w, false) => only (rb.toNat < 8 && imm.extractLsb' 16 16 == 0) (.pld rd ra (rb.setWidth 3) (imm.setWidth 16) w)
    | _ => none
  | .fma =>
    if imm.toNat < 32 then
      (floatMod (imm.setWidth 5)).map fun (t, r) => .fma rd ra rb rc t r
    else none
  | .vsplat =>
    match vfield rd, EType.of imm.toNat with
    | some d, some t => only (rc == 0 && rb == 0) (.vsplat d ra t)
    | _, _ => none
  | .vext =>
    match vfield ra, EType.of (imm.extractLsb' 0 4).toNat with
    | some a, some t => only (rc == 0 && rb == 0 && imm.extractLsb' 8 24 == 0) (.vext rd a t (imm.extractLsb' 4 4))
    | _, _ => none
  | .vins =>
    match vfield rd, EType.of (imm.extractLsb' 0 4).toNat with
    | some d, some t => only (rc == 0 && rb == 0 && imm.extractLsb' 8 24 == 0) (.vins d ra t (imm.extractLsb' 4 4))
    | _, _ => none
  | .vcvt =>
    match vfield rd, vfield ra, EType.of (imm.extractLsb' 0 4).toNat, EType.of (imm.extractLsb' 4 4).toNat,
        Rnd.of (imm.extractLsb' 8 3).toNat with
    | some d, some a, some dt, some st, some r =>
      only (rc == 0 && rb == 0 && imm.extractLsb' 15 17 == 0)
        (.vcvt d a dt st (imm.extractLsb' 12 3) (imm.extractLsb' 11 1 == 1) r)
    | _, _, _, _, _ => none
  | .flenc =>
    match vfield rd, vfield ra, Floe.of (imm.extractLsb' 0 2).toNat with
    | some d, some a, some f => only (rc == 0 && rb == 0 && imm.extractLsb' 6 26 == 0) (.flenc d a f (imm.extractLsb' 2 4))
    | _, _, _ => none
  | .fldec =>
    match vfield rd, vfield ra, Floe.of (imm.extractLsb' 0 2).toNat with
    | some d, some a, some f => only (rc == 0 && rb == 0 && imm.extractLsb' 6 26 == 0) (.fldec d a f (imm.extractLsb' 2 4))
    | _, _, _ => none
  | .spset =>
    match sfield rd with
    | some d => only (rc == 0 && rb == 0 && imm.extractLsb' 16 16 == 0) (.spset d ra (imm.setWidth 16))
    | none => none
  | .vsadd => vs3 .vsadd imm rc rb ra rd
  | .vssub => vs3 .vssub imm rc rb ra rd
  | .vsmul => vs3 .vsmul imm rc rb ra rd
  | .vsfma => vs3 .vsfma imm rc rb ra rd
  | .vsaxpy =>
    match sfield rd, sfield ra, sfield rb with
    | some d, some a, some b => stream imm true fun x t sat r => some (.vsaxpy d a b rc x t sat r)
    | _, _, _ => none
  | .vsmax => vs3n .vsmax imm rc rb ra rd
  | .vsmin => vs3n .vsmin imm rc rb ra rd
  | .vsexp =>
    match sfield rd, sfield ra with
    | some d, some a => stream imm true fun x t sat r => only (!sat && rb == 0) (.vsexp d a rc x t r)
    | _, _ => none
  | .vsred =>
    match sfield rd, sfield ra with
    | some d, some a => stream imm false fun _ t sat r => only (!sat && rb == 0) (.vsred d a rc t r)
    | _, _ => none
  | .vsdot =>
    match sfield rd, sfield ra, sfield rb with
    | some d, some a, some b => stream imm false fun _ t sat r => only (!sat) (.vsdot d a b rc t r)
    | _, _, _ => none
  | .vscvt =>
    match sfield rd, sfield ra, streamMod imm with
    | some d, some a, some (x, sat, r, st, ty) =>
      match SType.of ty, SType.of st with
      | some dt, some s => only (x == 0 && rb == 0) (.vscvt d a rc dt s sat r)
      | _, _ => none
    | _, _, _ => none
  | .vscopy =>
    match sfield rd, sfield ra with
    | some d, some a => stream imm false fun _ t sat r => only (!sat && r == .frm && rb == 0) (.vscopy d a rc t)
    | _, _ => none
  | .vsfill =>
    match sfield rd with
    | some d => stream imm true fun x t sat r => only (!sat && r == .frm && rb == 0 && ra == 0) (.vsfill d rc x t)
    | none => none
  | .mxwl => (MxFmt.of imm.toNat).bind fun f => only (rc == 0 && rd == 0) (.mxwl f ra rb)
  | .mxwf => only (imm == 0 && rc == 0 && rb == 0 && ra == 0 && rd == 0) .mxwf
  | .mxa =>
    (MxFmt.of (imm.extractLsb' 0 3).toNat).bind fun f =>
      only (imm.extractLsb' 9 23 == 0) (.mxa f rd ra rb rc (imm.extractLsb' 3 5) (imm.extractLsb' 8 1 == 1))
  | .mxd =>
    (MxFmt.of (imm.toNat % 8)).bind fun f => only (imm.toNat < 16 && rd == 0) (.mxd f ra rb rc (imm.getLsbD 3))
  | .cpy => l3 .cpy imm rc rb ra rd
  | .cpyn => some (.cpyn rd ra rb rc imm)
  | .cpy2d => l4 .cpy2d imm rc rb ra rd
  | .cpyg => only (imm.extractLsb' 16 16 == 0) (.cpyg rd ra rb rc (imm.setWidth 16))
  | .cpye => only (rc == 0 && imm.extractLsb' 3 29 == 0) (.cpye rd ra rb (imm.setWidth 3))
  | .stp => (memMod rc).map fun (w, o) => .stp rd ra rb imm w o
  | .exch =>
    only (rc == 0 && imm.extractLsb' 16 16 == 0) (.exch rd ra rb (imm.setWidth 15) (imm.extractLsb' 15 1 == 1))
  | .launch => l2 .launch imm rc rb ra rd
  | .cxopen => l3 .cxopen imm rc rb ra rd
  | .cxins => l4 .cxins imm rc rb ra rd
  | .cxrep => l4 .cxrep imm rc rb ra rd
  | .cxdel => l3 .cxdel imm rc rb ra rd
  | .cxcommit => l4 .cxcommit imm rc rb ra rd
  | .cxwaitb => l4 .cxwaitb imm rc rb ra rd
  | .cxlen => l4 .cxlen imm rc rb ra rd
  | .cxfork => only (imm.toNat < 2) (.cxfork rd ra rb rc (imm.getLsbD 0))
  | .kvaddr => l4 .kvaddr imm rc rb ra rd
  | .kvld => only (imm.extractLsb' 16 16 == 0) (.kvld rd ra rb rc (imm.setWidth 16))
  | .kvapp => l4 .kvapp imm rc rb ra rd
  | .slabgrow => l4 .slabgrow imm rc rb ra rd
  | .lah => l3 .lah imm rc rb ra rd
  | .tap => only (imm.extractLsb' 5 27 == 0) (.tap rd ra rb rc (imm.setWidth 5))
  | .tapld => only (rc == 0 && imm.toNat < 4) (.tapld rd ra rb (imm.setWidth 2))
  | .gumb =>
    match vfield rd with
    | some d => only (rc == 0 && imm.extractLsb' 4 28 == 0) (.gumb d (imm.setWidth 4) ra rb)
    | none => none
  | .penal =>
    match vfield rd with
    | some d => only (imm == 0 && rc == 0) (.penal d ra rb)
    | none => none
  | .tourn => l3 .tourn imm rc rb ra rd
  | .dmapld => only (rc == 0 && rb == 0 && (imm == 2 || imm == 3)) (.dmapld rd ra (imm.getLsbD 0))
  | .region => only (rc == 0 && imm.toNat < 2) (.region rd ra rb (imm.getLsbD 0))
  | _ => none

/-- Compact parcels (spec/03 R93, R94). -/
def decodeC (hi : BitVec 10) (op : BitVec 5) : Option Instr :=
  let lane (mk : VReg → VReg → CType → Instr) : Option Instr :=
    (CType.of (hi.extractLsb' 8 2).toNat).map fun t => mk (hi.extractLsb' 0 4) (hi.extractLsb' 4 4) t
  let lo : Reg := hi.extractLsb' 0 5
  let up : BitVec 5 := hi.extractLsb' 5 5
  match op.toNat with
  | 0 => lane .cVadd
  | 1 => lane .cVsub
  | 2 => lane .cVmul
  | 3 => lane .cVmin
  | 4 => lane .cVmax
  | 5 => lane .cVand
  | 6 => lane .cVor
  | 7 => lane .cVxor
  | 8 => lane .cVshl
  | 9 => lane .cVshr
  | 10 => lane .cVceq
  | 11 => lane .cVclt
  | 12 => lane .cVmov
  | 13 => lane .cVabs
  | 14 => lane .cVneg
  | 15 => lane .cVspl
  | 16 => some (.cMov lo up)
  | 17 => some (.cAddi lo up)
  | 18 => some (.cLi lo up)
  | 19 => some (.cBz lo up)
  | 20 => some (.cBnz lo up)
  | 21 => some (.cJ hi)
  | 22 => some (.cLdw (hi.extractLsb' 0 3) (hi.extractLsb' 3 3) (hi.extractLsb' 6 4))
  | 23 => some (.cStw (hi.extractLsb' 0 3) (hi.extractLsb' 3 3) (hi.extractLsb' 6 4))
  | 24 => some (.cSlli lo up)
  | 25 => some (.cSrai lo up)
  | 26 => only (hi == 0) .cRet
  | 27 => only (hi == 0) .cNop
  | 28 => only (hi == 0) .cTfence
  | 29 => only (hi.extractLsb' 6 4 == 0) (.cWaitt (hi.extractLsb' 0 6))
  | 30 => some (.dep (hi.extractLsb' 9 1 == 1) (hi.extractLsb' 3 6) (hi.extractLsb' 0 3))
  | _ => none

/-- The instruction of an operation's fields. -/
def decodeOp (o : Op) (e : Enc) : Option Instr :=
  match e with
  | .r _ fn rb ra rd => decodeR o fn rb ra rd
  | .i _ imm ra rd => decodeI o imm ra rd
  | .b _ off ra => match o with | .bz => some (.bz ra off) | .bnz => some (.bnz ra off) | _ => none
  | .j _ off => match o with | .j => some (.j off) | .call => some (.call off) | _ => none
  | .s _ top num reg =>
    match o with
    | .rsr => only (top == 0) (.rsr reg num)
    | .wsr => only (top == 0) (.wsr num reg)
    | _ => none
  | .v _ fn ty vb va vd => decodeV o fn ty vb va vd
  | .l _ imm rc rb ra rd => decodeL o imm rc rb ra rd
  | .c _ _ => none

/-- Keeps an instruction that the part has. -/
def keepWf : Option Instr → Option Instr
  | some i => if i.wellFormed then some i else none
  | none => none

/-- Decodes an instruction word (zero-extended to 64 bits) through a decode table; none is ILLEGAL (spec/03 R95,
R100). -/
def decodeWord (table : Nat → Option Op) (w : Word) : Option Instr :=
  if w.getLsbD 0 then
    match table (field w 2 10).toNat with
    | some o => if o.fmt.len = wordLen w then keepWf (decodeOp o (cut o.fmt w)) else none
    | none => none
  else keepWf (decodeC (field w 6 10) (field w 1 5))

/-- The little-endian value of bytes (spec/00 R8). -/
def leNat : List Byte → Nat
  | [] => 0
  | b :: bs => b.toNat + 256 * leNat bs

/-- The `n` low bytes of a number, little-endian. -/
def leBytes : Nat → Nat → List Byte
  | 0, _ => []
  | n + 1, x => BitVec.ofNat 8 x :: leBytes n (x / 256)

/-- Decodes the bytes at an instruction's address: the instruction and its length; none when the bytes run out or are
no instruction. -/
def decodeBytes (table : Nat → Option Op) (bs : List Byte) : Option (Instr × Nat) :=
  match bs with
  | b0 :: _ :: _ =>
    let n := wordLen (b0.setWidth 64)
    if bs.length < n then none
    else (decodeWord table (BitVec.ofNat 64 (leNat (bs.take n)))).map fun i => (i, n)
  | _ => none

/-- The host's question (spec/opcode_table.json numbers bit 0 as the first parcel's lowest): the bytes of the word,
longer by zeros up to the longest instruction, through table 0. -/
def decodeTableWord (_nbits w : Nat) : Option Instr :=
  (decodeBytes nativeOp (leBytes 8 w)).map Prod.fst

/-! ### Encoding -/

def encV (o : Op) (fn : BitVec 4) (t : Nat) (vb va vd : VReg) : Enc :=
  .v (BitVec.ofNat 10 o.opcode) fn (BitVec.ofNat 4 t) vb va vd

def encR (o : Op) (fn rb ra rd : BitVec 5) : Enc := .r (BitVec.ofNat 10 o.opcode) fn rb ra rd

def encI (o : Op) (imm : BitVec 10) (ra rd : BitVec 5) : Enc := .i (BitVec.ofNat 10 o.opcode) imm ra rd

def encL (o : Op) (imm : BitVec 32) (rc rb ra rd : BitVec 5) : Enc :=
  .l (BitVec.ofNat 10 o.opcode) imm rc rb ra rd

/-- A v register, or a stream pointer, in a 5-bit field. -/
def v5 (v : VReg) : BitVec 5 := v.setWidth 5

def s5 (s : SReg) : BitVec 5 := s.setWidth 5

/-- The modifier word of VEXT and VINS (spec/06 R156). -/
def laneImm (t : EType) (lane : BitVec 4) : BitVec 32 := 0#24 ++ lane ++ BitVec.ofNat 4 t.code

/-- The modifier word of FLENC and FLDEC (spec/06 R163). -/
def floeImm (f : Floe) (slot : BitVec 4) : BitVec 32 := 0#26 ++ slot ++ BitVec.ofNat 2 f.code

/-- A compact lane instruction's bits 15:6 (spec/03 R93). -/
def encLane (op : Nat) (vd vs : VReg) (t : CType) : Enc :=
  .c (BitVec.ofNat 2 t.code ++ vs ++ vd) (BitVec.ofNat 5 op)

/-- A compact instruction with a register in bits 10:6 and five bits above it (spec/03 R94). -/
def encPair (op : Nat) (lo up : BitVec 5) : Enc := .c (up ++ lo) (BitVec.ofNat 5 op)

/-- The encoding of an instruction; an event has none. -/
def encode : Instr → Option Enc
  | .add rd ra rb w s => some (encR .add (aluCode w s) rb ra rd)
  | .sub rd ra rb w s => some (encR .sub (aluCode w s) rb ra rd)
  | .mul rd ra rb w s => some (encR .mul (aluCode w s) rb ra rd)
  | .mulh rd ra rb w s => some (encR .mulh (aluCode w s) rb ra rd)
  | .mulhu rd ra rb w s => some (encR .mulhu (aluCode w s) rb ra rd)
  | .div rd ra rb w s => some (encR .div (aluCode w s) rb ra rd)
  | .divu rd ra rb w s => some (encR .divu (aluCode w s) rb ra rd)
  | .rem rd ra rb w s => some (encR .rem (aluCode w s) rb ra rd)
  | .remu rd ra rb w s => some (encR .remu (aluCode w s) rb ra rd)
  | .and rd ra rb w s => some (encR .and (aluCode w s) rb ra rd)
  | .or rd ra rb w s => some (encR .or (aluCode w s) rb ra rd)
  | .xor rd ra rb w s => some (encR .xor (aluCode w s) rb ra rd)
  | .andn rd ra rb w s => some (encR .andn (aluCode w s) rb ra rd)
  | .sll rd ra rb w => some (encR .sll (one w) rb ra rd)
  | .srl rd ra rb w => some (encR .srl (one w) rb ra rd)
  | .sra rd ra rb w => some (encR .sra (one w) rb ra rd)
  | .min rd ra rb w s => some (encR .min (aluCode w s) rb ra rd)
  | .max rd ra rb w s => some (encR .max (aluCode w s) rb ra rd)
  | .minu rd ra rb w s => some (encR .minu (aluCode w s) rb ra rd)
  | .maxu rd ra rb w s => some (encR .maxu (aluCode w s) rb ra rd)
  | .cmp rd ra rb w => some (encR .cmp (one w) rb ra rd)
  | .sel rd ra rb rc => some (encR .sel rc rb ra rd)
  | .clz rd ra w => some (encR .clz (one w) 0 ra rd)
  | .ctz rd ra w => some (encR .ctz (one w) 0 ra rd)
  | .popc rd ra w => some (encR .popc (one w) 0 ra rd)
  | .brev rd ra w => some (encR .brev (one w) 0 ra rd)
  | .bswap rd ra w => some (encR .bswap (one w) 0 ra rd)
  | .bfx rd ra rb sx => some (encR .bfx (one sx) rb ra rd)
  | .bfi rd ra rb => some (encR .bfi 0 rb ra rd)
  | .addi rd ra imm => some (encI .addi imm ra rd)
  | .andi rd ra imm => some (encI .andi imm ra rd)
  | .ori rd ra imm => some (encI .ori imm ra rd)
  | .xori rd ra imm => some (encI .xori imm ra rd)
  | .slli rd ra imm => some (encI .slli imm ra rd)
  | .srli rd ra imm => some (encI .srli imm ra rd)
  | .srai rd ra imm => some (encI .srai imm ra rd)
  | .cmpi rd ra imm => some (encI .cmpi imm ra rd)
  | .li rd imm => some (encL .li imm 0 0 0 rd)
  | .lih rd imm => some (encL .lih imm 0 0 0 rd)
  | .lea rd ra rb sh => some (encR .lea (sh.setWidth 5) rb ra rd)
  | .pcrel rd imm => some (encL .pcrel imm 0 0 0 rd)
  | .bz ra off => some (.b (BitVec.ofNat 10 Op.bz.opcode) off ra)
  | .bnz ra off => some (.b (BitVec.ofNat 10 Op.bnz.opcode) off ra)
  | .j off => some (.j (BitVec.ofNat 10 Op.j.opcode) off)
  | .jr ra imm => some (encI .jr imm ra 0)
  | .call off => some (.j (BitVec.ofNat 10 Op.call.opcode) off)
  | .callr ra imm => some (encI .callr imm ra 0)
  | .ret => some (encR .ret 0 0 0 0)
  | .save rd ra imm => some (encI .save imm ra rd)
  | .restore rd ra imm => some (encI .restore imm ra rd)
  | .loop k ra span => some (encL .loop (span.setWidth 32) 0 0 ra (one k))
  | .loopi k count span => some (encL .loopi (count ++ span) 0 0 0 (one k))
  | .loopx which => some (encI .loopx (which.setWidth 10) 0 0)
  | .ld rd ra disp w o => some (encR .ld (memCode w o) disp ra rd)
  | .st rd ra disp w o => some (encR .st (memCode w o) disp ra rd)
  | .ldx rd ra rb w o => some (encR .ldx (memCode w o) rb ra rd)
  | .stx rd ra rb w o => some (encR .stx (memCode w o) rb ra rd)
  | .ldl rd ra disp w o => some (encL .ldl disp (memCode w o) 0 ra rd)
  | .stl rd ra disp w o => some (encL .stl disp (memCode w o) 0 ra rd)
  | .vld vd ra disp p o => some (encL .vld disp (BitVec.ofNat 5 (bit1 p + 8 * bit1 o)) 0 ra (v5 vd))
  | .vst vd ra disp p o => some (encL .vst disp (BitVec.ofNat 5 (bit1 p + 8 * bit1 o)) 0 ra (v5 vd))
  | .ldm vd ra disp o => some (encL .ldm disp (ordCode o) 0 ra (v5 vd))
  | .stm vd ra disp o => some (encL .stm disp (ordCode o) 0 ra (v5 vd))
  | .movm vd va => some (encR .movm 0 0 (v5 va) (v5 vd))
  | .amo rd ra rb op d ord => some (encR .amo (BitVec.ofNat 5 (op.code + 4 * bit1 d + 8 * ord.code)) rb ra rd)
  | .cas rd ra rb rc d ord => some (encL .cas (BitVec.ofNat 32 (2 + bit1 d + 8 * ord.code)) rc rb ra rd)
  | .fence => some (encR .fence 0 0 0 0)
  | .pld rd ra k off w => some (encL .pld (off.setWidth 32) (memCode w false) (k.setWidth 5) ra rd)
  | .waitw rd ra rb c d a => some (encR .waitw (BitVec.ofNat 5 (c.code + 8 * bit1 d + 16 * bit1 a)) rb ra rd)
  | .fadd rd ra rb t r => some (encR .fadd (floatCode t r) rb ra rd)
  | .fsub rd ra rb t r => some (encR .fsub (floatCode t r) rb ra rd)
  | .fmul rd ra rb t r => some (encR .fmul (floatCode t r) rb ra rd)
  | .fdiv rd ra rb t r => some (encR .fdiv (floatCode t r) rb ra rd)
  | .fsqrt rd ra t r => some (encR .fsqrt (floatCode t r) 0 ra rd)
  | .fma rd ra rb rc t r => some (encL .fma ((floatCode t r).setWidth 32) rc rb ra rd)
  | .fmin rd ra rb t => some (encR .fmin (floatCode t .frm) rb ra rd)
  | .fmax rd ra rb t => some (encR .fmax (floatCode t .frm) rb ra rd)
  | .fcmp rd ra rb t => some (encR .fcmp (floatCode t .frm) rb ra rd)
  | .fclass rd ra t => some (encR .fclass (floatCode t .frm) 0 ra rd)
  | .fsgn rd ra rb t op => some (encR .fsgn (BitVec.ofNat 5 (t.code + 4 * op.code)) rb ra rd)
  | .vadd vd va vb t s r => some (encV .vadd (laneCode s r) t.code vb va vd)
  | .vsub vd va vb t s r => some (encV .vsub (laneCode s r) t.code vb va vd)
  | .vmul vd va vb t s r => some (encV .vmul (laneCode s r) t.code vb va vd)
  | .vfma vd va vb t s r => some (encV .vfma (laneCode s r) t.code vb va vd)
  | .vmin vd va vb t => some (encV .vmin 7 t.code vb va vd)
  | .vmax vd va vb t => some (encV .vmax 7 t.code vb va vd)
  | .vand vd va vb t => some (encV .vand 7 t.code vb va vd)
  | .vor vd va vb t => some (encV .vor 7 t.code vb va vd)
  | .vxor vd va vb t => some (encV .vxor 7 t.code vb va vd)
  | .vshl vd va vb t => some (encV .vshl 7 t.code vb va vd)
  | .vshr vd va vb t => some (encV .vshr 7 t.code vb va vd)
  | .vcmp vd va vb t c => some (encV .vcmp (BitVec.ofNat 4 c.code) t.code vb va vd)
  | .vsel vd va vb t => some (encV .vsel 7 t.code vb va vd)
  | .vsplat vd ra t => some (encL .vsplat (BitVec.ofNat 32 t.code) 0 0 ra (v5 vd))
  | .vext rd va t lane => some (encL .vext (laneImm t lane) 0 0 (v5 va) rd)
  | .vins vd ra t lane => some (encL .vins (laneImm t lane) 0 0 ra (v5 vd))
  | .vshuf vd va vb => some (encV .vshuf 7 10 vb va vd)
  | .vdot vd va vb t s r => some (encV .vdot (laneCode s r) t.code vb va vd)
  | .vred vd va t op s => some (encV .vred (BitVec.ofNat 4 (op.code + 4 * bit1 s)) t.code 0 va vd)
  | .cvt rd ra c r =>
    some (encR .cvt (BitVec.ofNat 5 (c.code.2 + 4 * r.code)) (BitVec.ofNat 5 c.code.1) ra rd)
  | .vcvt vd va dt st part s r =>
    some (encL .vcvt (0#17 ++ part ++ BitVec.ofBool s ++ BitVec.ofNat 3 r.code ++ BitVec.ofNat 4 st.code ++
      BitVec.ofNat 4 dt.code) 0 0 (v5 va) (v5 vd))
  | .flenc vd va f slot => some (encL .flenc (floeImm f slot) 0 0 (v5 va) (v5 vd))
  | .fldec vd va f slot => some (encL .fldec (floeImm f slot) 0 0 (v5 va) (v5 vd))
  | .sfu rd ra f t r => some (encR .sfu (floatCode t r) (BitVec.ofNat 5 f.code) ra rd)
  | .vsfu vd va f t => some (encV .vsfu (BitVec.ofNat 4 f.code) t.code 0 va vd)
  | .spset sd ra stride => some (encL .spset (stride.setWidth 32) 0 0 ra (s5 sd))
  | .spget rd sa => some (encR .spget 0 0 (s5 sa) rd)
  | .vsadd d a b rc t s r => some (encL .vsadd (streamCode 0 s r 0 t.code) rc (s5 b) (s5 a) (s5 d))
  | .vssub d a b rc t s r => some (encL .vssub (streamCode 0 s r 0 t.code) rc (s5 b) (s5 a) (s5 d))
  | .vsmul d a b rc t s r => some (encL .vsmul (streamCode 0 s r 0 t.code) rc (s5 b) (s5 a) (s5 d))
  | .vsfma d a b rc t s r => some (encL .vsfma (streamCode 0 s r 0 t.code) rc (s5 b) (s5 a) (s5 d))
  | .vsaxpy d a b rc x t s r => some (encL .vsaxpy (streamCode x s r 0 t.code) rc (s5 b) (s5 a) (s5 d))
  | .vsmax d a b rc t => some (encL .vsmax (streamCode 0 false .frm 0 t.code) rc (s5 b) (s5 a) (s5 d))
  | .vsmin d a b rc t => some (encL .vsmin (streamCode 0 false .frm 0 t.code) rc (s5 b) (s5 a) (s5 d))
  | .vsexp d a rc x t r => some (encL .vsexp (streamCode x false r 0 t.code) rc 0 (s5 a) (s5 d))
  | .vsred d a rc t r => some (encL .vsred (streamCode 0 false r 0 t.code) rc 0 (s5 a) (s5 d))
  | .vsdot d a b rc t r => some (encL .vsdot (streamCode 0 false r 0 t.code) rc (s5 b) (s5 a) (s5 d))
  | .vscvt d a rc dt st s r => some (encL .vscvt (streamCode 0 s r st.code dt.code) rc 0 (s5 a) (s5 d))
  | .vscopy d a rc t => some (encL .vscopy (streamCode 0 false .frm 0 t.code) rc 0 (s5 a) (s5 d))
  | .vsfill d rc x t => some (encL .vsfill (streamCode x false .frm 0 t.code) rc 0 0 (s5 d))
  | .mxwl f ra rb => some (encL .mxwl (BitVec.ofNat 32 f.code) 0 rb ra 0)
  | .mxwf => some (encL .mxwf 0 0 0 0 0)
  | .mxa f rd ra rb rc jn s =>
    some (encL .mxa (0#23 ++ BitVec.ofBool s ++ jn ++ BitVec.ofNat 3 f.code) rc rb ra rd)
  | .mxd f ra rb rc clr => some (encL .mxd (BitVec.ofNat 32 (f.code + 8 * bit1 clr)) rc rb ra 0)
  | .mxz ra rb => some (encR .mxz 0 rb ra 0)
  | .mxstat rd k => some (encR .mxstat (k.setWidth 5) 0 0 rd)
  | .mxrem rd ra rb => some (encR .mxrem 0 rb ra rd)
  | .cpy rd ra rb => some (encL .cpy 0 0 rb ra rd)
  | .cpyn rd ra rb rc val => some (encL .cpyn val rc rb ra rd)
  | .cpy2d rd ra rb rc => some (encL .cpy2d 0 rc rb ra rd)
  | .cpyg rd ra rb rc size => some (encL .cpyg (size.setWidth 32) rc rb ra rd)
  | .cpye rd ra rb tag => some (encL .cpye (tag.setWidth 32) 0 rb ra rd)
  | .qfence mask => some (encI .qfence (mask.setWidth 10) 0 0)
  | .gang rd ra => some (encR .gang 0 0 ra rd)
  | .detach => some (encR .detach 0 0 0 0)
  | .rejoin => some (encR .rejoin 0 0 0 0)
  | .chkpt => some (encR .chkpt 0 0 0 0)
  | .stp rd ra rb disp w o => some (encL .stp disp (memCode w o) rb ra rd)
  | .pushl ra rb => some (encR .pushl 0 rb ra 0)
  | .hold rd ra rb o => some (encR .hold (ordCode o) rb ra rd)
  | .unhold rd ra o => some (encR .unhold (ordCode o) 0 ra rd)
  | .dqpush rd ra => some (encR .dqpush 0 0 ra rd)
  | .dqpop rd w => some (encR .dqpop (one w) 0 0 rd)
  | .sync => some (encR .sync 0 0 0 0)
  | .exch rd ra rb dst clr => some (encL .exch (0#16 ++ BitVec.ofBool clr ++ dst) 0 rb ra rd)
  | .redv rd ra ch op ty s =>
    some (encR .redv (BitVec.ofNat 5 (op.code + 4 * ty.code + 16 * bit1 s)) (ch.setWidth 5) ra rd)
  | .domset rd ra => some (encR .domset 0 0 ra rd)
  | .domget rd k => some (encR .domget (k.setWidth 5) 0 0 rd)
  | .launch rd ra => some (encL .launch 0 0 0 ra rd)
  | .cxopen rd ra rb => some (encL .cxopen 0 0 rb ra rd)
  | .cxclose rd ra => some (encR .cxclose 0 0 ra rd)
  | .cxins rd ra rb rc => some (encL .cxins 0 rc rb ra rd)
  | .cxrep rd ra rb rc => some (encL .cxrep 0 rc rb ra rd)
  | .cxdel rd ra rb => some (encL .cxdel 0 0 rb ra rd)
  | .cxcommit rd ra rb rc => some (encL .cxcommit 0 rc rb ra rd)
  | .cxsettle rd ra => some (encR .cxsettle 0 0 ra rd)
  | .cxwaitb rd ra rb rc => some (encL .cxwaitb 0 rc rb ra rd)
  | .cxstate rd ra k => some (encR .cxstate (k.setWidth 5) 0 ra rd)
  | .cxlen rd ra rb rc => some (encL .cxlen 0 rc rb ra rd)
  | .cxfork rd ra rb rc k => some (encL .cxfork (BitVec.ofNat 32 (bit1 k)) rc rb ra rd)
  | .kvaddr rd ra rb rc => some (encL .kvaddr 0 rc rb ra rd)
  | .kvld rd ra rb rc n => some (encL .kvld (n.setWidth 32) rc rb ra rd)
  | .kvapp rd ra rb rc => some (encL .kvapp 0 rc rb ra rd)
  | .slabgrow rd ra rb rc => some (encL .slabgrow 0 rc rb ra rd)
  | .lah rd ra rb => some (encL .lah 0 0 rb ra rd)
  | .tap rd ra rb rc t => some (encL .tap (t.setWidth 32) rc rb ra rd)
  | .tapld rd ra rb op => some (encL .tapld (op.setWidth 32) 0 rb ra rd)
  | .rng rd ra rb half => some (encR .rng (one half) rb ra rd)
  | .gumb vd va ra rb => some (encL .gumb (va.setWidth 32) 0 rb ra (v5 vd))
  | .penal vd ra rb => some (encL .penal 0 0 rb ra (v5 vd))
  | .tourn rd ra rb => some (encL .tourn 0 0 rb ra rd)
  | .rsr rd num => some (.s (BitVec.ofNat 10 Op.rsr.opcode) 0 num rd)
  | .wsr num ra => some (.s (BitVec.ofNat 10 Op.wsr.opcode) 0 num ra)
  | .trap imm => some (encI .trap imm 0 0)
  | .tret => some (encR .tret 0 0 0 0)
  | .tfence => some (encR .tfence 0 0 0 0)
  | .fetchb => some (encR .fetchb 0 0 0 0)
  | .cwb ra => some (encR .cwb 0 0 ra 0)
  | .cinv ra => some (encR .cinv 0 0 ra 0)
  | .iinv ra => some (encR .iinv 0 0 ra 0)
  | .dmapsel k => some (encI .dmapsel (k.setWidth 10) 0 0)
  | .dmapld rd ra third => some (encL .dmapld (BitVec.ofNat 32 (2 + bit1 third)) 0 0 ra rd)
  | .tlbinv ra scope => some (encR .tlbinv (scope.setWidth 5) 0 ra 0)
  | .region rd ra rb c => some (encL .region (BitVec.ofNat 32 (bit1 c)) 0 rb ra rd)
  | .freeze rd => some (encR .freeze 0 0 0 rd)
  | .stop => some (encR .stop 0 0 0 0)
  | .cVadd vd vs t => some (encLane 0 vd vs t)
  | .cVsub vd vs t => some (encLane 1 vd vs t)
  | .cVmul vd vs t => some (encLane 2 vd vs t)
  | .cVmin vd vs t => some (encLane 3 vd vs t)
  | .cVmax vd vs t => some (encLane 4 vd vs t)
  | .cVand vd vs t => some (encLane 5 vd vs t)
  | .cVor vd vs t => some (encLane 6 vd vs t)
  | .cVxor vd vs t => some (encLane 7 vd vs t)
  | .cVshl vd vs t => some (encLane 8 vd vs t)
  | .cVshr vd vs t => some (encLane 9 vd vs t)
  | .cVceq vd vs t => some (encLane 10 vd vs t)
  | .cVclt vd vs t => some (encLane 11 vd vs t)
  | .cVmov vd vs t => some (encLane 12 vd vs t)
  | .cVabs vd vs t => some (encLane 13 vd vs t)
  | .cVneg vd vs t => some (encLane 14 vd vs t)
  | .cVspl vd vs t => some (encLane 15 vd vs t)
  | .cMov rd ra => some (encPair 16 rd ra)
  | .cAddi rd imm => some (encPair 17 rd imm)
  | .cLi rd imm => some (encPair 18 rd imm)
  | .cBz ra off => some (encPair 19 ra off)
  | .cBnz ra off => some (encPair 20 ra off)
  | .cJ off => some (.c off 21)
  | .cLdw rd ra idx => some (.c (idx ++ ra ++ rd) 22)
  | .cStw rd ra idx => some (.c (idx ++ ra ++ rd) 23)
  | .cSlli rd sh => some (encPair 24 rd sh)
  | .cSrai rd sh => some (encPair 25 rd sh)
  | .cRet => some (.c 0 26)
  | .cNop => some (.c 0 27)
  | .cTfence => some (.c 0 28)
  | .cWaitt mask => some (.c (0#4 ++ mask) 29)
  | .dep y mask tag => some (.c (BitVec.ofBool y ++ mask ++ tag) 30)
  | _ => none

/-- The bytes of an instruction, in memory order. -/
def encodeBytes (i : Instr) : Option (List Byte) := (encode i).map fun e => leBytes e.len e.word.toNat

end Sys2Proof
end

