-- ==== Sys2Proof/Machine/State.lean ====
section
/-!
DEFINITION. The state of the part: every thread, core, home slice, sequence, partition, launch, mailbox and port that
the spec names, as plain data, and the state at power-on. INVENTORY.md, section State, lists each field with its rule.
-/
namespace Sys2Proof.Machine

/-- The two privilege levels (spec/00, Conventions). -/
inductive Level where
  | u | s
  deriving DecidableEq, Repr

/-- The causes of a trap (spec/07 R167). -/
inductive Cause where
  | illegal | priv | trap | fetchFault | loadFault | storeFault | misalign | windowCross | paramUnbound | spill | fill
  | arith | poison | engine | lease | exchange | context | tap | budget | break | lockstep | machine
  deriving DecidableEq, Repr

/-! ### Thread -/

/-- A resident window's own registers (spec/03 R76): the o registers are the next younger window's i registers. -/
structure Win where
  l : Vector Word 8
  i : Vector Word 8
  deriving DecidableEq, Repr

/-- Scalar, window, SIMD and stream-pointer registers (spec/03 R74-R79). `outs` are the o registers of the youngest
resident window, which `top` numbers (log 10: DEDUCED). -/
structure Regs where
  g    : Vector Word 8
  wins : Vector Win 8
  outs : Vector Word 8
  top  : BitVec 3
  cwp  : BitVec 3
  wres : BitVec 4
  v    : Vector VWord 16
  sp   : Vector (BitVec 32) 4
  deriving DecidableEq, Repr

/-- The hardware loop registers (spec/03 R80): bit 0 of an address reads zero. -/
structure Loops where
  ls0 : Word
  le0 : Word
  lc0 : BitVec 32
  ls1 : Word
  le1 : Word
  lc1 : BitVec 32
  la  : BitVec 2
  deriving DecidableEq, Repr

/-- The trap context (spec/03 R87, spec/07 R171). `tstat` is HREL, PLA and PPL as the register lays them out. -/
structure TrapCtx where
  tstat  : BitVec 4
  tpc    : Word
  tcause : BitVec 8
  tval   : Word
  tvec   : Word
  tscr   : Vector Word 4
  deriving DecidableEq, Repr

/-- A parameter window's registers PWBkA and PWBkZ (spec/05 R136). -/
structure Pwb where
  base  : BitVec 51
  bound : Bool
  size  : BitVec 17
  deriving DecidableEq, Repr

/-- LKBUD (spec/18 R374); `armed` is the budget at the last write of LKBUD, which a kind 6 record carries (R376). -/
structure Lkbud where
  en     : Bool
  handle : BitVec 20
  left   : BitVec 32
  armed  : BitVec 32
  deriving DecidableEq, Repr

/-- The other registers of a thread: flags and rounding (spec/03 R84), DMAP's own fields (R87), INSTRET (R86), HOLDST
(spec/13 R263), breakpoints (spec/16 R314), LKBUD, the path signature (spec/16 R319). -/
structure Special where
  fs      : BitVec 8
  fe      : BitVec 8
  frm     : BitVec 3
  sel     : BitVec 2
  uena    : BitVec 4
  instret : Word
  pwb     : Vector Pwb 8
  pref    : BitVec 16
  pacc    : BitVec 16
  pcause  : BitVec 4
  exp     : Bool
  bkpt    : Vector Word 4
  noBkpt  : Bool
  lkbud   : Lkbud
  sig     : Word
  deriving DecidableEq, Repr

/-- The physical register an asynchronous result lands in, fixed when its producer issues (spec/03 R81). -/
inductive Dest where
  | none
  | g (k : BitVec 3)
  | l (w k : BitVec 3)
  | i (w k : BitVec 3)
  | out (k : BitVec 3)
  | v (k : BitVec 4)
  deriving DecidableEq, Repr

/-- How the bytes of a result become register values: sign or zero extension of one value, or 16 bytes for each v
register. -/
inductive ResultFmt where
  | sx | zx | vec
  deriving DecidableEq, Repr

/-- The KIND of an in-flight entry (spec/16 R315); the last three are not in that table: two asynchronous results, and the
write-back of a fixed-latency result, which only a tag may still await (spec/03 R82). -/
inductive AKind where
  | load | atomic | sfu | fdiv | engine | redv | penal | kvaddr | fixed
  deriving DecidableEq, Repr

/-- What an awaited byte waits for: a read served at home, or the reply to a registration of its word. -/
inductive ByteSrc where
  | have (b : Byte)
  | miss (pa : Nat)
  | reg (pa : Nat)
  deriving DecidableEq, Repr

/-- An asynchronous result on its way (spec/03 R81). It can land once every byte is there and nothing in `after` is
outstanding. `sync` marks the value of a synchronous access, which the waiting instruction takes. -/
structure Async where
  id     : Nat
  kind   : AKind
  dest   : List Dest
  fmt    : ResultFmt
  bytes  : List ByteSrc
  flags  : BitVec 8
  poison : Bool
  addr   : Word
  level  : Level
  sync   : Bool
  deriving DecidableEq, Repr

/-- Where a byte of an access lies after the checks of spec/05 R122: own local memory, a core's local memory by the
peer path, global memory of a hardware-coherent (`c`) or software-managed page, the fabric window (spec/22 R407), or
the partition's control area (spec/21 R385). -/
inductive Place where
  | own (off : Nat)
  | peer (core off : Nat)
  | glob (pa : Nat) (c : Bool)
  | fab (pa : Nat)
  | ctl (off : Nat)
  deriving DecidableEq, Repr

/-- What a thread's instruction waits for (`wait until`, spec/00 R9), with the stage it has reached. -/
inductive Wait where
  | tags (mask : BitVec 6)
  | remote (id : Nat)
  | got (bytes : List Byte)
  | fetch
  | release
  | windows
  | queue
  | room
  | unit
  | pushes
  | translate
  | decode (k : BitVec 2)
  | holdWay
  | holdReg (id line vline dur : Nat)
  | held (id line dur : Nat)
  | word (places : List Place) (b a : Word) (again : Bool)
  | wordAway (id : Nat) (places : List Place) (b a : Word)
  | wordGot (places : List Place) (b a : Word) (bytes : List Byte)
  | ownWord
  | deque
  | steal (left : List Nat) (sent : Bool)
  | deqGot (task : Word)
  | sync (order : Nat)
  | passed (order : Nat)
  | synced (level unit : Nat)
  | rejoin
  | engines (ids : List Nat)
  | settle (handle : Nat)
  | block (handle layer blk : Nat)
  | granted (v : Word)
  | spilled (handle : Nat) (pages : List Nat) (rows : List (Nat × Nat))
  | kvRows (handle : Nat) (rows : List (Nat × Nat)) (queue : Bool)
  | kvDone
  | region
  | ending
  | reply (v : Word)
  deriving DecidableEq, Repr

/-- Whether the thread exists in a launch and is live (spec/07 R177). -/
inductive Life where
  | absent | live | stopped | faulted
  deriving DecidableEq, Repr

/-- The fetch buffer (spec/10 R199-R201): captured bytes, each with the poison address it carried, from `base`. -/
structure FetchBuf where
  base  : Word
  bytes : List (Byte × Option Word)
  deriving DecidableEq, Repr

/-- An instruction in a follower's forward queue (spec/10 R209): its bytes, none where the leader trapped or stopped; the
leader's next address and how it came there: in sequence, by a taken transfer, by a loop-back (R210). -/
structure Fwd where
  bytes : List Byte
  next  : Word
  how   : Nat
  deriving DecidableEq, Repr

/-- A register of a thread that an uncorrectable error has struck (spec/07 R167): its kind and number, and what it holds
since, for its value is lost. Once something else has been written there the damage is gone (log 82: DESIGN CHOICE). -/
structure Damage where
  kind  : BitVec 2
  index : BitVec 8
  val   : BitVec 128
  deriving DecidableEq, Repr

/-- A read of the fabric window for an instruction that reads a list or an image: the access, its first address, its bytes
with their poison, none until the response has come (spec/22 R409). -/
structure WindowRead where
  id  : Nat
  pa  : Nat
  val : List (Byte × Bool)
  deriving DecidableEq, Repr

/-- What the thread is doing, beside its registers. `tracks` pairs a tag with the operations it tracks (spec/03 R82);
`poisons` are the pending POISONs in landing order (spec/05 R129); `endings` the virtual lines of unreported early
endings of holds (spec/13 R268); `entered` is set from trap entry to the handler's first instruction (spec/07 R170);
`fwdq` is the forward queue (spec/10 R209); `install` asks for the capture at a loop-back (spec/10 R200); `damage` the
registers with an uncorrectable error (spec/07 R167); `reads` the window reads of the instruction that waits. -/
structure Run where
  life    : Life
  wait    : Option Wait
  pend    : List Async
  tracks  : List (Nat × Nat)
  poisons : List (Word × Level)
  fbuf    : FetchBuf
  arrived : Option Nat
  endings : List Nat
  damage  : List Damage
  parked  : Bool
  fwdq    : List Fwd
  entered : Bool
  install : Bool
  reads   : List WindowRead
  deriving DecidableEq, Repr

/-- One thread (spec/03 R74). -/
structure Thread where
  pc    : Word
  level : Level
  regs  : Regs
  loops : Loops
  trap  : TrapCtx
  sp    : Special
  run   : Run
  deriving DecidableEq, Repr

/-! ### Caches -/

/-- The state of a word in L1 (spec/15 R279). -/
inductive WordState where
  | i | v | o
  deriving DecidableEq, Repr

/-- A word of an L1 line: its value, its dirty bytes (spec/15 R289), its poison (R292). The bytes of stores whose
registration is on its way stand in `OutReg`. -/
structure LWord where
  st    : WordState
  val   : BitVec 32
  dirty : BitVec 4
  psn   : Bool
  deriving DecidableEq, Repr

/-- An L1 line (spec/15 R279, spec/13 R257). `num` is the physical line number; `sw` marks a line of a
software-managed page; `copy` numbers the push that last brought it, 0 where none has (R262). -/
structure Line where
  num     : Nat
  sw      : Bool
  gen     : BitVec 4
  push    : Bool
  touched : Bool
  copy    : Nat
  words   : Vector LWord 32
  deriving DecidableEq, Repr

/-- A line of the instruction cache or the constant cache: bytes, and the poisoned words as a mask. -/
structure ILine where
  num   : Nat
  bytes : List Byte
  psn   : BitVec 32
  deriving DecidableEq, Repr

/-- A translation in a TLB (spec/21 R394). -/
structure TlbEnt where
  part : Nat
  asid : BitVec 16
  va   : Nat
  size : Nat
  pa   : Nat
  attr : BitVec 5
  deriving DecidableEq, Repr

/-- A hold (spec/13 R266-R268): its thread, physical line, virtual line, cycles left on its timer (none before the timer
starts) and queued probes. -/
structure Hold where
  thr   : Nat
  line  : Nat
  vline : Nat
  dur   : Option Nat
  queue : List Nat
  deriving DecidableEq, Repr

/-- A registration from this L1 that is not complete (spec/15 R280): the core and thread that stored, the bytes by
physical address, the words it registers, the reply and the invalidations it awaits. An atomic at home (R287) and a
store performed at home (spec/10 R196) stand here too, with no word. -/
structure OutReg where
  id      : Nat
  src     : Nat
  thr     : Nat
  line    : Nat
  bytes   : List (Nat × Byte)
  words   : BitVec 32
  replied : Bool
  invs    : List Nat
  deriving DecidableEq, Repr

/-- A push that waits for registrations before home sends it (spec/13 R264, R265). -/
structure PushWait where
  id    : Nat
  thr   : Nat
  line  : Nat
  dests : List Nat
  regs  : List Nat
  deriving DecidableEq, Repr

/-! ### Engines -/

/-- A queued engine command (spec/10 R202, spec/11 R218): the instruction, the values of the registers it names
(`d a b c x`), its rounding, the stream pointers or resolved rows it runs over, a CPYE's binding, the notify address of
a remote command, the level it issued at, the earlier accesses that were outstanding then (R204). `ran` is set when its
last write has been performed, `consumed` at the operands-consumed event. `got` are the fabric-window bytes it has read,
`out` the runs of bytes it has yet to send there, `away` its accesses that are on their way, `moved` is set once its bytes
have left their source, `told` once its notify word has been sent (spec/22 R409). A remote command has thread 4. -/
structure Cmd where
  id       : Nat
  thr      : Nat
  instr    : Instr
  word     : Word
  pc       : Word
  d        : Word
  a        : Word
  b        : Word
  c        : Word
  x        : Word
  rnd      : Rnd
  ptrs     : List (BitVec 32)
  rows     : List (Nat × Nat)
  bind     : Option Nat
  notify   : Option Word
  level    : Level
  regs     : List Nat
  tag      : Nat
  ran      : Bool
  consumed : Bool
  fail     : Option Word
  flags    : BitVec 8
  got      : List (Nat × Byte × Bool)
  away     : List Nat
  out      : List (Nat × List (Byte × Bool))
  moved    : Bool
  told     : Bool
  deriving DecidableEq, Repr

/-- What a completed operation keeps until an instruction covers it: a failure (spec/10 R207) or flags
(spec/11 R226). -/
structure Unreported where
  id    : Nat
  thr   : Nat
  tag   : Nat
  eng   : Eng
  tval  : Option Word
  flags : BitVec 8
  deriving DecidableEq, Repr

/-- A weight buffer (spec/11 R228, R230): decoded weights as FP32 patterns, or integers for i8. -/
structure WBuf where
  w      : List (BitVec 32)
  fmt    : MxFmt
  tagged : Bool
  handle : BitVec 20
  psn    : Bool
  deriving DecidableEq, Repr

/-- The matrix engine (spec/11 R228, R235). The accumulator is row by row; `accPsn` has a bit for each row. -/
structure Matrix where
  buf0   : WBuf
  buf1   : WBuf
  active : Bool
  acc    : List (BitVec 32)
  accPsn : BitVec 64
  flags  : BitVec 4
  nfault : Bool
  rerun  : BitVec 16
  deriving DecidableEq, Repr

/-! ### Core -/

/-- DOM (spec/16 R295). -/
structure Dom where
  level  : BitVec 4
  table  : BitVec 8
  pend   : Bool
  plevel : BitVec 4
  ptable : BitVec 8
  deriving DecidableEq, Repr

/-- A transfer of the exchange plan (spec/16 R301): destination identity, source, target, length. -/
structure Xfer where
  d : Nat
  s : Nat
  t : Nat
  n : Nat
  deriving DecidableEq, Repr

/-- A thread slot's place in a gang (spec/10 R209-R211): its leader, whether it is attached. A leader above the numbers of
cores is one whose gang has ended, while the follower still has instructions of it in its queue (spec/11 R247). -/
structure GangSlot where
  leader   : Nat
  attached : Bool
  deriving DecidableEq, Repr

/-- The counters of a core (spec/16 R318). -/
structure Pm where
  sel : Vector (BitVec 11) 4
  cnt : Vector Word 4
  deriving DecidableEq, Repr

/-- The memories of a core: local memory with poisoned rows (spec/10 R192, R195), L1 with its generation
(spec/15 R279), L1I (spec/10 R197), the constant cache (spec/05 R137), the micro-TLB. L1 lines stand in use order,
least recent first. -/
structure CoreMem where
  lmem  : List Host.Cell
  lpsn  : List Nat
  gen   : BitVec 4
  l1    : List Line
  l1i   : List ILine
  fills : List Nat
  cc    : List ILine
  tlb   : List TlbEnt
  deriving DecidableEq, Repr

/-- Holds of a core, and its registrations and pushes that are on their way. -/
structure CoreReq where
  holds  : List Hold
  regs   : List OutReg
  pushes : List PushWait
  deriving DecidableEq, Repr

/-- An MXREM on its way to the core (spec/11 R238): the issuer, the result it awaits, the 48 descriptor bytes, whether
they are poisoned, the level it issued at, the issuer's earlier accesses that were outstanding then (spec/10 R204). -/
structure MxMsg where
  id   : Nat
  core : Nat
  thr  : Nat
  level : Level
  desc : List Byte
  psn  : Bool
  regs : List Nat
  deriving DecidableEq, Repr

/-- The engines of a core (spec/10 R202-R208), and the MXREMs on their way to it. -/
structure Engines where
  vs   : List Cmd
  mx   : List Cmd
  cp   : List Cmd
  done : List Unreported
  mat  : Matrix
  inbox : List MxMsg
  deriving DecidableEq, Repr

/-- Lockstep (spec/10 R212-R217). `log` keeps the old contents of each row first written after the checkpoint;
`saved` the threads and `engs` the engines as recorded; `hits` the rollbacks in the error window; `issued` is set
in a step in which an instruction of the pair has issued or trapped. -/
structure Lock where
  en      : Bool
  shadow  : Bool
  rbcount : BitVec 16
  log     : List (Nat × List Byte × Bool)
  saved   : List Thread
  engs    : Option Engines
  hits    : Nat
  retire  : Bool
  issued  : Bool
  deriving DecidableEq, Repr

/-- The registers of a core that its four threads share. -/
structure CoreRegs where
  cycle   : Word
  mxen    : Bool
  mxacc   : Bool
  mxmask  : BitVec 32
  lquota  : BitVec 6
  sstep   : Word
  imb0    : BitVec 32
  imb1    : BitVec 32
  imb2    : Word
  imb3    : Word
  dom     : Dom
  pm      : Pm
  deriving DecidableEq, Repr

/-- The superstep state of a core (spec/16): the exchange plan, whether it has arrived, its arrival offset, CYCLE at its
first instruction of the launch, CYCLE at its last return from a SYNC of each domain (level, unit), CYCLE at its last
barrier completion, the thread whose SYNC made all its threads arrived (R298), the tap keys it has opened
(spec/18 R360). -/
structure Superstep where
  plan    : List Xfer
  arrived : Bool
  offset  : Nat
  start   : Option Word
  synced  : List (Nat × Nat × Word)
  barAt   : Word
  maker   : Option Nat
  keys    : List (Nat × Nat × Nat)
  deriving DecidableEq, Repr

/-- One core (spec/10). `last` is the thread that last issued (R190), `skip` the threads to pass over once
(spec/03 R83), `gang` the slots' places, `launch` the launch it runs. -/
structure Core where
  thr    : Vector Thread 4
  last   : BitVec 2
  skip   : BitVec 4
  mem    : CoreMem
  req    : CoreReq
  eng    : Engines
  regs   : CoreRegs
  sup    : Superstep
  deque  : List Word
  gang   : List (Nat × GangSlot)
  lock   : Lock
  launch : Option Nat
  deriving DecidableEq, Repr

/-! ### Home slices -/

/-- Receivers of pushed copies (spec/15 R278): up to 8 core numbers, or clusters. -/
inductive PushRec where
  | cores (l : List Nat)
  | clusters (l : List Nat)
  deriving DecidableEq, Repr

/-- A directory entry (spec/15 R278). An owner is a core number, or 0x3FFFF for the host. -/
structure DirEntry where
  own0 : Option (BitVec 18)
  own1 : Option (BitVec 18)
  age  : Bool
  sel  : Vector (BitVec 2) 32
  push : PushRec
  psn  : BitVec 32
  deriving DecidableEq, Repr

/-- What an atomic does to the word (spec/05 R133, R134). -/
inductive AtomicOp where
  | amo (op : AmoOp) (b : Word)
  | cas (expected new : Word)
  deriving DecidableEq, Repr

/-- Whom a read of a line at home serves: L1 or the constant cache (spec/05 R137). -/
inductive ReadKind where
  | l1 | const
  deriving DecidableEq, Repr

/-- A request at home: a read of the line, a registration, a store performed at home, an atomic, a pushed copy to
send. Bytes are (physical address, value); `async` numbers the result of an atomic. -/
inductive HomeOp where
  | read (kind : ReadKind) (sw : Bool)
  | reg (bytes : List (Nat × Byte)) (words : BitVec 32)
  | write (bytes : List (Nat × Byte))
  | atomic (async pa size : Nat) (op : AtomicOp)
  | push (dests : List Nat)
  deriving DecidableEq, Repr

/-- A request at home (spec/15 R285: the requests for a word are served in arrival order). `probes` are the answers it still
waits for; `got` the words whose owners have answered its forwards. `core` is the L1 that asks (a slice of a fused L1), `src` and
`thr` the issuing core and thread. -/
structure HomeReq where
  id      : Nat
  core    : Nat
  src     : Nat
  thr     : Nat
  line    : Nat
  op      : HomeOp
  probes  : List Nat
  got     : BitVec 32
  deriving DecidableEq, Repr

/-- The kinds of message from home to a core (spec/13 R262, spec/15 R284, R285). -/
inductive ProbeKind where
  | fwd | rev | inv
  deriving DecidableEq, Repr

/-- A probe on its way to a core, or in its hold queue. -/
structure Probe where
  id    : Nat
  kind  : ProbeKind
  core  : Nat
  line  : Nat
  words : BitVec 32
  req   : Nat
  queued : Bool
  deriving DecidableEq, Repr

/-- A registration's reply on its way (spec/15 R280): the merged words, and which of them the core still owns. -/
structure RegReply where
  id    : Nat
  core  : Nat
  line  : Nat
  words : List (Nat × BitVec 32 × Bool)
  live  : BitVec 32
  deriving DecidableEq, Repr

/-- A pushed copy on its way, or its outcome on its way back (spec/13 R257-R261): `outcome` is none until the
destination has decided; then the refusal cause, 0 for accepted. `op` numbers the PUSHL or STP, `count` the named
cores it stands for (R255). -/
structure PushMsg where
  id      : Nat
  op      : Nat
  count   : Nat
  core    : Nat
  thr     : Nat
  line    : Nat
  dest    : Nat
  words   : List (BitVec 32 × Bool)
  outcome : Option Nat
  deriving DecidableEq, Repr

/-- What home has yet to take of the part itself: bytes in a partition's address space, bytes at a physical address, or a
fault record of its area, with the tap event that it numbers (spec/17 R324, R350; spec/18 R365; spec/21 R389); and of the
host: a write of a half, the reply to a snoop of a half, a read of a half (spec/21 R384, R396). -/
inductive LateOp where
  | store (va : Nat) (bs : List Byte)
  | phys (pa : Nat) (bs : List Byte)
  | record (area : Word) (bs : List Byte) (tap : Option Word)
  | hostWrite (cxl : Bool) (half : Nat) (bs : List (Option Byte))
  | hostReply (half : Nat) (bs : List (Option Byte))
  | hostRead (half : Nat)
  deriving DecidableEq, Repr

/-- Such an access, for a partition; the host's stand under 0, the number of no partition. -/
structure Late where
  part : Nat
  op   : LateOp
  deriving DecidableEq, Repr

/-- A trace record in a die's write queue (spec/16 R317). -/
structure TraceWrite where
  die  : Nat
  part : Nat
  bs   : List Byte
  deriving DecidableEq, Repr

/-- Global memory and its homes. `late` are the part's own writes and the host's accesses that
wait, `traces` the trace write queues of the dies. `cells` maps physical byte addresses; an unlisted byte reads zero (log 4: DESIGN CHOICE). -/
structure Global where
  cells  : List Host.Cell
  dir    : List (Nat × DirEntry)
  homeq  : List HomeReq
  probes : List Probe
  replies : List RegReply
  pushes : List PushMsg
  snoops : List Nat
  late   : List Late
  traces : List TraceWrite
  deriving DecidableEq, Repr

/-! ### Supersteps -/

/-- A synchronisation domain: the launch, the level and the unit it covers (spec/16 R293). -/
structure DomKey where
  launch : Nat
  level  : Nat
  unit   : Nat
  deriving DecidableEq, Repr

/-- A REDV contribution (spec/16 R305). -/
structure Contrib where
  core : Nat
  thr  : Nat
  ord  : Nat
  id   : Nat
  ch   : Nat
  op   : RedOp
  ty   : RedType
  sat  : Bool
  val  : Word
  deriving DecidableEq, Repr

/-- A TAP contribution (spec/18 R359, R360): chunk index, probe products, sum of squares. -/
structure TapPart where
  handle : Nat
  pos    : Nat
  point  : Nat
  chunk  : Nat
  d      : List (BitVec 32)
  s2     : BitVec 32
  psn    : Bool
  deriving DecidableEq, Repr

/-- A transfer captured when the exchange phase begins (spec/16 R303): destination core, target address, rows. -/
structure Captured where
  src  : Nat
  dst  : Nat
  t    : Nat
  rows : List (List Byte × Bool)
  deriving DecidableEq, Repr

/-- The running state of a domain's current superstep. While `phase` runs, `members` are the cores that were members as the
barrier completed (spec/16 R299); contributions that come meanwhile are those of cores that have joined since. -/
structure Barrier where
  key     : DomKey
  phase   : Bool
  members : List Nat
  xfers   : List Captured
  red     : List Contrib
  taps    : List TapPart
  freeze  : Bool
  frozen  : Bool
  imprecise : Bool
  deriving DecidableEq, Repr

/-- A domain table entry (spec/16 R294). -/
structure DomEntry where
  clusters : List Nat
  mask     : BitVec 32
  valid    : Bool
  owner    : Option Nat
  deriving DecidableEq, Repr

/-! ### Sequences -/

/-- The state of a validity-map entry (spec/17 R329). -/
inductive MapState where
  | d | f | q
  deriving DecidableEq, Repr

/-- A map entry that is not V, or that has an outstanding task (spec/17 R329-R332, R349). -/
structure MapEnt where
  layer  : Nat
  blk    : Nat
  st     : Option MapState
  repair : Bool
  out    : Bool
  quars  : Nat
  deriving DecidableEq, Repr

/-- A slot (spec/17 R325). -/
structure Slot where
  token : BitVec 32
  live  : Bool
  pos   : Nat
  deriving DecidableEq, Repr

/-- A slab table entry (spec/17 R326). -/
structure Slab where
  base    : Word
  oldbase : Word
  shbase  : Word
  wmark   : Nat
  shcount : Nat
  stride  : Nat
  log2cap : Nat
  moving  : Bool
  shared  : Bool
  lends   : Nat
  heads   : Nat
  hdim    : Nat
  rotd    : Nat
  kfmt    : Bool
  freq    : Word
  deriving DecidableEq, Repr

/-- The record fields the template or the parent gives (spec/17 R322). -/
structure SeqHdr where
  bs      : Nat
  layers  : Nat
  rfmt    : BitVec 2
  child   : Bool
  tau     : BitVec 32
  map     : Word
  order   : Word
  slabs   : Word
  penalty : Word
  steer   : Word
  fault   : Word
  domain  : BitVec 32
  parent  : BitVec 32
  deriving DecidableEq, Repr

/-- An open sequence: the home sequencer's authoritative copy (spec/17 R324). `inject` are the dispatched task words
waiting for a deque (R330), `shown` the STATE last written to the record. -/
structure Seq where
  handle  : Nat
  part    : Nat
  base    : BitVec 27
  hdr     : SeqHdr
  len     : Nat
  edit    : BitVec 16
  settled : BitVec 16
  hw      : Nat
  shw     : Nat
  tombs   : Nat
  key     : Word
  ctr     : Word
  tapped  : Bool
  halted  : Bool
  faulted : Bool
  order   : List Nat
  slots   : List Slot
  slabs   : List Slab
  map     : List MapEnt
  inject  : List Word
  shown   : Nat
  deriving DecidableEq, Repr

/-- A relocation in a home sequencer's queue (spec/17 R345, R346): an unsharing, or a growth to a new base. Once it has
begun, `oldcap` keeps the LOG2CAP before it. -/
structure Reloc where
  die    : Nat
  part   : Nat
  handle : Nat
  layer  : Nat
  grow   : Option Word
  begun  : Bool
  oldcap : Nat
  deriving DecidableEq, Repr

/-- A KVADDR with W whose slot has yet to be relocated (spec/17 R347): the result that waits, and the byte's offset from
BASE. -/
structure KvWait where
  core   : Nat
  thr    : Nat
  id     : Nat
  part   : Nat
  handle : Nat
  layer  : Nat
  off    : Nat
  deriving DecidableEq, Repr

/-- A K/V page of 64 KiB that is not as every other (spec/17 R349, R351): its reference bit, whether it is spilled, being
fetched, and the entries (handle, layer, block) that keep it quarantined. Virtual and physical page numbers. -/
structure KvPage where
  part    : Nat
  va      : Nat
  pa      : Nat
  refd    : Bool
  spilled : Bool
  fetch   : Bool
  quar    : List (Nat × Nat × Nat)
  deriving DecidableEq, Repr

/-- A probe of a tap point (spec/18 R355). -/
structure ProbeVec where
  bias : BitVec 32
  theta : BitVec 32
  below : Bool
  act  : Nat
  w    : List (BitVec 32)
  deriving DecidableEq, Repr

/-- An installed tap point (spec/18 R354-R356). -/
structure TapPoint where
  t      : Nat
  dm     : Nat
  post   : Bool
  eps    : BitVec 32
  probes : List ProbeVec
  count  : List (BitVec 32)
  units  : Nat
  digest : List Byte
  deriving DecidableEq, Repr

/-! ### Package -/

/-- A queued tap event: TVAL (spec/18 R365). -/
abbrev TapEvent := Word

/-- The trace settings of a partition (spec/16 R317). -/
structure Trace where
  buf     : Word
  size    : Nat
  wrap    : Bool
  kinds   : BitVec 32
  head    : Nat
  dropped : Nat
  full    : Bool
  deriving DecidableEq, Repr

/-- TAPH without PEND (spec/18 R364). -/
structure Taph where
  en  : Bool
  ovf : Bool
  thr : BitVec 2
  n   : BitVec 17
  deriving DecidableEq, Repr

/-- A partition (spec/21 R385). `hand` is the clock hand of spec/17 R351, a virtual page number. -/
structure Partition where
  id       : Nat
  vf       : Nat
  clusters : List Nat
  inbox    : Word
  fault    : Word
  control  : Word
  kvmax    : Nat
  slice    : Nat
  hand     : Nat
  debug    : Bool
  entries  : List Nat
  meas     : List Byte
  points   : List TapPoint
  taph     : Taph
  tapq     : List TapEvent
  seqbase  : BitVec 27
  seqen    : Bool
  fabgrp   : Word
  ptbr     : BitVec 32
  asid     : BitVec 16
  trace    : Option Trace
  deriving DecidableEq, Repr

/-- A parameter window of a launch record (spec/21 R387). -/
structure PwRec where
  base  : Word
  size  : Nat
  bound : Bool
  deriving DecidableEq, Repr

/-- The fields of a launch record (spec/21 R387). -/
structure LaunchRec where
  entry  : Word
  table  : BitVec 8
  level  : BitVec 4
  tmask  : BitVec 4
  ctab   : Nat
  fuse   : Bool
  lock   : Bool
  prio   : BitVec 2
  slevel : Bool
  masks  : Word
  img    : Word
  ilen   : Nat
  stktop : Word
  stkstr : Nat
  tpbase : Word
  tpstr  : Nat
  preda  : Word
  predv  : BitVec 32
  donea  : Word
  donev  : BitVec 32
  pw     : List PwRec
  deriving DecidableEq, Repr

/-- Where a launch stands (spec/21 R389, spec/16 R309). -/
inductive LaunchPhase where
  | waiting | running | preempting | saved | done
  deriving DecidableEq, Repr

/-- Record and replay of a launch (spec/16 R319, R320): the write set with page copies, the barrier log, the place of
the first mismatch, the counter selections of the run. `room` is the length of the write-set area, `full` SETFULL
(spec/21 R401). -/
structure Replay where
  recording : Bool
  replaying : Bool
  area      : Word
  room      : Nat
  pages     : List (Nat × List Byte)
  full      : Bool
  log       : List (Nat × Nat × Nat × Word)
  mismatch  : Option (Nat × Nat × Nat)
  table     : List Word
  deriving DecidableEq, Repr

/-- A launch: its record, the physical address of its STATUS word (spec/21 R389), its cores by launch rank, its lockstep
shadows (spec/10 R212), its decode tables (spec/03 R95, R96), its address space (spec/21 R393), its saved cores while it
is out (spec/16 R310). `ready` is set once its start barrier has completed (spec/22 R412), at once in a package launch;
`used` counts the cycles of its slice (spec/21 R386), `since` those after a pre-emption request (spec/16 R312); `image` is
the image that came with a fabric launch (spec/22 R411). -/
structure Launch where
  id     : Nat
  part   : Nat
  addr   : Word
  record : LaunchRec
  status : BitVec 32
  stat   : Option Nat
  cores  : List Nat
  shadows : List Nat
  system : Bool
  fused  : Bool
  phase  : LaunchPhase
  gen    : BitVec 16
  table2 : List (BitVec 16)
  table3 : List (BitVec 16)
  loaded : BitVec 4
  meas   : List Byte
  ptbr   : BitVec 32
  asid   : BitVec 16
  saved  : List (Nat × Core)
  savedB : List Barrier
  replay : Option Replay
  faulted : Bool
  ready  : Bool
  used   : Nat
  since  : Nat
  image  : List Byte
  deriving DecidableEq, Repr

/-- A management mailbox (spec/21 R399). `taken` is the request as the part has read it, `next` the outcome of a request
that has been carried out and not yet completed, `signal` counts the signals of MSI-X vector 0. -/
structure Mailbox where
  busy   : Bool
  done   : Bool
  result : BitVec 8
  seq    : BitVec 32
  irq    : Bool
  signal : Nat
  req    : List Byte
  rsp    : List Byte
  taken  : List Byte
  next   : Option (Nat × List Byte)
  deriving DecidableEq, Repr

/-- A fabric access on its way (spec/22 R406-R410): what it stores, with its poison, the result or the copy command that
awaits it. `val` is the response once it has been performed. An access of another module has a `core` above this module's
numbers. -/
structure Remote where
  id    : Nat
  core  : Nat
  thr   : Nat
  pa    : Nat
  size  : Nat
  op    : Option AtomicOp
  store : Option (List (Byte × Bool))
  async : Option Nat
  cmd   : Option Nat
  val   : Option (List (Byte × Bool))
  deriving DecidableEq, Repr

/-- A port (spec/22 R404): its trained generation, 0 before training. -/
structure Port where
  gen : Nat
  up  : Bool
  deriving DecidableEq, Repr

/-- The fabric side of the module (spec/22). -/
structure Fabric where
  module  : BitVec 6
  ports   : List Port
  route   : List Nat
  lgen    : BitVec 16
  remote  : List Remote
  deriving DecidableEq, Repr

/-- Errors and retirement (spec/21 R397): the window, the counts, what is retired, the spares of each die. -/
structure Errors where
  need    : Nat
  window  : Nat
  counts  : List (ErrUnit × Nat)
  retired : List ErrUnit
  spares  : List Nat
  power   : Bool
  deriving DecidableEq, Repr

/-- The host's side (spec/21 R383, R399) and the management controller's (R402). `mem` are the bytes that requests have
written to buffers in host memory (R400, R401), by host address; `stepping` lists the STEP requests under
way: function, core, thread, and whether the instruction has been executed (spec/16 R315). -/
structure HostSide where
  cxl    : Bool
  gen    : Nat
  width  : Nat
  boxes  : List (Nat × Mailbox)
  lastRd : List Byte
  boot   : List Byte
  fw     : List Byte
  mem    : List Host.Cell
  stepping : List (Nat × Nat × Nat × Bool)
  deriving DecidableEq, Repr

/-! ### The part -/

/-- Which agent moves: a thread issues or retries its instruction, or an event of the opcode table happens
(log 1: DESIGN CHOICE). -/
inductive Agent where
  | thread (core thr : Nat)
  | event (e : Instr)
  deriving DecidableEq, Repr

/-- What became of the instruction that a step took up: it waits, it has issued, it has issued with a taken transfer,
it has trapped, it was a STOP that has ended its thread. -/
inductive Fate where
  | stalled | issued | jumped | trapped | ended
  deriving DecidableEq, Repr

/-- The instruction being executed (the model's own, log 1: DESIGN CHOICE): core, thread, the address `a` that names it (of its DEP
prefix, spec/03 R83), the address `p` of its word's first parcel, its length, its word, and the set tag and yield of
its prefix. -/
structure Ctx where
  core  : Nat
  thr   : BitVec 2
  a     : Word
  p     : Word
  len   : Nat
  word  : Word
  tag   : Nat
  yield : Bool
  fate  : Fate
  deriving DecidableEq, Repr

/-- The whole part. `lookahead` is the queue of spec/17 R352: for each accepted entry the physical pages it still
waits for. -/
structure State where
  ctx      : Ctx
  agenda   : List Agent
  tick     : Nat
  nextId   : Nat
  cores    : List (Nat × Core)
  ctlb     : List (Nat × List TlbEnt)
  mem      : Global
  domtab   : List (Nat × DomEntry)
  bars     : List Barrier
  seqs     : List Seq
  relocs   : List Reloc
  kvpages  : List KvPage
  kvwaits  : List KvWait
  lookahead : List (List Nat)
  parts    : List Partition
  launches : List Launch
  fabric   : Fabric
  errs     : Errors
  host     : HostSide
  deriving DecidableEq, Repr

/-- Why a step stops. -/
inductive Fault where
  /-- The agenda names a core that no module has (spec/00 R4: n runs from 0 to 102,399). Raised by `step`; safe: the
  part has no such core to move. -/
  | noSuchCore
  deriving DecidableEq, Repr

/-- What the model gives no meaning to. -/
inductive Refusal where
  /-- An instruction whose meaning has not been written yet, by its mnemonic. Raised by `exec`; safe. -/
  | notModelled (mnemonic : String)
  /-- The agenda holds an event whose operands break `Instr.wellFormed`, or an instruction that is no event. Raised by
  `step`; safe: no such step exists. -/
  | illFormedEvent
  deriving DecidableEq, Repr

/-! ### Reset: the part right after power-on, idle (log 3: DESIGN CHOICE) -/

/-- A window of zeros. -/
def Win.zero : Win := ⟨Vector.replicate 8 0, Vector.replicate 8 0⟩

/-- The registers at a thread's first instruction, before a launch sets sp and g5 (spec/03 R74): one resident window.
Windows that are not resident hold no defined values; 0 is the model's choice (log 5: DESIGN CHOICE). -/
def Regs.zero : Regs where
  g := Vector.replicate 8 0
  wins := Vector.replicate 8 Win.zero
  outs := Vector.replicate 8 0
  top := 0
  cwp := 0
  wres := 1
  v := Vector.replicate 16 0
  sp := Vector.replicate 4 0

/-- The loop registers at reset (spec/03 R80). -/
def Loops.zero : Loops := ⟨0, 0, 0, 0, 0, 0, 0⟩

/-- The trap context at reset (spec/03 R87, spec/07 R171). -/
def TrapCtx.zero : TrapCtx := ⟨0, 0, 0, 0, 0, Vector.replicate 4 0⟩

/-- The other registers of a thread at reset (spec/03 R84, R87; spec/05 R136; spec/13 R263; spec/16 R314;
spec/18 R374). DMAP.UENA is 0b0011. -/
def Special.zero : Special where
  fs := 0
  fe := 0
  frm := 0
  sel := 0
  uena := 3
  instret := 0
  pwb := Vector.replicate 8 ⟨0, false, 0⟩
  pref := 0
  pacc := 0
  pcause := 0
  exp := false
  bkpt := Vector.replicate 4 0
  noBkpt := false
  lkbud := ⟨false, 0, 0, 0⟩
  sig := 0

/-- A thread that runs nothing. -/
def Run.idle : Run where
  life := .absent
  wait := none
  pend := []
  tracks := []
  poisons := []
  fbuf := ⟨0, []⟩
  arrived := none
  endings := []
  damage := []
  parked := false
  fwdq := []
  entered := false
  install := false
  reads := []

/-- A thread before any launch has placed it: its registers as R74 gives them (log 3: DESIGN CHOICE, log 5: DESIGN CHOICE). -/
def Thread.init : Thread where
  pc := 0
  level := .u
  regs := Regs.zero
  loops := Loops.zero
  trap := TrapCtx.zero
  sp := Special.zero
  run := Run.idle

/-- A weight buffer at reset (spec/11 R228): zero weights, fl7, untagged. -/
def WBuf.zero : WBuf := ⟨List.replicate 256 0, .fl7, false, 0, false⟩

/-- The matrix engine at reset (spec/11 R228). -/
def Matrix.zero : Matrix := ⟨WBuf.zero, WBuf.zero, false, List.replicate 1024 0, 0, 0, false, 0⟩

/-- A core right after power-on: empty caches and queues, local memory zero (log 4: DESIGN CHOICE), LQUOTA 16 (spec/13 R258), the
selector's T 3 (spec/10 R190). -/
def Core.init : Core where
  thr := Vector.replicate 4 Thread.init
  last := 3
  skip := 0
  mem := ⟨[], [], 0, [], [], [], [], []⟩
  req := ⟨[], [], []⟩
  eng := ⟨[], [], [], [], Matrix.zero, []⟩
  regs :=
    { cycle := 0, mxen := false, mxacc := false, mxmask := 0, lquota := 16, sstep := 0, imb0 := 0, imb1 := 0,
      imb2 := 0, imb3 := 0, dom := ⟨0, 0, false, 0, 0⟩, pm := ⟨Vector.replicate 4 0, Vector.replicate 4 0⟩ }
  sup := ⟨[], false, 0, none, [], 0, none, []⟩
  deque := []
  gang := []
  lock := ⟨false, false, 0, [], [], none, 0, false, false⟩
  launch := none

/-- The directory entry of a line that its slice has not changed since it came in (spec/15 R278): every word at SEL
11, no owner, no push record. -/
def DirEntry.fresh : DirEntry := ⟨none, none, false, Vector.replicate 32 3, .cores [], 0⟩

/-- The part right after power-on: no partition, no launch, no sequence, memory with nothing listed. -/
def State.reset : State where
  ctx := ⟨0, 0, 0, 0, 0, 0, 0, false, .stalled⟩
  agenda := []
  tick := 0
  nextId := 1
  cores := []
  ctlb := []
  mem := ⟨[], [], [], [], [], [], [], [], []⟩
  domtab := []
  bars := []
  seqs := []
  relocs := []
  kvpages := []
  kvwaits := []
  lookahead := []
  parts := []
  launches := []
  fabric := ⟨0, List.replicate 12 ⟨0, false⟩, List.replicate 64 0, 0, []⟩
  errs := ⟨3, 30, [], [], List.replicate 8 256, false⟩
  host := ⟨false, 0, 0, [], [], List.replicate 64 0, [], [], []⟩

end Sys2Proof.Machine
end

