-- ==== Sys2Proof/Machine/Access.lean ====
section
/-!
DEFINITION. Reading and writing the parts of State: cells of memory in their one canonical form, cores and threads by
number, scalar registers through the window, free values and fresh numbers.
-/
namespace Sys2Proof.Machine

/-! ### Memory cells -/

/-- The canonical form: addresses strictly rising, no byte listed that an unlisted address reads as (zero, log 4: DESIGN CHOICE). -/
def Memory.wf : List Host.Cell → Bool
  | [] => true
  | [(_, b)] => b != 0
  | (a, b) :: (a', b') :: rest => b != 0 && a < a' && Memory.wf ((a', b') :: rest)

/-- The byte at an address; an unlisted address reads zero (log 4: DESIGN CHOICE). -/
def cellsGet : List Host.Cell → Nat → Byte
  | [], _ => 0
  | (a, b) :: rest, x => if a = x then b else if x < a then 0 else cellsGet rest x

/-- Writes one byte and keeps the canonical form. -/
def cellsPut : List Host.Cell → Nat → Byte → List Host.Cell
  | [], x, v => if v = 0 then [] else [(x, v)]
  | (a, b) :: rest, x, v =>
    if a < x then (a, b) :: cellsPut rest x v
    else if a = x then (if v = 0 then rest else (x, v) :: rest)
    else if v = 0 then (a, b) :: rest else (x, v) :: (a, b) :: rest

/-- The `n` bytes from an address up. -/
def cellsRead (m : List Host.Cell) : Nat → Nat → List Byte
  | 0, _ => []
  | n + 1, x => cellsGet m x :: cellsRead m n (x + 1)

/-- Writes bytes from an address up. -/
def cellsWrite (m : List Host.Cell) (x : Nat) : List Byte → List Host.Cell
  | [] => m
  | b :: bs => cellsWrite (cellsPut m x b) (x + 1) bs

/-! ### Association lists in rising key order -/

/-- The value of a key. -/
def assoc {α : Type} : List (Nat × α) → Nat → Option α
  | [], _ => none
  | (k, v) :: rest, x => if k = x then some v else assoc rest x

/-- Sets the value of a key. -/
def assocPut {α : Type} : List (Nat × α) → Nat → α → List (Nat × α)
  | [], x, v => [(x, v)]
  | (k, w) :: rest, x, v =>
    if k < x then (k, w) :: assocPut rest x v else if k = x then (x, v) :: rest else (x, v) :: (k, w) :: rest

/-- Removes a key. -/
def assocDel {α : Type} (l : List (Nat × α)) (x : Nat) : List (Nat × α) := l.filter fun p => p.1 != x

/-- Inserts a number into a rising list without repeats. -/
def insertNat (x : Nat) : List Nat → List Nat
  | [] => [x]
  | y :: ys => if x < y then x :: y :: ys else if x = y then y :: ys else y :: insertNat x ys

/-! ### Vectors indexed by a bit field -/

def get4 {α : Type} (v : Vector α 4) (i : BitVec 2) : α := v[i.toNat]'i.isLt
def set4 {α : Type} (v : Vector α 4) (i : BitVec 2) (x : α) : Vector α 4 := v.set i.toNat x i.isLt
def get8 {α : Type} (v : Vector α 8) (i : BitVec 3) : α := v[i.toNat]'i.isLt
def set8 {α : Type} (v : Vector α 8) (i : BitVec 3) (x : α) : Vector α 8 := v.set i.toNat x i.isLt
def get16 {α : Type} (v : Vector α 16) (i : BitVec 4) : α := v[i.toNat]'i.isLt
def set16 {α : Type} (v : Vector α 16) (i : BitVec 4) (x : α) : Vector α 16 := v.set i.toNat x i.isLt
def get32 {α : Type} (v : Vector α 32) (i : BitVec 5) : α := v[i.toNat]'i.isLt
def set32 {α : Type} (v : Vector α 32) (i : BitVec 5) (x : α) : Vector α 32 := v.set i.toNat x i.isLt

/-! ### Scalar registers (spec/03 R75, R76, R91) -/

/-- The physical register that a register number reaches in the current window: the o registers of the youngest
window are registers of their own, those of any other are the next younger window's i registers. g0 is no register. -/
def Regs.dest (r : Regs) (x : Reg) : Dest :=
  let k : BitVec 3 := x.setWidth 3
  if x.toNat < 8 then (if k = 0 then .none else .g k)
  else if x.toNat < 16 then (if r.cwp = r.top then .out k else .i (r.cwp + 1) k)
  else if x.toNat < 24 then .l r.cwp k
  else .i r.cwp k

/-- The value of a physical scalar register. -/
def Regs.get (r : Regs) : Dest → Word
  | .none => 0
  | .g k => get8 r.g k
  | .l w k => get8 (get8 r.wins w).l k
  | .i w k => get8 (get8 r.wins w).i k
  | .out k => get8 r.outs k
  | .v _ => 0

/-- Writes a physical scalar register; a write to g0 is discarded. -/
def Regs.put (r : Regs) (d : Dest) (x : Word) : Regs :=
  match d with
  | .none => r
  | .g k => { r with g := set8 r.g k x }
  | .l w k => { r with wins := set8 r.wins w { get8 r.wins w with l := set8 (get8 r.wins w).l k x } }
  | .i w k => { r with wins := set8 r.wins w { get8 r.wins w with i := set8 (get8 r.wins w).i k x } }
  | .out k => { r with outs := set8 r.outs k x }
  | .v _ => r

/-- The value of a register number in the current window. -/
def Regs.read (r : Regs) (x : Reg) : Word := r.get (r.dest x)

/-- Writes a register number in the current window. -/
def Regs.write (r : Regs) (x : Reg) (v : Word) : Regs := r.put (r.dest x) v

/-- Writes a v register. -/
def Regs.writeV (r : Regs) (x : VReg) (v : VWord) : Regs := { r with v := set16 r.v x v }

/-- Does a physical register move with the windows (spec/04 R116)? -/
def Dest.windowed : Dest → Bool
  | .l _ _ | .i _ _ | .out _ => true
  | _ => false

/-! ### Cores and threads -/

/-- Core `n`; a core that nothing has touched is as power-on leaves it. -/
def State.core (s : State) (n : Nat) : Core := (assoc s.cores n).getD Core.init

/-- Sets core `n`. -/
def State.setCore (s : State) (n : Nat) (c : Core) : State := { s with cores := assocPut s.cores n c }

/-- Changes core `n`. -/
def State.onCore (s : State) (n : Nat) (f : Core → Core) : State := s.setCore n (f (s.core n))

/-- Thread `t` of core `n`. -/
def State.thread (s : State) (n : Nat) (t : BitVec 2) : Thread := get4 (s.core n).thr t

/-- Sets thread `t` of core `n`. -/
def State.setThread (s : State) (n : Nat) (t : BitVec 2) (th : Thread) : State :=
  s.onCore n fun c => { c with thr := set4 c.thr t th }

/-- Changes thread `t` of core `n`. -/
def State.onThread (s : State) (n : Nat) (t : BitVec 2) (f : Thread → Thread) : State :=
  s.setThread n t (f (s.thread n t))

/-- The thread being executed. -/
def State.cur (s : State) : Thread := s.thread s.ctx.core s.ctx.thr

/-- The core of the thread being executed. -/
def State.curCore (s : State) : Core := s.core s.ctx.core

/-- Changes the thread being executed. -/
def State.onCur (s : State) (f : Thread → Thread) : State := s.onThread s.ctx.core s.ctx.thr f

/-- Changes the core of the thread being executed. -/
def State.onCurCore (s : State) (f : Core → Core) : State := s.onCore s.ctx.core f

/-- A scalar register of the executing thread, as it stands now (spec/03 R81: a pending result is not awaited). -/
def State.rd (s : State) (x : Reg) : Word := s.cur.regs.read x

/-- A v register of the executing thread. -/
def State.rv (s : State) (x : VReg) : VWord := get16 s.cur.regs.v x

/-- Writes a scalar register of the executing thread. -/
def State.wr (s : State) (x : Reg) (v : Word) : State := s.onCur fun t => { t with regs := t.regs.write x v }

/-- Writes a v register of the executing thread. -/
def State.wv (s : State) (x : VReg) (v : VWord) : State := s.onCur fun t => { t with regs := t.regs.writeV x v }

/-- The level of the executing thread. -/
def State.level (s : State) : Level := s.cur.level

/-- Counts an event on a core's counters that select it (spec/16 R318). -/
def State.count (s : State) (n : Nat) (t : Option (BitVec 2)) (event : Nat) (k : Nat) : State :=
  s.onCore n fun c =>
    let hit (i : BitVec 2) : Bool :=
      let sel := get4 c.regs.pm.sel i
      (sel.extractLsb' 0 8).toNat = event && (!sel.getLsbD 10 || t = some (sel.extractLsb' 8 2))
    let cnt := [0#2, 1#2, 2#2, 3#2].foldl (fun v i =>
      if hit i then set4 v i (get4 v i + BitVec.ofNat 64 k) else v) c.regs.pm.cnt
    { c with regs := { c.regs with pm := { c.regs.pm with cnt := cnt } } }

/-! ### Free values and fresh numbers (log 6: DESIGN CHOICE) -/

/-- The `k`-th free doubleword of this step. -/
def State.free (s : State) (k : Nat) : Word := Config.freeWord s.tick k

/-- The `k`-th free choice of this step. -/
def State.choice (s : State) (k : Nat) : Bool := Config.freeChoice s.tick k

/-- A free byte of the range of numbers `range`, at an address. -/
def State.freeAt (s : State) (range a : Nat) : Byte := (s.free (2 ^ 56 * range + a)).setWidth 8

/-- A byte of the local memory of a core that no context occupies (spec/05 R123, log 12: DESIGN CHOICE). -/
def State.freeLocal (s : State) (n off : Nat) : Byte := s.freeAt 1 (n * 0x10000 + off)

/-- A number that no operation, request or probe has had before. -/
def State.fresh (s : State) : Nat × State := (s.nextId, { s with nextId := s.nextId + 1 })

/-! ### Numbers of cores (spec/00 R4, R5) -/

/-- The global cluster of a core. -/
def clusterOf (n : Nat) : Nat := n / 32

/-- The die of a core. -/
def dieOf (n : Nat) : Nat := n / 12800

/-- A core's global identity in the fabric. -/
def State.identity (s : State) (n : Nat) : Nat := s.fabric.module.toNat * 2 ^ 17 + n

/-- The core that a thread number within a Nat names. -/
def tid (t : Nat) : BitVec 2 := BitVec.ofNat 2 t

/-! ### Launches, partitions, sequences -/

/-- The launch with a number. -/
def State.launchOf (s : State) (id : Nat) : Option Launch := s.launches.find? fun l => l.id = id

/-- The launch that a core runs. -/
def State.coreLaunch (s : State) (n : Nat) : Option Launch := (s.core n).launch.bind s.launchOf

/-- Changes a launch. -/
def State.onLaunch (s : State) (id : Nat) (f : Launch → Launch) : State :=
  { s with launches := s.launches.map fun l => if l.id = id then f l else l }

/-- The partition with a number. -/
def State.partOf (s : State) (id : Nat) : Option Partition := s.parts.find? fun p => p.id = id

/-- The partition whose launch a core runs. -/
def State.corePart (s : State) (n : Nat) : Option Partition := (s.coreLaunch n).bind fun l => s.partOf l.part

/-- The number of that partition; 0 where the core runs no launch. -/
def State.corePartId (s : State) (n : Nat) : Nat := ((s.coreLaunch n).map Launch.part).getD 0

/-- Changes a partition. -/
def State.onPart (s : State) (id : Nat) (f : Partition → Partition) : State :=
  { s with parts := s.parts.map fun p => if p.id = id then f p else p }

/-- The sequence that the part keeps under a handle of a partition, whatever SEQBASE is now. -/
def State.seqKept (s : State) (part handle : Nat) : Option Seq :=
  s.seqs.find? fun q => q.handle = handle && q.part = part

/-- The open sequence that a handle names in a partition (spec/17 R321): its record lies in the array of SEQBASE. One opened
under another BASE is not named until BASE is that one again (log 98: DESIGN CHOICE). -/
def State.seqOf (s : State) (part handle : Nat) : Option Seq :=
  (s.seqKept part handle).filter fun q => (s.partOf part).any fun p => p.seqbase == q.base

/-- Changes a sequence. -/
def State.onSeq (s : State) (part handle : Nat) (f : Seq → Seq) : State :=
  { s with seqs := s.seqs.map fun q => if q.handle = handle ∧ q.part = part then f q else q }

/-- Is a core a lockstep shadow (spec/10 R212)? -/
def State.shadow (s : State) (n : Nat) : Bool := (s.core n).lock.shadow

/-- FABGRP of a partition (spec/22 R408). -/
def State.fabgrp (s : State) (part : Nat) : Word :=
  match s.partOf part with
  | some p => p.fabgrp
  | none => 0

end Sys2Proof.Machine
end

