-- ==== Sys2Proof/Machine/Home.lean ====
section
/-!
DEFINITION. Global memory behind its homes and the L1 caches in front of them: words and owners, loads and stores at
L1, replacement, generations, requests to home, messages from home to a core, holds (spec/10 R196; spec/13 R254-R270;
spec/15 R277-R289, R292).
-/
set_option linter.constructorNameAsVariable false

namespace Sys2Proof.Machine

/-! ### Lines and words -/

/-- The line number of a physical address (spec/15 R277). -/
def lineOf (pa : Nat) : Nat := pa / 128

/-- The 4-byte word of its line that a physical address lies in. -/
def wordOf (pa : Nat) : BitVec 5 := BitVec.ofNat 5 (pa / 4)

/-- The word's mask in its line. -/
def wordBit (w : BitVec 5) : BitVec 32 := BitVec.ofNat 32 (2 ^ w.toNat)

/-- The word numbers of a line, in order. -/
def allWords : List (BitVec 5) := (List.range 32).map fun k => BitVec.ofNat 5 k

/-- The words a mask selects. -/
def wordsOf (m : BitVec 32) : List (BitVec 5) := allWords.filter fun w => m.getLsbD w.toNat

/-- The mask of a list of words. -/
def maskOf (l : List (BitVec 5)) : BitVec 32 := l.foldl (fun m w => m ||| wordBit w) 0

/-- The first physical address of a word. -/
def wordAddr (num : Nat) (w : BitVec 5) : Nat := num * 128 + w.toNat * 4

/-- Byte `k` of a word. -/
def byteOf (v : BitVec 32) (k : Nat) : Byte := v.extractLsb' (8 * k) 8

/-- A word with byte `k` replaced. -/
def setByte (v : BitVec 32) (k : Nat) (b : Byte) : BitVec 32 :=
  (v &&& ~~~(BitVec.ofNat 32 (0xFF <<< (8 * k)))) ||| (b.setWidth 32 <<< (8 * k))

/-- Four bytes as a word. -/
def wordOfBytes (bs : List Byte) : BitVec 32 := BitVec.ofNat 32 (leNat bs)

/-- A module's fabric window (spec/22 R407): the module and the near-tier address, for an address inside one. -/
def fabTarget (pa : Nat) : Option (Nat × Nat) :=
  if 0x400000000000 ≤ pa ∧ pa < 0x800000000000 then
    let m := (pa - 0x400000000000) / 2 ^ 40
    let off := (pa - 0x400000000000) % 2 ^ 40
    if off < 0x4000000000 then some (m, off) else none
  else none

/-- The own module's window is its near tier (spec/22 R409). -/
def State.norm (s : State) (pa : Nat) : Nat :=
  match fabTarget pa with
  | some (m, off) => if m = s.fabric.module.toNat then off else pa
  | none => pa

/-! ### The directory -/

/-- The directory entry of a line. -/
def State.dirOf (s : State) (num : Nat) : DirEntry := (assoc s.mem.dir num).getD DirEntry.fresh

/-- Sets the directory entry of a line. -/
def State.setDir (s : State) (num : Nat) (d : DirEntry) : State :=
  { s with mem := { s.mem with dir := assocPut s.mem.dir num d } }

/-- The host as an owner agent (spec/15 R278). -/
def hostAgent : BitVec 18 := 0x3FFFF

/-- The owner of a word (spec/15 R278, SEL). -/
def DirEntry.owner (d : DirEntry) (w : BitVec 5) : Option (BitVec 18) :=
  match (get32 d.sel w).toNat with
  | 1 => d.own0
  | 2 => d.own1
  | _ => none

/-- Frees an owner slot that no word names any more. -/
def DirEntry.tidy (d : DirEntry) : DirEntry :=
  { d with
    own0 := if d.sel.toList.any (· == 1) then d.own0 else none
    own1 := if d.sel.toList.any (· == 2) then d.own1 else none }

/-- Words of a mask at SEL 00. -/
def DirEntry.release (d : DirEntry) (m : BitVec 32) : DirEntry :=
  ({ d with sel := (wordsOf m).foldl (fun v w => set32 v w 0) d.sel } : DirEntry).tidy

/-- The slot an agent can have: its own, or a free one (spec/15 R283). -/
def DirEntry.slotFor (d : DirEntry) (a : BitVec 18) : Option Bool :=
  if d.own0 = some a then some false
  else if d.own1 = some a then some true
  else if d.own0 = none then some false
  else if d.own1 = none then some true
  else none

/-- Records an agent as owner of words, in a slot that `slotFor` gave; AGE remembers which slot was filled first. -/
def DirEntry.record (d : DirEntry) (slot : Bool) (a : BitVec 18) (m : BitVec 32) : DirEntry :=
  let code : BitVec 2 := if slot then 2 else 1
  let fresh := if slot then d.own1 = none else d.own0 = none
  let d1 : DirEntry := { d with sel := (wordsOf m).foldl (fun v w => set32 v w code) d.sel }
  let d2 : DirEntry := if slot then { d1 with own1 := some a } else { d1 with own0 := some a }
  (if fresh then { d2 with age := !slot } else d2).tidy

/-- The words of the older owner slot (spec/15 R283). -/
def DirEntry.olderWords (d : DirEntry) : BitVec 32 :=
  let code : BitVec 2 := if d.age then 2 else 1
  maskOf (allWords.filter fun w => get32 d.sel w == code)

/-- Is a pushed copy recorded for a core (spec/13 R262)? -/
def PushRec.receivers : PushRec → List Nat
  | .cores l => l
  | .clusters l => l.flatMap fun c => (List.range 32).map fun k => c * 32 + k

/-- Records a receiver of a pushed copy; beyond 8 cores, their clusters (spec/15 R278). -/
def PushRec.add (r : PushRec) (n : Nat) : PushRec :=
  match r with
  | .cores l =>
    if l.contains n then .cores l
    else if l.length < 8 then .cores (insertNat n l)
    else .clusters ((n :: l).foldl (fun acc x => insertNat (clusterOf x) acc) [])
  | .clusters l => .clusters (insertNat (clusterOf n) l)

/-- Removes a receiver whose refusal has returned. -/
def PushRec.remove (r : PushRec) (n : Nat) : PushRec :=
  match r with
  | .cores l => .cores (l.filter (· != n))
  | .clusters l => .clusters l

/-! ### Cells at home -/

/-- Home's own copy of a byte. -/
def State.cell (s : State) (pa : Nat) : Byte := cellsGet s.mem.cells pa

/-- Sets home's own copy of bytes. -/
def State.putCells (s : State) (bs : List (Nat × Byte)) : State :=
  { s with mem := { s.mem with cells := bs.foldl (fun c p => cellsPut c p.1 p.2) s.mem.cells } }

/-- Home's own copy of a word. -/
def State.cellWord (s : State) (num : Nat) (w : BitVec 5) : BitVec 32 :=
  wordOfBytes (cellsRead s.mem.cells 4 (wordAddr num w))

/-- Sets home's own copy of a word. -/
def State.putCellWord (s : State) (num : Nat) (w : BitVec 5) (v : BitVec 32) : State :=
  { s with mem := { s.mem with cells := cellsWrite s.mem.cells (wordAddr num w) (leBytes 4 v.toNat) } }

/-- Is a word poisoned at home (spec/15 R292)? -/
def State.homePsn (s : State) (num : Nat) (w : BitVec 5) : Bool := (s.dirOf num).psn.getLsbD w.toNat

/-- Sets or clears a word's PSN bit. -/
def State.setPsn (s : State) (num : Nat) (w : BitVec 5) (b : Bool) : State :=
  if s.homePsn num w = b then s
  else
    let d := s.dirOf num
    s.setDir num { d with psn := if b then d.psn ||| wordBit w else d.psn &&& ~~~wordBit w }

/-- Merges bytes over home's copy of a line; a word whose four bytes are all written loses its poison, another keeps
it (spec/15 R292). -/
def State.mergeHome (s : State) (num : Nat) (bs : List (Nat × Byte)) : State :=
  let full := allWords.filter fun w => (List.range 4).all fun k => bs.any fun p => p.1 = wordAddr num w + k
  full.foldl (fun s w => s.setPsn num w false) (s.putCells bs)

/-! ### L1 caches -/

/-- The launch of a core has fused L1 caches (spec/13 R254). -/
def State.fusedL1 (s : State) (n : Nat) : Bool :=
  match s.coreLaunch n with
  | some l => l.fused
  | none => false

/-- A core is one of a lockstep pair (spec/10 R212). -/
def State.lockstep (s : State) (n : Nat) : Bool := (s.core n).lock.en

/-- The slice of a fused L1 (spec/13 R254, R256). -/
def fusedSlice (pa : Nat) (lock : Bool) : Nat :=
  let f (lo : Nat) := (pa / 2 ^ lo) % 32
  let k := f 7 ^^^ f 12 ^^^ f 17 ^^^ f 22 ^^^ f 27
  if lock then 2 * (k % 16) else k

/-- The core whose L1 holds a line for a core: its own, or the line's slice. -/
def State.agentOf (s : State) (n pa : Nat) : Nat :=
  if s.fusedL1 n then clusterOf n * 32 + fusedSlice pa (s.lockstep n) else n

/-- The core that keeps the generation counter of a core (spec/13 R255). -/
def State.genCore (s : State) (n : Nat) : Nat := if s.fusedL1 n then clusterOf n * 32 else n

/-- The current generation of a core's L1. -/
def State.gen (s : State) (n : Nat) : BitVec 4 := (s.core (s.genCore n)).mem.gen

/-- The cores that share a core's L1. -/
def State.sharers (s : State) (n : Nat) : List Nat :=
  if s.fusedL1 n then (s.cores.map Prod.fst).filter fun k => clusterOf k = clusterOf n else [n]

/-- A line in a core's own cache. -/
def State.line? (s : State) (agent num : Nat) : Option Line := (s.core agent).mem.l1.find? fun l => l.num = num

/-- Changes a line in place. -/
def State.onLine (s : State) (agent num : Nat) (f : Line → Line) : State :=
  s.onCore agent fun c =>
    { c with mem := { c.mem with l1 := c.mem.l1.map fun l => if l.num = num then f l else l } }

/-- Removes a line. -/
def State.dropLine (s : State) (agent num : Nat) : State :=
  s.onCore agent fun c => { c with mem := { c.mem with l1 := c.mem.l1.filter fun l => l.num != num } }

/-- Marks a line used last, and touched (spec/10 R196, spec/13 R257). -/
def State.useLine (s : State) (agent num : Nat) : State :=
  match s.line? agent num with
  | none => s
  | some l =>
    s.onCore agent fun c =>
      { c with mem := { c.mem with l1 := (c.mem.l1.filter fun x => x.num != num) ++ [{ l with touched := true }] } }

/-- Registrations on their way from an L1, oldest first. -/
def State.outRegs (s : State) (agent : Nat) : List OutReg := (s.core agent).req.regs

/-- Does a word await the reply to a registration (spec/15 R280)? -/
def State.awaits (s : State) (agent num : Nat) (w : BitVec 5) : Bool :=
  (s.outRegs agent).any fun r => r.line = num && !r.replied && r.words.getLsbD w.toNat

/-- A registration of a whole doubleword (spec/15 R281). -/
def OutReg.isPair (r : OutReg) : Bool := (wordsOf r.words).length == 2

/-- Does a word lie in a doubleword whose registration is on its way (spec/15 R281)? -/
def State.pairWaits (s : State) (agent num : Nat) (m : BitVec 32) : Bool :=
  (s.outRegs agent).any fun r => r.line = num && !r.replied && r.isPair && r.words &&& m != 0

/-- The hold of a line, with its core (spec/13 R266). In a fused cluster the line lies in its slice. -/
def State.holder (s : State) (agent num : Nat) : Option (Nat × Hold) :=
  (s.sharers agent).findSome? fun n => ((s.core n).req.holds.find? fun h => h.line = num).map fun h => (n, h)

/-- Can the way of a line be replaced (spec/10 R196)? -/
def State.replaceable (s : State) (agent : Nat) (l : Line) : Bool :=
  (s.holder agent l.num).isNone && allWords.all fun w => !s.awaits agent l.num w

/-- The words of a line in some state. -/
def Line.wordsIn (l : Line) (st : WordState) : List (BitVec 5) :=
  allWords.filter fun w => (get32 l.words w).st == st

/-- The dirty bytes of a line of a software-managed page. -/
def Line.dirtyBytes (l : Line) : List (Nat × Byte) :=
  allWords.flatMap fun w =>
    let x := get32 l.words w
    ((List.range 4).filter fun k => x.dirty.getLsbD k).map fun k => (wordAddr l.num w + k, byteOf x.val k)

/-- Writes back what a line holds that home does not: its O words, whose ownership ends with SEL 00, or its dirty
bytes (spec/10 R196). The write-back reaches home at once (log 9: DESIGN CHOICE). -/
def State.writeBack (s : State) (l : Line) : State :=
  if l.sw then s.mergeHome l.num l.dirtyBytes
  else
    let os := l.wordsIn .o
    let s1 := os.foldl (fun s w =>
      (s.putCellWord l.num w (get32 l.words w).val).setPsn l.num w (s.homePsn l.num w || (get32 l.words w).psn)) s
    if os.isEmpty then s1 else s1.setDir l.num ((s1.dirOf l.num).release (maskOf os))

/-- A line of I words. -/
def Line.blank (num : Nat) (sw : Bool) (gen : BitVec 4) : Line :=
  ⟨num, sw, gen, false, true, 0, Vector.replicate 32 ⟨.i, 0, 0, false⟩⟩

/-- Makes sure a line is present, replacing the least recently used replaceable way of its set; none when no way is
replaceable (spec/10 R196). -/
def State.allocate (s : State) (agent num : Nat) (sw : Bool) : Option State :=
  match s.line? agent num with
  | some _ => some s
  | none =>
    let set := (s.core agent).mem.l1.filter fun l => l.num % 16 = num % 16
    let add (s : State) : State :=
      s.onCore agent fun c => { c with mem := { c.mem with l1 := c.mem.l1 ++ [Line.blank num sw (s.gen agent)] } }
    if set.length < 4 then some (add s)
    else
      match set.find? fun l => s.replaceable agent l with
      | some l => some (add ((s.writeBack l).dropLine agent l.num))
      | none => none

/-- A word of a line that a load may be served from (spec/15 R279, R289). -/
def State.usable (s : State) (agent : Nat) (l : Line) (w : BitVec 5) : Bool :=
  match (get32 l.words w).st with
  | .o => true
  | .v => l.sw || l.gen == s.gen agent
  | .i => false

/-- Has an atomic of an L1's core on a byte yet to be performed at home (spec/05 R141)? -/
def State.atomicComing (s : State) (agent pa : Nat) : Bool :=
  s.mem.homeq.any fun r => r.core = agent && match r.op with
    | .atomic _ a size _ => a ≤ pa && pa < a + size
    | _ => false

/-- Is a byte a dirty one of a software-managed line (spec/15 R289)? -/
def State.dirtyByte (s : State) (agent pa : Nat) : Bool :=
  match s.line? agent (lineOf pa) with
  | some l => l.sw && (get32 l.words (wordOf pa)).dirty.getLsbD (pa % 4)
  | none => false

/-- Has the core of an L1 written a word of an address by a store that is on its way (spec/15 R280)? -/
def State.ownComing (s : State) (agent pa : Nat) : Bool :=
  (s.outRegs agent).any fun r => !r.replied && r.bytes.any fun p => p.1 / 4 = pa / 4

/-- Where a load finds a byte of global memory: bytes of the core's own stores on their way, a word whose other bytes
await a reply, L1, or home (spec/15 R279, R280). The Bool is its poison. A line of a fused cluster's slice that another core
holds is read like any other (spec/13 R255; log 104: DESIGN CHOICE). -/
def State.l1Byte (s : State) (agent pa : Nat) : ByteSrc × Bool :=
  let num := lineOf pa
  let w := wordOf pa
  let own := (s.outRegs agent).reverse.findSome? fun r => if r.replied then none else r.bytes.find? fun p => p.1 = pa
  if s.atomicComing agent pa then (.miss pa, false)
  else
    match own with
    | some p => (.have p.2, false)
    | none =>
      if s.awaits agent num w then (.reg pa, false)
      else
        match s.line? agent num with
        | none => (.miss pa, false)
        | some l =>
          let x := get32 l.words w
          if s.usable agent l w || s.dirtyByte agent pa then (.have (byteOf x.val (pa % 4)), x.psn)
          else (.miss pa, false)

/-! ### The word as it stands, seen from home -/

/-- The reply that makes an agent owner of a word, on its way: the word's value and poison in the last one. -/
def State.replyComing (s : State) (agent num : Nat) (w : BitVec 5) : Option (BitVec 32 × Bool) :=
  (s.mem.replies.filter fun r => r.core = agent && r.line = num && r.live.getLsbD w.toNat).reverse.findSome? fun r =>
    (r.words.find? fun x => x.1 = w.toNat).map Prod.snd

/-- What an owner has of a word: the reply on its way to it, or its O word. -/
def State.ownerWord (s : State) (agent num : Nat) (w : BitVec 5) : Option (BitVec 32 × Bool) :=
  match s.replyComing agent num w with
  | some v => some v
  | none =>
    match s.line? agent num with
    | some l => if (get32 l.words w).st = WordState.o then some ((get32 l.words w).val, (get32 l.words w).psn) else none
    | none => none

/-- A word's current value: its owner's, or home's (spec/15 R282). It is poisoned where its owner's copy is, or where
home has marked it since (R292). -/
def State.homeWord (s : State) (num : Nat) (w : BitVec 5) : BitVec 32 × Bool :=
  match ((s.dirOf num).owner w).bind fun a => s.ownerWord a.toNat num w with
  | some v => (v.1, v.2 || s.homePsn num w)
  | none => (s.cellWord num w, s.homePsn num w)

/-- A byte as home would serve it now.
(log 17: DESIGN CHOICE) -/
def State.homeByte (s : State) (pa : Nat) : Byte × Bool :=
  let pa := s.norm pa
  let v := s.homeWord (lineOf pa) (wordOf pa)
  (byteOf v.1 (pa % 4), v.2)

/-- The halves of a line (physical address / 64) of which the host owns a word of a mask (spec/21 R396). -/
def State.hostHalves (s : State) (num : Nat) (m : BitVec 32) : List Nat :=
  let d := s.dirOf num
  [num * 2, num * 2 + 1].filter fun h =>
    (wordsOf m).any fun w => d.owner w = some hostAgent && (num * 2 + w.toNat / 16) = h

/-- Has the host link trained to a CXL with back-invalidation, 3.1 (spec/21 R383)? -/
def State.backInv (s : State) : Bool := s.host.cxl && s.host.gen == 3

/-- Sends a back-invalidate snoop for each half (spec/21 R396), where the link has them. -/
def State.snoop (s : State) (halves : List Nat) : State :=
  if !s.backInv then s
  else { s with mem := { s.mem with snoops := halves.foldl (fun l h => insertNat h l) s.mem.snoops } }

/-- Has home a reply about a line on its way to a core? What home sends it about the line later comes behind (spec/15 R285). -/
def State.replyAhead (s : State) (agent num : Nat) : Bool := s.mem.replies.any fun r => r.core = agent && r.line = num

/-- Can an access at home that serves `m` of a line end at once (log 9: DESIGN CHOICE)? Not while a core holds the line, the host
owns a word of it, a doubleword of it is being registered by its owner, a reply to its owner or a pushed copy is on its way. -/
def State.homeFree (s : State) (num : Nat) (m : BitVec 32) : Bool :=
  let d := s.dirOf num
  (s.hostHalves num m).isEmpty
  && (s.mem.pushes.all fun p => p.line != num || p.outcome.isSome)
  && (wordsOf m).all fun w =>
    match d.owner w with
    | some a => (s.holder a.toNat num).isNone && !s.pairWaits a.toNat num (wordBit w) && !s.replyAhead a.toNat num
    | none => true

/-- The words that bytes touch, by line. -/
def linesOf (pas : List Nat) : List (Nat × BitVec 32) :=
  pas.foldl (fun l pa =>
    let m := ((assoc l (lineOf pa)).getD 0) ||| wordBit (wordOf pa)
    assocPut l (lineOf pa) m) []

/-- `homeFree` for a list of physical addresses. -/
def State.homeFreeAll (s : State) (pas : List Nat) : Bool :=
  (linesOf (pas.map s.norm)).all fun p => s.homeFree p.1 p.2

/-- Snoops whatever the host owns among physical addresses. -/
def State.snoopAll (s : State) (pas : List Nat) : State :=
  (linesOf (pas.map s.norm)).foldl (fun s p => s.snoop (s.hostHalves p.1 p.2)) s

/-- A word is taken from an agent to which a reply brings it: the reply makes it no owner any more. -/
def State.stripReplies (s : State) (agent num : Nat) (w : BitVec 5) : State :=
  { s with mem := { s.mem with replies := s.mem.replies.map fun r =>
      if r.core = agent ∧ r.line = num then { r with live := r.live &&& ~~~wordBit w } else r } }

/-- Takes words from their owners at once: values to home, I in the owner's L1, SEL 00 (spec/15 R285). A reply still on
its way counts as come. -/
def State.revokeNow (s : State) (num : Nat) (m : BitVec 32) : State :=
  let s1 := (wordsOf m).foldl (fun s w =>
    match (s.dirOf num).owner w with
    | none => s
    | some a =>
      let v := s.homeWord num w
      (((s.putCellWord num w v.1).setPsn num w v.2).stripReplies a.toNat num w).onLine a.toNat num fun l =>
        { l with words := set32 l.words w { get32 l.words w with st := .i } }) s
  s1.setDir num ((s1.dirOf num).release m)

/-- An invalidation that home sent before number `id` ends a pushed copy that an L1 still has (spec/13 R262): its V words
become I. A copy that has left, or that a later push or a fill has replaced, stays. -/
def State.dropPushed (s : State) (agent num id : Nat) : State :=
  s.onLine agent num fun l =>
    if l.copy = 0 || id ≤ l.copy then l
    else
      { l with
        push := false
        copy := 0
        words := (l.wordsIn .v).foldl (fun v w => set32 v w { get32 v w with st := .i }) l.words }

/-- A write at home that records no owner, in one step (spec/11 R240, spec/22 R409): revokes, merges, leaves SEL 00,
invalidates pushed copies. -/
def State.homeWriteLine (s : State) (num : Nat) (bs : List (Nat × Byte)) : State :=
  let m := maskOf (bs.map fun p => wordOf p.1)
  let s1 := ((s.revokeNow num m).mergeHome num bs)
  let d := s1.dirOf num
  let s2 := d.push.receivers.foldl (fun s n => s.dropPushed n num s.nextId) s1
  s2.setDir num { (d.release m) with push := .cores [] }

/-- A write at home of bytes at physical addresses. -/
def State.homeWrite (s : State) (bs : List (Nat × Byte)) : State :=
  let bs := bs.map fun p => (s.norm p.1, p.2)
  (linesOf (bs.map Prod.fst)).foldl (fun s p => s.homeWriteLine p.1 (bs.filter fun b => lineOf b.1 = p.1)) s

/-- Poisons words at home. -/
def State.homePoison (s : State) (pas : List Nat) : State :=
  pas.foldl (fun s pa => s.setPsn (lineOf (s.norm pa)) (wordOf (s.norm pa)) true) s

/-- Little-endian bytes from a physical address up. -/
def bytesAt (pa : Nat) (bs : List Byte) : List (Nat × Byte) := (List.range bs.length).map fun k => (pa + k, bs.getD k 0)

/-- The `n` bytes from a physical address, as home serves them. -/
def State.homeBytes (s : State) (pa n : Nat) : List Byte := (List.range n).map fun k => (s.homeByte (pa + k)).1

/-- Is any word of a range poisoned? -/
def State.homeAnyPsn (s : State) (pa n : Nat) : Bool := (List.range n).any fun k => (s.homeByte (pa + k)).2

/-! ### Results that wait -/

/-- Changes the pending results of a thread. -/
def State.onPend (s : State) (n : Nat) (t : BitVec 2) (f : List Async → List Async) : State :=
  s.onThread n t fun th => { th with run := { th.run with pend := f th.run.pend } }

/-- An operation of a thread is finished: its tags no longer track it (spec/03 R82). -/
def State.untrack (s : State) (n : Nat) (t : BitVec 2) (id : Nat) : State :=
  s.onThread n t fun th => { th with run := { th.run with tracks := th.run.tracks.filter fun p => p.2 != id } }

/-- Fills the bytes a result waits for. -/
def Async.fill (a : Async) (f : ByteSrc → ByteSrc) (psn : Bool) : Async :=
  { a with bytes := a.bytes.map f, poison := a.poison || psn }

/-- Every byte is there. -/
def Async.ready (a : Async) : Bool := a.bytes.all fun b => match b with | .have _ => true | _ => false

/-- The bytes of a result, once they are there. -/
def Async.data (a : Async) : List Byte := a.bytes.map fun b => match b with | .have x => x | _ => 0

/-- A word of a reply. -/
def RegReply.word (r : RegReply) (pa : Nat) : Option (BitVec 32 × Bool) :=
  if lineOf pa = r.line then (r.words.find? fun x => x.1 = (wordOf pa).toNat).map Prod.snd else none

/-- Puts a request at the end of home's queue. -/
def State.request (s : State) (r : HomeReq) : State :=
  { s with mem := { s.mem with homeq := s.mem.homeq ++ [r] } }

/-- The words of a line whose replies a result awaits. -/
def Async.regWords (a : Async) (line : Nat) : List (BitVec 5) :=
  a.bytes.filterMap fun b => match b with
    | .reg pa => if lineOf pa = line then some (wordOf pa) else none
    | _ => none

/-- A result takes the bytes of a line for which it awaits replies from `f`. -/
def Async.fillLine (a : Async) (line : Nat) (f : Nat → Option (ByteSrc × Bool)) : Async :=
  let mine (b : ByteSrc) : Option (ByteSrc × Bool) := match b with
    | .reg pa => if lineOf pa = line then f pa else none
    | _ => none
  a.fill (fun b => match mine b with | some v => v.1 | none => b) (a.bytes.any fun b => (mine b).any Prod.snd)

/-- The reply to a registration has come, for one result: within one word it takes the merged word that the reply brings;
over several it goes on once no word of it awaits a reply, as any load does then, from L1 or home (spec/15 R279, R280). -/
def State.fillReg (s : State) (r : RegReply) (n : Nat) (t : BitVec 2) (a : Async) : State :=
  let words := a.regWords r.line
  let put (f : Nat → Option (ByteSrc × Bool)) : State := s.onPend n t fun l => l.map fun x => if x.id = a.id then x.fillLine r.line f else x
  if words.all fun w => words.head? = some w then
    put fun pa => (r.word pa).map fun v => (.have (byteOf v.1 (pa % 4)), v.2)
  else if words.any (s.awaits r.core r.line) then s
  else
    match s.line? r.core r.line with
    | some l =>
      if words.all (s.usable r.core l) then
        put fun pa => let x := get32 l.words (wordOf pa); some (.have (byteOf x.val (pa % 4)), x.psn)
      else (put fun pa => some (.miss pa, false)).request ⟨a.id, r.core, n, t.toNat, r.line, .read .l1 false, [], 0⟩
    | none => (put fun pa => some (.miss pa, false)).request ⟨a.id, r.core, n, t.toNat, r.line, .read .l1 false, [], 0⟩

/-- The reply to a registration has come, for what waits for its words (spec/15 R280). -/
def State.fillRegs (s : State) (r : RegReply) : State :=
  ((s.sharers r.core).filter fun n => s.agentOf n (r.line * 128) = r.core).foldl (fun s n =>
    (List.range 4).foldl (fun s k => (s.thread n (tid k)).run.pend.foldl (fun s a => s.fillReg r n (tid k) a) s) s) s

/-! ### Requests to home and messages from home -/

/-- Changes a request: its number and its line name it. -/
def State.onReq (s : State) (id line : Nat) (f : HomeReq → HomeReq) : State :=
  { s with mem := { s.mem with homeq := s.mem.homeq.map fun r => if r.id = id ∧ r.line = line then f r else r } }

/-- Removes a request. -/
def State.dropReq (s : State) (id line : Nat) : State :=
  { s with mem := { s.mem with homeq := s.mem.homeq.filter fun r => !(r.id = id && r.line = line) } }

/-- Sends a message to a core about a line; a forward or revoke is noted in its request. -/
def State.sendProbe (s : State) (kind : ProbeKind) (core line : Nat) (words : BitVec 32) (req : Nat) : State :=
  let (id, s) := s.fresh
  let p : Probe := ⟨id, kind, core, line, words, req, false⟩
  let s : State := { s with mem := { s.mem with probes := s.mem.probes ++ [p] } }
  if kind = .inv then
    { s with cores := s.cores.map fun c =>
        (c.1, { c.2 with req := { c.2.req with regs := c.2.req.regs.map fun r =>
          if r.id = req then { r with invs := r.invs ++ [id] } else r } }) }
  else s.onReq req line fun r => { r with probes := r.probes ++ [id] }

/-- Drops the registrations that are complete: reply and invalidations arrived (spec/15 R280). -/
def State.closeRegs (s : State) (agent : Nat) : State :=
  let done := (s.outRegs agent).filter fun r => r.replied && r.invs.isEmpty
  let s := done.foldl (fun s r => (List.range 4).foldl (fun s k => s.untrack r.src (tid k) r.id) s) s
  s.onCore agent fun c =>
    { c with req := { c.req with regs := c.req.regs.filter fun r => !(r.replied && r.invs.isEmpty) } }

/-- An invalidation has arrived, or entered a hold queue: it no longer delays its registration (spec/13 R262). -/
def State.invArrived (s : State) (id : Nat) : State :=
  let agents := (s.cores.filter fun c => c.2.req.regs.any fun r => r.invs.contains id).map Prod.fst
  agents.foldl (fun s n => (s.onCore n fun c =>
    { c with req := { c.req with regs := c.req.regs.map fun r =>
      { r with invs := r.invs.filter (· != id) } } }).closeRegs n) s

/-- A core answers a message from home (spec/15 R284, R285; spec/13 R262). -/
def State.serveProbe (s : State) (p : Probe) : State :=
  let gone (s : State) : State :=
    { s with mem := { s.mem with probes := s.mem.probes.filter fun x => x.id != p.id } }
  match p.kind with
  | .inv => gone ((s.dropPushed p.core p.line p.id).invArrived p.id)
  | .fwd =>
    gone (s.onReq p.req p.line fun r => { r with probes := r.probes.filter (· != p.id), got := r.got ||| p.words })
  | .rev =>
    let mine := maskOf ((wordsOf p.words).filter fun w =>
      (s.dirOf p.line).owner w = some (BitVec.ofNat 18 p.core))
    gone ((s.revokeNow p.line mine).onReq p.req p.line fun r => { r with probes := r.probes.filter (· != p.id) })

/-! ### Holds -/

/-- Ends a hold: its queued probes are served in arrival order; early, HOLDST.EXP is set and the ending stays
unreported (spec/13 R266, R268, R269). -/
def State.endHold (s : State) (n : Nat) (h : Hold) (early : Bool) : State :=
  let s1 := s.onCore n fun c =>
    { c with req := { c.req with holds := c.req.holds.filter fun x => !(x.line = h.line && x.thr = h.thr) } }
  let s2 := h.queue.foldl (fun s id =>
    match s.mem.probes.find? fun p => p.id = id with
    | some p => s.serveProbe p
    | none => s) s1
  if early then
    s2.onThread n (tid h.thr) fun th =>
      let others := th.run.endings.filter (· != h.vline)
      { th with
        sp := { th.sp with exp := true }
        run := { th.run with endings := others.drop (others.length - 1) ++ [h.vline] } }
  else s2

/-- Ends every hold of a thread early (spec/07 R168, spec/13 R269). -/
def State.endHolds (s : State) (n : Nat) (t : BitVec 2) : State :=
  ((s.core n).req.holds.filter fun h => h.thr = t.toNat).foldl (fun s h => s.endHold n h true) s

/-- Does the thread hold a line? -/
def State.holdsAny (s : State) (n : Nat) (t : BitVec 2) : Bool :=
  (s.core n).req.holds.any fun h => h.thr = t.toNat

/-! ### Loads and stores of a thread in global memory -/

/-- The lines whose words a load must fetch. -/
def missLines (bytes : List ByteSrc) : List Nat :=
  (bytes.filterMap fun b => match b with | .miss pa => some (lineOf pa) | _ => none).foldl
    (fun l x => insertNat x l) []

/-- A load's requests to home, one for each line that it must fetch whole, and its use of the lines in L1
(spec/15 R279, spec/10 R196). -/
def State.loadLines (s : State) (n : Nat) (t : BitVec 2) (id : Nat) (pas : List (Nat × Bool)) (lines : List Nat) : State :=
  let s := s.count n (some t) 4 lines.length
  let s := lines.foldl (fun s num =>
    let sw := pas.any fun p => lineOf p.1 = num && !p.2
    s.request ⟨id, s.agentOf n (num * 128), n, t.toNat, num, .read .l1 sw, [], 0⟩) s
  pas.foldl (fun s p => s.useLine (s.agentOf n p.1) (lineOf p.1)) s

/-- The pieces of a store within a line that register as one unit each: a doubleword it covers entirely, or a word
(spec/15 R280, R281). -/
def unitsOf (num : Nat) (bs : List (Nat × Byte)) : List (BitVec 32) :=
  (List.range 16).flatMap fun d =>
    let lo : BitVec 5 := BitVec.ofNat 5 (2 * d)
    let hi : BitVec 5 := BitVec.ofNat 5 (2 * d + 1)
    let touched (w : BitVec 5) : Bool := bs.any fun p => wordOf p.1 = w
    let whole := (List.range 8).all fun k => bs.any fun p => p.1 = wordAddr num lo + k
    if whole then [wordBit lo ||| wordBit hi]
    else (if touched lo then [wordBit lo] else []) ++ (if touched hi then [wordBit hi] else [])

/-- Writes bytes into words of a line in L1. -/
def Line.write (l : Line) (bs : List (Nat × Byte)) (dirty : Bool) : Line :=
  let l1 := bs.foldl (fun l p =>
    let w := wordOf p.1
    let x := get32 l.words w
    let d := if dirty then x.dirty ||| BitVec.ofNat 4 (2 ^ (p.1 % 4)) else x.dirty
    { l with words := set32 l.words w { x with val := setByte x.val (p.1 % 4) p.2, dirty := d } }) l
  let full := (bs.map fun p => wordOf p.1).filter fun w =>
    (List.range 4).all fun k => bs.any fun p => p.1 = wordAddr l.num w + k
  full.foldl (fun l w => { l with words := set32 l.words w { get32 l.words w with psn := false } }) l1

/-- Sends a registration, an atomic or a store that home performs, and notes it as outstanding. -/
def State.register (s : State) (agent n : Nat) (t : BitVec 2) (num : Nat) (bs : List (Nat × Byte)) (words : BitVec 32)
    (op : HomeOp) : State × Nat :=
  let (id, s) := s.fresh
  let s := s.onCore agent fun c =>
    { c with req := { c.req with regs := c.req.regs ++ [⟨id, n, t.toNat, num, bs, words, false, []⟩] } }
  (s.request ⟨id, agent, n, t.toNat, num, op, [], 0⟩, id)

/-- Is a store that home performs for an L1 on its way for a line (spec/10 R196)? -/
def State.writeAhead (s : State) (agent num : Nat) : Bool :=
  (s.outRegs agent).any fun r => r.line = num && !r.replied && r.words = 0 && !r.bytes.isEmpty

/-- One line's part of a store (spec/15 R280, R281, R289; spec/10 R196). Answers the registrations it sends. On a
software-managed page a store follows to home an earlier one of the core that home performs, so that it ends as the later of
the two (spec/05 R141; log 106: DEDUCED). A line that is not in L1 counts as a miss (spec/16 R318; log 105: DESIGN CHOICE). In a fused cluster another core's store meets a line that one
core holds in the slice as it meets any line there (spec/13 R255; log 104: DESIGN CHOICE).
(log 45: DEDUCED) -/
def State.storeLine (s : State) (n : Nat) (t : BitVec 2) (num : Nat) (bs : List (Nat × Byte)) (c : Bool) :
    State × List Nat :=
  let agent := s.agentOf n (num * 128)
  let s := if (s.line? agent num).isNone then s.count n (some t) 4 1 else s
  match (if s.writeAhead agent num && !c then none else s.allocate agent num (!c)) with
  | none =>
    let (s, id) := s.register agent n t num bs 0 (.write bs)
    (s, [id])
  | some s =>
    let s := s.useLine agent num
    if !c then (s.onLine agent num fun l => l.write bs true, [])
    else
      (unitsOf num bs).foldl (fun (acc : State × List Nat) u =>
        let s := acc.1
        let mine := bs.filter fun p => u.getLsbD (wordOf p.1).toNat
        let owned (w : BitVec 5) : Bool := !s.awaits agent num w &&
          (match s.line? agent num with | some l => (get32 l.words w).st == WordState.o | none => false)
        if (wordsOf u).all owned then (s.onLine agent num fun l => l.write mine false, acc.2)
        else
          let (s, id) := s.register agent n t num mine u (.reg mine u)
          (s, acc.2 ++ [id])) (s, [])

/-- A thread's store to global memory. -/
def State.storeGlobal (s : State) (n : Nat) (t : BitVec 2) (bs : List (Nat × Byte)) (c : Nat → Bool) :
    State × List Nat :=
  (linesOf (bs.map Prod.fst)).foldl (fun (acc : State × List Nat) p =>
    let mine := bs.filter fun b => lineOf b.1 = p.1
    let r := acc.1.storeLine n t p.1 mine (match mine with | b :: _ => c b.1 | [] => true)
    (r.1, acc.2 ++ r.2)) (s, [])

/-! ### Acquire (spec/15 R286) -/

/-- What one L1 does when the generation becomes `g`. -/
def Core.advance (c : Core) (g : BitVec 4) : Core :=
  let old (l : Line) : Line :=
    if !l.sw && l.gen == g then
      { l with words := (l.wordsIn .v).foldl (fun v w => set32 v w { get32 v w with st := .i }) l.words }
    else l
  let keep (l : Line) : Line := if l.push then { l with gen := g, push := false } else l
  { c with mem := { c.mem with gen := g, l1 := c.mem.l1.map fun l => keep (old l) } }

/-- An acquire by a thread of a core. -/
def State.acquire (s : State) (n : Nat) : State :=
  let g := s.gen n + 1
  let s1 := s.onCore (s.genCore n) fun c => { c with mem := { c.mem with gen := g } }
  (s.sharers n).foldl (fun s k => s.onCore k fun c => c.advance g) s1

/-! ### Release (spec/05 R140) -/

/-- Does a request at home, or a copy on its way, belong to a push of a core? -/
def State.pushIds (s : State) (n : Nat) : List Nat :=
  (s.core n).req.pushes.map PushWait.id
  ++ (s.mem.homeq.filterMap fun r => match r.op with | .push _ => if r.src = n then some r.id else none | _ => none)
  ++ (s.mem.pushes.filter fun p => p.core = n).map PushMsg.op

/-- The loads and atomics of a thread whose values have yet to come, PENAL's loads among them. -/
def Thread.reading (t : Thread) : List Nat :=
  (t.run.pend.filter fun a => (a.kind == .load || a.kind == .atomic || a.kind == .penal) && !a.ready).map Async.id

/-- The earlier accesses of a thread that have not been performed: stores, pushes and remote accesses of its core, its own
loads and atomics (R140). -/
def State.outstanding (s : State) (n : Nat) (t : BitVec 2) : List Nat :=
  ((s.sharers n).flatMap fun k => ((s.outRegs k).filter fun r => r.src = n).map OutReg.id) ++ s.pushIds n
  ++ ((s.fabric.remote.filter fun r => r.core = n && r.cmd.isNone && (r.op.isSome || r.store.isSome)).map Remote.id)
  ++ (s.thread n t).reading

/-- Has every earlier access of the thread, and every store, push and remote access of its core, been performed? -/
def State.released (s : State) (n : Nat) (t : BitVec 2) : Bool := (s.outstanding n t).isEmpty

end Sys2Proof.Machine
end

