-- ==== Sys2Proof/Machine/Members.lean ====
section
/-!
DEFINITION. Domains: which domain a core belongs to, its members, ranks, and the request to change domain
(spec/16 R293-R297).
-/
set_option linter.constructorNameAsVariable false

namespace Sys2Proof.Machine

/-- Does a domain table entry cover a core? Only cores of the owning partition count (spec/16 R294). -/
def State.entryCovers (s : State) (table n : Nat) : Bool :=
  match assoc s.domtab table with
  | none => false
  | some e =>
    e.valid && e.clusters.contains (clusterOf n) && e.mask.getLsbD (n % 32)
    && (match e.owner.bind s.partOf with
        | some p => p.clusters.contains (clusterOf n)
        | none => false)

/-- The cores that an entry covers, in ascending order. -/
def State.entryCores (s : State) (table : Nat) : List Nat :=
  match assoc s.domtab table with
  | none => []
  | some e =>
    (e.clusters.flatMap fun c => (List.range 32).map fun k => c * 32 + k).filter fun n => s.entryCovers table n

/-- A launch that spans modules: LEVEL 3 in its record, and FABGRP names another module (spec/22 R411). -/
def State.fabricLaunch (s : State) (l : Launch) : Bool :=
  l.record.level == 3 && (s.fabgrp l.part &&& ~~~((1#64) <<< s.fabric.module.toNat)) != 0

/-- The level that DOM names; LEVEL 3 in a launch of one module counts as 2 (spec/16 R293). -/
def State.domLevel (s : State) (l : Launch) (level : Nat) : Nat :=
  if level = 3 && !s.fabricLaunch l then 2 else level

/-- The domain that a core belongs to (spec/16 R293). -/
def State.domKey (s : State) (n : Nat) : DomKey :=
  let d := (s.core n).regs.dom
  match s.coreLaunch n with
  | none => ⟨0, d.level.toNat, 0⟩
  | some l =>
    let lv := s.domLevel l d.level.toNat
    ⟨l.id, lv, if lv = 0 then clusterOf n else if lv = 1 then dieOf n else if lv = 4 then d.table.toNat else 0⟩

/-- A core is a member of the domain its DOM names: it is no shadow, and the unit covers it. -/
def State.isMember (s : State) (n : Nat) : Bool :=
  !s.shadow n && (s.core n).launch.isSome
  && ((s.domKey n).level != 4 || s.entryCovers (s.domKey n).unit n)

/-- The members of a domain in ascending global identity (spec/16 R293). -/
def State.members (s : State) (k : DomKey) : List Nat :=
  match s.launchOf k.launch with
  | none => []
  | some l => l.cores.filter fun n => s.isMember n && s.domKey n == k && (s.core n).launch == some l.id

/-- The domain of a core is frozen (spec/16 R313). -/
def State.frozen (s : State) (n : Nat) : Bool := s.bars.any fun b => b.frozen && b.key == s.domKey n && s.isMember n

/-- Does an access of core `n` wait at the router of core `k`: `k` is in a frozen domain that `n` is not in (spec/16 R313,
log 33: DEDUCED)? -/
def State.shut (s : State) (n k : Nat) : Bool := s.frozen k && s.domKey k != s.domKey n

/-- The rank of a core among the members (spec/16 R296). -/
def State.rank (s : State) (n : Nat) : Nat := ((s.members (s.domKey n)).filter fun m => m < n).length

/-- Has a module a path: is the port up that the route table names for it (spec/22 R405)? -/
def State.routed (s : State) (m : Nat) : Bool :=
  ((s.fabric.route[m]?).bind fun k => s.fabric.ports[k]?).any Port.up

/-- The new value that a request names, and the status it gives (spec/16 R296): 0 accepted, 1 invalid, 3 pending. -/
def State.domCheck (s : State) (n : Nat) (v : Word) : Nat :=
  let level := (v.extractLsb' 8 4).toNat
  let table := (v.extractLsb' 0 8).toNat
  if (s.core n).regs.dom.pend then 3
  else if 4 < level || (level < 4 && table != 0) || (level = 4 && !s.entryCovers table n) then 1
  else 0

/-- DOMSET's effect on DOM: the status, and the pending value when it is 0 (spec/16 R296). -/
def State.domRequest (s : State) (n : Nat) (v : Word) : State × Nat :=
  match s.domCheck n v with
  | 0 =>
    (s.onCore n fun c => { c with regs := { c.regs with
        dom := { c.regs.dom with pend := true, plevel := v.extractLsb' 8 4, ptable := v.extractLsb' 0 8 } } }, 0)
  | k => (s, k)

/-- DOM as a word (spec/16 R295). -/
def Dom.word (d : Dom) : Word :=
  BitVec.ofNat 64 (d.table.toNat + d.level.toNat * 2 ^ 8 + d.ptable.toNat * 2 ^ 12 + d.plevel.toNat * 2 ^ 20
    + bit1 d.pend * 2 ^ 27)

/-! ### The running state of a domain's superstep -/

/-- The superstep of a domain in which nothing has happened yet. -/
def Barrier.fresh (k : DomKey) : Barrier := ⟨k, false, [], [], [], [], false, false, false⟩

/-- The superstep of a domain. -/
def State.bar (s : State) (k : DomKey) : Barrier := (s.bars.find? fun b => b.key = k).getD (Barrier.fresh k)

/-- Changes the superstep of a domain. -/
def State.onBar (s : State) (k : DomKey) (f : Barrier → Barrier) : State :=
  if s.bars.any fun b => b.key = k then { s with bars := s.bars.map fun b => if b.key = k then f b else b }
  else { s with bars := s.bars ++ [f (Barrier.fresh k)] }

end Sys2Proof.Machine
end

