-- ==== Sys2Proof/Machine/Translate.lean ====
section
/-!
DEFINITION. The address map, translation, and the checks of an access before any byte moves (spec/05 R121-R124;
spec/21 R391-R394; spec/22 R407).
-/
set_option linter.constructorNameAsVariable false

namespace Sys2Proof.Machine

/-- The code of a cause (spec/07 R167). -/
def Cause.code : Cause → BitVec 8
  | .illegal => 0x01 | .priv => 0x02 | .trap => 0x03 | .fetchFault => 0x04 | .loadFault => 0x05
  | .storeFault => 0x06 | .misalign => 0x07 | .windowCross => 0x08 | .paramUnbound => 0x09 | .spill => 0x0A
  | .fill => 0x0B | .arith => 0x0D | .poison => 0x0E | .engine => 0x0F | .lease => 0x10 | .exchange => 0x11
  | .context => 0x12 | .tap => 0x13 | .budget => 0x14 | .break => 0x15 | .lockstep => 0x16 | .machine => 0x17

/-- The kinds of access that a page permits apart (spec/21 R392). -/
inductive Acc where
  | read | write | fetch
  deriving DecidableEq, Repr

/-- The cause of a fault on an access (spec/21 R392). -/
def Acc.cause : Acc → Cause
  | .read => .loadFault
  | .write => .storeFault
  | .fetch => .fetchFault

/-- Bytes of local memory that a window shows (spec/05 R121). -/
def localSize : Nat := 0x6000

/-- The first address of global memory. -/
def globalBase : Nat := 0x1000000000

/-- The first address above global memory. -/
def globalTop : Nat := 2 ^ 55

/-- Where an address lies (spec/05 R121). -/
inductive Zone where
  | own (off : Nat)
  | peer (core off : Nat)
  | global
  | hole
  deriving DecidableEq, Repr

/-- The map of spec/05 R121. -/
def zoneOf (a : Nat) : Zone :=
  if a < localSize then .own a
  else if 0x100000000 ≤ a ∧ a < 0x100000000 + Config.numCores * 0x10000 then
    let off := a % 0x10000
    if off < localSize then .peer ((a - 0x100000000) / 0x10000) off else .hole
  else if globalBase ≤ a ∧ a < globalTop then .global
  else .hole

/-- The physical map (spec/21 R392, spec/22 R407): near tier, far tier, host memory, the windows of the modules of the
group. -/
def State.physOk (s : State) (part pa : Nat) : Bool :=
  pa < 0x4000000000 || (0x10000000000 ≤ pa && pa < 0x30000000000) || (0x800000000000 ≤ pa && pa < 0x1000000000000)
  || (match fabTarget pa with
      | some (m, _) => (s.fabgrp part).getLsbD m
      | none => false)

/-- What a translation gives. -/
inductive Walk where
  | leaf (e : TlbEnt)
  | fault
  | wait (pa : Nat)
  deriving DecidableEq, Repr

/-- The walk of spec/21 R391, R392 from a table through the levels whose leaf sizes (as powers of two) remain. Table
entries are read as plain loads at home; an entry that home cannot serve now makes the walk wait (log 20: DESIGN CHOICE), unless the
walk is `forced` (log 9: DESIGN CHOICE).
(log 47: DEDUCED) -/
def State.walkFrom (s : State) (forced : Bool) (part : Nat) (asid : BitVec 16) (va : Nat) : Nat → List Nat → Walk
  | _, [] => .fault
  | table, bits :: rest =>
    let at' := table + 8 * ((va / 2 ^ bits) % 8192)
    if !s.physOk part at' then .fault
    else if !forced && !s.homeFreeAll [at', at' + 4] then .wait at'
    else if s.homeAnyPsn at' 8 then .fault
    else
      let e := leNat (s.homeBytes at' 8)
      let pa := (e / 2 ^ 16 % 2 ^ 32) * 2 ^ 16
      let leaf := e / 2 % 2 = 1
      if e % 2 = 0 || e / 2 ^ 48 != 0 || e / 2 ^ 7 % 2 ^ 9 != 0 then .fault
      else if leaf then
        if pa % 2 ^ bits = 0 then
          .leaf ⟨part, asid, va / 2 ^ bits * 2 ^ bits, 2 ^ bits, pa, BitVec.ofNat 5 (e / 4)⟩
        else .fault
      else s.walkFrom forced part asid va pa rest

/-- A walk from a level-1 table. -/
def State.walk (s : State) (part : Nat) (asid : BitVec 16) (ptbr : BitVec 32) (va : Nat) : Walk :=
  s.walkFrom false part asid va (ptbr.toNat * 2 ^ 16) [42, 29, 16]

/-- Does a translation's page permit an access (spec/21 R392)? `attr` holds U, R, W, X, C from bit 0. -/
def TlbEnt.permits (e : TlbEnt) (level : Level) (acc : Acc) : Bool :=
  (level == .s || e.attr.getLsbD 0)
  && (match acc with
      | .read => e.attr.getLsbD 1
      | .write => e.attr.getLsbD 2
      | .fetch => e.attr.getLsbD 3)

/-- The C attribute of a page. -/
def TlbEnt.coherent (e : TlbEnt) : Bool := e.attr.getLsbD 4

/-- The physical address under a translation. -/
def TlbEnt.phys (e : TlbEnt) (va : Nat) : Nat := e.pa + (va - e.va)

/-- Does a translation cover an address of an address space? -/
def TlbEnt.covers (e : TlbEnt) (part : Nat) (asid : BitVec 16) (va : Nat) : Bool :=
  e.part == part && e.asid == asid && e.va ≤ va && va < e.va + e.size

/-- What the translation of one page gives an access. -/
inductive Tr where
  | ok (pa : Nat) (c : Bool)
  | fault
  | wait
  deriving DecidableEq, Repr

/-- Whether an access under a translation is permitted and where it goes. -/
def State.under (s : State) (e : TlbEnt) (level : Level) (acc : Acc) (va : Nat) : Tr :=
  let pa := e.phys va
  if e.permits level acc && s.physOk e.part pa && !(acc == .fetch && (fabTarget pa).isSome) then .ok pa e.coherent
  else .fault

/-- Enters a translation in a core's micro-TLB (8 entries) and its cluster TLB (512), oldest out (log 18: DESIGN CHOICE). -/
def State.enterTlb (s : State) (n : Nat) (e : TlbEnt) : State :=
  let s1 := s.onCore n fun c =>
    { c with mem := { c.mem with tlb := (c.mem.tlb ++ [e]).drop (c.mem.tlb.length + 1 - 8) } }
  let l := (assoc s1.ctlb (clusterOf n)).getD []
  { s1 with ctlb := assocPut s1.ctlb (clusterOf n) ((l ++ [e]).drop (l.length + 1 - 512)) }

/-- Translates one global address for a core (spec/21 R394): micro-TLB, cluster TLB, walk. -/
def State.translateRaw (s : State) (n : Nat) (level : Level) (acc : Acc) (va : Nat) : State × Tr :=
  match s.coreLaunch n with
  | none => (s, .fault)
  | some l =>
    let hit (e : TlbEnt) : Bool := e.covers l.part l.asid va
    match ((s.core n).mem.tlb.find? hit).orElse fun _ => ((assoc s.ctlb (clusterOf n)).getD []).find? hit with
    | some e => (s, s.under e level acc va)
    | none =>
      match s.walk l.part l.asid l.ptbr va with
      | .fault => (s, .fault)
      | .wait pa => (s.snoopAll [pa, pa + 4], .wait)
      | .leaf e =>
        match s.under e level acc va with
        | .ok pa c => (s.enterTlb n e, .ok pa c)
        | r => (s, r)

/-- Is a physical page spilled to the glacier tier (spec/17 R351)? -/
def State.spilledPage (s : State) (pa : Nat) : Bool := s.kvpages.any fun p => p.spilled && p.pa = pa / 0x10000

/-- The part begins to fetch a spilled page (spec/17 R351). -/
def State.fetchPage (s : State) (pa : Nat) : State :=
  { s with kvpages := s.kvpages.map fun p => if p.spilled ∧ p.pa = pa / 0x10000 then { p with fetch := true } else p }

/-- The write set of a launch in record mode (spec/16 R319): a page is kept as it stands before its first write, and its copy
goes to the write-set area, one after the other (spec/21 R401 gives no order; log 93: DESIGN CHOICE). -/
def State.notePage (s : State) (l : Launch) (pa : Nat) : State :=
  match l.replay with
  | some r =>
    let page := pa / 0x10000
    if !r.recording || r.full || r.pages.any fun p => p.1 = page then s
    else if r.room < (r.pages.length + 1) * 0x10000 then
      s.onLaunch l.id fun x => { x with replay := some { r with full := true } }
    else
      let copy := s.homeBytes (page * 0x10000) 0x10000
      let at' := r.area.toNat + r.pages.length * 0x10000
      { s with mem := { s.mem with late := s.mem.late ++ [(⟨l.part, .phys at' copy⟩ : Late)] } }.onLaunch l.id fun x =>
        { x with replay := some { r with pages := r.pages ++ [(page, copy)] } }
  | none => s

/-- Does a launch in record mode still have to keep a page before it is written? -/
def Launch.mustKeep (l : Launch) (page : Nat) : Bool :=
  l.replay.any fun r => r.recording && !r.full && (r.pages.length + 1) * 0x10000 ≤ r.room && r.pages.all fun p => p.1 != page

/-- The halves of a page's lines that the host owns, if a launch must keep the page first: home's copy of them is not
authoritative until they are snooped (spec/21 R396). -/
def State.keepFirst (s : State) (l : Launch) (pa : Nat) : List Nat :=
  if l.mustKeep (pa / 0x10000) then
    (s.mem.dir.filter fun d => d.1 / 512 = s.norm pa / 0x10000).flatMap fun d => s.hostHalves d.1 0xFFFFFFFF
  else []

/-- The same for a write of the part, in every launch of the partition (spec/16 R319; log 83: DEDUCED). -/
def State.keepAll (s : State) (part : Nat) (pas : List Nat) : List Nat :=
  (s.launches.filter fun l => l.part = part).flatMap fun l => pas.flatMap (s.keepFirst l)

/-- The translation of an access: one to a spilled page waits, except a KVLD's (spec/17 R351). -/
def State.translate (s : State) (n : Nat) (level : Level) (acc : Acc) (va : Nat) : State × Tr :=
  match s.translateRaw n level acc va with
  | (s, .ok pa c) =>
    if s.spilledPage pa then (s.fetchPage pa, .wait)
    else
      match s.coreLaunch n with
      | some l =>
        if acc != .write then (s, .ok pa c)
        else if (s.keepFirst l pa).isEmpty then (s.notePage l pa, .ok pa c)
        else (s.snoop (s.keepFirst l pa), .wait)
      | none => (s, .ok pa c)
  | r => r

/-- The place of a translated byte. -/
def placeOf (pa : Nat) (c : Bool) : Place := if (fabTarget pa).isSome then .fab pa else .glob pa c

/-! ### The control area (spec/21 R385, spec/16 R294; log 32: DEDUCED) -/

/-- Bytes of a domain table entry, and of the control area. -/
def entrySize : Nat := 416
def controlSize : Nat := 0x20000

/-- The offset of an address in the control area of the partition whose launch a core runs. -/
def State.ctlOff (s : State) (n va : Nat) : Option Nat :=
  match s.corePart n with
  | some p => if p.control.toNat ≤ va ∧ va < p.control.toNat + controlSize then some (va - p.control.toNat) else none
  | none => none

/-- Byte `j` of a domain table entry (spec/16 R294). -/
def DomEntry.byte (e : DomEntry) (j : Nat) : Byte :=
  if j < 400 then
    BitVec.ofNat 8 ((List.range 8).foldl (fun a i => if e.clusters.contains (8 * j + i) then a + 2 ^ i else a) 0)
  else if j < 404 then e.mask.extractLsb' (8 * (j - 400)) 8
  else if j = 404 then BitVec.ofNat 8 (bit1 e.valid)
  else if j = 405 then BitVec.ofNat 8 (e.owner.getD 0)
  else 0

/-- An entry with byte `j` written; byte 405 and the reserved bytes ignore writes. -/
def DomEntry.put (e : DomEntry) (j : Nat) (b : Byte) : DomEntry :=
  if j < 400 then
    let others := e.clusters.filter fun c => c / 8 != j
    { e with clusters := ((List.range 8).filter fun i => b.getLsbD i).foldl (fun l i => insertNat (8 * j + i) l) others }
  else if j < 404 then { e with mask := setByte e.mask (j - 400) b }
  else if j = 404 then { e with valid := b.getLsbD 0 }
  else e

/-- A byte of the control area: entries of other partitions read as zeros. -/
def State.ctlByte (s : State) (n off : Nat) : Byte :=
  match assoc s.domtab (off / entrySize) with
  | some e => if e.owner = some (s.corePartId n) then e.byte (off % entrySize) else 0
  | none => 0

/-- Writes a byte of the control area: of other partitions' entries it is ignored. -/
def State.ctlPut (s : State) (n off : Nat) (b : Byte) : State :=
  match assoc s.domtab (off / entrySize) with
  | some e =>
    if e.owner = some (s.corePartId n) then
      { s with domtab := assocPut s.domtab (off / entrySize) (e.put (off % entrySize) b) }
    else s
  | none => s

/-- Writes those bytes of an access that lie in the control area. -/
def State.ctlWrite (s : State) (n : Nat) (cells : List (Place × Byte)) : State :=
  cells.foldl (fun s p => match p.1 with | .ctl off => s.ctlPut n off p.2 | _ => s) s

/-- What the bytes of one page give an access. -/
inductive Reach where
  | ok (ps : List Place)
  | fault
  | wait
  deriving DecidableEq, Repr

/-- `len` bytes of one page of global memory: the control area, which only S level reaches, or the translated page. -/
def State.reach (s : State) (n : Nat) (level : Level) (acc : Acc) (va len : Nat) : State × Reach :=
  match s.ctlOff n va with
  | some off => (s, if level = .s then .ok ((List.range len).map fun k => .ctl (off + k)) else .fault)
  | none =>
    match s.translate n level acc va with
    | (s, .ok pa c) => (s, .ok ((List.range len).map fun k => placeOf (pa + k) c))
    | (s, .fault) => (s, .fault)
    | (s, .wait) => (s, .wait)

/-- What the checks of spec/05 R122 give: where each byte goes, a trap, or a wait for a walk. -/
inductive Checked where
  | ok (places : List Place)
  | trap (c : Cause) (v : Word)
  | wait
  deriving DecidableEq, Repr

/-- Is a core in the partition of the launch that core `n` runs (spec/05 R123)? -/
def State.inPart (s : State) (n k : Nat) : Bool :=
  match s.corePart n with
  | some p => p.clusters.contains (clusterOf k)
  | none => false

/-- The first offset of local memory that an access may not reach: 0x5800 in a lockstep pair (spec/10 R215). -/
def State.localEnd (s : State) (n : Nat) : Nat := if s.lockstep n then 0x5800 else localSize

/-- Bytes of global memory from `va` up, page by page; the lowest faulting byte (spec/05 R122.3). -/
def State.checkGlobal (s : State) (n : Nat) (level : Level) (acc : Acc) (va size : Nat) : State × Checked :=
  let page := 0x10000
  let first := min size (page - va % page)
  match s.reach n level acc va first with
  | (s, .fault) => (s, .trap acc.cause (BitVec.ofNat 64 va))
  | (s, .wait) => (s, .wait)
  | (s, .ok here) =>
    if first = size then (s, .ok here)
    else
      let va2 := va + first
      if globalTop ≤ va2 then (s, .trap acc.cause (BitVec.ofNat 64 va2))
      else
        match s.reach n level acc va2 (size - first) with
        | (s, .fault) => (s, .trap acc.cause (BitVec.ofNat 64 va2))
        | (s, .wait) => (s, .wait)
        | (s, .ok rest) => (s, .ok (here ++ rest))

/-- The checks of an access of `size` bytes, 1 to 64, by a thread or an engine of core `n` (spec/05 R122). A peer access that
lies outside the partition and also crosses the window's end traps as one to an unmapped address; R123 does not rank it
against WINDOW_CROSS (log 100: DESIGN CHOICE). -/
def State.check (s : State) (n : Nat) (level : Level) (acc : Acc) (a : Word) (size : Nat) : State × Checked :=
  let x := a.toNat
  match zoneOf x with
  | .hole => (s, .trap acc.cause a)
  | .own off =>
    if s.localEnd n ≤ off then (s, .trap acc.cause a)
    else if localSize < off + size then (s, .trap .windowCross a)
    else if s.localEnd n < off + size then (s, .trap acc.cause (BitVec.ofNat 64 (s.localEnd n)))
    else (s, .ok ((List.range size).map fun k => .own (off + k)))
  | .peer k off =>
    if !s.inPart n k || s.shadow k || s.localEnd k ≤ off then (s, .trap acc.cause a)
    else if localSize < off + size then (s, .trap .windowCross a)
    else if s.localEnd k < off + size then (s, .trap acc.cause (BitVec.ofNat 64 (x - off + s.localEnd k)))
    else (s, .ok ((List.range size).map fun i => .peer k (off + i)))
  | .global => s.checkGlobal n level acc x size

/-- Translates an address of a partition's own address space for the part itself (sequencer, scheduler, fault areas):
no TLB, S level. A forced translation does not wait (log 9: DESIGN CHOICE).
(log 52: DEDUCED) -/
def State.partTranslate (s : State) (forced : Bool) (part : Nat) (acc : Acc) (va : Nat) : Tr :=
  match s.partOf part with
  | none => .fault
  | some p =>
    if va < globalBase || globalTop ≤ va then .fault
    else
      match s.walkFrom forced part p.asid va (p.ptbr.toNat * 2 ^ 16) [42, 29, 16] with
      | .leaf e => s.under e .s acc va
      | .fault => .fault
      | .wait _ => .wait

/-- The physical addresses of a range in a partition's address space: page by page, none where a page faults; a wait of
an unforced walk is the empty list with `true`. -/
def State.partPages (s : State) (forced : Bool) (part : Nat) (acc : Acc) : Nat → Nat → Nat → Option (List (Nat × Nat) × Bool)
  | 0, _, _ => some ([], false)
  | fuel + 1, va, size =>
    if size = 0 then some ([], false)
    else
      let here := min size (0x10000 - va % 0x10000)
      match s.partTranslate forced part acc va with
      | .fault => none
      | .wait => some ([], true)
      | .ok pa _ =>
        match s.partPages forced part acc fuel (va + here) (size - here) with
        | some (l, w) => some ((pa, here) :: l, w)
        | none => none

/-- Where the bytes of a range of a partition's address space lie, for an access of the part that waits for what it meets. -/
inductive PartAt where
  | ok (pas : List Nat)
  | fault
  | wait
  deriving DecidableEq, Repr

/-- One page of such an access is translated: a table entry that home cannot serve now is snooped (spec/21 R396). -/
def State.walkPage (s : State) (part : Nat) (acc : Acc) (va : Nat) : State × Tr :=
  match s.partOf part with
  | none => (s, .fault)
  | some p =>
    if va < globalBase || globalTop ≤ va then (s, .fault)
    else
      match s.walkFrom false part p.asid va (p.ptbr.toNat * 2 ^ 16) [42, 29, 16] with
      | .fault => (s, .fault)
      | .wait at' => (s.snoopAll [at', at' + 4], .wait)
      | .leaf e => (s, s.under e .s acc va)

/-- The page as it can be accessed now: a spilled one begins to be fetched (spec/17 R351). -/
def State.partPage (s : State) (part : Nat) (acc : Acc) (va : Nat) : State × Tr :=
  match s.walkPage part acc va with
  | (s, .ok pa c) => if s.spilledPage pa then (s.fetchPage pa, .wait) else (s, .ok pa c)
  | r => r

/-- The pages of a range, as far as `fuel` of them. -/
def State.partAll (s : State) (part : Nat) (acc : Acc) : Nat → Nat → Nat → State × PartAt
  | 0, _, _ => (s, .ok [])
  | fuel + 1, va, size =>
    if size = 0 then (s, .ok [])
    else
      let here := min size (0x10000 - va % 0x10000)
      match s.partPage part acc va with
      | (s, .fault) => (s, .fault)
      | (s, .wait) =>
        match s.partAll part acc fuel (va + here) (size - here) with
        | (s, .fault) => (s, .fault)
        | (s, _) => (s, .wait)
      | (s, .ok pa _) =>
        match s.partAll part acc fuel (va + here) (size - here) with
        | (s, .ok l) => (s, .ok ((List.range here).map (fun k => pa + k) ++ l))
        | r => r

/-- An access of the part to a range: it can be made now once every page and every word can be served; what the host owns
of them is snooped (spec/21 R396). -/
def State.partReach (s : State) (part : Nat) (acc : Acc) (va size : Nat) : State × PartAt :=
  match s.partAll part acc (size / 0x10000 + 2) va size with
  | (s, .ok pas) =>
    let first := if acc = .write then s.keepAll part pas else []
    if !s.homeFreeAll pas then (s.snoopAll pas, .wait)
    else if !first.isEmpty then (s.snoop first, .wait)
    else (s, .ok pas)
  | r => r

/-- The physical address of each byte of a range, where every page is mapped and permits the access. -/
def State.partMap (s : State) (forced : Bool) (part : Nat) (acc : Acc) (va size : Nat) : Option (List Nat × Bool) :=
  (s.partPages forced part acc (size / 0x10000 + 2) va size).map fun r =>
    (r.1.flatMap fun p => (List.range p.2).map fun k => p.1 + k, r.2)

end Sys2Proof.Machine
end

