-- ==== Sys2Proof/Machine/Records.lean ====
section
/-!
DEFINITION. The records that the part itself writes: fault records (spec/17 R350, spec/18 R375, R376; spec/21 R398) and
trace records (spec/16 R316, R317).
-/
set_option linter.constructorNameAsVariable false

namespace Sys2Proof.Machine

/-! ### Writes of the part in a partition's address space -/

/-- A read of the part itself, as home serves it now. -/
def State.partRead (s : State) (part va size : Nat) : Option (List Byte) :=
  (s.partMap true part .read va size).map fun r => r.1.map fun pa => (s.homeByte pa).1

/-- A read of `size` bytes as a number. -/
def State.partNat (s : State) (part va size : Nat) : Option Nat := (s.partRead part va size).map leNat

/-- Is a byte of a range poisoned? -/
def State.partPsn (s : State) (part va size : Nat) : Bool :=
  match s.partMap true part .read va size with
  | some r => r.1.any fun pa => (s.homeByte pa).2
  | none => false

/-! ### The host's half of a line (spec/21 R384, R396) -/

/-- Device memory: the near tier and the far tier (spec/21 R392). -/
def deviceOk (pa : Nat) : Bool := pa < 0x4000000000 || (0x10000000000 ≤ pa && pa < 0x30000000000)

/-- The line of a half, and the half's first address. -/
def halfLine (half : Nat) : Nat := half / 2
def halfAddr (half : Nat) : Nat := half * 64

/-- The words of a half. -/
def halfWords (half : Nat) : BitVec 32 := if half % 2 = 0 then 0x0000FFFF else 0xFFFF0000

/-- The bytes that byte enables select. -/
def enabled (half : Nat) (bytes : List (Option Byte)) : List (Nat × Byte) :=
  ((List.range bytes.length).zip bytes).filterMap fun p => p.2.map fun b => (halfAddr half + p.1, b)

/-- The words of a mask that the host owns. -/
def DirEntry.hostWords (d : DirEntry) (m : BitVec 32) : BitVec 32 :=
  maskOf ((wordsOf m).filter fun w => d.owner w = some hostAgent)

/-- The host's ownership of words ends (SEL 00). -/
def State.hostGives (s : State) (num : Nat) (m : BitVec 32) : State :=
  let mine := (s.dirOf num).hostWords m
  if mine = 0 then s else s.setDir num ((s.dirOf num).release mine)

/-- Records the host as owner of words; with both owner slots taken the older slot's words are revoked
(spec/15 R283). -/
def State.hostTakes (s : State) (num : Nat) (m : BitVec 32) : State :=
  let s1 := if ((s.dirOf num).slotFor hostAgent).isSome then s else s.revokeNow num (s.dirOf num).olderWords
  match (s1.dirOf num).slotFor hostAgent with
  | some slot => s1.setDir num ((s1.dirOf num).record slot hostAgent m)
  | none => s1

/-- A host write at home (R396): revoke, merge, no owner or the host, pushed copies invalidated. The host becomes the owner
over a CXL link that can recall what it keeps: R383 gives back-invalidation to 3.1 alone, and R396 recalls in no other way
(log 109: DESIGN CHOICE). -/
def State.hostMerges (s : State) (cxl : Bool) (half : Nat) (bs : List (Nat × Byte)) : State :=
  let num := halfLine half
  let m := maskOf (bs.map fun p => wordOf p.1)
  let s1 := (s.hostGives num m).homeWriteLine num bs
  if cxl && s.backInv then s1.hostTakes num m else s1

/-- Can home take a host write now? Not while a core holds the line, a doubleword of it is being registered, or a pushed copy
is on its way; a third owner's words may have to be revoked too. -/
def State.hostWriteFree (s : State) (cxl : Bool) (half : Nat) (bs : List (Nat × Byte)) : Bool :=
  let num := halfLine half
  let m := maskOf (bs.map fun p => wordOf p.1)
  let s1 := s.hostGives num m
  let d := s1.dirOf num
  let extra : BitVec 32 := if cxl && s.backInv && (d.slotFor hostAgent).isNone then d.olderWords else 0
  s1.homeFree num (m ||| extra)

/-- A byte of a host read: a word that the host owns is served by the host's own cache, whose contents are not the
part's (log 40: DESIGN CHOICE). -/
def State.hostByte (s : State) (pa : Nat) : Byte :=
  if (s.dirOf (lineOf pa)).owner (wordOf pa) = some hostAgent then s.freeAt 3 pa else (s.homeByte pa).1

/-- A snoop is answered. -/
def State.snoopDone (s : State) (half : Nat) : State :=
  { s with mem := { s.mem with snoops := s.mem.snoops.filter (· != half) } }

/-- A host write, if home can take it now: a page in the glacier tier is fetched first (spec/17 R351). -/
def State.hostWriteNow (s : State) (cxl : Bool) (half : Nat) (bs : List (Nat × Byte)) : State × Bool :=
  if s.spilledPage (halfAddr half) then (s.fetchPage (halfAddr half), false)
  else if s.hostWriteFree cxl half bs then (s.hostMerges cxl half bs, true)
  else (s, false)

/-- The reply to a snoop: the half's host-owned words stand with SEL 00, and the bytes are merged as a host write. Where
another word of the half keeps home from taking them all, the host's own words are served first, and the other bytes follow
as a host write (log 92: DESIGN CHOICE). -/
def State.hostReplyNow (s : State) (half : Nat) (bytes : List (Option Byte)) : State × Bool :=
  let num := halfLine half
  let m := (s.dirOf num).hostWords (halfWords half)
  let part (own : Bool) : List (Option Byte) := ((List.range bytes.length).zip bytes).map fun p =>
    if m.getLsbD (wordOf (halfAddr half + p.1)).toNat = own then p.2 else none
  let s1 := s.hostGives num m
  if s1.hostWriteFree false half (enabled half bytes) then
    ((s1.hostMerges false half (enabled half bytes)).snoopDone half, true)
  else if m != 0 && s1.hostWriteFree false half (enabled half (part true)) then
    let s2 := (s1.hostMerges false half (enabled half (part true))).snoopDone half
    ({ s2 with mem := { s2.mem with late := s2.mem.late ++ [(⟨0, .hostWrite false half (part false)⟩ : Late)] } }, true)
  else (s, false)

/-- A host read, if home can serve it now: a read miss there; words that the host owns are its own. -/
def State.hostReadNow (s : State) (half : Nat) : State × Bool :=
  let num := halfLine half
  if s.spilledPage (halfAddr half) then (s.fetchPage (halfAddr half), false)
  else if s.homeFree num (halfWords half &&& ~~~(s.dirOf num).hostWords (halfWords half)) then
    ({ s with host := { s.host with lastRd := (List.range 64).map fun k => s.hostByte (halfAddr half + k) } }, true)
  else (s, false)

/-! ### Fault records and late writes -/

/-- COUNT where no record was written (spec/18 R365). -/
def noCount : Nat := 0xFFFFFFFF

/-- Puts bytes into a record of zeros at an offset. -/
def recPut (rec : List Byte) (off : Nat) (bs : List Byte) : List Byte :=
  rec.take off ++ bs ++ rec.drop (off + bs.length)

/-- A 64-byte record from (offset, size, value) fields; other bytes zero. -/
def recordOf (fields : List (Nat × Nat × Nat)) : List Byte :=
  fields.foldl (fun r f => recPut r f.1 (leBytes f.2.1 f.2.2)) (List.replicate 64 0)

/-- Queues a tap event; one that finds 64 in the queue is dropped and sets OVF (spec/18 R365). -/
def State.tapEvent (s : State) (part : Nat) (v : Word) : State :=
  s.onPart part fun p =>
    if 64 ≤ p.tapq.length then { p with taph := { p.taph with ovf := true } } else { p with tapq := p.tapq ++ [v] }

/-- The tap event that a record numbers, with COUNT before it (spec/18 R365). -/
def State.tapNumbered (s : State) (part count : Nat) (tap : Option Word) : State :=
  match tap with
  | some v => s.tapEvent part (v ||| BitVec.ofNat 64 (count * 2 ^ 32))
  | none => s

/-- Keeps, for every launch of a partition in record mode, the pages that the part writes (spec/16 R319,
log 83: DEDUCED). -/
def State.notePages (s : State) (part : Nat) (pas : List Nat) : State :=
  (s.launches.filter fun l => l.part = part).foldl (fun s l => pas.foldl (fun s pa =>
    match s.launchOf l.id with | some x => s.notePage x pa | none => s) s) s

/-- The place of the next record of a fault area, with COUNT, and where its bytes and COUNT lie; COUNT alone where the record
is dropped (spec/17 R350). -/
def State.recordAt (s : State) (part a : Nat) : State × PartAt × Nat :=
  if a = 0 then (s, .fault, noCount)
  else
    match s.partReach part .read a 4 with
    | (s, .fault) => (s, .fault, noCount)
    | (s, .wait) => (s, .wait, noCount)
    | (s, .ok c) =>
      let count := leNat (c.map fun pa => (s.homeByte pa).1)
      match s.partReach part .write (a + 64 + 64 * (count % 63)) 64 with
      | (s, .ok r) =>
        match s.partReach part .write a 4 with
        | (s, .ok c) => (s, .ok (r ++ c), count)
        | (s, x) => (s, x, noCount)
      | (s, x) => (s, x, noCount)

/-- An access that waits at home, if it can be made now: a write to a page that is gone writes nothing (spec/17 R324), and a
record whose page is gone is dropped (R350). -/
def State.lateNow (s : State) (l : Late) : State × Bool :=
  match l.op with
  | .phys pa bs =>
    let pas := (List.range bs.length).map fun k => pa + k
    if s.homeFreeAll pas then (s.homeWrite (bytesAt pa bs), true) else (s.snoopAll pas, false)
  | .store va bs =>
    match s.partReach l.part .write va bs.length with
    | (s, .ok pas) => ((s.notePages l.part pas).homeWrite (pas.zip bs), true)
    | (s, .fault) => (s, true)
    | (s, .wait) => (s, false)
  | .record area bs tap =>
    match s.recordAt l.part area.toNat with
    | (s, .ok pas, count) =>
      (((s.notePages l.part pas).homeWrite (pas.zip (bs ++ leBytes 4 (count + 1)))).tapNumbered l.part count tap, true)
    | (s, .fault, _) => (s.tapNumbered l.part noCount tap, true)
    | (s, .wait, _) => (s, false)
  | .hostWrite cxl half bs => s.hostWriteNow cxl half (enabled half bs)
  | .hostReply half bs => s.hostReplyNow half bs
  | .hostRead half => s.hostReadNow half

/-- The queue in which an access waits: those of one partition keep their order, as the host's writes do among themselves
(spec/21 R384); its replies and reads follow no other. -/
def Late.lane (l : Late) : Nat × Nat :=
  match l.op with
  | .hostReply half _ => (1, half)
  | .hostRead half => (2, half)
  | _ => (0, l.part)

/-- The accesses of a queue are made one after the other: one that home cannot take now lets those behind it wait
(spec/13 R266, spec/21 R396). -/
def State.drainList (s : State) (blocked : List (Nat × Nat)) : List Late → State
  | [] => s
  | l :: rest =>
    if blocked.contains l.lane then
      { s with mem := { s.mem with late := s.mem.late ++ [l] } }.drainList blocked rest
    else
      match s.lateNow l with
      | (s, true) => s.drainList blocked rest
      | (s, false) => { s with mem := { s.mem with late := s.mem.late ++ [l] } }.drainList (l.lane :: blocked) rest

/-- Makes those late writes that home can take now. -/
def State.drain (s : State) : State := { s with mem := { s.mem with late := [] } }.drainList [] s.mem.late

/-- A write of the part, made at once if home can take it and nothing of the partition waits before it. -/
def State.later (s : State) (part : Nat) (op : LateOp) : State :=
  { s with mem := { s.mem with late := s.mem.late ++ [(⟨part, op⟩ : Late)] } }.drain

/-- Have all the writes of a partition been made? -/
def State.written (s : State) (part : Nat) : Bool := s.mem.late.all fun l => l.part != part

/-- Writes a record into a fault area and increments COUNT (spec/17 R350); `tap` is the event that it numbers. -/
def State.faultRecord (s : State) (part : Nat) (area : Word) (rec : List Byte) (tap : Option Word) : State :=
  s.later part (.record area rec tap)

/-- A record in the partition's own fault area (spec/21 R398). -/
def State.partRecord (s : State) (part : Nat) (rec : List Byte) : State :=
  match s.partOf part with
  | some p => s.faultRecord part p.fault rec none
  | none => s

/-- The global identity and thread as R398 packs them. -/
def State.idThread (s : State) (n t : Nat) : Nat := s.identity n + t * 2 ^ 24

/-- A record about a thread's context: kinds 16 and 17 (spec/21 R398). -/
def State.contextRecord (s : State) (n t kind byte1 pc extra : Nat) : State :=
  s.partRecord (s.corePartId n) (recordOf [(0, 1, kind), (1, 1, byte1), (8, 4, s.idThread n t), (16, 8, pc),
    (24, 8, (s.core n).regs.sstep.toNat), (32, 8, extra)])

/-- A machine error or a retirement: kinds 18 and 19. -/
def State.machineRecord (s : State) (part kind unit who pa sstep extra : Nat) : State :=
  s.partRecord part (recordOf [(0, 1, kind), (1, 1, unit), (8, 4, who), (16, 8, pa), (24, 8, sstep), (32, 8, extra)])

/-- Counts a corrected error of a unit (spec/21 R397). Whether a new window has begun since the last one is a free
choice: windows are times (log 2: DESIGN CHOICE).
(log 77: DESIGN CHOICE) -/
def State.noteError (s : State) (u : ErrUnit) : State :=
  let old := if s.choice 700 then 0 else ((s.errs.counts.find? fun p => p.1 = u).map Prod.snd).getD 0
  { s with errs := { s.errs with counts := (s.errs.counts.filter fun p => p.1 != u) ++ [(u, old + 1)] } }

/-! ### Sequences that fault -/

/-- The address of a handle's record (spec/17 R321). -/
def recordAddr (base : BitVec 27) (h : Nat) : Nat := base.toNat * 2 ^ 28 + 256 * h
def Partition.record (p : Partition) (h : Nat) : Nat := recordAddr p.seqbase h
def Seq.record (q : Seq) : Nat := recordAddr q.base q.handle

/-- The home sequencer sets a sequence FAULTED: STATE says so from now on, in its record too (spec/17 R323, R324). -/
def State.seqFault (s : State) (part handle : Nat) : State :=
  match s.seqOf part handle with
  | some q =>
    let s1 := s.onSeq part handle fun q => { q with faulted := true, shown := 4 }
    if q.shown = 4 then s1 else s1.later part (.store q.record [4])
  | none => s

/-- A record in a sequence's fault area, with the tap event that it numbers. -/
def State.seqRecord (s : State) (part handle : Nat) (rec : List Byte) (tap : Option Word) : State :=
  match s.seqKept part handle with
  | some q => s.faultRecord part q.hdr.fault rec tap
  | none => s.tapNumbered part noCount tap

/-- The causes that fault the request while LKBUD.EN = 1 (spec/18 R375). -/
def Cause.faultsRequest : Cause → Bool
  | .illegal | .priv | .misalign | .windowCross | .paramUnbound | .arith | .poison | .engine | .lease | .exchange
  | .context | .machine => true
  | _ => false

/-- What a trap does to the request of an armed budget before entry: FAULTED, a record of kind 5 (or 6 for BUDGET), EN
cleared (spec/18 R375, R376). -/
def State.faultRequest (s : State) (n : Nat) (t : BitVec 2) (a : Word) (c : Cause) (v : Word) : State :=
  let b := (s.thread n t).sp.lkbud
  let spent := c == .budget
  if !b.en || !(spent || c.faultsRequest) then s
  else
    let part := s.corePartId n
    let h := b.handle.toNat
    let record := recordOf [(0, 1, if spent then 6 else 5), (1, 1, c.code.toNat), (4, 4, h), (16, 8, a.toNat),
      (24, 8, (s.core n).regs.sstep.toNat), (32, 8, if spent then b.armed.toNat else v.toNat)]
    let s1 := if (s.seqOf part h).isSome then (s.seqFault part h).seqRecord part h record none else s
    s1.onThread n t fun th =>
      { th with sp := { th.sp with lkbud := { th.sp.lkbud with en := false } } }

/-! ### Trace records (spec/16 R316, R317) -/

/-- Cycles since the core's last barrier completion, as a record holds them. -/
def State.sinceBarrier (s : State) (n : Nat) : Nat :=
  min 0xFFFFFFFF ((s.core n).regs.cycle - (s.core n).sup.barAt).toNat

/-- Counts a dropped record in the header; `full` where WRAP is the reason. -/
def State.traceDrop (s : State) (part : Nat) (t : Trace) (full : Bool) : State :=
  let t' : Trace := { t with dropped := t.dropped + 1, full := t.full || full }
  let b := t.buf.toNat
  ((s.onPart part fun p => { p with trace := some t' }).later part (.phys (b + 16) (leBytes 8 t'.dropped))).later part
    (.phys (b + 24) [BitVec.ofNat 8 (bit1 t'.wrap + 2 * bit1 t'.full)])

/-- Records that a die's trace write queue holds. -/
def traceDepth : Nat := 64

/-- A trace record of a core's event, when the partition's tracing asks for the kind: it joins the write queue of the core's
die, or is dropped (spec/16 R317). -/
def State.traceRec (s : State) (n : Nat) (t : Nat) (kind : Nat) (pc data : Word) : State :=
  match s.corePart n with
  | none => s
  | some p =>
    match p.trace with
    | none => s
    | some tr =>
      if !tr.kinds.getLsbD kind then s
      else if !tr.wrap && tr.size ≤ tr.head then s.traceDrop p.id tr true
      else if traceDepth ≤ (s.mem.traces.filter fun x => x.die = dieOf n).length then s.traceDrop p.id tr false
      else
        let record := leBytes 8 (s.core n).regs.sstep.toNat ++ leBytes 4 (s.idThread n t + kind * 2 ^ 28)
          ++ leBytes 4 (s.sinceBarrier n) ++ leBytes 8 pc.toNat ++ leBytes 8 data.toNat
        { s with mem := { s.mem with traces := s.mem.traces ++ [⟨dieOf n, p.id, record⟩] } }

/-- Takes a record out of its queue. -/
def State.untrace (s : State) (x : TraceWrite) : State := { s with mem := { s.mem with traces := s.mem.traces.erase x } }

/-- The record that leaves a queue is placed: its slot, then HEAD, once home can take both and nothing else that the part
writes for the partition waits. One for which no slot is left is dropped (spec/16 R317). The buffer is in device memory
(log 23: DEDUCED). -/
def State.placeTrace (s : State) (x : TraceWrite) : State :=
  match (s.partOf x.part).bind Partition.trace with
  | none => s.untrace x
  | some tr =>
    let slot := tr.buf.toNat + 64 + 32 * (tr.head % tr.size)
    let head := tr.buf.toNat + 8
    let at' := (List.range 32).map (slot + ·) ++ (List.range 8).map (head + ·)
    if !tr.wrap && tr.size ≤ tr.head then (s.untrace x).traceDrop x.part tr true
    else if !s.homeFreeAll at' then s.snoopAll at'
    else if !s.written x.part then s
    else
      ((s.untrace x).onPart x.part fun q => { q with trace := some { tr with head := tr.head + 1 } }).homeWrite
        (bytesAt slot x.bs ++ bytesAt head (leBytes 8 (tr.head + 1)))

/-- Of each queue the oldest record leaves, or not yet: when it does is a free choice (log 48: DESIGN CHOICE). -/
def State.traceOut (s : State) : State :=
  (s.mem.traces.map TraceWrite.die).eraseDups.foldl (fun s d =>
    match s.mem.traces.find? fun x => x.die = d with
    | some x => if s.choice (1000 + d) then s.placeTrace x else s
    | none => s) s

/-- The records of a partition that are still queued are gone with its trace settings (log 48: DESIGN CHOICE). -/
def State.traceCut (s : State) (part : Nat) : State :=
  { s with mem := { s.mem with traces := s.mem.traces.filter fun x => x.part != part } }

end Sys2Proof.Machine
end

