-- ==== Sys2Proof/Machine/Ops.lean ====
section
/-!
DEFINITION. The named operations that meanings are made of: completing an instruction with the loop test, a taken
transfer, waiting, taking a trap and returning from one, sticky flags, tags, local memory, loads and stores of a
thread, asynchronous results and their landing.
-/
set_option linter.constructorNameAsVariable false

namespace Sys2Proof.Machine

/-! ### Flags and waiting -/

/-- `sticky(FLAG)` for every flag of a mask (spec/00 R9, spec/03 R84). -/
def State.sticky (s : State) (f : BitVec 8) : State :=
  s.onCur fun t => { t with sp := { t.sp with fs := t.sp.fs ||| f } }

/-- Ors flags into the FS of any thread, as a result lands (spec/02 R60). -/
def State.stickyAt (s : State) (n : Nat) (t : BitVec 2) (f : BitVec 8) : State :=
  s.onThread n t fun th => { th with sp := { th.sp with fs := th.sp.fs ||| f } }

/-- What became of the instruction. -/
def State.fated (s : State) (f : Fate) : State := { s with ctx := { s.ctx with fate := f } }

/-- The thread waits; its instruction runs again at the thread's next step (spec/00 R9). -/
def State.stall (s : State) (w : Wait) : State :=
  (s.onCur fun t => { t with run := { t.run with wait := some w } }).fated .stalled

/-- The stage that the executing instruction's wait has reached. -/
def State.stage (s : State) : Option Wait := s.cur.run.wait

/-! ### Completing an instruction (spec/04 R113, R119; spec/03 R83, R86) -/

/-- One set's part of the loop test of R119: none when the set does not end here; else the loops after it, and whether
it loops back. -/
def Loops.testSet (l : Loops) (k : Bool) (a : Word) : Option (Loops × Bool) :=
  if k then
    if l.la.getLsbD 1 && a == l.le1 then
      if 1 < l.lc1.toNat then some ({ l with lc1 := l.lc1 - 1 }, true)
      else some ({ l with lc1 := 0, la := l.la &&& 1 }, false)
    else none
  else
    if l.la.getLsbD 0 && a == l.le0 then
      if 1 < l.lc0.toNat then some ({ l with lc0 := l.lc0 - 1 }, true)
      else some ({ l with lc0 := 0, la := l.la &&& 2 }, false)
    else none

/-- The loop test of R119 on an instruction at `a` whose successor is `next`: the loops after it, the next address,
and whether it loops back. -/
def Loops.test (l : Loops) (a next : Word) : Loops × Word × Bool :=
  match l.testSet true a with
  | some (l1, true) => (l1, l.ls1, true)
  | r1 =>
    let l1 := match r1 with | some (x, _) => x | none => l
    match l1.testSet false a with
    | some (l0, true) => (l0, l.ls0, true)
    | some (l0, false) => (l0, next, false)
    | none => (l1, next, false)

/-- The LA bits that a taken transfer to `t` leaves (spec/04 R113). -/
def Loops.leave (l : Loops) (t : Word) : Loops :=
  let keep0 := l.ls0.toNat ≤ t.toNat && t.toNat ≤ l.le0.toNat
  let keep1 := l.ls1.toNat ≤ t.toNat && t.toNat ≤ l.le1.toNat
  { l with la := l.la &&& ((if keep0 then 1 else 0) ||| (if keep1 then 2 else 0)) }

/-- The address after the executing instruction. -/
def State.after (s : State) : Word := s.ctx.p + BitVec.ofNat 64 s.ctx.len

/-- An empty fetch buffer (spec/10 R201). -/
def FetchBuf.none : FetchBuf := ⟨0, []⟩

/-- The thread discards its fetch buffer (spec/10 R201). -/
def Thread.discard (t : Thread) : Thread := { t with run := { t.run with fbuf := FetchBuf.none, install := false } }

/-- The selector passes over the thread once after a yield (spec/03 R83). -/
def State.yielded (s : State) : State :=
  if s.ctx.yield then
    s.onCurCore fun c => { c with skip := c.skip ||| BitVec.ofNat 4 (2 ^ s.ctx.thr.toNat) }
  else s

/-- What completing does to the thread, once its next address is known: the wait is over, the instruction counts as
retired. -/
def Thread.complete (t : Thread) (next : Word) : Thread :=
  { t with
    pc := next
    sp := { t.sp with instret := t.sp.instret + 1, noBkpt := false }
    run := { t.run with wait := none, entered := false } }

/-- The instruction completes without a trap and without a taken transfer: the loop test gives the next address. -/
def State.retireTo (s : State) (next : Word) : State :=
  let r := s.cur.loops.test s.ctx.a next
  let s1 := s.onCur fun t =>
    let t1 := { t with loops := r.1 }.complete r.2.1
    if r.2.2 then { t1.discard with run := { t1.discard.run with install := true } } else t1
  s1.yielded.fated .issued

/-- The instruction completes; its successor follows it in memory. -/
def State.retire (s : State) : State := s.retireTo s.after

/-- A taken transfer to `t` (spec/04 R113). -/
def State.jump (s : State) (t : Word) : State :=
  (s.onCur fun th => ({ th with loops := th.loops.leave t }.complete t).discard).yielded.fated .jumped

/-! ### Gangs (spec/10 R209, R210) -/

/-- A thread's place in a gang. -/
def State.gangSlot (s : State) (n : Nat) (k : Nat) : Option GangSlot := assoc (s.core n).gang k

/-- The cores whose slot `k` follows core `n`, attached or not. -/
def State.followers (s : State) (n k : Nat) : List Nat :=
  (s.cores.filter fun c => c.1 != n && (match assoc c.2.gang k with | some g => g.leader = n | none => false)).map
    Prod.fst

/-- Does slot `k` of core `n` lead a gang? -/
def State.leads (s : State) (n k : Nat) : Bool :=
  match s.gangSlot n k with
  | some g => g.leader = n
  | none => false

/-- The cores whose slot `k` is attached to core `n`. -/
def State.attachedTo (s : State) (n k : Nat) : List Nat :=
  if s.leads n k then
    (s.followers n k).filter fun m => match s.gangSlot m k with | some g => g.attached | none => false
  else []

/-- A follower detaches (spec/10 R210); of a gang that has ended it is no member any more (spec/11 R247). -/
def State.detach (s : State) (n k : Nat) : State :=
  match s.gangSlot n k with
  | some g =>
    if g.leader = n then s
    else
      (s.onCore n fun c =>
        { c with gang := if Config.numCores ≤ g.leader then assocDel c.gang k else assocPut c.gang k { g with attached := false } }).onThread n (tid k)
        fun t => { t with run := { t.run with fwdq := [] } }
  | none => s

/-- An entry reaches the forward queues of followers; a follower whose queue of 8 is full detaches. -/
def State.forward (s : State) (dst0 : List Nat) (k : Nat) (e : Fwd) : State :=
  dst0.foldl (fun s m =>
    if (s.thread m (tid k)).run.fwdq.length < 8 then
      s.onThread m (tid k) fun t => { t with run := { t.run with fwdq := t.run.fwdq ++ [e] } }
    else s.detach m k) s

/-- What a trap or a stop of a thread does to its gang: a follower detaches; a leader's attached followers execute the
instruction themselves. -/
def State.gangBreak (s : State) (n k : Nat) : State := (s.detach n k).forward (s.attachedTo n k) k ⟨[], 0, 0⟩

/-! ### Taking an exception and returning from one (spec/07 R168, R176) -/

/-- TSTAT as R87 lays it out: HREL, PLA, PPL. -/
def tstatOf (hrel : Bool) (la : BitVec 2) (level : Level) : BitVec 4 :=
  BitVec.ofNat 1 (bit1 hrel) ++ la ++ BitVec.ofNat 1 (if level = .s then 1 else 0)

/-- What trap entry writes in the thread (R168). A pending SYNC arrival is withdrawn (spec/16 R298), and a synchronous
access no longer waits. -/
def Thread.enter (t : Thread) (held : Bool) (a : Word) (c : Cause) (v : Word) : Thread :=
  { t with
    pc := t.trap.tvec &&& ~~~1
    level := .s
    loops := { t.loops with la := 0 }
    trap := { t.trap with tpc := a, tcause := c.code, tval := v, tstat := tstatOf held t.loops.la t.level }
    sp := { t.sp with noBkpt := false }
    run :=
      { t.run with
        wait := none, fbuf := FetchBuf.none, install := false, entered := true, arrived := none,
        pend := t.run.pend.filter fun a => !a.sync } }

/-- Trap entry of any thread with cause `c` and value `v`, taken at address `a` (R168): the request of an armed budget
faults first (spec/18 R375), the entry is traced (spec/16 R316). -/
def State.trapAt (s : State) (n : Nat) (t : BitVec 2) (a : Word) (c : Cause) (v : Word) : State :=
  let held := s.holdsAny n t
  let arrived := (s.thread n t).run.arrived.isSome
  let s1 := (s.faultRequest n t a c v).endHolds n t
  let s2 := s1.onThread n t fun th => th.enter held a c v
  let s3 := if arrived then s2.onCore n fun k => { k with sup := { k.sup with arrived := false, maker := none } } else s2
  (s3.gangBreak n t.toNat).traceRec n t.toNat 4 a (c.code.setWidth 64 ||| (v <<< 8))

/-- `trap(CAUSE, value)` by the executing instruction (spec/00 R9): the trap is exact, at the instruction's address. -/
def State.trap (s : State) (c : Cause) (v : Word) : State :=
  (s.trapAt s.ctx.core s.ctx.thr s.ctx.a c v).fated .trapped

/-- The privileged instructions at U level (spec/03 R101). -/
def State.privTrap (s : State) : State := s.trap .priv s.ctx.word

/-- What TRET restores in the thread (R176); after a BREAK it suppresses the match for the instruction it returns to
(spec/16 R314). -/
def Thread.leaveTrap (t : Thread) : Thread :=
  let t1 :=
    { t with
      level := if t.trap.tstat.getLsbD 0 then .s else .u
      loops := { t.loops with la := t.trap.tstat.extractLsb' 1 2 } }
  let t2 := (t1.complete (t.trap.tpc &&& ~~~1)).discard
  { t2 with sp := { t2.sp with noBkpt := t.trap.tcause == Cause.break.code } }

/-- The return from a handler (R176). -/
def State.trapReturn (s : State) : State := ((s.onCur Thread.leaveTrap).yielded).fated .issued

/-! ### Tags (spec/03 R82) -/

/-- The tags of a thread that are pending. -/
def Thread.tags (t : Thread) : BitVec 6 :=
  t.run.tracks.foldl (fun m p => m ||| BitVec.ofNat 6 (2 ^ (p.1 - 1))) 0

/-- The tag of the executing instruction, if its prefix sets one, tracks an operation. -/
def State.track (s : State) (id : Nat) : State :=
  if s.ctx.tag = 0 then s
  else s.onCur fun t => { t with run := { t.run with tracks := t.run.tracks ++ [(s.ctx.tag, id)] } }

/-- The tag tracks each of several operations. -/
def State.trackAll (s : State) (ids : List Nat) : State := ids.foldl (fun s id => s.track id) s

/-! ### Local memory (spec/10 R192, R195, R214, R215) -/

/-- Bytes of a core's local memory. -/
def State.lmem (s : State) (n off len : Nat) : List Byte := cellsRead (s.core n).mem.lmem len off

/-- The first and last 16-byte rows of a range. -/
def rowsOf (off len : Nat) : List Nat :=
  if len = 0 then [] else (List.range ((off + len - 1) / 16 - off / 16 + 1)).map fun k => off / 16 + k

/-- Is a row of the range poisoned? -/
def State.lpoison (s : State) (n off len : Nat) : Bool := (rowsOf off len).any fun r => (s.core n).mem.lpsn.contains r

/-- The undo log keeps a row first written after the checkpoint; a step that fills it ends with a checkpoint
(spec/10 R214, R215). -/
def Core.logRow (c : Core) (r : Nat) : Core :=
  if c.lock.en && !(c.lock.log.any fun e => e.1 = r) then
    { c with lock := { c.lock with log := c.lock.log ++ [(r, cellsRead c.mem.lmem 16 (r * 16), c.mem.lpsn.contains r)] } }
  else c

/-- What a write of local memory does to the core: the bytes, and the poison of the rows. A row written whole loses
its poison, or takes the data's; a narrower write leaves it, unless the data is poisoned (spec/10 R195). -/
def Core.lwrite (c : Core) (off : Nat) (bs : List Byte) (psn : Bool) : Core :=
  let rows := rowsOf off bs.length
  let c := rows.foldl Core.logRow c
  let whole (r : Nat) : Bool := off ≤ r * 16 && r * 16 + 16 ≤ off + bs.length
  let cleared := c.mem.lpsn.filter fun r => !(rows.contains r && whole r && !psn)
  let lpsn := if psn then rows.foldl (fun l r => insertNat r l) cleared else cleared
  { c with mem := { c.mem with lmem := cellsWrite c.mem.lmem off bs, lpsn := lpsn } }

/-- Writes a core's local memory; in a lockstep pair both memories (spec/10 R212). -/
def State.lwrite (s : State) (n off : Nat) (bs : List Byte) (psn : Bool) : State :=
  let s1 := s.onCore n fun c => c.lwrite off bs psn
  if s.lockstep n && !s.shadow n then s1.onCore (n + 1) fun c => c.lwrite off bs psn else s1

/-- Sets the poison bit of a row. -/
def State.poisonRow (s : State) (n row : Nat) : State :=
  s.onCore n fun c => { c with mem := { c.mem with lpsn := insertNat row c.mem.lpsn } }

/-- While no context occupies a core of the partition its local memory holds unspecified values (spec/05 R123,
log 12: DESIGN CHOICE). -/
def State.occupied (s : State) (n : Nat) : Bool := (s.core n).launch.isSome

/-! ### Results (spec/03 R81, R82) -/

/-- Registers from the bytes of a result. -/
def Regs.deliver (r : Regs) (dest : List Dest) (fmt : ResultFmt) (bs : List Byte) : Regs :=
  match fmt with
  | .vec =>
    (List.range dest.length).foldl (fun r k =>
      match (dest[k]? : Option Dest) with
      | some (Dest.v x) => r.writeV x (BitVec.ofNat 128 (leNat ((bs.drop (16 * k)).take 16)))
      | _ => r) r
  | .zx => match dest with
    | d :: _ => r.put d (BitVec.ofNat 64 (leNat bs))
    | [] => r
  | .sx => match dest with
    | d :: _ => r.put d ((BitVec.ofNat (8 * bs.length) (leNat bs)).signExtend 64)
    | [] => r

/-- Writes a result into a thread's registers and ors its flags. -/
def State.deliver (s : State) (n : Nat) (t : BitVec 2) (dest : List Dest) (fmt : ResultFmt) (bs : List Byte) : State :=
  s.onThread n t fun th => { th with regs := th.regs.deliver dest fmt bs }

/-- The destination of a scalar result, fixed as the producer issues. -/
def State.destOf (s : State) (x : Reg) : List Dest := [s.cur.regs.dest x]

/-- The destinations of a group of v registers. -/
def vdests (v : VReg) (k : Nat) : List Dest := (List.range k).map fun i => .v (v + BitVec.ofNat 4 i)

/-- Adds an asynchronous result to the executing thread. -/
def State.addPend (s : State) (a : Async) : State :=
  s.onCur fun t => { t with run := { t.run with pend := t.run.pend ++ [a] } }

/-- Issues an instruction whose result is known and lands later (spec/03 R81). -/
def State.issueValue (s : State) (kind : AKind) (dest : List Dest) (fmt : ResultFmt) (bs : List Byte) (flags : BitVec 8) :
    State :=
  let (id, s) := s.fresh
  ((s.addPend ⟨id, kind, dest, fmt, bs.map .have, flags, false, 0, s.level, false⟩).track id).retire

/-- Issues a scalar result that lands later. -/
def State.issueWord (s : State) (kind : AKind) (rd : Reg) (v : Word) (flags : BitVec 8) : State :=
  s.issueValue kind (s.destOf rd) .zx (leBytes 8 v.toNat) flags

/-- The tag of an instruction whose fixed-latency result is written two or more cycles on stays pending until the
write-back (spec/03 R82, spec/08 R186): its moment is free, but an instruction that reads the value finds the tag clear
(`State.landRead`). -/
def State.tagLate (s : State) : State :=
  if s.ctx.tag = 0 then s
  else
    let (id, s) := s.fresh
    (s.addPend ⟨id, .fixed, [], .zx, [], 0, false, 0, s.level, false⟩).track id

/-- Does a v or scalar result await one of the windowed registers (spec/04 R116)? -/
def Thread.windowedPending (t : Thread) : Bool := t.run.pend.any fun a => a.dest.any Dest.windowed

/-! ### Landing (spec/03 R81, spec/05 R129) -/

/-- Removes a pending result. -/
def State.unpend (s : State) (n : Nat) (t : BitVec 2) (id : Nat) : State :=
  s.onPend n t fun l => l.filter fun a => a.id != id

/-- What a synchronous access that has its bytes waits for next: a WAITW looks at its word. -/
def Wait.answered (w : Option Wait) (bs : List Byte) : Wait :=
  match w with
  | some (.wordAway _ ps b a) => .wordGot ps b a bs
  | _ => .got bs

/-- Can a result land? Its bytes are there; of two SFU results for one register the earlier comes first (spec/06 R165). -/
def Thread.canLand (t : Thread) (a : Async) : Bool :=
  a.ready && (a.kind != .sfu || (t.run.pend.takeWhile fun b => b.id != a.id).all fun b =>
    b.kind != .sfu || b.dest.all fun d => !a.dest.contains d)

/-- A result lands: a synchronous access goes on, or traps at its instruction; an asynchronous one writes its
registers, ors its flags and clears its tag; a poisoned one writes nothing and leaves a POISON pending (spec/05 R129). -/
def State.land (s : State) (n : Nat) (t : BitVec 2) (a : Async) : State :=
  let s1 := s.unpend n t a.id
  if a.sync then
    if a.poison then s1.trapAt n t (s1.thread n t).pc .poison a.addr
    else s1.onThread n t fun th => { th with run := { th.run with wait := some (Wait.answered th.run.wait a.data) } }
  else
    let s2 := s1.untrack n t a.id
    if a.poison then
      s2.onThread n t fun th => { th with run := { th.run with poisons := th.run.poisons ++ [(a.addr, a.level)] } }
    else (s2.deliver n t a.dest a.fmt a.data).stickyAt n t a.flags

/-- Updates the path signature of a thread in record mode or in a replay (spec/16 R319). -/
def State.sign (s : State) (n : Nat) (t : BitVec 2) (v : Word) : State :=
  match s.coreLaunch n with
  | some l =>
    if l.replay.isSome then
      s.onThread n t fun th => { th with sp := { th.sp with sig := th.sp.sig.rotateLeft 1 ^^^ v } }
    else s
  | none => s

/-- The value that a result writes into a scalar register. -/
def resultWord (fmt : ResultFmt) (bs : List Byte) : Word :=
  match fmt with
  | .sx => (BitVec.ofNat (8 * bs.length) (leNat bs)).signExtend 64
  | _ => BitVec.ofNat 64 (leNat bs)

/-- A result of a thread lands; the values of atomics and reductions enter the path signature (spec/16 R319). -/
def State.lands (s : State) (n : Nat) (t : BitVec 2) (a : Async) : State :=
  let s1 := s.land n t a
  if (a.kind == .atomic || a.kind == .redv) && !a.poison && !a.sync then s1.sign n t (resultWord a.fmt a.data) else s1

/-- Between the issue of an instruction and the write of its fixed-latency result two or more cycles on, results on their
way to the same register may land: that result then replaces them (spec/08 R186, spec/03 R81). Which do is free. -/
def State.landUnder (s : State) (n : Nat) (t : BitVec 2) (dest : List Dest) : State :=
  ((s.thread n t).run.pend.filter fun a =>
    !a.sync && (a.kind == .load || a.kind == .atomic || a.kind == .sfu || a.kind == .fdiv) && a.dest.any dest.contains).foldl
    (fun s a => if (s.thread n t).canLand a && s.choice (2 ^ 57 + a.id) then s.lands n t a else s) s

/-! ### Bytes of an access -/

/-- A byte of a peer's local memory, and its poison. -/
def State.peerByte (s : State) (k off : Nat) : Byte × Bool :=
  if s.occupied k then (cellsGet (s.core k).mem.lmem off, s.lpoison k off 1) else (s.freeLocal k off, false)

/-- A byte of a word as home serves it; none while home cannot (log 9: DESIGN CHOICE). -/
def State.wordAtHome (s : State) (pa : Nat) : Option (Byte × Bool) :=
  if s.homeFree (lineOf pa) (wordBit (wordOf pa)) then some (s.homeByte pa) else none

/-- Where a byte of an access comes from, and its poison. -/
def State.source (s : State) (n : Nat) : Place → ByteSrc × Bool
  | .own off => (.have (cellsGet (s.core n).mem.lmem off), s.lpoison n off 1)
  | .peer k off => (.have (s.peerByte k off).1, (s.peerByte k off).2)
  | .glob pa _ => s.l1Byte (s.agentOf n pa) pa
  | .fab pa => (.miss pa, false)
  | .ctl off => (.have (s.ctlByte n off), false)

/-- The global bytes of an access. -/
def globals (ps : List Place) : List (Nat × Bool) :=
  ps.filterMap fun p => match p with | .glob pa c => some (pa, c) | _ => none

/-- The bytes of an access that lie in the fabric window. -/
def fabrics (ps : List Place) : List Nat := ps.filterMap fun p => match p with | .fab pa => some pa | _ => none

/-- Is the whole access in the own local window? -/
def allOwn (ps : List Place) : Bool := ps.all fun p => match p with | .own _ => true | _ => false

/-- The number that stands for a byte of a core's local memory where an access waits at that core's router (spec/16 R313): it
is above every physical address. -/
def routerAddr (k off : Nat) : Nat := 2 ^ 58 + k * 2 ^ 16 + off

/-- The core and the offset that such a number stands for. -/
def routerPlace (pa : Nat) : Option (Nat × Nat) :=
  if pa < 2 ^ 58 then none else some ((pa - 2 ^ 58) / 2 ^ 16, pa % 2 ^ 16)

/-- Does an access of core `n` to core `k` wait at its router: `k` is frozen, or an earlier access of `n` waits there
(spec/16 R313, log 33: DEDUCED)? -/
def State.atRouter (s : State) (n k : Nat) : Bool :=
  s.shut n k || s.fabric.remote.any fun r => r.core = n && r.val.isNone && (routerPlace r.pa).any fun p => p.1 = k

/-- The places of an access, where those that wait at a router stand for what waits there. -/
def State.viaRouter (s : State) (n : Nat) (ps : List Place) : List Place :=
  ps.map fun p => match p with
    | .peer k off => if s.atRouter n k then .fab (routerAddr k off) else p
    | _ => p

/-- Fabric accesses of a core that are not complete (spec/22 R406: 16 credits). -/
def State.credits (s : State) (n : Nat) : Nat :=
  16 - (s.fabric.remote.filter fun r => r.core = n && (routerPlace r.pa).isNone).length

/-- Sends a remote access into the fabric (spec/22 R406, R409). -/
def State.sendRemote (s : State) (n : Nat) (t : BitVec 2) (pa size : Nat) (op : Option AtomicOp)
    (store : Option (List (Byte × Bool))) (async cmd : Option Nat) : State × Nat :=
  let (id, s) := s.fresh
  ({ s with fabric := { s.fabric with
      remote := s.fabric.remote ++ [⟨id, n, t.toNat, pa, size, op, store, async, cmd, none⟩] } }, id)

/-- Runs of consecutive addresses: the first of each, and how many. -/
def runsOf : List Nat → List (Nat × Nat)
  | [] => []
  | pa :: rest =>
    match runsOf rest with
    | (q, k) :: l => if q = pa + 1 then (pa, k + 1) :: l else (pa, 1) :: (q, k) :: l
    | [] => [(pa, 1)]

/-- The bytes of an access in a line of global memory, with their places. -/
def inLine (found : List (Place × ByteSrc)) (num : Nat) : List (Place × ByteSrc) :=
  found.filter fun p => match p.1 with | .glob pa _ => lineOf pa = num | _ => false

/-- Must a load go to home for a line of an access? One of its bytes is in no usable word (spec/15 R279). -/
def fetchesLine (found : List (Place × ByteSrc)) (num : Nat) : Bool :=
  (inLine found num).any fun p => match p.2 with | .miss _ => true | _ => false

/-- Must all that a load reads of a line wait for a reply? Unwritten bytes of a word await one (spec/15 R280), and the load
reads other words beside it. -/
def awaitsLine (found : List (Place × ByteSrc)) (num : Nat) : Bool :=
  let here := inLine found num
  let words := here.filterMap fun p => match p.1 with | .glob pa _ => some (wordOf pa) | _ => none
  (here.any fun p => match p.2 with | .reg _ => true | _ => false) && words.any fun w => words.head? != some w

/-- Where the bytes of an access come from, with their poison. A load that must go to home takes the whole line from there
(spec/15 R279), behind the core's own stores on their way, so that no aligned word is of two moments (spec/05 R142); the
dirty bytes of a software-managed line stay its own. -/
def State.sources (s : State) (n : Nat) (ps : List Place) : List (ByteSrc × Bool) :=
  let found := ps.map (s.source n)
  let pairs := ps.zip (found.map Prod.fst)
  (ps.zip found).map fun p =>
    match p.1 with
    | .glob pa _ =>
      let agent := s.agentOf n pa
      if s.dirtyByte agent pa then p.2
      else if fetchesLine pairs (lineOf pa) then (.miss pa, false)
      else if awaitsLine pairs (lineOf pa) then (.reg pa, false)
      else p.2
    | _ => p.2

/-- Sends the remote reads of window bytes, one for each run, for the result `id`. -/
def State.readRemote (s : State) (n : Nat) (t : BitVec 2) (id : Nat) (pas : List Nat) : State :=
  (runsOf pas).foldl (fun s r => (s.sendRemote n t r.1 r.2 none none (some id) none).1) s

/-- Starts the reads that an access still needs, for the result `id`; answers the bytes as they are now and whether one
is poisoned. -/
def State.gather (s : State) (n : Nat) (t : BitVec 2) (id : Nat) (ps : List Place) : State × List ByteSrc × Bool :=
  let ps := s.viaRouter n ps
  let found := s.sources n ps
  let bytes := found.map Prod.fst
  let s1 := if (globals ps).isEmpty then s
    else s.loadLines n t id (globals ps) (missLines ((ps.zip bytes).filterMap fun p =>
      match p.1 with | .glob _ _ => some p.2 | _ => none))
  (s1.readRemote n t id (fabrics ps), bytes, found.any Prod.snd)

/-- An access fits the core's fabric credits: one for each run in the window (spec/22 R406). -/
def State.roomFor (s : State) (n : Nat) (ps : List Place) : Bool := (runsOf (fabrics ps)).length ≤ s.credits n

/-- Does an earlier load or atomic of the thread await one of the bytes of an access? A later store to it waits, so that
the load never takes its value (spec/05 R141). -/
def Thread.awaitsAny (t : Thread) (ps : List Place) : Bool :=
  t.run.pend.any fun a => a.bytes.any fun b => match b with
    | .miss pa | .reg pa => ps.any fun p => match p with | .glob x _ => x = pa | _ => false
    | _ => false

/-- Acquire, where an ordering asks for it (spec/05 R140). -/
def State.acquireIf (s : State) (b : Bool) : State := if b then s.acquire s.ctx.core else s

/-! ### Loads and stores of a thread (spec/05 R125-R131) -/

/-- An access of the executing thread, checked and translated (spec/05 R122, R124). -/
def State.checkCur (s : State) (acc : Acc) (a : Word) (size : Nat) : State × Checked :=
  s.check s.ctx.core s.level acc a size

/-- The offset in local memory of a byte's place. -/
def Place.off : Place → Nat
  | .own off => off
  | .peer _ off => off
  | .glob pa _ => pa
  | .fab pa => pa
  | .ctl off => off

/-- A load of bytes whose places are known: at once from the own local window, else asynchronous, or synchronous with
`.acq`, where the thread waits for the value.
(log 78: DEDUCED) -/
def State.loadPlaces (s : State) (kind : AKind) (ps : List Place) (a : Word) (dest : List Dest) (fmt : ResultFmt)
    (acq : Bool) : State :=
  let n := s.ctx.core
  let t := s.ctx.thr
  if allOwn ps then
    if ps.any fun p => s.lpoison n p.off 1 then s.trap .poison a
    else
      let bs := ps.map fun p => cellsGet (s.core n).mem.lmem p.off
      let s1 := ((((s.landUnder n t dest).deliver n t dest fmt bs).acquireIf acq).retire)
      if acq then s1 else s1.tagLate
  else if !s.roomFor n ps then s.stall .room
  else
    let (id, s) := s.fresh
    let (s, bytes, psn) := s.gather n t id ps
    let r : Async := ⟨id, kind, dest, fmt, bytes, 0, psn, a, s.level, acq⟩
    if acq && r.ready then
      if psn then s.trap .poison a
      else ((s.deliver n t dest fmt r.data).acquireIf acq).retire
    else if acq then (s.addPend r).stall (.remote id)
    else ((s.addPend r).track id).retire

/-- The load of R125, R130 and R131: `size` bytes at `a`. -/
def State.load (s : State) (a : Word) (size : Nat) (dest : List Dest) (fmt : ResultFmt) (acq : Bool) : State :=
  match s.stage with
  | some (.remote id) => s.stall (.remote id)
  | some (.got bytes) => ((s.deliver s.ctx.core s.ctx.thr dest fmt bytes).acquireIf acq).retire
  | _ =>
    match s.checkCur .read a size with
    | (s, .trap c v) => s.trap c v
    | (s, .wait) => s.stall .translate
    | (s, .ok ps) => s.loadPlaces .load ps a dest fmt acq

/-- Writes bytes at their places: local and peer memory at once, global memory through L1 and home, the fabric window
by a remote store, as what waits at a router. Answers the operations whose end is the store's performance (spec/05 R126).
(log 8: DEDUCED) -/
def State.storePlaces (s : State) (n : Nat) (t : BitVec 2) (ps : List Place) (bs : List Byte) : State × List Nat :=
  let ps := s.viaRouter n ps
  match ps with
  | .own off :: _ => (s.lwrite n off bs false, [])
  | .peer k off :: _ =>
    if s.occupied k || s.choice (2 ^ 56 + k * 0x10000 + off) then (s.lwrite k off bs false, []) else (s, [])
  | _ =>
    let cells := ps.zip bs
    let glob := cells.filterMap fun p => match p.1 with | .glob pa _ => some (pa, p.2) | _ => none
    let fab := cells.filterMap fun p => match p.1 with | .fab pa => some (pa, p.2) | _ => none
    let c (pa : Nat) : Bool := ps.any fun p => match p with | .glob x c => x = pa && c | _ => false
    let (s, ids) := (s.ctlWrite n cells).storeGlobal n t glob c
    (runsOf (fab.map Prod.fst)).foldl (fun acc r =>
      let bytes := (List.range r.2).map fun k => ((fab.find? fun b => b.1 = r.1 + k).map Prod.snd).getD 0
      let (s, id) := acc.1.sendRemote n t r.1 r.2 none (some (bytes.map fun b => (b, false))) none none
      (s, acc.2 ++ [id])) (s, ids)

/-- The store of R125, R130 and R131. -/
def State.store (s : State) (a : Word) (bs : List Byte) (rel : Bool) : State :=
  match s.checkCur .write a bs.length with
  | (s, .trap c v) => s.trap c v
  | (s, .wait) => s.stall .translate
  | (s, .ok ps) =>
    if rel && !s.released s.ctx.core s.ctx.thr then s.stall .release
    else if s.cur.awaitsAny ps then s.stall .ownWord
    else if !s.roomFor s.ctx.core ps then s.stall .room
    else
      let (s, ids) := s.storePlaces s.ctx.core s.ctx.thr ps bs
      (s.trackAll ids).retire

/-! ### What has landed -/

/-- Every load, AMO, CAS and PLD of the thread has landed, PENAL's loads among them (spec/05 R135, spec/18 R372). -/
def Thread.loadsLanded (t : Thread) : Bool := t.run.pend.all fun a => a.kind != .load && a.kind != .atomic && a.kind != .penal

/-! ### What a wait on tags or a fence reports (spec/10 R207, spec/11 R226) -/

/-- The unreported operations of a thread that an instruction covers. -/
def State.covered (s : State) (f : Unreported → Bool) : List Unreported :=
  s.curCore.eng.done.filter fun u => u.thr = s.ctx.thr.toNat && f u

/-- The earliest issued of operations: numbers are given in the order of issue. -/
def firstIssued : List Unreported → Option Unreported
  | [] => none
  | u :: l =>
    match firstIssued l with
    | some v => some (if v.id < u.id then v else u)
    | none => some u

/-- The earliest issued failure among the operations an instruction covers (spec/10 R207): its TVAL, and the state in which
it has been reported. -/
def State.failure (s : State) (f : Unreported → Bool) : Option (Word × State) :=
  (firstIssued ((s.covered f).filter fun u => u.tval.isSome)).bind fun u => u.tval.map fun v =>
    (v, s.onCurCore fun c => { c with eng := { c.eng with
          done := c.eng.done.map fun x => if x.id = u.id then { x with tval := none } else x } })

/-- Merges the flags of the covered operations and drops them. -/
def State.mergeFlags (s : State) (f : Unreported → Bool) : State :=
  let flags := (s.covered f).foldl (fun m u => m ||| u.flags) 0
  (s.onCurCore fun c => { c with eng := { c.eng with
      done := c.eng.done.filter fun u => !(u.thr = s.ctx.thr.toNat && f u) } }).sticky flags

end Sys2Proof.Machine
end

