-- ==== Sys2Proof/Machine/Flags.lean ====
section
/-!
DEFINITION. Rounding modes as instructions name them, and the flags that results raise (spec/02 R53, R57-R61;
spec/06 R144).
-/
set_option linter.constructorNameAsVariable false

namespace Sys2Proof.Machine

/-- The mode a rounding code stands for; codes 5-7 are reserved (spec/02 R57). -/
def modeOf (code : BitVec 3) : Option RMode :=
  match code.toNat with
  | 0 => some .rne
  | 1 => some .rz
  | 2 => some .rdn
  | 3 => some .rup
  | 4 => some .rmm
  | _ => none

/-- The rounding of an instruction: its own mode, or FRM's as it stands at issue; none when FRM holds a reserved
code (spec/06 R144). -/
def State.mode (s : State) (r : Rnd) : Option RMode :=
  match r with
  | .rne => some .rne
  | .rz => some .rz
  | .rdn => some .rdn
  | .rup => some .rup
  | .rmm => some .rmm
  | .frm => modeOf s.cur.sp.frm

/-- Runs `k` under the instruction's rounding; a reserved FRM code traps ILLEGAL and changes nothing (spec/02 R57). -/
def State.rounding (s : State) (r : Rnd) (k : RMode → State) : State :=
  match s.mode r with
  | some rm => k rm
  | none => s.trap .illegal s.ctx.word

/-- The rounding of an instruction that never reads FRM where its conversion is exact, or its lanes are integers
(spec/06 R144). -/
def State.roundingIf (s : State) (needed : Bool) (r : Rnd) (k : RMode → State) : State :=
  if needed then s.rounding r k else k .rne

/-! ### Integers (spec/02 R53) -/

/-- Is the element type's value read as an integer: its value in w bits. -/
def intValue (bits : Nat) (signed : Bool) (x : Nat) : Int :=
  let x := x % 2 ^ bits
  if signed && 2 ^ (bits - 1) ≤ x then (x : Int) - (2 : Int) ^ bits else x

/-- The format of a float element type. -/
def eFmt : EType → FFmt
  | .f16 => fmtF16
  | .bf16 => fmtBF16
  | .f64 => fmtF64
  | _ => fmtF32

/-- One element's a + b (spec/06 R152). -/
def eAdd (t : EType) (sat : Bool) (rm : RMode) (x y : Nat) : Nat × Flags :=
  if t.isInt then narrow t.bits t.signed sat (intValue t.bits t.signed x + intValue t.bits t.signed y)
  else fAdd (eFmt t) rm x y

/-- One element's a - b. -/
def eSub (t : EType) (sat : Bool) (rm : RMode) (x y : Nat) : Nat × Flags :=
  if t.isInt then narrow t.bits t.signed sat (intValue t.bits t.signed x - intValue t.bits t.signed y)
  else fSub (eFmt t) rm x y

/-- One element's a · b. -/
def eMul (t : EType) (sat : Bool) (rm : RMode) (x y : Nat) : Nat × Flags :=
  if t.isInt then narrow t.bits t.signed sat (intValue t.bits t.signed x * intValue t.bits t.signed y)
  else fMul (eFmt t) rm x y

/-- One element's a · b + c, formed exactly and narrowed or rounded once. -/
def eFma (t : EType) (sat : Bool) (rm : RMode) (x y z : Nat) : Nat × Flags :=
  if t.isInt then
    narrow t.bits t.signed sat
      (intValue t.bits t.signed x * intValue t.bits t.signed y + intValue t.bits t.signed z)
  else fFma (eFmt t) rm x y z

/-- One element's lesser or greater (spec/06 R147, R152). -/
def eMinMax (t : EType) (max : Bool) (x y : Nat) : Nat × Flags :=
  if t.isInt then
    let less := decide (intValue t.bits t.signed x < intValue t.bits t.signed y)
    (if less != max then x % 2 ^ t.bits else y % 2 ^ t.bits, 0)
  else fMinMax (eFmt t) max x y

/-- The type of an integer conversion operand (spec/06 R160). -/
def iTypeBits : IType → Nat
  | .i8 | .n8 => 8
  | .i16 | .n16 => 16
  | .i32 | .n32 => 32
  | .i64 | .n64 => 64

/-- Is the integer type signed? -/
def iTypeSigned : IType → Bool
  | .i8 | .i16 | .i32 | .i64 => true
  | _ => false

/-- Does a conversion between float formats round (spec/06 R144)? -/
def floatRounds (src dst : FFmt) : Bool := dst.fb < src.fb || dst.eb < src.eb

/-- Does a conversion from an integer of some width to a float format round (spec/06 R144)? -/
def intRounds (bits : Nat) (signed : Bool) (dst : FFmt) : Bool :=
  dst.fb + 1 < (if signed then bits - 1 else bits) || dst.bias < bits

/-- One element converted between element types (spec/02 R53, R63-R65; spec/06 R161). -/
def eConv (dt st : EType) (sat : Bool) (rm : RMode) (x : Nat) : Nat × Flags :=
  match st.isInt, dt.isInt with
  | true, true => narrow dt.bits dt.signed sat (intValue st.bits st.signed x)
  | true, false => intToFloat (eFmt dt) rm (intValue st.bits st.signed x)
  | false, true => floatToInt (eFmt st) rm dt.bits dt.signed sat x
  | false, false => fConv (eFmt st) (eFmt dt) rm x

/-- Does a conversion between element types read its rounding mode (spec/06 R144)? -/
def eConvRounds (dt st : EType) : Bool :=
  match st.isInt, dt.isInt with
  | true, true => false
  | true, false => intRounds st.bits st.signed (eFmt dt)
  | false, true => true
  | false, false => floatRounds (eFmt st) (eFmt dt)

/-- Maps elements and ors their flags. -/
def mapFlags {α β : Type} (f : α → β × Flags) (l : List α) : List β × Flags :=
  (l.map fun x => (f x).1, l.foldl (fun m x => m ||| (f x).2) 0)

/-- The balanced tree of spec/02 R70: adjacent pairs, level by level; `fuel` bounds the levels. -/
def treeFold (op : Nat → Nat → Nat × Flags) : Nat → List Nat → Nat × Flags
  | _, [] => (0, 0)
  | _, [x] => (x, 0)
  | 0, x :: _ => (x, 0)
  | fuel + 1, l =>
    let rec pairs : List Nat → List Nat × Flags
      | a :: b :: rest =>
        let r := op a b
        let p := pairs rest
        (r.1 :: p.1, r.2 ||| p.2)
      | l => (l, 0)
    let p := pairs l
    let r := treeFold op fuel p.1
    (r.1, p.2 ||| r.2)

end Sys2Proof.Machine
end

