-- ==== Sys2Proof/Machine/Operands.lean ====
section
/-!
DEFINITION. Operand forms: access widths, addresses, lanes and groups of v registers, core sets (spec/03 R77, R78,
R91, R92; spec/05 R125, R130; spec/06 R162; spec/13 R264).
-/
set_option linter.constructorNameAsVariable false

namespace Sys2Proof.Machine

/-! ### Widths -/

/-- Bytes of an access (spec/05 R125). -/
def wsize : Width → Nat
  | .b | .bz => 1
  | .h | .hz => 2
  | .w | .wz => 4
  | .d => 8

/-- How a loaded value is extended: .b .h .w by sign, the others by zeros (spec/05 R125). -/
def wfmt : Width → ResultFmt
  | .b | .h | .w => .sx
  | _ => .zx

/-- The low bytes of a register, as a store writes them. -/
def lowBytes (x : Word) (n : Nat) : List Byte := leBytes n x.toNat

/-! ### Addresses (spec/05 R125, R130) -/

/-- LD and ST: ra + units · size. -/
def State.addrUnits (s : State) (ra : Reg) (disp : BitVec 5) (size : Nat) : Word :=
  s.rd ra + BitVec.ofNat 64 (disp.toNat * size)

/-- LDX and STX: ra + (rb << log2 size). -/
def State.addrIndex (s : State) (ra rb : Reg) (size : Nat) : Word := s.rd ra + s.rd rb * BitVec.ofNat 64 size

/-- The long forms: ra + sext(imm32). -/
def State.addrLong (s : State) (ra : Reg) (disp : BitVec 32) : Word := s.rd ra + disp.signExtend 64

/-- The register o-number of a compact form (spec/03 R94). -/
def oreg (x : BitVec 3) : Reg := 8#5 + x.setWidth 5

/-! ### Lanes (spec/03 R78) -/

/-- Lane `k` of width `w`. -/
def lane (v : VWord) (w k : Nat) : Nat := (v.toNat / 2 ^ (w * k)) % 2 ^ w

/-- Every lane, lane 0 first. -/
def lanes (v : VWord) (w : Nat) : List Nat := (List.range (128 / w)).map fun k => lane v w k

/-- Lanes of width `w` joined, lane 0 first. -/
def joinLanes (w : Nat) : List Nat → Nat
  | [] => 0
  | x :: xs => x % 2 ^ w + 2 ^ w * joinLanes w xs

/-- A v register from its lanes. -/
def ofLanes (w : Nat) (l : List Nat) : VWord := BitVec.ofNat 128 (joinLanes w l)

/-- A v register with one lane replaced. -/
def setLane (v : VWord) (w k x : Nat) : VWord := ofLanes w ((lanes v w).set k x)

/-- A lane-wise operation of two registers and its flags. -/
def lanes2 (w : Nat) (f : Nat → Nat → Nat × Flags) (a b : VWord) : VWord × Flags :=
  let r := mapFlags (fun p => f p.1 p.2) ((lanes a w).zip (lanes b w))
  (ofLanes w r.1, r.2)

/-- A lane-wise operation of three registers and its flags. -/
def lanes3 (w : Nat) (f : Nat → Nat → Nat → Nat × Flags) (a b c : VWord) : VWord × Flags :=
  let r := mapFlags (fun p => f p.1 p.2.1 p.2.2) ((lanes a w).zip ((lanes b w).zip (lanes c w)))
  (ofLanes w r.1, r.2)

/-- A lane-wise operation of one register and its flags. -/
def lanes1 (w : Nat) (f : Nat → Nat × Flags) (a : VWord) : VWord × Flags :=
  let r := mapFlags f (lanes a w)
  (ofLanes w r.1, r.2)

/-- The 16 bytes of a v register, as memory holds them. -/
def vbytes (v : VWord) : List Byte := leBytes 16 v.toNat

/-- The bytes of a group of `k` v registers (spec/06 R162). -/
def State.groupBytes (s : State) (v : VReg) (k : Nat) : List Byte :=
  (List.range k).flatMap fun i => vbytes (s.rv (v + BitVec.ofNat 4 i))

/-- Writes a group of `k` v registers from bytes. -/
def State.writeGroup (s : State) (v : VReg) (k : Nat) (bs : List Byte) : State :=
  (List.range k).foldl (fun s i =>
    s.wv (v + BitVec.ofNat 4 i) (BitVec.ofNat 128 (leNat ((bs.drop (16 * i)).take 16)))) s

/-! ### Finishing a result -/

/-- Writes a scalar result with its flags, and completes. -/
def State.done (s : State) (rd : Reg) (r : Word × Flags) : State := ((s.wr rd r.1).sticky r.2).retire

/-- Writes a scalar result that is delivered two or more cycles after issue: what is on its way to the register may land
before it (spec/08 R186). -/
def State.doneLate (s : State) (rd : Reg) (r : Word × Flags) : State :=
  ((s.landUnder s.ctx.core s.ctx.thr (s.destOf rd)).done rd r).tagLate

/-- Writes a v result with its flags, and completes; every one is delivered two or more cycles after issue (spec/06 R152). -/
def State.doneV (s : State) (vd : VReg) (r : VWord × Flags) : State :=
  ((((s.landUnder s.ctx.core s.ctx.thr (vdests vd 1)).wv vd r.1).sticky r.2).retire).tagLate

/-- Writes a group of four v registers with its flags, and completes. -/
def State.doneGroup (s : State) (vd : VReg) (bs : List Byte) (f : Flags) : State :=
  ((((s.landUnder s.ctx.core s.ctx.thr (vdests vd 4)).writeGroup vd 4 bs).sticky f).retire).tagLate

/-- A float value of a format as it stands in a scalar register (spec/03 R77). -/
def State.rf (s : State) (f : FFmt) (x : Reg) : Nat := (s.rd x).toNat % 2 ^ f.width

/-- A float result as a scalar register holds it: zeros above it. -/
def floatWord (r : Nat × Flags) : Word × Flags := (BitVec.ofNat 64 r.1, r.2)

/-! ### Core sets (spec/01 R25, spec/13 R264) -/

/-- The cores that a core-set value names, less the issuing core; none when the value is not valid for the
partition. -/
def State.coreSet (s : State) (n : Nat) (v : Word) : Option (List Nat) :=
  let cl := (v.extractLsb' 32 16).toNat
  if v.extractLsb' 48 16 != 0 || 3199 < cl || !s.inPart n (cl * 32) then none
  else some (((List.range 32).filter fun k => v.getLsbD k).map (fun k => cl * 32 + k) |>.filter (· != n))

end Sys2Proof.Machine
end

