-- ==== Sys2Proof/Machine/Integer.lean ====
section
/-!
DEFINITION. The integer and address instructions (spec/04 R102-R112) and the compact forms that equal one of them
(spec/03 R94).
-/
set_option linter.constructorNameAsVariable false

namespace Sys2Proof.Machine

/-- The outcome of a meaning: every meaning here gives a next state. -/
abbrev Res := Host.Outcome State Fault Refusal

/-! ### The effect pattern of R102 -/

/-- The width that `.w` selects. -/
def opWidth (w : Bool) : Nat := if w then 32 else 64

/-- A result of the width, sign-extended to 64 bits. -/
def signed64 (w : Bool) (x : Nat) : Word :=
  if w then (BitVec.ofNat 32 x).signExtend 64 else BitVec.ofNat 64 x

/-- An exact integer result, clamped with `.sat`, wrapped, sign-extended (R102). -/
def aluResult (w sat : Bool) (x : Int) : Word × Flags :=
  let r := narrow (opWidth w) true sat x
  (signed64 w r.1, r.2)

/-- R102 on two operands read as the table says. -/
def alu (signed w sat : Bool) (f : Int → Int → Int) (a b : Word) : Word × Flags :=
  aluResult w sat (f (intValue (opWidth w) signed a.toNat) (intValue (opWidth w) signed b.toNat))

/-- R102's pattern as a state change. -/
def State.alu (s : State) (signed w sat : Bool) (f : Int → Int → Int) (rd ra rb : Reg) : State :=
  s.done rd (Machine.alu signed w sat f (s.rd ra) (s.rd rb))

/-- The same for the multiplies and divisions, which take more than a cycle (R102, R103). -/
def State.aluLate (s : State) (signed w sat : Bool) (f : Int → Int → Int) (rd ra rb : Reg) : State :=
  s.doneLate rd (Machine.alu signed w sat f (s.rd ra) (s.rd rb))

/-- ADD (spec/04 R102): Adds two registers, with optional 32-bit width and saturation. -/
def execAdd (rd ra rb : Reg) (w sat : Bool) (s : State) : Res := .next (s.alu true w sat (· + ·) rd ra rb)

/-- SUB (spec/04 R102): Subtracts rb from ra, with optional 32-bit width and saturation. -/
def execSub (rd ra rb : Reg) (w sat : Bool) (s : State) : Res := .next (s.alu true w sat (· - ·) rd ra rb)

/-- MUL (spec/04 R102): Multiplies two signed registers, with optional width and saturation. -/
def execMul (rd ra rb : Reg) (w sat : Bool) (s : State) : Res := .next (s.aluLate true w sat (· * ·) rd ra rb)

/-- MULH (spec/04 R102): Returns the high half of a signed product. -/
def execMulh (rd ra rb : Reg) (w sat : Bool) (s : State) : Res :=
  .next (s.aluLate true w sat (fun a b => a * b / (2 : Int) ^ opWidth w) rd ra rb)

/-- MULHU (spec/04 R102): Returns the high half of an unsigned product. -/
def execMulhu (rd ra rb : Reg) (w sat : Bool) (s : State) : Res :=
  .next (s.aluLate false w sat (fun a b => a * b / (2 : Int) ^ opWidth w) rd ra rb)

/-- DIV's quotient, and the cases of R103: a zero divisor gives -1, or with `.sat` the bound on the dividend's side. -/
def divResult (w sat : Bool) (a b : Int) : Word × Flags :=
  if b = 0 then
    (if sat then
      (signed64 w (narrow (opWidth w) true false (if 0 ≤ a then intMax (opWidth w) true else intMin (opWidth w) true)).1,
        flagSAT)
    else aluResult w false (-1))
  else aluResult w sat (a.tdiv b)

/-- DIV (spec/04 R103): Signed division truncated toward zero, with fixed results for a zero divisor or overflow. -/
def execDiv (rd ra rb : Reg) (w sat : Bool) (s : State) : Res :=
  .next (s.doneLate rd (divResult w sat (intValue (opWidth w) true (s.rd ra).toNat)
    (intValue (opWidth w) true (s.rd rb).toNat)))

/-- DIVU (spec/04 R103): Unsigned division, with fixed results for a zero divisor. -/
def execDivu (rd ra rb : Reg) (w sat : Bool) (s : State) : Res :=
  .next (s.aluLate false w sat (fun a b => if b = 0 then (2 : Int) ^ opWidth w - 1 else a / b) rd ra rb)

/-- REM (spec/04 R103): Signed remainder. -/
def execRem (rd ra rb : Reg) (w sat : Bool) (s : State) : Res :=
  .next (s.aluLate true w sat (fun a b => if b = 0 then a else a.tmod b) rd ra rb)

/-- REMU (spec/04 R103): Unsigned remainder. -/
def execRemu (rd ra rb : Reg) (w sat : Bool) (s : State) : Res :=
  .next (s.aluLate false w sat (fun a b => if b = 0 then a else a % b) rd ra rb)

/-- The logical operations of R102; they take no modifier. -/
def State.logic (s : State) (f : Word → Word → Word) (rd ra rb : Reg) : State := s.done rd (f (s.rd ra) (s.rd rb), 0)

/-- AND (spec/04 R102): Bitwise AND of two registers. -/
def execAnd (rd ra rb : Reg) (_w _sat : Bool) (s : State) : Res := .next (s.logic (· &&& ·) rd ra rb)

/-- OR (spec/04 R102): Bitwise OR of two registers. -/
def execOr (rd ra rb : Reg) (_w _sat : Bool) (s : State) : Res := .next (s.logic (· ||| ·) rd ra rb)

/-- XOR (spec/04 R102): Bitwise XOR of two registers. -/
def execXor (rd ra rb : Reg) (_w _sat : Bool) (s : State) : Res := .next (s.logic (· ^^^ ·) rd ra rb)

/-- ANDN (spec/04 R102): ANDs ra with the complement of rb. -/
def execAndn (rd ra rb : Reg) (_w _sat : Bool) (s : State) : Res := .next (s.logic (fun a b => a &&& ~~~b) rd ra rb)

/-- MIN (spec/04 R102): Signed minimum of two registers. -/
def execMin (rd ra rb : Reg) (w sat : Bool) (s : State) : Res :=
  .next (s.alu true w sat (fun a b => if a ≤ b then a else b) rd ra rb)

/-- MAX (spec/04 R102): Signed maximum of two registers. -/
def execMax (rd ra rb : Reg) (w sat : Bool) (s : State) : Res :=
  .next (s.alu true w sat (fun a b => if a ≤ b then b else a) rd ra rb)

/-- MINU (spec/04 R102): Unsigned minimum of two registers. -/
def execMinu (rd ra rb : Reg) (w sat : Bool) (s : State) : Res :=
  .next (s.alu false w sat (fun a b => if a ≤ b then a else b) rd ra rb)

/-- MAXU (spec/04 R102): Unsigned maximum of two registers. -/
def execMaxu (rd ra rb : Reg) (w sat : Bool) (s : State) : Res :=
  .next (s.alu false w sat (fun a b => if a ≤ b then b else a) rd ra rb)

/-! ### Shifts (R104) -/

/-- The shift operations. -/
inductive Shift where
  | left | right | arith
  deriving DecidableEq, Repr

/-- A shift by a count below the width, sign-extended with `.w` (R104). -/
def shiftResult (k : Shift) (w : Bool) (a : Word) (count : Nat) : Word :=
  if w then
    let x : BitVec 32 := a.setWidth 32
    (match k with
      | .left => x <<< count
      | .right => x >>> count
      | .arith => x.sshiftRight count).signExtend 64
  else match k with
    | .left => a <<< count
    | .right => a >>> count
    | .arith => a.sshiftRight count

/-- The count that rb gives: its low 6 bits, or 5 with `.w`. -/
def shiftCount (w : Bool) (b : Word) : Nat := b.toNat % opWidth w

/-- R104 as a state change. -/
def State.shift (s : State) (k : Shift) (w : Bool) (rd ra rb : Reg) : State :=
  s.done rd (shiftResult k w (s.rd ra) (shiftCount w (s.rd rb)), 0)

/-- SLL (spec/04 R104): Shifts left logically by a register count. -/
def execSll (rd ra rb : Reg) (w : Bool) (s : State) : Res := .next (s.shift .left w rd ra rb)

/-- SRL (spec/04 R104): Shifts right logically by a register count. -/
def execSrl (rd ra rb : Reg) (w : Bool) (s : State) : Res := .next (s.shift .right w rd ra rb)

/-- SRA (spec/04 R104): Shifts right arithmetically by a register count. -/
def execSra (rd ra rb : Reg) (w : Bool) (s : State) : Res := .next (s.shift .arith w rd ra rb)

/-! ### Comparison and selection (R105, R106) -/

/-- The ten condition bits of R105. -/
def cmpMask (w : Bool) (a b : Word) : Word :=
  let sa := intValue (opWidth w) true a.toNat
  let sb := intValue (opWidth w) true b.toNat
  let ua := intValue (opWidth w) false a.toNat
  let ub := intValue (opWidth w) false b.toNat
  let bits : List Bool :=
    [sa = sb, sa != sb, sa < sb, sb ≤ sa, ua < ub, ub ≤ ua, sb < sa, sa ≤ sb, ub < ua, ua ≤ ub]
  BitVec.ofNat 64 (bits.foldr (fun b n => bit1 b + 2 * n) 0)

/-- CMP (spec/04 R105): Compares two registers and writes a ten-bit condition mask. -/
def execCmp (rd ra rb : Reg) (w : Bool) (s : State) : Res := .next (s.done rd (cmpMask w (s.rd ra) (s.rd rb), 0))

/-- SEL (spec/04 R106): Selects ra or rb according to whether rc is non-zero. -/
def execSel (rd ra rb rc : Reg) (s : State) : Res :=
  .next (s.done rd (if s.rd rc != 0 then s.rd ra else s.rd rb, 0))

/-! ### Bits and bytes (R107) -/

/-- The bits of a value of `w` bits, most significant first. -/
def bitsDown (x : Nat) : Nat → List Bool
  | 0 => []
  | w + 1 => x.testBit w :: bitsDown x w

/-- Leading false values of a list. -/
def leadingClear (l : List Bool) : Nat := (l.takeWhile fun b => !b).length

/-- A list of bits as a number, first bit least significant. -/
def bitsValue (l : List Bool) : Nat := l.foldr (fun b n => bit1 b + 2 * n) 0

/-- R107's pattern: a function of the w bits of ra, sign-extended from bit 31 with `.w`. -/
def State.bitsOp (s : State) (w : Bool) (f : Nat → Nat → Nat) (rd ra : Reg) : State :=
  s.done rd (signed64 w (f (opWidth w) ((s.rd ra).toNat % 2 ^ opWidth w)), 0)

/-- CLZ (spec/04 R107): Counts leading zero bits. -/
def execClz (rd ra : Reg) (w : Bool) (s : State) : Res :=
  .next (s.bitsOp w (fun k x => leadingClear (bitsDown x k)) rd ra)

/-- CTZ (spec/04 R107): Counts trailing zero bits. -/
def execCtz (rd ra : Reg) (w : Bool) (s : State) : Res :=
  .next (s.bitsOp w (fun k x => leadingClear (bitsDown x k).reverse) rd ra)

/-- POPC (spec/04 R107): Counts one bits. -/
def execPopc (rd ra : Reg) (w : Bool) (s : State) : Res :=
  .next (s.bitsOp w (fun k x => ((bitsDown x k).filter id).length) rd ra)

/-- BREV (spec/04 R107): Reverses the bit order. -/
def execBrev (rd ra : Reg) (w : Bool) (s : State) : Res :=
  .next (s.bitsOp w (fun k x => bitsValue (bitsDown x k)) rd ra)

/-- BSWAP (spec/04 R107): Reverses the byte order. -/
def execBswap (rd ra : Reg) (w : Bool) (s : State) : Res :=
  .next (s.bitsOp w (fun k x => leNat (leBytes (k / 8) x).reverse) rd ra)

/-! ### Bit fields (R108) -/

/-- The position and the length, cut at bit 63, of a control word. -/
def fieldOf (c : Word) : Nat × Nat :=
  let pos := c.toNat % 64
  (pos, min (min (c.toNat / 2 ^ 8 % 2 ^ 7) 64) (64 - pos))

/-- BFX's result. -/
def bfxResult (signed : Bool) (a c : Word) : Word :=
  let (pos, len) := fieldOf c
  if len = 0 then 0
  else
    let x := a.toNat / 2 ^ pos % 2 ^ len
    BitVec.ofInt 64 (intValue len signed x)

/-- BFI's result. -/
def bfiResult (d a c : Word) : Word :=
  let (pos, len) := fieldOf c
  let mask : Word := BitVec.ofNat 64 ((2 ^ len - 1) * 2 ^ pos)
  (d &&& ~~~mask) ||| ((a <<< pos) &&& mask)

/-- BFX (spec/04 R108): Extracts a bit field, zero- or sign-extended. -/
def execBfx (rd ra rb : Reg) (signed : Bool) (s : State) : Res :=
  .next (s.done rd (bfxResult signed (s.rd ra) (s.rd rb), 0))

/-- BFI (spec/04 R108): Inserts a bit field into rd. -/
def execBfi (rd ra rb : Reg) (s : State) : Res :=
  .next (s.done rd (bfiResult (s.rd rd) (s.rd ra) (s.rd rb), 0))

/-! ### Immediates and addresses (R109-R112) -/

/-- The immediate c of R109. -/
def imm64 (imm : BitVec 10) : Word := imm.signExtend 64

/-- ADDI (spec/04 R109): Adds a sign-extended immediate. -/
def execAddi (rd ra : Reg) (imm : BitVec 10) (s : State) : Res := .next (s.done rd (s.rd ra + imm64 imm, 0))

/-- ANDI (spec/04 R109): ANDs with a sign-extended immediate. -/
def execAndi (rd ra : Reg) (imm : BitVec 10) (s : State) : Res := .next (s.done rd (s.rd ra &&& imm64 imm, 0))

/-- ORI (spec/04 R109): ORs with a sign-extended immediate. -/
def execOri (rd ra : Reg) (imm : BitVec 10) (s : State) : Res := .next (s.done rd (s.rd ra ||| imm64 imm, 0))

/-- XORI (spec/04 R109): XORs with a sign-extended immediate. -/
def execXori (rd ra : Reg) (imm : BitVec 10) (s : State) : Res := .next (s.done rd (s.rd ra ^^^ imm64 imm, 0))

/-- SLLI (spec/04 R109): Shifts left logically by an immediate count. -/
def execSlli (rd ra : Reg) (imm : BitVec 10) (s : State) : Res :=
  .next (s.done rd (shiftResult .left false (s.rd ra) imm.toNat, 0))

/-- SRLI (spec/04 R109): Shifts right logically by an immediate count. -/
def execSrli (rd ra : Reg) (imm : BitVec 10) (s : State) : Res :=
  .next (s.done rd (shiftResult .right false (s.rd ra) imm.toNat, 0))

/-- SRAI (spec/04 R109): Shifts right arithmetically by an immediate count. -/
def execSrai (rd ra : Reg) (imm : BitVec 10) (s : State) : Res :=
  .next (s.done rd (shiftResult .arith false (s.rd ra) imm.toNat, 0))

/-- CMPI (spec/04 R109): Compares a register with an immediate and writes a condition mask. -/
def execCmpi (rd ra : Reg) (imm : BitVec 10) (s : State) : Res :=
  .next (s.done rd (cmpMask false (s.rd ra) (imm64 imm), 0))

/-- LI (spec/04 R110): Loads a sign-extended 32-bit immediate. -/
def execLi (rd : Reg) (imm : BitVec 32) (s : State) : Res := .next (s.done rd (imm.signExtend 64, 0))

/-- LIH (spec/04 R110): Loads a 32-bit immediate into the upper half of a register. -/
def execLih (rd : Reg) (imm : BitVec 32) (s : State) : Res :=
  .next (s.done rd (imm ++ (s.rd rd).setWidth 32, 0))

/-- LEA (spec/04 R111): Forms a scaled address without translating it. -/
def execLea (rd ra rb : Reg) (sh : BitVec 2) (s : State) : Res :=
  .next (s.done rd (s.rd ra + s.rd rb <<< sh.toNat, 0))

/-- PCREL (spec/04 R112): Forms an address relative to the instruction. -/
def execPcrel (rd : Reg) (imm : BitVec 32) (s : State) : Res :=
  .next (s.done rd (s.ctx.p + imm.signExtend 64, 0))

/-! ### Compact forms (spec/03 R94) -/

/-- C_MOV (spec/03 R94): Compact register move. -/
def execCMov (rd ra : Reg) (s : State) : Res := .next (s.logic (· ||| ·) rd ra 0)

/-- C_ADDI (spec/03 R94): Compact add of a 5-bit immediate. -/
def execCAddi (rd : Reg) (imm : BitVec 5) (s : State) : Res := .next (s.done rd (s.rd rd + imm.signExtend 64, 0))

/-- C_LI (spec/03 R94): Compact load of a 5-bit immediate. -/
def execCLi (rd : Reg) (imm : BitVec 5) (s : State) : Res := .next (s.done rd (s.rd 0 + imm.signExtend 64, 0))

/-- C_SLLI (spec/03 R94): Compact shift left by an immediate. -/
def execCSlli (rd : Reg) (sh : BitVec 5) (s : State) : Res :=
  .next (s.done rd (shiftResult .left false (s.rd rd) sh.toNat, 0))

/-- C_SRAI (spec/03 R94): Compact arithmetic shift right by an immediate. -/
def execCSrai (rd : Reg) (sh : BitVec 5) (s : State) : Res :=
  .next (s.done rd (shiftResult .arith false (s.rd rd) sh.toNat, 0))

/-- C_NOP (spec/03 R94): Compact no-operation. -/
def execCNop (s : State) : Res := .next s.retire

end Sys2Proof.Machine
end

