-- ==== Sys2Proof/Machine/Memory.lean ====
section
/-!
DEFINITION. The memory instructions of a thread (spec/05 R125-R139) and C.LDW, C.STW (spec/03 R94).
-/
set_option linter.constructorNameAsVariable false

namespace Sys2Proof.Machine

/-! ### Scalar loads and stores (R125) -/

/-- LD (spec/05 R125): Loads a scalar with a small scaled displacement. -/
def execLd (rd ra : Reg) (disp : BitVec 5) (wd : Width) (acq : Bool) (s : State) : Res :=
  .next (s.load (s.addrUnits ra disp (wsize wd)) (wsize wd) (s.destOf rd) (wfmt wd) acq)

/-- ST (spec/05 R125): Stores a scalar with a small scaled displacement. -/
def execSt (rd ra : Reg) (disp : BitVec 5) (wd : Width) (rel : Bool) (s : State) : Res :=
  .next (s.store (s.addrUnits ra disp (wsize wd)) (lowBytes (s.rd rd) (wsize wd)) rel)

/-- LDX (spec/05 R125): Loads a scalar at a base plus a scaled index register. -/
def execLdx (rd ra rb : Reg) (wd : Width) (acq : Bool) (s : State) : Res :=
  .next (s.load (s.addrIndex ra rb (wsize wd)) (wsize wd) (s.destOf rd) (wfmt wd) acq)

/-- STX (spec/05 R125): Stores a scalar at a base plus a scaled index register. -/
def execStx (rd ra rb : Reg) (wd : Width) (rel : Bool) (s : State) : Res :=
  .next (s.store (s.addrIndex ra rb (wsize wd)) (lowBytes (s.rd rd) (wsize wd)) rel)

/-- LDL (spec/05 R125): Loads a scalar with a 32-bit displacement. -/
def execLdl (rd ra : Reg) (disp : BitVec 32) (wd : Width) (acq : Bool) (s : State) : Res :=
  .next (s.load (s.addrLong ra disp) (wsize wd) (s.destOf rd) (wfmt wd) acq)

/-- STL (spec/05 R125): Stores a scalar with a 32-bit displacement. -/
def execStl (rd ra : Reg) (disp : BitVec 32) (wd : Width) (rel : Bool) (s : State) : Res :=
  .next (s.store (s.addrLong ra disp) (lowBytes (s.rd rd) (wsize wd)) rel)

/-- C_LDW (spec/03 R94): Compact word load. -/
def execCLdw (rd ra : BitVec 3) (idx : BitVec 4) (s : State) : Res :=
  .next (s.load (s.addrUnits (oreg ra) (idx.setWidth 5) 4) 4 (s.destOf (oreg rd)) .sx false)

/-- C_STW (spec/03 R94): Compact word store. -/
def execCStw (rd ra : BitVec 3) (idx : BitVec 4) (s : State) : Res :=
  .next (s.store (s.addrUnits (oreg ra) (idx.setWidth 5) 4) (lowBytes (s.rd (oreg rd)) 4) false)

/-! ### Vector and group transfers (R130-R132) -/

/-- Registers of VLD and VST: one, or a pair. -/
def pairCount (pair : Bool) : Nat := if pair then 2 else 1

/-- VLD (spec/05 R130): Loads one v register or a pair. -/
def execVld (vd : VReg) (ra : Reg) (disp : BitVec 32) (pair acq : Bool) (s : State) : Res :=
  .next (s.load (s.addrLong ra disp) (16 * pairCount pair) (vdests vd (pairCount pair)) .vec acq)

/-- VST (spec/05 R130): Stores one v register or a pair. -/
def execVst (vd : VReg) (ra : Reg) (disp : BitVec 32) (pair rel : Bool) (s : State) : Res :=
  .next (s.store (s.addrLong ra disp) (s.groupBytes vd (pairCount pair)) rel)

/-- LDM (spec/05 R131): Loads four consecutive v registers. -/
def execLdm (vd : VReg) (ra : Reg) (disp : BitVec 32) (acq : Bool) (s : State) : Res :=
  .next (s.load (s.addrLong ra disp) 64 (vdests vd 4) .vec acq)

/-- STM (spec/05 R131): Stores four consecutive v registers. -/
def execStm (vd : VReg) (ra : Reg) (disp : BitVec 32) (rel : Bool) (s : State) : Res :=
  .next (s.store (s.addrLong ra disp) (s.groupBytes vd 4) rel)

/-- MOVM (spec/05 R132): Copies a group of four v registers to another group. -/
def execMovm (vd va : VReg) (s : State) : Res := .next (s.doneGroup vd (s.groupBytes va 4) 0)

/-! ### Atomics (R133, R134) -/

/-- The combined word of AMO. -/
def amoResult (op : AmoOp) (size old b : Nat) : Nat :=
  match op with
  | .add => (old + b) % 2 ^ (8 * size)
  | .swap => b % 2 ^ (8 * size)
  | .and => old &&& (b % 2 ^ (8 * size))
  | .or => old ||| (b % 2 ^ (8 * size))

/-- What an atomic writes over an old word; none when it writes nothing (a failed CAS). -/
def atomicWrite (op : AtomicOp) (size old : Nat) : Option Nat :=
  match op with
  | .amo o b => some (amoResult o size old b.toNat)
  | .cas e n => if old = e.toNat % 2 ^ (8 * size) then some (n.toNat % 2 ^ (8 * size)) else none

/-- An atomic on local memory, indivisibly (R133): a poisoned word is left as it is. Answers the old bytes and their
poison. -/
def State.atomicLocal (s : State) (n off size : Nat) (op : AtomicOp) : State × List Byte × Bool :=
  let old := s.lmem n off size
  if s.lpoison n off size then (s, old, true)
  else
    match atomicWrite op size (leNat old) with
    | some v => (s.lwrite n off (leBytes size v) false, old, false)
    | none => (s, old, false)

/-- An atomic on a peer's local memory (R133): while no context occupies the core its old value is unspecified, and whether
the new one stays is free (R123, log 12: DESIGN CHOICE). -/
def State.atomicPeer (s : State) (k off size : Nat) (op : AtomicOp) : State × List Byte × Bool :=
  if s.occupied k then s.atomicLocal k off size op
  else
    let old := (List.range size).map fun i => s.freeLocal k (off + i)
    match atomicWrite op size (leNat old) with
    | some v =>
      (if s.choice (2 ^ 56 + k * 0x10000 + off) then s.lwrite k off (leBytes size v) false else s, old, false)
    | none => (s, old, false)

/-- Does a registration of the thread's own store to one of the words of an access await completion (spec/15 R287)? -/
def State.ownStorePending (s : State) (n : Nat) (t : BitVec 2) (pa size : Nat) : Bool :=
  (s.outRegs (s.agentOf n pa)).any fun r =>
    r.src = n && r.thr = t.toNat && r.bytes.any fun b => pa ≤ b.1 && b.1 < pa + size

/-- The register value of an atomic's old bytes. -/
def atomicFmt (dbl : Bool) : ResultFmt := if dbl then .zx else .sx

/-- An atomic whose old bytes are known at issue: at once when synchronous, else the value lands later. -/
def State.atomicKnown (s : State) (a : Word) (rd : Reg) (dbl : Bool) (old : List Byte) (psn acq : Bool) : State :=
  if acq then
    if psn then s.trap .poison a
    else
      (((s.deliver s.ctx.core s.ctx.thr (s.destOf rd) (atomicFmt dbl) old).sign s.ctx.core s.ctx.thr
        (resultWord (atomicFmt dbl) old)).acquire s.ctx.core).retire
  else
    let (id, s) := s.fresh
    ((s.addPend ⟨id, .atomic, s.destOf rd, atomicFmt dbl, old.map .have, 0, psn, a, s.level, false⟩).track
      id).retire

/-- AMO and CAS (R133, R134). -/
def State.atomic (s : State) (rd ra : Reg) (dbl : Bool) (ord : AmoOrd) (op : AtomicOp) : State :=
  let size := if dbl then 8 else 4
  let acq := ord == .acq || ord == .ar
  let rel := ord == .rel || ord == .ar
  let a := s.rd ra
  let n := s.ctx.core
  let t := s.ctx.thr
  match s.stage with
  | some (.remote id) => s.stall (.remote id)
  | some (.got old) => s.atomicKnown a rd dbl old false acq
  | _ =>
    if a.toNat % size != 0 then s.trap .misalign a
    else
      match s.checkCur .write a size with
      | (s, .trap c v) => s.trap c v
      | (s, .wait) => s.stall .translate
      | (s, .ok ps) =>
        if rel && !s.released n t then s.stall .release
        else if !s.roomFor n ps then s.stall .room
        else
          match s.viaRouter n ps with
          | .own off :: _ =>
            let (s, old, psn) := s.atomicLocal n off size op
            s.atomicKnown a rd dbl old psn acq
          | .peer k off :: _ =>
            let (s, old, psn) := s.atomicPeer k off size op
            s.atomicKnown a rd dbl old psn acq
          | .glob pa _ :: _ =>
            if s.ownStorePending n t pa size then s.stall .ownWord
            else
              let (id, s) := s.fresh
              let bytes := (List.range size).map fun k => ByteSrc.miss (pa + k)
              let r : Async := ⟨id, .atomic, s.destOf rd, atomicFmt dbl, bytes, 0, false, a, s.level, acq⟩
              let agent := s.agentOf n pa
              let s := s.useLine agent (lineOf pa)
              let (s, _) := s.register agent n t (lineOf pa) [] 0 (.atomic id pa size op)
              let s := s.addPend r
              if acq then s.stall (.remote id) else (s.track id).retire
          | .fab pa :: _ =>
            let (id, s) := s.fresh
            let bytes := (List.range size).map fun k => ByteSrc.miss (pa + k)
            let r : Async := ⟨id, .atomic, s.destOf rd, atomicFmt dbl, bytes, 0, false, a, s.level, acq⟩
            let (s, _) := s.sendRemote n t pa size (some op) none (some id) none
            let s := s.addPend r
            if acq then s.stall (.remote id) else (s.track id).retire
          | .ctl off :: _ =>
            let old := (List.range size).map fun k => s.ctlByte n (off + k)
            let s1 := match atomicWrite op size (leNat old) with
              | some v => s.ctlWrite n (ps.zip (leBytes size v))
              | none => s
            s1.atomicKnown a rd dbl old false acq
          | [] => s.retire

/-- AMO (spec/05 R133): Performs an atomic add, swap, and or or at the word's point of performance. -/
def execAmo (rd ra rb : Reg) (op : AmoOp) (dbl : Bool) (ord : AmoOrd) (s : State) : Res :=
  .next (s.atomic rd ra dbl ord (.amo op (s.rd rb)))

/-- CAS (spec/05 R134): Writes a new value atomically if the word holds the expected value. -/
def execCas (rd ra rb rc : Reg) (dbl : Bool) (ord : AmoOrd) (s : State) : Res :=
  .next (s.atomic rd ra dbl ord (.cas (s.rd rb) (s.rd rc)))

/-! ### Fence (R135) -/

/-- The full fence's condition: every earlier load, AMO, CAS and PLD has landed, and the release is complete. -/
def State.fenced (s : State) : Bool := s.cur.loadsLanded && s.released s.ctx.core s.ctx.thr

/-- FENCE (spec/05 R135): Waits for earlier loads, then acts as a release and an acquire. -/
def execFence (s : State) : Res :=
  .next (if s.fenced then (s.acquire s.ctx.core).retire else s.stall .release)

/-! ### Parameter windows (R136, R137) -/

/-- A byte in the constant cache. -/
def Core.constByte (c : Core) (pa : Nat) : Option (Byte × Bool) :=
  (c.mem.cc.find? fun l => l.num = lineOf pa).map fun l => (l.bytes.getD (pa % 128) 0, l.psn.getLsbD (pa % 128 / 4))

/-- A line of the constant cache is used: it becomes the last to be replaced (R137). -/
def Core.useConst (num : Nat) (c : Core) : Core :=
  { c with mem := { c.mem with
      cc := (c.mem.cc.filter fun l => l.num != num) ++ (c.mem.cc.filter fun l => l.num = num) } }

/-- Where a PLD finds a byte: the constant cache, or home. A line is taken whole from the one or the other. -/
def State.constSource (s : State) (n : Nat) : Place → ByteSrc × Bool
  | .glob pa _ =>
    match (s.core n).constByte pa with
    | some (b, p) => (.have b, p)
    | none => (.miss pa, false)
  | p => s.source n p

/-- Starts the fills of the constant cache that a PLD needs, and the remote read of window bytes. -/
def State.gatherConst (s : State) (n : Nat) (t : BitVec 2) (id : Nat) (ps : List Place) : State × List ByteSrc × Bool :=
  let found := ps.map (s.constSource n)
  let bytes := found.map Prod.fst
  let lines := missLines (bytes.filter fun b => match b with | .miss pa => (fabTarget pa).isNone | _ => false)
  let s1 := lines.foldl (fun s num => s.request ⟨id, n, n, t.toNat, num, .read .const false, [], 0⟩) s
  let s2 := (linesOf ((globals ps).map Prod.fst)).foldl (fun s p => s.onCore n (Core.useConst p.1)) s1
  (s2.readRemote n t id (fabrics ps), bytes, found.any Prod.snd)

/-- The load from a parameter window of `size` bytes at offset `o` (R137): bytes at or above SIZE are zero and raise
PWOOB as the value lands. -/
def State.paramLoad (s : State) (rd : Reg) (w : Pwb) (o : Word) (size : Nat) (fmt : ResultFmt) : State :=
  let n := s.ctx.core
  let t := s.ctx.thr
  let inside := min size (w.size.toNat - o.toNat)
  let flags : Flags := if inside < size then flagPWOOB else 0
  let va := w.base.toNat * 16 + o.toNat
  let finish (s : State) (ps : List Place) : State :=
    if !s.roomFor n ps then s.stall .room
    else
      let (id, s) := s.fresh
      let (s, bytes, psn) := s.gatherConst n t id ps
      let all := bytes ++ List.replicate (size - inside) (ByteSrc.have 0)
      ((s.addPend ⟨id, .load, s.destOf rd, fmt, all, flags, psn, BitVec.ofNat 64 va, s.level, false⟩).track
        id).retire
  if inside = 0 then finish s []
  else if va < globalBase || globalTop ≤ va then s.trap .loadFault (BitVec.ofNat 64 va)
  else
    match s.checkGlobal n s.level .read va inside with
    | (s, .trap c v) => s.trap c v
    | (s, .wait) => s.stall .translate
    | (s, .ok ps) => finish s ps

/-- PLD (spec/05 R137): Loads from a bound parameter window through the constant cache, with bounds checking. -/
def execPld (rd ra : Reg) (k : BitVec 3) (off : BitVec 16) (wd : Width) (s : State) : Res :=
  let w := get8 s.cur.sp.pwb k
  .next (if !w.bound then s.trap .paramUnbound (k.setWidth 64)
    else s.paramLoad rd w (s.rd ra + off.setWidth 64) (wsize wd) (wfmt wd))

/-! ### Waiting on a word (R139) -/

/-- Does a word meet the condition? Both operands are read in `size` bytes. -/
def waitHolds (cond : WaitCond) (size : Nat) (x b : Nat) : Bool :=
  let u (v : Nat) : Int := intValue (8 * size) false v
  let i (v : Nat) : Int := intValue (8 * size) true v
  match cond with
  | .eq => u x = u b
  | .ne => u x != u b
  | .geU => u b ≤ u x
  | .ltU => u x < u b
  | .geS => i b ≤ i x
  | .ltS => i x < i b

/-- A byte of the fabric window that the executing instruction has read (spec/22 R409). -/
def State.windowByte (s : State) (pa : Nat) : Option (Byte × Bool) :=
  s.cur.run.reads.findSome? fun r => if r.pa ≤ pa then r.val[pa - r.pa]? else none

/-- A byte of a waited word as it is now, read past L1: local memory, or home (R139, spec/15 R289). None while it cannot be
read: home cannot serve it, a store or an atomic of the core is on its way to it (R141), or a window read has yet to give
it. -/
def State.wordByte (s : State) (n : Nat) : Place → Option (Byte × Bool)
  | .peer k off => some (s.peerByte k off)
  | .glob pa _ =>
    let agent := s.agentOf n pa
    if s.ownComing agent pa || s.atomicComing agent pa then none else s.wordAtHome pa
  | .own off => some (cellsGet (s.core n).mem.lmem off, s.lpoison n off 1)
  | .fab pa => s.windowByte pa
  | .ctl off => some (s.ctlByte n off, false)

/-- All bytes of a waited word. -/
def State.wordBytes (s : State) (n : Nat) (ps : List Place) : Option (List Byte × Bool) :=
  ps.foldr (fun p acc =>
    match s.wordByte n p, acc with
    | some (b, q), some (bs, qs) => some (b :: bs, q || qs)
    | _, _ => none) (some ([], false))

/-- The bytes of a plain load that ends at once: from L1 and the core's own stores where a load finds them, else at home;
none while home cannot serve one. -/
def State.plainBytes (s : State) (n : Nat) (ps : List Place) : Option (List Byte × Bool) :=
  (ps.zip (s.sources n ps)).foldr (fun p acc =>
    match (match p.2 with | (.have b, q) => some (b, q) | _ => s.wordByte n p.1), acc with
    | some (b, q), some (bs, qs) => some (b :: bs, q || qs)
    | _, _ => none) (some ([], false))

/-- What the loads of a list give: the bytes, the first trap, or a wait. -/
inductive Seen where
  | ok (bs : List Byte)
  | trap (c : Cause) (v : Word)
  | wait
  deriving DecidableEq, Repr

/-- Sends the remote reads of those window bytes that the executing instruction has neither read nor asked for, as its core's
credits allow (spec/22 R406, R409). -/
def State.askWindow (s : State) (pas : List Nat) : State :=
  let asked (pa : Nat) : Bool := (s.windowByte pa).isSome || s.cur.run.reads.any fun r =>
    s.fabric.remote.any fun x => x.id = r.id && x.pa ≤ pa && pa < x.pa + x.size
  (runsOf (pas.filter fun pa => !asked pa)).foldl (fun s r =>
    if s.credits s.ctx.core = 0 && (routerPlace r.1).isNone then s
    else
      let (s, id) := s.sendRemote s.ctx.core s.ctx.thr r.1 r.2 none none none none
      s.onCur fun t => { t with run := { t.run with reads := t.run.reads ++ [⟨id, r.1, []⟩] } }) s

/-- One load of an instruction that reads a list. -/
def State.seeOne (s : State) (a : Word) (size : Nat) : State × Seen :=
  match s.checkCur .read a size with
  | (s, .trap c v) => (s, .trap c v)
  | (s, .wait) => (s, .wait)
  | (s, .ok places) =>
    let ps := s.viaRouter s.ctx.core places
    match s.plainBytes s.ctx.core ps with
    | none => ((s.askWindow (fabrics ps)).snoopAll ((globals ps).map Prod.fst), .wait)
    | some (bs, psn) => (s, if psn then .trap .poison a else .ok bs)

/-- The first `k` elements of `size` bytes of a list at `a`, each loaded and checked before the next. -/
def State.seeList (s : State) (a : Word) (size : Nat) : Nat → State × Seen
  | 0 => (s, .ok [])
  | k + 1 =>
    match s.seeList a size k with
    | (s, .ok l) =>
      match s.seeOne (a + BitVec.ofNat 64 (size * k)) size with
      | (s, .ok bs) => (s, .ok (l ++ bs))
      | r => r
    | r => r

/-- A waited word of a hardware-coherent page that L1 holds whole, at the first look (R139). -/
def State.wordInL1 (s : State) (n : Nat) (ps : List Place) : Option (List Byte × Bool) :=
  let found := s.sources n ps
  let all := found.filterMap fun b => match b.1 with | .have x => some x | _ => none
  if all.length = ps.length && (globals ps).all Prod.snd then some (all, found.any Prod.snd) else none

/-- A WAITW sees its word: it ends, or it goes on waiting. -/
def State.waitSees (s : State) (rd : Reg) (cond : WaitCond) (size : Nat) (acq : Bool) (ps : List Place) (b a : Word)
    (bs : List Byte) : State :=
  if waitHolds cond size (leNat bs) b.toNat then
    let fmt : ResultFmt := if size = 4 then .sx else .zx
    (((s.wr rd (resultWord fmt bs)).sign s.ctx.core s.ctx.thr (resultWord fmt bs)).acquireIf acq).retire
  else s.stall (.word ps b a false)

/-- One look of a WAITW at its word. A word in the fabric window is read by a remote access, which takes a credit
(spec/22 R406, R409). -/
def State.waitLook (s : State) (rd : Reg) (cond : WaitCond) (size : Nat) (acq l1 : Bool) (ps : List Place) (b a : Word) :
    State :=
  let n := s.ctx.core
  let away := s.viaRouter n ps
  if !(fabrics away).isEmpty then
    if !s.roomFor n ps then s.stall (.word ps b a true)
    else
      let (id, s) := s.fresh
      let r : Async := ⟨id, .load, [], .zx, away.map fun p => .miss p.off, 0, false, a, s.level, true⟩
      ((s.readRemote n s.ctx.thr id (fabrics away)).addPend r).stall (.wordAway id ps b a)
  else
    match (if l1 then s.wordInL1 n ps else none).orElse fun _ => s.wordBytes n ps with
    | none => (s.snoopAll ((globals ps).map Prod.fst)).stall (.word ps b a true)
    | some (bs, psn) => if psn then s.trap .poison a else s.waitSees rd cond size acq ps b a bs

/-- An access touches the lines of its global bytes in L1 (spec/13 R257). -/
def State.touchAll (s : State) (ps : List Place) : State :=
  (globals ps).foldl (fun s p => s.useLine (s.agentOf s.ctx.core p.1) (lineOf p.1)) s

/-- WAITW (spec/05 R139): Blocks until a memory word meets a condition. -/
def execWaitw (rd ra rb : Reg) (cond : WaitCond) (dbl acq : Bool) (s : State) : Res :=
  let size := if dbl then 8 else 4
  let a := s.rd ra
  .next (match s.stage with
    | some (.word ps b at' again) =>
      if again then s.waitLook rd cond size acq false ps b at' else s.stall (.word ps b at' again)
    | some (.wordAway id ps b at') => s.stall (.wordAway id ps b at')
    | some (.wordGot ps b at' bs) => s.waitSees rd cond size acq ps b at' bs
    | _ =>
      if a.toNat % size != 0 then s.trap .misalign a
      else
        match s.checkCur .read a size with
        | (s, .trap c v) => s.trap c v
        | (s, .wait) => s.stall .translate
        | (s, .ok ps) => (s.touchAll ps).waitLook rd cond size acq true ps (s.rd rb) a)

end Sys2Proof.Machine
end

