-- ==== Sys2Proof/Machine/Sha.lean ====
section
/-!
DEFINITION. SHA-512 (spec/03 R96, spec/18 R356, spec/21 R402 name it; the function itself is that of FIPS 180-4, taken
from outside the spec, log 14: PRESUMED). Its constants are computed from their definition there, the fractions of roots
of the first primes, and the schedule of message words moves along with the rounds.
-/
namespace Sys2Proof.Machine

/-- The greatest `r` below `acc + 2^n`, bit by bit, whose power `k` is at most `x`. -/
def rootDigits (k x : Nat) : Nat → Nat → Nat
  | 0, acc => acc
  | n + 1, acc => rootDigits k x n (if (acc + 2 ^ n) ^ k ≤ x then acc + 2 ^ n else acc)

/-- The first 64 bits of the fraction of the `k`-th root of `p` (log 14: PRESUMED). -/
def rootFraction (k p : Nat) : Word := BitVec.ofNat 64 (rootDigits k (p * 2 ^ (64 * k)) 70 0)

/-- The first eighty primes, 2 to 409. -/
def primes80 : List Nat :=
  (List.range 410).filter fun p => 2 ≤ p && (List.range 21).all fun d => d < 2 || p ≤ d || p % d != 0

/-- The key of each round: cube roots (log 14: PRESUMED). -/
def shaKeys : List Word := primes80.map (rootFraction 3)

/-- The digest before the first block: square roots of the first eight primes (log 14: PRESUMED). -/
def shaStart : List Word := (primes80.take 8).map (rootFraction 2)

/-- The sum modulo 2 of a word's rotations and of one shift of it (none where the shift is 64). -/
def mixOf (rotations : List Nat) (shift : Nat) (x : Word) : Word :=
  rotations.foldl (fun sum n => sum ^^^ x.rotateRight n) (x >>> shift)

/-- Two shift registers of four words each: the digest while a block is worked in. -/
structure ShaRegs where
  upper : List Word
  lower : List Word
  deriving DecidableEq, Repr

/-- A round with `kw`, the sum of its key and its message word: each register takes a new word at its head and loses its
last, that of the upper one going into the new word of the lower one. -/
def ShaRegs.round (r : ShaRegs) (kw : Word) : ShaRegs :=
  let up (n : Nat) : Word := r.upper.getD n 0
  let lo (n : Nat) : Word := r.lower.getD n 0
  let chosen := lo 2 ^^^ (lo 0 &&& (lo 1 ^^^ lo 2))
  let majority := (up 0 &&& up 1) ||| (up 2 &&& (up 0 ||| up 1))
  let t := [lo 3, mixOf [14, 18, 41] 64 (lo 0), chosen, kw].foldl (· + ·) 0
  { upper := (t + mixOf [28, 34, 39] 64 (up 0) + majority) :: r.upper.take 3
    lower := (up 3 + t) :: r.lower.take 3 }

/-- The sixteen message words in use move on by one. -/
def shaSlide (w : List Word) : List Word :=
  w.drop 1 ++ [[w.getD 0 0, mixOf [1, 8] 7 (w.getD 1 0), w.getD 9 0, mixOf [19, 61] 6 (w.getD 14 0)].foldl (· + ·) 0]

/-- The rounds of a block, one for each key. -/
def shaRounds (keys : List Word) (w : List Word) (r : ShaRegs) : ShaRegs :=
  match keys with
  | [] => r
  | k :: rest => shaRounds rest (shaSlide w) (r.round (k + w.getD 0 0))

/-- The eight bytes of a word, the highest first. -/
def beBytes (x : Word) : List Byte := (leBytes 8 x.toNat).reverse

/-- The sixteen words of a block of 128 bytes. -/
def blockWords (block : List Byte) : List Word :=
  (List.range 16).map fun k => BitVec.ofNat 64 (leNat ((block.drop (8 * k)).take 8).reverse)

/-- The digest after a block. -/
def shaBlock (digest : List Word) (block : List Byte) : List Word :=
  let r := shaRounds shaKeys (blockWords block) ⟨digest.take 4, digest.drop 4⟩
  digest.zipWith (· + ·) (r.upper ++ r.lower)

/-- The message with its padding: one set bit, zeros, the length in bits. -/
def shaPad (m : List Byte) : List Byte :=
  let used := m.length + 17
  m ++ 0x80 :: (List.replicate ((128 - used % 128) % 128) 0 ++ (leBytes 16 (8 * m.length)).reverse)

/-- The 64 bytes of SHA-512 of a message. -/
def sha512 (m : List Byte) : List Byte :=
  let padded := shaPad m
  let blocks := (List.range (padded.length / 128)).map fun k => (padded.drop (128 * k)).take 128
  (blocks.foldl shaBlock shaStart).flatMap beBytes

/-- A measurement extended by a digest: SHA-512(M ‖ digest) (spec/21 R402). -/
def measure (m digest : List Byte) : List Byte := sha512 (m ++ digest)

end Sys2Proof.Machine
end

