-- ==== Sys2Proof/Machine/SysRegs.lean ====
section
/-!
DEFINITION. The system registers: numbers and views, what a read gives, what a write does (spec/03 R80, R84-R87;
spec/05 R136; spec/07 R171, R173; spec/10 R217; spec/11 R237; spec/13 R258, R263; spec/16 R295, R307, R314, R318;
spec/17 R321; spec/18 R364, R374; spec/21 R393; spec/22 R408, R412).
-/
set_option linter.constructorNameAsVariable false

namespace Sys2Proof.Machine

/-- The registers of R86 by name; numbered ones carry their number. -/
inductive SysReg where
  | core | thr | cycle | instret | sstep | tags | lgen | fs | fe | frm | cwp | wres
  | ls (k : Bool) | le (k : Bool) | lc (k : Bool) | la
  | dom | imb (k : BitVec 2) | pmsel (k : BitVec 2) | pmc (k : BitVec 2) | holdst
  | tstat | tpc | tcause | tval | tvec | tscr (k : BitVec 2) | dmap | pwbA (k : BitVec 3) | pwbZ (k : BitVec 3)
  | lquota | mxcap | taph | ptbr | asid | lockctl | bkpt (k : BitVec 2) | seqbase | lkbud | fabgrp
  deriving DecidableEq, Repr

/-- The register at a number that is no mirror (R86). -/
def sysReg (num : Nat) : Option SysReg :=
  if num < 0x010 then
    match num with
    | 0 => some .core | 1 => some .thr | 2 => some .cycle | 3 => some .instret | 4 => some .sstep | 5 => some .tags
    | 6 => some .lgen | _ => none
  else if num < 0x040 then
    match num with
    | 0x10 => some .fs | 0x11 => some .fe | 0x12 => some .frm | 0x20 => some .cwp | 0x21 => some .wres
    | 0x30 => some (.ls false) | 0x31 => some (.le false) | 0x32 => some (.lc false)
    | 0x33 => some (.ls true) | 0x34 => some (.le true) | 0x35 => some (.lc true) | 0x36 => some .la
    | _ => none
  else if num < 0x400 then
    if num = 0x40 then some .dom
    else if num < 0x41 then none
    else if num ≤ 0x44 then some (.imb (BitVec.ofNat 2 (num - 0x41)))
    else if num < 0x50 then none
    else if num ≤ 0x53 then some (.pmsel (BitVec.ofNat 2 num))
    else if num ≤ 0x57 then some (.pmc (BitVec.ofNat 2 num))
    else if num = 0x70 then some .holdst
    else none
  else if num < 0x800 then none
  else if num < 0x820 then
    match num - 0x800 with
    | 0 => some .tstat | 1 => some .tpc | 2 => some .tcause | 3 => some .tval | 4 => some .tvec
    | 5 => some (.tscr 0) | 6 => some (.tscr 1) | 7 => some (.tscr 2) | 8 => some (.tscr 3) | 0x10 => some .dmap
    | _ => none
  else if num < 0x830 then
    some (if num % 2 = 0 then .pwbA (BitVec.ofNat 3 (num / 2)) else .pwbZ (BitVec.ofNat 3 (num / 2)))
  else if num = 0x830 then some .lquota
  else if num = 0x840 then some .mxcap
  else if num = 0x850 then some .taph
  else if num = 0x860 then some .ptbr
  else if num = 0x861 then some .asid
  else if num = 0x870 then some .lockctl
  else if num < 0x880 then none
  else if num ≤ 0x883 then some (.bkpt (BitVec.ofNat 2 num))
  else if num = 0x890 then some .seqbase
  else if num = 0x8A0 then some .lkbud
  else if num = 0x8B0 then some .fabgrp
  else none

/-- The registers above 0x800 that a mirror shows (R86). -/
def SysReg.mirrored : SysReg → Bool
  | .dmap | .lquota | .mxcap | .asid | .lockctl | .seqbase | .fabgrp => true
  | _ => false

/-- The register that a number reads: its own, or the one that a mirror shows. -/
def sysShown (num : Nat) : Option SysReg :=
  if 0x400 ≤ num && num < 0x800 then (sysReg (num + 0x400)).filter SysReg.mirrored else sysReg num

/-- The views (R86): both levels write; U reads and S writes; nobody writes; S only. -/
inductive View where
  | userRw | superW | readOnly | superRw
  deriving DecidableEq, Repr

/-- A register's view. -/
def SysReg.view : SysReg → View
  | .core | .thr | .sstep | .tags | .lgen | .imb _ | .fabgrp => .readOnly
  | .cycle | .instret | .cwp | .wres | .dom | .pmc _ => .superW
  | .fs | .fe | .frm | .ls _ | .le _ | .lc _ | .la | .pmsel _ | .holdst => .userRw
  | _ => .superRw

/-- The checks of R85: the trap an access takes, or the register it reaches. -/
def sysAccess (level : Level) (write : Bool) (num : Nat) : Except Cause SysReg :=
  if 0x800 ≤ num && level == .u then .error .priv
  else
    match sysShown num with
    | none => .error .illegal
    | some r =>
      if !write then .ok r
      else if level == .u && r.view == .superW then .error .priv
      else if r.view == .readOnly || num / 0x400 = 1 then .error .illegal
      else .ok r

/-- Bits packed into a word. -/
def packWord (fields : List (Nat × Nat)) : Word := BitVec.ofNat 64 (fields.foldl (fun a f => a + f.1 * 2 ^ f.2) 0)

/-- The core whose LOCKCTL a core shows: core 2k of a pair (spec/10 R217). -/
def State.lockCore (s : State) (n : Nat) : Nat := if s.shadow n then n - 1 else n

/-- HOLDST (spec/13 R263). -/
def State.holdst (s : State) (n : Nat) (t : BitVec 2) : Word :=
  let p := (s.thread n t).sp
  let hs := (s.core n).req.holds
  packWord [(p.pref.toNat, 48), (p.pacc.toNat, 32), (p.pcause.toNat, 24), (bit1 p.exp, 8), (hs.length % 8, 4),
    ((hs.filter fun h => h.thr = t.toNat).length % 4, 0)]

/-- The threads of a launch that are in a DMAPLD, with the table each loads (spec/03 R96). -/
def State.loaders (s : State) (l : Launch) : List (Nat × BitVec 2 × BitVec 2) :=
  l.cores.flatMap fun n => [0#2, 1#2, 2#2, 3#2].filterMap fun t =>
    match (s.thread n t).run.wait with
    | some (.decode k) => some (n, t, k)
    | _ => none

/-- LOADED of a launch: 0 for a table from the start of a DMAPLD of it until its end (spec/03 R96). -/
def State.loadedTables (s : State) (l : Launch) : BitVec 4 :=
  (s.loaders l).foldl (fun m p => m &&& ~~~(BitVec.ofNat 4 (2 ^ p.2.2.toNat))) l.loaded

/-- DMAP (spec/03 R87). LOADED is the launch's. -/
def State.dmap (s : State) (n : Nat) (t : BitVec 2) : Word :=
  let p := (s.thread n t).sp
  let loaded : BitVec 4 := match s.coreLaunch n with | some l => s.loadedTables l | none => 3
  packWord [(loaded.toNat, 8), (p.uena.toNat, 4), (p.sel.toNat, 0)]

/-- TAPH with its queue length (spec/18 R364). -/
def Partition.taphWord (p : Partition) : Word :=
  packWord [(bit1 p.taph.en, 63), (p.tapq.length, 48), (bit1 p.taph.ovf, 47), (p.taph.thr.toNat, 17), (p.taph.n.toNat, 0)]

/-- What a read of a register gives a thread (R173). Outside a launch the registers of launch and partition read 0
(log 5: DESIGN CHOICE). -/
def State.sysRead (s : State) (n : Nat) (t : BitVec 2) (r : SysReg) : Word :=
  let c := s.core n
  let th := get4 c.thr t
  match r with
  | .core => BitVec.ofNat 64 (s.identity (s.lockCore n))
  | .thr => t.setWidth 64
  | .cycle => c.regs.cycle
  | .instret => th.sp.instret
  | .sstep => c.regs.sstep
  | .tags => th.tags.setWidth 64
  | .lgen => ((s.coreLaunch n).map fun l => l.gen.setWidth 64).getD 0
  | .fs => th.sp.fs.setWidth 64
  | .fe => th.sp.fe.setWidth 64
  | .frm => th.sp.frm.setWidth 64
  | .cwp => th.regs.cwp.setWidth 64
  | .wres => th.regs.wres.setWidth 64
  | .ls k => if k then th.loops.ls1 else th.loops.ls0
  | .le k => if k then th.loops.le1 else th.loops.le0
  | .lc k => (if k then th.loops.lc1 else th.loops.lc0).setWidth 64
  | .la => th.loops.la.setWidth 64
  | .dom => c.regs.dom.word
  | .imb k =>
    if k = 0 then c.regs.imb0.setWidth 64 else if k = 1 then c.regs.imb1.setWidth 64
    else if k = 2 then c.regs.imb2 else c.regs.imb3
  | .pmsel k => (get4 c.regs.pm.sel k).setWidth 64
  | .pmc k => get4 c.regs.pm.cnt k
  | .holdst => s.holdst n t
  | .tstat => th.trap.tstat.setWidth 64
  | .tpc => th.trap.tpc
  | .tcause => th.trap.tcause.setWidth 64
  | .tval => th.trap.tval
  | .tvec => th.trap.tvec
  | .tscr k => get4 th.trap.tscr k
  | .dmap => s.dmap n t
  | .pwbA k => (get8 th.sp.pwb k).base.setWidth 64 <<< 4
  | .pwbZ k => packWord [(bit1 (get8 th.sp.pwb k).bound, 63), ((get8 th.sp.pwb k).size.toNat, 0)]
  | .lquota => c.regs.lquota.setWidth 64
  | .mxcap => packWord [(bit1 c.regs.mxen, 63), (bit1 c.regs.mxacc, 32), (c.regs.mxmask.toNat, 0)]
  | .taph => ((s.corePart n).map Partition.taphWord).getD 0
  | .ptbr => ((s.coreLaunch n).map fun l => ((l.ptbr.setWidth 64 : Word) <<< (16 : Nat))).getD 0
  | .asid => ((s.coreLaunch n).map fun l => l.asid.setWidth 64).getD 0
  | .lockctl =>
    let k := (s.core (s.lockCore n)).lock
    packWord [(k.rbcount.toNat, 32), (min 112 k.log.length, 16), (bit1 k.en, 0)]
  | .bkpt k => get4 th.sp.bkpt k
  | .seqbase => ((s.corePart n).map fun p => packWord [(p.seqbase.toNat, 28), (bit1 p.seqen, 0)]).getD 0
  | .lkbud => packWord [(bit1 th.sp.lkbud.en, 63), (th.sp.lkbud.handle.toNat, 32), (th.sp.lkbud.left.toNat, 0)]
  | .fabgrp => s.fabgrp (s.corePartId n)

/-! ### Writes -/

/-- A write of WRES (spec/03 R87); 0 and 9-15 are ignored. Lowering it takes the oldest windows out, whose l and i
registers then hold no defined values (spec/07 R173, log 11: DESIGN CHOICE). -/
def Regs.setWres (r : Regs) (v : BitVec 4) (fill : BitVec 3 → Win) : Regs :=
  if v = 0 || 9 ≤ v.toNat then r
  else
    let gone := (List.range (r.wres.toNat - v.toNat)).map fun k => r.cwp - BitVec.ofNat 3 (v.toNat + k)
    { r with wres := v, wins := gone.foldl (fun ws w => set8 ws w (fill w)) r.wins }

/-- Free windows for `setWres`. -/
def State.freeWin (s : State) (w : BitVec 3) : Win :=
  ⟨Vector.ofFn fun i : Fin 8 => s.free (100 + 16 * w.toNat + i.val),
   Vector.ofFn fun i : Fin 8 => s.free (108 + 16 * w.toNat + i.val)⟩

/-- Bits 63:1 of a written address. -/
def even (v : Word) : Word := v &&& ~~~1

/-- A loop register written. -/
def Loops.put (l : Loops) (r : SysReg) (v : Word) : Loops :=
  match r with
  | .ls k => if k then { l with ls1 := even v } else { l with ls0 := even v }
  | .le k => if k then { l with le1 := even v } else { l with le0 := even v }
  | .lc k => if k then { l with lc1 := v.setWidth 32 } else { l with lc0 := v.setWidth 32 }
  | .la => { l with la := v.setWidth 2 }
  | _ => l

/-- A write of DMAP (spec/03 R87, spec/07 R173): UENA with bit 4 reading 1; SEL unless its table is not loaded; a
changed SEL discards the fetch buffer. -/
def State.writeDmap (s : State) (n : Nat) (t : BitVec 2) (v : Word) : State :=
  let loaded := (s.dmap n t).extractLsb' 8 4
  let sel : BitVec 2 := v.extractLsb' 0 2
  s.onThread n t fun th =>
    let th1 := { th with sp := { th.sp with uena := v.extractLsb' 4 4 ||| 1 } }
    if loaded.getLsbD sel.toNat && sel != th.sp.sel then
      Thread.discard { th1 with sp := { th1.sp with sel := sel } }
    else th1

/-- A write of PWBkA or PWBkZ (spec/05 R136), which empties the core's constant cache (R137). -/
def State.writePwb (s : State) (n : Nat) (t : BitVec 2) (k : BitVec 3) (size : Bool) (v : Word) : State :=
  let s1 := s.onThread n t fun th =>
    let w := get8 th.sp.pwb k
    let w' : Pwb :=
      if size then { w with bound := v.getLsbD 63, size := BitVec.ofNat 17 (min 65536 (v.toNat % 2 ^ 17)) }
      else { w with base := v.extractLsb' 4 51 }
    { th with sp := { th.sp with pwb := set8 th.sp.pwb k w' } }
  s1.onCore n fun c => { c with mem := { c.mem with cc := [] } }

/-- A write of HOLDST (spec/13 R263). -/
def State.writeHoldst (s : State) (n : Nat) (t : BitVec 2) (v : Word) : State :=
  s.onThread n t fun th =>
    { th with sp := { th.sp with
        pref := v.extractLsb' 48 16, pacc := v.extractLsb' 32 16, pcause := v.extractLsb' 24 4, exp := v.getLsbD 8 } }

/-- A write of DOM: the request of DOMSET, its status discarded (spec/16 R295). -/
def State.writeDom (s : State) (n : Nat) (v : Word) : State := (s.domRequest n v).1

/-- Changes the special registers of a thread. -/
def State.onSp (s : State) (n : Nat) (t : BitVec 2) (f : Special → Special) : State :=
  s.onThread n t fun th => { th with sp := f th.sp }

/-- Changes the trap context of a thread. -/
def State.onTrap (s : State) (n : Nat) (t : BitVec 2) (f : TrapCtx → TrapCtx) : State :=
  s.onThread n t fun th => { th with trap := f th.trap }

/-- Changes the registers of a core. -/
def State.onRegs (s : State) (n : Nat) (f : CoreRegs → CoreRegs) : State :=
  s.onCore n fun c => { c with regs := f c.regs }

/-- Changes the partition of the launch that a core runs. -/
def State.onCorePart (s : State) (n : Nat) (f : Partition → Partition) : State :=
  match s.coreLaunch n with
  | some l => s.onPart l.part f
  | none => s

/-- Changes the launch that a core runs. -/
def State.onCoreLaunch (s : State) (n : Nat) (f : Launch → Launch) : State :=
  match (s.core n).launch with
  | some id => s.onLaunch id f
  | none => s

/-- A write of CYCLE; the times that count from a CYCLE move with it (spec/16 R307, R316). -/
def State.setCycle (s : State) (n : Nat) (v : Word) : State :=
  s.onCore n fun c =>
    let d := v - c.regs.cycle
    { c with
      regs := { c.regs with cycle := v }
      sup := { c.sup with
        start := c.sup.start.map fun x => x + d
        synced := c.sup.synced.map fun x => (x.1, x.2.1, x.2.2 + d)
        barAt := c.sup.barAt + d } }

/-- What a write of a register does, field by field (R173). -/
def State.sysWrite (s : State) (n : Nat) (t : BitVec 2) (r : SysReg) (v : Word) : State :=
  match r with
  | .core | .thr | .sstep | .tags | .lgen | .imb _ | .fabgrp => s
  | .cycle => s.setCycle n v
  | .instret => s.onSp n t fun p => { p with instret := v }
  | .fs => s.onSp n t fun p => { p with fs := v.setWidth 8 }
  | .fe => s.onSp n t fun p => { p with fe := v.setWidth 8 }
  | .frm => s.onSp n t fun p => { p with frm := v.setWidth 3 }
  | .cwp => s.onThread n t fun th => { th with regs := { th.regs with cwp := v.setWidth 3 } }
  | .wres => s.onThread n t fun th => { th with regs := th.regs.setWres (v.setWidth 4) s.freeWin }
  | .ls k => s.onThread n t fun th => { th with loops := th.loops.put (.ls k) v }
  | .le k => s.onThread n t fun th => { th with loops := th.loops.put (.le k) v }
  | .lc k => s.onThread n t fun th => { th with loops := th.loops.put (.lc k) v }
  | .la => s.onThread n t fun th => { th with loops := th.loops.put .la v }
  | .dom => s.writeDom n v
  | .pmsel k => s.onRegs n fun c => { c with pm := { c.pm with sel := set4 c.pm.sel k (v.setWidth 11) } }
  | .pmc k => s.onRegs n fun c => { c with pm := { c.pm with cnt := set4 c.pm.cnt k v } }
  | .holdst => s.writeHoldst n t v
  | .tstat => s.onTrap n t fun p => { p with tstat := v.setWidth 4 }
  | .tpc => s.onTrap n t fun p => { p with tpc := even v }
  | .tcause => s.onTrap n t fun p => { p with tcause := v.setWidth 8 }
  | .tval => s.onTrap n t fun p => { p with tval := v }
  | .tvec => s.onTrap n t fun p => { p with tvec := even v }
  | .tscr k => s.onTrap n t fun p => { p with tscr := set4 p.tscr k v }
  | .dmap => s.writeDmap n t v
  | .pwbA k => s.writePwb n t k false v
  | .pwbZ k => s.writePwb n t k true v
  | .lquota => s.onRegs n fun c => { c with lquota := BitVec.ofNat 6 (min 48 (v.toNat % 64)) }
  | .mxcap =>
    s.onRegs n fun c => { c with mxen := v.getLsbD 63, mxacc := v.getLsbD 32, mxmask := v.setWidth 32 }
  | .taph =>
    s.onCorePart n fun p => { p with
      taph := ⟨v.getLsbD 63, v.getLsbD 47, v.extractLsb' 17 2, v.extractLsb' 0 17⟩ }
  | .ptbr => s.onCoreLaunch n fun l => { l with ptbr := v.extractLsb' 16 32 }
  | .asid => s.onCoreLaunch n fun l => { l with asid := v.setWidth 16 }
  | .lockctl => s.onCore (s.lockCore n) fun c => { c with lock := { c.lock with rbcount := v.extractLsb' 32 16 } }
  | .bkpt k => s.onSp n t fun p => { p with bkpt := set4 p.bkpt k v }
  | .seqbase => s.onCorePart n fun p => { p with seqbase := v.extractLsb' 28 27, seqen := v.getLsbD 0 }
  | .lkbud =>
    s.onSp n t fun p => { p with
      lkbud := ⟨v.getLsbD 63, v.extractLsb' 32 20, v.setWidth 32, v.setWidth 32⟩ }

end Sys2Proof.Machine
end

