-- ==== Sys2Proof/Machine/System.lean ====
section
/-!
DEFINITION. The system instructions (spec/07 R173-R176), the DEP prefix and C.WAITT (spec/03 R83, R94), the decode
tables (spec/03 R96), FETCHB (spec/11 R249), and the writes of registers with effects of their own.
-/
set_option linter.constructorNameAsVariable false

namespace Sys2Proof.Machine

/-! ### RSR and WSR (R173, R85) -/

/-- RSR (spec/07 R173): Reads a system register after the access checks. -/
def execRsr (rd : Reg) (num : BitVec 12) (s : State) : Res :=
  .next (match sysAccess s.level false num.toNat with
    | .error c => s.trap c (num.setWidth 64)
    | .ok r => (s.wr rd (s.sysRead s.ctx.core s.ctx.thr r)).retire)

/-- WSR of a register number with a value (R173).
(log 49: DEDUCED) -/
def State.wsr (s : State) (num : Nat) (v : Word) : State :=
  match sysAccess s.level true num with
  | .error c => s.trap c (BitVec.ofNat 64 num)
  | .ok r => (s.sysWrite s.ctx.core s.ctx.thr r v).retire

/-- WSR (spec/07 R173): Writes a system register after the access checks, for registers without a row of their own. -/
def execWsr (num : BitVec 12) (ra : Reg) (s : State) : Res := .next (s.wsr num.toNat (s.rd ra))

/-- DOM_WRITE (spec/16 R295): A WSR to DOM requests a domain change, as DOMSET does. -/
def execDomWrite (ra : Reg) (s : State) : Res := .next (s.wsr 0x040 (s.rd ra))

/-- DMAP_WRITE (spec/03 R87): A WSR to DMAP changes SEL only when the named table is loaded. -/
def execDmapWrite (ra : Reg) (s : State) : Res := .next (s.wsr 0x810 (s.rd ra))

/-- PWB_WRITE (spec/05 R137): A write to a PWBkA or PWBkZ register empties the constant cache. -/
def execPwbWrite (k : BitVec 3) (size : Bool) (ra : Reg) (s : State) : Res :=
  .next (s.wsr (0x820 + 2 * k.toNat + bit1 size) (s.rd ra))

/-- HOLDST_WRITE (spec/13 R263): A WSR to HOLDST sets the counts, and later counts add to the written value. -/
def execHoldstWrite (ra : Reg) (s : State) : Res := .next (s.wsr 0x070 (s.rd ra))

/-! ### Traps (R174-R176) -/

/-- TRAP (spec/07 R174): Completes and then enters the handler with cause TRAP. -/
def execTrap (imm : BitVec 10) (s : State) : Res :=
  let s1 := s.retire
  .next ((s1.trapAt s.ctx.core s.ctx.thr s1.cur.pc .trap (imm.setWidth 64)).fated .trapped)

/-- TRET (spec/07 R176): Returns from a handler, restoring level and LA. -/
def execTret (s : State) : Res := .next (if s.level = .u then s.privTrap else s.trapReturn)

/-- TFENCE (R175): fixed-latency results are written as their instructions issue, so nothing is waited for. -/
def State.tfence (s : State) : State :=
  let f := s.cur.sp.fs &&& s.cur.sp.fe
  if f != 0 then s.trap .arith (f.setWidth 64) else s.retire

/-- TFENCE (spec/07 R175): Traps ARITH when enabled flags are set. -/
def execTfence (s : State) : Res := .next s.tfence

/-- C_TFENCE (spec/03 R94): Compact TFENCE. -/
def execCTfence (s : State) : Res := .next s.tfence

/-! ### Tags (spec/03 R82, R83; spec/10 R207; spec/11 R226) -/

/-- The unreported operations that a wait on tags covers. -/
def waitsFor (mask : BitVec 6) (u : Unreported) : Bool := u.tag != 0 && mask.getLsbD (u.tag - 1)

/-- Waits until every tag of a mask is clear, reports the earliest failure among the operations waited for, merges
their flags; then `next`. -/
def State.waitTags (s : State) (mask : BitVec 6) (next : State → State) : State :=
  if s.cur.tags &&& mask != 0 then s.stall (.tags mask)
  else
    match s.failure (waitsFor mask) with
    | some (v, s) => s.trap .engine v
    | none => next (s.mergeFlags (waitsFor mask))

/-- C_WAITT (spec/03 R94): Waits until every named tag is clear. -/
def execCWaitt (mask : BitVec 6) (s : State) : Res := .next (s.waitTags mask State.retire)

/-- The prefix (R83): the prefixed instruction may issue when it answers fate `issued`. An instruction that has begun to
wait has its prefix behind it. -/
def execDep (yield : Bool) (mask : BitVec 6) (tag : BitVec 3) (s : State) : Res :=
  let go (s : State) : State :=
    { s with ctx := { s.ctx with tag := tag.toNat, yield := yield, fate := .issued } }
  .next (match s.stage with
    | none | some (.tags _) => s.waitTags mask go
    | some _ => go s)

/-! ### Decode tables (spec/03 R96) -/

/-- DMAPSEL (spec/03 R96): Selects the decode table for the thread. -/
def execDmapsel (k : BitVec 2) (s : State) : Res :=
  .next (if !(s.dmap s.ctx.core s.ctx.thr).getLsbD (8 + k.toNat) then s.trap .illegal s.ctx.word
    else if s.level = .u && !s.cur.sp.uena.getLsbD k.toNat then s.trap .priv s.ctx.word
    else (s.onCur fun t => Thread.discard { t with sp := { t.sp with sel := k } }).retire)

/-- A table entry is assignable: 0xFFFF, or an assigned opcode of table 0; from 0x3F0 on only 0xFFFF. -/
def tableOk (i : Nat) (e : BitVec 16) : Bool := e == 0xFFFF || (i < 0x3F0 && (nativeOp e.toNat).isSome)

/-- Little-endian halfwords. -/
def halfwords : List Byte → List (BitVec 16)
  | lo :: hi :: rest => (hi ++ lo) :: halfwords rest
  | _ => []

/-- Does a thread of a launch decode under a table? -/
def State.tableInUse (s : State) (l : Launch) (k : BitVec 2) : Bool :=
  l.cores.any fun n => (List.range 4).any fun t =>
    (s.thread n (tid t)).sp.sel = k && (s.thread n (tid t)).run.life != .absent

/-- DMAPLD once its bytes are there (R96): refused with 2, or the table is loaded, LOADED set and the measurement
extended (log 24: DEDUCED). -/
def State.dmapTake (s : State) (rd : Reg) (k : BitVec 2) (l : Launch) (bs : List Byte) : State :=
  let e := halfwords bs
  if ((List.range e.length).zip e).all fun p => tableOk p.1 p.2 then
    ((s.onLaunch l.id fun x =>
        let x1 := if k = 2 then { x with table2 := e } else { x with table3 := e }
        { x1 with loaded := x.loaded ||| BitVec.ofNat 4 (2 ^ k.toNat), meas := measure x.meas (sha512 bs) }).wr rd
      0).retire
  else (s.wr rd 2).retire

/-- DMAPLD (spec/03 R96): Loads decode table 2 or 3 and extends the decode measurement. A second one in the launch waits
until the first has ended. -/
def execDmapld (rd ra : Reg) (third : Bool) (s : State) : Res :=
  let k : BitVec 2 := if third then 3 else 2
  .next (if s.level = .u then s.privTrap
    else
      match s.coreLaunch s.ctx.core with
      | none => (s.wr rd 1).retire
      | some l =>
        if s.tableInUse l k then (s.wr rd 1).retire
        else if (s.loaders l).any fun p => p.1 != s.ctx.core || p.2.1 != s.ctx.thr then s.stall .unit
        else
          match s.seeList (s.rd ra) 2 1024 with
          | (s, .trap c v) => s.trap c v
          | (s, .wait) => s.stall (.decode k)
          | (s, .ok bs) => s.dmapTake rd k l bs)

/-! ### FETCHB (spec/11 R249) -/

/-- FETCHB (spec/11 R249): Discards the thread's fetch buffer. -/
def execFetchb (s : State) : Res := .next ((s.retire).onCur Thread.discard)

end Sys2Proof.Machine
end

