-- ==== Sys2Proof/Machine/Async.lean ====
section
/-!
DEFINITION. What a thread takes before its next instruction: a pending POISON (spec/05 R129), a tap event
(spec/18 R365), the end of its budget (spec/18 R375).
-/
set_option linter.constructorNameAsVariable false

namespace Sys2Proof.Machine

/-- Must the thread's instruction end before anything is taken? A steal already sent first returns, a SYNC whose barrier has
completed ends first (spec/13 R273, spec/16 R298, spec/18 R365), and a STOP past its checks takes no trap (spec/07 R177).
An instruction whose effect has come about and that has only to write its result has not been kept from completing: a
HOLD whose line is held, a request that has been carried out, a synchronous access whose value is there (log 25:
DEDUCED). -/
def Thread.committed (t : Thread) : Bool :=
  match t.run.wait with
  | some (.steal _ sent) => sent
  | some (.deqGot _) | some (.passed _) | some (.synced _ _) | some (.got _) | some (.held _ _ _) | some .ending
  | some (.reply _) => true
  | _ => false

/-- The first pending POISON that the thread can take at its level, in landing order (spec/05 R129). -/
def Thread.poisonReady (t : Thread) : Option (Word × Level) :=
  t.run.poisons.find? fun p => !(p.2 == .u && t.level == .s)

/-- Is the thread one that can take something now? -/
def Thread.open? (t : Thread) : Bool := t.run.life == .live && !t.run.parked && !t.committed

/-- Takes the oldest pending POISON (spec/05 R129). -/
def State.takePoison (s : State) (n : Nat) (t : BitVec 2) : Option State :=
  let th := s.thread n t
  if !th.open? then none
  else
    th.poisonReady.map fun p =>
      (s.onThread n t fun th => { th with run := { th.run with poisons := th.run.poisons.erase p } }).trapAt n t th.pc
        .poison p.1

/-- The thread that takes a partition's tap events (spec/18 R364, R365). -/
def Partition.tapThread (p : Partition) : Option (Nat × BitVec 2) :=
  if p.taph.en && !p.tapq.isEmpty then some (p.taph.n.toNat, p.taph.thr) else none

/-- A partition's handler thread takes its oldest tap event, when it is at U level, not stopped, and its core runs a
launch of the partition (spec/18 R365). -/
def State.takeTap (s : State) (p : Partition) : Option State :=
  match p.tapThread, p.tapq with
  | some (n, t), v :: rest =>
    let th := s.thread n t
    if th.open? && th.level == .u && (s.coreLaunch n).any (fun l => l.part = p.id) then
      some ((s.onPart p.id fun q => { q with tapq := rest }).trapAt n t th.pc .tap v)
    else none
  | _, _ => none

/-- A thread at U level whose budget has run out traps BUDGET (spec/18 R375). -/
def State.takeBudget (s : State) (n : Nat) (t : BitVec 2) : Option State :=
  let th := s.thread n t
  if th.open? && th.level == .u && th.sp.lkbud.en && th.sp.lkbud.left == 0 then
    some (s.trapAt n t th.pc .budget (th.sp.lkbud.handle.setWidth 64))
  else none

/-- What thread `t` of core `n` takes before it looks at its next instruction, POISON first (spec/03 R101). -/
def State.takeAsync (s : State) (n : Nat) (t : BitVec 2) : Option State :=
  match s.takePoison n t with
  | some s => some s
  | none =>
    let tap := (s.corePart n).bind fun p => if p.tapThread = some (n, t) then s.takeTap p else none
    match tap with
    | some s => some s
    | none => s.takeBudget n t

/-- ASYNC_POISON_TRAP (spec/05 R129): A pending POISON from an asynchronous load is taken before the thread's next
issue. -/
def execAsyncPoisonTrap (core thr : Nat) (s : State) : Res := .next ((s.takePoison core (tid thr)).getD s)

/-- TAP_EVENT_ENTRY (spec/18 R365): The named handler thread takes the oldest queued tap event and traps TAP. -/
def execTapEventEntry (part : Nat) (s : State) : Res := .next (((s.partOf part).bind s.takeTap).getD s)

/-- BUDGET_EXPIRY (spec/18 R375): LKBUD.LEFT reaches zero; the sequence is faulted and the thread traps BUDGET. -/
def execBudgetExpiry (core thr : Nat) (s : State) : Res := .next ((s.takeBudget core (tid thr)).getD s)

end Sys2Proof.Machine
end

