-- ==== Sys2Proof/Machine/Front.lean ====
section
/-!
DEFINITION. A running front kernel, as a partition's creation leaves it (spec/21 R385, R387; spec/03 R74), for the
placing of a program (log 3: DESIGN CHOICE).
-/
set_option linter.constructorNameAsVariable false

namespace Sys2Proof.Machine

/-- The launch record of the front kernel that `placed` stands for: entry 0, one core, thread 0, S level. -/
def frontRecord : LaunchRec where
  entry := 0
  table := 0
  level := 0
  tmask := 1
  ctab := 0
  fuse := false
  lock := false
  prio := 0
  slevel := true
  masks := 0
  img := 0
  ilen := 0
  stktop := 0
  stkstr := 0
  tpbase := 0
  tpstr := 0
  preda := 0
  predv := 0
  donea := 0
  donev := 0
  pw := List.replicate 8 ⟨0, 0, false⟩

/-- That launch, running. -/
def frontLaunch : Launch where
  id := 0
  part := 1
  addr := 0
  record := frontRecord
  status := 1
  stat := none
  cores := [0]
  shadows := []
  system := true
  fused := false
  phase := .running
  gen := 0
  table2 := []
  table3 := []
  loaded := 3
  meas := List.replicate 64 0
  ptbr := 0
  asid := 0
  saved := []
  savedB := []
  replay := none
  faulted := false
  ready := true
  used := 0
  since := 0
  image := []

/-- Its partition: cluster 0. -/
def frontPart : Partition where
  id := 1
  vf := 1
  clusters := [0]
  inbox := 0
  fault := 0
  control := 0
  kvmax := 0
  slice := 12000000
  hand := 0
  debug := false
  entries := [0]
  meas := List.replicate 64 0
  points := []
  taph := ⟨false, false, 0, 0⟩
  tapq := []
  seqbase := 0
  seqen := false
  fabgrp := 1
  ptbr := 0
  asid := 0
  trace := none

/-- Thread 0 of core 0 as its launch starts it. -/
def frontThread : Thread := { Thread.init with level := .s, run := { Run.idle with life := .live } }

/-- The state in which thread 0 of core 0 runs the front kernel and fetches the bytes at local address 0 next. -/
def State.placed (s : State) (bs : List Byte) : State :=
  let s1 : State :=
    { s with
      agenda := []
      domtab := assocPut s.domtab 0 ⟨[0], 0xFFFFFFFF, true, some 1⟩
      parts := frontPart :: s.parts.filter fun p => p.id != 1
      launches := frontLaunch :: s.launches.filter fun l => l.id != 0 }
  s1.onCore 0 fun c =>
    { c with
      thr := set4 (Vector.replicate 4 Thread.init) 0 frontThread
      last := 3
      launch := some 0
      mem := { c.mem with lmem := cellsWrite c.mem.lmem 0 bs } }

end Sys2Proof.Machine
end

