-- ==== Sys2Proof/Machine/Engine.lean ====
section
/-!
DEFINITION. What every engine command shares: queues, issue, failures, ranges (spec/10 R202-R207; spec/11 R218, R219,
R240).
-/
set_option linter.constructorNameAsVariable false

namespace Sys2Proof.Machine

/-- ENG of spec/10 R207. -/
def engCode : Eng → Nat
  | .vs => 0
  | .mx => 1
  | .cp => 2

/-- TVAL of an engine failure (spec/10 R207). -/
def engTval (e : Eng) (why addr : Nat) : Word := packWord [(engCode e, 62), (why, 55), (addr % 2 ^ 55, 0)]

/-- The queue of an engine. -/
def Engines.queue (g : Engines) : Eng → List Cmd
  | .vs => g.vs
  | .mx => g.mx
  | .cp => g.cp

/-- Sets the queue of an engine. -/
def Engines.setQueue (g : Engines) (e : Eng) (q : List Cmd) : Engines :=
  match e with
  | .vs => { g with vs := q }
  | .mx => { g with mx := q }
  | .cp => { g with cp := q }

/-- The queue of an engine of a core. -/
def State.queue (s : State) (n : Nat) (e : Eng) : List Cmd := (s.core n).eng.queue e

/-- Changes the queue of an engine. -/
def State.onQueue (s : State) (n : Nat) (e : Eng) (f : List Cmd → List Cmd) : State :=
  s.onCore n fun c => { c with eng := c.eng.setQueue e (f (c.eng.queue e)) }

/-- Changes one command. -/
def State.onCmd (s : State) (n : Nat) (e : Eng) (id : Nat) (f : Cmd → Cmd) : State :=
  s.onQueue n e fun q => q.map fun c => if c.id = id then f c else c

/-- A rounding mode as a command keeps it. -/
def rndOf : RMode → Rnd
  | .rne => .rne
  | .rz => .rz
  | .rdn => .rdn
  | .rup => .rup
  | .rmm => .rmm

/-- The mode that a command keeps. -/
def modeKept : Rnd → RMode
  | .rz => .rz
  | .rdn => .rdn
  | .rup => .rup
  | .rmm => .rmm
  | _ => .rne

/-- A command of the executing instruction, with the values of its registers (spec/11 R218.3). -/
def State.cmd (s : State) (i : Instr) (d a b c x : Word) (m : RMode) : Cmd where
  id := 0
  thr := s.ctx.thr.toNat
  instr := i
  word := s.ctx.word
  pc := s.ctx.a
  d := d
  a := a
  b := b
  c := c
  x := x
  rnd := rndOf m
  ptrs := []
  rows := []
  bind := none
  notify := none
  level := s.level
  regs := s.outstanding s.ctx.core s.ctx.thr
  tag := s.ctx.tag
  ran := false
  consumed := false
  fail := none
  flags := 0
  got := []
  away := []
  out := []
  moved := false
  told := false

/-- A command that has passed its checks enters the queue, its tag pending (spec/11 R218.5). -/
def State.enter (s : State) (e : Eng) (c : Cmd) : State :=
  let (id, s) := s.fresh
  ((s.onQueue s.ctx.core e fun q => q ++ [{ c with id := id }]).track id).retire

/-- Issue of a command (spec/11 R218): a slot, the checks (the TVAL of the first that fails), entry. -/
def State.command (s : State) (e : Eng) (bad : Option Word) (c : Cmd) : State :=
  if 2 ≤ (s.queue s.ctx.core e).length then s.stall .queue
  else
    match bad with
    | some v => s.trap .engine v
    | none => s.enter e c

/-! ### Ranges -/

/-- The first byte of a range that is not inside the own local window (spec/11 R219, WHY 0x02). -/
def State.localBad (s : State) (n a len : Nat) : Option Nat :=
  if len = 0 then none
  else if s.localEnd n ≤ a then some a
  else if s.localEnd n < a + len then some (s.localEnd n)
  else none

/-- The first byte of a copy endpoint that breaks the checks of R240; an empty range breaks none. -/
def State.rangeBad (s : State) (n : Nat) (a : Word) (len : Nat) : Option Nat :=
  let x := a.toNat
  if len = 0 then none
  else
    match zoneOf x with
    | .hole => some x
    | .own off => s.localBad n off len
    | .peer k off =>
      if !s.inPart n k || s.shadow k || s.localEnd k ≤ off then some x
      else if s.localEnd k < off + len then some (x - off + s.localEnd k)
      else none
    | .global => if globalTop < x + len then some globalTop else none

/-- The lowest of addresses. -/
def lowest (l : List Nat) : Option Nat := l.foldl (fun m x => match m with | some y => some (min x y) | none => some x) none

/-- The TVAL of a range check over several ranges. -/
def rangeTval (e : Eng) (l : List (Option Nat)) : Option Word :=
  (lowest (l.filterMap id)).map fun a => engTval e 2 a

/-! ### Running and completing -/

/-- The next command of a queue to run: every command ahead of it has run (spec/10 R203). -/
def State.toRun (s : State) (n : Nat) (e : Eng) : Option Cmd := (s.queue n e).find? fun c => !c.ran

/-- A command whose bytes have left their source has run once its writes into the fabric window are acknowledged. -/
def Cmd.settle (c : Cmd) : Cmd :=
  if c.moved && c.out.isEmpty && c.away.isEmpty then { c with ran := true, consumed := true } else c

/-- A command has performed its last write, those into the fabric window apart. -/
def State.ran (s : State) (n : Nat) (e : Eng) (id : Nat) (fail : Option Word) (flags : Flags) : State :=
  s.onCmd n e id fun c => { c with moved := true, fail := fail, flags := flags }.settle

/-- Changes a command, whichever queue it is in. -/
def State.onAnyCmd (s : State) (n id : Nat) (f : Cmd → Cmd) : State :=
  [Eng.vs, .mx, .cp].foldl (fun s e => s.onCmd n e id f) s

/-- Have the accesses that came before a command's issue been performed (spec/10 R204)? Those of a remote command are its
issuer's, a thread of another core. -/
def State.mayBegin (s : State) (n : Nat) (c : Cmd) : Bool :=
  if c.thr < 4 then
    let now := s.outstanding n (tid c.thr)
    c.regs.all fun id => !now.contains id
  else s.cores.all fun k => (List.range 4).all fun t =>
    let now := s.outstanding k.1 (tid t)
    c.regs.all fun id => !now.contains id

/-! ### Accesses of a command in the fabric window (spec/22 R406, R409, R410) -/

/-- Sends remote reads for a command: those bytes of `pas` that no access of its own is fetching, as its credits allow. -/
def State.fetchAway (s : State) (n : Nat) (c : Cmd) (pas : List Nat) : State :=
  let asked (pa : Nat) : Bool := s.fabric.remote.any fun r => r.cmd = some c.id && r.pa ≤ pa && pa < r.pa + r.size
  (runsOf (pas.filter fun pa => !asked pa)).foldl (fun s r =>
    if s.credits n = 0 then s
    else
      let (s, id) := s.sendRemote n (tid c.thr) r.1 r.2 none none none (some c.id)
      s.onAnyCmd n c.id fun c => { c with away := c.away ++ [id] }) s

/-- Sends the runs of bytes that a command has yet to write there, as its credits allow. -/
def State.sendOut (s : State) (n : Nat) (c : Cmd) : State :=
  c.out.foldl (fun s r =>
    if s.credits n = 0 then s
    else
      let (s, id) := s.sendRemote n (tid c.thr) r.1 r.2.length none (some r.2) none (some c.id)
      s.onAnyCmd n c.id fun c => { c with away := c.away ++ [id], out := c.out.erase r }) s

end Sys2Proof.Machine
end

