-- ==== Sys2Proof/Machine/Copy.lean ====
section
/-!
DEFINITION. Copy commands (spec/11 R240-R244): issue of CPY, CPYN, CPY2D, CPYG and CPYE, and the moving of bytes.
-/
set_option linter.constructorNameAsVariable false

namespace Sys2Proof.Machine

/-! ### Issue -/

/-- Length of a copy: the low 32 bits. -/
def len32 (x : Word) : Nat := (x.extractLsb' 0 32).toNat

/-- Issue of a copy command with its range checks. -/
def State.copy (s : State) (i : Instr) (bad : Option Word) (d a b c x : Word) : State :=
  s.command .cp bad (s.cmd i d a b c x .rne)

/-- The range checks of a source and a destination of one length (R240). -/
def State.copyBad (s : State) (d a : Word) (len : Nat) : Option Word :=
  rangeTval .cp [s.rangeBad s.ctx.core a len, s.rangeBad s.ctx.core d len]

/-- CPY (spec/11 R241): Queues a byte-range copy. -/
def execCpy (rd ra rb : Reg) (s : State) : Res :=
  .next (s.copy (.cpy rd ra rb) (s.copyBad (s.rd rd) (s.rd ra) (len32 (s.rd rb))) (s.rd rd) (s.rd ra) (s.rd rb) 0 0)

/-- The checks of a notify address (R241). -/
def State.notifyBad (s : State) (a : Word) : Option Word :=
  if a.toNat % 4 != 0 then some (engTval .cp 7 a.toNat) else rangeTval .cp [s.rangeBad s.ctx.core a 4]

/-- CPYN (spec/11 R241): Queues a byte-range copy followed by a notify word. -/
def execCpyn (rd ra rb rc : Reg) (val : BitVec 32) (s : State) : Res :=
  .next (s.copy (.cpyn rd ra rb rc val)
    ((s.copyBad (s.rd rd) (s.rd ra) (len32 (s.rd rb))).orElse fun _ => s.notifyBad (s.rd rc))
    (s.rd rd) (s.rd ra) (s.rd rb) (s.rd rc) (val.setWidth 64))

/-- The rows of a rectangle: source and destination of each (R242). -/
def rectRows (d a shape pitch : Word) : List (Word × Word) :=
  let sp : Word := (pitch.extractLsb' 0 32).signExtend 64
  let dp : Word := (pitch.extractLsb' 32 32).signExtend 64
  (List.range (shape.extractLsb' 32 32).toNat).map fun r =>
    (a + BitVec.ofNat 64 r * sp, d + BitVec.ofNat 64 r * dp)

/-- CPY2D (spec/11 R242): Queues a rectangle copy. -/
def execCpy2d (rd ra rb rc : Reg) (s : State) : Res :=
  let len := len32 (s.rd rb)
  let rows := if len = 0 then [] else rectRows (s.rd rd) (s.rd ra) (s.rd rb) (s.rd rc)
  let bad := rangeTval .cp
    (rows.flatMap fun p => [s.rangeBad s.ctx.core p.1 len, s.rangeBad s.ctx.core p.2 len])
  .next (s.copy (.cpy2d rd ra rb rc) bad (s.rd rd) (s.rd ra) (s.rd rb) (s.rd rc) 0)

/-- CPYG (spec/11 R243): Queues a gather through an index list. -/
def execCpyg (rd ra rb rc : Reg) (size : BitVec 16) (s : State) : Res :=
  let n := len32 (s.rd rc)
  let list := s.localBad s.ctx.core (s.rd rb).toNat (4 * n)
  .next (s.copy (.cpyg rd ra rb rc size)
    (rangeTval .cp [list, s.rangeBad s.ctx.core (s.rd rd) (n * size.toNat)])
    (s.rd rd) (s.rd ra) (s.rd rb) (s.rd rc) 0)

/-- The matrix operation that a CPYE binds to (R244): the thread's most recent with the tag whose event is to come. -/
def State.bound (s : State) (tag : BitVec 3) : Option Nat :=
  (((s.queue s.ctx.core .mx).reverse.find? fun c => c.thr = s.ctx.thr.toNat && c.tag = tag.toNat).filter fun c =>
    !c.consumed).map Cmd.id

/-- CPYE (spec/11 R244): Queues a copy that waits for a matrix operation's operands-consumed event. -/
def execCpye (rd ra rb : Reg) (tag : BitVec 3) (s : State) : Res :=
  .next (s.command .cp (s.copyBad (s.rd rd) (s.rd ra) (len32 (s.rd rb)))
    { s.cmd (.cpye rd ra rb tag) (s.rd rd) (s.rd ra) (s.rd rb) 0 0 .rne with bind := s.bound tag })

/-! ### Moving bytes (R240) -/

/-- The places of a range as a core's engine translates it page by page; none where a page faults. The Bool says that a
walk must wait. -/
def State.pages (s : State) (n : Nat) (level : Level) (acc : Acc) :
    Nat → Nat → Nat → State × List (Option Place) × Bool
  | 0, _, _ => (s, [], false)
  | fuel + 1, va, len =>
    if len = 0 then (s, [], false)
    else
      let here := min len (0x10000 - va % 0x10000)
      match s.reach n level acc va here with
      | (s, .wait) => (s, [], true)
      | (s, .fault) =>
        let r := s.pages n level acc fuel (va + here) (len - here)
        (r.1, List.replicate here none ++ r.2.1, r.2.2)
      | (s, .ok ps) =>
        let r := s.pages n level acc fuel (va + here) (len - here)
        (r.1, ps.map some ++ r.2.1, r.2.2)

/-- The place of each byte of an endpoint, none where it faults; the Bool says that a walk must wait. -/
def State.endpoint (s : State) (n : Nat) (level : Level) (acc : Acc) (a : Word) (len : Nat) :
    State × List (Option Place) × Bool :=
  match zoneOf a.toNat with
  | .own off => (s, (List.range len).map fun k => some (.own (off + k)), false)
  | .peer c off => (s, (List.range len).map fun k => some (.peer c (off + k)), false)
  | .hole => (s, List.replicate len none, false)
  | .global => s.pages n level acc (len / 0x10000 + 2) a.toNat len

/-- The physical addresses among places. -/
def physOf (ps : List Place) : List Nat :=
  ps.filterMap fun p => match p with | .glob pa _ => some pa | .fab pa => some pa | _ => none

/-- The global addresses among places that this module's homes serve. -/
def homesOf (ps : List Place) : List Nat := ps.filterMap fun p => match p with | .glob pa _ => some pa | _ => none

/-- Can an engine reach places now: no peer's domain is frozen apart (spec/16 R313), and home can serve the global ones? -/
def State.reachable (s : State) (n : Nat) (ps : List Place) : Bool :=
  (ps.all fun p => match p with | .peer k _ => !s.shut n k | _ => true) && s.homeFreeAll (homesOf ps)

/-- The bytes of the fabric window that a command has read. -/
def State.gotOf (s : State) (n id : Nat) : List (Nat × Byte × Bool) :=
  (([Eng.vs, .mx, .cp].flatMap (s.queue n)).filter fun c => c.id = id).flatMap Cmd.got

/-- A byte as a command reads it: local and peer memory as it stands, global memory at home (R240), the fabric window as
its remote reads have given it.
(log 76: DEDUCED) -/
def State.engineByte (s : State) (n id : Nat) : Place → Byte × Bool
  | .own off => (cellsGet (s.core n).mem.lmem off, s.lpoison n off 1)
  | .peer k off => s.peerByte k off
  | .glob pa _ => s.homeByte pa
  | .fab pa => (((s.gotOf n id).find? fun x => x.1 = pa).map Prod.snd).getD (s.homeByte pa)
  | .ctl off => (s.ctlByte n off, false)

/-- The issuing core's own copies of written words become invalid (R240). -/
def State.dropOwn (s : State) (n : Nat) (pas : List Nat) : State :=
  pas.foldl (fun s pa =>
    let w := wordOf pa
    s.onLine (s.agentOf n pa) (lineOf pa) fun l =>
      if l.sw then l else { l with words := set32 l.words w { get32 l.words w with st := .i } }) s

/-- Writes bytes of global memory for an engine (R240): on a hardware-coherent page at home, without an owner; on a
software-managed page into home's copy alone. Words that take a poisoned byte become poisoned. -/
def State.engineGlobal (s : State) (n : Nat) (bs : List (Nat × Bool × Byte × Bool)) : State :=
  let coh := bs.filter fun b => b.2.1
  let soft := bs.filter fun b => !b.2.1
  let s1 := (s.homeWrite (coh.map fun b => (b.1, b.2.2.1))).dropOwn n (coh.map fun b => b.1)
  let s2 := (linesOf (soft.map fun b => s.norm b.1)).foldl (fun s p =>
    s.mergeHome p.1 ((soft.filter fun b => lineOf (s.norm b.1) = p.1).map fun b => (s.norm b.1, b.2.2.1))) s1
  s2.homePoison ((bs.filter fun b => b.2.2.2).map fun b => b.1)

/-- Bytes that a command writes into the fabric window wait to be sent, one remote store for each run. -/
def State.engineAway (s : State) (n id : Nat) (bs : List (Nat × Byte × Bool)) : State :=
  if bs.isEmpty then s
  else
    let runs := (runsOf (bs.map fun b => b.1)).map fun r =>
      (r.1, (List.range r.2).map fun k => ((bs.find? fun b => b.1 = r.1 + k).map Prod.snd).getD (0, false))
    s.onAnyCmd n id fun c => { c with
      out := c.out ++ runs
      got := (c.got.filter fun g => !(bs.any fun b => b.1 = g.1)) ++ bs }

/-- Writes bytes into a core's local memory for an engine, with their poison (spec/10 R195). -/
def State.engineLocal (s : State) (k off : Nat) (bs : List (Byte × Bool)) : State :=
  let s1 := s.lwrite k off (bs.map Prod.fst) false
  ((List.range bs.length).filter fun i => (bs.getD i (0, false)).2).foldl (fun s i => s.poisonRow k ((off + i) / 16)) s1

/-- Writes consecutive bytes at their places, with their poison (R240, spec/10 R195), for command `id`. What becomes of a
write to a core that no context occupies is free (spec/05 R123, log 12: DESIGN CHOICE). -/
def State.engineWrite (s : State) (n id : Nat) (ps : List Place) (bs : List (Byte × Bool)) : State :=
  match ps with
  | [] => s
  | .own off :: _ => s.engineLocal n off bs
  | .peer k off :: _ =>
    if s.occupied k || s.choice (2 ^ 56 + k * 0x10000 + off) then s.engineLocal k off bs else s
  | ps =>
    let s1 := (s.ctlWrite n (ps.zip (bs.map Prod.fst))).engineGlobal n ((ps.zip bs).filterMap fun p =>
      match p.1 with
      | .glob pa c => some (pa, c, p.2.1, p.2.2)
      | _ => none)
    s1.engineAway n id ((ps.zip bs).filterMap fun p => match p.1 with | .fab pa => some (pa, p.2) | _ => none)

/-- How moving a range ended; `away`: bytes of the fabric window have first to be read. -/
inductive Moved where
  | done
  | fail (why addr : Nat)
  | wait
  | away (pas : List Nat)
  deriving DecidableEq, Repr

/-- The lowest index of a place that is not there. -/
def firstGap (ps : List (Option Place)) : Option Nat := (List.range ps.length).find? fun k => (ps.getD k none).isNone

/-- Copies `len` bytes (R240): in ascending order, in descending order when the ranges overlap and the destination lies
above. A page fault ends it (spec/10 R207): bytes before the fault, in that order, are written. -/
def State.move (s : State) (n : Nat) (c : Cmd) (dst src : Word) (len : Nat) : State × Moved :=
  let (s, from', w1) := s.endpoint n c.level .read src len
  let (s, dst0, w2) := s.endpoint n c.level .write dst len
  if w1 || w2 then (s, .wait)
  else
    let down := src.toNat < dst.toNat && dst.toNat < src.toNat + len
    let ok (k : Nat) : Bool := (from'.getD k none).isSome && (dst0.getD k none).isSome
    let ks := List.range len
    let stop : Option Nat := (if down then ks.reverse else ks).find? fun k => !ok k
    let (lo, hi) : Nat × Nat := match stop with
      | none => (0, len)
      | some k => if down then (k + 1, len) else (0, k)
    let src' := ((from'.drop lo).take (hi - lo)).filterMap id
    let dst' := ((dst0.drop lo).take (hi - lo)).filterMap id
    let got := s.gotOf n c.id
    let missing := (fabrics src').filter fun pa => !got.any fun g => g.1 = pa
    if !s.reachable n (src' ++ dst') then (s.snoopAll (homesOf (src' ++ dst')), .wait)
    else if !missing.isEmpty then (s, .away missing)
    else
      let bs := src'.map (s.engineByte n c.id)
      let s1 := s.engineWrite n c.id dst' bs
      match stop with
      | none => (s1, .done)
      | some k =>
        let (base, ps) := if (from'.getD k none).isNone then (src.toNat, from') else (dst.toNat, dst0)
        (s1, .fail 1 (base + (if down then (firstGap ps).getD k else k)))

/-- Copies several ranges in order, until one fails; a wait undoes nothing of what came before, so it is answered before
any byte moves. -/
def State.moves (s : State) (n : Nat) (c : Cmd) : List (Word × Word × Nat) → State × Moved
  | [] => (s, .done)
  | (d, a, len) :: rest =>
    match s.move n c d a len with
    | (s, .done) => s.moves n c rest
    | r => r

/-- The elements of a CPYG (R243), until a poisoned index or a source range that fails. The address of a source element
does not wrap (spec/00 R9): one past 2^64 lies in no window. -/
def State.gatherMoves (s : State) (n : Nat) (c : Cmd) (size : Nat) : List Nat → State × Moved
  | [] => (s, .done)
  | k :: rest =>
    let index := c.b.toNat + 4 * k
    if s.lpoison n index 4 then (s, .fail 3 index)
    else
      let src := c.a.toNat + leNat (s.lmem n index 4) * size
      match if 2 ^ 64 ≤ src then some src else s.rangeBad n (BitVec.ofNat 64 src) size with
      | some x => (s, .fail 2 x)
      | none =>
        match s.move n c (BitVec.ofNat 64 (c.d.toNat + k * size)) (BitVec.ofNat 64 src) size with
        | (s, .done) => s.gatherMoves n c size rest
        | r => r

/-- A run that must wait has moved nothing; what it has asked for stays asked: snoops of the host, pages to be
fetched. -/
def State.waits (s r : State) : State :=
  { s with
    kvpages := s.kvpages.map fun p => if r.kvpages.any (fun x => x.pa = p.pa && x.fetch) then { p with fetch := true } else p
    mem := { s.mem with snoops := r.mem.snoops } }

/-- The run of a copy command that is none of the K/V commands: the state and how it ended. A run that must wait moves
nothing. -/
def State.runCopy (s : State) (n : Nat) (c : Cmd) : State × Moved :=
  match c.instr with
  | .cpy _ _ _ | .cpyn _ _ _ _ _ | .cpye _ _ _ _ => s.moves n c [(c.d, c.a, len32 c.b)]
  | .cpy2d _ _ _ _ =>
    let len := len32 c.b
    let rows : List (Word × Word × Nat) := (rectRows c.d c.a c.b c.c).map fun (p : Word × Word) => (p.2, p.1, len)
    s.moves n c (if len = 0 then [] else rows)
  | .cpyg _ _ _ _ size => s.gatherMoves n c size.toNat (List.range (len32 c.c))
  | _ => (s, .done)

/-- Can the head of the copy queue begin (R203, R240, R244)? Its bound matrix operation has signalled, and the
accesses outstanding at its issue have been performed. -/
def State.copyReady (s : State) (n : Nat) (c : Cmd) : Bool :=
  let waiting (id : Nat) : Bool := (s.queue n .mx).any fun m => m.id = id && !m.consumed
  (match c.bind with | some id => !waiting id | none => true)
  && s.mayBegin n c

/-! ### Notify words (spec/10 R205; R238, R241) -/

/-- Writes a notify word of command `id`: the state, and whether a page fault stopped it; `wait` when the word cannot be
written yet. -/
def State.notify (s : State) (n id : Nat) (level : Level) (a : Word) (bs : List Byte) : State × Moved :=
  let (s, dst0, w) := s.endpoint n level .write a bs.length
  if w then (s, .wait)
  else
    match firstGap dst0 with
    | some k => (s, .fail 1 (a.toNat + k))
    | none =>
      let ps := dst0.filterMap fun p => p
      if !s.reachable n ps then (s.snoopAll (homesOf ps), .wait)
      else (s.engineWrite n id ps (bs.map fun b => (b, false)), .done)

end Sys2Proof.Machine
end

