-- ==== Sys2Proof/Machine/Special.lean ====
section
/-!
DEFINITION. Special functions rounded once from the exact value (spec/06 R164, spec/17 R328, spec/18 R370). A value
is enclosed between two integers over 2^P, with P = 640, or 1,280 when the first enclosure does not decide the
rounding; the functions' exact values at the remaining dyadic arguments are irrational, so a decided enclosure is the
exact rounding (log 13: DEDUCED).
-/
namespace Sys2Proof.Machine

/-- A dyadic number over 2^P, rounded down. -/
def fix (p : Nat) (d : Dy) : Int :=
  let k := d.e + p
  if 0 ≤ k then shl d.n k else d.n / (2 : Int) ^ (-k).toNat

/-- Product of two fixed-point numbers. -/
def fixMul (p : Nat) (a b : Int) : Int := a * b / (2 : Int) ^ p

/-- Quotient of two fixed-point numbers. -/
def fixDiv (p : Nat) (a b : Int) : Int := a * (2 : Int) ^ p / b

/-- The sum from term number `k` on of a series: each term is the one before it times `x2`, over `den k`; `fuel`
bounds the terms. -/
def series (p : Nat) (x2 : Int) (den : Nat → Int) : Nat → Nat → Int → Int
  | 0, _, _ => 0
  | fuel + 1, k, t => t + series p x2 den fuel (k + 1) (fixMul p t x2 / den k)

/-- The sum of t^(2k+1) / (2k+1) with alternating signs when `alt` (arctangent), else the inverse hyperbolic tangent;
`pw` is the current power. -/
def oddSeries (p : Nat) (x2 : Int) (alt : Bool) : Nat → Nat → Int → Int
  | 0, _, _ => 0
  | fuel + 1, k, pw =>
    let t := pw / (2 * k + 1 : Int)
    (if alt && k % 2 = 1 then -t else t) + oddSeries p x2 alt fuel (k + 1) (fixMul p pw x2)

/-- atanh z, |z| at most 1/3. -/
def fixAtanh (p : Nat) (z : Int) : Int := oddSeries p (fixMul p z z) false (p / 3 + 8) 0 z

/-- arctan (1/n). -/
def fixAtanInv (p n : Nat) : Int :=
  let z := (2 : Int) ^ p / n
  oddSeries p (fixMul p z z) true (p / 4 + 8) 0 z

/-- ln 2. -/
def fixLn2 (p : Nat) : Int := 2 * fixAtanh p ((2 : Int) ^ p / 3)

/-- pi. -/
def fixPi (p : Nat) : Int := 16 * fixAtanInv p 5 - 4 * fixAtanInv p 239

/-- e^r for a small r. -/
def fixExpSmall (p : Nat) (r : Int) : Int :=
  series p r (fun k => (k + 1 : Int)) (p / 4 + 16) 0 ((2 : Int) ^ p)

/-- ln of a positive fixed-point number. -/
def fixLn (p : Nat) (x : Int) : Int :=
  let k : Int := (Nat.log2 x.natAbs : Int) - p
  let y := if 0 ≤ k then x / (2 : Int) ^ k.toNat else x * (2 : Int) ^ (-k).toNat
  let one := (2 : Int) ^ p
  2 * fixAtanh p (fixDiv p (y - one) (y + one)) + k * fixLn2 p

/-- sin r and cos r for |r| at most 4. -/
def fixSin (p : Nat) (r : Int) : Int :=
  series p (-(fixMul p r r)) (fun k => ((2 * k + 2) * (2 * k + 3) : Int)) (p / 4 + 16) 0 r

def fixCos (p : Nat) (r : Int) : Int :=
  series p (-(fixMul p r r)) (fun k => ((2 * k + 1) * (2 * k + 2) : Int)) (p / 4 + 16) 0 ((2 : Int) ^ p)

/-- A positive or negative value known between `lo` and `hi` over 2^p · 2^-x (x shifts the exponent). -/
structure Encl where
  lo : Int
  hi : Int
  e  : Int
  deriving DecidableEq, Repr

/-- An enclosure around a computed value: 2^40 units on either side cover every truncation above. -/
def around (p : Nat) (v : Int) (x : Int) : Encl := ⟨v - 2 ^ 40, v + 2 ^ 40, x - p⟩

/-- Rounds a value strictly inside an enclosure, when the enclosure decides it. -/
def Encl.round (f : FFmt) (rm : RMode) (c : Encl) : Option (Nat × Flags) :=
  if 0 < c.lo then
    let a := roundMag f rm false c.lo.toNat c.e true
    let b := roundMag f rm false (c.hi - 1).toNat c.e true
    if a = b then some a else none
  else if c.hi < 0 then
    let a := roundMag f rm true (-c.hi).toNat c.e true
    let b := roundMag f rm true (-c.lo - 1).toNat c.e true
    if a = b then some (withSign f true a.1, a.2) else none
  else none

/-- The rounding at 640 bits, or at 1,280. -/
def decide2 (f : FFmt) (rm : RMode) (g : Nat → Encl) : Nat × Flags :=
  match (g 640).round f rm with
  | some r => r
  | none => ((g 1280).round f rm).getD (f.dnan, flagNV)

/-- Rounds a magnitude a little above (`up`) or below a dyadic one. -/
def nearly (f : FFmt) (rm : RMode) (s : Bool) (m : Nat) (e : Int) (up : Bool) : Nat × Flags :=
  let big := m * 2 ^ 2000
  let (mag, fl) := roundMag f rm s (if up then big else big - 1) (e - 2000) true
  (withSign f s mag, fl)

/-- Is |d| below 2^k (d not zero)? -/
def below (d : Dy) (k : Int) : Bool := d.n = 0 || d.e + (Nat.log2 d.n.natAbs : Int) < k

/-- e^d for an exact d (function 8, and VSEXP's exact difference, spec/11 R222). -/
def expDy (f : FFmt) (rm : RMode) (d : Dy) : Nat × Flags :=
  if d.n = 0 then roundDy f rm ⟨1, 0⟩ false
  else if below d (-160) then nearly f rm false 1 0 (0 < d.n)
  else if !below d 13 then (if 0 < d.n then roundMag f rm false 1 5000 true else roundMag f rm false 1 (-5000) true)
  else decide2 f rm fun p =>
    let x := fix p d
    let n := (x * 2 / fixLn2 p + 1) / 2
    around p (fixExpSmall p (x - n * fixLn2 p)) n

/-- 2^d. -/
def exp2Dy (f : FFmt) (rm : RMode) (d : Dy) : Nat × Flags :=
  if d.n = 0 then roundDy f rm ⟨1, 0⟩ false
  else if below d (-160) then nearly f rm false 1 0 (0 < d.n)
  else if !below d 14 then (if 0 < d.n then roundMag f rm false 1 20000 false else roundMag f rm false 1 (-20000) false)
  else
    let whole := fix 0 d
    if fix 200 d = whole * (2 : Int) ^ 200 then roundDy f rm ⟨1, whole⟩ false
    else decide2 f rm fun p =>
      around p (fixExpSmall p (fixMul p (fix p d - whole * (2 : Int) ^ p) (fixLn2 p))) whole

/-- log2 of a positive m · 2^e. -/
def log2Dy (f : FFmt) (rm : RMode) (m : Nat) (e : Int) : Nat × Flags :=
  let k := Nat.log2 m
  if m = 2 ^ k then roundDy f rm ⟨e + k, 0⟩ false
  else decide2 f rm fun p =>
    let y : Int := (m : Int) * (2 : Int) ^ p / (2 : Int) ^ k
    around p (fixDiv p (fixLn p y) (fixLn2 p) + (e + k) * (2 : Int) ^ p) 0

/-- sin or cos of pi · d, for d that is no multiple of 1/2. -/
def trigPi (f : FFmt) (rm : RMode) (cos : Bool) (d : Dy) : Nat × Flags :=
  if below d (-160) then
    (if cos then nearly f rm false 1 0 false
     else decide2 f rm fun p =>
       let v := fixPi p * d.n
       if 0 < d.n then ⟨v - (2 ^ 40 + 1) * d.n, v + 2 ^ 40 * d.n, d.e - p⟩
       else ⟨v + 2 ^ 40 * d.n, v - (2 ^ 40 + 1) * d.n, d.e - p⟩)
  else decide2 f rm fun p =>
    let x := fix p d
    let n := (x + (2 : Int) ^ p) / (2 : Int) ^ (p + 1)
    let r := fixMul p (x - n * (2 : Int) ^ (p + 1)) (fixPi p)
    around p (if cos then fixCos p r else fixSin p r) 0

/-- Twice a dyadic number, when that is an integer. -/
def halves (d : Dy) : Option Int :=
  if 0 ≤ d.e + 1 then some (shl d.n (d.e + 1))
  else if d.n % (2 : Int) ^ (-(d.e + 1)).toNat = 0 then some (d.n / (2 : Int) ^ (-(d.e + 1)).toNat) else none

/-- tanh of a non-zero d; from 2^7 on it lies within 2^-368 of ±1. -/
def tanhDy (f : FFmt) (rm : RMode) (d : Dy) : Nat × Flags :=
  let s := decide (d.n < 0)
  if below d (-160) then nearly f rm s d.n.natAbs d.e false
  else if !below d 7 then nearly f rm s 1 0 false
  else decide2 f rm fun p =>
    let q := p + p
    let x := 2 * fix q d
    let n := (x * 2 / fixLn2 q + 1) / 2
    let r := fixExpSmall q (x - n * fixLn2 q)
    let e2 := if 0 ≤ n then r * (2 : Int) ^ n.toNat else r / (2 : Int) ^ (-n).toNat
    let one := (2 : Int) ^ q
    around p (fixDiv q (e2 - one) (e2 + one) / (2 : Int) ^ p) 0

/-- 1 / (1 + e^-d) of a non-zero d; from 2^8 on it lies within 2^-368 of 1. -/
def sigmoidDy (f : FFmt) (rm : RMode) (d : Dy) : Nat × Flags :=
  if below d (-160) then nearly f rm false 1 (-1) (0 < d.n)
  else if 0 < d.n && !below d 8 then nearly f rm false 1 0 false
  else if !below d 13 then roundMag f rm false 1 (-5000) true
  else decide2 f rm fun p =>
    let x := fix p d
    let n := (x * 2 / fixLn2 p + 1) / 2
    let r := fixExpSmall p (x - n * fixLn2 p)
    let one := (2 : Int) ^ p
    if 0 ≤ n then
      let inv := if n.toNat ≤ p then (2 : Int) ^ (p - n.toNat) else 0
      around p (fixDiv p r (r + inv)) 0
    else around p (fixDiv p r (one + r / (2 : Int) ^ (-n).toNat)) n

/-- 1 / sqrt (m · 2^e). -/
def rsqrtDy (f : FFmt) (rm : RMode) (m : Nat) (e : Int) : Nat × Flags :=
  let k : Nat := 2 * (f.fb + 4) + Nat.log2 m + 2
  let k := if (e + k) % 2 = 0 then k else k + 1
  let r := isqrt (2 ^ k / m)
  roundMag f rm false r (-(e + k) / 2) (r * r * m != 2 ^ k)

/-- A special function at a value (spec/06 R164). -/
def sfuEval (f : FFmt) (rm : RMode) (fn : SfuFn) (x : Nat) : Nat × Flags :=
  let v := unpack f x
  nanOr f [v] <|
    match fn, v with
    | .recip, .inf s => (withSign f s 0, 0)
    | .recip, .fin s 0 _ => (withSign f s f.inf, flagDZ)
    | .recip, .fin s m e =>
      let (q, e', sticky) := quotient 1 0 m e (f.fb + 3)
      let (mag, fl) := roundMag f rm s q e' sticky
      (withSign f s mag, fl)
    | .recip, .nan _ _ => (f.dnan, 0)
    | .rsqrt, .inf false => (0, 0)
    | .rsqrt, .fin s 0 _ => (withSign f s f.inf, flagDZ)
    | .rsqrt, .fin false m e => rsqrtDy f rm m e
    | .rsqrt, _ => (f.dnan, flagNV)
    | .exp2, .inf s => (if s then 0 else f.inf, 0)
    | .exp2, _ => exp2Dy f rm v.dy
    | .log2, .inf false => (f.inf, 0)
    | .log2, .fin _ 0 _ => (withSign f true f.inf, flagDZ)
    | .log2, .fin false m e => log2Dy f rm m e
    | .log2, _ => (f.dnan, flagNV)
    | .sinPi, .inf _ => (f.dnan, flagNV)
    | .sinPi, _ =>
      (match halves v.dy with
        | some h => if h % 2 = 0 then (withSign f v.sign 0, 0) else roundDy f rm ⟨if h % 4 = 1 then 1 else -1, 0⟩ false
        | none => trigPi f rm false v.dy)
    | .cosPi, .inf _ => (f.dnan, flagNV)
    | .cosPi, _ =>
      (match halves v.dy with
        | some h => if h % 2 = 1 then (0, 0) else roundDy f rm ⟨if h % 4 = 0 then 1 else -1, 0⟩ false
        | none => trigPi f rm true v.dy)
    | .tanh, .inf s => roundDy f rm ⟨if s then -1 else 1, 0⟩ false
    | .tanh, .fin s 0 _ => (withSign f s 0, 0)
    | .tanh, _ => tanhDy f rm v.dy
    | .sigmoid, .inf s => if s then (0, 0) else roundDy f rm ⟨1, 0⟩ false
    | .sigmoid, .fin _ 0 _ => roundDy f rm ⟨1, -1⟩ false
    | .sigmoid, _ => sigmoidDy f rm v.dy
    | .exp, .inf s => (if s then 0 else f.inf, 0)
    | .exp, _ => expDy f rm v.dy

/-- cos or sin of q · f in FP32, rounded to nearest (spec/17 R328); `d` is the exact product. -/
def trigDy (cos : Bool) (d : Dy) : Nat :=
  if d.n = 0 then (if cos then 0x3F800000 else 0)
  else (decide2 fmtF32 .rne fun p =>
    let q := p + 320
    let x := fix q d
    let pi2 := 2 * fixPi q
    let n := (2 * x + pi2) / (2 * pi2)
    let r := x - n * pi2
    let v := (if cos then fixCos q r else fixSin q r) / (2 : Int) ^ 320
    around p v 0).1

/-- -ln(-ln u) for u = (x + 1/2) / 2^32, rounded to nearest in FP32 (spec/18 R370).
(log 59: DEDUCED) -/
def gumbelOf (x : Nat) : Nat :=
  (decide2 fmtF32 .rne fun p =>
    let u : Int := (2 * x + 1 : Int) * (2 : Int) ^ p / (2 : Int) ^ 33
    around p (-(fixLn p (-(fixLn p u)))) 0).1

/-! ### Sampling (spec/18 R370-R372) -/

/-- A lane of GUMB: the noise is rounded, then the sum; the delivered lane of a finite logit is never exact (R59). -/
def gumbLane (x lane : Nat) : Nat × Flags :=
  let r := fAdd fmtF32 .rne lane (gumbelOf x)
  match unpack fmtF32 lane with
  | .fin _ _ _ => (r.1, r.2 ||| flagNX)
  | _ => r

/-- The header of a penalty table breaks R371. -/
def penaltyBad (h : List Byte) : Bool :=
  let f (k : Nat) : FVal := unpack fmtF32 (leNat ((h.drop (4 * k)).take 4))
  let off (v : FVal) : Bool := v.isNaN || v.isInf
  let vs := leNat ((h.drop 12).take 4)
  off (f 0) || (f 0).isZero || (f 0).sign || off (f 1) || off (f 2) || vs = 0 || 2 ^ 24 < vs
  || ((h.drop 16).take 48).any (· != 0)

/-- A lane of PENAL whose count is not zero: l / ρ or l · ρ, less presence and count · frequency, rounded once. -/
def penaltySum (rho presence freq : FVal) (count lane : Nat) : Nat × Flags :=
  let l := unpack fmtF32 lane
  match l with
  | .inf s => (withSign fmtF32 s fmtF32.inf, 0)
  | _ =>
    let less := (presence.dy.add ((⟨count, 0⟩ : Dy).mul freq.dy)).neg
    let negZero := l.isZero && l.sign && presence.isZero && !presence.sign && freq.isZero && !freq.sign
    if !l.isZero && !l.sign then
      let num := l.dy.add (rho.dy.mul less)
      if num.n = 0 then (0, 0)
      else
        let (m, e, sticky) := quotient num.n.natAbs num.e rho.dy.n.natAbs rho.dy.e (fmtF32.fb + 3)
        let s := decide (num.n < 0)
        let (mag, fl) := roundMag fmtF32 .rne s m e sticky
        (withSign fmtF32 s mag, fl)
    else roundDy fmtF32 .rne ((l.dy.mul rho.dy).add less) negZero

/-- PENAL's result from what it gathered: 16 bytes of header, 16 of lanes, 4 of the first index, 16 of counts (R372). -/
def penalty (bs : List Byte) : List Byte × Flags :=
  let w (k : Nat) : Nat := leNat ((bs.drop (4 * k)).take 4)
  let f (k : Nat) : FVal := unpack fmtF32 (w k)
  let lane (k : Nat) : Nat × Flags :=
    let x := w (4 + k)
    if w 3 ≤ (w 8 + k) % 2 ^ 32 then (withSign fmtF32 true fmtF32.inf, 0)
    else
      nanOr fmtF32 [unpack fmtF32 x] <|
        if w (9 + k) = 0 then (x, 0) else penaltySum (f 0) (f 1) (f 2) (w (9 + k)) x
  ((List.range 4).flatMap fun k => leBytes 4 (lane k).1, (List.range 4).foldl (fun m k => m ||| (lane k).2) 0)

end Sys2Proof.Machine
end

