-- ==== Sys2Proof/Machine/FloatScalar.lean ====
section
/-!
DEFINITION. Scalar floating point, scalar conversions and the scalar special functions (spec/06 R144-R150, R160,
R164, R165).
-/
set_option linter.constructorNameAsVariable false

namespace Sys2Proof.Machine

/-- A two-operand operation rounded once, at once (R145). -/
def State.float2 (s : State) (t : FType) (rm : Rnd) (op : FFmt → RMode → Nat → Nat → Nat × Flags) (rd ra rb : Reg) :
    State :=
  let f := (ffmtOf t)
  s.rounding rm fun m => s.doneLate rd (floatWord (op f m (s.rf f ra) (s.rf f rb)))

/-- FADD (spec/06 R145): Adds two floats with one rounding. -/
def execFadd (rd ra rb : Reg) (t : FType) (rm : Rnd) (s : State) : Res := .next (s.float2 t rm fAdd rd ra rb)

/-- FSUB (spec/06 R145): Subtracts two floats with one rounding. -/
def execFsub (rd ra rb : Reg) (t : FType) (rm : Rnd) (s : State) : Res := .next (s.float2 t rm fSub rd ra rb)

/-- FMUL (spec/06 R145): Multiplies two floats with one rounding. -/
def execFmul (rd ra rb : Reg) (t : FType) (rm : Rnd) (s : State) : Res := .next (s.float2 t rm fMul rd ra rb)

/-- A result that lands later on f64 and is interlocked on the other types (R145). -/
def State.floatLate (s : State) (t : FType) (rd : Reg) (r : Nat × Flags) : State :=
  match t with
  | .f64 => s.issueWord .fdiv rd (BitVec.ofNat 64 r.1) r.2
  | _ => s.doneLate rd (floatWord r)

/-- FDIV (spec/06 R145): Divides two floats; asynchronous for f64. -/
def execFdiv (rd ra rb : Reg) (t : FType) (rm : Rnd) (s : State) : Res :=
  .next (s.rounding rm fun m => s.floatLate t rd (fDiv (ffmtOf t) m (s.rf (ffmtOf t) ra) (s.rf (ffmtOf t) rb)))

/-- FSQRT (spec/06 R145): Takes a float square root; asynchronous for f64. -/
def execFsqrt (rd ra : Reg) (t : FType) (rm : Rnd) (s : State) : Res :=
  .next (s.rounding rm fun m => s.floatLate t rd (fSqrt (ffmtOf t) m (s.rf (ffmtOf t) ra)))

/-- FMA (spec/06 R146): Computes a fused multiply-add with one rounding. -/
def execFma (rd ra rb rc : Reg) (t : FType) (rm : Rnd) (s : State) : Res :=
  let f := (ffmtOf t)
  .next (s.rounding rm fun m => s.doneLate rd (floatWord (fFma f m (s.rf f ra) (s.rf f rb) (s.rf f rc))))

/-- FMIN (spec/06 R147): Returns the lesser float operand. -/
def execFmin (rd ra rb : Reg) (t : FType) (s : State) : Res :=
  .next (s.doneLate rd (floatWord (fMinMax (ffmtOf t) false (s.rf (ffmtOf t) ra) (s.rf (ffmtOf t) rb))))

/-- FMAX (spec/06 R147): Returns the greater float operand. -/
def execFmax (rd ra rb : Reg) (t : FType) (s : State) : Res :=
  .next (s.doneLate rd (floatWord (fMinMax (ffmtOf t) true (s.rf (ffmtOf t) ra) (s.rf (ffmtOf t) rb))))

/-- FCMP (spec/06 R148): Compares two floats and writes a condition mask. -/
def execFcmp (rd ra rb : Reg) (t : FType) (s : State) : Res :=
  let r := fCmp (ffmtOf t) (s.rf (ffmtOf t) ra) (s.rf (ffmtOf t) rb)
  .next (s.doneLate rd (r.1.setWidth 64, r.2))

/-- FCLASS (spec/06 R149): Writes a one-hot class mask for a float. -/
def execFclass (rd ra : Reg) (t : FType) (s : State) : Res :=
  .next (s.done rd ((fClass (ffmtOf t) (s.rf (ffmtOf t) ra)).setWidth 64, 0))

/-- FSGN's value: the magnitude of `x` and the sign that `op` takes from `y` (R150). -/
def signed (f : FFmt) (op : SgnOp) (x y : Nat) : Nat :=
  let sx := decide (f.signBit ≤ x)
  let sy := decide (f.signBit ≤ y)
  withSign f (match op with
    | .copy => sy
    | .inverse => !sy
    | .xor => sx != sy) (x % f.signBit)

/-- FSGN (spec/06 R150): Builds a float from the magnitude of ra and a sign derived from rb. -/
def execFsgn (rd ra rb : Reg) (t : FType) (op : SgnOp) (s : State) : Res :=
  .next (s.done rd (floatWord (signed (ffmtOf t) op (s.rf (ffmtOf t) ra) (s.rf (ffmtOf t) rb), 0)))

/-! ### CVT (R160) -/

/-- An integer of width `w` extended by its signedness. -/
def intWord (bits : Nat) (sgn : Bool) (x : Nat) : Word := BitVec.ofInt 64 (intValue bits sgn x)

/-- CVT (spec/06 R160): Converts one scalar between integer and float types. -/
def execCvt (rd ra : Reg) (c : CvtKind) (rm : Rnd) (s : State) : Res :=
  .next (match c with
    | .floatFloat src dst =>
      s.roundingIf (floatRounds (ffmtOf src) (ffmtOf dst)) rm fun m =>
        s.doneLate rd (floatWord (fConv (ffmtOf src) (ffmtOf dst) m (s.rf (ffmtOf src) ra)))
    | .intFloat src dst =>
      s.roundingIf (intRounds (iTypeBits src) (iTypeSigned src) (ffmtOf dst)) rm fun m =>
        s.doneLate rd (floatWord (intToFloat (ffmtOf dst) m (intValue (iTypeBits src) (iTypeSigned src) (s.rd ra).toNat)))
    | .floatInt src dst sat =>
      s.rounding rm fun m =>
        let r := floatToInt (ffmtOf src) m (iTypeBits dst) (iTypeSigned dst) sat (s.rf (ffmtOf src) ra)
        s.doneLate rd (intWord (iTypeBits dst) (iTypeSigned dst) r.1, r.2))

/-! ### SFU (R164, R165) -/

/-- SFU (spec/06 R164): Evaluates a special function asynchronously. -/
def execSfu (rd ra : Reg) (func : SfuFn) (t : FType) (rm : Rnd) (s : State) : Res :=
  .next (s.rounding rm fun m =>
    let r := sfuEval (ffmtOf t) m func (s.rf (ffmtOf t) ra)
    s.issueWord .sfu rd (BitVec.ofNat 64 r.1) r.2)

end Sys2Proof.Machine
end

