-- ==== Sys2Proof/Machine/Floe.lean ====
section
/-!
DEFINITION. Floes: 16 elements that share an exponent (spec/02 R66-R68).
-/
namespace Sys2Proof.Machine

/-- Bits of magnitude (spec/02 R66). -/
def Floe.mag : Floe → Nat
  | .fl2 => 2
  | .fl4 => 4
  | .fl7 => 7

/-- Bytes of a block. -/
def Floe.bytes : Floe → Nat
  | .fl2 => 8
  | .fl4 => 12
  | .fl7 => 18

/-- An element of a block: none in a NaN block, else its sign, magnitude and scale. -/
abbrev FloeElem := Option (Bool × Nat × Int)

/-- The 16 elements of a block (spec/02 R67). -/
def floeElems (f : Floe) (block : List Byte) : List FloeElem :=
  let e := (block.getD 0 0).toNat
  let sub := (block.getD 1 0).toNat
  let area := leNat (block.drop 2)
  (List.range 16).map fun k =>
    if e = 255 then none
    else
      let x := area / 2 ^ ((Floe.mag f + 1) * k) % 2 ^ (Floe.mag f + 1)
      let q := sub / 4 ^ (k / 4) % 4
      some (x / 2 ^ Floe.mag f = 1, x % 2 ^ Floe.mag f, (e : Int) - 127 - q - ((Floe.mag f : Int) - 1))

/-- The 16 elements in a float format, with their flags (spec/02 R67); exact in FP32. -/
def floeDecode (f : Floe) (dst : FFmt) (rm : RMode) (block : List Byte) : List (Nat × Flags) :=
  (floeElems f block).map fun x => match x with
    | none => (dst.dnan, 0)
    | some (s, m, e) => roundDy dst rm ⟨if s then -(m : Int) else m, e⟩ s

/-- The magnitude of a finite value divided by 2^k, rounded to nearest, ties to even (spec/02 R68). -/
def scaled (v : FVal) (k : Int) : Nat × Bool :=
  match v with
  | .fin _ m e => roundAt .rne false m e false k
  | _ => (0, false)

/-- floor(log2 M) of the largest finite magnitude; none when every value is zero. -/
def topExp : List FVal → Option Int
  | [] => none
  | .fin _ m e :: rest =>
    if m = 0 then topExp rest
    else
      let t := e + (Nat.log2 m : Int)
      match topExp rest with
      | some t' => some (if t < t' then t' else t)
      | none => some t
  | _ :: rest => topExp rest

/-- Does any magnitude, divided by 2^k and rounded, reach 2^m? -/
def carries (vs : List FVal) (m : Nat) (k : Int) : Bool := vs.any fun v => 2 ^ m ≤ (scaled v k).1

/-- A quad's sub-exponent (spec/02 R68, step 4). -/
def subExp (quad : List FVal) (m : Nat) (base : Int) : Nat :=
  let fits (q : Nat) : Bool :=
    quad.all fun v => match v with
      | .fin _ _ _ => (scaled v (base - q)).1 < 2 ^ m
      | _ => false
  if fits 3 then 3 else if fits 2 then 2 else if fits 1 then 1 else 0

/-- One element's field and flags at a scale (spec/02 R68, step 5). -/
def floeElem (m : Nat) (v : FVal) (k : Int) : Nat × Flags :=
  let s := if v.sign then 2 ^ m else 0
  match v with
  | .fin _ vm _ =>
    let (q, exact) := scaled v k
    if 2 ^ m ≤ q then (s + (2 ^ m - 1), flagOF ||| flagNX)
    else (s + q, (if exact then 0 else flagNX) ||| (if q = 0 && vm != 0 then flagUF else 0))
  | _ => (s + (2 ^ m - 1), flagOF ||| flagNX)

/-- Packs fields of `w` bits, the first lowest. -/
def packFields (w : Nat) : List Nat → Nat
  | [] => 0
  | x :: xs => x + 2 ^ w * packFields w xs

/-- Encodes 16 FP32 values (spec/02 R68). -/
def floeEncode (f : Floe) (xs : List Nat) : List Byte × Flags :=
  let vs := xs.map (unpack fmtF32)
  let m := Floe.mag f
  if vs.any FVal.isNaN then (0xFF :: List.replicate (Floe.bytes f - 1) 0, flagNV)
  else
    let signs := vs.map fun v => if v.sign then 2 ^ m else 0
    let block (e : Nat) (sub : Nat) (fields : List Nat) : List Byte :=
      BitVec.ofNat 8 e :: BitVec.ofNat 8 sub :: leBytes (Floe.bytes f - 2) (packFields (m + 1) fields)
    let anyInf := vs.any FVal.isInf
    if !anyInf && (topExp vs).isNone then (block 0 0 signs, 0)
    else
      let e0 : Int := ((topExp vs).getD 0) + 127
      let e1 : Int := if e0 < 0 then 0 else e0
      let e2 : Int := if carries vs m (e1 - 127 - ((m : Int) - 1)) then e1 + 1 else e1
      let e : Int := if anyInf then 254 else if 254 < e2 then 254 else e2
      let base : Int := e - 127 - ((m : Int) - 1)
      let quad (q : Nat) : List FVal := (vs.drop (4 * q)).take 4
      let subs := (List.range 4).map fun q => subExp (quad q) m base
      let elems := (List.range 16).map fun k =>
        floeElem m (vs.getD k (.inf false)) (base - (subs.getD (k / 4) 0 : Nat))
      (block e.toNat (packFields 2 subs) (elems.map Prod.fst), elems.foldr (fun x fl => x.2 ||| fl) 0)

end Sys2Proof.Machine
end

