-- ==== Sys2Proof/Machine/Simd.lean ====
section
/-!
DEFINITION. SIMD lane operations, lane conversions, floes in groups and the compact lane forms (spec/06 R151-R165;
spec/03 R93).
-/
set_option linter.constructorNameAsVariable false

namespace Sys2Proof.Machine

/-! ### Lane arithmetic (R152) -/

/-- A lane-wise operation of two registers; float lanes round by the mode. -/
def State.lane2 (s : State) (t : EType) (rm : Rnd) (op : RMode → Nat → Nat → Nat × Flags) (vd va vb : VReg) : State :=
  s.roundingIf (!t.isInt) rm fun m => s.doneV vd (lanes2 t.bits (op m) (s.rv va) (s.rv vb))

/-- VADD (spec/06 R152): Lane-wise addition. -/
def execVadd (vd va vb : VReg) (t : EType) (sat : Bool) (rm : Rnd) (s : State) : Res :=
  .next (s.lane2 t rm (eAdd t sat) vd va vb)

/-- VSUB (spec/06 R152): Lane-wise subtraction. -/
def execVsub (vd va vb : VReg) (t : EType) (sat : Bool) (rm : Rnd) (s : State) : Res :=
  .next (s.lane2 t rm (eSub t sat) vd va vb)

/-- VMUL (spec/06 R152): Lane-wise multiplication. -/
def execVmul (vd va vb : VReg) (t : EType) (sat : Bool) (rm : Rnd) (s : State) : Res :=
  .next (s.lane2 t rm (eMul t sat) vd va vb)

/-- VFMA (spec/06 R152): Lane-wise fused multiply-add into vd. -/
def execVfma (vd va vb : VReg) (t : EType) (sat : Bool) (rm : Rnd) (s : State) : Res :=
  .next (s.roundingIf (!t.isInt) rm fun m =>
    s.doneV vd (lanes3 t.bits (eFma t sat m) (s.rv va) (s.rv vb) (s.rv vd)))

/-- VMIN (spec/06 R152): Lane-wise minimum. -/
def execVmin (vd va vb : VReg) (t : EType) (s : State) : Res :=
  .next (s.doneV vd (lanes2 t.bits (eMinMax t false) (s.rv va) (s.rv vb)))

/-- VMAX (spec/06 R152): Lane-wise maximum. -/
def execVmax (vd va vb : VReg) (t : EType) (s : State) : Res :=
  .next (s.doneV vd (lanes2 t.bits (eMinMax t true) (s.rv va) (s.rv vb)))

/-! ### Bits and shifts (R153) -/

/-- VAND (spec/06 R153): 128-bit bitwise AND. -/
def execVand (vd va vb : VReg) (_t : EType) (s : State) : Res := .next (s.doneV vd (s.rv va &&& s.rv vb, 0))

/-- VOR (spec/06 R153): 128-bit bitwise OR. -/
def execVor (vd va vb : VReg) (_t : EType) (s : State) : Res := .next (s.doneV vd (s.rv va ||| s.rv vb, 0))

/-- VXOR (spec/06 R153): 128-bit bitwise XOR. -/
def execVxor (vd va vb : VReg) (_t : EType) (s : State) : Res := .next (s.doneV vd (s.rv va ^^^ s.rv vb, 0))

/-- VSEL (spec/06 R153): Bitwise select using the old vd as the mask. -/
def execVsel (vd va vb : VReg) (_t : EType) (s : State) : Res :=
  .next (s.doneV vd ((s.rv va &&& s.rv vd) ||| (s.rv vb &&& ~~~(s.rv vd)), 0))

/-- One lane shifted left by the low bits of the count's lane. -/
def shlLane (t : EType) (x c : Nat) : Nat × Flags := (x * 2 ^ (c % t.bits) % 2 ^ t.bits, 0)

/-- One lane shifted right: copies of the top bit enter for i types, zeros for n types. -/
def shrLane (t : EType) (x c : Nat) : Nat × Flags :=
  (((intValue t.bits t.signed x / (2 : Int) ^ (c % t.bits)) % (2 : Int) ^ t.bits).toNat, 0)

/-- VSHL (spec/06 R153): Lane-wise shift left. -/
def execVshl (vd va vb : VReg) (t : EType) (s : State) : Res :=
  .next (s.doneV vd (lanes2 t.bits (shlLane t) (s.rv va) (s.rv vb)))

/-- VSHR (spec/06 R153): Lane-wise shift right. -/
def execVshr (vd va vb : VReg) (t : EType) (s : State) : Res :=
  .next (s.doneV vd (lanes2 t.bits (shrLane t) (s.rv va) (s.rv vb)))

/-! ### Comparison, shuffle, moves (R154-R156) -/

/-- Is a lane's comparison true, and its flags (R154)? -/
def cmpLane (t : EType) (cond : VCond) (x y : Nat) : Bool × Flags :=
  if t.isInt then
    let a := intValue t.bits t.signed x
    let b := intValue t.bits t.signed y
    ((match cond with
      | .eq => a = b
      | .ne => a != b
      | .lt => a < b
      | .le => a ≤ b
      | .gt => b < a
      | .ge => b ≤ a), 0)
  else
    let r := fCmp (eFmt t) x y
    ((match cond with
      | .eq => r.1.getLsbD 0
      | .ne => r.1.getLsbD 6
      | .lt => r.1.getLsbD 1
      | .le => r.1.getLsbD 2
      | .gt => r.1.getLsbD 3
      | .ge => r.1.getLsbD 4), r.2)

/-- A comparison's lane: all ones or all zeros. -/
def maskLane (t : EType) (cond : VCond) (x y : Nat) : Nat × Flags :=
  let r := cmpLane t cond x y
  (if r.1 then 2 ^ t.bits - 1 else 0, r.2)

/-- VCMP (spec/06 R154): Lane-wise comparison that writes a lane mask. -/
def execVcmp (vd va vb : VReg) (t : EType) (cond : VCond) (s : State) : Res :=
  .next (s.doneV vd (lanes2 t.bits (maskLane t cond) (s.rv va) (s.rv vb)))

/-- VSHUF's permutation of 32 bytes (R155). -/
def shuffle (a d b : VWord) : VWord :=
  let t := lanes a 8 ++ lanes d 8
  ofLanes 8 ((lanes b 8).map fun c => if 128 ≤ c then 0 else t.getD (c % 32) 0)

/-- VSHUF (spec/06 R155): Permutes bytes from va and the old vd. -/
def execVshuf (vd va vb : VReg) (s : State) : Res :=
  .next (s.doneV vd (shuffle (s.rv va) (s.rv vd) (s.rv vb), 0))

/-- VSPLAT (spec/06 R156): Copies a scalar into every lane. -/
def execVsplat (vd : VReg) (ra : Reg) (t : EType) (s : State) : Res :=
  .next (s.doneV vd (ofLanes t.bits (List.replicate (128 / t.bits) (s.rd ra).toNat), 0))

/-- VEXT (spec/06 R156): Extracts one lane into a scalar register. -/
def execVext (rd : Reg) (va : VReg) (t : EType) (k : BitVec 4) (s : State) : Res :=
  .next (s.doneLate rd (intWord t.bits (t.isInt && t.signed) (lane (s.rv va) t.bits k.toNat), 0))

/-- VINS (spec/06 R156): Inserts a scalar into one lane. -/
def execVins (vd : VReg) (ra : Reg) (t : EType) (k : BitVec 4) (s : State) : Res :=
  .next (s.doneV vd (setLane (s.rv vd) t.bits k.toNat ((s.rd ra).toNat % 2 ^ t.bits), 0))

/-! ### Dot products and reductions (R157, R158) -/

/-- The exact sum of an old FP32 lane and products, rounded once to FP32; NaN by the first NaN in the order of R157.
A sum of zeros only keeps their sign where all have the same, for which R58 speaks of two zeros (log 101: DESIGN CHOICE). -/
def dotFloat (f : FFmt) (rm : RMode) (old : Nat) (ps : List (Nat × Nat)) : Nat × Flags :=
  let vals := (ps.flatMap fun p => [(f, p.1), (f, p.2)]) ++ [(fmtF32, old)]
  let nan := vals.find? fun v => (unpack v.1 v.2).isNaN
  let snan := vals.any fun v => isSNaN v.1 (unpack v.1 v.2)
  match nan with
  | some v => ((fConv v.1 fmtF32 .rne v.2).1, if snan then flagNV else 0)
  | none =>
    let o := unpack fmtF32 old
    let terms := ps.map fun p => (unpack f p.1, unpack f p.2)
    let bad := terms.any fun t => (t.1.isInf && t.2.isZero) || (t.1.isZero && t.2.isInf)
    let infs := (terms.filterMap fun t => if t.1.isInf || t.2.isInf then some (t.1.sign != t.2.sign) else none)
      ++ (if o.isInf then [o.sign] else [])
    if bad || (infs.any id && infs.any (!·)) then (fmtF32.dnan, flagNV)
    else
      match infs with
      | sg :: _ => (withSign fmtF32 sg fmtF32.inf, 0)
      | [] =>
        let sum := Dy.sum ((terms.map fun t => t.1.dy.mul t.2.dy) ++ [o.dy])
        let allZero := o.isZero && terms.all fun t => t.1.isZero || t.2.isZero
        let neg := o.sign && terms.all fun t => t.1.sign != t.2.sign
        let pos := !o.sign && terms.all fun t => t.1.sign == t.2.sign
        roundDy fmtF32 rm sum (if allZero then (if neg then true else if pos then false else rm == .rdn)
          else rm == .rdn)

/-- One 32-bit lane of VDOT. -/
def dotLane (t : EType) (sat : Bool) (rm : RMode) (old : Nat) (ps : List (Nat × Nat)) : Nat × Flags :=
  if t.isInt then
    narrow 32 t.signed sat
      (ps.foldl (fun acc p => acc + intValue t.bits t.signed p.1 * intValue t.bits t.signed p.2)
        (intValue 32 t.signed old))
  else dotFloat (eFmt t) rm old ps

/-- VDOT's result (R157). -/
def vdotResult (t : EType) (sat : Bool) (rm : RMode) (d a b : VWord) : VWord × Flags :=
  let g := 32 / t.bits
  let r := mapFlags (fun k =>
    dotLane t sat rm (lane d 32 k)
      ((List.range g).map fun j => (lane a t.bits (g * k + j), lane b t.bits (g * k + j)))) [0, 1, 2, 3]
  (ofLanes 32 r.1, r.2)

/-- VDOT (spec/06 R157): Accumulates short dot products into wider lanes. -/
def execVdot (vd va vb : VReg) (t : EType) (sat : Bool) (rm : Rnd) (s : State) : Res :=
  .next (s.roundingIf (!t.isInt) rm fun m => s.doneV vd (vdotResult t sat m (s.rv vd) (s.rv va) (s.rv vb)))

/-- The reduction of a list of elements by the tree of R70; an integer sum is formed exactly and narrowed once. -/
def reduce (t : EType) (op : RedOp) (sat : Bool) (rm : RMode) (l : List Nat) : Nat × Flags :=
  match op with
  | .sum =>
    if t.isInt then narrow t.bits t.signed sat (l.foldl (fun acc x => acc + intValue t.bits t.signed x) 0)
    else treeFold (fAdd (eFmt t) rm) l.length l
  | .min => treeFold (eMinMax t false) l.length l
  | .max => treeFold (eMinMax t true) l.length l

/-- VRED (spec/06 R158): Reduces the lanes of va to lane 0 by a fixed tree. -/
def execVred (vd va : VReg) (t : EType) (op : RedOp) (sat : Bool) (s : State) : Res :=
  .next (s.roundingIf (!t.isInt && op == .sum) .frm fun m =>
    let r := reduce t op sat m (lanes (s.rv va) t.bits)
    s.doneV vd (BitVec.ofNat 128 r.1, r.2))

/-! ### Lane conversion (R161) -/

/-- VCVT's result over the old destination. -/
def vcvtResult (dt st : EType) (part : Nat) (sat : Bool) (rm : RMode) (d a : VWord) : VWord × Flags :=
  if st.bits ≤ dt.bits then
    let n := 128 / dt.bits
    let first := if st.bits = dt.bits then 0 else part * n
    let r := mapFlags (eConv dt st sat rm) (((lanes a st.bits).drop first).take n)
    (ofLanes dt.bits r.1, r.2)
  else
    let n := 128 / st.bits
    let r := mapFlags (eConv dt st sat rm) (lanes a st.bits)
    let old := lanes d dt.bits
    (ofLanes dt.bits (old.take (part * n) ++ r.1 ++ old.drop (part * n + n)), r.2)

/-- VCVT (spec/06 R161): Converts lanes between element types. -/
def execVcvt (vd va : VReg) (dt st : EType) (part : BitVec 3) (sat : Bool) (rm : Rnd) (s : State) : Res :=
  .next (s.roundingIf (eConvRounds dt st) rm fun m =>
    s.doneV vd (vcvtResult dt st part.toNat sat m (s.rv vd) (s.rv va)))

/-! ### Floes in groups (R162, R163) -/

/-- Replaces bytes of a list from an index on. -/
def splice {α : Type} (l : List α) (k : Nat) (x : List α) : List α := l.take k ++ x ++ l.drop (k + x.length)

/-- FLENC (spec/06 R163): Encodes 16 f32 elements into one floe slot. -/
def execFlenc (vd va : VReg) (fmt : Floe) (slot : BitVec 4) (s : State) : Res :=
  let src := (List.range 4).flatMap fun i => lanes (s.rv (va + BitVec.ofNat 4 i)) 32
  let r := floeEncode fmt src
  .next (s.doneGroup vd (splice (s.groupBytes vd 4) (slot.toNat * Floe.bytes fmt) r.1) r.2)

/-- FLDEC (spec/06 R163): Decodes one floe slot into 16 f32 elements. -/
def execFldec (vd va : VReg) (fmt : Floe) (slot : BitVec 4) (s : State) : Res :=
  let block := ((s.groupBytes va 4).drop (slot.toNat * Floe.bytes fmt)).take (Floe.bytes fmt)
  .next (s.doneGroup vd ((floeDecode fmt fmtF32 .rne block).flatMap fun x => leBytes 4 x.1) 0)

/-! ### VSFU (R164, R165) -/

/-- VSFU (spec/06 R164): Evaluates a special function on every lane, asynchronously. -/
def execVsfu (vd va : VReg) (func : SfuFn) (t : EType) (s : State) : Res :=
  .next (s.rounding .frm fun m =>
    let r := lanes1 t.bits (sfuEval (eFmt t) m func) (s.rv va)
    s.issueValue .sfu [.v vd] .vec (vbytes r.1) r.2)

/-! ### Compact lane forms (R159) -/

/-- The element type of a compact form. -/
def cType : CType → EType
  | .f32 => .f32
  | .f16 => .f16
  | .bf16 => .bf16
  | .i32 => .i32

/-- C_VADD (spec/06 R159): Compact lane add, vd := vd + vs. -/
def execCVadd (vd vs : VReg) (t : CType) (s : State) : Res :=
  .next (s.lane2 (cType t) .frm (eAdd (cType t) false) vd vd vs)

/-- C_VSUB (spec/06 R159): Compact lane subtract. -/
def execCVsub (vd vs : VReg) (t : CType) (s : State) : Res :=
  .next (s.lane2 (cType t) .frm (eSub (cType t) false) vd vd vs)

/-- C_VMUL (spec/06 R159): Compact lane multiply. -/
def execCVmul (vd vs : VReg) (t : CType) (s : State) : Res :=
  .next (s.lane2 (cType t) .frm (eMul (cType t) false) vd vd vs)

/-- C_VMIN (spec/06 R159): Compact lane minimum. -/
def execCVmin (vd vs : VReg) (t : CType) (s : State) : Res :=
  .next (s.doneV vd (lanes2 (cType t).bits (eMinMax (cType t) false) (s.rv vd) (s.rv vs)))

/-- C_VMAX (spec/06 R159): Compact lane maximum. -/
def execCVmax (vd vs : VReg) (t : CType) (s : State) : Res :=
  .next (s.doneV vd (lanes2 (cType t).bits (eMinMax (cType t) true) (s.rv vd) (s.rv vs)))

/-- C_VAND (spec/06 R159): Compact bitwise AND. -/
def execCVand (vd vs : VReg) (_t : CType) (s : State) : Res := .next (s.doneV vd (s.rv vd &&& s.rv vs, 0))

/-- C_VOR (spec/06 R159): Compact bitwise OR. -/
def execCVor (vd vs : VReg) (_t : CType) (s : State) : Res := .next (s.doneV vd (s.rv vd ||| s.rv vs, 0))

/-- C_VXOR (spec/06 R159): Compact bitwise XOR. -/
def execCVxor (vd vs : VReg) (_t : CType) (s : State) : Res := .next (s.doneV vd (s.rv vd ^^^ s.rv vs, 0))

/-- C_VSHL (spec/06 R159): Compact i32 lane shift left. -/
def execCVshl (vd vs : VReg) (t : CType) (s : State) : Res :=
  .next (s.doneV vd (lanes2 (cType t).bits (shlLane (cType t)) (s.rv vd) (s.rv vs)))

/-- C_VSHR (spec/06 R159): Compact i32 lane shift right. -/
def execCVshr (vd vs : VReg) (t : CType) (s : State) : Res :=
  .next (s.doneV vd (lanes2 (cType t).bits (shrLane (cType t)) (s.rv vd) (s.rv vs)))

/-- C_VCEQ (spec/06 R159): Compact lane compare for equality. -/
def execCVceq (vd vs : VReg) (t : CType) (s : State) : Res :=
  .next (s.doneV vd (lanes2 (cType t).bits (maskLane (cType t) .eq) (s.rv vd) (s.rv vs)))

/-- C_VCLT (spec/06 R159): Compact lane compare for less-than. -/
def execCVclt (vd vs : VReg) (t : CType) (s : State) : Res :=
  .next (s.doneV vd (lanes2 (cType t).bits (maskLane (cType t) .lt) (s.rv vd) (s.rv vs)))

/-- C_VMOV (spec/06 R159): Compact register move. -/
def execCVmov (vd vs : VReg) (_t : CType) (s : State) : Res := .next (s.doneV vd (s.rv vs, 0))

/-- C.VABS on one lane: the sign cleared, or |x| mod 2^32. -/
def absLane (t : EType) (x : Nat) : Nat :=
  if t.isInt then (intValue t.bits true x).natAbs % 2 ^ t.bits else x % (eFmt t).signBit

/-- C.VNEG on one lane: the sign inverted, or (0 - x) mod 2^32. -/
def negLane (t : EType) (x : Nat) : Nat :=
  if t.isInt then (2 ^ t.bits - x % 2 ^ t.bits) % 2 ^ t.bits
  else if (eFmt t).signBit ≤ x then x - (eFmt t).signBit else x + (eFmt t).signBit

/-- C_VABS (spec/06 R159): Compact lane absolute value. -/
def execCVabs (vd vs : VReg) (t : CType) (s : State) : Res :=
  .next (s.doneV vd (lanes1 (cType t).bits (fun x => (absLane (cType t) x, 0)) (s.rv vs)))

/-- C_VNEG (spec/06 R159): Compact lane negation. -/
def execCVneg (vd vs : VReg) (t : CType) (s : State) : Res :=
  .next (s.doneV vd (lanes1 (cType t).bits (fun x => (negLane (cType t) x, 0)) (s.rv vs)))

/-- C_VSPL (spec/06 R159): Compact splat of lane 0 of vs into every lane. -/
def execCVspl (vd vs : VReg) (t : CType) (s : State) : Res :=
  .next (s.doneV vd (ofLanes (cType t).bits
    (List.replicate (128 / (cType t).bits) (lane (s.rv vs) (cType t).bits 0)), 0))

end Sys2Proof.Machine
end

