-- ==== Sys2Proof/Machine/Stream.lean ====
section
/-!
DEFINITION. Vector-stream commands (spec/11 R220-R227): stream pointers, issue, and the run of an operation element by
element.
-/
set_option linter.constructorNameAsVariable false

namespace Sys2Proof.Machine

/-! ### Stream pointers (spec/03 R79, R221) -/

/-- ADDR of a stream pointer. -/
def spAddr (p : BitVec 32) : Nat := (p.extractLsb' 0 15).toNat

/-- STRIDE of a stream pointer. -/
def spStride (p : BitVec 32) : Int := (p.extractLsb' 16 16).toInt

/-- A stream pointer with another ADDR. -/
def spMoved (p : BitVec 32) (a : Int) : BitVec 32 := p.extractLsb' 16 16 ++ (0#1 ++ BitVec.ofInt 15 a)

/-- Stream pointer `k` of a thread's registers. -/
def State.ptr (s : State) (k : SReg) : BitVec 32 := get4 s.cur.regs.sp k

/-- Sets a stream pointer of the executing thread. -/
def State.setPtr (s : State) (k : SReg) (p : BitVec 32) : State :=
  s.onCur fun t => { t with regs := { t.regs with sp := set4 t.regs.sp k p } }

/-- SPSET (spec/11 R221): Writes a stream pointer's address and stride. -/
def execSpset (sd : SReg) (ra : Reg) (stride : BitVec 16) (s : State) : Res :=
  .next ((s.setPtr sd (stride ++ (0#1 ++ (s.rd ra).extractLsb' 0 15))).retire)

/-- SPGET (spec/11 R221): Reads a stream pointer. -/
def execSpget (rd : Reg) (sa : SReg) (s : State) : Res :=
  .next ((s.wr rd ((s.ptr sa).setWidth 64)).retire)

/-! ### Roles (R222, R223) -/

/-- A role of an operation: its pointer, bytes of one element, how many elements it covers. -/
structure Role where
  sp : SReg
  e  : Nat
  m  : Nat
  deriving DecidableEq, Repr

/-- Address of element `j` of a stream. -/
def elemAddr (p : BitVec 32) (j : Nat) : Int := (spAddr p : Int) + (j : Int) * spStride p

/-- The first element address of a role that breaks R223. -/
def State.roleBad (s : State) (r : Role) : Option Int :=
  ((List.range r.m).map (elemAddr (s.ptr r.sp))).find? fun a =>
    a < 0 || (s.localEnd s.ctx.core : Int) < a + (r.e : Int)

/-- The TVAL of the first role that breaks R223, in the order d, a, b. -/
def State.rolesBad (s : State) (rs : List Role) : Option Word :=
  (rs.findSome? s.roleBad).map fun a => engTval .vs 2 (a % 2 ^ 55).toNat

/-- Advances each distinct pointer by the count of its d role, else of its first source role (R223). -/
def State.advance (s : State) : List Role → List SReg → State
  | [], _ => s
  | r :: rest, seen =>
    if seen.contains r.sp then s.advance rest seen
    else
      let p := s.ptr r.sp
      (s.setPtr r.sp (spMoved p (elemAddr p r.m))).advance rest (r.sp :: seen)

/-- Issue of a vector-stream command over its roles, d first (R218, R223). The command keeps the pointers as they stood:
d, a, b. -/
def State.stream (s : State) (rs : List Role) (c : Cmd) : State :=
  let c := { c with ptrs := rs.map fun r => s.ptr r.sp }
  if 2 ≤ (s.queue s.ctx.core .vs).length then s.stall .queue
  else
    match s.rolesBad rs with
    | some v => s.trap .engine v
    | none => (s.advance rs []).enter .vs c

/-- The count of R223. -/
def State.count16 (s : State) (rc : Reg) : Nat := ((s.rd rc).extractLsb' 0 16).toNat

/-- Bytes of an element. -/
def ebytes (t : EType) : Nat := t.bits / 8

/-- Issue of an operation of d, a and b over one element type. -/
def State.stream3 (s : State) (i : Instr) (needed : Bool) (rm : Rnd) (sd sa sb : SReg) (rc : Reg) (x : Word) (t : EType) :
    State :=
  s.roundingIf needed rm fun m =>
    let n := s.count16 rc
    let r (p : SReg) : Role := ⟨p, ebytes t, n⟩
    s.stream [r sd, r sa, r sb] (s.cmd i 0 0 0 (s.rd rc) x m)

/-- Issue of an operation of d and a. -/
def State.stream2 (s : State) (i : Instr) (needed : Bool) (rm : Rnd) (sd sa : SReg) (rc : Reg) (x : Word) (t : EType)
    (md : Nat) : State :=
  s.roundingIf needed rm fun m =>
    s.stream [⟨sd, ebytes t, md⟩, ⟨sa, ebytes t, s.count16 rc⟩] (s.cmd i 0 0 0 (s.rd rc) x m)

/-- VSADD (spec/11 R222): Queues an element-wise stream addition. -/
def execVsadd (sd sa sb : SReg) (rc : Reg) (t : EType) (sat : Bool) (rm : Rnd) (s : State) : Res :=
  .next (s.stream3 (.vsadd sd sa sb rc t sat rm) (!t.isInt) rm sd sa sb rc 0 t)

/-- VSSUB (spec/11 R222): Queues an element-wise stream subtraction. -/
def execVssub (sd sa sb : SReg) (rc : Reg) (t : EType) (sat : Bool) (rm : Rnd) (s : State) : Res :=
  .next (s.stream3 (.vssub sd sa sb rc t sat rm) (!t.isInt) rm sd sa sb rc 0 t)

/-- VSMUL (spec/11 R222): Queues an element-wise stream multiplication. -/
def execVsmul (sd sa sb : SReg) (rc : Reg) (t : EType) (sat : Bool) (rm : Rnd) (s : State) : Res :=
  .next (s.stream3 (.vsmul sd sa sb rc t sat rm) (!t.isInt) rm sd sa sb rc 0 t)

/-- VSFMA (spec/11 R222): Queues an element-wise stream fused multiply-add. -/
def execVsfma (sd sa sb : SReg) (rc : Reg) (t : EType) (sat : Bool) (rm : Rnd) (s : State) : Res :=
  .next (s.stream3 (.vsfma sd sa sb rc t sat rm) (!t.isInt) rm sd sa sb rc 0 t)

/-- VSAXPY (spec/11 R222): Queues a stream computing x times a plus b. -/
def execVsaxpy (sd sa sb : SReg) (rc x : Reg) (t : EType) (sat : Bool) (rm : Rnd) (s : State) : Res :=
  .next (s.stream3 (.vsaxpy sd sa sb rc x t sat rm) (!t.isInt) rm sd sa sb rc (s.rd x) t)

/-- VSMAX (spec/11 R222): Queues an element-wise stream maximum. -/
def execVsmax (sd sa sb : SReg) (rc : Reg) (t : EType) (s : State) : Res :=
  .next (s.stream3 (.vsmax sd sa sb rc t) false .frm sd sa sb rc 0 t)

/-- VSMIN (spec/11 R222): Queues an element-wise stream minimum. -/
def execVsmin (sd sa sb : SReg) (rc : Reg) (t : EType) (s : State) : Res :=
  .next (s.stream3 (.vsmin sd sa sb rc t) false .frm sd sa sb rc 0 t)

/-- VSEXP (spec/11 R222): Queues a stream computing e to the power a minus x. -/
def execVsexp (sd sa : SReg) (rc x : Reg) (t : EType) (rm : Rnd) (s : State) : Res :=
  .next (s.stream2 (.vsexp sd sa rc x t rm) true rm sd sa rc (s.rd x) t (s.count16 rc))

/-- VSRED (spec/11 R224): Queues a stream sum into one element. -/
def execVsred (sd sa : SReg) (rc : Reg) (t : EType) (rm : Rnd) (s : State) : Res :=
  .next (s.stream2 (.vsred sd sa rc t rm) true rm sd sa rc 0 t 1)

/-- VSDOT (spec/11 R224): Queues a stream dot product into one element. -/
def execVsdot (sd sa sb : SReg) (rc : Reg) (t : EType) (rm : Rnd) (s : State) : Res :=
  .next (s.rounding rm fun m =>
    let n := s.count16 rc
    s.stream [⟨sd, ebytes t, 1⟩, ⟨sa, ebytes t, n⟩, ⟨sb, ebytes t, n⟩]
      (s.cmd (.vsdot sd sa sb rc t rm) 0 0 0 (s.rd rc) 0 m))

/-- VSCOPY (spec/11 R222): Queues a stream copy of bits. -/
def execVscopy (sd sa : SReg) (rc : Reg) (t : EType) (s : State) : Res :=
  .next (s.stream2 (.vscopy sd sa rc t) false .frm sd sa rc 0 t (s.count16 rc))

/-- VSFILL (spec/11 R222): Queues a stream fill with a scalar. -/
def execVsfill (sd : SReg) (rc x : Reg) (t : EType) (s : State) : Res :=
  .next (s.stream [⟨sd, ebytes t, s.count16 rc⟩] (s.cmd (.vsfill sd rc x t) 0 0 0 (s.rd rc) (s.rd x) .rne))

/-- Bytes of an element or block of a stream type. -/
def sbytes : SType → Nat
  | .elem t => ebytes t
  | .floe f => Floe.bytes f

/-- How many elements or blocks `n` elements take (R225). -/
def scount (t : SType) (n : Nat) : Nat :=
  match t with
  | .elem _ => n
  | .floe _ => (n + 15) / 16

/-- Does a VSCVT read its rounding mode (spec/06 R144)? -/
def scvtRounds (dt st : SType) : Bool :=
  match dt, st with
  | .elem d, .elem t => eConvRounds d t
  | .elem d, .floe _ => d != .f32
  | _, _ => false

/-- VSCVT (spec/11 R225): Queues a stream conversion, including floe encode and decode. -/
def execVscvt (sd sa : SReg) (rc : Reg) (dt st : SType) (sat : Bool) (rm : Rnd) (s : State) : Res :=
  .next (s.roundingIf (scvtRounds dt st) rm fun m =>
    let n := s.count16 rc
    s.stream [⟨sd, sbytes dt, scount dt n⟩, ⟨sa, sbytes st, scount st n⟩]
      (s.cmd (.vscvt sd sa rc dt st sat rm) 0 0 0 (s.rd rc) 0 m))

/-! ### Running (R222-R225, R227) -/

/-- What a run carries on: the state, the flags so far, the elements of the current destination row that are poisoned. -/
structure Run1 where
  s     : State
  flags : Flags
  bad   : Bool
  deriving DecidableEq, Repr

/-- Reads an element of a stream: its value and whether a row it touches is poisoned. -/
def State.elem (s : State) (n : Nat) (p : BitVec 32) (e j : Nat) : Nat × Bool :=
  let a := (elemAddr p j).toNat
  (leNat (s.lmem n a e), s.lpoison n a e)

/-- Writes an element; from a poisoned source it poisons every row it touches. -/
def State.putElem (s : State) (n : Nat) (p : BitVec 32) (e j v : Nat) (psn : Bool) : State :=
  s.lwrite n (elemAddr p j).toNat (leBytes e v) psn

/-- A stream as groups of elements see it (R227): its pointer, the bytes of an entry, the elements that an entry holds. -/
structure Lane where
  p   : BitVec 32
  e   : Nat
  per : Nat := 1
  deriving DecidableEq, Repr

/-- The address of the entry with element `j`. -/
def Lane.addr (l : Lane) (j : Nat) : Int := elemAddr l.p (j / l.per)

/-- Do elements `j0` to `j` share one 16-byte row of a stream? -/
def Lane.sameRow (l : Lane) (j0 j : Nat) : Bool := l.addr j0 / 16 == (l.addr j + (l.e : Int) - 1) / 16

/-- Element `j` ends a group that writes a whole row of d (R227): every stream has stride e, and the row's elements lie
in one row of each stream. -/
def endsRow (ps : List Lane) (j : Nat) : Bool :=
  match ps with
  | [] => false
  | d :: _ =>
    let k := 16 / d.e
    (ps.all fun l => spStride l.p == (l.e : Int)) && 16 % d.e == 0 && k ≤ j + 1
    && (d.addr (j + 1 - k)) % 16 == 0 && ps.all fun l => l.sameRow (j + 1 - k) j

/-- After element `j`: a row of d that a group has written whole loses its poison, unless an element of it was poisoned
(spec/10 R195). -/
def Run1.close (r : Run1) (n : Nat) (ps : List Lane) (j : Nat) (psn : Bool) : Run1 :=
  match ps with
  | [] => r
  | d :: _ =>
    let fresh := (d.addr j) % 16 == 0
    let bad := if fresh then psn else r.bad || psn
    if endsRow ps j && !bad then
      let row := ((d.addr j) / 16).toNat
      { r with
        s := r.s.onCore n fun c => { c with mem := { c.mem with lpsn := c.mem.lpsn.filter (· != row) } }
        bad := bad }
    else { r with bad := bad }

/-- Runs `f` for elements 0 to n - 1 in order: each reads its sources, then writes element j of d. `ps` are the streams,
d first. -/
def State.elements (s : State) (n : Nat) (ps : List Lane) (count : Nat)
    (f : State → Nat → Nat × Flags × Bool) : State × Flags :=
  let r := (List.range count).foldl (fun (r : Run1) j =>
    let v := f r.s j
    match ps with
    | [] => r
    | d :: _ =>
      ({ r with s := r.s.putElem n d.p d.e j v.1 v.2.2, flags := r.flags ||| v.2.1 } : Run1).close n ps j v.2.2)
    ⟨s, 0, false⟩
  (r.s, r.flags)

/-- e^(a - x), rounded once (R222). -/
def fExpDiff (f : FFmt) (rm : RMode) (a x : Nat) : Nat × Flags :=
  let va := unpack f a
  let vx := unpack f x
  nanOr f [va, vx] <|
    match va, vx with
    | .inf p, .inf q => if p = q then (f.dnan, flagNV) else (if p then 0 else f.inf, 0)
    | .inf p, _ => (if p then 0 else f.inf, 0)
    | _, .inf q => (if q then f.inf else 0, 0)
    | _, _ => expDy f rm (va.dy.add vx.dy.neg)

/-- Partial format of R71: FP64 for f64, else FP32. -/
def partFmt (t : EType) : FFmt := if t = .f64 then fmtF64 else fmtF32

/-- An element widened exactly to the partials' format. -/
def widen (t : EType) (x : Nat) : Nat × Flags := if t = .f64 then (x, 0) else fConv (eFmt t) fmtF32 .rne x

/-- The four partials of R71 after one more element: `k` its index, `step` adds it to a partial. -/
def stepPartial (ps : List Nat) (k : Nat) (step : Nat → Nat × Flags) : List Nat × Flags :=
  let r := step (ps.getD (k % 4) 0)
  (ps.set (k % 4) r.1, r.2)

/-- The sum of the partials, rounded to the element type (R71, R224). -/
def closePartials (t : EType) (rm : RMode) (ps : List Nat) : Nat × Flags :=
  let f := partFmt t
  let a := fAdd f rm (ps.getD 0 0) (ps.getD 1 0)
  let b := fAdd f rm (ps.getD 2 0) (ps.getD 3 0)
  let c := fAdd f rm a.1 b.1
  let d := if t = .f16 || t = .bf16 then fConv f (eFmt t) rm c.1 else c
  (d.1, a.2 ||| b.2 ||| c.2 ||| d.2)

/-- A stream reduction (R224): the terms are read in order, then one element is written. -/
def State.reduceStream (s : State) (n : Nat) (d : BitVec 32) (t : EType) (rm : RMode) (count : Nat)
    (term : State → Nat → (Nat → Nat × Flags) × Bool) : State × Flags :=
  let z := (partFmt t).signBit
  let r := (List.range count).foldl (fun (r : List Nat × Flags × Bool) j =>
    let (step, psn) := term s j
    let (ps, fl) := stepPartial r.1 j step
    (ps, r.2.1 ||| fl, r.2.2 || psn)) ([z, z, z, z], 0, false)
  let v := closePartials t rm r.1
  (s.putElem n d (ebytes t) 0 v.1 r.2.2, r.2.1 ||| v.2)

/-- An element-wise operation of two sources. -/
def State.run2 (s : State) (n : Nat) (c : Cmd) (t : EType) (count : Nat) (f : Nat → Nat → Nat × Flags) : State × Flags :=
  match c.ptrs with
  | [d, a, b] =>
    let e := ebytes t
    s.elements n [⟨d, e, 1⟩, ⟨a, e, 1⟩, ⟨b, e, 1⟩] count fun s j =>
      let x := s.elem n a e j
      let y := s.elem n b e j
      let r := f x.1 y.1
      (r.1, r.2, x.2 || y.2)
  | _ => (s, 0)

/-- An element-wise operation of one source. -/
def State.run1 (s : State) (n : Nat) (c : Cmd) (t : EType) (count : Nat) (f : Nat → Nat × Flags) : State × Flags :=
  match c.ptrs with
  | [d, a] =>
    let e := ebytes t
    s.elements n [⟨d, e, 1⟩, ⟨a, e, 1⟩] count fun s j =>
      let x := s.elem n a e j
      let r := f x.1
      (r.1, r.2, x.2)
  | _ => (s, 0)

/-- The 16 FP32 values of floe `k` to be encoded (R225): elements past `count` are +0.
(log 30: DEDUCED) -/
def State.floeSource (s : State) (n : Nat) (a : BitVec 32) (t : EType) (count k : Nat) : List Nat × Bool :=
  let js := (List.range 16).map fun i => 16 * k + i
  (js.map fun j => if j < count then (fConv (eFmt t) fmtF32 .rne (s.elem n a (ebytes t) j).1).1 else 0,
   js.any fun j => j < count && (s.elem n a (ebytes t) j).2)

/-- VSCVT's run (R225). -/
def State.runCvt (s : State) (n : Nat) (c : Cmd) (dt st : SType) (sat : Bool) (rm : RMode) (count : Nat) :
    State × Flags :=
  match c.ptrs, dt, st with
  | [d, a], .elem x, .elem y =>
    s.elements n [⟨d, ebytes x, 1⟩, ⟨a, ebytes y, 1⟩] count fun s j =>
      let v := s.elem n a (ebytes y) j
      let r := eConv x y sat rm v.1
      (r.1, r.2, v.2)
  | [d, a], .floe f, .elem y =>
    s.elements n [⟨d, Floe.bytes f, 1⟩, ⟨a, 16 * ebytes y, 1⟩] (scount (.floe f) count) fun s k =>
      let v := s.floeSource n a y count k
      let r := floeEncode f v.1
      (leNat r.1, r.2, v.2)
  | [d, a], .elem x, .floe f =>
    s.elements n [⟨d, ebytes x, 1⟩, ⟨a, Floe.bytes f, 16⟩] count fun s j =>
      let at' := (elemAddr a (j / 16)).toNat
      let r := (floeDecode f (eFmt x) rm (s.lmem n at' (Floe.bytes f))).getD (j % 16) (0, 0)
      (r.1, r.2, s.lpoison n at' (Floe.bytes f))
  | _, _, _ => (s, 0)

/-- The run of a vector-stream operation that is not TAP: the state after its last write and its flags. -/
def State.runStream (s : State) (n : Nat) (c : Cmd) : State × Flags :=
  let rm := modeKept c.rnd
  let count := (c.c.extractLsb' 0 16).toNat
  match c.instr with
  | .vsadd _ _ _ _ t sat _ => s.run2 n c t count (eAdd t sat rm)
  | .vssub _ _ _ _ t sat _ => s.run2 n c t count (eSub t sat rm)
  | .vsmul _ _ _ _ t sat _ => s.run2 n c t count (eMul t sat rm)
  | .vsfma _ _ _ _ t sat _ =>
    (match c.ptrs with
      | [d, a, b] =>
        let e := ebytes t
        s.elements n [⟨d, e, 1⟩, ⟨a, e, 1⟩, ⟨b, e, 1⟩] count fun s j =>
          let x := s.elem n a e j
          let y := s.elem n b e j
          let z := s.elem n d e j
          let r := eFma t sat rm x.1 y.1 z.1
          (r.1, r.2, x.2 || y.2 || z.2)
      | _ => (s, 0))
  | .vsaxpy _ _ _ _ _ t sat _ => s.run2 n c t count fun a b => eFma t sat rm (c.x.toNat % 2 ^ t.bits) a b
  | .vsmax _ _ _ _ t => s.run2 n c t count (eMinMax t true)
  | .vsmin _ _ _ _ t => s.run2 n c t count (eMinMax t false)
  | .vsexp _ _ _ _ t _ => s.run1 n c t count fun a => fExpDiff (eFmt t) rm a (c.x.toNat % 2 ^ t.bits)
  | .vsred _ _ _ t _ =>
    (match c.ptrs with
      | [d, a] =>
        s.reduceStream n d t rm count fun s j =>
          let x := s.elem n a (ebytes t) j
          let w := widen t x.1
          (fun p => let r := fAdd (partFmt t) rm p w.1; (r.1, r.2 ||| w.2), x.2)
      | _ => (s, 0))
  | .vsdot _ _ _ _ t _ =>
    (match c.ptrs with
      | [d, a, b] =>
        s.reduceStream n d t rm count fun s j =>
          let x := s.elem n a (ebytes t) j
          let y := s.elem n b (ebytes t) j
          let wx := widen t x.1
          let wy := widen t y.1
          (fun p => let r := fFma (partFmt t) rm wx.1 wy.1 p; (r.1, r.2 ||| wx.2 ||| wy.2), x.2 || y.2)
      | _ => (s, 0))
  | .vscopy _ _ _ t => s.run1 n c t count fun a => (a, 0)
  | .vsfill _ _ _ t =>
    (match c.ptrs with
      | [d] => s.elements n [⟨d, ebytes t, 1⟩] count fun _ _ => (c.x.toNat % 2 ^ t.bits, 0, false)
      | _ => (s, 0))
  | .vscvt _ _ _ dt st sat _ => s.runCvt n c dt st sat rm count
  | _ => (s, 0)

end Sys2Proof.Machine
end

