-- ==== Sys2Proof/Machine/Matrix.lean ====
section
/-!
DEFINITION. Matrix commands (spec/11 R228-R238): issue and run of MXWL, MXWF, MXA, MXD, MXZ, MXSTAT; MXREM and the
arrival of a remote command.
-/
set_option linter.constructorNameAsVariable false

namespace Sys2Proof.Machine

/-! ### Formats (R229) -/

/-- Bytes of one row of 16 elements. -/
def mxBytes : MxFmt → Nat
  | .fl2 => 8
  | .fl4 => 12
  | .fl7 => 18
  | .i8 => 16
  | .f16 => 32
  | .bf16 => 32
  | .f32 => 64

/-- The floe of a floe format. -/
def mxFloe : MxFmt → Option Floe
  | .fl2 => some .fl2
  | .fl4 => some .fl4
  | .fl7 => some .fl7
  | _ => none

/-- The 16 elements of a row as FP32 patterns, exactly. -/
def mxDecode (f : MxFmt) (bs : List Byte) : List (BitVec 32) :=
  match mxFloe f with
  | some g => (floeDecode g fmtF32 .rne bs).map fun x => BitVec.ofNat 32 x.1
  | none =>
    (List.range 16).map fun k =>
      match f with
      | .i8 => BitVec.ofNat 32 (intToFloat fmtF32 .rne (intValue 8 true (bs.getD k 0).toNat)).1
      | .f16 => BitVec.ofNat 32 (fConv fmtF16 fmtF32 .rne (leNat ((bs.drop (2 * k)).take 2))).1
      | .bf16 => BitVec.ofNat 32 (fConv fmtBF16 fmtF32 .rne (leNat ((bs.drop (2 * k)).take 2))).1
      | _ => BitVec.ofNat 32 (leNat ((bs.drop (4 * k)).take 4))

/-- Are activations of a format accepted with weights of another (R231)? -/
def mxAccepts (w a : MxFmt) : Bool :=
  match w, a with
  | .i8, .i8 => true
  | .f16, .f16 | .f16, .bf16 | .bf16, .f16 | .bf16, .bf16 => true
  | w, a => (mxFloe w).isSome && (mxFloe a).isSome

/-- Flags as the status word holds them: NV, OF, UF, NX from bit 0 (R235). -/
def mxFlags (f : Flags) : BitVec 4 :=
  BitVec.ofNat 4 (bit1 (f.getLsbD 0) + 2 * bit1 (f.getLsbD 2) + 4 * bit1 (f.getLsbD 3) + 8 * bit1 (f.getLsbD 4))

/-! ### The engine's state -/

/-- Changes a core's matrix engine. -/
def State.onMat (s : State) (n : Nat) (f : Matrix → Matrix) : State :=
  s.onCore n fun c => { c with eng := { c.eng with mat := f c.eng.mat } }

/-- A core's matrix engine. -/
def State.mat (s : State) (n : Nat) : Matrix := (s.core n).eng.mat

/-- The active buffer. -/
def Matrix.act (m : Matrix) : WBuf := if m.active then m.buf1 else m.buf0

/-- Sets the inactive buffer. -/
def Matrix.load (m : Matrix) (b : WBuf) : Matrix := if m.active then { m with buf0 := b } else { m with buf1 := b }

/-- Row `r` of the accumulator. -/
def Matrix.row (m : Matrix) (r : Nat) : List (BitVec 32) := (m.acc.drop (16 * r)).take 16

/-- Sets a row of the accumulator. -/
def Matrix.setRow (m : Matrix) (r : Nat) (v : List (BitVec 32)) : Matrix :=
  { m with acc := m.acc.take (16 * r) ++ v ++ m.acc.drop (16 * r + 16) }

/-- Sets or clears the poison of an accumulator row. -/
def Matrix.markRow (m : Matrix) (r : Nat) (b : Bool) : Matrix :=
  let bit : BitVec 64 := BitVec.ofNat 64 (2 ^ r)
  { m with accPsn := if b then m.accPsn ||| bit else m.accPsn &&& ~~~bit }

/-- The status word (R235). -/
def Matrix.status (m : Matrix) : Word :=
  packWord [(m.rerun.toNat, 48), (m.act.handle.toNat, 16), (bit1 m.act.tagged, 15), (MxFmt.code m.act.fmt, 12),
    (bit1 m.active, 11), (bit1 m.nfault, 5), (bit1 (m.accPsn != 0), 4), (m.flags.toNat, 0)]

/-! ### Issue checks -/

/-- The accumulator check of R231. -/
def accBad (c n : Word) : Option Word :=
  if 64 < n.toNat || 63 < c.toNat || 64 < c.toNat + n.toNat then some (engTval .mx 4 c.toNat) else none

/-- A local range of a matrix command. -/
def State.mxRange (s : State) (n : Nat) (a len : Nat) : Option Word :=
  (s.localBad n a len).map fun x => engTval .mx 2 x

/-- The issue checks of a matrix command on core `n`, over the values it takes (R230-R234): the first that fails.
An MXA of no rows is checked like any other (R231 says only that it passes the checks; log 102: DESIGN CHOICE). -/
def State.mxCheck (s : State) (n : Nat) (i : Instr) (d a b c : Word) : Option Word :=
  match i with
  | .mxwl fmt _ _ => s.mxRange n a.toNat (16 * mxBytes fmt)
  | .mxa fmt _ _ _ _ jn split =>
    let bytes := mxBytes fmt
    let rows : Option Word :=
      if split then
        (s.mxRange n a.toNat ((b.toNat + 1) / 2 * bytes)).orElse fun _ =>
          s.mxRange n (a.toNat + 0x2000) (b.toNat / 2 * bytes)
      else s.mxRange n a.toNat (b.toNat * bytes)
    let table : Option Word :=
      if jn = 0 then none
      else if c.toNat % 8 != 0 then some (engTval .mx 2 c.toNat)
      else s.mxRange n c.toNat (8 * jn.toNat)
    ((accBad d b).orElse fun _ => rows).orElse fun _ => table
  | .mxd fmt _ _ _ _ => (accBad b c).orElse fun _ => s.mxRange n a.toNat (c.toNat * mxBytes fmt)
  | .mxz _ _ => accBad a b
  | _ => none

/-- Issue of a matrix command over the values of rd, ra, rb, rc. -/
def State.matrix (s : State) (i : Instr) (d a b c : Word) : State :=
  s.command .mx (s.mxCheck s.ctx.core i d a b c) (s.cmd i d a b c 0 .rne)

/-- MXWL (spec/11 R230): Queues a weight tile load into the inactive buffer. -/
def execMxwl (fmt : MxFmt) (ra rb : Reg) (s : State) : Res :=
  .next (s.matrix (.mxwl fmt ra rb) 0 (s.rd ra) (s.rd rb) 0)

/-- MXWF (spec/11 R230): Queues an exchange of the active and inactive weight buffers. -/
def execMxwf (s : State) : Res := .next (s.matrix .mxwf 0 0 0 0)

/-- MXA (spec/11 R231): Queues activation rows through the active weights into the accumulator. -/
def execMxa (fmt : MxFmt) (rd ra rb rc : Reg) (jn : BitVec 5) (split : Bool) (s : State) : Res :=
  .next (s.matrix (.mxa fmt rd ra rb rc jn split) (s.rd rd) (s.rd ra) (s.rd rb) (s.rd rc))

/-- MXD (spec/11 R233): Queues a drain of accumulator rows into local memory. -/
def execMxd (fmt : MxFmt) (ra rb rc : Reg) (clr : Bool) (s : State) : Res :=
  .next (s.matrix (.mxd fmt ra rb rc clr) 0 (s.rd ra) (s.rd rb) (s.rd rc))

/-- MXZ (spec/11 R234): Queues a clear of accumulator rows. -/
def execMxz (ra rb : Reg) (s : State) : Res := .next (s.matrix (.mxz ra rb) 0 (s.rd ra) (s.rd rb) 0)

/-- MXSTAT enters the matrix queue; its result waits under the command's number (R235). -/
def execMxstat (rd : Reg) (pick : BitVec 2) (s : State) : Res :=
  .next (if 2 ≤ (s.queue s.ctx.core .mx).length then s.stall .queue
    else
      let r : Async := ⟨s.nextId, .engine, s.destOf rd, .zx, List.replicate 8 (.miss 0), 0, false, s.ctx.word, s.level, false⟩
      (s.addPend r).enter .mx (s.cmd (.mxstat rd pick) 0 0 0 0 0 .rne))

/-! ### Running -/

/-- One accumulator entry of a step (spec/02 R72): c plus sixteen products, exactly, rounded once. `int` marks products
of integers, whose zeros have no sign. -/
def mxStep (int : Bool) (c : BitVec 32) (a w : List (BitVec 32)) : BitVec 32 × Flags :=
  let vc := unpack fmtF32 c.toNat
  let ps := (a.zip w).map fun p => (unpack fmtF32 p.1.toNat, unpack fmtF32 p.2.toNat)
  let nan := vc.isNaN || ps.any fun p => p.1.isNaN || p.2.isNaN || (p.1.isInf && p.2.isZero) || (p.1.isZero && p.2.isInf)
  let infs := (ps.filterMap fun p => if p.1.isInf || p.2.isInf then some (p.1.sign != p.2.sign) else none)
    ++ (if vc.isInf then [vc.sign] else [])
  if nan || (infs.any id && infs.any (!·)) then (BitVec.ofNat 32 fmtF32.dnan, flagNV)
  else
    match infs with
    | sg :: _ => (BitVec.ofNat 32 (withSign fmtF32 sg fmtF32.inf), 0)
    | [] =>
      let neg := vc.isZero && vc.sign && !int
        && ps.all fun p => (p.1.isZero || p.2.isZero) && p.1.sign != p.2.sign
      let r := roundDy fmtF32 .rne (Dy.sum ((ps.map fun p => p.1.dy.mul p.2.dy) ++ [vc.dy])) neg
      (BitVec.ofNat 32 r.1, r.2)

/-- Column `col` of 16 rows of weights. -/
def column (w : List (BitVec 32)) (col : Nat) : List (BitVec 32) := (List.range 16).map fun i => w.getD (16 * i + col) 0

/-- One row of MXA: the accumulator row and the flags. -/
def mxRow (int : Bool) (acc a w : List (BitVec 32)) : List (BitVec 32) × Flags :=
  mapFlags (fun col => mxStep int (acc.getD col 0) a (column w col)) (List.range 16)

/-- The entry that row `r` of a cumulative-length table belongs to (R232): its handle. -/
def tableHandle (es : List Nat) (r : Nat) : Option (BitVec 20) :=
  (es.find? fun e => r < e / 2 ^ 32 % 2 ^ 16).map fun e => BitVec.ofNat 20 e

/-- Is a row skipped (R232)? -/
def rowSkipped (w : WBuf) (es : List Nat) (r : Nat) : Bool :=
  match tableHandle es r with
  | none => true
  | some h => w.tagged && h != w.handle

/-- Where activation row `r` lies (R231). -/
def actAddr (split : Bool) (a bytes r : Nat) : Nat :=
  if split then a + r / 2 * bytes + r % 2 * 0x2000 else a + r * bytes

/-- One row of MXA: skipped by the table, or accumulated, poisoned by a poisoned row or buffer. -/
def State.mxaRow (s : State) (n : Nat) (fmt : MxFmt) (a : Nat) (split : Bool) (c : Nat) (es : Option (List Nat)) (r : Nat) :
    State :=
  let w := (s.mat n).act
  let skip := match es with | some l => rowSkipped w l r | none => false
  if skip then s
  else
    let at' := actAddr split a (mxBytes fmt) r
    let x := mxDecode fmt (s.lmem n at' (mxBytes fmt))
    let psn := w.psn || s.lpoison n at' (mxBytes fmt)
    let v := mxRow (fmt == .i8) ((s.mat n).row (c + r)) x w.w
    s.onMat n fun m =>
      let m1 := { m.setRow (c + r) v.1 with flags := m.flags ||| mxFlags v.2 }
      if psn then m1.markRow (c + r) true else m1

/-- The checksum of an MXA may fail, once or twice (R236); whether it does is a free choice (log 6: DESIGN CHOICE). -/
def State.mxChecksum (s : State) (n c rows : Nat) (written : Nat → Bool) : State :=
  if !s.choice 500 then s
  else
    let s := (s.noteError (.core n)).onMat n fun m =>
      { m with rerun := if m.rerun = 0xFFFF then m.rerun else m.rerun + 1 }
    if s.choice 501 then
      (List.range rows).foldl (fun s r => if written r then s.onMat n fun m => m.markRow (c + r) true else s) s
    else s

/-- MXA's run (R231): the failure, if it ends in one. The activation rows it reads are counted (spec/16 R318). -/
def State.runMxa (s : State) (n : Nat) (who : Option (BitVec 2)) (fmt : MxFmt) (jn : BitVec 5) (split : Bool)
    (c a rows t : Nat) : State × Option Word :=
  let w := (s.mat n).act
  if rows = 0 then (s, none)
  else if !mxAccepts w.fmt fmt then (s, some (engTval .mx 6 0))
  else
    match (List.range jn.toNat).find? fun k => s.lpoison n (t + 8 * k) 8 with
    | some k => (s, some (engTval .mx 3 (t + 8 * k)))
    | none =>
      let es : Option (List Nat) :=
        if jn = 0 then none else some ((List.range jn.toNat).map fun k => leNat (s.lmem n (t + 8 * k) 8))
      let s1 := (List.range rows).foldl (fun s r => s.mxaRow n fmt a split c es r) s
      let written (r : Nat) : Bool := match es with | some l => !rowSkipped w l r | none => true
      ((s1.mxChecksum n c rows written).count n who 11 ((List.range rows).filter written).length, none)

/-- The bytes and flags of a drained accumulator row (R233). -/
def mxDrain (f : MxFmt) (row : List (BitVec 32)) : List Byte × Flags :=
  match mxFloe f with
  | some g => floeEncode g (row.map BitVec.toNat)
  | none =>
    match f with
    | .f16 => (row.flatMap fun x => leBytes 2 (fConv fmtF32 fmtF16 .rne x.toNat).1,
        row.foldl (fun fl x => fl ||| (fConv fmtF32 fmtF16 .rne x.toNat).2) 0)
    | .bf16 => (row.flatMap fun x => leBytes 2 (fConv fmtF32 fmtBF16 .rne x.toNat).1,
        row.foldl (fun fl x => fl ||| (fConv fmtF32 fmtBF16 .rne x.toNat).2) 0)
    | _ => (row.flatMap fun x => leBytes 4 x.toNat, 0)

/-- One row of MXD. -/
def State.mxdRow (s : State) (n : Nat) (fmt : MxFmt) (clr : Bool) (a c r : Nat) : State :=
  let m := s.mat n
  let v := mxDrain fmt (m.row (c + r))
  (s.lwrite n (a + r * mxBytes fmt) v.1 (m.accPsn.getLsbD (c + r))).onMat n fun m =>
    let m1 := { m with flags := m.flags ||| mxFlags v.2 }
    if clr then (m1.setRow (c + r) (List.replicate 16 0)).markRow (c + r) false else m1

/-- MXSTAT's value, and the engine after it (R235). -/
def Matrix.stat (m : Matrix) (pick : BitVec 2) : Word × Matrix :=
  match pick.toNat with
  | 0 => (m.status, m)
  | 1 => (m.accPsn, m)
  | _ => (m.status, { m with flags := 0, nfault := false })

/-- The run of a matrix command: the state after its last write, its failure, the value of an MXSTAT. -/
def State.runMatrix (s : State) (n : Nat) (c : Cmd) : State × Option Word × Word :=
  match c.fail with
  | some v => (s, some v, 0)
  | none =>
    match c.instr with
    | .mxwl fmt _ _ =>
      let a := c.a.toNat
      let len := 16 * mxBytes fmt
      let w := (List.range 16).flatMap fun r => mxDecode fmt (s.lmem n (a + r * mxBytes fmt) (mxBytes fmt))
      (s.onMat n fun m => m.load ⟨w, fmt, c.b.getLsbD 20, c.b.extractLsb' 0 20, s.lpoison n a len⟩, none, 0)
    | .mxwf => (s.onMat n fun m => { m with active := !m.active }, none, 0)
    | .mxa fmt _ _ _ _ jn split =>
      let who : Option (BitVec 2) := if c.thr < 4 then some (tid c.thr) else none
      let r := s.runMxa n who fmt jn split c.d.toNat c.a.toNat c.b.toNat c.c.toNat
      (r.1, r.2, 0)
    | .mxd fmt _ _ _ clr =>
      ((List.range c.c.toNat).foldl (fun s r => s.mxdRow n fmt clr c.a.toNat c.b.toNat r) s, none, 0)
    | .mxz _ _ =>
      ((List.range c.b.toNat).foldl (fun s r =>
        s.onMat n fun m => (m.setRow (c.a.toNat + r) (List.replicate 16 0)).markRow (c.a.toNat + r) false) s, none, 0)
    | .mxstat _ pick =>
      let r := (s.mat n).stat pick
      (s.onMat n fun _ => r.2, none, r.1)
    | _ => (s, none, 0)

/-! ### Remote commands (R237, R238) -/

/-- MXREM (spec/11 R238): Sends a matrix command to another core of the cluster. -/
def execMxrem (rd ra rb : Reg) (s : State) : Res :=
  let n := s.ctx.core
  let dst0 := (s.rd ra).toNat
  let a := (s.rd rb).toNat
  let c := s.core n
  .next (if !c.regs.mxen || clusterOf dst0 != clusterOf n || !c.regs.mxmask.getLsbD (dst0 % 32) then
      s.trap .engine (engTval .mx 5 dst0)
    else if a % 16 != 0 then s.trap .engine (engTval .mx 2 a)
    else
      match s.localBad n a 48 with
      | some x => s.trap .engine (engTval .mx 2 x)
      | none =>
        let (id, s) := s.fresh
        let r : Async := ⟨id, .engine, s.destOf rd, .zx, List.replicate 8 (.miss 0), 0, false, s.ctx.word, s.level, false⟩
        let msg : MxMsg := ⟨id, n, s.ctx.thr.toNat, s.level, s.lmem n a 48, s.lpoison n a 48, s.outstanding n s.ctx.thr⟩
        (((s.addPend r).onCore dst0 fun k => { k with eng := { k.eng with inbox := k.eng.inbox ++ [msg] } }).track id).retire)

/-- A field of a descriptor. -/
def descWord (m : MxMsg) (off : Nat) : Word := BitVec.ofNat 64 (leNat ((m.desc.drop off).take 8))

/-- The command of a descriptor: one of the five, a legal encoding with register fields of zero. -/
def descInstr (w : Word) : Option Instr :=
  match decodeWord nativeOp w with
  | some (.mxwl f 0 0) => some (.mxwl f 0 0)
  | some .mxwf => some .mxwf
  | some (.mxa f 0 0 0 0 jn sp) => some (.mxa f 0 0 0 0 jn sp)
  | some (.mxd f 0 0 0 clr) => some (.mxd f 0 0 0 clr)
  | some (.mxz 0 0) => if w.extractLsb' 32 32 = 0 then some (.mxz 0 0) else none
  | _ => none

/-- Is a notify address of a remote command acceptable (R238, status 4)? -/
def State.notifyOk (s : State) (n : Nat) (a : Word) : Bool :=
  a == 0 || (a.toNat % 8 == 0 && (s.rangeBad n a 8).isNone)

/-- What the target decides about a remote command: 0 accepted, or the refusal code; of several that apply the lowest, for
which R238 gives no order (log 103: DESIGN CHOICE). -/
def State.remoteStatus (s : State) (n : Nat) (m : MxMsg) : Nat :=
  if !(s.core n).regs.mxacc || 2 ≤ (s.queue n .mx).length then 1
  else if (descInstr (descWord m 0)).isNone then 2
  else if m.psn then 3
  else if !s.notifyOk n (descWord m 40) then 4
  else 0

/-- The value of an awaited result arrives: it can land. -/
def State.supply (s : State) (n : Nat) (t : BitVec 2) (id : Nat) (v : Word) : State :=
  s.onPend n t fun l => l.map fun a => if a.id = id then { a with bytes := (leBytes 8 v.toNat).map .have } else a

/-- The queued form of an accepted remote command; one that fails an issue check fails when it runs. -/
def State.remoteCmd (s : State) (n : Nat) (m : MxMsg) (i : Instr) : Cmd :=
  let d := descWord m 8
  let a := descWord m 16
  let b := descWord m 24
  let c := descWord m 32
  { s.cmd i d a b c 0 .rne with
    id := m.id, thr := 4, word := descWord m 0, pc := 0, regs := m.regs, tag := 0, level := m.level
    notify := if descWord m 40 = 0 then none else some (descWord m 40)
    fail := s.mxCheck n i d a b c }

/-- MXREM_ARRIVAL (spec/11 R238): A remote matrix command arrives at its target, which accepts or refuses it.
(log 51: DEDUCED) -/
def execMxremArrival (core : Nat) (s : State) : Res :=
  .next (match (s.core core).eng.inbox with
    | [] => s
    | m :: rest =>
      if s.frozen core && s.domKey core != s.domKey m.core then s
      else
        let st := s.remoteStatus core m
        let s := s.onCore core fun k => { k with eng := { k.eng with inbox := rest } }
        let s := match st, descInstr (descWord m 0) with
          | 0, some i => s.onQueue core .mx fun q => q ++ [s.remoteCmd core m i]
          | _, _ => s
        s.supply m.core (tid m.thr) m.id (BitVec.ofNat 64 st))

end Sys2Proof.Machine
end

