-- ==== Sys2Proof/Machine/CoreControl.lean ====
section
/-!
DEFINITION. QFENCE, gangs, checkpoints of a lockstep pair and its rollback, and the cache-line instructions
(spec/10 R209-R217; spec/11 R246-R250).
-/
set_option linter.constructorNameAsVariable false

namespace Sys2Proof.Machine

/-! ### QFENCE (R246) -/

/-- Does a QFENCE mask name an engine? -/
def names (mask : BitVec 3) (e : Eng) : Bool := mask.getLsbD (engCode e)

/-- The operations in the named queues. -/
def State.queued (s : State) (n : Nat) (mask : BitVec 3) : List Nat :=
  ([Eng.vs, Eng.mx, Eng.cp].filter (names mask)).flatMap fun e => (s.queue n e).map Cmd.id

/-- The end of a QFENCE: the earliest failure among the operations it covers traps; else flags are merged and it is an
acquire. -/
def State.qfenceEnd (s : State) (mask : BitVec 3) : State :=
  match s.failure (fun u => names mask u.eng) with
  | some (v, s) => s.trap .engine v
  | none => ((s.mergeFlags fun u => names mask u.eng).acquire s.ctx.core).retire

/-- QFENCE (spec/11 R246): Waits for the named engine queues, then acquires. -/
def execQfence (mask : BitVec 3) (s : State) : Res :=
  let n := s.ctx.core
  let now := s.queued n mask
  let ids := match s.stage with
    | some (.engines l) => l.filter now.contains
    | _ => now
  .next (if ids.isEmpty then s.qfenceEnd mask else s.stall (.engines ids))

/-! ### Gangs (R247, R248; spec/10 R209-R211) -/

/-- Sets or removes a core's place for slot `k`. -/
def State.setSlot (s : State) (n k : Nat) (g : Option GangSlot) : State :=
  s.onCore n fun c => { c with gang := match g with | some x => assocPut c.gang k x | none => assocDel c.gang k }

/-- The cores that a follower mask names. -/
def gangNamed (n : Nat) (mask : BitVec 32) : List Nat :=
  ((List.range 32).filter fun c => mask.getLsbD c).map fun c => clusterOf n * 32 + c

/-- Is slot `k` of a core in a gang that has not ended? -/
def State.inGang (s : State) (n k : Nat) : Bool := (s.gangSlot n k).any fun g => g.leader < Config.numCores

/-- Is GANG refused (R247)? -/
def State.gangRefused (s : State) (n k : Nat) (named : List Nat) : Bool :=
  (s.gangSlot n k).isSome
  || named.any fun m =>
      m ≤ n || (s.core m).launch != (s.core n).launch || (s.thread m (tid k)).run.life == .absent || s.shadow m
      || s.inGang m k

/-- What a thread waits for changes. -/
def State.setWait (s : State) (n : Nat) (t : BitVec 2) (w : Wait) : State :=
  s.onThread n t fun th => { th with run := { th.run with wait := some w } }

/-- The members of a gang that wait at a REJOIN leave it. -/
def State.leaveRejoin (s : State) (k : Nat) (ms : List Nat) : State :=
  ms.foldl (fun s m => if (s.thread m (tid k)).run.wait == some .rejoin then s.setWait m (tid k) (.granted 0) else s) s

/-- GANG with mask 0 (R247): a led gang ends for every member. An attached follower has yet to issue what it has been
forwarded, this GANG last; it is no member meanwhile (log 50: DEDUCED). -/
def State.gangEnd (s : State) (n k : Nat) : State :=
  if s.leads n k then
    let att := s.attachedTo n k
    let s1 := s.leaveRejoin k (s.followers n k)
    (s.followers n k).foldl (fun s m => s.setSlot m k (if att.contains m then some ⟨Config.numCores + n, true⟩ else none))
      (s1.setSlot n k none)
  else s

/-- A follower has issued the GANG that ended its gang: it continues on its own. -/
def State.gangLeave (s : State) (n k : Nat) : State :=
  if (s.gangSlot n k).isSome && !s.inGang n k then
    (s.setSlot n k none).onThread n (tid k) fun t => { t with run := { t.run with fwdq := [] } }
  else s

/-- GANG (spec/11 R247): Forms or dissolves a gang for the thread's slot. -/
def execGang (rd ra : Reg) (s : State) : Res :=
  let n := s.ctx.core
  let k := s.ctx.thr.toNat
  let mask : BitVec 32 := (s.rd ra).extractLsb' 0 32
  .next (if mask = 0 then ((s.wr rd 0).gangEnd n k |>.gangLeave n k).retire
    else if s.gangRefused n k (gangNamed n mask) then ((s.wr rd 1).gangLeave n k).retire
    else
      let s1 := (gangNamed n mask).foldl (fun s m =>
        (s.setSlot m k (some ⟨n, false⟩)).onThread m (tid k) fun t => { t with run := { t.run with fwdq := [] } })
        (s.setSlot n k (some ⟨n, true⟩))
      (s1.wr rd 0).retire)

/-- DETACH (spec/11 R248): Detaches an attached gang follower. -/
def execDetach (s : State) : Res :=
  .next (if ((s.gangSlot s.ctx.core s.ctx.thr.toNat).any GangSlot.attached) then
      (s.detach s.ctx.core s.ctx.thr.toNat).retire
    else s.retire)

/-- Has a thread stopped for good? -/
def State.ended (s : State) (n k : Nat) : Bool :=
  (s.thread n (tid k)).run.life == .stopped || (s.thread n (tid k)).run.life == .faulted

/-- Has a member reached a REJOIN at an address: waiting there, or attached with nothing left in its queue (R211)? -/
def State.reached (s : State) (m k : Nat) (a : Word) : Bool :=
  let t := s.thread m (tid k)
  t.pc == a
  && (match s.gangSlot m k with
      | some g => if g.attached && g.leader != m then t.run.fwdq.isEmpty else t.run.wait == some .rejoin
      | none => false)

/-- REJOIN of a leader: once every follower has reached it or stopped, those that wait there are attached. -/
def State.rejoinLeader (s : State) (n k : Nat) : State :=
  let fs := s.followers n k
  if fs.all fun m => s.ended m k || s.reached m k s.ctx.a then
    ((fs.filter fun m => !s.ended m k).foldl (fun s m => s.setSlot m k (some ⟨n, true⟩)) s).retire
  else s.stall .rejoin

/-- REJOIN of a member whose leader has stopped: once every other member has reached it or stopped, all that wait there go
on (R211). -/
def State.rejoinAlone (s : State) (leader n k : Nat) : State :=
  let fs := (s.followers leader k).filter (· != n)
  if fs.all fun m => s.ended m k || s.reached m k s.ctx.a then (s.leaveRejoin k fs).retire else s.stall .rejoin

/-- REJOIN (spec/10 R211): Waits until every gang member reaches the same REJOIN, then attaches. -/
def execRejoin (s : State) : Res :=
  let n := s.ctx.core
  let k := s.ctx.thr.toNat
  .next (match s.gangSlot n k with
    | none => s.retire
    | some g =>
      if s.stage == some (.granted 0) || (g.attached && g.leader != n) then s.retire
      else if g.leader = n then s.rejoinLeader n k
      else if s.ended g.leader k then s.rejoinAlone g.leader n k
      else s.stall .rejoin)

/-! ### Lockstep (spec/10 R214-R216) -/

/-- A checkpoint of a pair: the threads and engines as they are, the undo log empty. -/
def State.checkpoint (s : State) (n : Nat) : State :=
  s.onCore n fun c =>
    { c with lock := { c.lock with log := [], saved := c.thr.toList, engs := some c.eng } }

/-- CHKPT (spec/11 R248): Takes a lockstep checkpoint, or does nothing off lockstep. -/
def execChkpt (s : State) : Res :=
  .next (if s.lockstep s.ctx.core then (s.retire).checkpoint s.ctx.core else s.retire)

/-- LOCKSTEP_CHECKPOINT (spec/10 R214): A lockstep pair records a checkpoint and empties its undo log. -/
def execLockstepCheckpoint (core : Nat) (s : State) : Res :=
  .next (if s.lockstep core && !s.shadow core then s.checkpoint core else s)

/-- Local memory of a core as it was at the checkpoint. -/
def Core.unlog (c : Core) (log : List (Nat × List Byte × Bool)) : Core :=
  log.foldl (fun c e =>
    let lpsn := if e.2.2 then insertNat e.1 c.mem.lpsn else c.mem.lpsn.filter (· != e.1)
    { c with mem := { c.mem with lmem := cellsWrite c.mem.lmem (e.1 * 16) e.2.1, lpsn := lpsn } }) c

/-- A pair returns to its checkpoint (R216); the rollback is counted. L1 stays as it is: the rule restores local memory and the
threads, and names no bytes written since in lines of software-managed pages (log 113: DESIGN CHOICE). -/
def State.rollback (s : State) (n : Nat) : State :=
  let log := (s.core n).lock.log
  let fresh := s.choice 700
  let s1 := (s.noteError (.core n)).onCore (n + 1) fun c => c.unlog log
  s1.onCore n fun c =>
    let c1 := c.unlog log
    let thr : Vector Thread 4 := match c.lock.saved with
      | [a, b, d, e] => #v[a, b, d, e]
      | _ => c.thr
    { c1 with
      thr := thr
      eng := c.lock.engs.getD c.eng
      lock := { c.lock with
        log := [], rbcount := if c.lock.rbcount = 0xFFFF then 0xFFFF else c.lock.rbcount + 1,
        hits := if fresh then 1 else c.lock.hits + 1 } }

/-- The loads and atomics of a core on peers whose values have yet to land. -/
def Core.peerReads (c : Core) : List Nat :=
  c.thr.toList.flatMap fun t => (t.run.pend.filter fun a =>
    (a.kind == .load || a.kind == .atomic) && match zoneOf a.addr.toNat with | .peer _ _ => true | _ => false).map Async.id

/-- The requests of a core that have left it and are not complete; L1I fills by their lines, above all numbers. -/
def State.leftCore (s : State) (n : Nat) : List Nat :=
  ((s.sharers n).flatMap fun k => ((s.outRegs k).filter fun r => r.src = n).map OutReg.id)
  ++ ((s.mem.homeq.filter fun r => r.src = n).map HomeReq.id)
  ++ ((s.mem.pushes.filter fun p => p.core = n).map PushMsg.id)
  ++ ((s.fabric.remote.filter fun r => r.core = n).map Remote.id)
  ++ (s.core n).req.pushes.map PushWait.id ++ (s.core n).peerReads ++ (s.core n).mem.fills.map (2 ^ 64 + ·)

/-- LOCKSTEP_MISMATCH (spec/10 R216): A lockstep comparison mismatches, and the pair rolls back or traps LOCKSTEP. No
request is performed twice: the pair returns once the requests that have left it have completed (log 46: DEDUCED). -/
def execLockstepMismatch (core : Nat) (s : State) : Res :=
  .next (if !s.lockstep core || s.shadow core || !(s.leftCore core).isEmpty then s
    else
      let s1 := s.rollback core
      if (s1.core core).lock.hits < 3 then s1
      else
        let s2 := s1.onCore core fun c => { c with lock := { c.lock with retire := true, hits := 0 } }
        (List.range 4).foldl (fun s k =>
          let th := s.thread core (tid k)
          if th.run.life == .live then s.trapAt core (tid k) th.pc .lockstep 3 else s) s2)

/-! ### Cache lines (R250) -/

/-- The physical byte of a cache-line instruction: its checks are those of a 1-byte load. -/
def State.lineOp (s : State) (ra : Reg) (f : State → Nat → Bool → State) : State :=
  match s.checkCur .read (s.rd ra) 1 with
  | (s, .trap c v) => s.trap c v
  | (s, .wait) => s.stall .translate
  | (s, .ok (.glob pa c :: _)) => f s pa c
  | (s, .ok _) => s.retire

/-- CWB on a software-managed page: the dirty bytes reach home, the line stays, clean. -/
def State.cleanLine (s : State) (agent num : Nat) : State :=
  match s.line? agent num with
  | none => s
  | some l =>
    (s.mergeHome num l.dirtyBytes).onLine agent num fun l =>
      { l with words := allWords.foldl (fun v w => set32 v w { get32 v w with dirty := 0 }) l.words }

/-- CWB (spec/11 R250): Writes back a line, or completes its registrations. -/
def execCwb (ra : Reg) (s : State) : Res :=
  .next (s.lineOp ra fun s pa c =>
    let agent := s.agentOf s.ctx.core pa
    if c then
      let ids := ((s.outRegs agent).filter fun r => r.line = lineOf pa && r.src = s.ctx.core).map OutReg.id
      (s.trackAll ids).retire
    else (s.cleanLine agent (lineOf pa)).retire)

/-- The V words of a line become I, and a pushed copy is dropped (R250). -/
def State.dropV (s : State) (agent num : Nat) : State :=
  s.onLine agent num fun l =>
    { l with
      push := false
      copy := 0
      words := (l.wordsIn .v).foldl (fun v w => set32 v w { get32 v w with st := .i }) l.words }

/-- CINV (spec/11 R250): Invalidates a data cache line. -/
def execCinv (ra : Reg) (s : State) : Res :=
  .next (s.lineOp ra fun s pa c =>
    let agent := s.agentOf s.ctx.core pa
    if !c then (s.dropLine agent (lineOf pa)).retire
    else if (s.holder agent (lineOf pa)).isSome then s.retire
    else (s.dropV agent (lineOf pa)).retire)

/-- IINV (spec/11 R250): Invalidates an instruction cache line. -/
def execIinv (ra : Reg) (s : State) : Res :=
  .next (s.lineOp ra fun s pa _ =>
    (s.onCurCore fun c =>
      { c with mem := { c.mem with l1i := c.mem.l1i.filter fun l => l.num != lineOf pa } }).retire)

end Sys2Proof.Machine
end

