-- ==== Sys2Proof/Machine/Fetch.lean ====
section
/-!
DEFINITION. Capturing instruction bytes (spec/10 R197-R201; spec/03 R88): blocks of 16 bytes from the own local window
or through L1I, the fetch buffer, and the faults of a fetch.
-/
set_option linter.constructorNameAsVariable false

namespace Sys2Proof.Machine

/-- What the capture of a block gives. -/
inductive Cap where
  | ok (bytes : List (Byte × Option Word))
  | fault
  | wait
  deriving DecidableEq, Repr

/-- Marks an L1I line used last (spec/10 R197: least recently used replacement). -/
def State.useIline (s : State) (n num : Nat) : State :=
  match (s.core n).mem.l1i.find? fun l => l.num = num with
  | none => s
  | some l => s.onCore n fun c =>
      { c with mem := { c.mem with l1i := (c.mem.l1i.filter fun x => x.num != num) ++ [l] } }

/-- Captures the 16-byte block at `b` for a thread of core `n` (spec/10 R199-R201). A byte carries the address that a
POISON on it reports: its row, or its word (R195, R197). -/
def State.captureBlock (s : State) (n : Nat) (t : BitVec 2) (level : Level) (b : Nat) : State × Cap :=
  match zoneOf b with
  | .own off =>
    if s.localEnd n ≤ off then (s, .fault)
    else
      let psn : Option Word := if s.lpoison n off 16 then some (BitVec.ofNat 64 off) else none
      (s, .ok ((s.lmem n off 16).map fun x => (x, psn)))
  | .global =>
    if (s.ctlOff n b).isSome then (s, .fault)
    else
    match s.translate n level .fetch b with
    | (s, .fault) => (s, .fault)
    | (s, .wait) => (s, .wait)
    | (s, .ok pa _) =>
      match (s.core n).mem.l1i.find? fun l => l.num = lineOf pa with
      | some l =>
        let bytes := (List.range 16).map fun k =>
          let at' := pa % 128 + k
          let psn : Option Word :=
            if l.psn.getLsbD (at' / 4) then some (BitVec.ofNat 64 ((b + k) / 4 * 4)) else none
          (l.bytes.getD at' 0, psn)
        (s.useIline n l.num, .ok bytes)
      | none =>
        if (s.core n).mem.fills.contains (lineOf pa) then (s, .wait)
        else
          ((s.onCore n fun c => { c with mem := { c.mem with fills := insertNat (lineOf pa) c.mem.fills } }).count n
            (some t) 5 1, .wait)
  | _ => (s, .fault)

/-- Sets a thread's fetch buffer. -/
def State.setBuf (s : State) (n : Nat) (t : BitVec 2) (b : FetchBuf) : State :=
  s.onThread n t fun th => { th with run := { th.run with fbuf := b, install := false } }

/-- The block that holds an address. -/
def blockOf (a : Word) : Nat := a.toNat / 16 * 16

/-- Captures the blocks of the thread's next instruction that the buffer does not hold (spec/10 R200): `b`, the block
of the PC, then `b + 1`. A block that cannot be captured now is left out. -/
def State.fillBuf (s : State) (n : Nat) (t : BitVec 2) : State :=
  let th := s.thread n t
  let b := blockOf th.pc
  let buf := th.run.fbuf
  let held : List (Byte × Option Word) :=
    if buf.bytes.isEmpty then []
    else if buf.base.toNat = b then buf.bytes
    else if buf.base.toNat + 16 = b then buf.bytes.drop 16
    else []
  let s := s.setBuf n t ⟨BitVec.ofNat 64 b, held⟩
  let more (s : State) (held : List (Byte × Option Word)) : State × List (Byte × Option Word) :=
    if 32 ≤ held.length then (s, held)
    else
      match s.captureBlock n t th.level (b + held.length) with
      | (s, .ok bs) => (s, held ++ bs)
      | (s, _) => (s, held)
  let (s, held) := more s held
  let (s, held) := if held.isEmpty then (s, held) else more s held
  s.setBuf n t ⟨BitVec.ofNat 64 b, held⟩

/-- What fetching the next instruction gives: its bytes (with its DEP prefix), a trap, or a wait. -/
inductive Fetched where
  | ok (bytes : List Byte)
  | trap (c : Cause) (v : Word)
  | wait
  deriving DecidableEq, Repr

/-- The length of an instruction by bits 1:0 of its first parcel (spec/03 R88). -/
def parcelLen (lo : Byte) : Nat :=
  if lo.getLsbD 0 then (if lo.getLsbD 1 then 8 else 4) else 2

/-- Is the parcel a DEP prefix (spec/03 R94)? -/
def isDep (lo : Byte) : Bool := lo.extractLsb' 0 6 == 0b111100

/-- Fetches the next instruction from the buffer, capturing what is missing (spec/03 R88, R101; spec/10 R195-R201). -/
def State.fetch (s : State) (n : Nat) (t : BitVec 2) : State × Fetched :=
  let s := s.fillBuf n t
  let th := s.thread n t
  let pc := th.pc
  let b := blockOf pc
  let bytes := th.run.fbuf.bytes.drop (pc.toNat - b)
  -- the first block is not there
  let missing (s : State) (at' : Word) : State × Fetched :=
    match s.captureBlock n t th.level (blockOf at') with
    | (s, .wait) => (s, .wait)
    | (s, .ok _) => (s, .wait)
    | (s, .fault) =>
      if zoneOf pc.toNat = .own pc.toNat ∧ at'.toNat = localSize then (s, .trap .windowCross pc)
      else (s, .trap .fetchFault at')
  match bytes with
  | lo :: _ :: rest =>
    let inner : Option Byte := if isDep lo.1 then (match rest with | x :: _ => some x.1 | [] => none) else some lo.1
    match inner with
    | none => missing s (pc + 2)
    | some x =>
      let len := parcelLen x + (if isDep lo.1 then 2 else 0)
      if bytes.length < len then missing s (pc + BitVec.ofNat 64 bytes.length)
      else
        match (bytes.take len).findSome? Prod.snd with
        | some a => (s, .trap .poison a)
        | none => (s, .ok ((bytes.take len).map Prod.fst))
  | _ => missing s pc

/-- Reads two parcels at an address as a capture reads them, never from the buffer (spec/04 R118). -/
def State.peekParcel (s : State) (n : Nat) (t : BitVec 2) (level : Level) (a : Word) : State × Cap :=
  match s.captureBlock n t level (blockOf a) with
  | (s, .ok bs) => (s, .ok ((bs.drop (a.toNat % 16)).take 2))
  | r => r

/-- Installs the bytes of a line in L1I, replacing the least recently used of its set's two ways (spec/10 R197). They stay as they
came, as R197 and the variants' outcomes have it; the last row of R252's table says otherwise of a variant (log 114: DEDUCED). -/
def State.fillIline (s : State) (n num : Nat) : State :=
  let bytes := s.homeBytes (num * 128) 128
  let psn := maskOf (allWords.filter fun w => (s.homeWord num w).2)
  s.onCore n fun c =>
    let set := c.mem.l1i.filter fun l => l.num % 16 = num % 16
    let kept := if set.length < 2 then c.mem.l1i
      else match set with
        | l :: _ => c.mem.l1i.filter fun x => x.num != l.num
        | [] => c.mem.l1i
    { c with mem := { c.mem with l1i := kept ++ [⟨num, bytes, psn⟩], fills := c.mem.fills.filter (· != num) } }

end Sys2Proof.Machine
end

