-- ==== Sys2Proof/Machine/Coherence.lean ====
section
/-!
DEFINITION. What home slices do: registrations, reads, atomics, pushed copies, the messages they send to cores and the
answers, results that land, fills of L1I, errors, translations that leave a TLB (spec/15 R277-R292;
spec/13 R257-R269; spec/03 R81; spec/10 R195-R197; spec/21 R394, R398).
-/
set_option linter.constructorNameAsVariable false

namespace Sys2Proof.Machine

/-! ### The home slice of a line (spec/15 R277) -/

/-- The die of a line's home. -/
def homeDie (num : Nat) : Nat := (num % 8) ^^^ (num / 2 ^ 10 % 8) ^^^ (num / 2 ^ 20 % 8) ^^^ (num / 2 ^ 30 % 8)

/-- The global cluster of a line's home. -/
def homeCluster (num : Nat) : Nat := homeDie num * 400 + ((num / 8) ^^^ (num / 2 ^ 17)) % 2 ^ 32 % 400

/-! ### What a request at home still needs -/

/-- The words that bytes touch. -/
def wordsTouched (pas : List Nat) : BitVec 32 := maskOf (pas.map wordOf)

/-- The words of a mask that some agent other than `keep` owns. -/
def DirEntry.ownedBut (d : DirEntry) (keep : Option (BitVec 18)) (m : BitVec 32) : BitVec 32 :=
  maskOf ((wordsOf m).filter fun w => (d.owner w).isSome && d.owner w != keep)

/-- The words that a request must first take from their owners, or have forwarded (R280, R283, R284, R287;
spec/13 R262). -/
def State.needs (s : State) (r : HomeReq) : BitVec 32 :=
  let d := s.dirOf r.line
  let me : BitVec 18 := BitVec.ofNat 18 r.core
  match r.op with
  | .reg _ words =>
    let others := d.ownedBut (some me) words
    if (d.slotFor me).isSome then others else others ||| d.olderWords
  | .write bytes => d.ownedBut none (wordsTouched (bytes.map Prod.fst))
  | .atomic _ pa size _ => d.ownedBut none (wordsTouched ((List.range size).map (pa + ·)))
  | .push _ => d.ownedBut none 0xFFFFFFFF
  | .read kind _ =>
    let owned := d.ownedBut (if kind = .l1 then some me else none) 0xFFFFFFFF
    owned &&& ~~~r.got

/-- The owners of some words. -/
def DirEntry.owners (d : DirEntry) (m : BitVec 32) : List (BitVec 18) :=
  [d.own0, d.own1].filterMap fun o => o.filter fun a => (wordsOf m).any fun w => d.owner w = some a

/-- Has home a forward or revoke of a line on its way to a core? -/
def State.probed (s : State) (core line : Nat) : Bool :=
  s.mem.probes.any fun p => p.core = core && p.line = line && p.kind != .inv

/-- Asks the owners of the words that a request needs: one message to each core, snoops to the host (R284, R285;
spec/21 R396). A holder gets one message for the line at a time (spec/13 R266). -/
def State.ask (s : State) (r : HomeReq) (m : BitVec 32) : State :=
  let d := s.dirOf r.line
  let kind : ProbeKind := match r.op with | .read _ _ => .fwd | _ => .rev
  (d.owners m).foldl (fun s a =>
    if a = hostAgent then s.snoop (s.hostHalves r.line m)
    else if (s.holder a.toNat r.line).isSome && s.probed a.toNat r.line then s
    else s.sendProbe kind a.toNat r.line (maskOf ((wordsOf m).filter fun w => d.owner w = some a)) r.id) s

/-- Sends invalidations to the recorded receivers of pushed copies other than an agent, for its registration `id`, and
clears the record (spec/13 R262). -/
def State.sendInvs (s : State) (line agent id : Nat) : State :=
  let d := s.dirOf line
  let s1 := (d.push.receivers.filter (· != agent)).foldl (fun s n => s.sendProbe .inv n line 0 id) s
  s1.setDir line { s1.dirOf line with push := .cores [] }

/-- A message of home that makes its registration's outcome known to the core. -/
def State.sendReply (s : State) (r : RegReply) : State :=
  { s with mem := { s.mem with replies := s.mem.replies ++ [r] } }

/-! ### Performing a request -/

/-- Performs a registration (R280): merge, record the owner, invalidate pushed copies, reply. The words' poison goes with
them to the owner; what home marks from then on is a new error (R292). -/
def State.performReg (s : State) (r : HomeReq) (bytes : List (Nat × Byte)) (words : BitVec 32) : State :=
  let s1 := (wordsOf words).foldl (fun s w =>
    let v := s.homeWord r.line w
    (s.putCellWord r.line w v.1).setPsn r.line w v.2) s
  let s2 := s1.mergeHome r.line bytes
  let d := s2.dirOf r.line
  let me : BitVec 18 := BitVec.ofNat 18 r.core
  let s3 := match d.slotFor me with
    | some slot => s2.setDir r.line (d.record slot me words)
    | none => s2
  let s4 := s3.sendInvs r.line r.core r.id
  let values := (wordsOf words).map fun w => (w.toNat, s4.cellWord r.line w, s4.homePsn r.line w)
  let s5 := (wordsOf words).foldl (fun s w => s.setPsn r.line w false) s4
  (s5.sendReply ⟨r.id, r.core, r.line, values, words⟩).dropReq r.id r.line

/-- The words of a line become I in an L1, their dirty bytes gone. -/
def State.makeInvalid (s : State) (agent num : Nat) (m : BitVec 32) : State :=
  s.onLine agent num fun l =>
    { l with words := (wordsOf m).foldl (fun v w => set32 v w { get32 v w with st := .i, dirty := 0 }) l.words }

/-- Performs a store at home (spec/10 R196, spec/11 R240). -/
def State.performWrite (s : State) (r : HomeReq) (bytes : List (Nat × Byte)) : State :=
  let m := wordsTouched (bytes.map Prod.fst)
  let s1 := s.mergeHome r.line bytes
  let s2 := s1.setDir r.line ((s1.dirOf r.line).release m)
  let s3 := (s2.sendInvs r.line r.core r.id).makeInvalid r.core r.line m
  (s3.sendReply ⟨r.id, r.core, r.line, [], 0⟩).dropReq r.id r.line

/-- Gives the bytes of a line's words to the results of a thread that wait for them. -/
def State.give (s : State) (n : Nat) (t : BitVec 2) (id line : Nat) (value : BitVec 5 → BitVec 32 × Bool) : State :=
  s.onPend n t fun l => l.map fun a =>
    if a.id = id then
      let mine (b : ByteSrc) : Bool := match b with
        | .miss pa => lineOf pa = line && (fabTarget pa).isNone
        | _ => false
      let psn := a.bytes.any fun b => mine b && match b with
        | .miss pa => (value (wordOf pa)).2
        | _ => false
      a.fill (fun b => if mine b then
        (match b with
          | .miss pa => .have (byteOf (value (wordOf pa)).1 (pa % 4))
          | x => x) else b) psn
    else a

/-- Performs an atomic (R287; R133, R134; R289): the executing core's dirty bytes of a software-managed page reach home
first; a poisoned word is left as it is. -/
def State.performAtomic (s : State) (r : HomeReq) (async pa size : Nat) (op : AtomicOp) : State :=
  let pas := (List.range size).map (pa + ·)
  let m := wordsTouched pas
  let s0 := match s.line? r.core r.line with
    | some l => if l.sw then s.mergeHome r.line (l.dirtyBytes.filter fun b => m.getLsbD (wordOf b.1).toNat) else s
    | none => s
  let psn := (wordsOf m).any fun w => s0.homePsn r.line w
  let old := pas.map s0.cell
  let value (w : BitVec 5) : BitVec 32 × Bool := (s0.cellWord r.line w, psn)
  let s1 := s0.makeInvalid r.core r.line m
  let s2 := s1.setDir r.line ((s1.dirOf r.line).release m)
  let s3 :=
    if psn then s2
    else
      match atomicWrite op size (leNat old) with
      | some v => (s2.putCells (bytesAt pa (leBytes size v))).sendInvs r.line r.core r.id
      | none => s2
  let s4 := s3.give r.src (tid r.thr) async r.line value
  ((s4.onCore r.core fun c =>
    { c with req := { c.req with regs := c.req.regs.map fun x => if x.id = r.id then { x with replied := true } else x } }).closeRegs
      r.core).dropReq r.id r.line

/-- The reply of a read fills the line of an L1 (R279, R289): O words and dirty bytes stay, other words become V of the
current generation. -/
def State.fillL1 (s : State) (agent num : Nat) (sw : Bool) (value : BitVec 5 → BitVec 32 × Bool) : State :=
  match s.allocate agent num sw with
  | none => s
  | some s =>
    (s.onLine agent num fun l =>
      { l with
        gen := s.gen agent
        words := allWords.foldl (fun v w =>
          let x := get32 v w
          if x.st = WordState.o then v
          else
            let kept := (List.range 4).foldl (fun y k =>
              if x.dirty.getLsbD k then setByte y k (byteOf x.val k) else y) (value w).1
            set32 v w { x with st := .v, val := kept, psn := (value w).2 && x.dirty != 15 }) l.words }).useLine agent num

/-- The reply of a read fills the constant cache: 16 lines, least recently used (spec/05 R137). -/
def State.fillConst (s : State) (n num : Nat) (value : BitVec 5 → BitVec 32 × Bool) : State :=
  let bytes := allWords.flatMap fun w => leBytes 4 (value w).1.toNat
  let psn := maskOf (allWords.filter fun w => (value w).2)
  s.onCore n fun c =>
    let others := c.mem.cc.filter fun l => l.num != num
    { c with mem := { c.mem with cc := others.drop (others.length + 1 - 16) ++ [⟨num, bytes, psn⟩] } }

/-- Performs a read (R284): every word as it is at this moment (R282). A word of the requester's own is read in its L1, so
that the halves of a doubleword are of one moment (R281). -/
def State.performRead (s : State) (r : HomeReq) (kind : ReadKind) (sw : Bool) : State :=
  let value (w : BitVec 5) : BitVec 32 × Bool := s.homeWord r.line w
  let s1 := s.give r.src (tid r.thr) r.id r.line value
  (match kind with
    | .l1 => s1.fillL1 r.core r.line sw value
    | .const => s1.fillConst r.core r.line value).dropReq r.id r.line

/-- Where a pushed copy goes: a core's L1, or its line's slice, with the named cores it stands for (spec/13 R255). -/
def State.pushTargets (s : State) (line : Nat) (dests : List Nat) : List (Nat × Nat) :=
  dests.foldl (fun l n =>
    let a := s.agentOf n (line * 128)
    assocPut l a ((assoc l a).getD 0 + 1)) []

/-- Sends the pushed copies of a line (spec/13 R259, R262, R264), with a record of each receiver. -/
def State.performPush (s : State) (r : HomeReq) (dests : List Nat) : State :=
  let words := allWords.map fun w => (s.cellWord r.line w, s.homePsn r.line w)
  ((s.pushTargets r.line dests).foldl (fun s p =>
    let (id, s) := s.fresh
    let d := s.dirOf r.line
    let s1 := s.setDir r.line { d with push := d.push.add p.1 }
    { s1 with mem := { s1.mem with pushes := s1.mem.pushes ++ [⟨id, r.id, p.2, r.src, r.thr, r.line, p.1, words, none⟩] } })
    s).dropReq r.id r.line

/-- The words that a request is for. -/
def HomeReq.words (r : HomeReq) : BitVec 32 :=
  match r.op with
  | .reg _ words => words
  | .write bytes => wordsTouched (bytes.map Prod.fst)
  | .atomic _ pa size _ => wordsTouched ((List.range size).map (pa + ·))
  | .read _ _ | .push _ => 0xFFFFFFFF

/-- Has the turn of a request come: no earlier request for one of its words is at home (R285)? -/
def State.atHead (s : State) (r : HomeReq) : Bool :=
  (s.mem.homeq.takeWhile fun q => q != r).all fun q => q.line != r.line || q.words &&& r.words = 0

/-- Must a read ask once more: has an owner that has answered a forward taken hold of the line since? -/
def State.heldSince (s : State) (r : HomeReq) : Bool :=
  let d := s.dirOf r.line
  (d.owners r.got).any fun a => a.toNat != r.core && (s.holder a.toNat r.line).isSome

/-- A pushed copy is on its way to the core that asks: what home sends it about the line comes behind the copy (R285,
spec/13 R262). -/
def State.copyAhead (s : State) (r : HomeReq) : Bool :=
  s.mem.pushes.any fun m => m.dest = r.core && m.line = r.line && m.outcome.isNone

/-- Is a request a registration? Its reply comes behind the earlier ones; what else home sends waits for them (R285). -/
def HomeReq.isReg (r : HomeReq) : Bool := match r.op with | .reg _ _ => true | _ => false

/-- Serves a request: asks for what it still needs, or performs it. While a message is unanswered it waits. -/
def State.serve (s : State) (r : HomeReq) : State :=
  let m := s.needs r
  if !r.probes.isEmpty || s.copyAhead r || (!r.isReg && s.replyAhead r.core r.line) then s
  else if m != 0 then s.ask r m
  else if s.heldSince r then s.onReq r.id r.line fun x => { x with got := 0 }
  else
    match r.op with
    | .reg bytes words => s.performReg r bytes words
    | .write bytes => s.performWrite r bytes
    | .atomic async pa size op => s.performAtomic r async pa size op
    | .read kind sw => s.performRead r kind sw
    | .push dests => s.performPush r dests

/-- The doublewords of the words of a mask. -/
def pairsOf (m : BitVec 32) : BitVec 32 :=
  let even : BitVec 32 := 0x55555555
  m ||| ((m &&& even) <<< 1) ||| ((m >>> 1) &&& even)

/-- Is a request a store's: its registration, or the store itself where home performs it (spec/10 R196)? -/
def HomeReq.isStore (r : HomeReq) : Bool := match r.op with | .reg _ _ | .write _ => true | _ => false

/-- A store's request that must not wait for its turn: a message of another request waits at its core for the reply to a
registration of its doubleword, and no earlier store of the core to that doubleword is at home (R280, R281; log 27: DEDUCED). -/
def State.urgent (s : State) (r : HomeReq) : Bool :=
  let m := pairsOf r.words
  r.isStore
  && (s.mem.probes.any fun p =>
    p.core = r.core && p.line = r.line && !p.queued && p.kind != .inv && p.req != r.id
    && s.pairWaits r.core r.line (p.words &&& m))
  && (s.mem.homeq.takeWhile fun q => q != r).all fun q =>
    q.core != r.core || q.line != r.line || q.words &&& m = 0 || !q.isStore

/-- Performs an urgent request: words that other cores own come back at once, since their own answers may wait for
registrations behind it (R281, log 27: DEDUCED). Replies on their way come first. -/
def State.serveUrgent (s : State) (r : HomeReq) : State :=
  let m := s.needs r
  let d := s.dirOf r.line
  if s.copyAhead r || (!r.isReg && s.replyAhead r.core r.line) then s
  else if !(s.hostHalves r.line m).isEmpty then s.snoop (s.hostHalves r.line m)
  else if (d.owners m).all fun a => (s.holder a.toNat r.line).isNone && !s.replyAhead a.toNat r.line then
    match r.op with
    | .reg bytes words => (s.revokeNow r.line m).performReg r bytes words
    | .write bytes => (s.revokeNow r.line m).performWrite r bytes
    | _ => s
  else s

/-- REGISTRATION (spec/15 R280): A store's registration reaches home, which revokes, merges, records the owner and
replies. -/
def execRegistration (id : Nat) (s : State) : Res :=
  .next (match s.mem.homeq.find? fun r => r.id = id && (match r.op with | .reg _ _ | .write _ => true | _ => false) with
    | some r => if s.atHead r then s.serve r else if s.urgent r then s.serveUrgent r else s
    | none => s)

/-- READ_MISS (spec/15 R284): A line request reaches home and is served word by word. -/
def execReadMiss (line : Nat) (s : State) : Res :=
  .next (match s.mem.homeq.find? fun r => r.line = line && (match r.op with | .read _ _ => true | _ => false) with
    | some r => if s.atHead r then s.serve r else s
    | none => s)

/-- HOME_ATOMIC (spec/15 R287): An atomic is performed at home on the word. -/
def execHomeAtomic (line : Nat) (s : State) : Res :=
  .next (match s.mem.homeq.find? fun r => r.line = line && (match r.op with | .atomic _ _ _ _ => true | _ => false) with
    | some r => if s.atHead r then s.serve r else s
    | none => s)

/-! ### Replies and messages at a core -/

/-- The registration of a HOLD has its reply: messages for the line wait from now on; the timer starts once the
registration is complete (spec/13 R267). The new hold clears the line's unreported ending (spec/13 R268). -/
def State.beginHold (s : State) (agent id : Nat) : State :=
  (s.sharers agent).foldl (fun s n => (List.range 4).foldl (fun s k =>
    match (s.thread n (tid k)).run.wait with
    | some (.holdReg i line vline dur) =>
      if i = id then
        let s1 := s.onCore n fun c => { c with req := { c.req with holds := c.req.holds ++ [⟨k, line, vline, none, []⟩] } }
        s1.onThread n (tid k) fun th =>
          { th with run := { th.run with wait := some (.held id line dur), endings := th.run.endings.filter (· != vline) } }
      else s
    | _ => s) s) s

/-- The words beside those of a reply, in their doublewords, of which the core's store wrote only a part: the reply brings
bytes of another agent, perhaps of a store to both words (R281). -/
def State.besides (s : State) (r : RegReply) : List (BitVec 5) :=
  let wrote (pa : Nat) : Bool := (s.outRegs r.core).any fun o => o.id = r.id && o.bytes.any fun b => b.1 = pa
  let part (w : BitVec 5) : Bool := !(List.range 4).all fun k => wrote (wordAddr r.line w + k)
  (((r.words.map fun x => BitVec.ofNat 5 x.1).filter part).map fun w => w ^^^ 1).filter fun w => r.words.all fun x => x.1 != w.toNat

/-- A registration's reply arrives (R280, R285): its words become O with the merged values. A V word beside one that it has
brought new bytes for is no longer used, so that no load joins two moments of a doubleword (R281; log 107: DEDUCED). -/
def State.takeReply (s : State) (r : RegReply) : State :=
  let s1 : State := { s with mem := { s.mem with replies := s.mem.replies.filter fun x => x.id != r.id } }
  let old := s.besides r
  let s2 := s1.onLine r.core r.line fun l =>
    let l1 : Line := { l with words := old.foldl (fun v w =>
      if (get32 v w).st = .v then set32 v w { get32 v w with st := .i } else v) l.words }
    { l1 with words := (r.words.filter fun x => r.live.getLsbD x.1).foldl (fun v x =>
        set32 v (BitVec.ofNat 5 x.1) ⟨.o, x.2.1, 0, x.2.2⟩) l1.words }
  let s3 := s2.onCore r.core fun c =>
    { c with req := { c.req with regs := c.req.regs.map fun x => if x.id = r.id then { x with replied := true } else x } }
  ((s3.fillRegs r).beginHold r.core r.id).closeRegs r.core

/-- Replies to one core about one line arrive in the order home sent them. -/
def State.replyDue (s : State) (r : RegReply) : Bool :=
  (s.mem.replies.find? fun x => x.core = r.core && x.line = r.line) == some r

/-- REGISTRATION_REPLY (spec/15 R280): A registration reply reaches the core, and the word becomes O. -/
def execRegistrationReply (id : Nat) (s : State) : Res :=
  .next (match s.mem.replies.find? fun r => r.id = id with
    | some r => if s.replyDue r then s.takeReply r else s
    | none => s)

/-- Can a message be taken up by its core now (R281, R285; spec/13 R262)? Home's earlier replies and copies for the line
come first, and a doubleword that is being registered makes a forward or revoke wait. -/
def State.probeDue (s : State) (p : Probe) : Bool :=
  !p.queued
  && (s.mem.replies.all fun r => !(r.core = p.core && r.line = p.line))
  && (s.mem.pushes.all fun m => !(m.dest = p.core && m.line = p.line && m.outcome.isNone && m.id < p.id))
  && (p.kind == .inv || !s.pairWaits p.core p.line p.words)

/-- A message of a kind reaches its core: served, or queued while the line is held (spec/13 R266). -/
def State.probeArrives (s : State) (kind : ProbeKind) (id : Nat) : State :=
  match s.mem.probes.find? fun p => p.id = id && p.kind == kind with
  | none => s
  | some p =>
    if !s.probeDue p then s
    else
      match s.holder p.core p.line with
      | some (n, h) =>
        let s1 := s.onCore n fun c =>
          { c with req := { c.req with holds := c.req.holds.map fun x =>
              if x.line = h.line ∧ x.thr = h.thr then { x with queue := x.queue ++ [id] } else x } }
        let s2 : State := { s1 with mem := { s1.mem with probes := s1.mem.probes.map fun x =>
          if x.id = id then { x with queued := true } else x } }
        if kind = .inv then s2.invArrived id else s2
      | none => s.serveProbe p

/-- FORWARD (spec/15 R284): A forward reaches an owner, which replies with the word's value. -/
def execForward (id : Nat) (s : State) : Res := .next (s.probeArrives .fwd id)

/-- REVOKE (spec/15 R285): A revoke reaches an owner, which returns the word and marks it I. -/
def execRevoke (id : Nat) (s : State) : Res := .next (s.probeArrives .rev id)

/-- PUSH_INVALIDATION (spec/13 R262): An invalidation of a pushed copy reaches a core's L1. -/
def execPushInvalidation (id : Nat) (s : State) : Res := .next (s.probeArrives .inv id)

/-! ### Pushes (spec/13 R257-R263) -/

/-- The outcome of a pushed copy at its L1, in the order of R259's causes. -/
def State.pushOutcome (s : State) (m : PushMsg) : Nat :=
  let c := s.core m.dest
  let set := c.mem.l1.filter fun l => l.num % 16 = m.line % 16
  if c.regs.lquota.toNat ≤ (c.mem.l1.filter fun l => l.push && !l.touched).length then 1
  else if 4 ≤ set.length && set.all fun l => !s.replaceable m.dest l then 2
  else if (s.holder m.dest m.line).isSome then 3
  else 0

/-- Installs a pushed copy (R257): all words V of the current generation, P set, untouched. -/
def State.install (s : State) (m : PushMsg) : State :=
  match s.allocate m.dest m.line false with
  | none => s
  | some s =>
    let s1 := s.onLine m.dest m.line fun l =>
      { l with
        sw := false
        gen := s.gen m.dest
        push := true
        copy := m.id
        words := allWords.foldl (fun v w =>
          let x := m.words.getD w.toNat (0, false)
          set32 v w ⟨.v, x.1, 0, x.2⟩) l.words }
    let s2 := s1.useLine m.dest m.line
    s2.onLine m.dest m.line fun l => { l with touched := false }

/-- Sets a pushed copy's outcome. -/
def State.pushDecided (s : State) (id outcome : Nat) : State :=
  { s with mem := { s.mem with pushes := s.mem.pushes.map fun m => if m.id = id then { m with outcome := some outcome } else m } }

/-- A pushed copy reaches its L1, which decides (R259). -/
def State.pushLands (s : State) (m : PushMsg) : State :=
  match s.pushOutcome m with
  | 0 => ((s.install m).pushDecided m.id 0).count m.dest none 7 1
  | k => (s.pushDecided m.id k).count m.dest none 8 1

/-- A push whose registrations are complete reaches home (R264, R265). -/
def State.pushGoes (s : State) (n : Nat) (p : PushWait) : State :=
  let waiting (id : Nat) : Bool := (s.sharers n).any fun k => (s.outRegs k).any fun r => r.id = id
  if p.regs.any waiting then s
  else
    let s1 := s.onCore n fun c => { c with req := { c.req with pushes := c.req.pushes.filter fun x => x.id != p.id } }
    s1.request ⟨p.id, s.agentOf n (p.line * 128), n, p.thr, p.line, .push p.dests, [], 0⟩

/-- PUSH_ARRIVAL (spec/13 R259): A pushed line reaches its destination L1, which installs or refuses it. -/
def execPushArrival (id : Nat) (s : State) : Res :=
  .next (match s.mem.pushes.find? fun m => m.id = id with
    | some m => if m.outcome.isNone then s.pushLands m else s
    | none =>
      match s.mem.homeq.find? fun r => r.id = id && (match r.op with | .push _ => true | _ => false) with
      | some r => if s.atHead r then s.serve r else s
      | none =>
        match s.cores.findSome? fun c => (c.2.req.pushes.find? fun p => p.id = id).map fun p => (c.1, p) with
        | some (n, p) => s.pushGoes n p
        | none => s)

/-- Adds to a count of HOLDST, which stops at 0xFFFF (R263). -/
def addCount (x : BitVec 16) (k : Nat) : BitVec 16 := BitVec.ofNat 16 (min 0xFFFF (x.toNat + k))

/-- Counts refusals of a thread. -/
def State.refused (s : State) (n : Nat) (t : BitVec 2) (k cause : Nat) : State :=
  s.onSp n t fun p => { p with pref := addCount p.pref k, pcause := BitVec.ofNat 4 cause }

/-- Counts acceptances of a thread. -/
def State.accepted (s : State) (n : Nat) (t : BitVec 2) (k : Nat) : State :=
  s.onSp n t fun p => { p with pacc := addCount p.pacc k }

/-- A push's outcome has returned to its sender (R261, R262). -/
def State.pushReturns (s : State) (m : PushMsg) (outcome : Nat) : State :=
  let s1 : State := { s with mem := { s.mem with pushes := s.mem.pushes.filter fun x => x.id != m.id } }
  let s2 :=
    if outcome = 0 then s1.accepted m.core (tid m.thr) m.count
    else
      let d := s1.dirOf m.line
      (s1.setDir m.line { d with push := d.push.remove m.dest }).refused m.core (tid m.thr) m.count outcome
  if s2.mem.pushes.any fun x => x.op = m.op then s2 else s2.untrack m.core (tid m.thr) m.op

/-- PUSH_OUTCOME (spec/13 R261): The outcome of a push returns to the sender and is counted in HOLDST. -/
def execPushOutcome (id : Nat) (s : State) : Res :=
  .next (match s.mem.pushes.find? fun m => m.id = id with
    | some m => match m.outcome with
      | some k => s.pushReturns m k
      | none => s
    | none => s)

/-! ### Holds, waits, results -/

/-- HOLD_TIMER_EXPIRY (spec/13 R269): A hold's timer reaches zero, and the hold ends early. -/
def execHoldTimerExpiry (core thr line : Nat) (s : State) : Res :=
  .next (match (s.core core).req.holds.find? fun h => h.thr = thr && h.line = line with
    | some h => if h.dur = some 0 then s.endHold core h true else s
    | none => s)

/-- WAITW_REREAD (spec/05 R139): A waiting WAITW re-reads its word after a write becomes visible. -/
def execWaitwReread (core thr : Nat) (s : State) : Res :=
  .next (s.onThread core (tid thr) fun t =>
    match t.run.wait with
    | some (.word ps b a _) => { t with run := { t.run with wait := some (.word ps b a true) } }
    | _ => t)

/-- The result that lands: PENAL's is computed from what it gathered (spec/18 R372). -/
def Async.final (a : Async) : Async :=
  if a.kind == .penal then
    let r := penalty a.data
    { a with bytes := r.1.map .have, flags := r.2 }
  else a

/-- ASYNC_RESULT_LANDS (spec/03 R81): An asynchronous result arrives; it writes its register, ORs in its flags and
clears its tag. -/
def execAsyncResultLands (core thr id : Nat) (s : State) : Res :=
  .next (match (s.thread core (tid thr)).run.pend.find? fun a => a.id = id with
    | some a => if (s.thread core (tid thr)).canLand a then s.lands core (tid thr) a.final else s
    | none => s)

/-! ### L1I, translations, errors -/

/-- L1I_FILL (spec/10 R197): The line of an L1 instruction-cache fill arrives at the core, carrying word poison, and a
waiting fetch capture proceeds. -/
def execL1iFill (core line : Nat) (s : State) : Res :=
  .next (if !(s.core core).mem.fills.contains line then s
    else if s.homeFree line 0xFFFFFFFF then s.fillIline core line
    else s.snoop (s.hostHalves line 0xFFFFFFFF))

/-- TLB_ENTRY_LEAVE (spec/21 R394): A translation leaves a micro-TLB or cluster TLB for capacity or for reasons a
program cannot see. -/
def execTlbEntryLeave (core : Nat) (cluster : Bool) (index : Nat) (s : State) : Res :=
  .next (if cluster then
      { s with ctlb := s.ctlb.map fun c => if c.1 = clusterOf core then (c.1, c.2.eraseIdx index) else c }
    else s.onCore core fun c => { c with mem := { c.mem with tlb := c.mem.tlb.eraseIdx index } })

/-- The partition that a cluster belongs to.
(log 67: DEDUCED) -/
def State.clusterPart (s : State) (cluster : Nat) : Nat :=
  ((s.parts.find? fun p => p.clusters.contains cluster).map Partition.id).getD 0

/-- Every word of a line becomes poisoned (R292). -/
def State.poisonLine (s : State) (line : Nat) : State := s.setDir line { s.dirOf line with psn := 0xFFFFFFFF }

/-- Bytes 1, 8-11 and 16-23 of a unit's record (spec/21 R398), with the words that an error concerns. The line of a way's
retirement is not stated: it is free (log 80: DESIGN CHOICE). -/
def State.unitFields (s : State) (words : List Nat) : ErrUnit → Nat × Nat × Nat
  | .core n => (1, s.identity n, 0)
  | .l2Way c w => (2, c + w * 2 ^ 16, (words.head?.map fun x => x / 32 * 128).getD (s.free 42).toNat)
  | .dramPage pa => (if pa < 0x4000000000 then 3 else 4, homeDie (lineOf pa), pa)
  | .cacheBank die bank => (5, die + bank * 2 ^ 8, (words.head?.map fun x => 4 * x).getD (s.free 42).toNat)
  | .linkLane port lane => (6, s.fabric.module.toNat + port * 2 ^ 8 + lane * 2 ^ 16, 0)
  | .flashBlock b => (10, 0, b)

/-- The partition that a unit's record goes to. -/
def State.unitPart (s : State) : ErrUnit → Nat
  | .core n => s.clusterPart (clusterOf n)
  | .l2Way c _ => s.clusterPart c
  | .dramPage pa => s.clusterPart (homeCluster (lineOf pa))
  | .cacheBank die _ => s.clusterPart (die * 400)
  | .linkLane _ _ | .flashBlock _ => (s.parts.head?.map Partition.id).getD 0

/-- A line of a slice that two caches of a pair hold is poisoned in both, after a second mismatch (spec/13 R256). The two
copies are equal: the model keeps the one of the lower core, and the shadow's follows it. -/
def State.poisonSlice (s : State) (n line : Nat) : State :=
  if s.fusedL1 n && s.lockstep n then
    s.onLine (s.agentOf n (line * 128)) line fun l => { l with words := l.words.map fun w => { w with psn := true } }
  else s

/-- The value of a register by kind and number: scalar registers g, o, then the windows' l and i; v registers; loop
registers; the trap context (spec/07 R167). -/
def Thread.part (t : Thread) (kind : BitVec 2) (index : BitVec 8) : BitVec 128 :=
  let k : BitVec 3 := index.setWidth 3
  let w : BitVec 3 := (index.extractLsb' 4 4 - 1).setWidth 3
  match kind with
  | 0 =>
    (if index < 8 then get8 t.regs.g k else if index < 16 then get8 t.regs.outs k
      else if index.getLsbD 3 then get8 (get8 t.regs.wins w).i k else get8 (get8 t.regs.wins w).l k).setWidth 128
  | 1 => get16 t.regs.v (index.setWidth 4)
  | 2 =>
    (match k with
      | 0 => t.loops.ls0 | 1 => t.loops.le0 | 2 => t.loops.lc0.setWidth 64 | 3 => t.loops.ls1 | 4 => t.loops.le1
      | 5 => t.loops.lc1.setWidth 64 | _ => t.loops.la.setWidth 64).setWidth 128
  | _ =>
    (match k with
      | 0 => t.trap.tstat.setWidth 64 | 1 => t.trap.tpc | 2 => t.trap.tcause.setWidth 64 | 3 => t.trap.tval
      | 4 => t.trap.tvec | _ => get4 t.trap.tscr (k.setWidth 2 + 3)).setWidth 128

/-- A register by kind and number takes a value, as far as it has the bits. -/
def Thread.setPart (t : Thread) (kind : BitVec 2) (index : BitVec 8) (v : Word × Word) : Thread :=
  let k : BitVec 3 := index.setWidth 3
  let w : BitVec 3 := (index.extractLsb' 4 4 - 1).setWidth 3
  let x := v.1
  match kind with
  | 0 =>
    { t with regs :=
        if index < 8 then { t.regs with g := set8 t.regs.g k (if k = 0 then 0 else x) }
        else if index < 16 then { t.regs with outs := set8 t.regs.outs k x }
        else if index.getLsbD 3 then
          { t.regs with wins := set8 t.regs.wins w { get8 t.regs.wins w with i := set8 (get8 t.regs.wins w).i k x } }
        else { t.regs with wins := set8 t.regs.wins w { get8 t.regs.wins w with l := set8 (get8 t.regs.wins w).l k x } } }
  | 1 => { t with regs := { t.regs with v := set16 t.regs.v (index.setWidth 4) (v.2 ++ v.1) } }
  | 2 =>
    { t with loops :=
        match k with
        | 0 => { t.loops with ls0 := even x } | 1 => { t.loops with le0 := even x }
        | 2 => { t.loops with lc0 := x.setWidth 32 } | 3 => { t.loops with ls1 := even x }
        | 4 => { t.loops with le1 := even x } | 5 => { t.loops with lc1 := x.setWidth 32 }
        | _ => { t.loops with la := x.setWidth 2 } }
  | _ =>
    { t with trap :=
        match k with
        | 0 => { t.trap with tstat := x.setWidth 4 } | 1 => { t.trap with tpc := even x }
        | 2 => { t.trap with tcause := x.setWidth 8 } | 3 => { t.trap with tval := x }
        | 4 => { t.trap with tvec := even x }
        | _ => { t.trap with tscr := set4 t.trap.tscr (k.setWidth 2 + 3) x } }

/-- A register of a thread is damaged: its value is lost, and the register is marked (spec/07 R167). -/
def Thread.damaged (t : Thread) (kind : BitVec 2) (index : BitVec 8) (v : Word × Word) : Thread :=
  let t1 := t.setPart kind index v
  { t1 with run := { t1.run with damage := t1.run.damage ++ [⟨kind, index, t1.part kind index⟩] } }

/-- UNCORRECTABLE_ERROR (spec/15 R292): An uncorrectable error in local memory, L2 data, a directory entry or another unit
that holds memory sets the poison bits of the affected row or words; one in a thread's state loses a register's value. -/
def execUncorrectableError (site : ErrSite) (s : State) : Res :=
  .next (match site with
    | .localRow n row =>
      (s.poisonRow (if s.shadow n then n - 1 else n) row).machineRecord (s.clusterPart (clusterOf n)) 18 7 (s.identity n) (row * 16)
        (s.core n).regs.sstep.toNat 0
    | .homeWord w =>
      let line := w / 32
      let way := (s.free 40).toNat % 16
      (s.setPsn line (BitVec.ofNat 5 w) true).machineRecord (s.clusterPart (homeCluster line)) 18 2
        (homeCluster line + way * 2 ^ 16) (line * 128) 0 0
    | .dirEntry line =>
      let way := (s.free 40).toNat % 16
      (s.poisonLine line).machineRecord (s.clusterPart (homeCluster line)) 18 9
        (homeCluster line + way * 2 ^ 16) (line * 128) 0 0
    | .sliceLine n line =>
      (s.poisonSlice n line).machineRecord (s.clusterPart (clusterOf n)) 18 1 (s.identity n) 0
        (s.core n).regs.sstep.toNat 0
    | .threadState n t kind index =>
      (s.onThread n (tid t) fun th => th.damaged kind index (s.free 43, s.free 44)).machineRecord
        (s.clusterPart (clusterOf n)) 18 8 (s.idThread n t) (kind.toNat + 1) (s.core n).regs.sstep.toNat 0
    | .unit u words =>
      let (kind, who, pa) := s.unitFields words u
      (words.foldl (fun s w => s.setPsn (w / 32) (BitVec.ofNat 5 w) true) s).machineRecord (s.unitPart u) 18 kind who pa 0 0)

end Sys2Proof.Machine
end

