-- ==== Sys2Proof/Machine/Damage.lean ====
section
/-!
DEFINITION. Which registers of its thread an instruction reads, and the MACHINE trap of an instruction that reads a
damaged one (spec/07 R167).
-/
set_option linter.constructorNameAsVariable false

namespace Sys2Proof.Machine

/-! ### What an instruction reads -/

/-- The scalar registers that an instruction reads (the operands of its row, spec/03 R91, R93). -/
def Instr.scalars : Instr → List Reg
  | .add _ ra rb _ _ | .sub _ ra rb _ _ | .mul _ ra rb _ _ | .mulh _ ra rb _ _ | .mulhu _ ra rb _ _ | .div _ ra rb _ _
  | .divu _ ra rb _ _ | .rem _ ra rb _ _ | .remu _ ra rb _ _ | .and _ ra rb _ _ | .or _ ra rb _ _ | .xor _ ra rb _ _
  | .andn _ ra rb _ _ | .min _ ra rb _ _ | .max _ ra rb _ _ | .minu _ ra rb _ _ | .maxu _ ra rb _ _ => [ra, rb]
  | .sll _ ra rb _ | .srl _ ra rb _ | .sra _ ra rb _ | .cmp _ ra rb _ | .bfx _ ra rb _ | .lea _ ra rb _
  | .ldx _ ra rb _ _ | .amo _ ra rb _ _ _ | .waitw _ ra rb _ _ _ => [ra, rb]
  | .sel _ ra rb rc | .cas _ ra rb rc _ _ | .fma _ ra rb rc _ _ => [ra, rb, rc]
  | .clz _ ra _ | .ctz _ ra _ | .popc _ ra _ | .brev _ ra _ | .bswap _ ra _ => [ra]
  | .bfi rd ra rb => [rd, ra, rb]
  | .addi _ ra _ | .andi _ ra _ | .ori _ ra _ | .xori _ ra _ | .slli _ ra _ | .srli _ ra _ | .srai _ ra _ | .cmpi _ ra _
  | .save _ ra _ | .restore _ ra _ => [ra]
  | .li _ _ | .pcrel _ _ => []
  | .lih rd _ => [rd]
  | .bz ra _ | .bnz ra _ | .jr ra _ | .callr ra _ | .loop _ ra _ => [ra]
  | .j _ | .call _ | .loopi _ _ _ | .loopx _ => []
  | .ret | .cRet => [15#5]
  | .ld _ ra _ _ _ | .ldl _ ra _ _ _ => [ra]
  | .st rd ra _ _ _ | .stl rd ra _ _ _ => [rd, ra]
  | .stx rd ra rb _ _ => [rd, ra, rb]
  | .vld _ ra _ _ _ | .vst _ ra _ _ _ | .ldm _ ra _ _ | .stm _ ra _ _ => [ra]
  | .movm _ _ | .fence => []
  | .pld _ ra _ _ _ => [ra]
  | .fadd _ ra rb _ _ | .fsub _ ra rb _ _ | .fmul _ ra rb _ _ | .fdiv _ ra rb _ _ | .fmin _ ra rb _ | .fmax _ ra rb _
  | .fcmp _ ra rb _ | .fsgn _ ra rb _ _ => [ra, rb]
  | .fsqrt _ ra _ _ | .fclass _ ra _ | .cvt _ ra _ _ | .sfu _ ra _ _ _ => [ra]
  | .vadd _ _ _ _ _ _ | .vsub _ _ _ _ _ _ | .vmul _ _ _ _ _ _ | .vfma _ _ _ _ _ _ | .vdot _ _ _ _ _ _ => []
  | .vmin _ _ _ _ | .vmax _ _ _ _ | .vand _ _ _ _ | .vor _ _ _ _ | .vxor _ _ _ _ | .vshl _ _ _ _ | .vshr _ _ _ _
  | .vsel _ _ _ _ | .vcmp _ _ _ _ _ | .vext _ _ _ _ | .vshuf _ _ _ | .vred _ _ _ _ _ | .vcvt _ _ _ _ _ _ _
  | .flenc _ _ _ _ | .fldec _ _ _ _ | .vsfu _ _ _ _ => []
  | .vsplat _ ra _ | .vins _ ra _ _ | .spset _ ra _ => [ra]
  | .spget _ _ => []
  | .vsadd _ _ _ rc _ _ _ | .vssub _ _ _ rc _ _ _ | .vsmul _ _ _ rc _ _ _ | .vsfma _ _ _ rc _ _ _
  | .vsmax _ _ _ rc _ | .vsmin _ _ _ rc _ | .vsred _ _ rc _ _ | .vsdot _ _ _ rc _ _ | .vscvt _ _ rc _ _ _ _
  | .vscopy _ _ rc _ => [rc]
  | .vsaxpy _ _ _ rc x _ _ _ | .vsexp _ _ rc x _ _ | .vsfill _ rc x _ => [rc, x]
  | .mxwl _ ra rb | .mxz ra rb | .mxrem _ ra rb => [ra, rb]
  | .mxwf | .mxstat _ _ => []
  | .mxa _ rd ra rb rc _ _ => [rd, ra, rb, rc]
  | .mxd _ ra rb rc _ => [ra, rb, rc]
  | .cpy rd ra rb | .cpye rd ra rb _ => [rd, ra, rb]
  | .cpyn rd ra rb rc _ | .cpy2d rd ra rb rc | .cpyg rd ra rb rc _ => [rd, ra, rb, rc]
  | .qfence _ | .detach | .rejoin | .chkpt => []
  | .gang _ ra => [ra]
  | .stp _ ra rb _ _ _ => [ra, rb]
  | .pushl ra rb | .hold _ ra rb _ => [ra, rb]
  | .unhold _ ra _ | .dqpush _ ra => [ra]
  | .dqpop _ _ | .sync => []
  | .exch rd ra rb _ clear => if clear then [] else [rd, ra, rb]
  | .redv _ ra _ _ _ _ | .domset _ ra | .launch _ ra => [ra]
  | .domget _ _ => []
  | .cxopen _ ra rb | .cxdel _ ra rb | .lah _ ra rb | .tapld _ ra rb _ | .rng _ ra rb _ | .gumb _ _ ra rb
  | .penal _ ra rb => [ra, rb]
  | .cxclose _ ra | .cxsettle _ ra | .cxstate _ ra _ => [ra]
  | .cxins _ ra rb rc | .cxrep _ ra rb rc | .cxcommit _ ra rb rc | .cxwaitb _ ra rb rc | .cxlen _ ra rb rc
  | .cxfork _ ra rb rc _ | .kvaddr _ ra rb rc | .slabgrow _ ra rb rc => [ra, rb, rc]
  | .kvld rd ra rb rc _ | .kvapp rd ra rb rc | .tap rd ra rb rc _ => [rd, ra, rb, rc]
  | .tourn rd ra rb => [rd, ra, rb]
  | .rsr _ _ | .trap _ | .tret | .tfence | .fetchb => []
  | .wsr _ ra | .domWrite ra | .dmapWrite ra | .pwbWrite _ _ ra | .holdstWrite ra => [ra]
  | .cwb ra | .cinv ra | .iinv ra | .dmapld _ ra _ | .tlbinv ra _ => [ra]
  | .dmapsel _ | .freeze _ | .stop => []
  | .region _ ra rb _ => [ra, rb]
  | .cVadd _ _ _ | .cVsub _ _ _ | .cVmul _ _ _ | .cVmin _ _ _ | .cVmax _ _ _ | .cVand _ _ _ | .cVor _ _ _ | .cVxor _ _ _
  | .cVshl _ _ _ | .cVshr _ _ _ | .cVceq _ _ _ | .cVclt _ _ _ | .cVmov _ _ _ | .cVabs _ _ _ | .cVneg _ _ _
  | .cVspl _ _ _ => []
  | .cMov _ ra | .cBz ra _ | .cBnz ra _ => [ra]
  | .cAddi rd _ | .cSlli rd _ | .cSrai rd _ => [rd]
  | .cLi _ _ | .cJ _ | .cNop | .cTfence | .cWaitt _ | .dep _ _ _ => []
  | .cLdw _ ra _ => [oreg ra]
  | .cStw rd ra _ => [oreg rd, oreg ra]
  | .asyncResultLands _ _ _ | .asyncPoisonTrap _ _ | .vstreamOpRun _ | .matrixOpRun _ | .copyOpRun _
  | .engineOpComplete _ _ | .mxremArrival _ | .pushArrival _ | .pushOutcome _ | .pushInvalidation _ | .registration _
  | .registrationReply _ | .readMiss _ | .forward _ | .revoke _ | .homeAtomic _ | .holdTimerExpiry _ _ _
  | .waitwReread _ _ | .dqpopResearch _ _ | .stealRequest _ _ | .barrierComplete _ | .exchangePhaseEnd _ _
  | .taskInject _ | .unsharingRelocationEnd _ | .slabRelocationEnd _ | .kvPageSpill _ | .kvPageResident _
  | .tapEventEntry _ | .budgetExpiry _ _ | .preemptRequest _ | .contextSave _ | .preemptTimeout _ | .contextResume _
  | .timeSliceExpiry _ | .lockstepCheckpoint _ | .lockstepMismatch _ | .launchStart _ | .launchComplete _
  | .hostWrite _ _ _ | .hostRead _ | .snoopReply _ _ | .snoopTimeout _ | .createPartition _ | .destroyPartition _
  | .resizePartition _ | .setErrorWindow _ | .fwUpdate _ _ | .attest _ | .debugFreeze _ | .resume _ | .query _
  | .stepOne _ | .readState _ | .writeState _ _ | .trace _ | .record _ | .replay _ | .mailboxRequestComplete _
  | .hostMmioWrite _ _ _ | .fabricRemoteAccess _ | .fabricAck _ | .fabricDeliveryTimeout _ | .fabricLaunchReceive _ _ _
  | .startBarrierComplete _ _ | .linkPortDown _ | .unitRetire _ | .powerLimitReached | .l1iFill _ _
  | .uncorrectableError _ | .correctedError _ | .powerOn _ | .portTraining _ _ | .hostLinkTraining _ _ _
  | .tlbEntryLeave _ _ _ | .mbdoor _ _ => []

/-- A group of four v registers. -/
def group4 (v : VReg) : List VReg := [v, v + 1, v + 2, v + 3]

/-- The v registers that an instruction reads. -/
def Instr.vectors : Instr → List VReg
  | .vst vd _ _ pair _ => if pair then [vd, vd + 1] else [vd]
  | .stm vd _ _ _ => group4 vd
  | .movm _ va => group4 va
  | .vadd _ va vb _ _ _ | .vsub _ va vb _ _ _ | .vmul _ va vb _ _ _ | .vmin _ va vb _ | .vmax _ va vb _
  | .vand _ va vb _ | .vor _ va vb _ | .vxor _ va vb _ | .vshl _ va vb _ | .vshr _ va vb _ | .vcmp _ va vb _ _ => [va, vb]
  | .vfma vd va vb _ _ _ | .vsel vd va vb _ | .vshuf vd va vb | .vdot vd va vb _ _ _ => [vd, va, vb]
  | .vext _ va _ _ | .vred _ va _ _ _ | .vsfu _ va _ _ | .gumb _ va _ _ => [va]
  | .vins vd _ _ _ | .penal vd _ _ => [vd]
  | .vcvt vd va _ _ _ _ _ => [vd, va]
  | .flenc vd va _ _ => group4 vd ++ group4 va
  | .fldec _ va _ _ => group4 va
  | .cVadd vd vs _ | .cVsub vd vs _ | .cVmul vd vs _ | .cVmin vd vs _ | .cVmax vd vs _ | .cVand vd vs _ | .cVor vd vs _
  | .cVxor vd vs _ | .cVshl vd vs _ | .cVshr vd vs _ | .cVceq vd vs _ | .cVclt vd vs _ => [vd, vs]
  | .cVmov _ vs _ | .cVabs _ vs _ | .cVneg _ vs _ | .cVspl _ vs _ => [vs]
  | _ => []

/-! ### The registers of a fixed-latency result (spec/08 R186) -/

/-- The scalar register that a result of two or more cycles goes to. -/
def Instr.lateScalar : Instr → Option Reg
  | .mul rd _ _ _ _ | .mulh rd _ _ _ _ | .mulhu rd _ _ _ _ | .div rd _ _ _ _ | .divu rd _ _ _ _ | .rem rd _ _ _ _
  | .remu rd _ _ _ _ | .fadd rd _ _ _ _ | .fsub rd _ _ _ _ | .fmul rd _ _ _ _ | .fdiv rd _ _ _ _ | .fsqrt rd _ _ _
  | .fma rd _ _ _ _ _ | .fmin rd _ _ _ | .fmax rd _ _ _ | .fcmp rd _ _ _ | .cvt rd _ _ _ | .vext rd _ _ _ | .rng rd _ _ _
  | .ld rd _ _ _ _ | .ldx rd _ _ _ _ | .ldl rd _ _ _ _ => some rd
  | .cLdw rd _ _ => some (oreg rd)
  | _ => none

/-- The v registers that a result of two or more cycles goes to. -/
def Instr.lateVectors : Instr → List VReg
  | .vadd vd _ _ _ _ _ | .vsub vd _ _ _ _ _ | .vmul vd _ _ _ _ _ | .vfma vd _ _ _ _ _ | .vdot vd _ _ _ _ _
  | .vmin vd _ _ _ | .vmax vd _ _ _ | .vand vd _ _ _ | .vor vd _ _ _ | .vxor vd _ _ _ | .vshl vd _ _ _ | .vshr vd _ _ _
  | .vsel vd _ _ _ | .vcmp vd _ _ _ _ | .vshuf vd _ _ | .vsplat vd _ _ | .vins vd _ _ _ | .vred vd _ _ _ _
  | .vcvt vd _ _ _ _ _ _ | .gumb vd _ _ _ | .cVadd vd _ _ | .cVsub vd _ _ | .cVmul vd _ _ | .cVmin vd _ _ | .cVmax vd _ _
  | .cVand vd _ _ | .cVor vd _ _ | .cVxor vd _ _ | .cVshl vd _ _ | .cVshr vd _ _ | .cVceq vd _ _ | .cVclt vd _ _
  | .cVmov vd _ _ | .cVabs vd _ _ | .cVneg vd _ _ | .cVspl vd _ _ => [vd]
  | .movm vd _ | .flenc vd _ _ _ | .fldec vd _ _ _ | .ldm vd _ _ _ => group4 vd
  | .vld vd _ _ pair _ => if pair then [vd, vd + 1] else [vd]
  | _ => []

/-! ### Where a register stands among those of its kind -/

/-- The number of a physical scalar register as `Thread.part` counts them; g0 is none. -/
def Dest.index : Dest → Option (BitVec 8)
  | .g k => some (k.setWidth 8)
  | .out k => some (8 + k.setWidth 8)
  | .l w k => some ((w.setWidth 8 + 1) * 16 + k.setWidth 8)
  | .i w k => some ((w.setWidth 8 + 1) * 16 + 8 + k.setWidth 8)
  | .none | .v _ => Option.none

/-- The registers of a fixed-latency result as its pending entry names them: a bit for each v register, and above them the
number of a scalar one, plus one; 0 for none. -/
def Regs.lateMark (r : Regs) (i : Instr) : Word :=
  let x := ((Instr.lateScalar i).bind fun rd => (r.dest rd).index).map fun k => k.toNat + 1
  BitVec.ofNat 64 (x.getD 0 * 2 ^ 16) ||| ((Instr.lateVectors i).foldl (fun (m : Word) v => m ||| BitVec.ofNat 64 (2 ^ v.toNat)) 0)

/-- Does an instruction read a register that such an entry names? -/
def Regs.readsLate (r : Regs) (i : Instr) (mark : Word) : Bool :=
  ((Instr.vectors i).any fun v => mark.getLsbD v.toNat)
  || (Instr.scalars i).any fun x => (r.dest x).index.any fun k => mark.toNat / 2 ^ 16 == k.toNat + 1

/-- An instruction that reads a fixed-latency result comes in the cycle of its delivery or later: the tags that track the
result are clear (spec/08 R186). -/
def State.landRead (s : State) (n : Nat) (t : BitVec 2) (i : Instr) : State :=
  let th := s.thread n t
  (th.run.pend.filter fun a => a.kind == .fixed && th.regs.readsLate i a.addr).foldl (fun s a => s.lands n t a) s

/-- Names the registers of the result of an instruction that has issued in its pending entry. -/
def State.markLate (s : State) (n : Nat) (t : BitVec 2) (i : Instr) : State :=
  let m := (s.thread n t).regs.lateMark i
  s.onPend n t fun l => l.map fun a => if a.kind == .fixed && a.addr == 0 then { a with addr := m } else a

/-- The loop registers that the loop test of an instruction at `a` reads: LA, LEk where LA has its bit, and LCk and LSk at
the end of the set (spec/04 R119). -/
def Loops.tested (l : Loops) (a : Word) : List (BitVec 8) :=
  6 :: ((if l.la.getLsbD 0 then (if a == l.le0 then [1, 2, 0] else [1]) else [])
    ++ (if l.la.getLsbD 1 then (if a == l.le1 then [4, 5, 3] else [4]) else []))

/-- The loop registers that a taken transfer reads: LSk and LEk of the sets that LA marks (spec/04 R113). -/
def Loops.bounds (l : Loops) : List (BitVec 8) :=
  (if l.la.getLsbD 0 then [0, 1] else []) ++ (if l.la.getLsbD 1 then [3, 4] else [])

/-- Does an instruction that executes with these registers transfer control (spec/04 R113)? -/
def Regs.transfers (r : Regs) : Instr → Bool
  | .j _ | .cJ _ | .call _ => true
  | .jr ra imm | .callr ra imm => !(r.read ra + imm64 imm).getLsbD 0
  | .ret | .cRet => !(r.read 15).getLsbD 0
  | .bz ra _ | .cBz ra _ => r.read ra == 0
  | .bnz ra _ | .cBnz ra _ => r.read ra != 0
  | _ => false

/-- The loop register and the register of the trap context that a RSR reads. -/
def SysReg.part : SysReg → Option (BitVec 2 × BitVec 8)
  | .ls k => some (2, if k then 3 else 0)
  | .le k => some (2, if k then 4 else 1)
  | .lc k => some (2, if k then 5 else 2)
  | .la => some (2, 6)
  | .tstat => some (3, 0)
  | .tpc => some (3, 1)
  | .tcause => some (3, 2)
  | .tval => some (3, 3)
  | .tvec => some (3, 4)
  | .tscr k => some (3, 5 + k.setWidth 8)
  | _ => none

/-- What an instruction reads beside its operands and the loop test: a system register, the trap context of a TRET. -/
def Instr.context : Instr → List (BitVec 2 × BitVec 8)
  | .rsr _ num => ((sysShown num.toNat).bind SysReg.part).toList
  | .tret => [(3, 0), (3, 1), (3, 2)]
  | _ => []

/-! ### The trap -/

/-- Does an instruction of a thread at `a` read a damaged register? Its mark counts while the register still holds what the
error left there. -/
def Thread.strikes (t : Thread) (i : Instr) (a : Word) (d : Damage) : Bool :=
  t.part d.kind d.index == d.val &&
  match d.kind with
  | 0 => (Instr.scalars i).any fun x => (t.regs.dest x).index == some d.index
  | 1 => (Instr.vectors i).any fun x => x.setWidth 8 == d.index
  | k =>
    (k == 2 && ((t.loops.tested a).contains d.index || (t.regs.transfers i && t.loops.bounds.contains d.index)))
    || (Instr.context i).contains (k, d.index)

/-- MACHINE, when an instruction reads a register with an uncorrectable error; TVAL says of which kind (spec/07 R167). Once it
has been reported the mark is gone. -/
def State.takeDamage (s : State) (n : Nat) (t : BitVec 2) (i : Instr) : Option State :=
  let th := s.thread n t
  (th.run.damage.find? (th.strikes i th.pc)).map fun d =>
    (s.onThread n t fun x => { x with run := { x.run with damage := x.run.damage.filter (· != d) } }).trapAt n t th.pc
      .machine (BitVec.ofNat 64 (d.kind.toNat + 1))

end Sys2Proof.Machine
end

