-- ==== Sys2Proof/Machine/Cluster.lean ====
section
/-!
DEFINITION. Push stores, holds and task deques (spec/13 R257-R274).
-/
set_option linter.constructorNameAsVariable false

namespace Sys2Proof.Machine

/-! ### Push stores (R260-R265) -/

/-- A core's outstanding pushes, one for each destination core (R260).
(log 66: DEDUCED) -/
def State.pushesOut (s : State) (n : Nat) : Nat :=
  ((s.core n).req.pushes.map fun p => p.dests.length).sum
  + (s.mem.homeq.map fun r => match r.op with | .push d => if r.src = n then d.length else 0 | _ => 0).sum
  + (s.mem.pushes.map fun m => if m.core = n then m.count else 0).sum

/-- Is there room for `k` pushes? An instruction with more than 16 waits until none is outstanding (R260). -/
def State.pushRoom (s : State) (n k : Nat) : Bool :=
  if k ≤ 16 then s.pushesOut n < 16 && s.pushesOut n + k ≤ 16 else s.pushesOut n = 0

/-- The destinations that a core-set value names; shadows are ignored (R259, R264). -/
def State.pushDests (s : State) (n : Nat) (v : Word) : Option (List Nat) :=
  (s.coreSet n v).map fun l => l.filter fun m => !s.shadow m

/-- Lines that `size` bytes at an address touch. -/
def linesTouched (a : Word) (size : Nat) : Nat := (a.toNat % 128 + size - 1) / 128 + 1

/-- Waits for a push: its number, the registrations of its line that must complete first. -/
def State.addPush (s : State) (n : Nat) (t : BitVec 2) (line : Nat) (dests regs : List Nat) : State :=
  let (id, s) := s.fresh
  (s.onCore n fun c => { c with req := { c.req with pushes := c.req.pushes ++ [⟨id, t.toNat, line, dests, regs⟩] } }).track
    id

/-- The registrations of a core for a line that are not complete. -/
def State.lineRegs (s : State) (n line : Nat) : List Nat :=
  ((s.outRegs (s.agentOf n (line * 128))).filter fun r => r.line = line && r.src = n).map OutReg.id

/-- The lines of global places. -/
def placeLines (ps : List Place) : List Nat :=
  (ps.filterMap fun p => match p with | .glob pa _ => some (lineOf pa) | _ => none).foldl (fun l x => insertNat x l) []

/-- What follows the store of STP, or the checks of PUSHL: a refusal counted (causes 4 and 5), or the pushes of each
line once `regs` of it are complete. -/
def State.pushLines (s : State) (v : Word) (ps : List Place) (regs : Nat → List Nat) : State :=
  let n := s.ctx.core
  let t := s.ctx.thr
  match ps with
  | .glob _ true :: _ =>
    match s.pushDests n v with
    | none => s.refused n t 1 5
    | some [] => s
    | some dests => (placeLines ps).foldl (fun s line => s.addPush n t line dests (regs line)) s
  | _ => s.refused n t 1 4

/-- The wait for room (R260). -/
def State.pushFits (s : State) (v a : Word) (size : Nat) : Bool :=
  s.pushRoom s.ctx.core (((s.pushDests s.ctx.core v).getD []).length * linesTouched a size)

/-- STP (spec/13 R264): Stores a scalar and pushes its line to named cores. -/
def execStp (rd ra rb : Reg) (disp : BitVec 32) (wd : Width) (rel : Bool) (s : State) : Res :=
  let a := s.addrLong ra disp
  let v := s.rd rb
  let n := s.ctx.core
  .next (if !s.pushFits v a (wsize wd) then s.stall .pushes
    else
      match s.checkCur .write a (wsize wd) with
      | (s, .trap c x) => s.trap c x
      | (s, .wait) => s.stall .translate
      | (s, .ok ps) =>
        if rel && !s.released n s.ctx.thr then s.stall .release
        else if s.cur.awaitsAny ps then s.stall .ownWord
        else if !s.roomFor n ps then s.stall .room
        else
          let (s, ids) := s.storePlaces n s.ctx.thr ps (lowBytes (s.rd rd) (wsize wd))
          ((s.trackAll ids).pushLines v ps fun line => (s.lineRegs n line).filter ids.contains).retire)

/-- PUSHL (spec/13 R265): Pushes a line to named cores without storing. -/
def execPushl (ra rb : Reg) (s : State) : Res :=
  let a := s.rd ra
  let v := s.rd rb
  let n := s.ctx.core
  .next (if !s.pushFits v a 1 then s.stall .pushes
    else
      match s.checkCur .read a 1 with
      | (s, .trap c x) => s.trap c x
      | (s, .wait) => s.stall .translate
      | (s, .ok ps) => (s.pushLines v ps fun line => s.lineRegs n line).retire)

/-! ### Holds (R266-R270) -/

/-- HOLDs of other threads of a core that wait for their registrations: their lines. -/
def State.holdsComing (s : State) (n : Nat) (t : BitVec 2) : List Nat :=
  (List.range 4).filterMap fun k =>
    if k = t.toNat then none
    else match (s.thread n (tid k)).run.wait with
      | some (.holdReg _ line _ _) => some line
      | _ => none

/-- Is another thread's HOLD of a line on its way to the L1 that keeps it, so that the line is soon held (R266)? -/
def State.holdAhead (s : State) (n : Nat) (t : BitVec 2) (num : Nat) : Bool :=
  (s.sharers n).any fun m => (List.range 4).any fun k =>
    !(m = n && k = t.toNat)
    && (match (s.thread m (tid k)).run.wait with
      | some (.holdReg _ line _ _) => line = num
      | _ => false)

/-- Is every way of a line's set held (R267)? -/
def State.allHeld (s : State) (agent num : Nat) : Bool :=
  let set := (s.core agent).mem.l1.filter fun l => l.num % 16 = num % 16
  4 ≤ set.length && set.all fun l => (s.holder agent l.num).isSome

/-- Is some way of a line's set replaceable (spec/10 R196)? -/
def State.someWay (s : State) (agent num : Nat) : Bool :=
  let set := (s.core agent).mem.l1.filter fun l => l.num % 16 = num % 16
  set.length < 4 || set.any fun l => s.replaceable agent l

/-- Starts the timer of a hold. -/
def State.startTimer (s : State) (n line d : Nat) : State :=
  s.onCore n fun c => { c with req := { c.req with holds := c.req.holds.map fun h =>
    if h.line = line ∧ h.thr = s.ctx.thr.toNat then { h with dur := some d } else h } }

/-- The end of a HOLD: status 0, the acquire. -/
def State.holdDone (s : State) (rd : Reg) (acq : Bool) : State := ((s.wr rd 0).acquireIf acq).retire

/-- Is every word of a line O in an L1, with no registration of it under way? -/
def State.ownsLine (s : State) (agent num : Nat) : Bool :=
  match s.line? agent num with
  | none => false
  | some l => allWords.all fun w => (get32 l.words w).st == WordState.o && !s.awaits agent num w

/-- The duration of HOLD (R267). -/
def holdDur (x : Word) : Nat := if x = 0 || 512 < x.toNat then 512 else x.toNat

/-- HOLD after its checks: the line comes in and its 32 words are registered. -/
def State.holdTake (s : State) (rd ra rb : Reg) (acq : Bool) (agent num : Nat) : State :=
  let n := s.ctx.core
  let t := s.ctx.thr
  let vline := (s.rd ra).toNat / 128
  let d := holdDur (s.rd rb)
  match s.allocate agent num false with
  | none => s.stall .holdWay
  | some s =>
    let s := s.useLine agent num
    if s.ownsLine agent num then
      let s1 := s.onCurCore fun c => { c with req := { c.req with holds := c.req.holds ++ [⟨t.toNat, num, vline, some d, []⟩] } }
      (s1.onCur fun th => { th with run := { th.run with endings := th.run.endings.filter (· != vline) } }).holdDone rd acq
    else
      let (s, id) := s.register agent n t num [] 0xFFFFFFFF (.reg [] 0xFFFFFFFF)
      s.stall (.holdReg id num vline d)

/-- HOLD of a line of global memory, its limits checked (R267). -/
def State.holdLine (s : State) (rd ra rb : Reg) (acq : Bool) (pa : Nat) (c : Bool) : State :=
  let n := s.ctx.core
  let num := lineOf pa
  let agent := s.agentOf n pa
  if !c then (s.wr rd 5).retire
  else
    match (s.core n).req.holds.find? fun h => h.line = num with
    | some h => (s.wr rd (if h.thr = s.ctx.thr.toNat then 2 else 3)).retire
    | none =>
      if s.holdAhead n s.ctx.thr num || (s.holder agent num).isSome then s.stall .holdWay
      else if s.allHeld agent num then (s.wr rd 4).retire
      else if !s.someWay agent num then s.stall .holdWay
      else s.holdTake rd ra rb acq agent num

/-- HOLD's limits (R270): HOLDs of other threads that are on their way may yet reach the core's limit, and are
awaited (log 28: DEDUCED). -/
def State.holdStart (s : State) (rd ra rb : Reg) (acq : Bool) : State :=
  let n := s.ctx.core
  match s.checkCur .read (s.rd ra) 1 with
  | (s, .trap c v) => s.trap c v
  | (s, .wait) => s.stall .translate
  | (s, .ok ps) =>
    let hs := (s.core n).req.holds
    if 2 ≤ (hs.filter fun h => h.thr = s.ctx.thr.toNat).length || 4 ≤ hs.length then s.trap .lease (s.rd ra)
    else if 4 ≤ hs.length + (s.holdsComing n s.ctx.thr).length then s.stall .holdWay
    else
      match ps with
      | .glob pa c :: _ => s.holdLine rd ra rb acq pa c
      | _ => (s.wr rd 5).retire

/-- HOLD (spec/13 R267): Takes a bounded hold of a line. -/
def execHold (rd ra rb : Reg) (acq : Bool) (s : State) : Res :=
  .next (match s.stage with
    | some (.holdReg id line vline d) => s.stall (.holdReg id line vline d)
    | some (.held id line d) =>
      if (s.sharers s.ctx.core).any fun k => (s.outRegs k).any fun r => r.id = id then s.stall (.held id line d)
      else (s.startTimer s.ctx.core line d).holdDone rd acq
    | _ => s.holdStart rd ra rb acq)

/-- UNHOLD (spec/13 R268): Ends a hold and serves its queued probes. -/
def execUnhold (rd ra : Reg) (rel : Bool) (s : State) : Res :=
  let n := s.ctx.core
  let t := s.ctx.thr
  let vline := (s.rd ra).toNat / 128
  .next (if rel && !s.released n t then s.stall .release
    else
      match (s.core n).req.holds.find? fun h => h.thr = t.toNat && h.vline = vline with
      | some h => ((s.endHold n h false).wr rd 0).retire
      | none =>
        if s.cur.run.endings.contains vline then
          ((s.onCur fun th => { th with run := { th.run with endings := th.run.endings.filter (· != vline) } }).wr rd
            1).retire
        else (s.wr rd 2).retire)

/-! ### Task deques (R271-R274; spec/16 R308). The owner end is the list's head. -/

/-- Entries of a deque. -/
def dequeSize : Nat := 64

/-- DQPUSH (spec/13 R272): Adds a task word at the owner end of the core's deque. A deque that has filled while the release was
awaited refuses it too (log 115: DESIGN CHOICE). -/
def execDqpush (rd ra : Reg) (s : State) : Res :=
  let x := s.rd ra
  .next (if x = 0 then (s.wr rd 2).retire
    else if dequeSize ≤ s.curCore.deque.length then (s.wr rd 1).retire
    else if !s.released s.ctx.core s.ctx.thr then s.stall .release
    else ((s.onCurCore fun c => { c with deque := x :: c.deque }).wr rd 0).retire)

/-- The members that a steal examines, in its order (R274): those after the own core, then those before it.
(log 65: DEDUCED) -/
def State.victims (s : State) (n : Nat) : List Nat :=
  let m := s.members (s.domKey n)
  (m.filter fun k => n < k) ++ m.filter fun k => k < n

/-- A pop's result is known: the register, the signature, the acquire (R273). -/
def State.popped (s : State) (rd : Reg) (e : Word) : State :=
  let s1 := (s.wr rd e).sign s.ctx.core s.ctx.thr e
  (s1.acquireIf (e != 0)).retire

/-- A pop: the own deque first, then a steal, which is sent here. -/
def State.pop (s : State) (rd : Reg) : State :=
  match s.curCore.deque with
  | e :: rest => (s.onCurCore fun c => { c with deque := rest }).popped rd e
  | [] => s.stall (.steal (s.victims s.ctx.core) true)

/-- DQPOP (spec/13 R273): Takes a task word from the own deque or by stealing, optionally waiting. -/
def execDqpop (rd : Reg) (wait : Bool) (s : State) : Res :=
  .next (match s.stage with
    | some .deque => s.stall .deque
    | some (.steal left _) => s.stall (.steal left true)
    | some (.deqGot e) => if e != 0 || !wait then s.popped rd e else s.stall .deque
    | _ => s.pop rd)

/-- The members that one request examines: those of one cluster that lie next to each other in the order; the own cluster's
members above and below the stealing core take two requests (R274). -/
def stealRun (n : Nat) (left : List Nat) : List Nat :=
  match left with
  | [] => []
  | k :: _ => left.takeWhile fun m => clusterOf m = clusterOf k && decide (n < m) == decide (n < k)

/-- A request of a steal is served: one entry from the steal end of the first deque that is not empty as it is examined, or
none (R274). -/
def State.steal (s : State) (run : List Nat) : State × Word :=
  match run.find? fun k => !(s.core k).deque.isEmpty with
  | none => (s, 0)
  | some k =>
    let e := (s.core k).deque.getLastD 0
    (s.onCore k fun c => { c with deque := c.deque.dropLast }, e)

/-- Sets what a thread waits for. -/
def State.waitFor (s : State) (n : Nat) (t : BitVec 2) (w : Option Wait) : State :=
  s.onThread n t fun th => { th with run := { th.run with wait := w } }

/-- STEAL_REQUEST (spec/13 R274): A steal request examines deques of other members and returns an entry or none. The next
one is sent as the thread goes on, unless it leaves the DQPOP first (R273). -/
def execStealRequest (core thr : Nat) (s : State) : Res :=
  .next (match (s.thread core (tid thr)).run.wait with
    | some (.steal left true) =>
      let run := stealRun core left
      let rest := left.drop run.length
      let (s1, e) := s.steal run
      if e != 0 then (s1.waitFor core (tid thr) (some (.deqGot e))).count core (some (tid thr)) 14 1
      else s1.waitFor core (tid thr) (some (if rest.isEmpty then .deqGot 0 else .steal rest false))
    | _ => s)

/-- May a waiting pop find an entry now (R273)? -/
def State.mayGain (s : State) (n : Nat) : Bool :=
  !(s.core n).deque.isEmpty || (s.victims n).any fun k => !(s.core k).deque.isEmpty

/-- DQPOP_RESEARCH (spec/13 R273): A waiting DQPOP re-searches after an entry is placed in the domain. -/
def execDqpopResearch (core thr : Nat) (s : State) : Res :=
  .next (match (s.thread core (tid thr)).run.wait with
    | some .deque => if s.mayGain core then s.waitFor core (tid thr) none else s
    | _ => s)

end Sys2Proof.Machine
end

