-- ==== Sys2Proof/Machine/Seqs.lean ====
section
/-!
DEFINITION. Sequences as their home sequencer keeps them (spec/17 R321-R332, R345, R346): record, map, order table,
slots, slabs; the commit rule, dispatch and settlement; writing through to memory; relocations.
-/
set_option linter.constructorNameAsVariable false

namespace Sys2Proof.Machine

/-! ### Places -/

/-- The home die of a handle (R321). -/
def seqDie (h : Nat) : Nat :=
  h % 8 ^^^ h / 2 ^ 3 % 8 ^^^ h / 2 ^ 6 % 8 ^^^ h / 2 ^ 9 % 8 ^^^ h / 2 ^ 12 % 8 ^^^ h / 2 ^ 15 % 8 ^^^ h / 2 ^ 18 % 4

/-- Are the pages of a range mapped for an access of the part? -/
def State.mapped (s : State) (part : Nat) (acc : Acc) (va size : Nat) : Bool :=
  (s.partMap true part acc va size).isSome

/-- A write of the sequencer; where a page has gone, memory keeps what it holds (R324). -/
def State.through (s : State) (part va : Nat) (bs : List Byte) : State := s.later part (.store va bs)

/-- The 4-byte words in which two byte lists of one length differ: offset and new bytes. -/
def diffWords (old new : List Byte) : List (Nat × List Byte) :=
  (List.range (new.length / 4)).filterMap fun k =>
    let a := (old.drop (4 * k)).take 4
    let b := (new.drop (4 * k)).take 4
    if a = b then none else some (4 * k, b)

/-- Writes the words in which a structure has changed. -/
def State.throughDiff (s : State) (part va : Nat) (old new : List Byte) : State :=
  (diffWords old new).foldl (fun s p => s.through part (va + p.1) p.2) s

/-! ### The map (R329, R331) -/

/-- The map entry of a layer and block; V with nothing remembered where none is listed. -/
def Seq.ent (q : Seq) (layer blk : Nat) : MapEnt :=
  (q.map.find? fun e => e.layer = layer && e.blk = blk).getD ⟨layer, blk, none, false, false, 0⟩

/-- Inserts an entry by layer and block. -/
def insertEnt (e : MapEnt) : List MapEnt → List MapEnt
  | [] => [e]
  | x :: xs =>
    if e.layer < x.layer || (e.layer = x.layer && e.blk < x.blk) then e :: x :: xs else x :: insertEnt e xs

/-- Sets an entry; one that is V with nothing to remember is not listed. -/
def Seq.setEnt (q : Seq) (e : MapEnt) : Seq :=
  let rest := q.map.filter fun x => !(x.layer = e.layer && x.blk = e.blk)
  if e.st.isNone && !e.repair && !e.out && e.quars = 0 then { q with map := rest }
  else { q with map := insertEnt e rest }

/-- The two bits of a state (R329). -/
def mapCode : Option MapState → Nat
  | none => 0
  | some .d => 1
  | some .f => 2
  | some .q => 3

/-- Blocks that hold a position. -/
def Seq.blocks (q : Seq) : Nat := (q.len + 2 ^ q.hdr.bs - 1) / 2 ^ q.hdr.bs

/-- The block of a position. -/
def Seq.blockOf (q : Seq) (pos : Nat) : Nat := pos / 2 ^ q.hdr.bs

/-- Is the map entirely V? -/
def Seq.allV (q : Seq) : Bool := q.map.all fun e => e.st.isNone

/-- `mark` of R331. -/
def Seq.mark (q : Seq) (layer blk : Nat) : Seq :=
  let e := q.ent layer blk
  match e.st with
  | none | some .f => q.setEnt { e with st := some .d }
  | _ => q

/-- Marks several entries. -/
def Seq.marks (q : Seq) (l : List (Nat × Nat)) : Seq := l.foldl (fun q p => q.mark p.1 p.2) q

/-- Every entry of a block. -/
def Seq.column (q : Seq) (blk : Nat) : List (Nat × Nat) := (List.range q.hdr.layers).map fun l => (l, blk)

/-- Blocks left without a position become V, their repair marks cleared; a task in flight stays outstanding (R332). -/
def Seq.trimBlocks (q : Seq) : Seq :=
  (q.map.filter fun e => q.blocks ≤ e.blk).foldl (fun q e => q.setEnt { e with st := none, repair := false, quars := 0 }) q

/-- `exceeds` of R331, on FP32 encodings. -/
def exceeds (delta tau : BitVec 32) : Bool :=
  let d := unpack fmtF32 delta.toNat
  let t := unpack fmtF32 tau.toNat
  d.isNaN || t.isNaN || fOrd d t == .gt

/-- A commit of an F entry (R331). -/
def Seq.commit (q : Seq) (layer blk : Nat) (dout dkv : Bool) : Seq :=
  let q1 := if dout && layer + 1 < q.hdr.layers then q.mark (layer + 1) blk else q
  let q2 := if dkv then q1.marks (((List.range q.blocks).filter fun b => blk < b).map fun b => (layer, b)) else q1
  q2.setEnt { q2.ent layer blk with st := none, repair := false, out := false }

/-! ### Dispatch and settlement (R330, R332) -/

/-- Is every entry that an entry depends on V? -/
def Seq.depsV (q : Seq) (layer blk : Nat) : Bool :=
  !q.map.any fun e => e.st.isSome && ((e.layer + 1 = layer && e.blk = blk) || (e.layer = layer && e.blk < blk))

/-- Outstanding tasks. -/
def Seq.outstanding (q : Seq) : Nat := (q.map.filter MapEnt.out).length

/-- Can an entry be dispatched? One quarantined three times in its edit generation is not (R349). -/
def Seq.dispatchable (q : Seq) (e : MapEnt) : Bool :=
  (e.st = some .d || e.st = some .q && e.quars < 3) && !e.out && q.outstanding < 256 && q.depsV e.layer e.blk

/-- Is every slot of a block at or above SHW? -/
def Seq.appended (q : Seq) (blk : Nat) : Bool :=
  ((q.order.drop (blk * 2 ^ q.hdr.bs)).take (2 ^ q.hdr.bs)).all fun slot => q.shw ≤ slot

/-- The task word of an entry (R330).
(log 55: DEDUCED) -/
def Seq.task (q : Seq) (e : MapEnt) : Word :=
  let kind := if e.repair then 3 else if q.appended e.blk then 2 else 1
  packWord [(kind, 56), (q.edit.toNat % 256, 48), (e.blk, 28), (e.layer, 20), (q.handle, 0)]

/-- Dispatches every entry that can be. -/
def Seq.dispatch (q : Seq) : Seq :=
  q.map.foldl (fun q x =>
    let e := q.ent x.layer x.blk
    if q.dispatchable e then
      { q.setEnt { e with st := some .f, out := true } with inject := q.inject ++ [q.task e] }
    else q) q

/-- A map that is entirely V is settled (R332). -/
def Seq.settle (q : Seq) : Seq := if q.allV then { q with settled := q.edit, shw := q.hw } else q

/-! ### The serving domain and STATE (R322, R323) -/

/-- LEVEL, TABLE and core of the serving domain word. -/
def Seq.domLevel (q : Seq) : Nat := (q.hdr.domain.extractLsb' 8 4).toNat
def Seq.domTable (q : Seq) : Nat := (q.hdr.domain.extractLsb' 0 8).toNat
def Seq.domCore (q : Seq) : Nat := (q.hdr.domain.extractLsb' 12 17).toNat

/-- Does the serving domain's unit cover a core? -/
def State.unitCovers (s : State) (q : Seq) (k : Nat) : Bool :=
  match q.domLevel with
  | 0 => clusterOf k = clusterOf q.domCore
  | 1 => dieOf k = dieOf q.domCore
  | 2 | 3 => true
  | 4 => s.entryCovers q.domTable k
  | _ => false

/-- A launch that runs on its cores. -/
def Launch.runs (l : Launch) : Bool := l.phase == .running || l.phase == .preempting

/-- The serving domain's members in the partition's running launches. -/
def State.serving (s : State) (q : Seq) : List Nat :=
  (s.launches.filter fun l => l.part = q.part && l.runs).flatMap fun l =>
    let lv := s.domLevel l q.domLevel
    l.cores.filter fun n => s.unitCovers q n && s.isMember n && (s.domKey n).level = lv
      && (lv != 4 || (s.domKey n).unit = q.domTable) && (s.core n).launch == some l.id

/-- STATE (R323). -/
def State.seqState (s : State) (q : Seq) : Nat :=
  if q.faulted then 4
  else if q.tapped then 3
  else if !(s.launches.any fun l => l.part = q.part && l.runs && l.cores.any fun n => s.unitCovers q n) then 5
  else if q.allV then 1 else 2

/-! ### Structures as memory holds them (R322, R325, R326, R329) -/

/-- Bytes 0x00 to 0x5F of a record. A length of 2 ^ 24 has its bit 24 in byte 7 (R322 gives it no place; log 117: DESIGN CHOICE). -/
def Seq.recBytes (q : Seq) : List Byte :=
  leBytes 1 q.shown ++ leBytes 1 (q.hdr.rfmt.toNat + 4 * bit1 q.hdr.child) ++ leBytes 1 q.hdr.bs ++ leBytes 1 q.hdr.layers
  ++ leBytes 4 q.len ++ leBytes 2 q.edit.toNat ++ leBytes 2 q.settled.toNat ++ leBytes 4 q.hdr.tau.toNat
  ++ leBytes 8 q.hdr.map.toNat ++ leBytes 8 q.hdr.order.toNat ++ leBytes 8 q.hdr.slabs.toNat ++ leBytes 4 q.hw
  ++ leBytes 4 q.tombs ++ leBytes 8 q.key.toNat ++ leBytes 8 q.ctr.toNat ++ leBytes 8 q.hdr.penalty.toNat
  ++ leBytes 8 q.hdr.steer.toNat ++ leBytes 8 q.hdr.fault.toNat ++ leBytes 4 q.hdr.domain.toNat
  ++ leBytes 4 q.hdr.parent.toNat

/-- A slot-array entry. -/
def Slot.bytes (x : Slot) : List Byte := leBytes 8 (x.token.toNat * 2 ^ 32 + bit1 x.live * 2 ^ 24 + x.pos)

/-- A slab table entry. -/
def Slab.bytes (x : Slab) : List Byte :=
  leBytes 8 x.base.toNat ++ leBytes 8 x.oldbase.toNat ++ leBytes 8 x.shbase.toNat ++ leBytes 4 x.wmark
  ++ leBytes 4 x.shcount ++ leBytes 4 x.stride ++ leBytes 1 x.log2cap ++ leBytes 1 (bit1 x.moving + 2 * bit1 x.shared)
  ++ leBytes 2 x.lends ++ leBytes 2 x.heads ++ leBytes 2 x.hdim ++ leBytes 2 x.rotd ++ leBytes 1 (bit1 x.kfmt)
  ++ leBytes 1 0 ++ leBytes 8 x.freq.toNat ++ leBytes 8 0

/-- The address of the map word with a block's entry. -/
def Seq.mapAddr (q : Seq) (layer blk : Nat) : Nat := q.hdr.map.toNat + layer * 2 ^ (22 - q.hdr.bs) + 8 * (blk / 32)

/-- The map word with a block's entry. -/
def Seq.mapWord (q : Seq) (layer blk : Nat) : Nat :=
  ((q.map.filter fun e => e.layer = layer && e.blk / 32 = blk / 32).map fun e => mapCode e.st * 4 ^ (e.blk % 32)).sum

/-- The addresses of an order entry and of a slot. -/
def Seq.orderAddr (q : Seq) (pos : Nat) : Nat := q.hdr.order.toNat + 4 * pos
def Seq.slotAddr (q : Seq) (slot : Nat) : Nat := q.hdr.order.toNat + 0x04000000 + 8 * slot

/-- The entries whose state differs between two maps. -/
def mapChanged (a b : Seq) : List (Nat × Nat) :=
  ((a.map ++ b.map).filter fun e => (a.ent e.layer e.blk).st != (b.ent e.layer e.blk).st).map fun e => (e.layer, e.blk)

/-- A slot's number at a position, tentative positions included (R325). -/
def Seq.slotAt (q : Seq) (pos : Nat) : Option Nat :=
  if pos < q.len then q.order[pos]? else if pos < q.len + 64 then some (q.hw + (pos - q.len)) else none

/-- A slot. -/
def Seq.slot (q : Seq) (k : Nat) : Slot := (q.slots[k]? : Option Slot).getD ⟨0, false, 0⟩

/-- A layer's slab. -/
def Seq.slab (q : Seq) (l : Nat) : Slab :=
  (q.slabs[l]? : Option Slab).getD ⟨0, 0, 0, 0, 0, 0, 0, false, false, 0, 0, 0, 0, false, 0⟩

/-- The base of a slot now (R327). -/
def Slab.baseOf (x : Slab) (slot : Nat) : Nat :=
  if x.moving && slot < x.wmark then x.base.toNat
  else if x.shared && slot < x.shcount then x.shbase.toNat
  else if x.moving then x.oldbase.toNat
  else x.base.toNat

/-! ### Changing a sequence -/

/-- Wakes what waits for a sequence's map (R340): a settlement, or an entry that is V. -/
def State.wakeSeq (s : State) (q : Seq) : State :=
  (s.cores.map Prod.fst).foldl (fun s n =>
    if s.corePartId n = q.part then
      (List.range 4).foldl (fun s k =>
        match (s.thread n (tid k)).run.wait with
        | some (.settle h) =>
          if h = q.handle ∧ q.allV then s.waitFor n (tid k) (some (.granted (q.edit.setWidth 64))) else s
        | some (.block h l b) =>
          if h = q.handle ∧ (q.ent l b).st.isNone then s.waitFor n (tid k) (some (.granted 0)) else s
        | _ => s) s
    else s) s

/-- Puts a sequence in place of itself: settlement, dispatch, STATE, the words of map and record that change
(R323, R324, R330, R332). -/
def State.putSeq (s : State) (old new : Seq) : State :=
  let q1 := new.settle
  let q2 := q1.dispatch
  let q3 := { q2 with shown := s.seqState q2 }
  let s1 := s.onSeq q3.part q3.handle fun _ => q3
  let s2 := (mapChanged old q3).foldl (fun s e =>
    s.through q3.part (q3.mapAddr e.1 e.2) (leBytes 8 (q3.mapWord e.1 e.2))) s1
  let s3 := s2.throughDiff q3.part q3.record old.recBytes q3.recBytes
  (s3.wakeSeq q1).wakeSeq q3

/-- Re-derives STATE of every sequence of a partition (R323), as launches come and go. -/
def State.refreshSeqs (s : State) (part : Nat) : State :=
  s.seqs.foldl (fun s q =>
    if q.part = part then
      match s.seqKept part q.handle with
      | some x => if s.seqState x = x.shown then s else s.putSeq x x
      | none => s
    else s) s

/-- Changes a layer's slab and writes it through. -/
def State.onSlab (s : State) (part handle layer : Nat) (f : Slab → Slab) : State :=
  match s.seqKept part handle with
  | none => s
  | some q =>
    let a := q.slab layer
    let b := f a
    (s.onSeq part handle fun q => { q with slabs := q.slabs.set layer b }).throughDiff part
      (q.hdr.slabs.toNat + 64 * layer) a.bytes b.bytes

/-- Writes a slot through. -/
def State.writeSlot (s : State) (q : Seq) (k : Nat) : State := s.through q.part (q.slotAddr k) (q.slot k).bytes

/-- Writes an order entry through. -/
def State.writeOrder (s : State) (q : Seq) (pos : Nat) : State :=
  s.through q.part (q.orderAddr pos) (leBytes 4 (q.order.getD pos 0))

/-! ### Relocations (R345, R346) -/

/-- The relocations queued on a die. -/
def State.relocsOf (s : State) (die : Nat) : List Reloc := s.relocs.filter fun r => r.die = die

/-- Free places of a die's relocation queue. -/
def State.relocRoom (s : State) (die : Nat) : Nat := 16 - (s.relocsOf die).length

/-- Is an unsharing of a layer queued or running? -/
def State.unsharing (s : State) (part handle layer : Nat) : Bool :=
  s.relocs.any fun r => r.part = part && r.handle = handle && r.layer = layer && r.grow.isNone

/-- The oldest relocation of a die begins: the slab is being vacated (R345.1, R346.1).
(log 56: DEDUCED) -/
def State.beginReloc (s : State) (die : Nat) : State :=
  match s.relocs.find? fun r => r.die = die with
  | none => s
  | some r =>
    if r.begun then s
    else
      match s.seqKept r.part r.handle with
      | none => s
      | some q =>
        let old := (q.slab r.layer).log2cap
        let s1 : State := { s with relocs := s.relocs.map fun x => if x = r then { x with begun := true, oldcap := old } else x }
        s1.onSlab r.part r.handle r.layer fun x =>
          match r.grow with
          | none => { x with oldbase := x.base, wmark := 0, moving := true }
          | some b => { x with oldbase := x.base, base := b, wmark := 0, moving := true, log2cap := x.log2cap + 1 }

/-- Queues a relocation; it begins at once when none is ahead of it. -/
def State.queueReloc (s : State) (part handle layer : Nat) (grow : Option Word) : State :=
  let die := seqDie handle
  let s1 : State := { s with relocs := s.relocs ++ [⟨die, part, handle, layer, grow, false, 0⟩] }
  s1.beginReloc die

/-- Moves bytes of a partition's memory for the sequencer, poison with them, if home can serve them now; bytes of a page that
is gone are not moved. -/
def State.moveBytes (s : State) (part src dst len : Nat) : State × Bool :=
  match s.partReach part .read src len with
  | (s, .wait) => (s, false)
  | (s, .fault) => (s, true)
  | (s, .ok a) =>
    match s.partReach part .write dst len with
    | (s, .wait) => (s, false)
    | (s, .fault) => (s, true)
    | (s, .ok b) =>
      let bs := a.map s.homeByte
      (((s.notePages part b).homeWrite (b.zip (bs.map Prod.fst))).homePoison
        (((b.zip bs).filter fun p => p.2.2).map Prod.fst), true)

/-- KVADDRs that waited for a relocation: those whose slot now lies at BASE get their address; one whose layer is still
shared queues its unsharing when there is a place (R347). -/
def State.serveKvWaits (s : State) : State :=
  s.kvwaits.foldl (fun s w =>
    match s.seqKept w.part w.handle with
    | none => s
    | some q =>
      let x := q.slab w.layer
      if x.shared && !s.unsharing w.part w.handle w.layer then
        if 0 < s.relocRoom (seqDie w.handle) then s.queueReloc w.part w.handle w.layer none else s
      else if x.moving || (x.shared && w.off / Nat.max 1 x.stride < x.shcount) then s
      else
        let bytes := leBytes 8 (x.base.toNat + w.off)
        let s1 := s.onPend w.core (tid w.thr) fun l => l.map fun a =>
          if a.id = w.id then { a with bytes := bytes.map .have } else a
        { s1 with kvwaits := s1.kvwaits.filter fun y => y.id != w.id }) s

/-- How many slots a relocation copies. -/
def Reloc.count (r : Reloc) (x : Slab) : Nat := if r.grow.isSome then 2 ^ r.oldcap else x.shcount

/-- Where a relocation copies a slot from: the base that R327 gave it before. -/
def Slab.movedFrom (x : Slab) (slot : Nat) : Nat :=
  (if x.shared && slot < x.shcount then x.shbase.toNat else x.oldbase.toNat) + slot * x.stride

/-- The oldest relocation of a die ends (R345.3, R346.3); the next begins. -/
def State.endReloc (s : State) (die : Nat) (r : Reloc) (q : Seq) : State :=
  let x := q.slab r.layer
  let s1 := ({ s with relocs := s.relocs.erase r } : State).onSlab r.part r.handle r.layer fun x =>
    { x with shared := false, moving := false }
  let s2 :=
    if x.shared then s1.onSlab r.part q.hdr.parent.toNat r.layer fun y => { y with lends := y.lends - 1 } else s1
  (s2.beginReloc die).serveKvWaits

/-- The oldest relocation of a die goes on: it copies the slot at the watermark and raises WMARK past it, in ascending order;
once every slot has been copied it ends (R345.2-3, R346.2-3). -/
def State.relocate (s : State) (die : Nat) (grow : Bool) : State :=
  match s.relocs.find? fun r => r.die = die with
  | none => s
  | some r =>
    if r.grow.isSome != grow then s
    else
      match s.seqKept r.part r.handle with
      | none => ({ s with relocs := s.relocs.erase r } : State).beginReloc die
      | some q =>
        let x := q.slab r.layer
        if !r.begun then s.beginReloc die
        else if r.count x ≤ x.wmark then s.endReloc die r q
        else
          match s.moveBytes r.part (x.movedFrom x.wmark) (x.base.toNat + x.wmark * x.stride) x.stride with
          | (s, false) => s
          | (s, true) => s.onSlab r.part r.handle r.layer fun x => { x with wmark := x.wmark + 1 }

/-- UNSHARING_RELOCATION_END (spec/17 R345): An unsharing relocation of a child layer goes on slot by slot, finishes, and
the layer stops being shared. -/
def execUnsharingRelocationEnd (die : Nat) (s : State) : Res := .next (s.relocate die false)

/-- SLAB_RELOCATION_END (spec/17 R346): A slab-growth relocation goes on slot by slot, finishes, and clears
MOVING. -/
def execSlabRelocationEnd (die : Nat) (s : State) : Res := .next (s.relocate die true)

/-! ### Injecting tasks (R330) -/

/-- The serving member whose deque takes a task: the fewest entries, the lowest number on a tie; none when all are
full, or while its domain is frozen, whose state debug writes alone change (spec/16 R313; log 122: DEDUCED). -/
def State.injectTo (s : State) (q : Seq) : Option Nat :=
  (((s.serving q).filter fun n => (s.core n).deque.length < dequeSize).foldl (fun m n =>
    match m with
    | none => some n
    | some k =>
      let a := (s.core n).deque.length
      let b := (s.core k).deque.length
      if a < b || (a = b && n < k) then some n else some k) none).filter fun n => !s.frozen n

/-- TASK_INJECT (spec/17 R330): The thaw sequencer injects a dispatched task word into a member's deque. -/
def execTaskInject (handle : Nat) (s : State) : Res :=
  .next (match s.seqs.find? fun q => q.handle = handle && !q.inject.isEmpty && (s.injectTo q).isSome with
    | none => s
    | some q =>
      match s.injectTo q, q.inject with
      | some n, w :: rest =>
        (s.onSeq q.part q.handle fun q => { q with inject := rest }).onCore n fun c => { c with deque := c.deque ++ [w] }
      | _, _ => s)

end Sys2Proof.Machine
end

