-- ==== Sys2Proof/Machine/Context.lean ====
section
/-!
DEFINITION. The sequence instructions CXOPEN, CXCLOSE, CXINS, CXREP, CXDEL, CXCOMMIT, CXSETTLE, CXWAITB, CXSTATE, CXLEN
and CXFORK (spec/17 R333-R344), and the generator of spec/18 R368, which CXFORK.rekey uses.
-/
set_option linter.constructorNameAsVariable false

namespace Sys2Proof.Machine

/-! ### Shared shapes -/

/-- A refusal (R333). -/
def refusal (code : Nat) : Word := packWord [(1, 63), (code, 0)]

/-- Refuses with a code. -/
def State.refuse (s : State) (rd : Reg) (code : Nat) : State := (s.wr rd (refusal code)).retire

/-- The handle in a register (R334). -/
def handleOf (x : Word) : Nat := (x.extractLsb' 0 20).toNat

/-- TVAL of CONTEXT (R333). -/
def contextTval (code handle : Nat) : Word := packWord [(code, 0), (handle, 8)]

/-- The partition whose sequences the executing thread reaches, when they are enabled (R321). -/
def State.seqPart (s : State) : Option Partition := (s.corePart s.ctx.core).filter fun p => p.seqen

/-- The reply of a request that has been carried out: the changes it made are in memory first (R324). -/
def State.replies (s : State) (rd : Reg) (v : Word) : State :=
  if s.written (s.corePartId s.ctx.core) then (s.wr rd v).retire else s.stall (.reply v)

/-- The start of a request that releases first (R335): the partition, or code 1 with SEQBASE.EN = 0. One that has been
carried out awaits its reply. -/
def State.request17 (s : State) (rd : Reg) (k : Partition → State) : State :=
  match s.stage with
  | some (.reply v) => s.replies rd v
  | _ =>
    if !s.released s.ctx.core s.ctx.thr then s.stall .release
    else
      match s.seqPart with
      | none => s.refuse rd 1
      | some p => k p

/-- The request of an open sequence. -/
def State.requestSeq (s : State) (rd : Reg) (h : Nat) (k : Partition → Seq → State) : State :=
  s.request17 rd fun p =>
    match s.seqOf p.id h with
    | none => s.refuse rd 1
    | some q => k p q

/-- Can the sequencer serve the memory of a request now: the ranges, address and size, that it reads or is to write? A held
line makes it wait (spec/13 R266), words that the host owns are snooped (spec/21 R396), a spilled page is fetched (R351);
a page that is not mapped keeps nothing waiting. -/
def State.sees (s : State) (part : Nat) : List (Nat × Nat) → State × Bool
  | [] => (s, true)
  | (va, size) :: rest =>
    match s.partReach part .read va size with
    | (s, r) => ((s.sees part rest).1, r != .wait && (s.sees part rest).2)

/-- Can the walks of some pages, which a request must find mapped, be made now? -/
def State.walks (s : State) (part : Nat) (acc : Acc) : List Nat → State × Bool
  | [] => (s, true)
  | va :: rest =>
    match s.walkPage part acc va with
    | (s, r) => ((s.walks part acc rest).1, r != .wait && (s.walks part acc rest).2)

/-- The rest of a request, once the sequencer can serve its memory; until then it waits. -/
def State.seeing (s : State) (part : Nat) (ranges : List (Nat × Nat)) (k : State → State) : State :=
  match s.sees part ranges with
  | (s, true) => k s
  | (s, false) => s.stall .release

/-- A field of a structure. -/
def bytesField (bs : List Byte) (off size : Nat) : Nat := leNat ((bs.drop off).take size)

/-- The 4-byte tokens of an array. -/
def tokensOf (bs : List Byte) (n : Nat) : List (BitVec 32) :=
  (List.range n).map fun k => BitVec.ofNat 32 (bytesField bs (4 * k) 4)

/-! ### CXOPEN (R336) -/

/-- Is a pointer of a template not acceptable? -/
def badPtr (x : Nat) : Bool := x = 0 || x % 256 != 0

/-- A slab entry as CXOPEN finds it. KFMT is its low bit: R336 refuses no other value (log 118: DESIGN CHOICE). -/
def slabOf (bs : List Byte) : Slab where
  base := BitVec.ofNat 64 (bytesField bs 0 8)
  oldbase := 0
  shbase := 0
  wmark := 0
  shcount := 0
  stride := bytesField bs 32 4
  log2cap := bytesField bs 36 1
  moving := false
  shared := false
  lends := 0
  heads := bytesField bs 40 2
  hdim := bytesField bs 42 2
  rotd := bytesField bs 44 2
  kfmt := bytesField bs 46 1 % 2 = 1
  freq := BitVec.ofNat 64 (bytesField bs 48 8)

/-- Does a slab entry break R336 (with R326)? LOG2CAP above 28 does, though R336 does not name it among the fields outside R326
(log 119: DESIGN CHOICE). -/
def slabBad (bs : List Byte) (hw : Nat) : Bool :=
  let x := slabOf bs
  x.base.toNat = 0 || x.base.toNat % 0x10000 != 0 || 28 < x.log2cap || 2 ^ x.log2cap < hw
  || x.stride % 128 != 0 || x.stride < 4 * x.heads * x.hdim || x.heads = 0 || 256 < x.heads
  || x.hdim % 2 != 0 || x.hdim < 2 || 512 < x.hdim || x.rotd % 2 != 0 || x.hdim < x.rotd
  || (x.freq = 0 && 0 < x.rotd)
  || bytesField bs 8 8 != 0 || bytesField bs 16 8 != 0 || bytesField bs 24 8 != 0 || bytesField bs 37 1 != 0 || bytesField bs 38 2 != 0

/-- The header of a template. -/
def hdrOf (t : List Byte) : SeqHdr where
  bs := bytesField t 2 1
  layers := bytesField t 3 1
  rfmt := BitVec.ofNat 2 (bytesField t 1 1)
  child := false
  tau := BitVec.ofNat 32 (bytesField t 0x0C 4)
  map := BitVec.ofNat 64 (bytesField t 0x10 8)
  order := BitVec.ofNat 64 (bytesField t 0x18 8)
  slabs := BitVec.ofNat 64 (bytesField t 0x20 8)
  penalty := BitVec.ofNat 64 (bytesField t 0x40 8)
  steer := BitVec.ofNat 64 (bytesField t 0x48 8)
  fault := BitVec.ofNat 64 (bytesField t 0x50 8)
  domain := BitVec.ofNat 32 (bytesField t 0x58 4)
  parent := 0xFFFFFFFF

/-- The sequence a template describes, before order, slots, slabs and map are read. -/
def seqOfTemplate (part : Nat) (base : BitVec 27) (h : Nat) (t : List Byte) : Seq where
  handle := h
  part := part
  base := base
  hdr := hdrOf t
  len := bytesField t 4 4
  edit := 0
  settled := 0
  hw := bytesField t 0x28 4
  shw := bytesField t 0x28 4
  tombs := bytesField t 0x2C 4
  key := BitVec.ofNat 64 (bytesField t 0x30 8)
  ctr := BitVec.ofNat 64 (bytesField t 0x38 8)
  tapped := false
  halted := false
  faulted := false
  order := []
  slots := []
  slabs := []
  map := []
  inject := []
  shown := 0

/-- Reads memory of the partition, nothing where it is not mapped. -/
def State.readPart (s : State) (part va size : Nat) : List Byte := (s.partRead part va size).getD []

/-- Entries of the map as CXOPEN finds them: D and F are D, Q carries a repair mark (R336). -/
def State.readMap (s : State) (q : Seq) : List MapEnt :=
  (List.range q.hdr.layers).flatMap fun l => (List.range q.blocks).filterMap fun b =>
    match leNat (s.readPart q.part (q.mapAddr l b) 8) / 4 ^ (b % 32) % 4 with
    | 0 => none
    | 3 => some ⟨l, b, some .q, true, false, 0⟩
    | _ => some ⟨l, b, some .d, false, false, 0⟩

/-- Are the map words of the blocks that hold positions mapped? -/
def State.mapMapped (s : State) (q : Seq) : Bool :=
  (List.range q.hdr.layers).all fun l => s.mapped q.part .write (q.mapAddr l 0) (8 * ((q.blocks + 31) / 32))

/-- Is a handle's record not FREE? The sequence is open, or the record's STATE byte in memory is not 0, so that a record has
to be zeroed before it is first used (spec/20 R380); which of the two R336 means is not said (log 99: DESIGN CHOICE). -/
def State.recordTaken (s : State) (p : Partition) (h : Nat) : Bool :=
  (s.seqOf p.id h).isSome || (s.partNat p.id (p.record h) 1).any (· != 0)

/-- Does a template's header break R336? -/
def Seq.headBad (q : Seq) : Bool :=
  q.hdr.bs < 1 || 8 < q.hdr.bs || q.hdr.layers = 0 || q.hdr.rfmt = 3 || 2 ^ 24 < q.len || q.hw < q.len
  || 2 ^ 28 < q.hw || badPtr q.hdr.map.toNat || badPtr q.hdr.order.toNat || badPtr q.hdr.slabs.toNat
  || badPtr q.hdr.penalty.toNat

/-- What a request decides from a template: the sequence that comes of it, a refusal, or a poisoned byte of the template, which
is read as a plain load (R336, spec/05 R129). -/
inductive Opening where
  | ok (q : Seq)
  | error (c : Nat)
  | poison (a : Nat)
  deriving DecidableEq, Repr

/-- The first poisoned byte of a template, which TVAL of the POISON names (log 110: DEDUCED). -/
def State.templatePsn (s : State) (part t : Nat) : Option Nat :=
  ((s.partMap true part .read t 96).bind fun r => r.1.findIdx? fun pa => (s.homeByte pa).2).map (t + ·)

/-- What CXOPEN decides from the record and the template: a code, or the sequence that the template describes. -/
def State.openHead (s : State) (p : Partition) (h t : Nat) : Opening :=
  if !s.mapped p.id .write (p.record h) 256 then .error 10
  else if s.recordTaken p h then .error 13
  else
    match s.partRead p.id t 96 with
    | none => .error 10
    | some bs =>
      match s.templatePsn p.id t with
      | some a => .poison a
      | none => .ok (seqOfTemplate p.id p.seqbase h bs)

/-- The order entries, slot entries and map words of a sequence's positions. -/
def Seq.arrays (q : Seq) : List (Nat × Nat) :=
  [(q.hdr.order.toNat, 4 * q.len), (q.slotAddr 0, 8 * q.hw)]
  ++ (List.range q.hdr.layers).map fun l => (q.mapAddr l 0, 8 * ((q.blocks + 31) / 32))

/-- The slab table of a sequence. -/
def Seq.tableRange (q : Seq) : Nat × Nat := (q.hdr.slabs.toNat, 64 * q.hdr.layers)

/-- The memory that CXOPEN reads beside record and template. -/
def Seq.openRanges (q : Seq) : List (Nat × Nat) :=
  (if badPtr q.hdr.slabs.toNat then [] else [q.tableRange]) ++ (if q.headBad then [] else q.arrays)

/-- What CXOPEN decides then: a code, or the sequence and its map as found. A page that the part could not write counts as not
mapped (log 54: DEDUCED). -/
def State.openSeq (s : State) (q : Seq) : Except Nat Seq :=
  let table := q.hdr.slabs.toNat
  if !badPtr table && !s.mapped q.part .write table (64 * q.hdr.layers) then .error 10
  else if q.headBad then .error 11
  else
    let entries := (List.range q.hdr.layers).map fun l => s.readPart q.part (table + 64 * l) 64
    if entries.any fun e => slabBad e q.hw then .error 11
    else if !s.mapped q.part .write q.hdr.order.toNat (4 * q.len)
        || !s.mapped q.part .write (q.slotAddr 0) (8 * q.hw) || !s.mapMapped q then .error 10
    else
      let order := s.readPart q.part q.hdr.order.toNat (4 * q.len)
      let slots := s.readPart q.part (q.slotAddr 0) (8 * q.hw)
      .ok { q with
        order := (List.range q.len).map fun k => bytesField order (4 * k) 4 % 2 ^ 28
        slots := (List.range q.hw).map fun k =>
          let w := bytesField slots (8 * k) 8
          ⟨BitVec.ofNat 32 (w / 2 ^ 32), w / 2 ^ 24 % 2 = 1, w % 2 ^ 24⟩
        slabs := entries.map slabOf
        map := s.readMap q }

/-- Installs an open sequence: the record in memory, the map's F entries taken as D, dispatch. One that the part kept under
the handle for another BASE goes (log 98: DESIGN CHOICE). -/
def State.install17 (s : State) (p : Partition) (q : Seq) : State :=
  let shown := { q with shown := s.seqState q }
  let s1 : State := { s with seqs := (s.seqs.filter fun x => !(x.handle = q.handle && x.part = q.part)) ++ [shown] }
  let s2 := s1.through p.id q.record (shown.recBytes ++ List.replicate 160 0)
  let s3 := (q.map.map fun e => (e.layer, e.blk)).foldl (fun s e =>
    s.through p.id (q.mapAddr e.1 e.2) (leBytes 8 (q.mapWord e.1 e.2))) s2
  s3.putSeq shown shown

/-- CXOPEN (spec/17 R336): Opens a sequence from a template. -/
def execCxopen (rd ra rb : Reg) (s : State) : Res :=
  let h := handleOf (s.rd ra)
  let t := (s.rd rb).toNat
  .next (s.request17 rd fun p => s.seeing p.id [(p.record h, 256), (t, 96)] fun s =>
    match s.openHead p h t with
    | .error c => s.refuse rd c
    | .poison a => s.trap .poison (BitVec.ofNat 64 a)
    | .ok q => s.seeing p.id q.openRanges fun s =>
      match s.openSeq q with
      | .error c => s.refuse rd c
      | .ok q => (s.install17 p q).replies rd 0)

/-! ### CXCLOSE (R337) -/

/-- The K/V commands of a sequence in a core's copy queue. -/
def State.kvCmds (s : State) (n h : Nat) : List Cmd :=
  (s.queue n .cp).filter fun c =>
    match c.instr with
    | .kvld _ _ _ _ _ | .kvapp _ _ _ _ => handleOf c.a = h
    | _ => false

/-- A KVLD of a sequence that has been served and has yet to enter the queue (R348). -/
def Thread.kvServed (t : Thread) (h : Nat) : Bool :=
  match t.run.wait with
  | some (.kvRows h' _ _) | some (.spilled h' _ _) => h' = h
  | _ => false

/-- Does any core of a partition have K/V commands of a sequence queued, is a relocation of it queued, or does a KVADDR wait
for the place of one (R347)? -/
def State.seqBusy (s : State) (part h : Nat) : Bool :=
  (s.cores.any fun c => s.corePartId c.1 = part
    && (!(s.kvCmds c.1 h).isEmpty || c.2.thr.toList.any fun t => t.kvServed h))
  || (s.relocs.any fun r => r.part = part && r.handle = h) || s.kvwaits.any fun w => w.part = part && w.handle = h

/-- Closes a sequence. -/
def State.closeSeq (s : State) (p : Partition) (q : Seq) : State :=
  let s1 := (List.range q.hdr.layers).foldl (fun s l =>
    if (q.slab l).shared then s.onSlab p.id q.hdr.parent.toNat l fun x => { x with lends := x.lends - 1 } else s) s
  let s2 : State := { s1 with seqs := s1.seqs.filter fun x => !(x.handle = q.handle && x.part = p.id) }
  let s3 : State := { s2 with kvpages := s2.kvpages.map fun x =>
    if x.part = p.id then { x with quar := x.quar.filter fun e => e.1 != q.handle } else x }
  s3.through p.id q.record (leBytes 1 0)

/-- CXCLOSE (spec/17 R337): Closes a sequence. -/
def execCxclose (rd ra : Reg) (s : State) : Res :=
  .next (s.requestSeq rd (handleOf (s.rd ra)) fun p q =>
    if 0 < q.outstanding then s.refuse rd 12
    else if q.slabs.any fun x => x.lends != 0 then s.refuse rd 5
    else if s.seqBusy p.id q.handle then s.stall .queue
    else (s.closeSeq p q).replies rd 0)

/-! ### Edits (R338) -/

/-- The kinds of edit. -/
inductive Edit where
  | ins | rep | del
  deriving DecidableEq, Repr

/-- p and n of an edit. -/
def editPos (x : Word) : Nat := (x.extractLsb' 0 24).toNat
def editCount (x : Word) : Nat := (x.extractLsb' 24 25).toNat

/-- The layers of a child that are still shared. -/
def Seq.sharedLayers (q : Seq) : List Nat := (List.range q.hdr.layers).filter fun l => (q.slab l).shared

/-- The shared layers whose unsharing is not yet queued. -/
def State.toUnshare (s : State) (q : Seq) : List Nat :=
  q.sharedLayers.filter fun l => !s.unsharing q.part q.handle l

/-- The first refusal of an edit that its operands decide. -/
def State.editRefusal (s : State) (q : Seq) (e : Edit) (p n : Nat) : Option Nat :=
  if n = 0 || (if e = .ins then q.len < p else q.len < p + n) then some 2
  else if e = .ins && 2 ^ 24 < q.len + n then some 3
  else if e = .ins && ((q.slabs.any fun x => 2 ^ x.log2cap < q.hw + n) || 2 ^ 28 < q.hw + n) then some 4
  else if q.slabs.any fun x => x.lends != 0 then some 5
  else if s.relocRoom (seqDie q.handle) < (s.toUnshare q).length then some 6
  else none

/-- Sets slots by number. -/
def setSlots (l : List Slot) (f : Nat → Slot → Slot) : List Slot :=
  (List.range l.length).map fun k => f k ((l[k]? : Option Slot).getD ⟨0, false, 0⟩)

/-- POS of live slots follows the order table from position `p` on. -/
def Seq.repos (q : Seq) (p : Nat) : Seq :=
  { q with slots := ((List.range q.len).filter fun k => p ≤ k).foldl (fun l k =>
      let slot := q.order.getD k 0
      l.set slot { (l[slot]? : Option Slot).getD ⟨0, false, 0⟩ with pos := k }) q.slots }

/-- The sequence after an edit, before its map (R338). -/
def Seq.edited (q : Seq) (e : Edit) (p n : Nat) (tokens : List (BitVec 32)) : Seq :=
  match e with
  | .rep =>
    { q with slots := (List.range n).foldl (fun l j =>
        let slot := q.order.getD (p + j) 0
        l.set slot { (l[slot]? : Option Slot).getD ⟨0, false, 0⟩ with token := tokens.getD j 0 }) q.slots }
  | .ins =>
    let fresh := (List.range n).map fun j => q.hw + j
    ({ q with
      order := q.order.take p ++ fresh ++ q.order.drop p
      slots := q.slots ++ (List.range n).map fun j => (⟨tokens.getD j 0, true, p + j⟩ : Slot)
      len := q.len + n
      hw := q.hw + n } : Seq).repos p
  | .del =>
    let gone := (q.order.drop p).take n
    ({ q with
      order := q.order.take p ++ q.order.drop (p + n)
      slots := gone.foldl (fun l k => l.set k { (l[k]? : Option Slot).getD ⟨0, false, 0⟩ with live := false }) q.slots
      len := q.len - n
      tombs := q.tombs + n } : Seq).repos p

/-- The entries an edit marks, on the sequence after it (R338); `old` is the number of blocks before it. -/
def Seq.editMarks (q : Seq) (e : Edit) (p n old : Nat) : List (Nat × Nat) :=
  let b := q.blockOf p
  let after := ((List.range q.blocks).filter fun k => b ≤ k).map fun k => (0, k)
  match e with
  | .rep => ((List.range q.blocks).filter fun k => b ≤ k && k ≤ q.blockOf (p + n - 1)).map fun k => (0, k)
  | .ins =>
    after ++ (((List.range q.blocks).filter fun k =>
      (b ≤ k && k ≤ q.blockOf (p + n - 1)) || old ≤ k).flatMap q.column)
  | .del => after

/-- The slots an edit writes. -/
def editSlots (q q' : Seq) (e : Edit) (p n : Nat) : List Nat :=
  match e with
  | .rep => (q.order.drop p).take n
  | .ins => q'.order.drop p
  | .del => q.order.drop p

/-- The positions whose order entries an edit writes. -/
def editOrders (q' : Seq) (e : Edit) (p : Nat) : List Nat :=
  match e with
  | .rep => []
  | _ => (List.range q'.len).filter fun k => p ≤ k

/-- The words that an edit touches, which do not depend on its tokens. -/
def Seq.editRanges (q : Seq) (e : Edit) (p n : Nat) : List (Nat × Nat) :=
  let q1 := q.edited e p n []
  let dropped := (q.map.filter fun x => q1.blocks ≤ x.blk).map fun x => (x.layer, x.blk)
  (editSlots q q1 e p n).map (fun k => (q1.slotAddr k, 8)) ++ (editOrders q1 e p).map (fun k => (q1.orderAddr k, 4))
  ++ (q1.editMarks e p n q.blocks ++ dropped).map fun x => (q1.mapAddr x.1 x.2, 8)

/-- Are all the words that an edit touches mapped? -/
def State.editMapped (s : State) (q' : Seq) (slots orders : List Nat) (ents : List (Nat × Nat)) : Bool :=
  (slots.all fun k => s.mapped q'.part .write (q'.slotAddr k) 8)
  && (orders.all fun k => s.mapped q'.part .write (q'.orderAddr k) 4)
  && (ents.all fun e => s.mapped q'.part .write (q'.mapAddr e.1 e.2) 8)

/-- An edit served by the sequencer. -/
def State.edit (s : State) (rd : Reg) (e : Edit) (q : Seq) (p n tva : Nat) : State :=
  match s.editRefusal q e p n with
  | some c => s.refuse rd c
  | none =>
    let size := if e = .del then 0 else 4 * n
    s.seeing q.part ((tva, size) :: q.editRanges e p n) fun s =>
      let q1 := q.edited e p n (tokensOf (s.readPart q.part tva size) n)
      let ents := q1.editMarks e p n q.blocks
      let dropped := (q.map.filter fun x => q1.blocks ≤ x.blk).map fun x => (x.layer, x.blk)
      let slots := editSlots q q1 e p n
      let orders := editOrders q1 e p
      if !s.mapped q.part .read tva size || !s.editMapped q1 slots orders (ents ++ dropped) then s.refuse rd 10
      else
        let q2 : Seq := { q1.trimBlocks with edit := q.edit + 1 }
        let q3 : Seq :=
          { q2 with map := (q2.map.map fun x => if x.quars < 3 then { x with quars := 0 } else x).filter fun x =>
              x.st.isSome || x.repair || x.out || x.quars != 0 }
        let s1 := s.putSeq q (q3.marks ents)
        let s2 := slots.foldl (fun s k => s.writeSlot q1 k) s1
        let s3 := orders.foldl (fun s k => s.writeOrder q1 k) s2
        let s4 := (s.toUnshare q).foldl (fun s l => s.queueReloc q.part q.handle l none) s3
        s4.replies rd (q2.edit.setWidth 64)

/-- An edit instruction. -/
def State.editOp (s : State) (e : Edit) (rd ra rb : Reg) (tva : Word) : State :=
  s.requestSeq rd (handleOf (s.rd ra)) fun _ q =>
    s.edit rd e q (editPos (s.rd rb)) (editCount (s.rd rb)) tva.toNat

/-- CXINS (spec/17 R338): Inserts tokens into a sequence and marks the affected entries. -/
def execCxins (rd ra rb rc : Reg) (s : State) : Res := .next (s.editOp .ins rd ra rb (s.rd rc))

/-- CXREP (spec/17 R338): Replaces tokens of a sequence and marks the affected entries. -/
def execCxrep (rd ra rb rc : Reg) (s : State) : Res := .next (s.editOp .rep rd ra rb (s.rd rc))

/-- CXDEL (spec/17 R338): Deletes tokens of a sequence and marks the affected entries. -/
def execCxdel (rd ra rb : Reg) (s : State) : Res := .next (s.editOp .del rd ra rb 0)

/-! ### CXCOMMIT (R339) -/

/-- A commit releases the quarantines that its entry keeps up (R349). -/
def State.unquarantine (s : State) (part h layer blk : Nat) : State :=
  { s with kvpages := (s.kvpages.map fun p =>
      if p.part = part then { p with quar := p.quar.filter (· != (h, layer, blk)) } else p) }

/-- The deltas that the part takes: those of an append or a repair are +∞, whatever the kernel passes (R331). -/
def deltaOf (kind : Nat) (d : BitVec 32) : BitVec 32 := if kind = 2 || kind = 3 then 0x7F800000 else d

/-- The end of a task served. -/
def State.commitTask (s : State) (rd : Reg) (q : Seq) (w : Word) (dout dkv : BitVec 32) : State :=
  let layer := (w.extractLsb' 20 8).toNat
  let blk := (w.extractLsb' 28 20).toNat
  let kind := (w.extractLsb' 56 8).toNat
  let e := q.ent layer blk
  if !e.out then (s.wr rd 2).retire
  else if e.st != some .f then (s.putSeq q (q.setEnt { e with out := false })).replies rd 1
  else
    let q1 := q.commit layer blk (exceeds (deltaOf kind dout) q.hdr.tau) (exceeds (deltaOf kind dkv) q.hdr.tau)
    ((s.putSeq q q1).unquarantine q.part q.handle layer blk).replies rd 0

/-- CXCOMMIT (spec/17 R339): Reports the end of a thaw task and applies the commit rule. -/
def execCxcommit (rd ra rb rc : Reg) (s : State) : Res :=
  let w := s.rd ra
  .next (s.request17 rd fun p =>
    match s.seqOf p.id (handleOf w) with
    | none => (s.wr rd 2).retire
    | some q => s.commitTask rd q w ((s.rd rb).extractLsb' 0 32) ((s.rd rc).extractLsb' 0 32))

/-! ### CXSETTLE and CXWAITB (R340) -/

/-- A wait of R340 ends: the value, the acquire. -/
def State.grant (s : State) (rd : Reg) (v : Word) : State := ((s.wr rd v).acquire s.ctx.core).retire

/-- The open sequence of a handle that a request without release names. -/
def State.seqHere (s : State) (h : Nat) : Option Seq := s.seqPart.bind fun p => s.seqOf p.id h

/-- CXSETTLE (spec/17 R340): Waits until the sequence map is entirely V, then acquires. -/
def execCxsettle (rd ra : Reg) (s : State) : Res :=
  let h := handleOf (s.rd ra)
  .next (match s.stage with
    | some (.granted v) => s.grant rd v
    | _ =>
      match s.seqHere h with
      | none => s.refuse rd 1
      | some q => if q.allV then s.grant rd (q.edit.setWidth 64) else s.stall (.settle h))

/-- CXWAITB (spec/17 R340): Waits until one map entry is V, then acquires. -/
def execCxwaitb (rd ra rb rc : Reg) (s : State) : Res :=
  let h := handleOf (s.rd ra)
  let layer := ((s.rd rb).extractLsb' 0 8).toNat
  let blk := ((s.rd rc).extractLsb' 0 20).toNat
  .next (match s.stage with
    | some (.granted v) => s.grant rd v
    | _ =>
      match s.seqHere h with
      | none => s.refuse rd 1
      | some q =>
        if q.hdr.layers ≤ layer || 2 ^ (24 - q.hdr.bs) ≤ blk then s.refuse rd 2
        else if (q.ent layer blk).st.isNone then s.grant rd 0
        else s.stall (.block h layer blk))

/-! ### CXSTATE (R341) -/

/-- CXSTATE (spec/17 R341): Reads the sequence state, or clears its TAPPED and FAULTED conditions. -/
def execCxstate (rd ra : Reg) (pick : BitVec 2) (s : State) : Res :=
  let h := handleOf (s.rd ra)
  .next (match s.stage with
    | some (.reply v) => s.replies rd v
    | _ =>
    if pick = 2 && s.level = .u then s.privTrap
    else
      match s.seqHere h with
      | none => s.refuse rd 1
      | some q =>
        if pick = 0 then
          (s.wr rd (packWord [(q.settled.toNat, 48), (q.edit.toNat, 32), (leNat (q.recBytes.take 4), 0)])).retire
        else if pick = 1 then
          let open' := (q.map.filter fun e => e.st = some .d || e.st = some .q).length
          (s.wr rd (packWord [(q.outstanding, 32), (open', 0)])).retire
        else if q.halted then s.refuse rd 8
        else (s.putSeq q { q with tapped := false, faulted := false }).replies rd 0)

/-! ### CXLEN (R342) -/

/-- The first refusal of CXLEN that its operands decide.
(log 54: DEDUCED) -/
def Seq.lenRefusal (q : Seq) (k : Nat) : Option Nat :=
  if q.faulted then some 9
  else if q.tapped then some 8
  else if !q.allV then some 7
  else if k = 0 || 64 < k then some 2
  else if 2 ^ 24 < q.len + k then some 3
  else if q.slabs.any fun x => 2 ^ x.log2cap < q.hw + k then some 4
  else none

/-- The entries of blocks that come to hold a position; `old` blocks held one before. -/
def Seq.newEnts (q : Seq) (old : Nat) : List (Nat × Nat) :=
  ((List.range q.blocks).filter fun b => old ≤ b).flatMap fun b => q.column b

/-- Of them, those that are D: the map word there is not zero beside the entries of blocks that held a position (R329). -/
def State.freshEnts (s : State) (q : Seq) (old : Nat) : List (Nat × Nat) :=
  (q.newEnts old).filter fun e =>
    let held := if e.2 / 32 = old / 32 then old % 32 else 0
    leNat (s.readPart q.part (q.mapAddr e.1 e.2) 8) / 4 ^ held != 0

/-- The memory that CXLEN reads and writes: tokens, entries of the new positions, map words of blocks that first hold one. -/
def Seq.lenRanges (q : Seq) (k tva : Nat) : List (Nat × Nat) :=
  [(tva, 4 * k), (q.orderAddr q.len, 4 * k), (q.slotAddr q.hw, 8 * k)]
  ++ (({ q with len := q.len + k } : Seq).newEnts q.blocks).map fun e => (q.mapAddr e.1 e.2, 8)

/-- CXLEN served. -/
def State.lengthen (s : State) (rd : Reg) (q : Seq) (k tva : Nat) : State :=
  if !s.mapped q.part .read tva (4 * k) || !s.mapped q.part .write (q.orderAddr q.len) (4 * k)
      || !s.mapped q.part .write (q.slotAddr q.hw) (8 * k) then s.refuse rd 10
  else
    let tokens := tokensOf (s.readPart q.part tva (4 * k)) k
    let q1 : Seq :=
      { q with
        order := q.order ++ (List.range k).map fun j => q.hw + j
        slots := q.slots ++ (List.range k).map fun j => (⟨tokens.getD j 0, true, q.len + j⟩ : Slot)
        len := q.len + k
        hw := q.hw + k
        shw := q.hw + k
        ctr := q.ctr + BitVec.ofNat 64 k }
    let s1 := s.putSeq q (q1.marks (s.freshEnts q1 q.blocks))
    let s2 := (List.range k).foldl (fun s j => (s.writeSlot q1 (q.hw + j)).writeOrder q1 (q.len + j)) s1
    s2.replies rd (BitVec.ofNat 64 q1.len)

/-- CXLEN (spec/17 R342): Commits appended tentative positions to the sequence. -/
def execCxlen (rd ra rb rc : Reg) (s : State) : Res :=
  let h := handleOf (s.rd ra)
  let k := (s.rd rb).toNat
  let appends := (s.kvCmds s.ctx.core h).any fun c => match c.instr with | .kvapp _ _ _ _ => true | _ => false
  .next (match s.stage with
    | some (.reply v) => s.replies rd v
    | _ =>
    if appends then s.stall .room
    else s.requestSeq rd h fun _ q =>
      match q.lenRefusal k with
      | some c => s.refuse rd c
      | none =>
        let tva := (s.rd rc).toNat
        s.seeing q.part (q.lenRanges k tva) fun s => s.lengthen rd q k tva)

/-! ### The generator (spec/18 R368) -/

/-- One round of Philox-4x32. -/
def philoxRound (c : Nat × Nat × Nat × Nat) (k0 k1 : Nat) : Nat × Nat × Nat × Nat :=
  let p := 0xD2511F53 * c.1
  let q := 0xCD9E8D57 * c.2.2.1
  (q / 2 ^ 32 ^^^ c.2.1 ^^^ k0, q % 2 ^ 32, p / 2 ^ 32 ^^^ c.2.2.2 ^^^ k1, p % 2 ^ 32)

/-- Rounds with the key stepping between them. -/
def philox : Nat → Nat × Nat × Nat × Nat → Nat → Nat → Nat × Nat × Nat × Nat
  | 0, c, _, _ => c
  | n + 1, c, k0, k1 => philox n (philoxRound c k0 k1) ((k0 + 0x9E3779B9) % 2 ^ 32) ((k1 + 0xBB67AE85) % 2 ^ 32)

/-- RNG (R368): a key, a counter, a half. -/
def rng (key ctr : Word) (half : Bool) : Word :=
  let r := philox 10 (ctr.toNat % 2 ^ 32, ctr.toNat / 2 ^ 32, 0, 0) (key.toNat % 2 ^ 32) (key.toNat / 2 ^ 32)
  if half then packWord [(r.2.2.2, 32), (r.2.2.1, 0)] else packWord [(r.2.1, 32), (r.1, 0)]

/-! ### CXFORK (R344) -/

/-- Bytes of a penalty table (spec/18 R371). -/
def penaltySize (vs : Nat) : Nat := 64 + 4 * vs

/-- The child a parent and a template describe. -/
def childOf (q : Seq) (h : Nat) (t : List Byte) (bases : List Word) (rekey : Bool) : Seq :=
  let c := seqOfTemplate q.part q.base h t
  { q with
    handle := h
    hdr := { q.hdr with
      child := true, map := c.hdr.map, order := c.hdr.order, slabs := c.hdr.slabs, penalty := c.hdr.penalty,
      steer := c.hdr.steer, fault := c.hdr.fault, domain := c.hdr.domain, parent := BitVec.ofNat 32 q.handle }
    edit := 0
    settled := 0
    shw := q.hw
    key := if rekey then rng q.key (packWord [(0xFFFFFFFF, 32), (h, 0)]) false else q.key
    tapped := false
    halted := false
    faulted := false
    slabs := (List.range q.hdr.layers).map fun l =>
      let x := q.slab l
      { x with
        base := bases.getD l 0, oldbase := 0, shbase := x.base, wmark := 0, shcount := q.hw, moving := false,
        shared := true, lends := 0 }
    map := []
    inject := [] }

/-- The memory of CXFORK: the child's record and template and the size of the penalty table, then what the template names. -/
def forkRanges (p : Partition) (q : Seq) (h t : Nat) : List (Nat × Nat) :=
  [(p.record h, 256), (t, 96), (q.hdr.penalty.toNat + 12, 4)]
def State.childRanges (s : State) (p : Partition) (q : Seq) (h t : Nat) : List (Nat × Nat) :=
  match s.partRead p.id t 96, s.partNat p.id (q.hdr.penalty.toNat + 12) 4 with
  | some bs, some vs =>
    let child := childOf q h bs [] false
    [child.tableRange, (q.hdr.penalty.toNat, penaltySize vs), (child.hdr.penalty.toNat, penaltySize vs)] ++ child.arrays
  | _, _ => []

/-- What CXFORK decides. -/
def State.forkSeq (s : State) (p : Partition) (q : Seq) (h t : Nat) (rekey : Bool) : Opening :=
  if s.recordTaken p h then .error 13
  else if !q.allV then .error 7
  else if q.slabs.any Slab.moving then .error 14
  else
    match s.partRead p.id t 96 with
    | none => .error 10
    | some bs =>
      let c := hdrOf bs
      if let some a := s.templatePsn p.id t then .poison a
      else if badPtr c.map.toNat || badPtr c.order.toNat || badPtr c.slabs.toNat || badPtr c.penalty.toNat then .error 11
      else if !s.mapped p.id .write c.slabs.toNat (64 * q.hdr.layers) then .error 10
      else
        let bases := (List.range q.hdr.layers).map fun l =>
          BitVec.ofNat 64 (bytesField (s.readPart p.id (c.slabs.toNat + 64 * l) 64) 0 8)
        if bases.any fun b => b.toNat = 0 || b.toNat % 0x10000 != 0 then .error 11
        else
          let child := childOf q h bs bases rekey
          match s.partNat p.id (q.hdr.penalty.toNat + 12) 4 with
          | none => .error 10
          | some vs =>
            if !s.mapped p.id .write (p.record h) 256 || !s.mapped p.id .write c.order.toNat (4 * q.len)
                || !s.mapped p.id .write (child.slotAddr 0) (8 * q.hw) || !s.mapMapped child
                || !s.mapped p.id .read q.hdr.penalty.toNat (penaltySize vs)
                || !s.mapped p.id .write c.penalty.toNat (penaltySize vs) then .error 10
            else .ok child

/-- A fork's copies. -/
def State.forkCopies (s : State) (p : Partition) (q c : Seq) : State :=
  let s1 := s.through p.id c.hdr.order.toNat (c.order.flatMap (leBytes 4))
  let s2 := s1.through p.id (c.slotAddr 0) (c.slots.flatMap Slot.bytes)
  let s3 := (List.range c.hdr.layers).foldl (fun s l =>
    (s.through p.id (c.mapAddr l 0) (List.replicate (8 * ((c.blocks + 31) / 32)) 0)).through p.id
      (c.hdr.slabs.toNat + 64 * l) (c.slab l).bytes) s2
  let vs := (s3.partNat p.id (q.hdr.penalty.toNat + 12) 4).getD 0
  let s4 := (s3.moveBytes p.id q.hdr.penalty.toNat c.hdr.penalty.toNat (penaltySize vs)).1
  (List.range q.hdr.layers).foldl (fun s l => s.onSlab p.id q.handle l fun x => { x with lends := x.lends + 1 }) s4

/-- CXFORK (spec/17 R344): Creates a child sequence that shares the parent's slabs. -/
def execCxfork (rd ra rb rc : Reg) (rekey : Bool) (s : State) : Res :=
  .next (s.requestSeq rd (handleOf (s.rd ra)) fun p q =>
    let h := handleOf (s.rd rb)
    let t := (s.rd rc).toNat
    s.seeing p.id (forkRanges p q h t) fun s => s.seeing p.id (s.childRanges p q h t) fun s =>
      match s.forkSeq p q h t rekey with
      | .error c => s.refuse rd c
      | .poison a => s.trap .poison (BitVec.ofNat 64 a)
      | .ok c => ((s.forkCopies p q c).install17 p c).replies rd 0)

end Sys2Proof.Machine
end

