-- ==== Sys2Proof/Machine/ControlFlow.lean ====
section
/-!
DEFINITION. Transfers of control, window moves and hardware loops (spec/04 R113-R120).
-/
set_option linter.constructorNameAsVariable false

namespace Sys2Proof.Machine

/-! ### Transfers (R113) -/

/-- P + 2 · sext(off). -/
def State.relTarget {n : Nat} (s : State) (off : BitVec n) : Word := s.ctx.p + off.signExtend 64 <<< 1

/-- A branch on a register: taken or not. -/
def State.branch (s : State) (taken : Bool) (t : Word) : State := if taken then s.jump t else s.retire

/-- A transfer to a computed address: an odd one traps FETCH_FAULT and nothing changes. -/
def State.jumpTo (s : State) (t : Word) (link : Bool) : State :=
  if t.getLsbD 0 then s.trap .fetchFault t
  else (if link then s.wr 15 (s.ctx.p + 4) else s).jump t

/-- BZ (spec/04 R113): Branches when a register is zero. -/
def execBz (ra : Reg) (off : BitVec 15) (s : State) : Res := .next (s.branch (s.rd ra == 0) (s.relTarget off))

/-- BNZ (spec/04 R113): Branches when a register is non-zero. -/
def execBnz (ra : Reg) (off : BitVec 15) (s : State) : Res := .next (s.branch (s.rd ra != 0) (s.relTarget off))

/-- J (spec/04 R113): Jumps to a PC-relative target. -/
def execJ (off : BitVec 20) (s : State) : Res := .next (s.jump (s.relTarget off))

/-- JR (spec/04 R113): Jumps to a register plus an immediate. -/
def execJr (ra : Reg) (imm : BitVec 10) (s : State) : Res := .next (s.jumpTo (s.rd ra + imm64 imm) false)

/-- CALL (spec/04 R113): Calls a PC-relative target and writes the return address to o7. -/
def execCall (off : BitVec 20) (s : State) : Res := .next (s.jumpTo (s.relTarget off) true)

/-- CALLR (spec/04 R113): Calls a register target and writes the return address to o7. -/
def execCallr (ra : Reg) (imm : BitVec 10) (s : State) : Res := .next (s.jumpTo (s.rd ra + imm64 imm) true)

/-- RET (spec/04 R113): Returns to the address in o7. -/
def execRet (s : State) : Res := .next (s.jumpTo (s.rd 15) false)

/-- C_BZ (spec/03 R94): Compact branch if zero. -/
def execCBz (ra : Reg) (off : BitVec 5) (s : State) : Res := .next (s.branch (s.rd ra == 0) (s.relTarget off))

/-- C_BNZ (spec/03 R94): Compact branch if non-zero. -/
def execCBnz (ra : Reg) (off : BitVec 5) (s : State) : Res := .next (s.branch (s.rd ra != 0) (s.relTarget off))

/-- C_J (spec/03 R94): Compact jump. -/
def execCJ (off : BitVec 10) (s : State) : Res := .next (s.jump (s.relTarget off))

/-- C_RET (spec/03 R94): Compact return. -/
def execCRet (s : State) : Res := .next (s.jumpTo (s.rd 15) false)

/-! ### Windows (R116, R117; spec/03 R76) -/

/-- Eight free doublewords, from index `k` on. -/
def State.freeRegs (s : State) (k : Nat) : Vector Word 8 :=
  #v[s.free k, s.free (k + 1), s.free (k + 2), s.free (k + 3), s.free (k + 4), s.free (k + 5), s.free (k + 6),
    s.free (k + 7)]

/-- What SAVE does to the registers (spec/03 R76): the caller's o registers become the callee's i registers, its l and
o registers hold no defined values. -/
def Regs.save (r : Regs) (l o : Vector Word 8) : Regs :=
  let w := r.cwp + 1
  let i := if r.cwp = r.top then r.outs else (get8 r.wins w).i
  { r with wins := set8 r.wins w ⟨l, i⟩, outs := o, top := w, cwp := w, wres := r.wres + 1 }

/-- What RESTORE does to the registers: the callee's i registers become the caller's o registers; the window that is
left holds no defined values. -/
def Regs.restore (r : Regs) (l i : Vector Word 8) : Regs :=
  { r with
    wins := set8 r.wins r.cwp ⟨l, i⟩, outs := (get8 r.wins r.cwp).i, top := r.cwp - 1, cwp := r.cwp - 1,
    wres := r.wres - 1 }

/-- A window move: it waits for every result on its way to a windowed register (R116), then traps or moves. -/
def State.moveWindow (s : State) (limit : BitVec 4) (c : Cause) (tval : BitVec 3) (f : Regs → Regs) (rd ra : Reg)
    (imm : BitVec 10) : State :=
  if s.cur.windowedPending then s.stall .windows
  else if s.cur.regs.wres = limit then s.trap c (tval.setWidth 64)
  else
    let v := s.rd ra + imm64 imm
    ((s.onCur fun t => { t with regs := f t.regs }).wr rd v).retire

/-- SAVE (spec/04 R116): Waits for windowed results, then opens a new register window or traps SPILL. -/
def execSave (rd ra : Reg) (imm : BitVec 10) (s : State) : Res :=
  .next (s.moveWindow 8 .spill (s.cur.regs.cwp + 1) (fun r => r.save (s.freeRegs 0) (s.freeRegs 8)) rd ra imm)

/-- RESTORE (spec/04 R117): Waits for windowed results, then returns to the caller's window or traps FILL. -/
def execRestore (rd ra : Reg) (imm : BitVec 10) (s : State) : Res :=
  .next (s.moveWindow 1 .fill (s.cur.regs.cwp - 1) (fun r => r.restore (s.freeRegs 0) (s.freeRegs 8)) rd ra imm)

/-! ### Hardware loops (R118-R120) -/

/-- Sets up loop set `k`. -/
def Loops.setUp (l : Loops) (k : Bool) (ls le : Word) (lc : BitVec 32) (on : Bool) : Loops :=
  if k then { l with ls1 := ls, le1 := le, lc1 := lc, la := (l.la &&& 1) ||| (if on then 2 else 0) }
  else { l with ls0 := ls, le0 := le, lc0 := lc, la := (l.la &&& 2) ||| (if on then 1 else 0) }

/-- Changes the loop registers. -/
def State.onLoops (s : State) (f : Loops → Loops) : State := s.onCur fun t => { t with loops := f t.loops }

/-- The length of the instruction at `a`, with its prefix, read as a capture reads it. Poison in the parcels traps only where an
instruction issues from them (spec/10 R195, R197): the length is taken from their bytes (log 112: DESIGN CHOICE). -/
def State.lengthAt (s : State) (a : Word) : State × Except (Option Word) Nat :=
  match s.peekParcel s.ctx.core s.ctx.thr s.level a with
  | (s, .wait) => (s, .error none)
  | (s, .fault) => (s, .error (some a))
  | (s, .ok bs) =>
    match bs with
    | lo :: _ =>
      if isDep lo.1 then
        match s.peekParcel s.ctx.core s.ctx.thr s.level (a + 2) with
        | (s, .wait) => (s, .error none)
        | (s, .fault) => (s, .error (some (a + 2)))
        | (s, .ok bs2) =>
          match bs2 with
          | x :: _ => (s, .ok (2 + parcelLen x.1))
          | [] => (s, .error (some (a + 2)))
      else (s, .ok (parcelLen lo.1))
    | [] => (s, .error (some a))

/-- LOOP and LOOPI with a count (R118). With count zero the body is not executed and the fetch buffer is discarded. TPC of a
fault on the way is the instruction's address, that of a DEP before it (R83, R167), where R118 says P: its words differ only
for a LOOP behind a DEP, and the model takes R83's address (log 90: DESIGN CHOICE). -/
def State.startLoop (s : State) (k : Bool) (n : BitVec 32) (span : BitVec 16) : State :=
  let ls := s.ctx.p + 8
  let le := s.ctx.p + BitVec.ofNat 64 (2 * span.toNat)
  if n = 0 then
    match s.lengthAt le with
    | (s, .error none) => s.stall .fetch
    | (s, .error (some a)) => s.trap .fetchFault a
    | (s, .ok len) =>
      ((s.onLoops fun l => l.setUp k ls le 0 false).retireTo (le + BitVec.ofNat 64 len)).onCur Thread.discard
  else (s.onLoops fun l => l.setUp k ls le n true).retireTo (s.ctx.p + 8)

/-- LOOP (spec/04 R118): Sets up a hardware loop with its count taken from a register. -/
def execLoop (k : Bool) (ra : Reg) (span : BitVec 16) (s : State) : Res :=
  .next (s.startLoop k ((s.rd ra).setWidth 32) span)

/-- LOOPI (spec/04 R118): Sets up a hardware loop with an immediate count. -/
def execLoopi (k : Bool) (count span : BitVec 16) (s : State) : Res :=
  .next (s.startLoop k (count.setWidth 32) span)

/-- LOOPX (spec/04 R120): Clears the active bit of one or both loop sets. -/
def execLoopx (which : BitVec 2) (s : State) : Res :=
  .next ((s.onLoops fun l =>
    { l with la := l.la &&& (if which = 0 then 2 else if which = 1 then 1 else 0) }).retire)

end Sys2Proof.Machine
end

