-- ==== Sys2Proof/Machine/Kv.lean ====
section
/-!
DEFINITION. Keys and values: KVADDR, KVLD, KVAPP, SLABGROW, LAH, their runs in the copy queue, quarantine, spilling to
the glacier tier (spec/17 R327, R328, R343, R346-R352).
-/
set_option linter.constructorNameAsVariable false

namespace Sys2Proof.Machine

/-! ### K/V pages (R351) -/

/-- The page list with one entry changed, made when it was not there. -/
def State.onKvPage (s : State) (part va : Nat) (f : KvPage → KvPage) : State :=
  let page := va / 0x10000
  if s.kvpages.any fun p => p.part = part && p.va = page then
    { s with kvpages := s.kvpages.map fun p => if p.part = part ∧ p.va = page then f p else p }
  else
    match s.partTranslate true part .read va with
    | .ok pa _ => { s with kvpages := s.kvpages ++ [f ⟨part, page, pa / 0x10000, false, false, false, []⟩] }
    | _ => s

/-- What is kept about a page. -/
def State.kvPage (s : State) (part va : Nat) : Option KvPage :=
  s.kvpages.find? fun p => p.part = part && p.va = va / 0x10000

/-- Sets the reference bits of the pages of a range. -/
def State.refer (s : State) (part va len : Nat) : State :=
  (List.range ((va + len - 1) / 0x10000 - va / 0x10000 + 1)).foldl (fun s k =>
    s.onKvPage part ((va / 0x10000 + k) * 0x10000) fun p => { p with refd := true }) s

/-- Is a page quarantined (R349)? -/
def State.quarantined (s : State) (part va : Nat) : Bool :=
  match s.kvPage part va with
  | some p => !p.quar.isEmpty
  | none => false

/-- The pages of a range, by the first address of each piece. -/
def piecesOf (va len : Nat) : List Nat :=
  if len = 0 then []
  else va :: ((List.range ((va + len - 1) / 0x10000 - va / 0x10000)).map fun k => (va / 0x10000 + k + 1) * 0x10000)

/-- Spilled pages among addresses of a partition, physical. -/
def State.spilledAmong (s : State) (part : Nat) (vas : List Nat) : List Nat :=
  vas.filterMap fun va => ((s.kvPage part va).filter KvPage.spilled).map KvPage.pa

/-- Translates each page of some ranges exactly, for a thread (R343.3, R348.3): a trap, a wait, or all done. -/
def State.kvCheck (s : State) (n : Nat) (level : Level) (acc : Acc) : List Nat → State × Checked
  | [] => (s, .ok [])
  | va :: rest =>
    if va < globalBase || globalTop ≤ va then (s, .trap acc.cause (BitVec.ofNat 64 va))
    else
      match s.translateRaw n level acc va with
      | (s, .fault) => (s, .trap acc.cause (BitVec.ofNat 64 va))
      | (s, .wait) => (s, .wait)
      | (s, .ok _ _) => s.kvCheck n level acc rest

/-! ### Descriptors and slots (R334, R347) -/

/-- Fields of a descriptor. -/
def descLayer (d : Word) : Nat := (d.extractLsb' 0 8).toNat
def descV (d : Word) : Bool := d.getLsbD 8
def descBySlot (d : Word) : Bool := d.getLsbD 9
def descW (d : Word) : Bool := d.getLsbD 10
def descHead (d : Word) : Nat := (d.extractLsb' 16 8).toNat

/-- Are bits set that the descriptor does not have? W is KVADDR's alone. -/
def descBad (d : Word) (addr : Bool) : Bool := d &&& ~~~(if addr then 0xFF07FF#64 else 0xFF03FF#64) != 0

/-- The slot and the rotation position of row `j` from a first position or slot (R347, R348). -/
def Seq.rowOf (q : Seq) (d x : Word) (j : Nat) : Option (Nat × Nat) :=
  if descBySlot d then
    let k := (x.extractLsb' 0 28).toNat + j
    if k < 2 ^ (q.slab (descLayer d)).log2cap then
      some (k, if k < q.hw then (q.slot k).pos else q.len + (k - q.hw))
    else none
  else
    let pos := (x.extractLsb' 0 24).toNat + j
    (q.slotAt pos).map fun k => (k, pos)

/-- Offset of a head's row within a slot's base (R347). -/
def Slab.rowOff (x : Slab) (slot : Nat) (d : Word) : Nat :=
  slot * x.stride + (if descV d then 2 * x.heads * x.hdim else 0) + 2 * x.hdim * descHead d

/-- A CONTEXT trap. -/
def State.contextTrap (s : State) (code h : Nat) : State := s.trap .context (contextTval code h)

/-- The operand checks that KVADDR and KVLD share: code 1, 11 or 2, or the sequence. R334 does not rank them
(log 120: DESIGN CHOICE). -/
def State.kvOperands (s : State) (h : Nat) (d : Word) (addr : Bool) : Except Nat Seq :=
  match s.seqHere h with
  | none => .error 1
  | some q =>
    if descBad d addr then .error 11
    else if q.hdr.layers ≤ descLayer d || (q.slab (descLayer d)).heads ≤ descHead d then .error 2
    else .ok q

/-! ### KVADDR (R347) -/

/-- The asynchronous result of KVADDR, known or to come. -/
def State.kvResult (s : State) (rd : Reg) (bytes : List ByteSrc) : State × Nat :=
  let (id, s) := s.fresh
  (((s.addPend ⟨id, .kvaddr, s.destOf rd, .zx, bytes, 0, false, 0, s.level, false⟩).track id), id)

/-- KVADDR of a slot. -/
def State.kvAddress (s : State) (rd : Reg) (q : Seq) (d : Word) (slot : Nat) : State :=
  let layer := descLayer d
  let x := q.slab layer
  let off := x.rowOff slot d
  let wait := descW d && ((x.moving && x.wmark ≤ slot) || (x.shared && slot < x.shcount))
  let unshare := descW d && x.shared && !s.unsharing q.part q.handle layer
  let room := 0 < s.relocRoom (seqDie q.handle)
  let s1 := s.refer q.part (x.baseOf slot + off) 1
  if wait || (unshare && !room) then
    let (s2, id) := s1.kvResult rd (List.replicate 8 (.miss 0))
    let s3 : State := { s2 with kvwaits := s2.kvwaits ++ [⟨s.ctx.core, s.ctx.thr.toNat, id, q.part, q.handle, layer, off⟩] }
    (if unshare && room then s3.queueReloc q.part q.handle layer none else s3).retire
  else
    let (s2, _) := s1.kvResult rd ((leBytes 8 (x.baseOf slot + off)).map .have)
    (if unshare then s2.queueReloc q.part q.handle layer none else s2).retire

/-- KVADDR (spec/17 R347): Resolves a slot and returns a K or V byte address. -/
def execKvaddr (rd ra rb rc : Reg) (s : State) : Res :=
  let h := handleOf (s.rd ra)
  let d := s.rd rc
  .next (match s.kvOperands h d true with
    | .error c => s.contextTrap c h
    | .ok q =>
      match q.rowOf d (s.rd rb) 0 with
      | none => s.contextTrap 2 h
      | some p => s.kvAddress rd q d p.1)

/-! ### KVLD (R348) -/

/-- The addresses that a KVLD reads: its rows, and the frequencies for rotated keys. -/
def Seq.kvldRanges (q : Seq) (d : Word) (rows : List (Nat × Nat)) : List (Nat × Nat) :=
  let x := q.slab (descLayer d)
  (rows.map fun p => (x.baseOf p.1 + x.rowOff p.1 d, 2 * x.hdim))
  ++ (if !descV d && 0 < x.rotd then [(x.freq.toNat, 2 * x.rotd)] else [])

/-- KVLD once the sequencer has served it: its rows stay those, whatever it then waits for (R348). Only after its checks and
the wait for spilled pages does it wait for a slot (spec/11 R218). -/
def State.kvldIssue (s : State) (i : Instr) (rd ra rb rc : Reg) (q : Seq) (rows : List (Nat × Nat)) : State :=
  let n := s.ctx.core
  let d := s.rd rc
  let x := q.slab (descLayer d)
  match s.localBad n (s.rd rd).toNat (rows.length * 2 * x.hdim) with
  | some a => s.trap .engine (engTval .cp 2 a)
  | none =>
    let ranges := q.kvldRanges d rows
    let pages := ranges.flatMap fun r => piecesOf r.1 r.2
    match s.kvCheck n s.level .read pages with
    | (s, .trap c v) => s.trap c v
    | (s, .wait) => s.stall (.kvRows q.handle rows false)
    | (s, .ok _) =>
      let out := s.spilledAmong q.part pages
      if !out.isEmpty then (out.foldl (fun s pa => s.fetchPage (pa * 0x10000)) s).stall (.spilled q.handle out rows)
      else if 2 ≤ (s.queue n .cp).length then s.stall (.kvRows q.handle rows true)
      else
        let s1 := ranges.foldl (fun s r => s.refer q.part r.1 r.2) s
        s1.enter .cp { s.cmd i (s.rd rd) (s.rd ra) (s.rd rb) (s.rd rc) 0 .rne with rows := rows }

/-- The rows of a KVLD that the sequencer has served already, with its sequence. -/
def State.kvKept (s : State) (h : Nat) : Option (Seq × List (Nat × Nat)) :=
  match s.stage with
  | some (.kvRows _ l _) | some (.spilled _ _ l) => (s.seqKept (s.corePartId s.ctx.core) h).map fun q => (q, l)
  | _ => none

/-- KVLD (spec/17 R348): Queues a load of K or V rows into local memory, with rotation. -/
def execKvld (rd ra rb rc : Reg) (rows : BitVec 16) (s : State) : Res :=
  let h := handleOf (s.rd ra)
  let d := s.rd rc
  let issue (q : Seq) (l : List (Nat × Nat)) : State := s.kvldIssue (.kvld rd ra rb rc rows) rd ra rb rc q l
  .next (match s.kvKept h with
    | some (q, l) => issue q l
    | none =>
      match s.kvOperands h d false with
      | .error c => s.contextTrap c h
      | .ok q =>
        let l := (List.range rows.toNat).map fun j => q.rowOf d (s.rd rb) j
        if rows = 0 || 256 < rows.toNat || l.any Option.isNone then s.contextTrap 2 h
        else issue q (l.filterMap id))

/-! ### KVAPP (R343) -/

/-- Bytes of a slot's keys and values (R326). -/
def Slab.slotBytes (x : Slab) : Nat := 4 * x.heads * x.hdim

/-- The first operand error of KVAPP. -/
def Seq.appBad (q : Seq) (layer : Nat) (x : Word) : Option Nat :=
  if q.hdr.layers ≤ layer || x.extractLsb' 6 58 != 0 then some 2
  else if 2 ^ 24 - 1 < q.len + x.toNat then some 3
  else if 2 ^ (q.slab layer).log2cap ≤ q.hw + x.toNat then some 4
  else none

/-- The base that a KVAPP writes a slot at: as R327 chooses it, but while the slab grows a slot beyond its old capacity, which
the relocation does not copy, is written at the new base, where it is to end (R343; log 97: DEDUCED). -/
def State.appendBase (s : State) (q : Seq) (layer slot : Nat) : Nat :=
  let x := q.slab layer
  let grown := s.relocs.any fun r =>
    r.part = q.part && r.handle = q.handle && r.layer = layer && r.begun && r.grow.isSome && 2 ^ r.oldcap ≤ slot
  if grown then x.base.toNat else x.baseOf slot

/-- KVAPP (spec/17 R343): Queues a write of tentative K and V into a slot. -/
def execKvapp (rd ra rb rc : Reg) (s : State) : Res :=
  let h := handleOf (s.rd ra)
  let layer := ((s.rd rc).extractLsb' 0 8).toNat
  .next (if 2 ≤ (s.queue s.ctx.core .cp).length then s.stall .queue
    else
      match s.seqHere h with
      | none => s.contextTrap 1 h
      | some q =>
        match q.appBad layer (s.rd rb) with
        | some c => s.contextTrap c h
        | none =>
          let x := q.slab layer
          let slot := q.hw + (s.rd rb).toNat
          match s.localBad s.ctx.core (s.rd rd).toNat x.slotBytes with
          | some a => s.trap .engine (engTval .cp 2 a)
          | none =>
            let dst0 := s.appendBase q layer slot + slot * x.stride
            match s.kvCheck s.ctx.core s.level .write (piecesOf dst0 x.slotBytes) with
            | (s, .trap c v) => s.trap c v
            | (s, .wait) => s.stall .translate
            | (s, .ok _) =>
              (s.refer q.part dst0 x.slotBytes).enter .cp
                { s.cmd (.kvapp rd ra rb rc) (s.rd rd) (s.rd ra) (s.rd rb) (s.rd rc) 0 .rne with
                  rows := [(slot, q.len + (s.rd rb).toNat)] })

/-! ### Runs of KVLD and KVAPP in the copy queue -/

/-- The format of keys and values (R326). -/
def kvFmt (bf : Bool) : FFmt := if bf then fmtBF16 else fmtF16

/-- Rounds to a key format; beyond the largest finite value it stays there (R328). -/
def kvRound (f : FFmt) (d : Dy) (zs : Bool) : Nat :=
  let r := (roundDy f .rne d zs).1
  if r % f.signBit = f.inf then r - 1 else r

/-- a · b + c · d with one rounding; both products are finite (R328). -/
def twoProducts (f : FFmt) (a b c d : FVal) : Nat :=
  let p := a.dy.mul b.dy
  let q := c.dy.mul d.dy
  kvRound f (p.add q) (if p.n = 0 && q.n = 0 then (a.sign != b.sign) && (c.sign != d.sign) else false)

/-- The negative of a value. -/
def negVal : FVal → FVal
  | .fin s m e => .fin (!s) m e
  | .inf s => .inf (!s)
  | .nan s x => .nan s x

/-- One rotated pair (R328): position, frequency, elements. -/
def rotatePair (f : FFmt) (pos : Nat) (freq : Nat) (x y : Nat) : Nat × Nat :=
  let fr := unpack fmtF32 freq
  if fr.isNaN || fr.isInf then (f.dnan, f.dnan)
  else
    let d := (⟨pos, 0⟩ : Dy).mul fr.dy
    let zero := d.n = 0
    let c := unpack fmtF32 (trigDy true d)
    let sn := if zero then .fin fr.sign 0 0 else unpack fmtF32 (trigDy false d)
    (twoProducts f (unpack f x) c (negVal (unpack f y)) sn, twoProducts f (unpack f x) sn (unpack f y) c)

/-- The 2-byte elements of a row. -/
def elems16 (bs : List Byte) : List Nat := (List.range (bs.length / 2)).map fun k => bytesField bs (2 * k) 2

/-- A row of keys rotated (R328). -/
def rotateRow (f : FFmt) (pos rotd : Nat) (freqs : List Nat) (bs : List Byte) : List Byte :=
  let e := elems16 bs
  let pairs := (List.range (rotd / 2)).flatMap fun i =>
    let r := rotatePair f pos (freqs.getD i 0) (e.getD (2 * i) 0) (e.getD (2 * i + 1) 0)
    [r.1, r.2]
  (pairs ++ e.drop rotd).flatMap (leBytes 2)

/-- Does a row hold a NaN or an infinity (R349)? -/
def badElems (f : FFmt) (bs : List Byte) : Bool :=
  (elems16 bs).any fun x => (unpack f x).isNaN || (unpack f x).isInf

/-- A read at home: its bytes with their poison, a fault's address, a wait, or bytes of the fabric window that have first to be
read. -/
inductive Got where
  | ok (bytes : List (Byte × Bool))
  | fail (a : Nat)
  | wait
  | away (pas : List Nat)
  deriving DecidableEq, Repr

/-- Reads a global range at home; `got` are the bytes of the fabric window that remote reads have given (spec/22 R409). -/
def State.engineRead (s : State) (n : Nat) (level : Level) (va len : Nat) (got : Nat → Option (Byte × Bool)) : State × Got :=
  let (s, ps, w) := s.endpoint n level .read (BitVec.ofNat 64 va) len
  if w then (s, .wait)
  else
    match firstGap ps with
    | some k => (s, .fail (va + k))
    | none =>
      let l := ps.filterMap id
      let missing := (fabrics l).filter fun pa => (got pa).isNone
      if !missing.isEmpty then (s, .away missing)
      else if s.homeFreeAll (homesOf l) then
        (s, .ok (l.map fun p => match p with | .fab pa => (got pa).getD (0, false) | _ => s.engineByte n 0 p))
      else (s.snoopAll (homesOf l), .wait)

/-- A byte of the fabric window that a command has read. -/
def State.gotByte (s : State) (n id : Nat) (pa : Nat) : Option (Byte × Bool) :=
  ((s.gotOf n id).find? fun x => x.1 = pa).map Prod.snd

/-- The entries whose live slots have bytes in a page, of every sequence of a partition: handle, layer, block (R349). -/
def State.pageEnts (s : State) (part page : Nat) : List (Nat × Nat × Nat) :=
  (s.seqs.filter fun q => q.part = part).flatMap fun q =>
    (List.range q.hdr.layers).flatMap fun l =>
      let x := q.slab l
      ((((List.range q.slots.length).filter fun k =>
        let a := x.baseOf k + k * x.stride
        (q.slot k).live && a / 0x10000 ≤ page && page ≤ (a + x.slotBytes - 1) / 0x10000).map fun k =>
          (q.handle, l, q.blockOf (q.slot k).pos)).foldl (fun acc e => if acc.contains e then acc else acc ++ [e]) [])

/-- One entry is quarantined (R332, R349): the third time in an edit generation its sequence faults, with a record of
kind 2. -/
def State.quarantineEnt (s : State) (part : Nat) (record : Nat → List Byte) (e : Nat × Nat × Nat) : State :=
  match s.seqKept part e.1 with
  | none => s
  | some q =>
    let x := q.ent e.2.1 e.2.2
    let q1 := q.setEnt { x with st := some .q, repair := true, quars := x.quars + 1 }
    if x.quars + 1 = 3 then ((s.putSeq q { q1 with faulted := true }).seqRecord part e.1 (record 2) none)
    else s.putSeq q q1

/-- A page with a bad row is quarantined (R349). -/
def State.quarantinePage (s : State) (part page : Nat) (record : Nat → List Byte) (h : Nat) : State :=
  if s.quarantined part (page * 0x10000) then s
  else
    let ents := s.pageEnts part page
    let s1 := s.onKvPage part (page * 0x10000) fun p => { p with quar := ents }
    let s2 := ents.foldl (fun s e => s.quarantineEnt part record e) s1
    s2.seqRecord part h (record 1) none

/-- The record of a bad row (R350). -/
def rowRecord (h layer head pos slot edit sstep page kind : Nat) : List Byte :=
  recordOf [(0, 1, kind), (4, 4, h), (8, 1, layer), (10, 2, head), (12, 4, pos), (16, 4, slot), (20, 2, edit),
    (24, 8, sstep), (32, 8, page * 0x10000)]

/-- One row of a KVLD, read, examined, rotated and written (R348, R349). -/
def State.kvldRow (s : State) (n : Nat) (c : Cmd) (q : Seq) (freqs : List Nat) (fpsn : Bool) (j : Nat) (row : Nat × Nat) :
    State × Got × Bool :=
  let d := c.c
  let layer := descLayer d
  let x := q.slab layer
  let va := x.baseOf row.1 + x.rowOff row.1 d
  let len := 2 * x.hdim
  match s.engineRead n c.level va len (s.gotByte n c.id) with
  | (s, .ok bs) =>
    let f := kvFmt x.kfmt
    let raw := bs.map Prod.fst
    let pages := (List.range ((va + len - 1) / 0x10000 - va / 0x10000 + 1)).map fun k => va / 0x10000 + k
    let bad := badElems f raw || pages.any fun p => s.quarantined q.part (p * 0x10000)
    let psn := bs.any Prod.snd || fpsn
    let out := if bad then List.replicate len 0 else if descV d || x.rotd = 0 then raw else rotateRow f row.2 x.rotd freqs raw
    let dst0 := c.d.toNat + len * j
    let s1 := s.engineWrite n 0 ((List.range len).map fun k => .own (dst0 + k)) (out.map fun b => (b, psn && !bad))
    let record (page kind : Nat) : List Byte :=
      rowRecord q.handle layer (descHead d) row.2 row.1 q.edit.toNat (s.core n).regs.sstep.toNat page kind
    let s2 := if bad then pages.foldl (fun s p => s.quarantinePage q.part p (record p) q.handle) s1 else s1
    (s2, .ok [], bad)
  | (s, r) => (s, r, false)

/-- The rows of a KVLD in order. -/
def State.kvldRows (s : State) (n : Nat) (c : Cmd) (part h : Nat) (freqs : List Nat) (fpsn : Bool) :
    Nat → List (Nat × Nat) → State × Moved × Bool
  | _, [] => (s, .done, false)
  | j, row :: rest =>
    match s.seqKept part h with
    | none => (s, .done, false)
    | some q =>
      match s.kvldRow n c q freqs fpsn j row with
      | (s, .fail a, bad) => (s, .fail 1 a, bad)
      | (s, .wait, bad) => (s, .wait, bad)
      | (s, .away pas, bad) => (s, .away pas, bad)
      | (s, .ok _, bad) =>
        let r := s.kvldRows n c part h freqs fpsn (j + 1) rest
        (r.1, r.2.1, bad || r.2.2)

/-- The run of a KVLD: how it ended, and whether a row was bad. -/
def State.runKvld (s : State) (n : Nat) (c : Cmd) : State × Moved × Bool :=
  let part := s.corePartId n
  match s.seqKept part (handleOf c.a) with
  | none => (s, .done, false)
  | some q =>
    let x := q.slab (descLayer c.c)
    if descV c.c || x.rotd = 0 then s.kvldRows n c part q.handle [] false 0 c.rows
    else
      match s.engineRead n c.level x.freq.toNat (2 * x.rotd) (s.gotByte n c.id) with
      | (s, .fail a) => (s, .fail 1 a, false)
      | (s, .wait) => (s, .wait, false)
      | (s, .away pas) => (s, .away pas, false)
      | (s, .ok bs) =>
        let freqs := (List.range (x.rotd / 2)).map fun i => bytesField (bs.map Prod.fst) (4 * i) 4
        s.kvldRows n c part q.handle freqs (bs.any Prod.snd) 0 c.rows

/-- The run of a KVAPP. -/
def State.runKvapp (s : State) (n : Nat) (c : Cmd) : State × Moved :=
  match s.seqKept (s.corePartId n) (handleOf c.a), c.rows with
  | some q, (slot, _) :: _ =>
    let layer := (c.c.extractLsb' 0 8).toNat
    let x := q.slab layer
    s.move n c (BitVec.ofNat 64 (s.appendBase q layer slot + slot * x.stride)) c.d x.slotBytes
  | _, _ => (s, .done)

/-! ### SLABGROW (R346) -/

/-- The first refusal of SLABGROW; a growth already queued counts as MOVING (log 29: DEDUCED). -/
def State.growRefusal (s : State) (q : Seq) (layer : Nat) (b : Word) : Option Nat :=
  let x := q.slab layer
  if q.hdr.layers ≤ layer then some 2
  else if x.lends != 0 then some 5
  else if x.moving || (s.relocs.any fun r => r.part = q.part && r.handle = q.handle && r.layer = layer && r.grow.isSome) then
    some 14
  else if x.log2cap = 28 then some 4
  else if b.toNat % 0x10000 != 0 then some 11
  else if !s.mapped q.part .write b.toNat (2 ^ (x.log2cap + 1) * x.stride) then some 10
  else if s.relocRoom (seqDie q.handle) = 0 then some 6
  else none

/-- SLABGROW (spec/17 R346): Doubles a layer's slab into a new base by relocation. -/
def execSlabgrow (rd ra rb rc : Reg) (s : State) : Res :=
  .next (s.requestSeq rd (handleOf (s.rd ra)) fun _ q =>
    let layer := ((s.rd rc).extractLsb' 0 8).toNat
    let b := (s.rd rb).toNat
    match s.walks q.part .write (piecesOf b (2 ^ ((q.slab layer).log2cap + 1) * (q.slab layer).stride)) with
    | (s, false) => s.stall .release
    | (s, true) =>
      match s.growRefusal q layer (s.rd rb) with
      | some c => s.refuse rd c
      | none => (s.queueReloc q.part q.handle layer (some (s.rd rb))).replies rd 0)

/-! ### LAH (R352) -/

/-- The spilled pages that a list entry names, physical; none for one that does nothing. -/
def State.lahPages (s : State) (part : Nat) (e : List Byte) : List Nat :=
  let w := bytesField e 0 4
  match s.seqOf part (w % 2 ^ 20) with
  | none => []
  | some q =>
    let layer := w / 2 ^ 20 % 256
    if q.hdr.layers ≤ layer then []
    else
      let x := q.slab layer
      let slots := (List.range (bytesField e 8 4)).map fun k => bytesField e 4 4 + k
      (s.spilledAmong part (slots.flatMap fun k => piecesOf (x.baseOf k + k * x.stride) x.slotBytes)).foldl
        (fun l p => insertNat p l) []

/-- Entries accepted in order until the lookahead queue is full: the state and how many. -/
def State.lahAccept (s : State) (part : Nat) : List (List Byte) → Nat → State × Nat
  | [], k => (s, k)
  | e :: rest, k =>
    if 256 ≤ s.lookahead.length then (s, k)
    else
      let pages := s.lahPages part e
      if pages.isEmpty then s.lahAccept part rest (k + 1)
      else
        let s1 : State :=
          { s with
            lookahead := s.lookahead ++ [pages]
            kvpages := s.kvpages.map fun p =>
              if p.spilled && pages.contains p.pa then { p with fetch := true, refd := true } else p }
        s1.lahAccept part rest (k + 1)

/-- LAH (spec/17 R352): Queues lookahead fetches of spilled K/V pages. Its CONTEXT trap names no handle: the field is 0
(log 81: DESIGN CHOICE). -/
def execLah (rd ra rb : Reg) (s : State) : Res :=
  let count := (s.rd rb).toNat
  .next (if !s.released s.ctx.core s.ctx.thr then s.stall .release
    else
      match s.seqPart with
      | none => s.contextTrap 1 0
      | some p =>
        if count = 0 || 32 < count then s.contextTrap 2 0
        else
          match s.seeList (s.rd ra) 16 count with
          | (s, .trap c v) => s.trap c v
          | (s, .wait) => s.stall .translate
          | (s, .ok bs) =>
            let (s1, k) := s.lahAccept p.id ((List.range count).map fun i => (bs.drop (16 * i)).take 16) 0
            (s1.wr rd (BitVec.ofNat 64 k)).retire)

/-! ### Spilling (R351) -/

/-- The pages of a byte range. -/
def pagesOf (va len : Nat) : List Nat :=
  if len = 0 then [] else (List.range ((va + len - 1) / 0x10000 - va / 0x10000 + 1)).map fun k => va / 0x10000 + k

/-- Bytes of a slab. -/
def Slab.size (x : Slab) : Nat := 2 ^ x.log2cap * x.stride

/-- The pages of a layer's slab, with those of the slab that a growth vacates. -/
def Slab.pages (x : Slab) : List Nat :=
  pagesOf x.base.toNat x.size ++ (if x.moving && x.oldbase != x.base then pagesOf x.oldbase.toNat (x.size / 2) else [])

/-- The K/V pages of a partition, in rising order.
(log 21: DESIGN CHOICE) -/
def State.kvPagesOf (s : State) (part : Nat) : List Nat :=
  ((s.seqs.filter fun q => q.part = part).flatMap fun q => q.slabs.flatMap fun x => x.pages).foldl
    (fun l p => insertNat p l) []

/-- Pages that the hand skips: quarantined, in an active relocation, with a KVAPP outstanding. -/
def State.handSkips (s : State) (part page : Nat) : Bool :=
  s.quarantined part (page * 0x10000)
  || (s.seqs.any fun q => q.part = part && q.slabs.any fun x => x.moving
      && ((pagesOf x.base.toNat x.size).contains page || (pagesOf x.oldbase.toNat x.size).contains page
        || (x.shared && (pagesOf x.shbase.toNat x.size).contains page)))
  || s.cores.any fun c => s.corePartId c.1 = part && c.2.eng.cp.any fun k =>
      match k.instr with
      | .kvapp _ _ _ _ =>
        (match s.seqKept part (handleOf k.a), k.rows with
          | some q, (slot, _) :: _ =>
            let layer := (k.c.extractLsb' 0 8).toNat
            let x := q.slab layer
            (pagesOf (s.appendBase q layer slot + slot * x.stride) x.slotBytes).contains page
          | _, _ => false)
      | _ => false

/-- Resident K/V pages beyond the threshold? -/
def State.overFull (s : State) (p : Partition) : Bool :=
  let pages := s.kvPagesOf p.id
  p.kvmax < (pages.filter fun v => !((s.kvPage p.id (v * 0x10000)).any KvPage.spilled)).length

/-- One place of the clock hand. -/
def State.sweep (s : State) (p : Partition) : State :=
  let pages := s.kvPagesOf p.id
  match (pages.find? fun v => p.hand ≤ v).orElse fun _ => pages.head? with
  | none => s
  | some page =>
    let va := page * 0x10000
    let s1 := s.onPart p.id fun x => { x with hand := page + 1 }
    let out := (s1.kvPage p.id va).any KvPage.spilled
    if out || s1.handSkips p.id page then s1
    else if (s1.kvPage p.id va).any KvPage.refd then s1.onKvPage p.id va fun x => { x with refd := false }
    else s1.onKvPage p.id va fun x => { x with spilled := true, fetch := false }

/-- KV_PAGE_SPILL (spec/17 R351): The clock hand sweeps K/V pages and writes cold ones to the glacier tier. -/
def execKvPageSpill (part : Nat) (s : State) : Res :=
  .next (match s.partOf part with
    | some p => if s.overFull p then s.sweep p else s
    | none => s)

/-- KV_PAGE_RESIDENT (spec/17 R351): A spilled K/V page becomes resident again. -/
def execKvPageResident (page : Nat) (s : State) : Res :=
  .next (if s.kvpages.any fun p => p.pa = page && p.spilled && p.fetch then
      { s with
        kvpages := s.kvpages.map fun p => if p.pa = page then { p with spilled := false, fetch := false } else p
        lookahead := (s.lookahead.map fun l => l.filter (· != page)).filter fun l => !l.isEmpty }
    else s)

end Sys2Proof.Machine
end

