-- ==== Sys2Proof/Machine/Sampling.lean ====
section
/-!
DEFINITION. The sampling instructions RNG, GUMB, PENAL and TOURN (spec/18 R368-R373).
-/
set_option linter.constructorNameAsVariable false

namespace Sys2Proof.Machine

/-- RNG (spec/18 R368): Returns two words of Philox-4x32-10. -/
def execRng (rd ra rb : Reg) (half : Bool) (s : State) : Res :=
  .next (s.doneLate rd (rng (s.rd ra) (s.rd rb) half, 0))

/-- The counter of lane `k` (R370). -/
def laneCounter (ctr : Word) (k : Nat) : Word := ctr.extractLsb' 32 32 ++ (ctr.extractLsb' 0 32 + BitVec.ofNat 32 k)

/-- GUMB (spec/18 R370): Adds Gumbel noise to four f32 logits. -/
def execGumb (vd va : VReg) (ra rb : Reg) (s : State) : Res :=
  let noisy := mapFlags (fun k =>
    gumbLane ((rng (s.rd ra) (laneCounter (s.rd rb) k) false).toNat % 2 ^ 32) (lane (s.rv va) 32 k)) [0, 1, 2, 3]
  .next (s.doneV vd (ofLanes 32 noisy.1, noisy.2))

/-! ### PENAL (R371, R372) -/

/-- The address of the count of lane `k`.
(log 60: DEDUCED) -/
def countAddr (table index : Word) (k : Nat) : Word :=
  table + 64 + 4 * ((index + BitVec.ofNat 64 k).extractLsb' 0 32).setWidth 64

/-- The places of the four count words, or the first trap. -/
def State.checkCounts (s : State) (table index : Word) : List Nat → State × Checked
  | [] => (s, .ok [])
  | k :: rest =>
    match s.checkCur .read (countAddr table index k) 4 with
    | (s, .ok ps) =>
      match s.checkCounts table index rest with
      | (s, .ok qs) => (s, .ok (ps ++ qs))
      | r => r
    | r => r

/-- PENAL once its header is there: the counts of lanes inside the vocabulary are read, the result lands later. They count as
one load, whose address is that of the first of them (log 96: DESIGN CHOICE). -/
def State.penalize (s : State) (vd : VReg) (table index : Word) (header : List Byte) (counts : List Place) : State :=
  if penaltyBad header then s.trap .context (contextTval 11 0)
  else if !s.roomFor s.ctx.core counts then s.stall .room
  else
    let vs := leNat ((header.drop 12).take 4)
    let inside (k : Nat) : Bool := (index.toNat + k) % 2 ^ 32 < vs
    let read := (List.range 4).flatMap fun k => if inside k then (counts.drop (4 * k)).take 4 else []
    let (id, s) := s.fresh
    let (s, got, psn) := s.gather s.ctx.core s.ctx.thr id read
    let word (k : Nat) : List ByteSrc :=
      if inside k then
        (got.drop (4 * ((List.range k).filter inside).length)).take 4
      else List.replicate 4 (.have 0)
    let known := (header.take 16 ++ vbytes (s.rv vd) ++ lowBytes index 4).map ByteSrc.have
    let first := countAddr table index (((List.range 4).filter inside).headD 0)
    let a : Async := ⟨id, .penal, [.v vd], .vec, known ++ (List.range 4).flatMap word, 0, psn, first, s.level, false⟩
    ((s.addPend a).track id).retire

/-- PENAL (spec/18 R372): Applies a penalty table to four f32 logits. -/
def execPenal (vd : VReg) (ra rb : Reg) (s : State) : Res :=
  let table := s.rd ra
  .next (match s.stage with
    | some (.remote id) => s.stall (.remote id)
    | w =>
      match s.checkCur .read table 64 with
      | (s, .trap c v) => s.trap c v
      | (s, .wait) => s.stall .translate
      | (s, .ok ps) =>
        match s.checkCounts table (s.rd rb) [0, 1, 2, 3] with
        | (s, .trap c v) => s.trap c v
        | (s, .wait) => s.stall .translate
        | (s, .ok counts) =>
          match w with
          | some (.got header) => s.penalize vd table (s.rd rb) header counts
          | _ =>
            if !s.roomFor s.ctx.core ps then s.stall .room
            else
              let (id, s) := s.fresh
              let (s, bytes, psn) := s.gather s.ctx.core s.ctx.thr id ps
              let r : Async := ⟨id, .load, [], .zx, bytes, 0, psn, table, s.level, true⟩
              if r.ready then
                (if psn then s.trap .poison table else s.penalize vd table (s.rd rb) r.data counts)
              else (s.addPend r).stall (.remote id))

/-! ### TOURN (R373) -/

/-- `better` of R373 over pairs of value and index.
(log 61: DEDUCED) -/
def better (a b : Nat × Nat) : Bool :=
  if a.2 = 0xFFFFFFFF then false
  else if b.2 = 0xFFFFFFFF then true
  else
    let x := unpack fmtF32 a.1
    let y := unpack fmtF32 b.1
    match x.isNaN, y.isNaN with
    | true, true => a.2 < b.2
    | true, false => false
    | false, true => true
    | false, false =>
      match fOrd x y with
      | .gt => true
      | .eq => a.2 < b.2
      | .lt => false

/-- The winner of a round. -/
def winner (ps : List (Nat × Nat)) : Nat × Nat :=
  ps.foldl (fun w p => if better p w then p else w) (withSign fmtF32 true fmtF32.inf, 0xFFFFFFFF)

/-- The offset of an 8-byte access that must lie in the own local window (R373). -/
def State.tournAt (s : State) (acc : Acc) (a : Word) : State × Except (Cause × Word) Nat :=
  match zoneOf a.toNat with
  | .peer _ _ | .global => (s, .error (.loadFault, a))
  | _ =>
    match s.checkCur acc a 8 with
    | (s, .trap c v) => (s, .error (c, v))
    | (s, .ok (.own off :: _)) => (s, .ok off)
    | (s, _) => (s, .error (.loadFault, a))

/-- The pairs of a round, in order; the first trap. -/
def State.tournPairs (s : State) (a : Word) : List Nat → State × Except (Cause × Word) (List (Nat × Nat))
  | [] => (s, .ok [])
  | j :: rest =>
    let at' := a + BitVec.ofNat 64 (8 * j)
    match s.tournAt .read at' with
    | (s, .error e) => (s, .error e)
    | (s, .ok off) =>
      if s.lpoison s.ctx.core off 8 then (s, .error (.poison, at'))
      else
        match s.tournPairs a rest with
        | (s, .ok l) =>
          (s, .ok ((leNat (s.lmem s.ctx.core off 4), leNat (s.lmem s.ctx.core (off + 4) 4)) :: l))
        | r => r

/-- TOURN (spec/18 R373): Plays one round of the sampling tournament over candidate pairs. -/
def execTourn (rd ra rb : Reg) (s : State) : Res :=
  let n := min (s.rd rb).toNat 8
  .next (match s.tournPairs (s.rd ra) (List.range n) with
    | (s, .error (c, v)) => s.trap c v
    | (s, .ok ps) =>
      match s.tournAt .write (s.rd rd) with
      | (s, .error (c, v)) => s.trap c v
      | (s, .ok off) =>
        let w := winner ps
        (s.lwrite s.ctx.core off (leBytes 4 w.1 ++ leBytes 4 w.2) false).retire)

end Sys2Proof.Machine
end

