-- ==== Sys2Proof/Machine/Taps.lean ====
section
/-!
DEFINITION. Tap points: the probe store, TAPLD, TAP and its run, the evaluation of keys at a barrier (spec/18
R354-R366).
-/
set_option linter.constructorNameAsVariable false

namespace Sys2Proof.Machine

/-! ### Probe tables (R354, R355) -/

/-- 4 KiB units of an image. -/
def storeUnits (size : Nat) : Nat := (size + 4095) / 4096

/-- Units of the store of a partition. -/
def storeSize : Nat := 4096

/-- Bytes of one probe vector. -/
def vectorBytes (fl7 : Bool) (dm : Nat) : Nat := if fl7 then 18 * dm / 16 else 2 * dm

/-- A value is finite. -/
def finite32 (x : Nat) : Bool := !(unpack fmtF32 x).isNaN && !(unpack fmtF32 x).isInf

/-- The size of an image by its first bytes; none when DM or P breaks R355. -/
def imageSize (h : List Byte) : Option Nat :=
  let dm := bytesField h 0 2
  let p := bytesField h 2 1
  if dm < 16 || 16384 < dm || dm % 16 != 0 || p = 0 || 16 < p then none
  else some (272 + p * vectorBytes (bytesField h 3 1 % 2 = 1) dm)

/-- Does probe entry `k` break R355, with `p` probes? -/
def probeBad (h : List Byte) (p k : Nat) : Bool :=
  let e := (h.drop (16 + 16 * k)).take 16
  if p ≤ k then e.any (· != 0)
  else
    !finite32 (bytesField e 0 4) || !finite32 (bytesField e 4 4) || 1 < bytesField e 8 1 || 2 < bytesField e 9 1
    || (e.drop 10).any (· != 0)

/-- Does an image of a known size break R355? -/
def imageBad (h : List Byte) : Bool :=
  let eps := bytesField h 4 4
  3 < bytesField h 3 1 || !finite32 eps || (fOrd (unpack fmtF32 eps) (unpack fmtF32 0) == .lt)
  || bytesField h 8 8 != 0 || (List.range 16).any (probeBad h (bytesField h 2 1))

/-- The elements of a probe vector as FP32. -/
def probeVector (fl7 : Bool) (dm : Nat) (bs : List Byte) : List (BitVec 32) :=
  if fl7 then
    (List.range (dm / 16)).flatMap fun c =>
      (floeDecode .fl7 fmtF32 .rne ((bs.drop (18 * c)).take 18)).map fun x => BitVec.ofNat 32 x.1
  else (List.range dm).map fun i => BitVec.ofNat 32 (fConv fmtF16 fmtF32 .rne (bytesField bs (2 * i) 2)).1

/-- The tap point that an image describes. -/
def pointOf (t : Nat) (h : List Byte) : TapPoint :=
  let dm := bytesField h 0 2
  let fl7 := bytesField h 3 1 % 2 = 1
  let vb := vectorBytes fl7 dm
  { t := t
    dm := dm
    post := bytesField h 3 1 / 2 % 2 = 1
    eps := BitVec.ofNat 32 (bytesField h 4 4)
    probes := (List.range (bytesField h 2 1)).map fun k =>
      let e := (h.drop (16 + 16 * k)).take 16
      { bias := BitVec.ofNat 32 (bytesField e 0 4)
        theta := BitVec.ofNat 32 (bytesField e 4 4)
        below := bytesField e 8 1 = 1
        act := bytesField e 9 1
        w := probeVector fl7 dm ((h.drop (272 + k * vb)).take vb) }
    count := List.replicate 16 0
    units := storeUnits h.length
    digest := sha512 h }

/-- An installed tap point. -/
def Partition.point (p : Partition) (t : Nat) : Option TapPoint := p.points.find? fun x => x.t = t

/-- Without a tap point. -/
def Partition.without (p : Partition) (t : Nat) : Partition := { p with points := p.points.filter fun x => x.t != t }

/-! ### TAPLD (R356) -/

/-- Is a key of a tap point open in the partition (R360), be it in a domain whose context is saved? -/
def State.keyOpen (s : State) (part t : Nat) : Bool :=
  let keyed (c : Core) : Bool := c.sup.keys.any fun k => k.2.2 = t
  (s.cores.any fun c => keyed c.2 && s.corePartId c.1 = part)
  || s.launches.any fun l => l.part = part && l.saved.any fun c => keyed c.2

/-- Reads global memory at home for the executing thread: the bytes, the first byte that faults, or a wait, in which what lies
in the fabric window is asked for (spec/22 R409). -/
def State.readAtHome (s : State) (n : Nat) (level : Level) (a : Word) (len : Nat) : State × Got :=
  match zoneOf a.toNat with
  | .global =>
    let here := min len (globalTop - a.toNat)
    match s.engineRead n level a.toNat here s.windowByte with
    | (s, .ok bs) => if here < len then (s, .fail globalTop) else (s, .ok bs)
    | (s, .away pas) => (s.askWindow pas, .wait)
    | r => r
  | _ => (s, .fail a.toNat)

/-- The bytes of an image, when they are all there and not poisoned; else what the thread does.
(log 62: DEDUCED) -/
def State.imageRead (s : State) (a : Word) (len : Nat) (k : State → List Byte → State) : State :=
  match s.readAtHome s.ctx.core s.level a len with
  | (s, .fail x) => s.trap .loadFault (BitVec.ofNat 64 x)
  | (s, .wait) | (s, .away _) => s.stall .translate
  | (s, .ok bs) =>
    match (List.range len).find? fun i => (bs.getD i (0, false)).2 with
    | some i => s.trap .poison (a + BitVec.ofNat 64 i)
    | none => k s (bs.map Prod.fst)

/-- Installs an image. -/
def State.installPoint (s : State) (rd : Reg) (part t : Nat) (image : List Byte) : State :=
  let x := pointOf t image
  ((s.onPart part fun p => { p.without t with points := (p.without t).points ++ [x], meas := measure p.meas x.digest }).wr rd
    0).retire

/-- TAPLD op 0. -/
def State.loadPoint (s : State) (rd : Reg) (a : Word) (p : Partition) (t : Nat) : State :=
  s.imageRead a 272 fun s head =>
    match imageSize head with
    | none => (s.wr rd 2).retire
    | some size =>
      s.imageRead a size fun s image =>
        if imageBad image then (s.wr rd 2).retire
        else if storeSize < storeUnits size + ((p.without t).points.map TapPoint.units).sum then (s.wr rd 3).retire
        else s.installPoint rd p.id t image

/-- TAPLD ops 2 and 3: the counters go to memory; op 3 clears them. -/
def State.readPoint (s : State) (rd : Reg) (a : Word) (p : Partition) (t : Nat) (clear : Bool) : State :=
  let counts := ((p.point t).map TapPoint.count).getD (List.replicate 16 0)
  match s.checkCur .write a 64 with
  | (s, .trap c v) => s.trap c v
  | (s, .wait) => s.stall .translate
  | (s, .ok ps) =>
    if !s.roomFor s.ctx.core ps then s.stall .room
    else
      let s1 := (s.storePlaces s.ctx.core s.ctx.thr ps (counts.flatMap fun c => leBytes 4 c.toNat)).1
      let s2 :=
        if clear then
          s1.onPart p.id fun p => { p with points := p.points.map fun x =>
            if x.t = t then { x with count := List.replicate 16 0 } else x }
        else s1
      (s2.wr rd 0).retire

/-- TAPLD (spec/18 R356): Loads, unloads or reads the counters of a tap point. -/
def execTapld (rd ra rb : Reg) (op : BitVec 2) (s : State) : Res :=
  let t := (s.rd rb).toNat
  .next (if s.level = .u then s.privTrap
    else
      match s.corePart s.ctx.core with
      | none => (s.wr rd 2).retire
      | some p =>
        if 31 < t then (s.wr rd 2).retire
        else if op.toNat < 2 && s.keyOpen p.id t then (s.wr rd 1).retire
        else if op = 0 then s.loadPoint rd (s.rd ra) p t
        else if op = 1 then ((s.onPart p.id fun p => p.without t).wr rd 0).retire
        else s.readPoint rd (s.rd ra) p t (op = 3))

/-! ### TAP (R358-R360) -/

/-- The position of a key. -/
def tapPos (x : Word) : Nat := (x.extractLsb' 0 24).toNat

/-- The chunk index. -/
def tapChunk (x : Word) : Nat := (x.extractLsb' 0 16).toNat

/-- The tap point of a core's partition. -/
def State.tapPoint (s : State) (n t : Nat) : Option TapPoint := (s.corePart n).bind fun p => p.point t

/-- Keys that one core may open in a superstep (R360). -/
def keyLimit : Nat := 16

/-- Opens a key, if it is new. -/
def State.openKey (s : State) (n : Nat) (key : Nat × Nat × Nat) : State :=
  if (s.core n).sup.keys.contains key then s
  else s.onCore n fun c => { c with sup := { c.sup with keys := c.sup.keys ++ [key] } }

/-- TAP (spec/18 R358): Queues a probe contribution and steering for one residual chunk. -/
def execTap (rd ra rb rc : Reg) (t : BitVec 5) (s : State) : Res :=
  let n := s.ctx.core
  let a := (s.rd rd).toNat
  let h := handleOf (s.rd ra)
  let key := (h, tapPos (s.rd rb), t.toNat)
  let far : Bool := match s.tapPoint n t.toNat with | some x => decide (x.dm / 16 ≤ tapChunk (s.rd rc)) | none => false
  .next (if 2 ≤ (s.queue n .vs).length then s.stall .queue
    else if a % 16 != 0 || s.localEnd n < a + 64 then s.trap .engine (engTval .vs 2 a)
    else if far then s.contextTrap 2 h
    else if !(s.curCore.sup.keys.contains key) && keyLimit ≤ s.curCore.sup.keys.length then s.contextTrap 15 h
    else (s.openKey n key).enter .vs (s.cmd (.tap rd ra rb rc t) (s.rd rd) (s.rd ra) (s.rd rb) (s.rd rc) 0 .rne))

/-- The contribution of a chunk (R359). -/
def tapPart (x : TapPoint) (h pos chunk : Nat) (elems : List Nat) (psn : Bool) : TapPart :=
  let dot (w : List Nat) : BitVec 32 := BitVec.ofNat 32 (dotFloat fmtF32 .rne fmtF32.signBit (elems.zip w)).1
  { handle := h
    pos := pos
    point := x.t
    chunk := chunk
    d := x.probes.map fun p => dot (((p.w.drop (16 * chunk)).take 16).map BitVec.toNat)
    s2 := dot elems
    psn := psn }

/-- A chunk steered: x + α · V, rounded once. -/
def steered (alpha : Nat) (v : List Byte) (elems : List Nat) : List Byte :=
  ((List.range 16).map fun i =>
    (fFma fmtF32 .rne alpha (fConv fmtF16 fmtF32 .rne (bytesField v (2 * i) 2)).1 (elems.getD i 0)).1).flatMap (leBytes 4)

/-- What steering does to a chunk: the bytes with their poison, nothing, a fault's address, or a wait (R359). -/
def State.steer (s : State) (n : Nat) (c : Cmd) (t : Nat) (elems : List Nat) : State × Got :=
  match s.seqOf (s.corePartId n) (handleOf c.a) with
  | none => (s, .ok [])
  | some q =>
    if q.hdr.steer = 0 then (s, .ok [])
    else
      match s.engineRead n c.level (q.hdr.steer.toNat + 16 * t) 16 (s.gotByte n c.id) with
      | (s, .ok e) =>
        let bs := e.map Prod.fst
        let v := bytesField bs 0 8
        if v = 0 then (s, .ok [])
        else
          match s.engineRead n c.level (v + 32 * tapChunk c.c) 32 (s.gotByte n c.id) with
          | (s, .ok w) =>
            let psn := e.any Prod.snd || w.any Prod.snd
            (s, .ok ((steered (bytesField bs 8 4) (w.map Prod.fst) elems).map fun b => (b, psn)))
          | r => r
      | r => r

/-- Writes a steered chunk; a poisoned row stays poisoned. -/
def State.putChunk (s : State) (n a : Nat) (bs : List (Byte × Bool)) : State :=
  if bs.isEmpty then s
  else
    let old := (rowsOf a 64).filter fun r => (s.core n).mem.lpsn.contains r
    old.foldl (fun s r => s.poisonRow n r) (s.lwrite n a (bs.map Prod.fst) (bs.any Prod.snd))

/-- TAP's run (R359): the contribution to the domain's current superstep, then the steering. -/
def State.runTap (s : State) (n : Nat) (c : Cmd) (t : Nat) : State × Moved :=
  let a := c.d.toNat
  let h := handleOf c.a
  let bs := s.lmem n a 64
  let elems := (List.range 16).map fun i => bytesField bs (4 * i) 4
  let psn := s.lpoison n a 64
  let give (s : State) : State :=
    match s.tapPoint n t with
    | some x =>
      s.onBar (s.domKey n) fun b => { b with taps := b.taps ++ [tapPart x h (tapPos c.b) (tapChunk c.c) elems psn] }
    | none => s
  match s.steer n c t elems with
  | (s, .wait) => (s, .wait)
  | (s, .away pas) => (s, .away pas)
  | (s, .fail x) => (give s, .fail 1 x)
  | (s, .ok out) => ((give s).putChunk n a out, .done)

/-! ### Evaluation at a barrier (R361-R366) -/

/-- A key as one number, and back. -/
def keyCode (k : Nat × Nat × Nat) : Nat := k.1 * 2 ^ 29 + k.2.1 * 2 ^ 5 + k.2.2
def keyOf (x : Nat) : Nat × Nat × Nat := (x / 2 ^ 29, x / 2 ^ 5 % 2 ^ 24, x % 2 ^ 5)

/-- The open keys of a domain, in rising order (log 31: DEDUCED). -/
def State.openKeys (s : State) (k : DomKey) : List (Nat × Nat × Nat) :=
  (((s.members k).flatMap fun n => (s.core n).sup.keys).foldl (fun l x => insertNat (keyCode x) l) []).map keyOf

/-- A list padded to a power of two with a value. -/
def padded (l : List Nat) (x : Nat) : List Nat :=
  let n := l.length
  let full := if n ≤ 1 then n else 2 ^ (Nat.log2 (n - 1) + 1)
  l ++ List.replicate (full - n) x

/-- The pairwise tree of R361. -/
def tapTree (l : List (BitVec 32)) : Nat :=
  let p := padded (l.map BitVec.toNat) fmtF32.signBit
  (treeFold (fAdd fmtF32 .rne) p.length p).1

/-- S2 / DM + ε, rounded once. -/
def tapMean (s2 dm eps : Nat) : Nat :=
  match unpack fmtF32 s2 with
  | .fin sg m e =>
    let num := (FVal.fin sg m e).dy.add ((unpack fmtF32 eps).dy.mul ⟨dm, 0⟩)
    if num.n = 0 then 0
    else
      let (q, x, sticky) := quotient num.n.natAbs num.e dm 0 (fmtF32.fb + 3)
      withSign fmtF32 (decide (num.n < 0)) (roundMag fmtF32 .rne (decide (num.n < 0)) q x sticky).1
  | _ => (fAdd fmtF32 .rne s2 eps).1

/-- D / r + bias, rounded once. -/
def tapQuot (d r bias : Nat) : Nat :=
  match unpack fmtF32 d, unpack fmtF32 r, unpack fmtF32 bias with
  | .fin sd md ed, .fin _ mr er, .fin sb mb eb =>
    let num := ((FVal.fin sd md ed).dy).add ((FVal.fin sb mb eb).dy.mul ⟨mr, er⟩)
    if num.n = 0 then withSign fmtF32 (md = 0 && mb = 0 && sd && sb) 0
    else
      let (q, x, sticky) := quotient num.n.natAbs num.e mr er (fmtF32.fb + 3)
      withSign fmtF32 (decide (num.n < 0)) (roundMag fmtF32 .rne (decide (num.n < 0)) q x sticky).1
  | _, _, _ => (fAdd fmtF32 .rne (fDiv fmtF32 .rne d r).1 bias).1

/-- The score of a probe (R361). -/
def tapScore (x : TapPoint) (d s2 bias : Nat) : Nat :=
  if !x.post then (fAdd fmtF32 .rne d bias).1
  else
    let m := tapMean s2 x.dm x.eps.toNat
    if (unpack fmtF32 m).isZero then bias else tapQuot d (fSqrt fmtF32 .rne m).1 bias

/-- Does a score cross (R362)? -/
def crosses (p : ProbeVec) (score : Nat) : Bool :=
  let v := unpack fmtF32 score
  v.isNaN || fOrd v (unpack fmtF32 p.theta.toNat) == (if p.below then .lt else .gt)

/-- A crossing that taps its sequence: TAPPED, the record, the event (R362, R363, R365). -/
def State.tapCross (s : State) (part h t probe : Nat) (halt incomplete : Bool) (record : List Byte) : State :=
  match s.seqOf part h with
  | none => s
  | some q =>
    (s.putSeq q { q with tapped := true, halted := q.halted || halt }).seqRecord part h record
      (some (packWord [(bit1 incomplete, 30), (bit1 halt, 29), (probe, 25), (t, 20), (h, 0)]))

/-- A counter of a tap point goes up, to its limit. -/
def State.tapCount (s : State) (part t probe : Nat) : State :=
  s.onPart part fun p => { p with points := p.points.map fun x =>
    if x.t = t then
      { x with count := x.count.set probe (BitVec.ofNat 32 (min 0xFFFFFFFF ((x.count.getD probe 0).toNat + 1))) }
    else x }

/-- A probe of a complete key. -/
def State.tapProbe (s : State) (part h pos sstep edit : Nat) (x : TapPoint) (parts : List TapPart) (probe : Nat) (p : ProbeVec) :
    State :=
  let score := tapScore x (tapTree (parts.map fun c => c.d.getD probe 0)) (tapTree (parts.map TapPart.s2)) p.bias.toNat
  if !crosses p score then s
  else if p.act = 0 then s.tapCount part x.t probe
  else
    let halt := p.act = 2
    s.tapCross part h x.t probe halt false (recordOf [(0, 1, 3), (1, 1, bit1 halt), (4, 4, h), (8, 1, x.t), (9, 1, probe),
      (12, 4, pos), (16, 4, score), (20, 2, edit), (24, 8, sstep), (32, 4, p.theta.toNat)])

/-- The contributions of a key by chunk index, when it is complete (R360). -/
def keyParts (x : TapPoint) (l : List TapPart) : Option (List TapPart) :=
  let sorted := (List.range (x.dm / 16)).filterMap fun c => l.find? fun p => p.chunk = c
  if sorted.length = x.dm / 16 && l.length = x.dm / 16 && l.all (fun p => !p.psn) then some sorted else none

/-- One key (R361, R362). -/
def State.evalKey (s : State) (part sstep : Nat) (taps : List TapPart) (key : Nat × Nat × Nat) : State :=
  let (h, pos, t) := key
  match (s.partOf part).bind fun p => p.point t, s.seqOf part h with
  | some x, some q =>
    let mine := taps.filter fun p => p.handle = h && p.pos = pos && p.point = t
    match keyParts x mine with
    | some parts =>
      ((List.range x.probes.length).zip x.probes).foldl
        (fun s p => s.tapProbe part h pos sstep q.edit.toNat x parts p.1 p.2) s
    | none =>
      s.tapCross part h t 0 false true (recordOf [(0, 1, 4), (4, 4, h), (8, 1, t), (12, 4, pos), (16, 4, mine.length),
        (20, 2, q.edit.toNat), (24, 8, sstep)])
  | _, _ => s

/-- The tap evaluations of a barrier (R299.1, R361). The SSTEP of their records is that of the lowest member (log 31: DEDUCED). -/
def State.evalTaps (s : State) (k : DomKey) : State :=
  match s.members k with
  | [] => s
  | n :: _ =>
    let part := s.corePartId n
    let sstep := (s.core n).regs.sstep.toNat
    let taps := (s.bar k).taps
    (s.openKeys k).foldl (fun s key => s.evalKey part sstep taps key) s

end Sys2Proof.Machine
end

