-- ==== Sys2Proof/Machine/Domain.lean ====
section
/-!
DEFINITION. Supersteps: SYNC, EXCH, REDV, DOMSET, DOMGET, FREEZE, the completion of a barrier and the end of its
exchange phase (spec/16 R293-R307, R313), and STOP (spec/07 R177).
-/
set_option linter.constructorNameAsVariable false

namespace Sys2Proof.Machine

/-! ### Identities and members -/

/-- TVAL of EXCHANGE (R303). -/
def exchTval (why core : Nat) : Word := packWord [(why, 56), (core % 2 ^ 23, 0)]

/-- An EXCHANGE trap of the executing thread. -/
def State.exchTrap (s : State) (why core : Nat) : State := s.trap .exchange (exchTval why core)

/-- The core of this module that an identity names. -/
def State.localCore (s : State) (d : Nat) : Option Nat :=
  if d / 2 ^ 17 = s.fabric.module.toNat then some (d % 2 ^ 17) else none

/-- A domain that spans modules: its members elsewhere are not in this module's state (log 22: DESIGN CHOICE). -/
def DomKey.spans (k : DomKey) : Bool := k.level = 3

/-- Is an identity that of a core of another module of a launch's group (spec/22 R408, R411)? -/
def State.inGroup (s : State) (k : DomKey) (d : Nat) : Bool :=
  (s.launchOf k.launch).any (fun l => (s.fabgrp l.part).getLsbD (d / 2 ^ 17)) && d % 2 ^ 17 < Config.numCores

/-- Does an identity name a member of a domain? For a core of another module of the group it is a free choice
(log 22: DESIGN CHOICE). -/
def State.namesMember (s : State) (k : DomKey) (d : Nat) : Bool :=
  match s.localCore d with
  | some m => (s.members k).contains m
  | none => k.spans && s.inGroup k d && s.choice (2 ^ 58 + d)

/-- Bytes of a plan. -/
def planBytes (l : List Xfer) : Nat := (l.map Xfer.n).sum

/-- The budget of one superstep, outgoing and incoming (R302). -/
def exchBudget : Nat := 8192

/-- A thread of a core that a launch has started and that has not ended. -/
def Thread.active (t : Thread) : Bool := t.run.life == .live

/-- The active threads of a core. -/
def Core.activeThreads (c : Core) : List Nat := (List.range 4).filter fun k => (get4 c.thr (tid k)).active

/-- A core all of whose threads have stopped (R299). -/
def State.departed (s : State) (n : Nat) : Bool := (s.core n).activeThreads.isEmpty

/-- Are the three engine queues of a core empty? -/
def State.enginesIdle (s : State) (n : Nat) : Bool :=
  (s.core n).eng.vs.isEmpty && (s.core n).eng.mx.isEmpty && (s.core n).eng.cp.isEmpty

/-! ### DOMSET and DOMGET (R296) -/

/-- DOMSET (spec/16 R296): Requests a change of the core's domain at the next barrier. -/
def execDomset (rd ra : Reg) (s : State) : Res :=
  let r := s.domRequest s.ctx.core (s.rd ra)
  .next ((r.1.wr rd (BitVec.ofNat 64 r.2)).retire)

/-- What DOMGET reads; counts over modules that are not in this state are free (log 22: DESIGN CHOICE). -/
def State.domFact (s : State) (n : Nat) (sel : BitVec 2) : Word :=
  let k := s.domKey n
  match sel.toNat with
  | 0 => (s.core n).regs.dom.word
  | 1 => if k.spans then s.free 0 else BitVec.ofNat 64 (s.members k).length
  | 2 => if k.spans then s.free 0 else BitVec.ofNat 64 (s.rank n)
  | _ => (s.core n).regs.sstep

/-- DOMGET (spec/16 R296): Reads domain facts. -/
def execDomget (rd : Reg) (sel : BitVec 2) (s : State) : Res := .next ((s.wr rd (s.domFact s.ctx.core sel)).retire)

/-! ### EXCH (R301) -/

/-- Changes a core's exchange plan. -/
def State.onPlan (s : State) (n : Nat) (f : List Xfer → List Xfer) : State :=
  s.onCore n fun c => { c with sup := { c.sup with plan := f c.sup.plan } }

/-- Entries of an exchange plan. -/
def planLimit : Nat := 32

/-- The first check of R301 that a transfer fails: WHY and CORE. -/
def State.exchBad (s : State) (n : Nat) (x : Xfer) : Option (Nat × Nat) :=
  let me := s.identity n
  if x.n = 0 || 8192 < x.n || x.n % 16 != 0 || x.s % 16 != 0 || x.t % 16 != 0 then some (6, me)
  else if s.localEnd n < x.s + x.n || s.localEnd n < x.t + x.n then some (1, x.d)
  else if !s.namesMember (s.domKey n) x.d then some (2, x.d)
  else if planLimit ≤ (s.core n).sup.plan.length then some (3, me)
  else none

/-- EXCH (spec/16 R301): Queues a transfer into the core's exchange plan, or clears the plan. -/
def execExch (rd ra rb : Reg) (dst : BitVec 15) (clear : Bool) (s : State) : Res :=
  let n := s.ctx.core
  let x : Xfer := { d := ((s.rd rd).extractLsb' 0 23).toNat, s := ((s.rd ra).extractLsb' 0 15).toNat, t := dst.toNat, n := len32 (s.rd rb) }
  .next (if clear then (s.onPlan n fun _ => []).retire
    else
      match s.exchBad n x with
      | some (why, core) => s.exchTrap why core
      | none => (s.onPlan n fun l => l ++ [x]).retire)

/-! ### REDV (R305) -/

/-- REDV (spec/16 R305): Contributes a value to a reduction channel of the superstep. -/
def execRedv (rd ra : Reg) (ch : BitVec 2) (op : RedOp) (ty : RedType) (sat : Bool) (s : State) : Res :=
  let n := s.ctx.core
  let v := s.rd ra
  let (id, s1) := s.fresh
  let a : Async := ⟨id, .redv, s.destOf rd, .zx, List.replicate 8 (.miss 0), 0, false, 0, s.level, false⟩
  let c : Contrib := ⟨n, s.ctx.thr.toNat, id, id, ch.toNat, op, ty, sat, v⟩
  .next ((((s1.onBar (s1.domKey n) fun b => { b with red := b.red ++ [c] }).addPend a).track id).retire)

/-! ### SYNC (R298) -/

/-- Is every active thread of a core arrived? -/
def Core.allArrived (c : Core) : Bool := c.activeThreads.all fun k => (get4 c.thr (tid k)).run.arrived.isSome

/-- The thread is arrived; the one whose SYNC makes every active thread arrived stands for its core. -/
def State.arriveThread (s : State) (order : Nat) : State :=
  let s1 := s.onCur fun t => { t with run := { t.run with arrived := some order } }
  if s1.curCore.allArrived then
    s1.onCurCore fun c => { c with sup := { c.sup with maker := some s.ctx.thr.toNat } }
  else s1

/-- The offset of an arrival now (R307): cycles since the last return from a SYNC of this domain, or since the first
instruction of the launch. -/
def State.arrivalOffset (s : State) (n : Nat) : Nat :=
  let c := s.core n
  let k := s.domKey n
  let since := match c.sup.synced.find? fun x => x.1 = k.level && x.2.1 = k.unit with
    | some x => x.2.2
    | none => c.sup.start.getD c.regs.cycle
  (c.regs.cycle - since).toNat

/-- The core arrives (R298), with a trace record (R316). -/
def State.coreArrives (s : State) (n t : Nat) : State :=
  let off := s.arrivalOffset n
  (s.onCore n fun c => { c with sup := { c.sup with arrived := true, offset := off } }).traceRec n t 1
    (s.thread n (tid t)).pc (BitVec.ofNat 64 off)

/-- A SYNC's look: arrive when the thread may, let the core arrive when it may, else wait. -/
def State.syncLook (s : State) (order : Nat) : State :=
  let n := s.ctx.core
  let s1 :=
    if s.cur.run.arrived.isSome then s
    else if s.cur.loadsLanded && s.released n s.ctx.thr then s.arriveThread order
    else s
  let c := s1.curCore
  if s1.cur.run.arrived.isSome && !c.sup.arrived && c.sup.maker = some s.ctx.thr.toNat && s1.enginesIdle n then
    if exchBudget < planBytes c.sup.plan then s1.exchTrap 4 (s1.identity n)
    else (s1.coreArrives n s.ctx.thr.toNat).stall (.sync order)
  else s1.stall (.sync order)

/-- A SYNC of a domain returns: the first one after the barrier is the origin of the member's next arrival offset (R307). -/
def State.syncReturned (s : State) (level unit : Nat) : State :=
  s.onCurCore fun c =>
    let mine (x : Nat × Nat × Word) : Bool := x.1 = level && x.2.1 = unit
    if c.sup.synced.any fun x => mine x && c.sup.barAt.toNat ≤ x.2.2.toNat then c
    else { c with sup := { c.sup with synced := c.sup.synced.filter (fun x => !mine x) ++ [(level, unit, c.regs.cycle)] } }

/-- SYNC (spec/16 R298): Ends the thread's compute phase and waits for the barrier.
(log 57: DEDUCED) -/
def execSync (s : State) : Res :=
  .next (match s.stage with
    | some (.synced level unit) => ((s.acquire s.ctx.core).syncReturned level unit).retire
    | some (.passed order) => s.stall (.passed order)
    | some (.sync order) => s.syncLook order
    | _ =>
      let (order, s1) := s.fresh
      s1.syncLook order)

/-! ### STOP (spec/07 R177) -/

/-- The tags of a thread that track something other than a REDV. -/
def Thread.stopTags (t : Thread) : BitVec 6 :=
  let redvs := (t.run.pend.filter fun a => a.kind == .redv).map Async.id
  (t.run.tracks.filter fun p => !redvs.contains p.2).foldl (fun m p => m ||| BitVec.ofNat 6 (2 ^ (p.1 - 1))) 0

/-- The commands of a thread in its core's queues. -/
def State.threadCmds (s : State) (n t : Nat) : List Nat :=
  let g := (s.core n).eng
  ((g.vs ++ g.mx ++ g.cp).filter fun c => c.thr = t).map Cmd.id

/-- Why the core's last live thread may not stop: the plan is too large, or names a core that is no member. A thread past the
checks of its own STOP is ending, and counts no more. -/
def State.stopBad (s : State) (n : Nat) : Option (Nat × Nat) :=
  let c := s.core n
  let others := c.activeThreads.filter fun k => k != s.ctx.thr.toNat && (get4 c.thr (tid k)).run.wait != some .ending
  if !others.isEmpty then none
  else if exchBudget < planBytes c.sup.plan then some (4, s.identity n)
  else (c.sup.plan.find? fun x => !s.namesMember (s.domKey n) x.d).map fun x => (2, x.d)

/-- A thread of a core has ended: where all that are left have arrived, the core may now arrive by the one whose SYNC issued
last (R298). -/
def State.rearrive (s : State) (n : Nat) : State :=
  let c := s.core n
  let arrived := c.activeThreads.filterMap fun k => (get4 c.thr (tid k)).run.arrived.map fun o => (o, k)
  let latest := arrived.foldl (fun (m : Option (Nat × Nat)) p =>
    match m with
    | some q => if q.1 < p.1 then some p else some q
    | none => some p) none
  if c.allArrived && !c.activeThreads.isEmpty then
    s.onCore n fun c => { c with sup := { c.sup with maker := latest.map Prod.snd } }
  else s

/-- The thread ends: holds end early (spec/13 R269); a gang breaks; the core may now arrive. -/
def State.endThread (s : State) : State :=
  let n := s.ctx.core
  let t := s.ctx.thr
  let s1 := ((s.core n).req.holds.filter fun h => h.thr = t.toNat).foldl (fun s h => s.endHold n h true) s
  let s2 := s1.retire.onCur fun th => { th with run := { th.run with life := .stopped } }
  ((s2.gangBreak n t.toNat).rearrive n).fated .ended

/-- STOP (spec/07 R177): Waits for the thread's work, releases and ends the thread. Once past its checks it only waits for
its release. -/
def execStop (s : State) : Res :=
  let n := s.ctx.core
  let t := s.ctx.thr
  let tags := s.cur.stopTags
  let cmds := s.threadCmds n t.toNat
  .next (if s.stage == some .ending then (if s.released n t then s.endThread else s.stall .ending)
    else if tags != 0 then s.stall (.tags tags)
    else if !cmds.isEmpty then s.stall (.engines cmds)
    else
      match s.failure (fun _ => true) with
      | some (v, s) => s.trap .engine v
      | none =>
        let s1 := s.mergeFlags fun _ => true
        match s1.stopBad n with
        | some (why, core) => s1.exchTrap why core
        | none => if s1.released n t then s1.endThread else s1.stall .ending)

/-! ### FREEZE (R313) -/

/-- Places a freeze request for a domain; false when one is pending already. -/
def State.requestFreeze (s : State) (k : DomKey) : State × Bool :=
  if (s.bar k).freeze then (s, false) else (s.onBar k fun b => { b with freeze := true }, true)

/-- FREEZE (spec/16 R313): Requests a precise stop of the domain at the next exchange boundary. -/
def execFreeze (rd : Reg) (s : State) : Res :=
  .next (if s.level = .u then s.privTrap
    else
      let r := s.requestFreeze (s.domKey s.ctx.core)
      (r.1.wr rd (if r.2 then 0 else 1)).retire)

/-! ### The completion of a barrier (R299) -/

/-- Has every member of a domain arrived, with a live one among them, in a launch that runs? Whether the members elsewhere of a
domain that spans modules have arrived, with a live one among them, is a free choice (spec/22 R413, log 22: DESIGN CHOICE). -/
def State.barrierReady (s : State) (k : DomKey) : Bool :=
  let b := s.bar k
  let ms := s.members k
  (s.launchOf k.launch).any (fun l => l.phase == .running) && !b.phase && !b.frozen
  && (if k.spans then !ms.isEmpty && s.choice (2 ^ 58 + 2 ^ 25 + 1) else ms.any fun n => (s.core n).sup.arrived)
  && ms.all fun n => (s.core n).sup.arrived || s.departed n

/-- The queued transfers of a domain in the order (source identity, plan order). -/
def State.queuedXfers (s : State) (k : DomKey) : List (Nat × Xfer) :=
  (s.members k).flatMap fun n => (s.core n).sup.plan.map fun x => (n, x)

/-- Why a destination fails the incoming check (R303). In a domain that spans modules, whether other modules' transfers
overcommit it, and whether a core elsewhere is still a member, is a free choice (log 22: DESIGN CHOICE). -/
def State.destBad (s : State) (k : DomKey) (xs : List (Nat × Xfer)) (d : Nat) : Option Nat :=
  let here := ((xs.filter fun x => x.2.d = d).map fun x => x.2.n).sum
  let more := k.spans && s.choice (2 ^ 58 + 2 ^ 24 + d)
  if !s.namesMember k d then some 2
  else if exchBudget < here || more then some 5
  else none

/-- Bytes that a module may send to others, and receive from them, in one superstep (spec/22 R413). -/
def crossBudget : Nat := 2 ^ 24

/-- Transfers to other modules. -/
def State.crossXfers (s : State) (xs : List (Nat × Xfer)) : List (Nat × Xfer) := xs.filter fun x => (s.localCore x.2.d).isNone

/-- Is a module's cross-module budget exceeded? What other modules send to it is not in this state: a free choice
(spec/22 R413, log 22: DESIGN CHOICE). -/
def State.crossOver (s : State) (k : DomKey) (cross : List (Nat × Xfer)) : Bool :=
  crossBudget < (cross.map fun x => x.2.n).sum || (k.spans && s.choice (2 ^ 58 + 2 ^ 25))

/-- Each failing transfer with its WHY and CORE: the checks of R303, with them the cross-module budget (spec/22 R413). A
sender that both concern reports its destination (log 84: DESIGN CHOICE). -/
def State.failing (s : State) (k : DomKey) : List (Nat × Xfer × Nat × Nat) :=
  let xs := s.queuedXfers k
  let bad := xs.filterMap fun x => (s.destBad k xs x.2.d).map fun why => (x.1, x.2, why, x.2.d)
  let cross := s.crossXfers xs
  let spent := cross.filter fun x => !(bad.any fun f => f.1 = x.1 && f.2.1 = x.2)
  bad ++ (if s.crossOver k cross then spent.map fun x => (x.1, x.2, 7, s.identity x.1) else [])

/-- The record of a departed core's dropped transfer (spec/21 R398, kind 20). -/
def State.dropRecord (s : State) (n : Nat) (x : Xfer) (why : Nat) : State :=
  s.partRecord (s.corePartId n) (recordOf [(0, 1, 20), (1, 1, why), (8, 4, s.identity n), (16, 4, x.d), (20, 4, x.n),
    (24, 8, (s.core n).regs.sstep.toNat), (32, 2, x.s), (34, 2, x.t)])

/-- Drops the failing transfers of departed cores, one record each (R299). So it does with those beyond the cross-module
budget, which R413 has handled as R303 handles a destination: their record says WHY 5 (log 85: DESIGN CHOICE). -/
def State.dropDeparted (s : State) (bad : List (Nat × Xfer × Nat × Nat)) : State :=
  (bad.filter fun f => s.departed f.1).foldl (fun s f =>
    (s.dropRecord f.1 f.2.1 (if f.2.2.1 = 7 then 5 else f.2.2.1)).onPlan f.1 fun l => l.erase f.2.1) s

/-- The live senders to failing destinations trap (R303), each by its first failing transfer. -/
def State.trapSenders (s : State) (bad : List (Nat × Xfer × Nat × Nat)) : State :=
  ((bad.map Prod.fst).foldl (fun l n => insertNat n l) []).foldl (fun s n =>
    match bad.find? fun f => f.1 = n, (s.core n).sup.maker with
    | some f, some t => s.trapAt n (tid t) (s.thread n (tid t)).pc .exchange (exchTval f.2.2.1 f.2.2.2)
    | _, _ => s) s

/-! ### Reductions (R305) -/

/-- The lane type of a reduction. -/
def redType : RedType → EType
  | .f32 => .f32
  | .f64 => .f64
  | .i64 => .i64
  | .n64 => .n64

/-- Does a contribution come before another: core, thread, program order? -/
def Contrib.before (a b : Contrib) : Bool :=
  a.core < b.core || (a.core = b.core && (a.thr < b.thr || (a.thr = b.thr && a.ord < b.ord)))

/-- Inserts a contribution in order. -/
def insertContrib (c : Contrib) : List Contrib → List Contrib
  | [] => [c]
  | x :: xs => if c.before x then c :: x :: xs else x :: insertContrib c xs

/-- Do contributions not all carry the same op, type and `.sat`? -/
def redMixed (l : List Contrib) : Bool :=
  match l with
  | [] => false
  | c :: _ => l.any fun x => x.op != c.op || x.ty != c.ty || x.sat != c.sat

/-- The result of one channel over its contributions in order. -/
def redResult (l : List Contrib) : Word × Flags :=
  match l with
  | [] => (0, 0)
  | c :: _ =>
    if redMixed l then (0x8000000000000000, flagNV)
    else
      let t := redType c.ty
      let vs := l.map fun x => x.val.toNat % 2 ^ t.bits
      let r :=
        match c.op with
        | .sum =>
          if t.isInt then narrow t.bits t.signed c.sat (vs.foldl (fun acc x => acc + intValue t.bits t.signed x) 0)
          else
            let p := padded vs (eFmt t).signBit
            treeFold (fAdd (eFmt t) .rne) p.length p
        | _ =>
          let p := padded vs (vs.getLastD 0)
          treeFold (eMinMax t (c.op == RedOp.max)) p.length p
      (BitVec.ofNat 64 r.1, r.2)

/-- A contributor's result lands. -/
def State.landRed (s : State) (c : Contrib) (r : Word × Flags) : State :=
  match (s.thread c.core (tid c.thr)).run.pend.find? fun a => a.id = c.id with
  | some a => s.lands c.core (tid c.thr) { a with bytes := (leBytes 8 r.1.toNat).map .have, flags := r.2 }
  | none => s

/-- The reductions of a barrier; in a domain that spans modules the other modules' contributions make the result free
(log 22: DESIGN CHOICE), unless those here differ already. -/
def State.reductions (s : State) (k : DomKey) : State :=
  let all := (s.bar k).red.foldl (fun l c => insertContrib c l) []
  (List.range 4).foldl (fun s ch =>
    let l := all.filter fun c => c.ch = ch
    let r := if k.spans && !redMixed l then (s.free (50 + ch), (s.free (60 + ch)).setWidth 8) else redResult l
    l.foldl (fun s c => s.landRed c r) s) s

/-! ### The imbalance record (R307) -/

/-- A count that stops at 0xFFFFFFFF. -/
def cap32 (x : Nat) : BitVec 32 := BitVec.ofNat 32 (min 0xFFFFFFFF x)

/-- The member with the greatest offset; the lowest on a tie. -/
def latest (l : List (Nat × Nat)) : Nat × Nat :=
  match l with
  | [] => (0, 0)
  | x :: xs => xs.foldl (fun m y => if m.2 < y.2 then y else m) x

/-- Writes IMB0 to IMB3 of the live members. -/
def State.imbalance (s : State) (k : DomKey) : State :=
  let ms := (s.members k).filter fun n => !s.departed n
  let offs := ms.map fun n => (n, (s.core n).sup.offset)
  let early := match lowest (offs.map Prod.snd) with | some x => x | none => 0
  let late := latest offs
  let sum := (offs.map Prod.snd).sum
  let imb3 := packWord [(ms.length, 40), (s.identity late.1, 0)]
  ms.foldl (fun s n => s.onRegs n fun r =>
    if k.spans then
      { r with imb0 := (s.free 70).setWidth 32, imb1 := (s.free 71).setWidth 32, imb2 := s.free 72,
               imb3 := s.free 73 &&& 0xFFFFFF00007FFFFF }
    else { r with imb0 := cap32 early, imb1 := cap32 late.2, imb2 := BitVec.ofNat 64 sum, imb3 := imb3 }) s

/-! ### Record and replay (R319, R320) -/

/-- The signatures of a domain's threads at this barrier: SSTEP, core, thread, signature. -/
def State.signatures (s : State) (k : DomKey) : List (Nat × Nat × Nat × Word) :=
  (s.members k).flatMap fun n => ((List.range 4).filter fun t => (s.thread n (tid t)).run.life != .absent).map fun t =>
    ((s.core n).regs.sstep.toNat, n, t, (s.thread n (tid t)).sp.sig)

/-- The barrier log grows in record mode; a replay compares with it and keeps the first difference. -/
def Replay.atBarrier (r : Replay) (sigs : List (Nat × Nat × Nat × Word)) : Replay :=
  if r.replaying then
    let odd := sigs.find? fun x => !r.log.contains x
    { r with mismatch := r.mismatch.orElse fun _ => odd.map fun x => (x.1, x.2.1, x.2.2.1) }
  else if r.recording then { r with log := r.log ++ sigs }
  else r

/-! ### Completion and the exchange phase (R303) -/

/-- The 16-byte rows of a transfer's source, with their poison. -/
def State.sourceRows (s : State) (n : Nat) (x : Xfer) : List (List Byte × Bool) :=
  (List.range (x.n / 16)).map fun k => (s.lmem n (x.s + 16 * k) 16, s.lpoison n (x.s + 16 * k) 16)

/-- The transfers of a domain as the phase captures them; those to other modules leave this state (log 22: DESIGN CHOICE). -/
def State.capture (s : State) (k : DomKey) : List Captured :=
  (s.queuedXfers k).filterMap fun x => (s.localCore x.2.d).map fun m => ⟨x.1, m, x.2.t, s.sourceRows x.1 x.2⟩

/-- What the completion does at each member: exchange bytes counted (R318), the trace (R316), the new origin of its
cycles. -/
def State.atMember (s : State) (n : Nat) : State :=
  let c := s.core n
  let s1 := s.count n none 13 (planBytes c.sup.plan)
  let s2 := match c.sup.maker with
    | some t => s1.traceRec n t 2 (s.thread n (tid t)).pc c.regs.imb3
    | none => s1
  s2.onCore n fun c => { c with sup := { c.sup with barAt := c.regs.cycle } }

/-- The arrived threads of a member wait for the exchange phase from now on: nothing takes them out of the SYNC (R298). -/
def Core.passes (c : Core) : Core :=
  { c with thr := [0#2, 1#2, 2#2, 3#2].foldl (fun v i =>
      let t := get4 v i
      match t.run.arrived with
      | some order => set4 v i { t with run := { t.run with wait := some (.passed order) } }
      | none => v) c.thr }

/-- A barrier completes, in the order of R299; the exchange phase begins. -/
def State.completeBarrier (s : State) (k : DomKey) : State :=
  let s1 := ((s.reductions k).evalTaps k).imbalance k
  let sigs := s1.signatures k
  let s2 := s1.onLaunch k.launch fun l => { l with replay := l.replay.map fun r => r.atBarrier sigs }
  let ms := s2.members k
  let s3 := ms.foldl (fun s n => (s.atMember n).onCore n Core.passes) s2
  let xs := s3.capture k
  s3.onBar k fun b => { b with phase := true, members := ms, xfers := xs, red := [], taps := [] }

/-- The last member has arrived: the checks, then completion or the traps of R303. -/
def State.tryBarrier (s : State) (k : DomKey) : State :=
  if !s.barrierReady k then s
  else
    let s1 := s.dropDeparted (s.failing k)
    let bad := s1.failing k
    if bad.any fun f => s1.departed f.1 then s1
    else if bad.isEmpty then s1.completeBarrier k
    else s1.trapSenders bad

/-- BARRIER_COMPLETE (spec/16 R299): The last member arrives; checks, reductions, tap evaluation and the imbalance
record follow, and the exchange phase begins. -/
def execBarrierComplete (core : Nat) (s : State) : Res := .next (s.tryBarrier (s.domKey core))

/-! ### The end of the phase (R303, R304, R299.4-5) -/

/-- Delivers one transfer's first `rows` rows. -/
def State.deliverRows (s : State) (x : Captured) (rows : Nat) : State :=
  (List.range rows).foldl (fun s k =>
    let r := x.rows.getD k ([], false)
    s.lwrite x.dst (x.t + 16 * k) r.1 r.2) s

/-- How many rows of a lost transfer were written before the fault (R304): free, but not all.
(log 58: DESIGN CHOICE) -/
def State.rowsWritten (s : State) (i : Nat) (x : Captured) : Nat := (s.free (80 + i)).toNat % Nat.max 1 x.rows.length

/-- Poisons the rows that a lost transfer has not written, with the record of R304. -/
def State.loseRows (s : State) (x : Captured) (done : Nat) : State :=
  let s1 := ((List.range x.rows.length).filter fun k => done ≤ k).foldl (fun s k =>
    s.lwrite x.dst (x.t + 16 * k) (s.lmem x.dst (x.t + 16 * k) 16) true) s
  s1.machineRecord (s1.corePartId x.dst) 18 11 (s1.identity x.dst) (x.t + 16 * done) (s1.core x.dst).regs.sstep.toNat 0

/-- DOM takes its pending value and PEND clears (R296); nothing else of it changes.
(log 79: DEDUCED) -/
def Dom.applied (d : Dom) : Dom := if d.pend then { d with level := d.plevel, table := d.ptable, pend := false } else d

/-- What a phase's end does in the threads: a SYNC that waits for it ends (R299.5). -/
def Thread.syncEnds (t : Thread) (k : DomKey) : Thread :=
  if t.run.arrived.isSome then { t with run := { t.run with arrived := none, wait := some (.synced k.level k.unit) } } else t

/-- What a phase's end does at a member. -/
def Core.phaseEnds (c : Core) (k : DomKey) : Core :=
  { c with
    thr := [0#2, 1#2, 2#2, 3#2].foldl (fun v i => set4 v i ((get4 v i).syncEnds k)) c.thr
    regs := { c.regs with sstep := c.regs.sstep + 1, dom := c.regs.dom.applied }
    sup := { c.sup with
      plan := []
      arrived := false
      maker := none
      keys := [] } }

/-- A domain's next superstep begins, or it is frozen (R313). A core that takes a pending domain change as the stop lands goes
on in its new domain (log 86: DESIGN CHOICE). Contributions that came during the phase are those of the next superstep. -/
def State.renewBar (s : State) (k : DomKey) : State :=
  { s with bars := s.bars.filterMap fun b =>
      if b.key = k then
        if b.freeze || !b.red.isEmpty || !b.taps.isEmpty then
          some { Barrier.fresh k with frozen := b.freeze, red := b.red, taps := b.taps }
        else none
      else some b }

/-- A transfer of a member on another module as the phase delivers it. -/
def capturedOf (x : FabXfer) : Captured := ⟨x.src.toNat, x.dst, x.t, x.rows.map fun r => r.getD ([], false)⟩

/-- A transfer in its phase: its source's identity, the transfer, how many of its rows are written. -/
abbrev Delivery := Nat × Captured × Nat

/-- Inserts a delivery by the identity of its source, behind those of the same source (R303). -/
def insertDelivery (d : Delivery) : List Delivery → List Delivery
  | [] => [d]
  | x :: xs => if d.1 < x.1 then d :: x :: xs else x :: insertDelivery d xs

/-- Could these transfers come from other modules: to members, each destination and the module within their budgets
(spec/22 R413)? -/
def State.mayArrive (s : State) (b : Barrier) (arrived : List FabXfer) : Bool :=
  let size (x : FabXfer) : Nat := 16 * x.rows.length
  let into (n : Nat) : Nat :=
    ((arrived.filter fun x => x.dst = n).map size).sum + ((b.xfers.filter fun x => x.dst = n).map fun x => 16 * x.rows.length).sum
  (arrived.isEmpty || b.key.spans) && (arrived.map size).sum ≤ crossBudget
  && arrived.all fun x => b.members.contains x.dst && into x.dst ≤ exchBudget && (s.localCore x.src.toNat).isNone
      && s.inGroup b.key x.src.toNat

/-- The rows of arriving transfers that are lost on the way are poisoned, with the record of R304 (spec/22 R414). -/
def State.loseArrived (s : State) (x : FabXfer) : State :=
  let lost := (List.range x.rows.length).filter fun k => ((x.rows[k]? : Option (Option (List Byte × Bool))).bind id).isNone
  match lost with
  | [] => s
  | first :: _ =>
    let s1 := lost.foldl (fun s k => s.lwrite x.dst (x.t + 16 * k) (s.lmem x.dst (x.t + 16 * k) 16) true) s
    s1.machineRecord (s1.corePartId x.dst) 18 11 (s1.identity x.dst) (x.t + 16 * first) (s1.core x.dst).regs.sstep.toNat 0

/-- Delivers the transfers of a phase in the order of their sources, plan order within one (R303), those of other modules
among them. Those of this module that `lost` numbers do not complete (R304). -/
def State.deliverAll (s : State) (xs : List Captured) (lost : List Nat) (arrived : List FabXfer) : State :=
  let gone (p : Nat × Captured) : Bool := lost.contains p.1 && !p.2.rows.isEmpty
  let own := (List.range xs.length).zip xs
  let rows (p : Nat × Captured) : Nat := if gone p then s.rowsWritten p.1 p.2 else p.2.rows.length
  let mine : List Delivery := own.map fun p => (s.identity p.2.src, p.2, rows p)
  let all := arrived.foldl (fun l x => insertDelivery (x.src.toNat, capturedOf x, x.rows.length) l) mine
  let s1 := all.foldl (fun s d => s.deliverRows d.2.1 d.2.2) s
  arrived.foldl (fun s x => s.loseArrived x) ((own.filter gone).foldl (fun s p => s.loseRows p.2 (rows p)) s1)

/-- Is a record of a tap evaluation of the launch's partition still to be written (spec/18 R366)? -/
def State.tapsPending (s : State) (k : DomKey) : Bool :=
  s.mem.late.any fun w => (s.launchOf k.launch).any (fun l => l.part = w.part)
    && match w.op with | .record _ _ (some _) => true | _ => false

/-- The exchange phase of a domain ends, once the records of its tap evaluations are written, with the events that they number
(spec/18 R365, R366). -/
def State.endPhase (s : State) (k : DomKey) (outside : PhaseEnd) : State :=
  let b := s.bar k
  if !b.phase || !s.mayArrive b outside.arrived || s.tapsPending k then s
  else (b.members.foldl (fun s n => s.onCore n fun c => c.phaseEnds k) (s.deliverAll b.xfers outside.lost outside.arrived)).renewBar k

/-- EXCHANGE_PHASE_END (spec/16 R304): The exchange phase ends; SSTEP increments, domain changes apply and SYNCs
return. -/
def execExchangePhaseEnd (core : Nat) (outside : PhaseEnd) (s : State) : Res :=
  .next (s.endPhase (s.domKey core) outside)

end Sys2Proof.Machine
end

