-- ==== Sys2Proof/Machine/Launches.lean ====
section
/-!
DEFINITION. REGION (spec/15 R290), TLBINV (spec/21 R395), LAUNCH, and the start and the end of a launch
(spec/21 R387-R389; spec/03 R74; spec/10 R212; spec/22 R411, R412).
-/
set_option linter.constructorNameAsVariable false

namespace Sys2Proof.Machine

/-! ### REGION (spec/15 R290) -/

/-- The address of the entry that maps a page of a known size, from a table down (spec/21 R391). -/
def State.entryOf (s : State) (va size : Nat) : Nat → List Nat → Nat
  | table, [] => table
  | table, bits :: rest =>
    let at' := table + 8 * ((va / 2 ^ bits) % 8192)
    if 2 ^ bits = size then at'
    else s.entryOf va size ((leNat (s.homeBytes at' 8) / 2 ^ 16 % 2 ^ 32) * 2 ^ 16) rest

/-- What the leaves of a range are: the leaves in ascending order, a page without a valid leaf entry, or a walk that
waits. -/
inductive Leaves where
  | ok (l : List TlbEnt)
  | missing
  | wait (pa : Nat)
  deriving DecidableEq, Repr

/-- The leaves from `va` up to `top`. -/
def State.leaves (s : State) (l : Launch) (top : Nat) : Nat → Nat → Leaves
  | 0, _ => .ok []
  | fuel + 1, va =>
    if top ≤ va then .ok []
    else
      match s.walk l.part l.asid l.ptbr va with
      | .fault => .missing
      | .wait pa => .wait pa
      | .leaf e =>
        match s.leaves l top fuel (e.va + e.size) with
        | .ok rest => .ok (e :: rest)
        | r => r

/-- Does a line lie in a page? -/
def TlbEnt.hasLine (e : TlbEnt) (line : Nat) : Bool := e.pa / 128 ≤ line && line < (e.pa + e.size) / 128

/-- Does a line lie in one of some pages? -/
def inPages (ps : List TlbEnt) (line : Nat) : Bool := ps.any fun e => e.hasLine line

/-- Has every access to some pages been performed: no request, message, reply, pushed copy, registration, fill or access in
the fabric is on its way for a line of theirs?
(log 64: DEDUCED) -/
def State.quiet (s : State) (ps : List TlbEnt) : Bool :=
  (s.mem.homeq.all fun r => !inPages ps r.line)
  && (s.mem.probes.all fun p => p.queued || !inPages ps p.line)
  && (s.mem.replies.all fun r => !inPages ps r.line)
  && (s.mem.pushes.all fun p => p.outcome.isSome || !inPages ps p.line)
  && (s.fabric.remote.all fun r => !inPages ps (lineOf r.pa))
  && s.cores.all fun c =>
    (c.2.req.regs.all fun r => !inPages ps r.line) && (c.2.req.pushes.all fun p => !inPages ps p.line)
    && c.2.mem.fills.all fun l => !inPages ps l

/-- The halves of lines of some pages that the host owns (spec/21 R396). -/
def State.hostIn (s : State) (ps : List TlbEnt) : List Nat :=
  (s.mem.dir.filter fun d => inPages ps d.1).flatMap fun d => s.hostHalves d.1 0xFFFFFFFF

/-- Removes translations from every micro-TLB and cluster TLB (spec/21 R395). -/
def State.dropTlb (s : State) (f : TlbEnt → Bool) : State :=
  { s with
    cores := s.cores.map fun c => (c.1, { c.2 with mem := { c.2.mem with tlb := c.2.mem.tlb.filter fun e => !f e } })
    ctlb := s.ctlb.map fun c => (c.1, c.2.filter fun e => !f e) }

/-- The cores of a partition that the state lists. -/
def State.partCores (s : State) (part : Nat) : List Nat :=
  match s.partOf part with
  | some p => (s.cores.map Prod.fst).filter fun n => p.clusters.contains (clusterOf n)
  | none => []

/-- The lines of an L1 that a predicate names are written back and dropped (spec/10 R196), the values of O words with the
others (spec/15 R290 speaks of dirty bytes alone, log 88: DESIGN CHOICE). -/
def State.flushL1 (s : State) (n : Nat) (f : Nat → Bool) : State :=
  ((s.core n).mem.l1.filter fun l => f l.num).foldl (fun s l => (s.writeBack l).dropLine n l.num) s

/-- The lines of an L1 that a predicate names are dropped. -/
def State.loseL1 (s : State) (n : Nat) (f : Nat → Bool) : State :=
  s.onCore n fun c => { c with mem := { c.mem with l1 := c.mem.l1.filter fun l => !f l.num } }

/-- The bytes of a leaf that several L1s hold dirty, each with the value of one of them: which one is free (R291). -/
def State.contested (s : State) (ns : List Nat) (f : Nat → Bool) : List (Nat × Byte) :=
  let all := ns.flatMap fun n => ((s.core n).mem.l1.filter fun l => l.sw && f l.num).flatMap Line.dirtyBytes
  (all.map Prod.fst).eraseDups.filterMap fun pa =>
    let vs := all.filter fun p => p.1 = pa
    if vs.length < 2 then none else vs[(s.free (2 ^ 56 * 4 + pa)).toNat % vs.length]?

/-- One leaf becomes hardware-coherent or software-managed. A line that is held leaves L1 like any other as c is 1, and its
hold stands (log 89: DESIGN CHOICE). -/
def State.switchLeaf (s : State) (l : Launch) (c : Bool) (e : TlbEnt) : State :=
  let s1 := s.dropTlb fun x => x.part = l.part && x.va = e.va && x.pa = e.pa && x.size = e.size
  let lines := (s1.mem.dir.map Prod.fst).filter e.hasLine
  let s2 :=
    if c then
      let ns := s1.partCores l.part
      let s3 := (ns.foldl (fun s n => s.flushL1 n e.hasLine) s1).putCells (s1.contested ns e.hasLine)
      lines.foldl (fun s num => s.setDir num ((s.dirOf num).release 0xFFFFFFFF)) s3
    else
      let s3 := lines.foldl (fun s num =>
        let s := s.revokeNow num ((s.dirOf num).ownedBut none 0xFFFFFFFF)
        let d := s.dirOf num
        (d.push.receivers.foldl (fun s n => s.dropPushed n num s.nextId) s).setDir num { d with push := .cores [] }) s1
      (s3.partCores l.part).foldl (fun s n => s.loseL1 n e.hasLine) s3
  let at' := s2.entryOf e.va e.size (l.ptbr.toNat * 2 ^ 16) [42, 29, 16]
  let b : Byte := s2.homeByte at' |>.1
  s2.homeWrite [(at', (b &&& ~~~0x40) ||| (if c then 0x40 else 0))]

/-- A range that REGION does not accept. -/
def regionBad (b n : Nat) : Bool :=
  b % 0x10000 != 0 || n = 0 || n % 0x10000 != 0 || b < globalBase || globalTop < b + n

/-- REGION once its leaves are known. -/
def State.regionLeaves (s : State) (rd : Reg) (l : Launch) (b n : Nat) (c : Bool) (ls : List TlbEnt) : State :=
  let held : Bool := s.cores.any fun k => k.2.req.holds.any fun h => inPages ls h.line
  if ls.any fun e => e.va < b || b + n < e.va + e.size then (s.wr rd 4).retire
  else if !c && held then (s.wr rd 3).retire
  else if !s.fenced then s.stall .release
  else if !s.quiet ls then s.stall .region
  else if !(s.hostIn ls).isEmpty then (s.snoop (s.hostIn ls)).stall .region
  else ((((ls.foldl (fun s e => s.switchLeaf l c e) (s.acquire s.ctx.core)).acquire s.ctx.core)).wr rd 0).retire

/-- REGION (spec/15 R290): Switches a range of pages between hardware-coherent and software-managed. -/
def execRegion (rd ra rb : Reg) (c : Bool) (s : State) : Res :=
  let b := (s.rd ra).toNat
  let n := (s.rd rb).toNat
  .next (if s.level = .u then s.privTrap
    else if regionBad b n then (s.wr rd 1).retire
    else
      match s.coreLaunch s.ctx.core with
      | none => (s.wr rd 2).retire
      | some l =>
        match s.leaves l (b + n) (n / 0x10000) b with
        | .missing => (s.wr rd 2).retire
        | .wait pa => (s.snoopAll [pa, pa + 4]).stall .region
        | .ok ls => s.regionLeaves rd l b n c ls)

/-! ### TLBINV (spec/21 R395) -/

/-- Does a TLBINV name an entry? -/
def tlbNamed (l : Launch) (a : Nat) (scope : BitVec 2) (e : TlbEnt) : Bool :=
  e.part = l.part
  && (match scope.toNat with
      | 0 => e.asid == l.asid && e.va ≤ a && a < e.va + e.size
      | 1 => e.asid == l.asid
      | _ => true)

/-- Every translation in a TLB. -/
def State.tlbAll (s : State) : List TlbEnt := (s.cores.flatMap fun c => c.2.mem.tlb) ++ s.ctlb.flatMap Prod.snd

/-- TLBINV (spec/21 R395): Removes translations from every TLB of the partition. -/
def execTlbinv (ra : Reg) (scope : BitVec 2) (s : State) : Res :=
  .next (if s.level = .u then s.privTrap
    else if !s.fenced then s.stall .release
    else
      match s.coreLaunch s.ctx.core with
      | none => ((s.acquire s.ctx.core).acquire s.ctx.core).retire
      | some l =>
        let f := tlbNamed l (s.rd ra).toNat scope
        if s.quiet (s.tlbAll.filter f) then (((s.acquire s.ctx.core).dropTlb f).acquire s.ctx.core).retire else s.stall .region)

/-! ### Launch records (spec/21 R387) -/

/-- A field of a record. -/
def recField (bs : List Byte) (off size : Nat) : Nat := leNat ((bs.drop off).take size)

/-- A parameter window of a record. -/
def pwOf (bs : List Byte) (k : Nat) : PwRec :=
  ⟨BitVec.ofNat 64 (recField bs (96 + 16 * k) 8), recField bs (104 + 16 * k) 4, recField bs (108 + 16 * k) 1 % 2 = 1⟩

/-- The record that 256 bytes hold. -/
def launchRecOf (bs : List Byte) : LaunchRec where
  entry := BitVec.ofNat 64 (recField bs 0 8)
  table := BitVec.ofNat 8 (recField bs 8 1)
  level := BitVec.ofNat 4 (recField bs 9 1)
  tmask := BitVec.ofNat 4 (recField bs 9 1 / 16)
  ctab := recField bs 10 1
  fuse := recField bs 11 1 % 2 = 1
  lock := recField bs 11 1 / 2 % 2 = 1
  prio := BitVec.ofNat 2 (recField bs 11 1 / 4)
  slevel := recField bs 11 1 / 16 % 2 = 1
  masks := BitVec.ofNat 64 (recField bs 16 8)
  img := BitVec.ofNat 64 (recField bs 24 8)
  ilen := recField bs 32 4
  stktop := BitVec.ofNat 64 (recField bs 40 8)
  stkstr := recField bs 48 4
  tpbase := BitVec.ofNat 64 (recField bs 56 8)
  tpstr := recField bs 52 4
  preda := BitVec.ofNat 64 (recField bs 64 8)
  predv := BitVec.ofNat 32 (recField bs 72 4)
  donea := BitVec.ofNat 64 (recField bs 80 8)
  donev := BitVec.ofNat 32 (recField bs 88 4)
  pw := (List.range 8).map (pwOf bs)

/-- Is a reserved byte, or a reserved bit of a byte, not zero? -/
def recReserved (bs : List Byte) : Bool :=
  recField bs 12 4 != 0 || recField bs 36 4 != 0 || recField bs 76 4 != 0 || recField bs 224 32 != 0
  || 32 ≤ recField bs 11 1
  || (List.range 8).any fun k => 1 < recField bs (108 + 16 * k) 1 || recField bs (109 + 16 * k) 3 != 0

/-- Does a record break a limit of its own fields (R388, code 1)? -/
def LaunchRec.bad (r : LaunchRec) : Bool :=
  4 < r.level.toNat || r.entry.getLsbD 0 || 0x6000 < r.ilen
  || r.pw.any fun w => 65536 < w.size || w.base.toNat % 16 != 0

/-! ### Deciding a launch (R388) -/

/-- The code of a refusal, 0 for none. `sys` says that the SLEVEL check passes. -/
def State.launchCode (s : State) (part : Nat) (bs : List Byte) (sys : Bool) : Nat :=
  let r := launchRecOf bs
  let owned : Bool := (assoc s.domtab r.ctab).any fun e => e.owner = some part
  if recReserved bs || r.bad || (r.preda != 0 && (r.preda.toNat % 4 != 0 || (s.partMap true part .read r.preda.toNat 4).isNone))
  then 1
  else if !owned || (s.entryCores r.ctab).isEmpty then 2
  else if r.lock && 0x5800 < r.ilen then 3
  else if r.slevel && !sys then 4
  else 0

/-- Can the part read now what it needs to know whether a record's PREDA is mapped? Table words that the host owns are snooped
(spec/21 R396). -/
def State.predaKnown (s : State) (part : Nat) (bs : List Byte) : State × Bool :=
  let a := (launchRecOf bs).preda.toNat
  if a = 0 || a % 4 != 0 then (s, true)
  else
    match s.walkPage part .read a with
    | (s, .wait) => (s, false)
    | _ => (s, true)

/-- The lockstep shadows among the cores of an entry: 2k + 1 beside 2k (spec/10 R212).
(log 63: DEDUCED) -/
def shadowsOf (r : LaunchRec) (cores : List Nat) : List Nat :=
  if r.lock then cores.filter fun n => n % 2 = 1 && cores.contains (n - 1) else []

/-- Are the cores whole clusters (spec/13 R255)? -/
def wholeClusters (cores : List Nat) : Bool :=
  cores.all fun n => (List.range 32).all fun k => cores.contains (clusterOf n * 32 + k)

/-- An accepted launch, waiting (R388, R389). -/
def State.launchOfRecord (s : State) (id part : Nat) (addr : Word) (bs : List Byte) (system : Bool) (stat : Option Nat) :
    Launch :=
  let r := launchRecOf bs
  let cores := s.entryCores r.ctab
  let fused := r.fuse && wholeClusters cores
  { id := id
    part := part
    addr := addr
    record := r
    status := if r.fuse && !fused then 0x101 else 1
    stat := stat
    cores := cores.filter fun n => !(shadowsOf r cores).contains n
    shadows := shadowsOf r cores
    system := system
    fused := fused
    phase := .waiting
    gen := 0
    table2 := []
    table3 := []
    loaded := 3
    meas := List.replicate 64 0
    ptbr := ((s.partOf part).map Partition.ptbr).getD 0
    asid := ((s.partOf part).map Partition.asid).getD 0
    saved := []
    savedB := []
    replay := none
    faulted := false
    ready := true
    used := 0
    since := 0
    image := [] }

/-- Writes a STATUS word of a partition's launch (R389). -/
def State.putStatus (s : State) (part : Nat) (stat : Option Nat) (v : BitVec 32) : State :=
  match stat with
  | some pa => s.later part (.phys pa (leBytes 4 v.toNat))
  | none => s

/-- A fabric launch that this module issues takes the next generation; it waits for its start barrier
(spec/22 R411, R412). -/
def State.joinFabric (s : State) (l : Launch) : State × Launch :=
  if s.fabricLaunch l then
    let g := s.fabric.lgen + 1
    ({ s with fabric := { s.fabric with lgen := g } },
      { l with gen := g, ready := false, status := l.status ||| (g.setWidth 32 <<< (16 : Nat)) })
  else (s, l)

/-- Accepts a launch: STATUS, and its place among the launches. Answers its number. -/
def State.acceptLaunch (s : State) (part : Nat) (addr : Word) (bs : List Byte) (system : Bool) (stat : Option Nat) :
    State × Nat :=
  let (id, s) := s.fresh
  let (s, l) := s.joinFabric (s.launchOfRecord id part addr bs system stat)
  ({ s with launches := s.launches ++ [l] }.putStatus part stat l.status, id)

/-- The refusal code in STATUS. -/
def refusedStatus (code : Nat) : BitVec 32 := BitVec.ofNat 32 (code * 16 + 2)

/-- Is there a path to every other module of a group? -/
def State.groupRouted (s : State) (group : Word) : Bool :=
  (List.range 64).all fun m => !group.getLsbD m || m = s.fabric.module.toNat || s.routed m

/-- What a launch is decided as. A fabric launch that any module refuses, this one among them, or that one cannot be asked
about, every module refuses with code 5; the other modules are not in this state, so it is a free choice whether they do
(spec/22 R411, log 22: DESIGN CHOICE). -/
def State.launchVerdict (s : State) (part : Nat) (bs : List Byte) (sys : Bool) : Nat :=
  let code := s.launchCode part bs sys
  if s.fabricLaunch (s.launchOfRecord 0 part 0 bs false none) then
    (if code != 0 || !s.groupRouted (s.fabgrp part) || s.choice 801 then 5 else 0)
  else code

/-- The physical address of the STATUS word in the record that a thread names, under the translation that the read of
the record used (log 34: DEDUCED). -/
def State.statusPlace (s : State) (a : Word) : Option Nat :=
  match s.translateRaw s.ctx.core s.level .read (a.toNat + 92) with
  | (_, .ok pa _) => some pa
  | _ => none

/-- LAUNCH once the record has been read. -/
def State.launchWith (s : State) (rd : Reg) (a : Word) (l : Launch) (bs : List Byte) : State :=
  let code := s.launchVerdict l.part bs l.system
  let stat := s.statusPlace a
  if code = 0 then ((s.acceptLaunch l.part a bs (launchRecOf bs).slevel stat).1.wr rd 0).retire
  else ((s.putStatus l.part stat (refusedStatus code)).wr rd (BitVec.ofNat 64 (2 ^ 63 + code))).retire

/-- LAUNCH (spec/21 R388): Submits a launch record, which is accepted or refused at once. -/
def execLaunch (rd ra : Reg) (s : State) : Res :=
  .next (if s.level = .u then s.privTrap
    else if !s.released s.ctx.core s.ctx.thr then s.stall .release
    else
      match s.coreLaunch s.ctx.core with
      | none => s.trap .loadFault (s.rd ra)
      | some l => s.imageRead (s.rd ra) 256 fun s bs =>
          match s.predaKnown l.part bs with
          | (s, true) => s.launchWith rd (s.rd ra) l bs
          | (s, false) => s.stall .translate)

/-! ### The start of a launch (R387, R389) -/

/-- Every core that a launch occupies. -/
def Launch.all (l : Launch) : List Nat := l.cores ++ l.shadows

/-- Is the predecessor word satisfied; none while home cannot serve it? A word that is unmapped or poisoned satisfies
nothing (log 35: DEDUCED). -/
def State.predecessor (s : State) (l : Launch) : Option Bool :=
  if l.record.preda = 0 then some true
  else
    match s.partMap false l.part .read l.record.preda.toNat 4 with
    | none => some false
    | some r =>
      if !r.2 && s.homeFreeAll r.1 then
        some (!(r.1.any fun pa => (s.homeByte pa).2) && l.record.predv.toNat ≤ leNat (r.1.map fun pa => (s.homeByte pa).1))
      else none

/-- Are the cores of a launch free? -/
def State.coresFree (s : State) (l : Launch) : Bool := l.all.all fun n => (s.core n).launch.isNone

/-- Do the cores of a launch still belong to its partition (spec/21 R400)? -/
def State.inside (s : State) (l : Launch) : Bool :=
  match s.partOf l.part with
  | some p => l.all.all fun n => p.clusters.contains (clusterOf n)
  | none => false

/-- Could a launch take cores now, if they were free: waiting with its conditions met, or saved (spec/21 R386, R389)? -/
def State.runnable (s : State) (l : Launch) : Bool :=
  match l.phase with
  | .waiting => l.ready && s.inside l && s.predecessor l = some true
  | .saved => s.inside l
  | _ => false

/-- Does a launch want a core of another? -/
def Launch.meets (a b : Launch) : Bool := a.all.any fun n => b.all.contains n

/-- The launches that come before one: those of higher priority, then those that arrived earlier (spec/21 R386; a
greater PRIO is a higher priority, log 36: DEDUCED). Arrival is the order of the list. -/
def State.ahead (s : State) (l : Launch) : List Launch :=
  let before := s.launches.takeWhile fun x => x.id != l.id
  s.launches.filter fun x =>
    x.part = l.part && x.id != l.id && x.meets l && s.runnable x
    && (l.record.prio.toNat < x.record.prio.toNat || (x.record.prio = l.record.prio && before.contains x))

/-- Does the scheduler give a launch its cores now? -/
def State.granted (s : State) (l : Launch) : Bool := s.runnable l && s.coresFree l && (s.ahead l).isEmpty

/-- Reads a partition's memory at home, page by page, with poison; bytes of a page that is not mapped are free
(log 37: DESIGN CHOICE). -/
def State.readLoose (s : State) (part : Nat) : Nat → Nat → Nat → List (Byte × Bool)
  | 0, _, _ => []
  | fuel + 1, va, size =>
    if size = 0 then []
    else
      let here := min size (0x10000 - va % 0x10000)
      let bs := match s.partTranslate true part .read va with
        | .ok pa _ => (List.range here).map fun k => s.homeByte (pa + k)
        | _ => (List.range here).map fun k => (s.freeAt 2 (va + k), false)
      bs ++ s.readLoose part fuel (va + here) (size - here)

/-- The image of a launch. -/
def State.launchImage (s : State) (l : Launch) : List (Byte × Bool) :=
  if !l.image.isEmpty then l.image.map fun b => (b, false)
  else s.readLoose l.part 3 l.record.img.toNat l.record.ilen

/-- Can a range of a partition's memory be read now, page by page, as far as it is mapped? What the host owns of it is
snooped (spec/21 R396). -/
def State.looseReady (s : State) (part : Nat) : Nat → Nat → Nat → State × Bool
  | 0, _, _ => (s, true)
  | fuel + 1, va, size =>
    if size = 0 then (s, true)
    else
      let here := min size (0x10000 - va % 0x10000)
      let r := s.partReach part .read va here
      let r' := r.1.looseReady part fuel (va + here) (size - here)
      (r'.1, r'.2 && r.2 != .wait)

/-- Can the image and the masks of a launch be read now? -/
def State.launchReady (s : State) (l : Launch) : State × Bool :=
  let r := l.record
  let a := if l.image.isEmpty then s.looseReady l.part 3 r.img.toNat r.ilen else (s, true)
  let n := if r.masks = 0 then 0 else (l.cores.length + 1) / 2
  let b := a.1.looseReady l.part 3 r.masks.toNat n
  (b.1, a.2 && b.2)

/-- The thread mask of a rank (R387). -/
def State.threadMask (s : State) (l : Launch) (rank : Nat) : BitVec 4 :=
  if l.record.masks = 0 then l.record.tmask
  else
    let b := ((s.readLoose l.part 1 (l.record.masks.toNat + rank / 2) 1).map Prod.fst).getD 0 0
    if rank % 2 = 0 then b.extractLsb' 0 4 else b.extractLsb' 4 4

/-- A thread of a launch at its first instruction (spec/03 R74). -/
def Launch.thread (l : Launch) (rank t : Nat) : Thread :=
  let r := l.record
  let i := BitVec.ofNat 64 (4 * rank + t)
  let regs : Regs :=
    { Regs.zero with
      g := set8 Regs.zero.g 5 (r.tpbase + i * BitVec.ofNat 64 r.tpstr)
      outs := set8 Regs.zero.outs 6 (r.stktop - i * BitVec.ofNat 64 r.stkstr) }
  let pwb : Vector Pwb 8 := (List.range 8).foldl (fun v k =>
    let w := (r.pw[k]? : Option PwRec).getD ⟨0, 0, false⟩
    set8 v (BitVec.ofNat 3 k) ⟨w.base.extractLsb' 4 51, w.bound, BitVec.ofNat 17 w.size⟩) Special.zero.pwb
  { Thread.init with
    pc := r.entry
    level := if r.slevel then .s else .u
    regs := regs
    sp := { Special.zero with pwb := pwb }
    run := { Run.idle with life := .live } }

/-- A core as a launch starts it: the image at local address 0, the rest of local memory zero, the threads of its mask
(R387); lockstep begins with a checkpoint (spec/10 R212). LQUOTA and MXCAP stay as they were set before the launch
(spec/14 R275, log 87: DEDUCED); DOM.TABLE is 0 unless LEVEL is 4 (spec/16 R295). -/
def Core.started (c : Core) (l : Launch) (rank : Nat) (mask : BitVec 4) (image : List (Byte × Bool)) (pms : List Word) :
    Core :=
  let psn := (rowsOf 0 image.length).filter fun r => ((image.drop (16 * r)).take 16).any Prod.snd
  let thr : Vector Thread 4 := (List.range 4).foldl (fun v t =>
    if mask.getLsbD t then set4 v (tid t) (l.thread rank t) else v) (Vector.replicate 4 Thread.init)
  let sel : Vector (BitVec 11) 4 := (List.range 4).foldl (fun v k =>
    set4 v (tid k) ((pms.getD k 0).setWidth 11)) (Vector.replicate 4 0)
  let regs : CoreRegs :=
    { Core.init.regs with
      dom := ⟨l.record.level, if l.record.level = 4 then l.record.table else 0, false, 0, 0⟩
      pm := ⟨sel, Vector.replicate 4 0⟩
      lquota := c.regs.lquota, mxen := c.regs.mxen, mxacc := c.regs.mxacc, mxmask := c.regs.mxmask }
  { Core.init with
    thr := thr
    mem := { c.mem with lmem := cellsWrite [] 0 (image.map Prod.fst), lpsn := psn, cc := [] }
    regs := regs
    req := c.req
    eng := { Core.init.eng with inbox := c.eng.inbox }
    launch := some l.id }

/-- Both cores of a lockstep pair take their places. -/
def Core.paired (c : Core) (shadow : Bool) : Core :=
  { c with lock := { c.lock with en := true, shadow := shadow, saved := c.thr.toList, engs := some c.eng } }

/-- The counter selections that a replay gives a rank (spec/16 R320). -/
def Replay.selects (r : Replay) (rank : Nat) : List Word := (r.table.drop (4 * rank)).take 4

/-- One core of a launch starts, with its shadow, which runs the same threads (spec/10 R212). -/
def State.startCore (s : State) (l : Launch) (image : List (Byte × Bool)) (rank n : Nat) : State :=
  let mask := s.threadMask l rank
  let pms := (l.replay.map fun r => r.selects rank).getD []
  let paired := l.shadows.contains (n + 1) && n % 2 = 0
  let s1 := s.onCore n fun c => if paired then (c.started l rank mask image pms).paired false else c.started l rank mask image pms
  if paired then s1.onCore (n + 1) fun c => (c.started l rank mask image pms).paired true else s1

/-- The L1 caches of fused clusters are emptied where fusion begins or ends (spec/13 R254, log 38: DEDUCED). -/
def State.switchFusion (s : State) (l : Launch) : State :=
  if l.fused then l.all.foldl (fun s n => s.flushL1 n fun _ => true) s else s

/-- What the L1 of a core holds that becomes a lockstep shadow is written back before the pair begins (spec/10 R196). -/
def State.emptyShadows (s : State) (l : Launch) : State := l.shadows.foldl (fun s n => s.flushL1 n fun _ => true) s

/-- A core leaves its pair: what a shadow's L1 holds are its leader's words, and they are dropped. -/
def Core.unpaired (c : Core) : Core := if c.lock.shadow then { c with mem := { c.mem with l1 := [] } } else c

/-- A launch takes its cores (R387, R389). -/
def State.startLaunch (s : State) (l : Launch) : State :=
  let image := s.launchImage l
  let s1 := (s.switchFusion l).emptyShadows l
  let s2 := ((List.range l.cores.length).zip l.cores).foldl (fun s p => s.startCore l image p.1 p.2) s1
  (s2.onLaunch l.id fun l => { l with phase := .running, used := 0 }).refreshSeqs l.part

/-- LAUNCH_START (spec/21 R389): An accepted launch begins once its predecessor word is satisfied and its cores are
free. Words that the host owns are snooped first. -/
def execLaunchStart (launch : Nat) (s : State) : Res :=
  .next (match s.launchOf launch with
    | some l =>
      if l.phase == .waiting && (s.predecessor l).isNone then (s.partReach l.part .read l.record.preda.toNat 4).1
      else if l.phase == .waiting && s.granted l then
        match s.launchReady l with
        | (s, true) => s.startLaunch l
        | (s, false) => s
      else s
    | none => s)

/-! ### The end of a launch (R389) -/

/-- Has every thread of a launch stopped, and are its engines idle? Whether the threads of a fabric launch on other modules have
is a free choice (log 22: DESIGN CHOICE). -/
def State.finished (s : State) (l : Launch) : Bool :=
  (!s.fabricLaunch l || s.choice 806) && l.all.all fun n => s.enginesIdle n && (s.core n).activeThreads.isEmpty

/-- Frees the cores of a launch, and ends the supersteps of its domains. -/
def State.freeCores (s : State) (l : Launch) : State :=
  let s1 := l.all.foldl (fun s n => s.onCore n fun c =>
    { c.unpaired with launch := none, lock := { Core.init.lock with retire := c.lock.retire }, gang := [] }) (s.switchFusion l)
  { s1 with bars := s1.bars.filter fun b => b.key.launch != l.id }

/-- The status that the end of a launch leaves. -/
def Launch.endStatus (l : Launch) : BitVec 32 := l.status ||| (if l.faulted then 0x600 else 0x200)

/-- A launch completes: the completion word, then STATUS; its cores are free. -/
def State.completeLaunch (s : State) (l : Launch) : State :=
  let v : BitVec 32 := if l.faulted then 0xFFFFFFFF else l.record.donev
  let s1 := s.through l.part l.record.donea.toNat (leBytes 4 v.toNat)
  let s2 := (s1.putStatus l.part l.stat l.endStatus).freeCores l
  (s2.onLaunch l.id fun x =>
    { x with phase := .done, status := l.endStatus, replay := x.replay.map fun r => { r with recording := false, replaying := false } }).refreshSeqs l.part

/-- LAUNCH_COMPLETE (spec/21 R389): Every thread has stopped; the completion word is written and STATUS is set. -/
def execLaunchComplete (launch : Nat) (s : State) : Res :=
  .next (match s.launchOf launch with
    | some l => if (l.phase == .running || l.phase == .preempting) && s.finished l then s.completeLaunch l else s
    | none => s)

end Sys2Proof.Machine
end

