-- ==== Sys2Proof/Machine/HostMemory.lean ====
section
/-!
DEFINITION. The host's half of a line: host writes, host reads, replies to back-invalidate snoops and their time-out
(spec/21 R384, R396).
-/
set_option linter.constructorNameAsVariable false

namespace Sys2Proof.Machine

/-- Does a path of the host lead to a half of device memory: CXL.mem, or the BAR2 of a partition's function, which is there
while some partition is (R383)? The spec maps no BAR2 offset of a function to a device address, so both name a half of
device memory (log 91: DEDUCED). -/
def State.hostReaches (s : State) (cxl : Bool) (half : Nat) : Bool :=
  s.host.cxl == cxl && deviceOk (halfAddr half) && (cxl || !s.parts.isEmpty)

/-- HOST_WRITE over CXL.mem or BAR2, whichever the link has trained to (R383, R396). Each is performed whole, in the order
they arrive (R384): one that home cannot take now lets the later ones wait. -/
def execHostWrite (cxl : Bool) (half : Nat) (bytes : List (Option Byte)) (s : State) : Res :=
  .next (if s.hostReaches cxl half then s.later 0 (.hostWrite cxl half bytes) else s)

/-- HOST_READ (R396): a read miss at home; no ownership. -/
def execHostRead (half : Nat) (s : State) : Res :=
  .next (if s.hostReaches s.host.cxl half then s.later 0 (.hostRead half) else s)

/-- Does the reply to a snoop of a half wait at home? -/
def State.replyWaits (s : State) (half : Nat) : Bool := s.mem.late.any fun l => l.lane = (1, half)

/-- SNOOP_REPLY (R396): merged as a host write; the half's host-owned words stand with SEL 00. -/
def execSnoopReply (half : Nat) (bytes : List (Option Byte)) (s : State) : Res :=
  .next (if !s.mem.snoops.contains half || s.replyWaits half then s else s.later 0 (.hostReply half bytes))

/-- A free unit kind of a machine-error record, one that the part writes (spec/21 R398; log 41: DESIGN CHOICE). -/
def State.freeUnit (s : State) (k : Nat) : Nat := 1 + (s.free k).toNat % 11

/-- SNOOP_TIMEOUT (R384): the half is poisoned at home, a record is written. -/
def execSnoopTimeout (half : Nat) (s : State) : Res :=
  .next (if !s.mem.snoops.contains half || s.replyWaits half then s
    else
      let num := halfLine half
      let s1 := s.hostGives num (halfWords half)
      let s2 := (wordsOf (halfWords half)).foldl (fun s w => s.setPsn num w true) s1
      (s2.snoopDone half).machineRecord (s2.clusterPart (homeCluster num)) 18 (s2.freeUnit 40)
        (s2.free 41).toNat (halfAddr half) 0 0)

end Sys2Proof.Machine
end

