-- ==== Sys2Proof/Machine/EngineRun.lean ====
section
/-!
DEFINITION. The engines at work: the run of the vector-stream, matrix and copy operations and their completion
(spec/10 R203-R207; spec/11 R223, R231, R235, R238, R240, R241; spec/16 R316; spec/17 R348; spec/18 R359).
-/
set_option linter.constructorNameAsVariable false

namespace Sys2Proof.Machine

/-- How a run ends: it waits, it asks for bytes of the fabric window, or it has performed its last write, with its failure
and flags. -/
def State.endRun (s : State) (n : Nat) (e : Eng) (c : Cmd) (r : State × Moved) (flags : Flags) : State :=
  match r.2 with
  | .wait => s.waits r.1
  | .away pas => (s.waits r.1).fetchAway n c pas
  | .done => r.1.ran n e c.id none flags
  | .fail why addr => r.1.ran n e c.id (some (engTval e why addr)) flags

/-- The operation at the head of a vector-stream or copy queue, when it has yet to run (spec/10 R203). -/
def State.headToRun (s : State) (n : Nat) (e : Eng) : Option Cmd :=
  match s.queue n e with
  | c :: _ => if c.ran then none else some c
  | [] => none

/-- The run of a vector-stream operation. -/
def State.runVs (s : State) (n : Nat) (c : Cmd) : State :=
  match c.instr with
  | .tap _ _ _ _ t => s.endRun n .vs c (s.runTap n c t.toNat) 0
  | _ =>
    let r := s.runStream n c
    r.1.ran n .vs c.id none r.2

/-- VSTREAM_OP_RUN (spec/11 R223): A queued vector-stream operation begins once the operation ahead of it has
completed, and runs element by element.
(log 26: DEDUCED) -/
def execVstreamOpRun (core : Nat) (s : State) : Res :=
  .next (match s.headToRun core .vs with
    | some c => if s.mayBegin core c then s.runVs core c else s
    | none => s)

/-- May a matrix operation begin? The accesses that came before its issue have been performed (spec/10 R204). MXSTAT reads once every operation ahead of it has completed (spec/11 R235), another once
the one ahead has consumed its operands. -/
def State.matrixReady (s : State) (n : Nat) (c : Cmd) : Bool :=
  s.mayBegin n c && match c.instr with
  | .mxstat _ _ => (s.queue n .mx).head? == some c
  | _ => true

/-- MATRIX_OP_RUN (spec/11 R231): A queued matrix operation begins once the one ahead has consumed its operands. -/
def execMatrixOpRun (core : Nat) (s : State) : Res :=
  .next (match (s.toRun core .mx).filter (s.matrixReady core) with
    | some c =>
      let r := s.runMatrix core c
      (r.1.ran core .mx c.id r.2.1 0).onCmd core .mx c.id fun c => { c with x := r.2.2 }
    | none => s)

/-- The run of a copy operation (spec/11 R240-R244; spec/17 R348). -/
def State.runCp (s : State) (n : Nat) (c : Cmd) : State :=
  match c.instr with
  | .kvld _ _ _ _ _ =>
    let r := s.runKvld n c
    s.endRun n .cp c (r.1, r.2.1) (if r.2.2 then flagKVNF else 0)
  | .kvapp _ _ _ _ => s.endRun n .cp c (s.runKvapp n c) 0
  | _ => s.endRun n .cp c (s.runCopy n c) 0

/-- COPY_OP_RUN (spec/11 R240): A queued copy-engine operation begins and moves its bytes. -/
def execCopyOpRun (core : Nat) (s : State) : Res :=
  .next (match s.headToRun core .cp with
    | some c => if c.moved then s.sendOut core c else if s.copyReady core c then s.runCp core c else s
    | none => s)

/-! ### Completion (spec/10 R205, R207) -/

/-- The notify word that an operation writes: its address and bytes (spec/11 R238, R241). -/
def Cmd.notifies (c : Cmd) : Option (Word × List Byte) :=
  match c.instr, c.notify with
  | .cpyn _ _ _ _ v, _ => some (c.c, leBytes 4 (if c.fail.isSome then 0xFFFFFFFF else v.toNat))
  | _, some a => some (a, leBytes 8 (c.fail.getD 1).toNat)
  | _, none => none

/-- An operation leaves its queue: an MXSTAT's value lands, its tag clears, a failure is traced and stays unreported, as
its flags do, until an instruction covers it. The record of a remote command names the thread as far as two bits hold it, and
address 0 (spec/16 R316 says neither; log 116: DESIGN CHOICE). -/
def State.finish (s : State) (n : Nat) (e : Eng) (c : Cmd) : State :=
  let s1 := s.onQueue n e fun q => q.filter fun x => x.id != c.id
  let s2 := match c.fail with
    | some v => s1.traceRec n (c.thr % 4) 6 c.pc v
    | none => s1
  if 4 ≤ c.thr then s2
  else
    let t := tid c.thr
    let s3 := (s2.supply n t c.id c.x).untrack n t c.id
    let s4 := match (s3.thread n t).run.pend.find? fun a => a.id = c.id with
      | some a => s3.lands n t a
      | none => s3
    if c.fail.isNone && c.flags == 0 then s4
    else s4.onCore n fun k => { k with eng := { k.eng with done := k.eng.done ++ [⟨c.id, c.thr, c.tag, e, c.fail, c.flags⟩] } }

/-- A notify word that cannot be written: a CPYN fails with its address unless its payload had failed; a remote command
sets NFAULT. -/
def State.notifyFails (s : State) (n : Nat) (e : Eng) (c : Cmd) (why addr : Nat) : State :=
  match c.instr with
  | .cpyn _ _ _ _ _ => s.finish n e { c with fail := c.fail.orElse fun _ => some (engTval e why addr) }
  | _ => (s.onMat n fun m => { m with nfault := true }).finish n e c

/-- An operation whose notify word has been written leaves its queue once the word has reached the fabric window, where it
lies there. -/
def State.finishTold (s : State) (n : Nat) (e : Eng) (c : Cmd) : State :=
  if c.out.isEmpty && c.away.isEmpty then s.finish n e c else s.sendOut n c

/-- Completes the operation at the head of a queue, its notify word last. -/
def State.completeOp (s : State) (n : Nat) (e : Eng) (c : Cmd) : State :=
  if c.told then s.finishTold n e c
  else
    match c.notifies with
    | none => s.finish n e c
    | some (a, bs) =>
      match s.notify n c.id c.level a bs with
      | (r, .fail why addr) => r.notifyFails n e c why addr
      | (r, .done) =>
        let r := r.onCmd n e c.id fun c => { c with told := true }
        ((r.queue n e).head?.map fun c => r.finishTold n e c).getD r
      | (r, _) => s.waits r

/-- ENGINE_OP_COMPLETE (spec/10 R205): An engine operation's last write is performed; its tag clears and any notify
word is written. -/
def execEngineOpComplete (core : Nat) (eng : Eng) (s : State) : Res :=
  .next (match s.queue core eng with
    | c :: _ => if c.ran then s.completeOp core eng c else s
    | [] => s)

end Sys2Proof.Machine
end

