-- ==== Sys2Proof/Machine/Preempt.lean ====
section
/-!
DEFINITION. Pre-emption: blocking points, parking, the saved context, resumption, the time-out, the scheduler's slices
(spec/16 R309-R312; spec/21 R386).
-/
set_option linter.constructorNameAsVariable false

namespace Sys2Proof.Machine

/-! ### Blocking points (R309) -/

/-- Instructions that are blocking points before they look at their condition: WAITW, DQPOP.wait, CXSETTLE, CXWAITB.
(log 74: DEDUCED) -/
def Instr.parksAt : Instr → Bool
  | .waitw _ _ _ _ _ _ | .dqpop _ true | .cxsettle _ _ | .cxwaitb _ _ _ _ => true
  | _ => false

/-- The address of an access that is synchronous: LD.acq, LDX.acq, LDL.acq, AMO and CAS with `.acq` or `.ar`. -/
def State.syncAddr (s : State) : Instr → Option Word
  | .ld _ ra d wd true => some (s.addrUnits ra d (wsize wd))
  | .ldx _ ra rb wd true => some (s.addrIndex ra rb (wsize wd))
  | .ldl _ ra d _ true => some (s.addrLong ra d)
  | .amo _ ra _ _ _ .acq | .amo _ ra _ _ _ .ar | .cas _ ra _ _ _ .acq | .cas _ ra _ _ _ .ar => some (s.rd ra)
  | _ => none

/-- Is an address a peer's or global? -/
def remoteAddr (a : Word) : Bool :=
  match zoneOf a.toNat with
  | .peer _ _ | .global => true
  | _ => false

/-- Does an instruction's completion stand at a blocking point: one of those that park before their condition, or a
synchronous access to a peer or global value? -/
def State.blockingInstr (s : State) (i : Instr) : Bool :=
  Instr.parksAt i || match s.syncAddr i with | some a => remoteAddr a | none => false

/-- Does a thread wait at a blocking point? -/
def Thread.blocked (t : Thread) : Bool :=
  match t.run.wait with
  | some (.sync _) => t.run.arrived.isSome
  | some (.passed _) | some .deque | some (.word _ _ _ _) | some (.wordAway _ _ _ _) | some (.wordGot _ _ _ _) | some (.settle _)
  | some (.block _ _ _) | some (.spilled _ _ _) => true
  | some (.remote id) => t.run.pend.any fun a => a.id = id && a.fmt != ResultFmt.vec && a.kind != .penal
  | some .windows => t.run.pend.any fun a =>
    a.dest.any Dest.windowed && (a.kind == .load || a.kind == .atomic) && remoteAddr a.addr
  | _ => false

/-- Is the launch of a core being pre-empted? -/
def State.preempting (s : State) (n : Nat) : Bool := (s.coreLaunch n).any fun l => l.phase == .preempting

/-- A thread parks. -/
def State.park (s : State) (n : Nat) (t : BitVec 2) : State :=
  s.onThread n t fun th => { th with run := { th.run with parked := true } }

/-- After a look of a thread whose context is to be pre-empted: it parks at a blocking point, waiting there or, with
`blocking`, having completed it (R309.2, spec/13 R273). -/
def State.parkIfBlocked (s : State) (n : Nat) (t : BitVec 2) (blocking : Bool) : State :=
  let th := s.thread n t
  if s.preempting n && th.run.life == .live && (th.blocked || (blocking && s.ctx.fate = .issued)) then s.park n t else s

/-- A parked thread that still completes the synchronous access it waits in (R309.3). -/
def Thread.completing (t : Thread) : Bool :=
  match t.run.wait with
  | some (.got _) | some .windows => true
  | _ => false

/-! ### Requesting pre-emption -/

/-- The scheduler requests the pre-emption of a launch: the threads at blocking points park. -/
def State.preempt (s : State) (l : Launch) : State :=
  let s1 := s.onLaunch l.id fun l => { l with phase := .preempting, since := 0 }
  l.all.foldl (fun s n => (List.range 4).foldl (fun s k =>
    let th := s.thread n (tid k)
    if th.run.life == .live && th.blocked then s.park n (tid k) else s) s) s1

/-- Does another launch that could run want the cores of a launch; with `above`, one of higher priority
(spec/21 R386)? -/
def State.wanted (s : State) (l : Launch) (above : Bool) : Bool :=
  s.launches.any fun x =>
    x.id != l.id && x.part = l.part && x.meets l && s.runnable x && (!above || l.record.prio.toNat < x.record.prio.toNat)

/-- The time slice of a partition (spec/21 R385). -/
def Partition.sliceCycles (p : Partition) : Nat := if p.slice = 0 then 12000000 else p.slice

/-- The slice of a launch's partition. -/
def State.sliceOf (s : State) (l : Launch) : Nat := ((s.partOf l.part).map Partition.sliceCycles).getD 12000000

/-- PREEMPT_REQUEST (spec/16 R309): The partition scheduler requests pre-emption, and threads park at their blocking
points. A fabric launch is pre-empted with its parts on the other modules, one of which may have asked for it (spec/22 R412;
log 22: DESIGN CHOICE). -/
def execPreemptRequest (launch : Nat) (s : State) : Res :=
  .next (match s.launchOf launch with
    | some l => if l.phase == .running && (s.wanted l true || s.fabricLaunch l) then s.preempt l else s
    | none => s)

/-- TIME_SLICE_EXPIRY (spec/21 R386): A context's time slice ends while others wait, and it is pre-empted. -/
def execTimeSliceExpiry (launch : Nat) (s : State) : Res :=
  .next (match s.launchOf launch with
    | some l => if l.phase == .running && s.sliceOf l ≤ l.used && s.wanted l false then s.preempt l else s
    | none => s)

/-! ### Saving the context (R309.3-4, R310) -/

/-- A live thread that has parked; one of a frozen domain counts as parked (R313). -/
def State.parkedNow (s : State) (n : Nat) (t : BitVec 2) : Bool :=
  (s.thread n t).run.life != .live || s.frozen n || ((s.thread n t).run.parked && !(s.thread n t).completing)

/-- Are a core's asynchronous results (REDVs apart, which are saved with the domain), engine operations, registrations,
pushes and remote accesses complete? -/
def State.settledCore (s : State) (n : Nat) : Bool :=
  (List.range 4).all (fun k => (s.thread n (tid k)).run.pend.all fun a => a.kind == .redv)
  && s.enginesIdle n
  && (s.sharers n).all (fun k => (s.outRegs k).all fun r => r.src != n)
  && (s.core n).req.pushes.isEmpty
  && s.mem.homeq.all (fun r => r.src != n)
  && s.mem.pushes.all (fun p => p.core != n)
  && s.fabric.remote.all fun r => r.core != n

/-- Can the context be saved? -/
def State.savable (s : State) (l : Launch) : Bool :=
  l.all.all s.settledCore && l.cores.all (fun n => (List.range 4).all fun k => s.parkedNow n (tid k))
  && s.bars.all fun b => b.key.launch != l.id || !b.phase

/-- A core's saved context: its caches are not part of it.
(log 75: DEDUCED) -/
def Core.context (c : Core) : Core :=
  { c with
    thr := [0#2, 1#2, 2#2, 3#2].foldl (fun v i => set4 v i (get4 v i).discard) c.thr
    mem := { Core.init.mem with lmem := c.mem.lmem, lpsn := c.mem.lpsn }
    req := Core.init.req }

/-- A core whose context is out: its caches stay, with what reaches it from outside (R310), and the mark that its pair is to
be retired (spec/10 R216). -/
def Core.emptied (c : Core) : Core :=
  { Core.init with
    mem := { c.unpaired.mem with lmem := [], lpsn := [], cc := [] }
    req := c.req
    regs := { Core.init.regs with
      lquota := c.regs.lquota, mxen := c.regs.mxen, mxacc := c.regs.mxacc, mxmask := c.regs.mxmask }
    lock := { Core.init.lock with retire := c.lock.retire }
    eng := { Core.init.eng with inbox := c.eng.inbox } }

/-- The context of a launch is saved and its cores are free; it queues behind the launches of its priority. -/
def State.saveContext (s : State) (l : Launch) : State :=
  let s1 := l.all.foldl (fun s n => (List.range 4).foldl (fun s k => s.endHolds n (tid k)) s) s
  let s2 := s1.switchFusion l
  let saved := l.all.map fun n => (n, (s2.core n).context)
  let bars := s2.bars.filter fun b => b.key.launch = l.id
  let s3 := l.all.foldl (fun s n => s.onCore n Core.emptied) s2
  match s3.launchOf l.id with
  | some x =>
    let x1 : Launch := { x with phase := .saved, saved := saved, savedB := bars }
    ({ s3 with
      bars := s3.bars.filter fun b => b.key.launch != l.id
      launches := (s3.launches.filter fun (y : Launch) => y.id != l.id) ++ [x1] }).refreshSeqs l.part
  | none => s3

/-- CONTEXT_SAVE (spec/16 R309): After every thread has parked and all work has drained, the context is saved and the
cores are freed. -/
def execContextSave (launch : Nat) (s : State) : Res :=
  .next (match s.launchOf launch with
    | some l => if l.phase == .preempting && s.savable l then s.saveContext l else s
    | none => s)

/-! ### Resuming it (R311) -/

/-- A thread as it resumes: a WAITW reads its word again; DQPOP.wait, CXSETTLE, CXWAITB and a KVLD of a spilled page
execute again from the start. -/
def Thread.resumed (t : Thread) : Thread :=
  let w : Option Wait := match t.run.wait with
    | some (.word ps b a _) | some (.wordAway _ ps b a) | some (.wordGot ps b a _) => some (.word ps b a true)
    | some .deque | some (.steal _ _) | some (.settle _) | some (.block _ _ _) | some (.granted _) | some (.spilled _ _ _) => none
    | w => w
  { t with run := { t.run with wait := w, parked := false } }

/-- A saved core takes its place beside the caches that the core has now. -/
def Core.restored (saved c : Core) : Core :=
  { saved with
    thr := [0#2, 1#2, 2#2, 3#2].foldl (fun v i => set4 v i (get4 v i).resumed) saved.thr
    mem := { c.mem with lmem := saved.mem.lmem, lpsn := saved.mem.lpsn, cc := [] }
    req := c.req
    eng := { saved.eng with inbox := c.eng.inbox } }

/-- The context of a launch resumes on the cores it ran on. -/
def State.resumeContext (s : State) (l : Launch) : State :=
  let s1 := l.saved.foldl (fun s p => s.onCore p.1 fun c => p.2.restored c) ((s.switchFusion l).emptyShadows l)
  let s2 : State := { s1 with bars := s1.bars ++ l.savedB }
  (s2.onLaunch l.id fun x => { x with phase := .running, used := 0, since := 0, saved := [], savedB := [] }).refreshSeqs
    l.part

/-- CONTEXT_RESUME (spec/16 R311): A saved context resumes on cores with the same numbers, restoring its wake
conditions; one of a fabric launch once the other modules are ready too, which is free (spec/22 R412;
log 22: DESIGN CHOICE). -/
def execContextResume (launch : Nat) (s : State) : Res :=
  .next (match s.launchOf launch with
    | some l => if l.phase == .saved && s.granted l && (!s.fabricLaunch l || s.choice 803) then s.resumeContext l else s
    | none => s)

/-! ### The time-out (R312) -/

/-- Cycles of grace after the request: 2 ms.
(log 68: DEDUCED) -/
def graceCycles : Nat := 2400000

/-- The live threads of a launch that have not parked; a lockstep pair's once. A parked thread that still completes its access
has parked. -/
def State.unparked (s : State) (l : Launch) : List (Nat × Nat) :=
  l.cores.flatMap fun n => ((List.range 4).filter fun k =>
    !s.parkedNow n (tid k) && !(s.thread n (tid k)).run.parked).map fun k => (n, k)

/-- A context is faulted: one record for each unparked thread, every thread stopped. -/
def State.timeOut (s : State) (l : Launch) : State :=
  let s1 := (s.unparked l).foldl (fun s p =>
    s.contextRecord p.1 p.2 17 0 (s.thread p.1 (tid p.2)).pc.toNat (s.sliceOf l)) s
  let s2 := l.all.foldl (fun s n => (List.range 4).foldl (fun s k =>
    if (s.thread n (tid k)).run.life == .live then
      (s.endHolds n (tid k)).onThread n (tid k) fun t => { t with run := { t.run with life := .faulted, wait := none } }
    else s) s) s1
  s2.onLaunch l.id fun x => { x with faulted := true }

/-- PREEMPT_TIMEOUT (spec/16 R312): The pre-emption grace expires with threads unparked, and the context is faulted.
-/
def execPreemptTimeout (launch : Nat) (s : State) : Res :=
  .next (match s.launchOf launch with
    | some l =>
      if l.phase == .preempting && graceCycles ≤ l.since && !(s.unparked l).isEmpty then s.timeOut l else s
    | none => s)

end Sys2Proof.Machine
end

