-- ==== Sys2Proof/Machine/Host.lean ====
section
/-!
DEFINITION. The management mailboxes and the management requests (spec/21 R385, R399, R400, R402, R403).
-/
set_option linter.constructorNameAsVariable false

namespace Sys2Proof.Machine

/-! ### Mailboxes (R399) -/

/-- A mailbox that nothing has used. -/
def Mailbox.init : Mailbox :=
  ⟨false, false, 0, 0, false, 0, List.replicate 256 0, List.replicate 256 0, List.replicate 256 0, none⟩

/-- MBSTAT as the host reads it: BUSY, DONE, RESULT of the last request decided, its SEQ. -/
def Mailbox.stat (b : Mailbox) : Word :=
  BitVec.ofNat 64 (bit1 b.busy + 2 * bit1 b.done + 2 ^ 8 * b.result.toNat + 2 ^ 32 * b.seq.toNat)

/-- A byte of BAR0 as the host reads it. -/
def Mailbox.byte (b : Mailbox) (off : Nat) : Byte :=
  if 8 ≤ off ∧ off < 16 then b.stat.extractLsb' (8 * (off - 8)) 8
  else if off = 0x10 then BitVec.ofNat 8 (bit1 b.irq)
  else if 0x100 ≤ off ∧ off < 0x200 then b.req.getD (off - 0x100) 0
  else if 0x200 ≤ off ∧ off < 0x300 then b.rsp.getD (off - 0x200) 0
  else 0

/-- The mailbox of a function. -/
def State.box (s : State) (fn : Nat) : Mailbox := (assoc s.host.boxes fn).getD Mailbox.init

/-- Changes the mailbox of a function. -/
def State.onBox (s : State) (fn : Nat) (f : Mailbox → Mailbox) : State :=
  { s with host := { s.host with boxes := assocPut s.host.boxes fn (f (s.box fn)) } }

/-- Bytes, cut or filled with zeros to a length. -/
def fitted (n : Nat) (bs : List Byte) : List Byte := (bs ++ List.replicate (n - bs.length) 0).take n

/-- A request completes: MBRSP, BUSY, DONE, RESULT, the signal. -/
def Mailbox.complete (b : Mailbox) (result : Nat) (bytes : List Byte) : Mailbox :=
  { b with
    busy := false
    done := true
    result := BitVec.ofNat 8 result
    signal := b.signal + bit1 b.irq
    rsp := b.taken.take 2 ++ leBytes 1 result ++ [0] ++ (b.taken.drop 4).take 4 ++ fitted 248 bytes
    next := none }

/-- Completes a request. -/
def State.mbComplete (s : State) (fn result : Nat) (bytes : List Byte) : State := s.onBox fn fun b => b.complete result bytes

/-- A request has been carried out; its completion is to come. -/
def State.mbAnswer (s : State) (fn result : Nat) (bytes : List Byte) : State :=
  s.onBox fn fun b => { b with next := some (result, bytes) }

/-- The part reads MBREQ: BUSY, SEQ. -/
def State.mbTake (s : State) (fn : Nat) : State :=
  s.onBox fn fun b =>
    { b with
      busy := true
      done := false
      taken := b.req
      next := none
      seq := BitVec.ofNat 32 (recField b.req 4 4) }

/-- Debug requests (R401). -/
def debugCode (code : Nat) : Bool := 0x30 ≤ code && code ≤ 0x38

/-- Requests that R400 and R401 list. -/
def listedCode (code : Nat) : Bool := debugCode code || [1, 2, 3, 4, 0x10, 0x20].contains code

/-- The refusal that a request meets before its own checks: not permitted from the function, no such partition, DEBUG
clear (R399). -/
def State.mbRefusal (s : State) (fn code : Nat) (req : List Byte) : Option Nat :=
  let part := recField req 8 1
  let p := s.partOf part
  let debug := p.any Partition.debug
  if fn != 0 && !(fn = part && p.isSome && (code = 0x20 || (debugCode code && debug))) then some 2
  else if [2, 3, 0x20].contains code || debugCode code then
    (if p.isNone then some 3 else if debugCode code && !debug then some 5 else none)
  else none

/-- A doorbell that submits a request of a code: nothing while BUSY; a refusal completes at once; else `k` carries the
request out.
(log 71: DEDUCED) -/
def State.submit (s : State) (fn code : Nat) (k : State → List Byte → State) : State :=
  let b := s.box fn
  if b.busy || recField b.req 0 2 != code then s
  else
    match s.mbRefusal fn code b.req with
    | some r => (s.mbTake fn).mbComplete fn r []
    | none => k (s.mbTake fn) b.req

/-- Bytes written to a buffer in host memory (R400). -/
def State.hostBuffer (s : State) (a : Nat) (bs : List Byte) : State :=
  { s with host := { s.host with mem := cellsWrite s.host.mem a bs } }

/-- MBDOOR without a listed request (R399): ignored unless 1 is written, ignored while BUSY; RESULT 1, and from a virtual
function, which may issue no such request, 2. -/
def execMbdoor (fn value : Nat) (s : State) : Res :=
  let b := s.box fn
  .next (if value != 1 || b.busy || listedCode (recField b.req 0 2) then s
    else (s.mbTake fn).mbComplete fn (if fn = 0 then 1 else 2) [])

/-- A byte written to a mailbox register: MBCTL.IRQ or MBREQ; others are ignored. -/
def Mailbox.put (b : Mailbox) (off : Nat) (x : Byte) : Mailbox :=
  if off = 0x10 then { b with irq := x.getLsbD 0 }
  else if 0x100 ≤ off ∧ off < 0x200 then { b with req := b.req.set (off - 0x100) x }
  else b

/-- HOST_MMIO_WRITE (spec/21 R399): A host write to a mailbox register that has no behaviour of its own. -/
def execHostMmioWrite (fn off : Nat) (bytes : List Byte) (s : State) : Res :=
  .next (s.onBox fn fun b => ((List.range bytes.length).zip bytes).foldl (fun b p => b.put (off + p.1) p.2) b)

/-! ### Free choices of the management controller -/

/-- Picks `n` numbers of a list, each a free choice among those left.
(log 69: DESIGN CHOICE) -/
def State.pickN (s : State) : Nat → Nat → List Nat → List Nat
  | 0, _, _ => []
  | n + 1, k, l =>
    match l[(s.free k).toNat % l.length]? with
    | some x => insertNat x (s.pickN n (k + 1) (l.filter (· != x)))
    | none => []

/-- Is a core of a cluster retired, with no spare in its place (R397)? -/
def State.lostCluster (s : State) (c : Nat) : Bool :=
  s.errs.retired.any fun u => match u with | .core n => clusterOf n = c | _ => false

/-- Clusters of the package that belong to no partition and are whole. -/
def State.freeClusters (s : State) : List Nat :=
  (List.range 3200).filter fun c => !(s.parts.any fun p => p.clusters.contains c) && !s.lostCluster c

/-- Domain table entries that no partition owns. -/
def State.freeEntries (s : State) : List Nat :=
  (List.range 256).filter fun k => (assoc s.domtab k).all fun e => e.owner.isNone

/-! ### CREATE_PARTITION (R385, R400) -/

/-- Bytes of device memory at home. -/
def State.deviceBytes (s : State) (pa n : Nat) : List Byte := s.homeBytes pa n

/-- The physical addresses of a range. -/
def addrs (pa n : Nat) : List Nat := (List.range n).map (pa + ·)

/-- FABGRP at creation: set by the management controllers of the group, so free, but for the own bit
(spec/22 R408). -/
def State.newGroup (s : State) : Word := s.free 90 ||| ((1#64) <<< s.fabric.module.toNat)

/-- The partition that a boot record describes. -/
def State.newPart (s : State) (vf : Nat) (clusters entries : List Nat) (boot : List Byte) : Partition where
  id := vf
  vf := vf
  clusters := clusters
  inbox := BitVec.ofNat 64 (recField boot 8 8)
  fault := BitVec.ofNat 64 (recField boot 16 8)
  control := BitVec.ofNat 64 (recField boot 24 8)
  kvmax := recField boot 32 8
  slice := recField boot 40 8
  hand := 0
  debug := recField boot 48 1 % 2 = 1
  entries := entries
  meas := List.replicate 64 0
  points := []
  taph := ⟨false, false, 0, 0⟩
  tapq := []
  seqbase := 0
  seqen := false
  fabgrp := s.newGroup
  ptbr := 0
  asid := 0
  trace := none

/-- The controller's assignments: clusters, entries, the entry that covers the whole partition, byte 49. -/
def State.assign (s : State) (p : Partition) (boot : Nat) : State × Nat :=
  let first := p.entries.headD 0
  let tab := p.entries.foldl (fun t k =>
    assocPut t k (if k = first then ⟨p.clusters, 0xFFFFFFFF, true, some p.id⟩ else ⟨[], 0, false, some p.id⟩)) s.domtab
  (({ s with parts := s.parts ++ [p], domtab := tab }).homeWrite [(boot + 49, BitVec.ofNat 8 first)], first)

/-- Undoes a creation that has failed. -/
def State.unassign (s : State) (part : Nat) : State :=
  { s with
    parts := s.parts.filter fun p => p.id != part
    domtab := s.domtab.map fun e => if e.2.owner = some part then (e.1, ⟨[], 0, false, none⟩) else e }

/-- Starts the front kernel, at S level, as a system launch; answers the refusal code. `pas` are the addresses of its
record. -/
def State.frontKernel (s : State) (part : Nat) (addr : Word) (pas : List Nat) : State × Nat :=
  let bs := pas.map fun pa => (s.homeByte pa).1
  let code := s.launchCode part bs true
  let stat := pas[92]?
  if code = 0 then
    let (s, id) := s.acceptLaunch part addr bs true stat
    (s.onLaunch id fun l => { l with record := { l.record with slevel := true } }, 0)
  else (s.putStatus part stat (refusedStatus code), code)

/-- What an access that has to wait has set going: snoops and the fetches of spilled pages. -/
def State.awaiting (s r : State) : State :=
  { s with mem := { s.mem with snoops := r.mem.snoops }, kvpages := r.kvpages }

/-- CREATE_PARTITION once its boot record can be read: clusters and entries are the controller's free choice. Nothing is done
while the front kernel's record cannot be read yet. -/
def State.createWith (s : State) (fn vf count boot : Nat) : State :=
  let entries := s.pickN (1 + (s.free 91).toNat % s.freeEntries.length) 4000 s.freeEntries
  let rec' := s.deviceBytes boot 64
  let p := s.newPart vf (s.pickN count 5000 s.freeClusters) entries rec'
  let (s1, first) := s.assign p boot
  let results (code : Nat) : List Byte := leBytes 1 vf ++ leBytes 1 first ++ leBytes 1 code
  let addr : Word := BitVec.ofNat 64 (recField rec' 0 8)
  match s1.partReach vf .read addr.toNat 256 with
  | (_, .fault) => (s1.unassign vf).mbAnswer fn 3 []
  | (r, .wait) => s.awaiting r
  | (s1, .ok pas) =>
    match s1.predaKnown vf (pas.map fun pa => (s1.homeByte pa).1) with
    | (r, false) => s.awaiting r
    | (s1, true) =>
      let (s2, code) := s1.frontKernel vf addr pas
      if code = 0 then s2.mbAnswer fn 0 (results 0) else (s2.unassign vf).mbAnswer fn 8 (results code)

/-- CREATE_PARTITION as it is carried out: the host's words of the boot record come first (R396). -/
def State.create (s : State) (fn : Nat) (req : List Byte) : State :=
  let boot := recField req 16 8
  if s.homeFreeAll (addrs boot 64) then s.createWith fn (recField req 12 1) (recField req 8 4) boot
  else s.snoopAll (addrs boot 64)

/-- The checks of CREATE_PARTITION: the virtual function and the count (RESULT 3), the resources (RESULT 4). -/
def State.createCode (s : State) (req : List Byte) : Nat :=
  let count := recField req 8 4
  let vf := recField req 12 1
  let boot := recField req 16 8
  if count = 0 || 3200 < count || vf = 0 || 128 < vf || (s.partOf vf).isSome || !deviceOk boot || !deviceOk (boot + 63) then 3
  else if s.freeClusters.length < count || s.freeEntries.isEmpty || 128 ≤ s.parts.length then 4
  else 0

/-- CREATE_PARTITION (spec/21 R400): Mailbox request that creates a partition and starts its front kernel.
(log 53: DEDUCED) -/
def execCreatePartition (fn : Nat) (s : State) : Res :=
  .next (s.submit fn 1 fun s req =>
    match s.createCode req with
    | 0 => s.create fn req
    | r => s.mbComplete fn r [])

/-! ### DESTROY_PARTITION and RESIZE_PARTITION (R400) -/

/-- The launches of a partition that run. -/
def State.runningIn (s : State) (part : Nat) : List Launch := s.launches.filter fun l => l.part = part && l.runs

/-- Pre-empts every launch of a partition that runs. -/
def State.preemptAll (s : State) (part : Nat) : State :=
  (s.launches.filter fun l => l.part = part && l.phase == .running).foldl (fun s l => s.preempt l) s

/-- Destroys a partition whose launches are off their cores: each accepted launch ends as a faulted one (R389, log 39: DEDUCED). -/
def State.destroyed (s : State) (part : Nat) : State :=
  let mine := s.launches.filter fun l => l.part = part && l.phase != .done
  let s1 := mine.foldl (fun s l =>
    match s.launchOf l.id with
    | some l => { s with launches := s.launches.map fun (x : Launch) => if x.id = l.id then { x with faulted := true } else x }.completeLaunch { l with faulted := true }
    | none => s) s
  let s2 := ((s1.dropTlb fun e => e.part = part).unassign part).traceCut part
  { s2 with
    launches := s2.launches.filter fun (l : Launch) => l.part != part
    seqs := s2.seqs.filter fun q => q.part != part
    relocs := s2.relocs.filter fun r => r.part != part
    kvpages := s2.kvpages.filter fun p => p.part != part
    kvwaits := s2.kvwaits.filter fun w => w.part != part }

/-- DESTROY_PARTITION (spec/21 R400): Mailbox request that destroys a partition. -/
def execDestroyPartition (fn : Nat) (s : State) : Res :=
  .next (s.submit fn 2 fun s req => s.preemptAll (recField req 8 1))

/-- Clusters on which no context of a partition runs or is saved (R400).
(log 70: DEDUCED) -/
def State.idleClusters (s : State) (p : Partition) : List Nat :=
  p.clusters.filter fun c =>
    !(s.launches.any fun l => l.part = p.id && (l.runs || l.phase == .saved) && l.all.any fun n => clusterOf n = c)

/-- The clusters of a partition after a resize. -/
def State.resized (s : State) (p : Partition) (count : Nat) : List Nat :=
  if p.clusters.length ≤ count then
    (s.pickN (count - p.clusters.length) 5000 s.freeClusters).foldl (fun l c => insertNat c l) p.clusters
  else
    let gone := s.pickN (p.clusters.length - count) 5000 (s.idleClusters p)
    p.clusters.filter fun c => !gone.contains c

/-- RESIZE_PARTITION (spec/21 R400): Mailbox request that changes a partition's cluster count. -/
def execResizePartition (fn : Nat) (s : State) : Res :=
  .next (s.submit fn 3 fun s req =>
    let count := recField req 12 4
    match s.partOf (recField req 8 1) with
    | none => s.mbComplete fn 3 []
    | some p =>
      if count = 0 || 3200 < count then s.mbComplete fn 3 []
      else
        let l := s.resized p count
        (s.onPart p.id fun p => { p with clusters := l }).mbAnswer fn 0 ([0, 0, 0, 0] ++ leBytes 4 l.length))

/-! ### SET_ERROR_WINDOW, FW_UPDATE, ATTEST -/

/-- SET_ERROR_WINDOW (spec/21 R400): Mailbox request that sets the error-counting threshold and window. -/
def execSetErrorWindow (fn : Nat) (s : State) : Res :=
  .next (s.submit fn 4 fun s req =>
    let need := recField req 8 1
    let window := recField req 9 1
    if need < 2 || 15 < need || window < 20 || 40 < window then s.mbComplete fn 3 []
    else ({ s with errs := { s.errs with need := need, window := window } }).mbAnswer fn 0 [])

/-- Loads a firmware image whose signature verifies (R402). -/
def State.loadImage (s : State) (image : List Byte) : State :=
  if Config.signatureOk image (sha512 image) then
    { s with host := { s.host with fw := image, boot := measure s.host.boot (sha512 image) } }
  else s

/-- FW_UPDATE: `image` is what the host's memory holds at the address of the request; its length must be the request's. -/
def execFwUpdate (fn : Nat) (image : List Byte) (s : State) : Res :=
  .next (if image.length != recField (s.box fn).req 16 4 then s
    else
      s.submit fn 0x10 fun s _ =>
        if Config.signatureOk image (sha512 image) then (s.loadImage image).mbAnswer fn 0 [] else s.mbAnswer fn 7 [])

/-- The report of R403 without its signature. The spec gives the order and not every width: the partition takes 4 bytes, a
flag 1 (log 42: DEDUCED). -/
def State.report (s : State) (p : Partition) (nonce : List Byte) : List Byte :=
  nonce ++ leBytes 4 p.id ++ fitted 64 s.host.boot ++ p.meas
  ++ ((s.launches.filter fun l => l.part = p.id && l.runs).flatMap fun l => l.meas ++ leBytes 8 l.addr.toNat)
  ++ (List.range 32).flatMap fun t => match p.point t with
    | some x => [1] ++ x.digest
    | none => List.replicate 65 0

/-- Bytes of an RSA-4096 signature. -/
def signatureBytes : Nat := 512

/-- ATTEST (spec/21 R403): Mailbox request that writes a signed attestation report. -/
def execAttest (fn : Nat) (s : State) : Res :=
  .next (s.submit fn 0x20 fun s req =>
    match s.partOf (recField req 8 1) with
    | none => s.mbComplete fn 3 []
    | some p =>
      let body := s.report p ((req.drop 16).take 32)
      let whole := body ++ fitted signatureBytes (Config.reportSignature s.tick body)
      if recField req 56 4 < whole.length then s.mbComplete fn 4 []
      else (s.hostBuffer (recField req 48 8) whole).mbAnswer fn 0 (leBytes 4 whole.length))

end Sys2Proof.Machine
end

