-- ==== Sys2Proof/Machine/Debug.lean ====
section
/-!
DEFINITION. The debug requests (spec/21 R401; spec/16 R313, R315, R317, R319, R320) and the completion of a mailbox
request (spec/21 R399).
-/
set_option linter.constructorNameAsVariable false

namespace Sys2Proof.Machine

/-- The core that a request names by global identity, in the request's partition (log 43: DEDUCED). -/
def State.debugCore (s : State) (req : List Byte) : Option Nat :=
  match s.localCore (recField req 12 4), s.partOf (recField req 8 1) with
  | some n, some p => if p.clusters.contains (clusterOf n) then some n else none
  | _, _ => none

/-! ### The in-flight table (spec/16 R315) -/

/-- KIND of an entry; the table gives none to the results of PENAL and KVADDR, so theirs is free. A fixed-latency result is
no entry.
(log 80: DESIGN CHOICE) -/
def State.entryKind (s : State) : AKind → Nat
  | .fixed => 0
  | .load => 1
  | .atomic => 2
  | .sfu => 3
  | .fdiv => 4
  | .engine => 5
  | .redv => 6
  | .penal => (s.free 95).toNat % 16
  | .kvaddr => (s.free 96).toNat % 16

/-- A destination's register number in the thread's current window, in which its producer has issued: SAVE and RESTORE wait
for the results of windowed registers (spec/04 R116). -/
def Dest.number (r : Regs) : Dest → Nat
  | .none => 0
  | .g k => k.toNat
  | .out k => 8 + k.toNat
  | .l _ k => 16 + k.toNat
  | .i w k => (if w = r.cwp then 24 else 8) + k.toNat
  | .v k => k.toNat

/-- An entry of 16 bytes. -/
def entryBytes (kind tag reg : Nat) (addr : Word) : List Byte :=
  leBytes 8 (kind * 2 ^ 60 + tag * 2 ^ 57 + reg * 2 ^ 52) ++ leBytes 8 addr.toNat

/-- The tag that tracks an operation; 0 for none. -/
def Thread.tagOf (t : Thread) (id : Nat) : Nat := ((t.run.tracks.find? fun p => p.2 = id).map Prod.fst).getD 0

/-- The entries of a thread: its results on their way, its engine commands. -/
def State.inflight (s : State) (n : Nat) (t : BitVec 2) : List (List Byte) :=
  let th := s.thread n t
  let cmds (e : Eng) : List Cmd := (s.queue n e).filter fun c => c.thr = t.toNat
  let all := cmds .vs ++ cmds .mx ++ cmds .cp
  let results := th.run.pend.filter fun a => a.kind != .fixed && !(all.any fun c => c.id = a.id)
  (results.map fun a =>
    entryBytes (s.entryKind a.kind) (th.tagOf a.id) (if a.kind == .engine then 1 else (Dest.number th.regs (a.dest.headD .none))) a.addr)
  ++ [Eng.vs, Eng.mx, Eng.cp].flatMap fun e => (cmds e).map fun c => entryBytes 5 c.tag (engCode e) c.word

/-- Is a frozen domain frozen imprecisely: stepped without drain, with operations that have not finished (R315)? -/
def State.imprecise (s : State) (k : DomKey) : Bool :=
  (s.bar k).imprecise && (s.members k).any fun n => (List.range 4).any fun t => !(s.inflight n (tid t)).isEmpty

/-! ### FREEZE, RESUME, QUERY -/

/-- DEBUG_FREEZE (spec/21 R401): Mailbox debug request that places a freeze request on a domain. -/
def execDebugFreeze (fn : Nat) (s : State) : Res :=
  .next (s.submit fn 0x30 fun s req =>
    match s.debugCore req with
    | none => s.mbComplete fn 3 []
    | some n =>
      if (s.core n).launch.isNone then s.mbComplete fn 6 [] else ((s.requestFreeze (s.domKey n)).1).mbAnswer fn 0 [])

/-- RESUME (spec/21 R401): Mailbox debug request that resumes a frozen domain. -/
def execResume (fn : Nat) (s : State) : Res :=
  .next (s.submit fn 0x31 fun s req =>
    match s.debugCore req with
    | none => s.mbComplete fn 3 []
    | some n =>
      if !s.frozen n then s.mbComplete fn 6 []
      else (s.onBar (s.domKey n) fun b => { b with frozen := false, freeze := false, imprecise := false }).mbAnswer fn 0 [])

/-- The replay that a core's launch belongs to: of the launch it runs, or of the last one that ran on it. -/
def State.replayOf (s : State) (n : Nat) : Option Replay :=
  match s.coreLaunch n with
  | some l => l.replay
  | none => ((s.launches.filter fun l => l.phase == .done && l.all.contains n && l.replay.isSome).getLast?).bind Launch.replay

/-- What QUERY reports. -/
def State.queryBytes (s : State) (n : Nat) : List Byte :=
  let k := s.domKey n
  let b := s.bar k
  let r := s.replayOf n
  let running := r.any Replay.replaying
  let miss : Option (Nat × Nat × Nat) := if running then none else r.bind Replay.mismatch
  let bits := bit1 (s.frozen n) + 2 * bit1 (s.frozen n && s.imprecise k) + 4 * bit1 (b.freeze && !b.frozen) + 8 * bit1 running
    + 16 * bit1 miss.isSome + 32 * bit1 (r.any Replay.full)
  let at' := miss.getD (0, 0, 0)
  leBytes 1 bits ++ List.replicate 7 0 ++ leBytes 8 (s.core n).regs.sstep.toNat
  ++ leBytes 4 (if miss.isSome then s.identity at'.2.1 else 0) ++ leBytes 1 at'.2.2 ++ List.replicate 3 0 ++ leBytes 8 at'.1

/-- QUERY (spec/21 R401): Mailbox debug request that reports the freeze and replay state. -/
def execQuery (fn : Nat) (s : State) : Res :=
  .next (s.submit fn 0x32 fun s req =>
    match s.debugCore req with
    | none => s.mbComplete fn 3 []
    | some n => s.mbAnswer fn 0 (s.queryBytes n))

/-! ### STEP (spec/16 R315) -/

/-- STEP's core and thread, when the thread is a live one of a frozen domain; else the RESULT. -/
def State.stepTarget (s : State) (req : List Byte) : Except Nat (Nat × Nat) :=
  let t := recField req 16 1
  match s.debugCore req with
  | none => .error 3
  | some n =>
    if 4 ≤ t then .error 3
    else if !s.frozen n || (s.thread n (tid t)).run.life != .live then .error 6
    else .ok (n, t)

/-- STEP (spec/16 R315): Mailbox debug request that steps one thread of a frozen domain. -/
def execStepOne (fn : Nat) (s : State) : Res :=
  .next (s.submit fn 0x33 fun s req =>
    match s.stepTarget req with
    | .error r => s.mbComplete fn r []
    | .ok (n, t) =>
      { s with host := { s.host with stepping := s.host.stepping ++ [(fn, n, t, false)] }, agenda := .thread n t :: s.agenda })

/-- The STEP request of a function that is under way: the core, the thread, whether the instruction has been executed. -/
def State.stepOf (s : State) (fn : Nat) : Option (Nat × Nat × Bool) := assoc s.host.stepping fn

/-- Is the step over: executed, or at a blocking point; with DRAIN, its operations finished too? -/
def State.stepOver (s : State) (fn : Nat) : Bool :=
  match s.stepOf fn with
  | some (n, t, done) =>
    let drain := recField (s.box fn).taken 17 1 % 2 = 1
    (done || (s.thread n (tid t)).blocked) && (!drain || (s.inflight n (tid t)).isEmpty)
  | none => false

/-- The end of a STEP: the table goes to its buffer; without DRAIN the domain is frozen imprecisely. The response of R401 has
no field for the wake condition: the instruction at PC and the registers are it (log 94: DEDUCED). -/
def State.stepEnds (s : State) (fn : Nat) : State :=
  match s.stepOf fn with
  | some (n, t, _) =>
    let req := (s.box fn).taken
    let drain := recField req 17 1 % 2 = 1
    let table := s.inflight n (tid t)
    let th := s.thread n (tid t)
    let s1 : State := { s with host := { s.host with stepping := s.host.stepping.filter fun x => x.1 != fn } }
    let s2 := s1.hostBuffer (recField req 24 8) (table.flatMap id)
    let s3 := if drain then s2 else s2.onBar (s2.domKey n) fun b => { b with imprecise := true }
    s3.mbComplete fn 0 (leBytes 4 table.length ++ leBytes 1 (bit1 th.blocked) ++ List.replicate 3 0 ++ leBytes 8 th.pc.toNat)
  | none => s

/-! ### READ_STATE and WRITE_STATE -/

/-- Poison bits of rows, packed from bit 0. -/
def packBits (l : List Bool) : List Byte :=
  (List.range ((l.length + 7) / 8)).map fun k =>
    BitVec.ofNat 8 (((List.range 8).map fun i => bit1 (l.getD (8 * k + i) false) * 2 ^ i).sum)

/-- A matrix engine as an object (6,160 bytes). -/
def Matrix.object (m : Matrix) : List Byte :=
  (m.acc.flatMap fun x => leBytes 4 x.toNat) ++ (m.buf0.w.flatMap fun x => leBytes 4 x.toNat)
  ++ (m.buf1.w.flatMap fun x => leBytes 4 x.toNat) ++ leBytes 8 m.status.toNat ++ leBytes 8 m.accPsn.toNat

/-- An object of a core or thread: its bytes; none where the table of R401 has no such object, index or length. -/
def State.readObject (s : State) (n : Nat) (t : BitVec 2) (kind index len : Nat) : Option (List Byte) :=
  let th := s.thread n t
  let c := s.core n
  match kind with
  | 1 => if index < 32 && len = 8 then some (leBytes 8 (th.regs.read (BitVec.ofNat 5 index)).toNat) else none
  | 2 => if index < 16 && len = 16 then some (leBytes 16 (get16 th.regs.v (BitVec.ofNat 4 index)).toNat) else none
  | 3 =>
    if 0x1000 ≤ index || len != 8 then none
    else
      match sysAccess .s false index with
      | .ok r => some (leBytes 8 (s.sysRead n t r).toNat)
      | .error _ => none
  | 4 =>
    if 8 ≤ index || len != 128 then none
    else
      let w := get8 th.regs.wins (BitVec.ofNat 3 index)
      some ((w.l.toList ++ w.i.toList).flatMap fun x => leBytes 8 x.toNat)
  | 5 =>
    if len = 0 || 0x6000 < index + len then none
    else some (s.lmem n index len ++ packBits ((rowsOf index len).map fun r => c.mem.lpsn.contains r))
  | 6 => if index = 0 && len = 6160 then some c.eng.mat.object else none
  | 7 =>
    if index = 0 && len = 516 then
      some (fitted 516 (leBytes 4 c.sup.plan.length
        ++ c.sup.plan.flatMap fun x => leBytes 4 x.d ++ leBytes 4 x.s ++ leBytes 4 x.t ++ leBytes 4 x.n))
    else none
  | 8 =>
    if index = 0 && len = 516 then
      some (fitted 516 (leBytes 4 c.deque.length ++ c.deque.flatMap fun x => leBytes 8 x.toNat))
    else none
  | 9 =>
    let e := s.inflight n t
    if index = 0 && len = 16 * e.length then some (e.flatMap id) else none
  | _ => none

/-- The 4-byte words of a list. -/
def words32 (bs : List Byte) (n : Nat) : List (BitVec 32) := (List.range n).map fun k => BitVec.ofNat 32 (recField bs (4 * k) 4)

/-- A matrix engine after a write: the accumulator, the status word, the poison mask. The status word's format, tag and handle
are those of the buffer that it makes active (spec/11 R235); a reserved format code leaves the format (log 121: DESIGN
CHOICE). -/
def Matrix.written (m : Matrix) (bs : List Byte) : Matrix :=
  let st : Word := BitVec.ofNat 64 (recField bs 6144 8)
  let m1 : Matrix :=
    { m with
      acc := words32 bs 1024
      accPsn := BitVec.ofNat 64 (recField bs 6152 8)
      flags := st.extractLsb' 0 4
      nfault := st.getLsbD 5
      active := st.getLsbD 11
      rerun := st.extractLsb' 48 16 }
  let act : WBuf :=
    { m1.act with
      fmt := (MxFmt.of (st.extractLsb' 12 3).toNat).getD m1.act.fmt
      tagged := st.getLsbD 15
      handle := st.extractLsb' 16 20 }
  if m1.active then { m1 with buf1 := act } else { m1 with buf0 := act }

/-- An exchange plan from its object. -/
def planOf (bs : List Byte) : List Xfer :=
  (List.range (recField bs 0 4)).map fun k =>
    ⟨recField bs (4 + 16 * k) 4, recField bs (8 + 16 * k) 4, recField bs (12 + 16 * k) 4, recField bs (16 + 16 * k) 4⟩

/-- Local memory after a write of bytes and poison bits. -/
def Core.lmemWritten (c : Core) (off : Nat) (bs bits : List Byte) : Core :=
  let rows := rowsOf off bs.length
  let on (i : Nat) : Bool := (bits.getD (i / 8) 0).getLsbD (i % 8)
  let kept := c.mem.lpsn.filter fun r => !rows.contains r
  let lpsn := ((List.range rows.length).filter on).foldl (fun l i => insertNat (rows.getD i 0) l) kept
  { c with mem := { c.mem with lmem := cellsWrite c.mem.lmem off bs, lpsn := lpsn } }

/-- Writes an object; none where the table has no such object, index or length, or it is read only. -/
def State.writeObject (s : State) (n : Nat) (t : BitVec 2) (kind index len : Nat) (bs : List Byte) : Option State :=
  let word : Word := BitVec.ofNat 64 (recField bs 0 8)
  match kind with
  | 1 =>
    if index < 32 && len = 8 then
      some (s.onThread n t fun th => { th with regs := th.regs.write (BitVec.ofNat 5 index) word })
    else none
  | 2 =>
    if index < 16 && len = 16 then
      some (s.onThread n t fun th =>
        { th with regs := th.regs.writeV (BitVec.ofNat 4 index) (BitVec.ofNat 128 (recField bs 0 16)) })
    else none
  | 3 =>
    if 0x1000 ≤ index || len != 8 then none
    else
      match sysAccess .s true index with
      | .ok r => some (s.sysWrite n t r word)
      | .error _ => none
  | 4 =>
    if 8 ≤ index || len != 128 then none
    else
      let w : Win :=
        ⟨Vector.ofFn fun k : Fin 8 => BitVec.ofNat 64 (recField bs (8 * k.val) 8),
         Vector.ofFn fun k : Fin 8 => BitVec.ofNat 64 (recField bs (64 + 8 * k.val) 8)⟩
      some (s.onThread n t fun th =>
        { th with regs := { th.regs with wins := set8 th.regs.wins (BitVec.ofNat 3 index) w } })
  | 5 =>
    if len = 0 || 0x6000 < index + len then none
    else some (s.onCore n fun c => c.lmemWritten index (fitted len bs) (bs.drop len))
  | 6 => if index = 0 && len = 6160 then some (s.onMat n fun m => m.written bs) else none
  | 7 =>
    if index = 0 && len = 516 && recField bs 0 4 ≤ planLimit then some (s.onPlan n fun _ => planOf bs) else none
  | 8 =>
    if index = 0 && len = 516 && recField bs 0 4 ≤ dequeSize then
      some (s.onCore n fun c => { c with
        deque := (List.range (recField bs 0 4)).map fun k => BitVec.ofNat 64 (recField bs (4 + 8 * k) 8) })
    else none
  | _ => none

/-- The core and thread of a state request; the thread is ignored for core objects (R401). -/
def State.objectOwner (s : State) (req : List Byte) : Option (Nat × BitVec 2) :=
  let t := recField req 16 1
  let ofCore := 5 ≤ recField req 17 1 && recField req 17 1 ≤ 8
  match s.debugCore req with
  | some n => if ofCore || t < 4 then some (n, tid t) else none
  | none => none

/-- READ_STATE (spec/21 R401): Mailbox debug request that reads a state object of a frozen domain. -/
def execReadState (fn : Nat) (s : State) : Res :=
  .next (s.submit fn 0x34 fun s req =>
    match s.objectOwner req with
    | none => s.mbComplete fn 3 []
    | some (n, t) =>
      match s.readObject n t (recField req 17 1) (recField req 20 4) (recField req 24 4) with
      | none => s.mbComplete fn 3 []
      | some bs =>
        if !s.frozen n then s.mbComplete fn 6 [] else (s.hostBuffer (recField req 32 8) bs).mbAnswer fn 0 [])

/-- WRITE_STATE; `bytes` are what the host's buffer holds. -/
def execWriteState (fn : Nat) (bytes : List Byte) (s : State) : Res :=
  .next (s.submit fn 0x35 fun s req =>
    match s.objectOwner req with
    | none => s.mbComplete fn 3 []
    | some (n, t) =>
      match s.writeObject n t (recField req 17 1) (recField req 20 4) (recField req 24 4) bytes with
      | none => s.mbComplete fn 3 []
      | some s1 =>
        if !s.frozen n || s.imprecise (s.domKey n) then s.mbComplete fn 6 [] else s1.mbAnswer fn 0 [])

/-! ### TRACE (spec/16 R317) -/

/-- SIZE is a power of two from 16 to 2^24. -/
def traceSizeOk (n : Nat) : Bool := (List.range 21).any fun k => n = 2 ^ (k + 4)

/-- The header of a trace buffer. -/
def traceHeader (size : Nat) (wrap : Bool) (kinds : BitVec 32) : List Byte :=
  leBytes 8 size ++ List.replicate 16 0 ++ leBytes 1 (bit1 wrap) ++ List.replicate 3 0 ++ leBytes 4 kinds.toNat
  ++ List.replicate 32 0

/-- TRACE (spec/16 R317): Mailbox debug request that enables or stops tracing into a buffer. -/
def execTrace (fn : Nat) (s : State) : Res :=
  .next (s.submit fn 0x36 fun s req =>
    let part := recField req 8 1
    let buf := recField req 16 8
    let size := recField req 24 8
    let wrap := recField req 32 1 % 2 = 1
    let kinds : BitVec 32 := BitVec.ofNat 32 (recField req 36 4)
    if recField req 40 1 % 2 = 0 then ((s.traceCut part).onPart part fun p => { p with trace := none }).mbAnswer fn 0 []
    else if !traceSizeOk size || !deviceOk buf || !deviceOk (buf + 63 + 32 * size) then s.mbComplete fn 3 []
    else
      let t : Trace := ⟨BitVec.ofNat 64 buf, size, wrap, kinds, 0, 0, false⟩
      (((s.traceCut part).onPart part fun p => { p with trace := some t }).later part (.phys buf (traceHeader size wrap kinds))).mbAnswer fn 0 [])

/-! ### RECORD and REPLAY (spec/16 R319, R320) -/

/-- Decides a launch that the debug interface submits, once its record can be read at `pas`; an accepted replay takes the
place of the launch `old` that it repeats.
(log 72: DEDUCED) -/
def State.debugLaunch (s : State) (fn part : Nat) (addr : Word) (pas : List Nat) (r : Replay) (old : Option Nat) : State :=
  let bs := pas.map fun pa => (s.homeByte pa).1
  let code := s.launchVerdict part bs false
  if code = 0 then
    let (s, id) := s.acceptLaunch part addr bs false pas[92]?
    { s with launches := s.launches.filter fun (x : Launch) => old != some x.id }.onLaunch id (fun l => { l with replay := some r })
      |>.mbAnswer fn 0 []
  else (s.putStatus part pas[92]? (refusedStatus code)).mbAnswer fn 8 ([0, 0] ++ leBytes 1 code)

/-- RECORD as it is carried out: the record is read once home can serve it. -/
def State.recordRun (s : State) (fn : Nat) (req : List Byte) : State :=
  let addr : Word := BitVec.ofNat 64 (recField req 16 8)
  let r : Replay :=
    { recording := true
      replaying := false
      area := BitVec.ofNat 64 (recField req 24 8)
      room := recField req 32 8
      pages := []
      full := false
      log := []
      mismatch := none
      table := [] }
  match s.partReach (recField req 8 1) .read addr.toNat 256 with
  | (s, .fault) => s.mbComplete fn 3 []
  | (s, .wait) => s
  | (s, .ok pas) =>
    match s.predaKnown (recField req 8 1) (pas.map fun pa => (s.homeByte pa).1) with
    | (s, true) => s.debugLaunch fn (recField req 8 1) addr pas r none
    | (s, false) => s

/-- RECORD (spec/16 R319): Mailbox debug request that starts a launch in record mode. -/
def execRecord (fn : Nat) (s : State) : Res :=
  .next (s.submit fn 0x37 fun s req => s.recordRun fn req)

/-- What a replay run does first: the pages of the write set as recorded, every L1 line of the partition written back and
invalid, instruction lines too, its deques empty (R320). -/
def State.rewind (s : State) (part : Nat) (r : Replay) : State :=
  let s1 := r.pages.foldl (fun s p => s.homeWrite (bytesAt (p.1 * 0x10000) p.2)) s
  let s2 := (s1.partCores part).foldl (fun s n => s.flushL1 n fun _ => true) s1
  (s2.partCores part).foldl (fun s n => s.onCore n fun c => { c with deque := [], mem := { c.mem with l1i := [] } }) s2

/-- The recorded launch that a REPLAY names, with what it has recorded (R320). -/
def State.recorded (s : State) (req : List Byte) : Option (Launch × Replay) :=
  (s.launches.find? fun l =>
    l.part = recField req 8 1 && l.addr = BitVec.ofNat 64 (recField req 16 8) && l.phase == .done && l.replay.isSome).bind
      fun l => l.replay.map fun r => (l, r)

/-- REPLAY as it is carried out: once home can serve its counter table, the record and the pages of the write set. -/
def State.replayRun (s : State) (fn : Nat) (req : List Byte) : State :=
  match s.recorded req with
  | none => s.mbComplete fn 6 []
  | some (l, r) =>
    let at' := addrs (recField req 24 8) (32 * l.cores.length) ++ r.pages.flatMap fun p => addrs (p.1 * 0x10000) 0x10000
    match s.partReach l.part .read l.addr.toNat 256 with
    | (s, .fault) => s.mbComplete fn 3 []
    | (s, .wait) => s
    | (s, .ok pas) =>
      let known := s.predaKnown l.part (pas.map fun pa => (s.homeByte pa).1)
      if !s.homeFreeAll at' then s.snoopAll at'
      else if !known.2 then known.1
      else
        let bytes := s.deviceBytes (recField req 24 8) (32 * l.cores.length)
        let table := (List.range (4 * l.cores.length)).map fun k => (BitVec.ofNat 64 (recField bytes (8 * k) 8) : Word)
        (s.rewind l.part r).debugLaunch fn l.part l.addr pas
          { r with replaying := true, recording := false, mismatch := none, table := table } (some l.id)

/-- REPLAY (spec/16 R320): Mailbox debug request that starts a replay run of a recorded launch. -/
def execReplay (fn : Nat) (s : State) : Res :=
  .next (s.submit fn 0x38 fun s req =>
    match s.recorded req with
    | some (_, r) => if r.full then s.mbComplete fn 6 [] else s.replayRun fn req
    | none => s.mbComplete fn 6 [])

/-! ### MAILBOX_REQUEST_COMPLETE (R399) -/

/-- A request that has been accepted completes: one already carried out, a DESTROY_PARTITION once no launch of its
partition runs, a STEP once it is over. One whose operands in memory could not be served is carried out as soon as they
can. -/
def execMailboxRequestComplete (fn : Nat) (s : State) : Res :=
  let b := s.box fn
  let part := recField b.taken 8 1
  .next (if !b.busy then s
    else
      match b.next with
      | some (r, bytes) => s.mbComplete fn r bytes
      | none =>
        match recField b.taken 0 2 with
        | 1 => s.create fn b.taken
        | 0x37 => s.recordRun fn b.taken
        | 0x38 => s.replayRun fn b.taken
        | 2 => if (s.runningIn part).isEmpty then (s.destroyed part).mbComplete fn 0 [] else s.preemptAll part
        | 0x33 => if s.stepOver fn then s.stepEnds fn else s
        | _ => s)

end Sys2Proof.Machine
end

