-- ==== Sys2Proof/Machine/Fabric.lean ====
section
/-!
DEFINITION. The fabric as one module sees it: remote accesses and their responses, delivery time-outs, launches received
from other modules, start barriers, ports and routes (spec/22 R404-R414; log 22: DESIGN CHOICE).
-/
set_option linter.constructorNameAsVariable false

namespace Sys2Proof.Machine

/-! ### Remote accesses (R406, R409, R410) -/

/-- Where an access is performed: the module whose home does, or, numbered above the modules, the core at whose router it
waits (spec/16 R313). -/
def State.moduleOf (s : State) (r : Remote) : Nat :=
  match routerPlace r.pa with
  | some p => 64 + p.1
  | none => ((fabTarget r.pa).map Prod.fst).getD s.fabric.module.toNat

/-- The physical addresses of an access. -/
def Remote.addrs (r : Remote) : List Nat := (List.range r.size).map (r.pa + ·)

/-- Accesses of one core to one module are performed in the order it issued them (R410). -/
def State.remoteFirst (s : State) (r : Remote) : Bool :=
  (s.fabric.remote.find? fun x => x.core = r.core && s.moduleOf x = s.moduleOf r && x.val.isNone) == some r

/-- Is an access of this module one to another to which no path leads? -/
def State.cutOff (s : State) (r : Remote) : Bool :=
  r.core < Config.numCores && s.moduleOf r < 64 && s.moduleOf r != s.fabric.module.toNat && !s.routed (s.moduleOf r)

/-- Sets the response of an access. -/
def State.respond (s : State) (id : Nat) (val : List (Byte × Bool)) : State :=
  { s with fabric := { s.fabric with remote := s.fabric.remote.map fun r => if r.id = id then { r with val := some val } else r } }

/-- Performs an access at its home (R409): a store with the poison it carries, a plain read, an atomic, which leaves a
poisoned word as it is. -/
def State.performRemote (s : State) (r : Remote) : State :=
  let old := r.addrs.map s.homeByte
  match r.store, r.op with
  | some bs, _ =>
    let cells := r.addrs.zip bs
    ((s.homeWrite (cells.map fun c => (c.1, c.2.1))).homePoison ((cells.filter fun c => c.2.2).map Prod.fst)).respond r.id []
  | none, some op =>
    if old.any Prod.snd then s.respond r.id (old.map fun b => (b.1, true))
    else
      match atomicWrite op r.size (leNat (old.map Prod.fst)) with
      | some v => (s.homeWrite (r.addrs.zip (leBytes r.size v))).respond r.id old
      | none => s.respond r.id old
  | none, none => s.respond r.id old

/-- Performs an access at a core's local memory, once it may pass the router (spec/16 R313; spec/05 R123, log 12: DESIGN
CHOICE). -/
def State.performAtRouter (s : State) (r : Remote) (k off : Nat) : State :=
  match r.store, r.op with
  | some bs, _ =>
    (if s.occupied k || s.choice (2 ^ 56 + k * 0x10000 + off) then s.engineLocal k off bs else s).respond r.id []
  | none, some op =>
    let (s, old, psn) := s.atomicPeer k off r.size op
    s.respond r.id (old.map fun b => (b, psn))
  | none, none => s.respond r.id ((List.range r.size).map fun i => s.peerByte k (off + i))

/-- May an access that waits at a router pass it: its core's domain runs again? -/
def State.mayPass (s : State) (r : Remote) : Bool := (routerPlace r.pa).all fun p => !s.shut r.core p.1

/-- A remote access in flight is performed at its home when its turn has come and home can take it; one that waits at a
router, when it may pass. -/
def State.remoteArrives (s : State) (id : Nat) : State :=
  match s.fabric.remote.find? fun r => r.id = id with
  | some r =>
    if r.val.isSome || !s.remoteFirst r || s.cutOff r || !s.mayPass r then s
    else
      match routerPlace r.pa with
      | some p => s.performAtRouter r p.1 p.2
      | none => if s.homeFreeAll r.addrs then s.performRemote r else s.snoopAll r.addrs
  | none => s

/-- The number that stands for a core of another module as the source of an access. -/
def foreignCore (module : BitVec 6) (core : BitVec 17) : Nat := 2 ^ 24 + module.toNat * 2 ^ 17 + core.toNat

/-- An access that a core of another module has sent: to this module's homes, or to those of a third module, which this one
can only see in what that module's words hold (R409). -/
def State.foreignAccess (s : State) (src : Nat) (pa : Nat) (acc : FabAccess) : State :=
  let (id, s) := s.fresh
  let r : Remote :=
    match acc with
    | .store bs => ⟨id, src, 0, pa, bs.length, none, some (bs.map fun b => (b, false)), none, none, none⟩
    | .load size => ⟨id, src, 0, pa, size, none, none, none, none, none⟩
    | .amo op dbl b => ⟨id, src, 0, pa, if dbl then 8 else 4, some (.amo op b), none, none, none, none⟩
    | .cas dbl e v => ⟨id, src, 0, pa, if dbl then 8 else 4, some (.cas e v), none, none, none, none⟩
  { s with fabric := { s.fabric with remote := s.fabric.remote ++ [r] } }

/-- FABRIC_REMOTE_ACCESS (spec/22 R409): A remote access arrives over the fabric and is performed at the remote home: an
access of this module, or one that a core of another module has sent. -/
def execFabricRemoteAccess (acc : FabArrival) (s : State) : Res :=
  .next (match acc with
    | .own id => s.remoteArrives id
    | .foreign module core pa acc =>
      if module.toNat = s.fabric.module.toNat then s
      else
        let id := s.nextId
        (s.foreignAccess (foreignCore module core) pa.toNat acc).remoteArrives id)

/-- The bytes of a response for those that a result awaits. -/
def Async.answered (a : Async) (r : Remote) (val : List (Byte × Bool)) : Async :=
  let at' (b : ByteSrc) : Option (Byte × Bool) := match b with
    | .miss pa => if r.pa ≤ pa && pa < r.pa + r.size then some (val.getD (pa - r.pa) (0, false)) else none
    | _ => none
  a.fill (fun b => match at' b with | some v => .have v.1 | none => b) (a.bytes.any fun b => (at' b).any Prod.snd)

/-- What a copy command learns from one of its accesses: the bytes it has read, or that its store is there. -/
def Cmd.answered (c : Cmd) (r : Remote) (val : List (Byte × Bool)) : Cmd :=
  { c with
    away := c.away.filter (· != r.id)
    got := if r.store.isSome then c.got else c.got ++ r.addrs.zip val }.settle

/-- An access is over at its source: the result it carries, or the store's performance. -/
def State.closeRemote (s : State) (r : Remote) (val : List (Byte × Bool)) : State :=
  let s1 : State := { s with fabric := { s.fabric with remote := s.fabric.remote.filter fun x => x.id != r.id } }
  if Config.numCores ≤ r.core then s1
  else
    match r.cmd, r.async with
    | some id, _ => s1.onAnyCmd r.core id fun c => c.answered r val
    | none, some id =>
      (s1.untrack r.core (tid r.thr) r.id).onPend r.core (tid r.thr) fun l => l.map fun a =>
        if a.id = id then a.answered r val else a
    | none, none =>
      (s1.untrack r.core (tid r.thr) r.id).onThread r.core (tid r.thr) fun t => { t with run := { t.run with
        reads := t.run.reads.map fun x => if x.id = r.id then { x with val := val } else x } }

/-- FABRIC_ACK (spec/22 R410): The response or acknowledgement of a remote access reaches the source core. -/
def execFabricAck (id : Nat) (s : State) : Res :=
  .next (match s.fabric.remote.find? fun r => r.id = id with
    | some r => match r.val with
      | some v => s.closeRemote r v
      | none => s
    | none => s)

/-- A request that is not delivered (R414): a store or a copy write is discarded, with a machine-error record of this
module; a load, an atomic or a WAITW read gives a poisoned value. -/
def execFabricDeliveryTimeout (id : Nat) (s : State) : Res :=
  .next (match s.fabric.remote.find? fun r => r.id = id with
    | some r =>
      if r.val.isSome || Config.numCores ≤ r.core || 64 ≤ s.moduleOf r || s.moduleOf r = s.fabric.module.toNat then s
      else if r.store.isSome then
        (s.closeRemote r []).machineRecord (s.corePartId r.core) 18 (s.freeUnit 40) (s.free 41).toNat r.pa
          (s.core r.core).regs.sstep.toNat 0
      else s.closeRemote r (List.replicate r.size (0, true))
    | none => s)

/-! ### Fabric launches (R411, R412) -/

/-- The partition that is joined with a module. -/
def State.joined (s : State) (src : Nat) : Option Partition := s.parts.find? fun p => p.fabgrp.getLsbD src

/-- A launch that another module issued takes its place and waits for its start barrier. -/
def State.takeLaunch (s : State) (part : Nat) (bytes image : List Byte) : State :=
  let (id, s) := s.fresh
  let l := s.launchOfRecord id part 0 bytes (launchRecOf bytes).slevel none
  { s with launches := s.launches ++ [{ l with ready := false, image := image, gen := (s.free 804).setWidth 16 }] }

/-- A record and its image, of ILEN bytes, arrive from another module: decided by R388 in the partition's own address space.
The issuer has made the check of SLEVEL; STATUS is written where the record is, which is not here; the generation that the
issuer will send is its own, so free (log 44: DESIGN CHOICE). -/
def execFabricLaunchReceive (src : Nat) (bytes image : List Byte) (s : State) : Res :=
  .next (match s.joined src with
    | none => s
    | some p =>
      if src = s.fabric.module.toNat || image.length != (launchRecOf bytes).ilen then s
      else
        match s.predaKnown p.id bytes with
        | (s, false) => s
        | (s, true) => if s.launchCode p.id bytes true = 0 then s.takeLaunch p.id bytes image else s)

/-- Does a launch expect a start barrier of a generation? -/
def Launch.expects (l : Launch) (gen : Nat) : Bool := !l.ready && l.gen.toNat = gen

/-- A start barrier completes: the launch may start; where it fails, the launch is refused with code 5 (R414). One of a
generation that no launch expects is discarded (R412). -/
def execStartBarrierComplete (gen : Nat) (ok : Bool) (s : State) : Res :=
  .next (match s.launches.find? fun l => l.phase == .waiting && l.expects gen with
    | none => s
    | some l =>
      if ok then s.onLaunch l.id fun l => { l with ready := true }
      else
        { s with launches := s.launches.filter fun (x : Launch) => x.id != l.id }.putStatus l.part l.stat (refusedStatus 5))

/-! ### Ports (R404, R414) -/

/-- Changes a port. -/
def State.onPort (s : State) (port : Nat) (p : Port) : State :=
  { s with fabric := { s.fabric with ports := s.fabric.ports.set port p } }

/-- PORT_TRAINING (spec/22 R404): A Pelevo port trains to the highest generation that both ends support and comes into
use. The management controller may lead the way to a module that has no path over it (R405); to which ones is free
(log 22: DESIGN CHOICE). -/
def execPortTraining (port gen : Nat) (s : State) : Res :=
  let s1 := s.onPort port ⟨gen, true⟩
  .next { s1 with fabric := { s1.fabric with
      route := ((List.range 64).zip s1.fabric.route).map fun p =>
        if !s.routed p.1 && s1.choice (1200 + p.1) then port else p.2 } }

/-- The ports that are up. -/
def State.portsUp (s : State) : List Nat := (List.range 12).filter fun k => (s.fabric.ports[k]?).any Port.up

/-- A route entry without a port. -/
def noPort : Nat := 12

/-- Routes over a port that has gone down go another way where there is a path of at most 4 hops; whether there is, and
which, is free: the other modules are not in this state (log 22: DESIGN CHOICE). -/
def State.rerouted (s : State) (m port k : Nat) : Nat :=
  if k != port then k
  else if s.choice (900 + m) then (s.portsUp[(s.free (900 + m)).toNat % s.portsUp.length]?).getD noPort
  else noPort

/-- LINK_PORT_DOWN (spec/22 R414): A port goes down, and traffic is routed around it. -/
def execLinkPortDown (port : Nat) (s : State) : Res :=
  let s1 := s.onPort port ⟨((s.fabric.ports[port]?).map Port.gen).getD 0, false⟩
  .next { s1 with fabric := { s1.fabric with
      route := ((List.range 64).zip s1.fabric.route).map fun p => s1.rerouted p.1 port p.2 } }

end Sys2Proof.Machine
end

