-- ==== Sys2Proof/Machine/Hardware.lean ====
section
/-!
DEFINITION. Corrected errors and retirement, the power limit, power-on, the training of the host link (spec/00 R3;
spec/21 R383, R397, R398, R402).
-/
set_option linter.constructorNameAsVariable false

namespace Sys2Proof.Machine

/-! ### Errors (spec/21 R397) -/

/-- CORRECTED_ERROR (spec/21 R397): A single-bit or link error is corrected and counted against its unit within the
error-counting window. -/
def execCorrectedError (unit : ErrUnit) (s : State) : Res := .next (s.noteError unit)

/-- Counts of a unit in the window. -/
def State.errorCount (s : State) (u : ErrUnit) : Nat := ((s.errs.counts.find? fun p => p.1 = u).map Prod.snd).getD 0

/-- A lasting fault: the threshold is reached, or a lockstep pair is marked for retirement (spec/10 R216).
(log 73: DEDUCED) -/
def State.lasting (s : State) (u : ErrUnit) : Bool :=
  !s.errs.retired.contains u
  && (s.errs.need ≤ s.errorCount u || match u with | .core n => (s.core n).lock.retire | _ => false)

/-- A core's place is taken by a spare of its die; with none left it stays retired and its cluster leaves its partition
(R397). Its caches are empty. -/
def State.replaceCore (s : State) (n : Nat) : State :=
  let s1 := s.flushL1 n fun _ => true
  let s2 := s1.onCore n fun c => { c with mem := { c.mem with l1i := [], cc := [], tlb := [], fills := [] }, lock := { c.lock with retire := false } }
  let left := s2.errs.spares.getD (dieOf n) 0
  if 0 < left then { s2 with errs := { s2.errs with spares := s2.errs.spares.set (dieOf n) (left - 1) } }
  else
    { s2 with
      errs := { s2.errs with retired := s2.errs.retired ++ [.core n] }
      parts := s2.parts.map fun p => { p with clusters := p.clusters.filter (· != clusterOf n) } }

/-- A unit is retired, with its record (R397, R398). -/
def State.retireUnit (s : State) (u : ErrUnit) : State :=
  let (kind, who, pa) := s.unitFields [] u
  let s1 := s.machineRecord (s.unitPart u) 19 kind who pa
    (match u with | .core n => (s.core n).regs.sstep.toNat | _ => 0) (s.errorCount u)
  let s2 : State := { s1 with errs := { s1.errs with
    retired := match u with | .core _ => s1.errs.retired | u => s1.errs.retired ++ [u]
    counts := s1.errs.counts.filter fun p => p.1 != u } }
  match u with
  | .core n => s2.replaceCore n
  | _ => s2

/-- UNIT_RETIRE: a core whose context runs is first pre-empted at its blocking points (R397). -/
def execUnitRetire (unit : ErrUnit) (s : State) : Res :=
  .next (if !s.lasting unit then s
    else
      match unit with
      | .core n =>
        (match s.coreLaunch n with
          | some l => if l.phase == .running then s.preempt l else s
          | none => s.retireUnit unit)
      | _ => s.retireUnit unit)

/-! ### Power, firmware, the host link -/

/-- The power manager lowers the matrix issue rate (spec/00 R3): a matter of time only. -/
def execPowerLimitReached (s : State) : Res := .next { s with errs := { s.errs with power := true } }

/-- POWER_ON (spec/21 R402): the boot measurement is zeroed, and the ROM verifies and loads the images in order. -/
def execPowerOn (images : List (List Byte)) (s : State) : Res :=
  let s1 : State := { State.reset with tick := s.tick, nextId := s.nextId, ctx := s.ctx, agenda := s.agenda }
  .next (images.foldl (fun s image => s.loadImage image) s1)

/-- The identity that a function presents on the host link, whatever generation it trains to (R383): the vendor, and the
device, of the physical function 0 or a virtual one. -/
def vendorId : BitVec 16 := 0x1DB9
def deviceId (fn : Nat) : BitVec 16 := if fn = 0 then 0x0C09 else 0x0C0A

/-- HOST_LINK_TRAINING (spec/21 R383). -/
def execHostLinkTraining (cxl : Bool) (gen width : Nat) (s : State) : Res :=
  .next { s with host := { s.host with cxl := cxl, gen := gen, width := width } }

end Sys2Proof.Machine
end

