-- ==== Sys2Proof/Machine/Dispatch.lean ====
section
/-!
DEFINITION. One arm per instruction: the meaning it calls.
-/
namespace Sys2Proof.Machine

/-- What an instruction, or a step of the part, does. -/
def exec (i : Instr) (s : State) : Host.Outcome State Fault Refusal :=
  match i with
  | .add rd ra rb w sat => Sys2Proof.Machine.execAdd rd ra rb w sat s
  | .sub rd ra rb w sat => Sys2Proof.Machine.execSub rd ra rb w sat s
  | .mul rd ra rb w sat => Sys2Proof.Machine.execMul rd ra rb w sat s
  | .mulh rd ra rb w sat => Sys2Proof.Machine.execMulh rd ra rb w sat s
  | .mulhu rd ra rb w sat => Sys2Proof.Machine.execMulhu rd ra rb w sat s
  | .div rd ra rb w sat => Sys2Proof.Machine.execDiv rd ra rb w sat s
  | .divu rd ra rb w sat => Sys2Proof.Machine.execDivu rd ra rb w sat s
  | .rem rd ra rb w sat => Sys2Proof.Machine.execRem rd ra rb w sat s
  | .remu rd ra rb w sat => Sys2Proof.Machine.execRemu rd ra rb w sat s
  | .and rd ra rb w sat => Sys2Proof.Machine.execAnd rd ra rb w sat s
  | .or rd ra rb w sat => Sys2Proof.Machine.execOr rd ra rb w sat s
  | .xor rd ra rb w sat => Sys2Proof.Machine.execXor rd ra rb w sat s
  | .andn rd ra rb w sat => Sys2Proof.Machine.execAndn rd ra rb w sat s
  | .sll rd ra rb w => Sys2Proof.Machine.execSll rd ra rb w s
  | .srl rd ra rb w => Sys2Proof.Machine.execSrl rd ra rb w s
  | .sra rd ra rb w => Sys2Proof.Machine.execSra rd ra rb w s
  | .min rd ra rb w sat => Sys2Proof.Machine.execMin rd ra rb w sat s
  | .max rd ra rb w sat => Sys2Proof.Machine.execMax rd ra rb w sat s
  | .minu rd ra rb w sat => Sys2Proof.Machine.execMinu rd ra rb w sat s
  | .maxu rd ra rb w sat => Sys2Proof.Machine.execMaxu rd ra rb w sat s
  | .cmp rd ra rb w => Sys2Proof.Machine.execCmp rd ra rb w s
  | .sel rd ra rb rc => Sys2Proof.Machine.execSel rd ra rb rc s
  | .clz rd ra w => Sys2Proof.Machine.execClz rd ra w s
  | .ctz rd ra w => Sys2Proof.Machine.execCtz rd ra w s
  | .popc rd ra w => Sys2Proof.Machine.execPopc rd ra w s
  | .brev rd ra w => Sys2Proof.Machine.execBrev rd ra w s
  | .bswap rd ra w => Sys2Proof.Machine.execBswap rd ra w s
  | .bfx rd ra rb signed => Sys2Proof.Machine.execBfx rd ra rb signed s
  | .bfi rd ra rb => Sys2Proof.Machine.execBfi rd ra rb s
  | .addi rd ra imm => Sys2Proof.Machine.execAddi rd ra imm s
  | .andi rd ra imm => Sys2Proof.Machine.execAndi rd ra imm s
  | .ori rd ra imm => Sys2Proof.Machine.execOri rd ra imm s
  | .xori rd ra imm => Sys2Proof.Machine.execXori rd ra imm s
  | .slli rd ra imm => Sys2Proof.Machine.execSlli rd ra imm s
  | .srli rd ra imm => Sys2Proof.Machine.execSrli rd ra imm s
  | .srai rd ra imm => Sys2Proof.Machine.execSrai rd ra imm s
  | .cmpi rd ra imm => Sys2Proof.Machine.execCmpi rd ra imm s
  | .li rd imm => Sys2Proof.Machine.execLi rd imm s
  | .lih rd imm => Sys2Proof.Machine.execLih rd imm s
  | .lea rd ra rb sh => Sys2Proof.Machine.execLea rd ra rb sh s
  | .pcrel rd imm => Sys2Proof.Machine.execPcrel rd imm s
  | .bz ra off => Sys2Proof.Machine.execBz ra off s
  | .bnz ra off => Sys2Proof.Machine.execBnz ra off s
  | .j off => Sys2Proof.Machine.execJ off s
  | .jr ra imm => Sys2Proof.Machine.execJr ra imm s
  | .call off => Sys2Proof.Machine.execCall off s
  | .callr ra imm => Sys2Proof.Machine.execCallr ra imm s
  | .ret => Sys2Proof.Machine.execRet s
  | .save rd ra imm => Sys2Proof.Machine.execSave rd ra imm s
  | .restore rd ra imm => Sys2Proof.Machine.execRestore rd ra imm s
  | .loop k ra span => Sys2Proof.Machine.execLoop k ra span s
  | .loopi k count span => Sys2Proof.Machine.execLoopi k count span s
  | .loopx which => Sys2Proof.Machine.execLoopx which s
  | .ld rd ra disp wd acq => Sys2Proof.Machine.execLd rd ra disp wd acq s
  | .st rd ra disp wd rel => Sys2Proof.Machine.execSt rd ra disp wd rel s
  | .ldx rd ra rb wd acq => Sys2Proof.Machine.execLdx rd ra rb wd acq s
  | .stx rd ra rb wd rel => Sys2Proof.Machine.execStx rd ra rb wd rel s
  | .ldl rd ra disp wd acq => Sys2Proof.Machine.execLdl rd ra disp wd acq s
  | .stl rd ra disp wd rel => Sys2Proof.Machine.execStl rd ra disp wd rel s
  | .vld vd ra disp pair acq => Sys2Proof.Machine.execVld vd ra disp pair acq s
  | .vst vd ra disp pair rel => Sys2Proof.Machine.execVst vd ra disp pair rel s
  | .ldm vd ra disp acq => Sys2Proof.Machine.execLdm vd ra disp acq s
  | .stm vd ra disp rel => Sys2Proof.Machine.execStm vd ra disp rel s
  | .movm vd va => Sys2Proof.Machine.execMovm vd va s
  | .amo rd ra rb op dbl ord => Sys2Proof.Machine.execAmo rd ra rb op dbl ord s
  | .cas rd ra rb rc dbl ord => Sys2Proof.Machine.execCas rd ra rb rc dbl ord s
  | .fence => Sys2Proof.Machine.execFence s
  | .pld rd ra k off wd => Sys2Proof.Machine.execPld rd ra k off wd s
  | .waitw rd ra rb cond dbl acq => Sys2Proof.Machine.execWaitw rd ra rb cond dbl acq s
  | .fadd rd ra rb t rm => Sys2Proof.Machine.execFadd rd ra rb t rm s
  | .fsub rd ra rb t rm => Sys2Proof.Machine.execFsub rd ra rb t rm s
  | .fmul rd ra rb t rm => Sys2Proof.Machine.execFmul rd ra rb t rm s
  | .fdiv rd ra rb t rm => Sys2Proof.Machine.execFdiv rd ra rb t rm s
  | .fsqrt rd ra t rm => Sys2Proof.Machine.execFsqrt rd ra t rm s
  | .fma rd ra rb rc t rm => Sys2Proof.Machine.execFma rd ra rb rc t rm s
  | .fmin rd ra rb t => Sys2Proof.Machine.execFmin rd ra rb t s
  | .fmax rd ra rb t => Sys2Proof.Machine.execFmax rd ra rb t s
  | .fcmp rd ra rb t => Sys2Proof.Machine.execFcmp rd ra rb t s
  | .fclass rd ra t => Sys2Proof.Machine.execFclass rd ra t s
  | .fsgn rd ra rb t op => Sys2Proof.Machine.execFsgn rd ra rb t op s
  | .vadd vd va vb t sat rm => Sys2Proof.Machine.execVadd vd va vb t sat rm s
  | .vsub vd va vb t sat rm => Sys2Proof.Machine.execVsub vd va vb t sat rm s
  | .vmul vd va vb t sat rm => Sys2Proof.Machine.execVmul vd va vb t sat rm s
  | .vfma vd va vb t sat rm => Sys2Proof.Machine.execVfma vd va vb t sat rm s
  | .vmin vd va vb t => Sys2Proof.Machine.execVmin vd va vb t s
  | .vmax vd va vb t => Sys2Proof.Machine.execVmax vd va vb t s
  | .vand vd va vb t => Sys2Proof.Machine.execVand vd va vb t s
  | .vor vd va vb t => Sys2Proof.Machine.execVor vd va vb t s
  | .vxor vd va vb t => Sys2Proof.Machine.execVxor vd va vb t s
  | .vshl vd va vb t => Sys2Proof.Machine.execVshl vd va vb t s
  | .vshr vd va vb t => Sys2Proof.Machine.execVshr vd va vb t s
  | .vcmp vd va vb t cond => Sys2Proof.Machine.execVcmp vd va vb t cond s
  | .vsel vd va vb t => Sys2Proof.Machine.execVsel vd va vb t s
  | .vsplat vd ra t => Sys2Proof.Machine.execVsplat vd ra t s
  | .vext rd va t lane => Sys2Proof.Machine.execVext rd va t lane s
  | .vins vd ra t lane => Sys2Proof.Machine.execVins vd ra t lane s
  | .vshuf vd va vb => Sys2Proof.Machine.execVshuf vd va vb s
  | .vdot vd va vb t sat rm => Sys2Proof.Machine.execVdot vd va vb t sat rm s
  | .vred vd va t op sat => Sys2Proof.Machine.execVred vd va t op sat s
  | .cvt rd ra c rm => Sys2Proof.Machine.execCvt rd ra c rm s
  | .vcvt vd va dt st part sat rm => Sys2Proof.Machine.execVcvt vd va dt st part sat rm s
  | .flenc vd va fmt slot => Sys2Proof.Machine.execFlenc vd va fmt slot s
  | .fldec vd va fmt slot => Sys2Proof.Machine.execFldec vd va fmt slot s
  | .sfu rd ra func t rm => Sys2Proof.Machine.execSfu rd ra func t rm s
  | .vsfu vd va func t => Sys2Proof.Machine.execVsfu vd va func t s
  | .spset sd ra stride => Sys2Proof.Machine.execSpset sd ra stride s
  | .spget rd sa => Sys2Proof.Machine.execSpget rd sa s
  | .vsadd sd sa sb rc t sat rm => Sys2Proof.Machine.execVsadd sd sa sb rc t sat rm s
  | .vssub sd sa sb rc t sat rm => Sys2Proof.Machine.execVssub sd sa sb rc t sat rm s
  | .vsmul sd sa sb rc t sat rm => Sys2Proof.Machine.execVsmul sd sa sb rc t sat rm s
  | .vsfma sd sa sb rc t sat rm => Sys2Proof.Machine.execVsfma sd sa sb rc t sat rm s
  | .vsaxpy sd sa sb rc x t sat rm => Sys2Proof.Machine.execVsaxpy sd sa sb rc x t sat rm s
  | .vsmax sd sa sb rc t => Sys2Proof.Machine.execVsmax sd sa sb rc t s
  | .vsmin sd sa sb rc t => Sys2Proof.Machine.execVsmin sd sa sb rc t s
  | .vsexp sd sa rc x t rm => Sys2Proof.Machine.execVsexp sd sa rc x t rm s
  | .vsred sd sa rc t rm => Sys2Proof.Machine.execVsred sd sa rc t rm s
  | .vsdot sd sa sb rc t rm => Sys2Proof.Machine.execVsdot sd sa sb rc t rm s
  | .vscvt sd sa rc dt st sat rm => Sys2Proof.Machine.execVscvt sd sa rc dt st sat rm s
  | .vscopy sd sa rc t => Sys2Proof.Machine.execVscopy sd sa rc t s
  | .vsfill sd rc x t => Sys2Proof.Machine.execVsfill sd rc x t s
  | .mxwl fmt ra rb => Sys2Proof.Machine.execMxwl fmt ra rb s
  | .mxwf => Sys2Proof.Machine.execMxwf s
  | .mxa fmt rd ra rb rc jn split => Sys2Proof.Machine.execMxa fmt rd ra rb rc jn split s
  | .mxd fmt ra rb rc clr => Sys2Proof.Machine.execMxd fmt ra rb rc clr s
  | .mxz ra rb => Sys2Proof.Machine.execMxz ra rb s
  | .mxstat rd sel => Sys2Proof.Machine.execMxstat rd sel s
  | .mxrem rd ra rb => Sys2Proof.Machine.execMxrem rd ra rb s
  | .cpy rd ra rb => Sys2Proof.Machine.execCpy rd ra rb s
  | .cpyn rd ra rb rc val => Sys2Proof.Machine.execCpyn rd ra rb rc val s
  | .cpy2d rd ra rb rc => Sys2Proof.Machine.execCpy2d rd ra rb rc s
  | .cpyg rd ra rb rc size => Sys2Proof.Machine.execCpyg rd ra rb rc size s
  | .cpye rd ra rb tag => Sys2Proof.Machine.execCpye rd ra rb tag s
  | .qfence mask => Sys2Proof.Machine.execQfence mask s
  | .gang rd ra => Sys2Proof.Machine.execGang rd ra s
  | .detach => Sys2Proof.Machine.execDetach s
  | .rejoin => Sys2Proof.Machine.execRejoin s
  | .chkpt => Sys2Proof.Machine.execChkpt s
  | .stp rd ra rb disp wd rel => Sys2Proof.Machine.execStp rd ra rb disp wd rel s
  | .pushl ra rb => Sys2Proof.Machine.execPushl ra rb s
  | .hold rd ra rb acq => Sys2Proof.Machine.execHold rd ra rb acq s
  | .unhold rd ra rel => Sys2Proof.Machine.execUnhold rd ra rel s
  | .dqpush rd ra => Sys2Proof.Machine.execDqpush rd ra s
  | .dqpop rd wait => Sys2Proof.Machine.execDqpop rd wait s
  | .sync => Sys2Proof.Machine.execSync s
  | .exch rd ra rb dst clear => Sys2Proof.Machine.execExch rd ra rb dst clear s
  | .redv rd ra ch op ty sat => Sys2Proof.Machine.execRedv rd ra ch op ty sat s
  | .domset rd ra => Sys2Proof.Machine.execDomset rd ra s
  | .domget rd sel => Sys2Proof.Machine.execDomget rd sel s
  | .launch rd ra => Sys2Proof.Machine.execLaunch rd ra s
  | .cxopen rd ra rb => Sys2Proof.Machine.execCxopen rd ra rb s
  | .cxclose rd ra => Sys2Proof.Machine.execCxclose rd ra s
  | .cxins rd ra rb rc => Sys2Proof.Machine.execCxins rd ra rb rc s
  | .cxrep rd ra rb rc => Sys2Proof.Machine.execCxrep rd ra rb rc s
  | .cxdel rd ra rb => Sys2Proof.Machine.execCxdel rd ra rb s
  | .cxcommit rd ra rb rc => Sys2Proof.Machine.execCxcommit rd ra rb rc s
  | .cxsettle rd ra => Sys2Proof.Machine.execCxsettle rd ra s
  | .cxwaitb rd ra rb rc => Sys2Proof.Machine.execCxwaitb rd ra rb rc s
  | .cxstate rd ra sel => Sys2Proof.Machine.execCxstate rd ra sel s
  | .cxlen rd ra rb rc => Sys2Proof.Machine.execCxlen rd ra rb rc s
  | .cxfork rd ra rb rc rekey => Sys2Proof.Machine.execCxfork rd ra rb rc rekey s
  | .kvaddr rd ra rb rc => Sys2Proof.Machine.execKvaddr rd ra rb rc s
  | .kvld rd ra rb rc n => Sys2Proof.Machine.execKvld rd ra rb rc n s
  | .kvapp rd ra rb rc => Sys2Proof.Machine.execKvapp rd ra rb rc s
  | .slabgrow rd ra rb rc => Sys2Proof.Machine.execSlabgrow rd ra rb rc s
  | .lah rd ra rb => Sys2Proof.Machine.execLah rd ra rb s
  | .tap rd ra rb rc t => Sys2Proof.Machine.execTap rd ra rb rc t s
  | .tapld rd ra rb op => Sys2Proof.Machine.execTapld rd ra rb op s
  | .rng rd ra rb half => Sys2Proof.Machine.execRng rd ra rb half s
  | .gumb vd va ra rb => Sys2Proof.Machine.execGumb vd va ra rb s
  | .penal vd ra rb => Sys2Proof.Machine.execPenal vd ra rb s
  | .tourn rd ra rb => Sys2Proof.Machine.execTourn rd ra rb s
  | .rsr rd num => Sys2Proof.Machine.execRsr rd num s
  | .wsr num ra => Sys2Proof.Machine.execWsr num ra s
  | .trap imm => Sys2Proof.Machine.execTrap imm s
  | .tret => Sys2Proof.Machine.execTret s
  | .tfence => Sys2Proof.Machine.execTfence s
  | .fetchb => Sys2Proof.Machine.execFetchb s
  | .cwb ra => Sys2Proof.Machine.execCwb ra s
  | .cinv ra => Sys2Proof.Machine.execCinv ra s
  | .iinv ra => Sys2Proof.Machine.execIinv ra s
  | .dmapsel k => Sys2Proof.Machine.execDmapsel k s
  | .dmapld rd ra third => Sys2Proof.Machine.execDmapld rd ra third s
  | .tlbinv ra scope => Sys2Proof.Machine.execTlbinv ra scope s
  | .region rd ra rb c => Sys2Proof.Machine.execRegion rd ra rb c s
  | .freeze rd => Sys2Proof.Machine.execFreeze rd s
  | .stop => Sys2Proof.Machine.execStop s
  | .cVadd vd vs t => Sys2Proof.Machine.execCVadd vd vs t s
  | .cVsub vd vs t => Sys2Proof.Machine.execCVsub vd vs t s
  | .cVmul vd vs t => Sys2Proof.Machine.execCVmul vd vs t s
  | .cVmin vd vs t => Sys2Proof.Machine.execCVmin vd vs t s
  | .cVmax vd vs t => Sys2Proof.Machine.execCVmax vd vs t s
  | .cVand vd vs t => Sys2Proof.Machine.execCVand vd vs t s
  | .cVor vd vs t => Sys2Proof.Machine.execCVor vd vs t s
  | .cVxor vd vs t => Sys2Proof.Machine.execCVxor vd vs t s
  | .cVshl vd vs t => Sys2Proof.Machine.execCVshl vd vs t s
  | .cVshr vd vs t => Sys2Proof.Machine.execCVshr vd vs t s
  | .cVceq vd vs t => Sys2Proof.Machine.execCVceq vd vs t s
  | .cVclt vd vs t => Sys2Proof.Machine.execCVclt vd vs t s
  | .cVmov vd vs t => Sys2Proof.Machine.execCVmov vd vs t s
  | .cVabs vd vs t => Sys2Proof.Machine.execCVabs vd vs t s
  | .cVneg vd vs t => Sys2Proof.Machine.execCVneg vd vs t s
  | .cVspl vd vs t => Sys2Proof.Machine.execCVspl vd vs t s
  | .cMov rd ra => Sys2Proof.Machine.execCMov rd ra s
  | .cAddi rd imm => Sys2Proof.Machine.execCAddi rd imm s
  | .cLi rd imm => Sys2Proof.Machine.execCLi rd imm s
  | .cBz ra off => Sys2Proof.Machine.execCBz ra off s
  | .cBnz ra off => Sys2Proof.Machine.execCBnz ra off s
  | .cJ off => Sys2Proof.Machine.execCJ off s
  | .cLdw rd ra idx => Sys2Proof.Machine.execCLdw rd ra idx s
  | .cStw rd ra idx => Sys2Proof.Machine.execCStw rd ra idx s
  | .cSlli rd sh => Sys2Proof.Machine.execCSlli rd sh s
  | .cSrai rd sh => Sys2Proof.Machine.execCSrai rd sh s
  | .cRet => Sys2Proof.Machine.execCRet s
  | .cNop => Sys2Proof.Machine.execCNop s
  | .cTfence => Sys2Proof.Machine.execCTfence s
  | .cWaitt mask => Sys2Proof.Machine.execCWaitt mask s
  | .dep yield mask tag => Sys2Proof.Machine.execDep yield mask tag s
  | .asyncResultLands core thr id => Sys2Proof.Machine.execAsyncResultLands core thr id s
  | .asyncPoisonTrap core thr => Sys2Proof.Machine.execAsyncPoisonTrap core thr s
  | .vstreamOpRun core => Sys2Proof.Machine.execVstreamOpRun core s
  | .matrixOpRun core => Sys2Proof.Machine.execMatrixOpRun core s
  | .copyOpRun core => Sys2Proof.Machine.execCopyOpRun core s
  | .engineOpComplete core eng => Sys2Proof.Machine.execEngineOpComplete core eng s
  | .mxremArrival core => Sys2Proof.Machine.execMxremArrival core s
  | .pushArrival id => Sys2Proof.Machine.execPushArrival id s
  | .pushOutcome id => Sys2Proof.Machine.execPushOutcome id s
  | .pushInvalidation id => Sys2Proof.Machine.execPushInvalidation id s
  | .registration id => Sys2Proof.Machine.execRegistration id s
  | .registrationReply id => Sys2Proof.Machine.execRegistrationReply id s
  | .readMiss line => Sys2Proof.Machine.execReadMiss line s
  | .forward id => Sys2Proof.Machine.execForward id s
  | .revoke id => Sys2Proof.Machine.execRevoke id s
  | .homeAtomic line => Sys2Proof.Machine.execHomeAtomic line s
  | .holdTimerExpiry core thr line => Sys2Proof.Machine.execHoldTimerExpiry core thr line s
  | .waitwReread core thr => Sys2Proof.Machine.execWaitwReread core thr s
  | .dqpopResearch core thr => Sys2Proof.Machine.execDqpopResearch core thr s
  | .stealRequest core thr => Sys2Proof.Machine.execStealRequest core thr s
  | .barrierComplete core => Sys2Proof.Machine.execBarrierComplete core s
  | .exchangePhaseEnd core outside => Sys2Proof.Machine.execExchangePhaseEnd core outside s
  | .taskInject handle => Sys2Proof.Machine.execTaskInject handle s
  | .unsharingRelocationEnd die => Sys2Proof.Machine.execUnsharingRelocationEnd die s
  | .slabRelocationEnd die => Sys2Proof.Machine.execSlabRelocationEnd die s
  | .kvPageSpill part => Sys2Proof.Machine.execKvPageSpill part s
  | .kvPageResident page => Sys2Proof.Machine.execKvPageResident page s
  | .tapEventEntry part => Sys2Proof.Machine.execTapEventEntry part s
  | .budgetExpiry core thr => Sys2Proof.Machine.execBudgetExpiry core thr s
  | .preemptRequest launch => Sys2Proof.Machine.execPreemptRequest launch s
  | .contextSave launch => Sys2Proof.Machine.execContextSave launch s
  | .preemptTimeout launch => Sys2Proof.Machine.execPreemptTimeout launch s
  | .contextResume launch => Sys2Proof.Machine.execContextResume launch s
  | .timeSliceExpiry launch => Sys2Proof.Machine.execTimeSliceExpiry launch s
  | .lockstepCheckpoint core => Sys2Proof.Machine.execLockstepCheckpoint core s
  | .lockstepMismatch core => Sys2Proof.Machine.execLockstepMismatch core s
  | .launchStart launch => Sys2Proof.Machine.execLaunchStart launch s
  | .launchComplete launch => Sys2Proof.Machine.execLaunchComplete launch s
  | .hostWrite cxl half bytes => Sys2Proof.Machine.execHostWrite cxl half bytes s
  | .hostRead half => Sys2Proof.Machine.execHostRead half s
  | .snoopReply half bytes => Sys2Proof.Machine.execSnoopReply half bytes s
  | .snoopTimeout half => Sys2Proof.Machine.execSnoopTimeout half s
  | .createPartition fn => Sys2Proof.Machine.execCreatePartition fn s
  | .destroyPartition fn => Sys2Proof.Machine.execDestroyPartition fn s
  | .resizePartition fn => Sys2Proof.Machine.execResizePartition fn s
  | .setErrorWindow fn => Sys2Proof.Machine.execSetErrorWindow fn s
  | .fwUpdate fn image => Sys2Proof.Machine.execFwUpdate fn image s
  | .attest fn => Sys2Proof.Machine.execAttest fn s
  | .debugFreeze fn => Sys2Proof.Machine.execDebugFreeze fn s
  | .resume fn => Sys2Proof.Machine.execResume fn s
  | .query fn => Sys2Proof.Machine.execQuery fn s
  | .stepOne fn => Sys2Proof.Machine.execStepOne fn s
  | .readState fn => Sys2Proof.Machine.execReadState fn s
  | .writeState fn bytes => Sys2Proof.Machine.execWriteState fn bytes s
  | .trace fn => Sys2Proof.Machine.execTrace fn s
  | .record fn => Sys2Proof.Machine.execRecord fn s
  | .replay fn => Sys2Proof.Machine.execReplay fn s
  | .mailboxRequestComplete fn => Sys2Proof.Machine.execMailboxRequestComplete fn s
  | .hostMmioWrite fn off bytes => Sys2Proof.Machine.execHostMmioWrite fn off bytes s
  | .domWrite ra => Sys2Proof.Machine.execDomWrite ra s
  | .dmapWrite ra => Sys2Proof.Machine.execDmapWrite ra s
  | .pwbWrite k size ra => Sys2Proof.Machine.execPwbWrite k size ra s
  | .holdstWrite ra => Sys2Proof.Machine.execHoldstWrite ra s
  | .fabricRemoteAccess acc => Sys2Proof.Machine.execFabricRemoteAccess acc s
  | .fabricAck id => Sys2Proof.Machine.execFabricAck id s
  | .fabricDeliveryTimeout id => Sys2Proof.Machine.execFabricDeliveryTimeout id s
  | .fabricLaunchReceive src bytes image => Sys2Proof.Machine.execFabricLaunchReceive src bytes image s
  | .startBarrierComplete gen ok => Sys2Proof.Machine.execStartBarrierComplete gen ok s
  | .linkPortDown port => Sys2Proof.Machine.execLinkPortDown port s
  | .unitRetire unit => Sys2Proof.Machine.execUnitRetire unit s
  | .powerLimitReached => Sys2Proof.Machine.execPowerLimitReached s
  | .l1iFill core line => Sys2Proof.Machine.execL1iFill core line s
  | .uncorrectableError site => Sys2Proof.Machine.execUncorrectableError site s
  | .correctedError unit => Sys2Proof.Machine.execCorrectedError unit s
  | .powerOn images => Sys2Proof.Machine.execPowerOn images s
  | .portTraining port gen => Sys2Proof.Machine.execPortTraining port gen s
  | .hostLinkTraining cxl gen width => Sys2Proof.Machine.execHostLinkTraining cxl gen width s
  | .tlbEntryLeave core cluster index => Sys2Proof.Machine.execTlbEntryLeave core cluster index s
  | .mbdoor fn value => Sys2Proof.Machine.execMbdoor fn value s

end Sys2Proof.Machine
end

