-- ==== Sys2Proof/Machine/Due.lean ====
section
/-!
DEFINITION. The events of the part that are due: those that happen of themselves once their cause is there (log 1: DESIGN CHOICE). An
event that is due and does nothing yet leaves the state as it is. What comes from outside, errors, time-outs and
hardware's free moments are never due: only the agenda names them.
-/
set_option linter.constructorNameAsVariable false

namespace Sys2Proof.Machine

/-- An event of the opcode table that the part can bring about of itself (log 1: DESIGN CHOICE). -/
inductive Due where
  | asyncResultLands (core thr id : Nat)
  | stealRequest (core thr : Nat)
  | dqpopResearch (core thr : Nat)
  | waitwReread (core thr : Nat)
  | vstreamOpRun (core : Nat)
  | matrixOpRun (core : Nat)
  | copyOpRun (core : Nat)
  | engineOpComplete (core : Nat) (eng : Eng)
  | mxremArrival (core : Nat)
  | l1iFill (core line : Nat)
  | holdTimerExpiry (core thr line : Nat)
  | pushArrival (id : Nat)
  | registration (id : Nat)
  | readMiss (line : Nat)
  | homeAtomic (line : Nat)
  | forward (id : Nat)
  | revoke (id : Nat)
  | pushInvalidation (id : Nat)
  | registrationReply (id : Nat)
  | pushOutcome (id : Nat)
  | barrierComplete (core : Nat)
  | exchangePhaseEnd (core : Nat) (lost : List Nat)
  | taskInject (handle : Nat)
  | slabRelocationEnd (die : Nat)
  | unsharingRelocationEnd (die : Nat)
  | kvPageSpill (part : Nat)
  | kvPageResident (page : Nat)
  | launchStart (launch : Nat)
  | launchComplete (launch : Nat)
  | preemptRequest (launch : Nat)
  | timeSliceExpiry (launch : Nat)
  | contextSave (launch : Nat)
  | preemptTimeout (launch : Nat)
  | contextResume (launch : Nat)
  | mailboxRequestComplete (fn : Nat)
  | fabricAck (id : Nat)
  | fabricRemoteAccess (id : Nat)
  | fabricDeliveryTimeout (id : Nat)
  deriving DecidableEq, Repr

/-- What it does: the meaning of its row. -/
def Due.run : Due → State → Res
  | .asyncResultLands core thr id, s => execAsyncResultLands core thr id s
  | .stealRequest core thr, s => execStealRequest core thr s
  | .dqpopResearch core thr, s => execDqpopResearch core thr s
  | .waitwReread core thr, s => execWaitwReread core thr s
  | .vstreamOpRun core, s => execVstreamOpRun core s
  | .matrixOpRun core, s => execMatrixOpRun core s
  | .copyOpRun core, s => execCopyOpRun core s
  | .engineOpComplete core eng, s => execEngineOpComplete core eng s
  | .mxremArrival core, s => execMxremArrival core s
  | .l1iFill core line, s => execL1iFill core line s
  | .holdTimerExpiry core thr line, s => execHoldTimerExpiry core thr line s
  | .pushArrival id, s => execPushArrival id s
  | .registration id, s => execRegistration id s
  | .readMiss line, s => execReadMiss line s
  | .homeAtomic line, s => execHomeAtomic line s
  | .forward id, s => execForward id s
  | .revoke id, s => execRevoke id s
  | .pushInvalidation id, s => execPushInvalidation id s
  | .registrationReply id, s => execRegistrationReply id s
  | .pushOutcome id, s => execPushOutcome id s
  | .barrierComplete core, s => execBarrierComplete core s
  | .exchangePhaseEnd core lost, s => execExchangePhaseEnd core ⟨lost, []⟩ s
  | .taskInject handle, s => execTaskInject handle s
  | .slabRelocationEnd die, s => execSlabRelocationEnd die s
  | .unsharingRelocationEnd die, s => execUnsharingRelocationEnd die s
  | .kvPageSpill part, s => execKvPageSpill part s
  | .kvPageResident page, s => execKvPageResident page s
  | .launchStart launch, s => execLaunchStart launch s
  | .launchComplete launch, s => execLaunchComplete launch s
  | .preemptRequest launch, s => execPreemptRequest launch s
  | .timeSliceExpiry launch, s => execTimeSliceExpiry launch s
  | .contextSave launch, s => execContextSave launch s
  | .preemptTimeout launch, s => execPreemptTimeout launch s
  | .contextResume launch, s => execContextResume launch s
  | .mailboxRequestComplete fn, s => execMailboxRequestComplete fn s
  | .fabricAck id, s => execFabricAck id s
  | .fabricRemoteAccess id, s => execFabricRemoteAccess (.own id) s
  | .fabricDeliveryTimeout id, s => execFabricDeliveryTimeout id s

/-- Events of one thread: results that can land (R81), a steal to answer (R274), a search to repeat (R273), a word to read
again (R139). -/
def State.threadDue (s : State) (n : Nat) (k : Nat) : List Due :=
  let r := (s.thread n (tid k)).run
  (r.pend.filter fun a => (s.thread n (tid k)).canLand a && !(a.kind == .redv)).map (fun a => .asyncResultLands n k a.id)
  ++ (match r.wait with
    | some (.steal _ true) => [.stealRequest n k]
    | some .deque => if s.mayGain n then [.dqpopResearch n k] else []
    | some (.word _ _ _ false) => [.waitwReread n k]
    | _ => [])

/-- Events of the engines of a core (R203, R205, R238). -/
def State.engineDue (s : State) (n : Nat) : List Due :=
  let g := (s.core n).eng
  (if g.vs.any fun c => !c.ran then [.vstreamOpRun n] else [])
  ++ (if g.mx.any fun c => !c.ran then [.matrixOpRun n] else [])
  ++ (if g.cp.any fun c => !c.ran then [.copyOpRun n] else [])
  ++ ([Eng.vs, .mx, .cp].filter fun e => match g.queue e with | c :: _ => c.ran | [] => false).map (fun e => .engineOpComplete n e)
  ++ (if g.inbox.isEmpty then [] else [.mxremArrival n])

/-- Events of one core. -/
def State.coreDue (s : State) (n : Nat) : List Due :=
  let c := s.core n
  (List.range 4).flatMap (s.threadDue n) ++ s.engineDue n
  ++ c.mem.fills.map (fun l => .l1iFill n l)
  ++ (c.req.holds.filter fun h => h.dur = some 0).map (fun h => .holdTimerExpiry n h.thr h.line)
  ++ c.req.pushes.map (fun p => .pushArrival p.id)

/-- The event that serves a request at home. -/
def HomeReq.event (r : HomeReq) : Due :=
  match r.op with
  | .reg _ _ | .write _ => .registration r.id
  | .read _ _ => .readMiss r.line
  | .atomic _ _ _ _ => .homeAtomic r.line
  | .push _ => .pushArrival r.id

/-- The event of a message at its core. -/
def Probe.event (p : Probe) : Due :=
  match p.kind with
  | .fwd => .forward p.id
  | .rev => .revoke p.id
  | .inv => .pushInvalidation p.id

/-- Events of the home slices. -/
def State.homeDue (s : State) : List Due :=
  (s.mem.homeq.filter fun r => s.atHead r || s.urgent r).map HomeReq.event
  ++ (s.mem.probes.filter s.probeDue).map Probe.event
  ++ (s.mem.replies.filter s.replyDue).map (fun r => .registrationReply r.id)
  ++ s.mem.pushes.map fun m => if m.outcome.isNone then .pushArrival m.id else .pushOutcome m.id

/-- Events of the supersteps: barriers that can complete (R299), phases that end (R304). The end of a phase of a domain that
spans modules brings what members elsewhere have sent: only the agenda names it. -/
def State.domainDue (s : State) : List Due :=
  (s.cores.filter fun c => (c.2.sup.arrived || (s.domKey c.1).spans) && s.barrierReady (s.domKey c.1)).map (fun c => .barrierComplete c.1)
  ++ s.bars.filterMap fun b => if b.phase && !b.key.spans then b.members.head?.map fun n => .exchangePhaseEnd n [] else none

/-- Events of the sequencers (R330, R345, R346) and of the K/V pages (R351). -/
def State.seqDue (s : State) : List Due :=
  (s.seqs.filter fun q => !q.inject.isEmpty && (s.injectTo q).isSome).map (fun q => .taskInject q.handle)
  ++ (s.relocs.filter Reloc.begun).map (fun r => if r.grow.isSome then .slabRelocationEnd r.die else .unsharingRelocationEnd r.die)
  ++ (s.parts.filter s.overFull).map (fun p => .kvPageSpill p.id)
  ++ (s.kvpages.filter fun p => p.spilled && p.fetch).map fun p => .kvPageResident p.pa

/-- Events of a launch (R309, R310, R386, R389). -/
def State.launchDue (s : State) (l : Launch) : List Due :=
  match l.phase with
  | .waiting => if s.granted l || (s.predecessor l).isNone then [.launchStart l.id] else []
  | .running =>
    (if s.finished l then [.launchComplete l.id] else [])
    ++ (if s.wanted l true then [.preemptRequest l.id] else [])
    ++ (if s.sliceOf l ≤ l.used && s.wanted l false then [.timeSliceExpiry l.id] else [])
  | .preempting =>
    (if s.finished l then [.launchComplete l.id] else if s.savable l then [.contextSave l.id] else [])
    ++ (if graceCycles ≤ l.since && !(s.unparked l).isEmpty then [.preemptTimeout l.id] else [])
  | .saved => if s.granted l then [.contextResume l.id] else []
  | .done => []

/-- Events of the mailboxes and of the fabric. An access to a module without a path is not delivered (R414). -/
def State.outerDue (s : State) : List Due :=
  (s.host.boxes.filter fun b => b.2.busy).map (fun b => .mailboxRequestComplete b.1)
  ++ (s.fabric.remote.filter fun r => r.val.isSome || s.mayPass r).map fun r =>
    if r.val.isSome then .fabricAck r.id else if s.cutOff r then .fabricDeliveryTimeout r.id else .fabricRemoteAccess r.id

/-- The events that are due now. -/
def State.due (s : State) : List Due :=
  (s.cores.map Prod.fst).flatMap s.coreDue ++ s.homeDue ++ s.domainDue ++ s.seqDue ++ s.launches.flatMap s.launchDue
  ++ s.outerDue

end Sys2Proof.Machine
end

