-- ==== Sys2Proof/Machine/Schedule.lean ====
section
/-!
DEFINITION. One step of the part: which agent moves (spec/10 R190, spec/03 R83, log 1: DESIGN CHOICE), issuing one instruction with its
prefix (spec/03 R83, R95, R101; spec/16 R314), what follows an issue (spec/10 R200, R209, R210; spec/16 R316, R318, R319),
and the passing of time.
-/
set_option linter.constructorNameAsVariable false

namespace Sys2Proof.Machine

/-! ### Decoding for a thread -/

/-- The decode table that a thread's DMAP.SEL names (spec/03 R95). -/
def State.decodeTable (s : State) (n : Nat) (t : BitVec 2) : Nat → Option Op :=
  match (s.thread n t).sp.sel.toNat, s.coreLaunch n with
  | 0, _ => nativeOp
  | 1, _ => jx7Op
  | 2, some l => loadedOp l.table2
  | _, some l => loadedOp l.table3
  | _, none => fun _ => none

/-- The instruction word at the start of bytes, as TVAL of ILLEGAL holds it (spec/03 R100). -/
def wordAt (bs : List Byte) : Word :=
  match bs with
  | b :: _ => BitVec.ofNat 64 (leNat (bs.take (wordLen (b.setWidth 64))))
  | [] => 0

/-- An instruction read for issue: its prefix, itself, its length and its word; or the word that is ILLEGAL. -/
inductive Read where
  | illegal (w : Word)
  | plain (i : Instr) (len : Nat) (w : Word)
  | prefixed (d i : Instr) (len : Nat) (w : Word)
  deriving DecidableEq, Repr

/-- The instruction that has been read. -/
def Read.instr : Read → Option Instr
  | .illegal _ => none
  | .plain i _ _ => some i
  | .prefixed _ i _ _ => some i

/-- Decodes the bytes of an instruction with its prefix (spec/03 R83, R100). -/
def readInstr (table : Nat → Option Op) (bs : List Byte) : Read :=
  match decodeBytes table bs with
  | none => .illegal (wordAt bs)
  | some (.dep y m g, k) =>
    let inner := bs.drop k
    match decodeBytes table inner with
    | none => .illegal (wordAt inner)
    | some (.dep _ _ _, _) => .illegal (wordAt inner)
    | some (i, len) => .prefixed (.dep y m g) i len (wordAt inner)
  | some (i, len) => .plain i len (wordAt bs)

/-- The lowest armed breakpoint at an address (spec/16 R314). -/
def Thread.breakAt (t : Thread) (a : Word) : Option (BitVec 2) :=
  if t.sp.noBkpt then none
  else [0#2, 1#2, 2#2, 3#2].find? fun k => (get4 t.sp.bkpt k).getLsbD 0 && even (get4 t.sp.bkpt k) == a

/-! ### Issuing -/

/-- Is the thread an attached follower (spec/10 R209)? -/
def State.attached (s : State) (n : Nat) (t : BitVec 2) : Bool :=
  match s.gangSlot n t.toNat with
  | some g => g.attached && g.leader != n
  | none => false

/-- The next instruction's bytes: of the forward queue for an attached follower, with the leader's next address and how the
leader came there, else captured (spec/10 R209, R210). -/
def State.bytesFor (s : State) (n : Nat) (t : BitVec 2) : State × Fetched × Option (Word × Nat) :=
  if s.attached n t then
    match (s.thread n t).run.fwdq with
    | [] => (s, .wait, none)
    | e :: _ =>
      if e.bytes.isEmpty then
        let r := (s.detach n t.toNat).fetch n t
        (r.1, r.2, none)
      else (s, .ok e.bytes, some (e.next, e.how))
  else
    let r := s.fetch n t
    (r.1, r.2, none)

/-- The next instruction's bytes; fixed-latency results that it reads have been delivered (spec/08 R186). -/
def State.nextBytes (s : State) (n : Nat) (t : BitVec 2) : State × Fetched × Option (Word × Nat) :=
  match s.bytesFor n t with
  | (s, .ok bs, led) =>
    (match (readInstr (s.decodeTable n t) bs).instr with | some i => s.landRead n t i | none => s, .ok bs, led)
  | r => r

/-- The thread stops because its handler cannot be fetched (spec/07 R170): its context is faulted, with a record of
kind 16 (spec/21 R398). Its core's other threads continue, and the core may now arrive (spec/16 R298). -/
def State.vectorFault (s : State) (n : Nat) (t : BitVec 2) (c : Cause) : State :=
  let th := s.thread n t
  (((s.contextRecord n t.toNat 16 c.code.toNat th.trap.tpc.toNat th.trap.tvec.toNat).onThread n t fun th =>
    { th with run := { th.run with life := .faulted, wait := none } }).onCoreLaunch n fun l =>
      { l with faulted := true }).rearrive n

/-- The context of an issue: the instruction at `a`, its word at `p`.
(log 19: DEDUCED) -/
def State.issuing (s : State) (n : Nat) (t : BitVec 2) (a p : Word) (len : Nat) (w : Word) : State :=
  { s with ctx := ⟨n, t, a, p, len, w, 0, false, .stalled⟩ }

/-- A privileged instruction or register at U level traps PRIV before the other traps of the instruction (spec/03 R101): the
state in which it has. -/
def State.privFirst (s : State) (i : Instr) : Option State :=
  if s.level = .u then
    match exec i s with
    | .next r =>
      if r.ctx.fate = .trapped && (r.thread s.ctx.core s.ctx.thr).trap.tcause == Cause.priv.code then some r else none
    | _ => none
  else none

/-- Runs the executing instruction, behind its prefix if it has one. -/
def State.execute (s : State) (d : Option Instr) (i : Instr) : Res :=
  match d with
  | none => exec i s
  | some d =>
    match s.privFirst i with
    | some r => .next r
    | none =>
      match exec d s with
      | .next s1 => if s1.ctx.fate = .issued then exec i (s1.fated .stalled) else .next s1
      | r => r

/-- Has the instruction that waits issued: has it done something beside asking whether it may? -/
def Wait.issued : Wait → Bool
  | .tags _ | .fetch | .release | .windows | .queue | .room | .unit | .pushes | .translate | .decode _ | .holdWay | .ownWord
  | .rejoin | .engines _ | .region => false
  | _ => true

/-- Runs an instruction after the checks that precede its own: BREAK, then damage in what it reads, which its own PRIV
precedes (spec/03 R101, spec/07 R167). They are made before it issues, and not of one that has issued and waits
(spec/16 R314). -/
def State.checked (s : State) (d : Option Instr) (i : Instr) : Res :=
  if s.stage.any Wait.issued then s.execute d i
  else
    match s.cur.breakAt s.ctx.a with
    | some k => .next (s.trap .break (k.setWidth 64))
    | none =>
      match s.takeDamage s.ctx.core s.ctx.thr i with
      | some r => .next ((s.privFirst i).getD (r.fated .trapped))
      | none => s.execute d i

/-- Runs what has been read for issue (spec/03 R101). -/
def State.runInstr (s : State) (n : Nat) (t : BitVec 2) (r : Read) : Res :=
  let a := (s.thread n t).pc
  match r with
  | .illegal w => .next ((s.issuing n t a a 0 w).trap .illegal w)
  | .plain i len w => (s.issuing n t a a len w).checked none i
  | .prefixed d i len w => (s.issuing n t a (a + 2) len w).checked (some d) i

/-- Does the instruction count as retired? A TRAP completes before it traps (spec/07 R174). -/
def retired (f : Fate) (r : Read) : Bool :=
  match f, r with
  | .issued, _ | .jumped, _ | .ended, _ => true
  | .trapped, .plain (.trap _) _ _ | .trapped, .prefixed _ (.trap _) _ _ => true
  | _, _ => false

/-- The captures that the issue brings (spec/10 R200): block b + 2 as execution enters block b + 1, the blocks of LSk at
a loop-back. -/
def State.prefetch (s : State) (n : Nat) (t : BitVec 2) : State :=
  let th := s.thread n t
  if th.run.install || (!th.run.fbuf.bytes.isEmpty && blockOf th.pc != th.run.fbuf.base.toNat) then s.fillBuf n t else s

/-- How the executing thread came to its next address: 0 in sequence, 1 by a taken transfer, 2 by a loop-back. -/
def State.outcome (s : State) (n : Nat) (t : BitVec 2) : Nat :=
  if s.ctx.fate = .jumped then 1 else if (s.thread n t).run.install then 2 else 0

/-- A counter sample, as an instruction has issued: neither a request nor a register names the counter or the moment, so both
are free (spec/16 R316; log 95: DESIGN CHOICE). -/
def State.sample (s : State) (n : Nat) (t : BitVec 2) : State :=
  let asked := ((s.corePart n).bind Partition.trace).any fun tr => tr.kinds.getLsbD 5
  if asked && s.choice 950 then s.traceRec n t.toNat 5 s.ctx.a (get4 (s.core n).regs.pm.cnt ((s.free 951).setWidth 2)) else s

/-- What an issue brings about beside the instruction's own effect: counters, trace and signature of a taken transfer,
the gang (`before` are the followers attached before the instruction, spec/10 R209, R211), the captures. A follower whose
outcome or next address is not its leader's (`led`) detaches (spec/10 R210). -/
def State.afterIssue (s : State) (n : Nat) (t : BitVec 2) (bs : List Byte) (led : Option (Word × Nat)) (r : Read)
    (before : List Nat) : State :=
  let f := s.ctx.fate
  let s := if retired f r then ((s.count n (some t) 2 1).sample n t).onCore n fun c => { c with last := t } else s
  if f = .issued || f = .jumped then
    let pc := (s.thread n t).pc
    let how := s.outcome n t
    let s := match r.instr with | some i => s.markLate n t i | none => s
    let s := if f = .jumped then (s.sign n t pc).traceRec n t.toNat 3 s.ctx.a pc else s
    match led with
    | some nx =>
      let s := s.onThread n t fun th => { th with run := { th.run with fwdq := th.run.fwdq.drop 1, install := false } }
      if nx = (pc, how) then s else s.detach n t.toNat
    | none =>
      let dst0 := before ++ (s.attachedTo n t.toNat).filter fun m => !before.contains m
      ((s.forward dst0 t.toNat ⟨bs, pc, how⟩).prefetch n t)
  else s

/-- Has a thread's instruction not yet looked at its condition? A DQPOP.wait whose last request has returned nothing sends no
other (spec/13 R273). -/
def Thread.unasked (t : Thread) : Bool :=
  match t.run.wait with
  | none | some (.steal _ false) => true
  | _ => false

/-- One look of a thread at its next instruction: something taken first, a fetch that waits or faults, or the
instruction. -/
def State.issue (s : State) (n : Nat) (t : BitVec 2) : Res :=
  match s.takeAsync n t with
  | some s => .next (s.fated .trapped)
  | none =>
    match s.nextBytes n t with
    | (s, .wait, _) => .next s
    | (s, .trap c v, _) =>
      if (s.thread n t).run.entered && (c == .fetchFault || c == .windowCross) then
        .next ((s.vectorFault n t c).fated .trapped)
      else .next ((s.trapAt n t (s.thread n t).pc c v).fated .trapped)
    | (s, .ok bs, led) =>
      let r := readInstr (s.decodeTable n t) bs
      if s.preempting n && (s.thread n t).unasked && (match r.instr with | some i => Instr.parksAt i | none => false)
      then .next (s.park n t)
      else
        let blocking := match r.instr with
          | some i => (s.issuing n t 0 0 0 0).blockingInstr i
          | none => false
        match s.runInstr n t r with
        | .next s' =>
          .next ((s'.parkIfBlocked n t blocking).afterIssue n t bs led r (s.attachedTo n t.toNat))
        | o => o

/-! ### Time -/

/-- Is there a live thread of a core, one that a counter counts, of which something holds? -/
def Core.counted (c : Core) (sel : BitVec 11) (f : Thread → Bool) : Bool :=
  [0#2, 1#2, 2#2, 3#2].any fun t =>
    (get4 c.thr t).run.life == .live && f (get4 c.thr t) && (!sel.getLsbD 10 || t == sel.extractLsb' 8 2)

/-- Does a thread wait in a DEP (spec/03 R83): it waits for tags, and its instruction begins with the prefix? -/
def Thread.inDep (t : Thread) : Bool :=
  let bs := match t.run.fwdq with
    | e :: _ => e.bytes
    | [] => (t.run.fbuf.bytes.map Prod.fst).drop (t.pc - t.run.fbuf.base).toNat
  (match t.run.wait with | some (.tags _) => true | _ => false) && bs.head?.any isDep

/-- What `d` cycles add to a counter (spec/16 R318): cycles; cycles in which a probe waits in the hold queue, between the
core's arrival and its barrier's completion, in which a thread waits for a full engine queue; a free part of them as issue
cycles lost to DEP waits and as bank stalls (log 2: DESIGN CHOICE). ONE = 1 leaves the events that belong to no thread as they
are (log 108: DESIGN CHOICE). -/
def Core.timeCount (c : Core) (sel : BitVec 11) (d : Nat) (free : Nat → Nat) : Nat :=
  let whole (b : Bool) : Nat := if b then d else 0
  match (sel.extractLsb' 0 8).toNat with
  | 1 => d
  | 3 => if c.counted sel Thread.inDep then free 3 % (d + 1) else 0
  | 6 => if c.counted sel (fun _ => true) then free 6 % (d + 1) else 0
  | 9 => whole (c.req.holds.any fun h => !h.queue.isEmpty)
  | 10 => whole (c.sup.arrived && !c.thr.toList.any fun t => match t.run.wait with | some (.passed _) => true | _ => false)
  | 12 => whole (c.counted sel fun t =>
      match t.run.wait with
      | some .queue => [c.eng.vs, c.eng.mx, c.eng.cp].any fun q => 2 ≤ q.length
      | some (.kvRows _ _ true) => true
      | _ => false)
  | _ => 0

/-- What `d` cycles do to a core that runs a launch: CYCLE, armed budgets, hold timers (spec/13 R267), counters.
(log 16: DESIGN CHOICE) -/
def Core.pass (c : Core) (d : Nat) (free : Nat → Nat) : Core :=
  if c.launch.isNone then c
  else
    let low (x : Thread) : Thread :=
      if x.sp.lkbud.en && x.run.life == .live then
        { x with sp := { x.sp with lkbud := { x.sp.lkbud with left := BitVec.ofNat 32 (x.sp.lkbud.left.toNat - d) } } }
      else x
    let cnt := [0#2, 1#2, 2#2, 3#2].foldl (fun v k =>
      set4 v k (get4 v k + BitVec.ofNat 64 (c.timeCount (get4 c.regs.pm.sel k) d free))) c.regs.pm.cnt
    { c with
      thr := [0#2, 1#2, 2#2, 3#2].foldl (fun v k => set4 v k (low (get4 v k))) c.thr
      req := { c.req with holds := c.req.holds.map fun h => { h with dur := h.dur.map fun k => k - d } }
      regs := { c.regs with cycle := c.regs.cycle + BitVec.ofNat 64 d, pm := { c.regs.pm with cnt := cnt } } }

/-- What `d` cycles do to a launch: its slice, the time since a pre-emption request (spec/16 R312), CYCLE of its saved
cores (spec/16 R310). -/
def Launch.pass (l : Launch) (d : Nat) : Launch :=
  match l.phase with
  | .running => { l with used := l.used + d }
  | .preempting => { l with used := l.used + d, since := l.since + d }
  | .saved =>
    { l with saved := l.saved.map fun p =>
        (p.1, { p.2 with regs := { p.2.regs with cycle := p.2.regs.cycle + BitVec.ofNat 64 d } }) }
  | _ => l

/-- The time that one step takes passes on every core and launch: a free number of cycles, at least one on a core that has
issued an instruction, for a core issues at most one in a cycle (spec/10 R190; log 2: DESIGN CHOICE). Steps of other agents may
fall into one cycle. The next step begins with nothing issued. -/
def State.passTime (s : State) : State :=
  let d := Config.extraCycles s.tick
  let of (n : Nat) : Nat := if s.ctx.fate != .stalled && s.ctx.core = n then d + 1 else d
  { s with
    tick := s.tick + 1
    ctx := { s.ctx with fate := .stalled }
    launches := s.launches.map fun l => l.pass d
    cores := s.cores.map fun c => (c.1, c.2.pass (of c.1) fun e => (Config.freeWord s.tick (2 ^ 60 + e)).toNat) }

/-! ### Who moves -/

/-- Does a thread's next instruction find the core's divide and square-root unit busy (spec/06 R145, spec/10 R190)? What is
taken before the instruction does not need it. -/
def State.unitBusy (s : State) (n : Nat) (t : BitVec 2) : Bool :=
  ((s.core n).thr.toList.any fun th => th.run.pend.any fun a => a.kind == .fdiv) && (s.takeAsync n t).isNone
  && match (s.nextBytes n t).2.1 with
    | .ok bs => match (readInstr (s.decodeTable n t) bs).instr with
      | some (.fdiv _ _ _ _ _) | some (.fsqrt _ _ _ _) => true
      | _ => false
    | _ => false

/-- Can a thread be taken up? It is live and not parked, unless it completes a synchronous access (spec/16 R309), its core is
no shadow, whose threads are those of its pair (spec/10 R212), its domain is not frozen unless it is being stepped
(spec/16 R313, R315), and the unit that its instruction needs accepts it. -/
def State.canMove (s : State) (n : Nat) (t : BitVec 2) : Bool :=
  let th := s.thread n t
  th.run.life == .live && (!th.run.parked || th.completing) && !s.shadow n
  && (!s.frozen n || s.host.stepping.any fun x => x.2.1 = n && x.2.2.1 = t.toNat && !x.2.2.2)
  && !s.unitBusy n t

/-- The order in which a core's selector considers its threads: T + 1, T + 2, T + 3, T (spec/10 R190), those it passes over
once for a yield after the others (spec/03 R83). -/
def State.order (s : State) (n : Nat) : List (BitVec 2) :=
  let l := (s.core n).last
  let all := [l + 1, l + 2, l + 3, l].filter (s.canMove n)
  let skip (t : BitVec 2) : Bool := (s.core n).skip.getLsbD t.toNat
  all.filter (fun t => !skip t) ++ all.filter skip

/-- The selector has considered its threads up to `t`: a yield is spent (spec/03 R83). Thread `t` is to look at its next
instruction: the core's first one of the launch begins (spec/16 R307), and what an earlier one has read of the fabric window
is gone. -/
def State.considered (s : State) (n : Nat) (t : BitVec 2) : State :=
  let l := (s.core n).last
  let passed := [l + 1, l + 2, l + 3, l].takeWhile (· != t)
  (s.onThread n t fun th => if th.run.wait.isNone then { th with run := { th.run with reads := [] } } else th).onCore n fun c =>
    { c with
      skip := (t :: passed).foldl (fun m k => m &&& ~~~(BitVec.ofNat 4 (2 ^ k.toNat))) c.skip
      sup := { c.sup with start := c.sup.start.orElse fun _ => some c.regs.cycle } }

/-- Who moves when the agenda names nobody. -/
inductive Turn where
  | core (n : Nat)
  | due (d : Due)
  deriving DecidableEq, Repr

/-- Events that are due and cores by turns (log 1: DESIGN CHOICE). -/
def State.pick (s : State) : Option Turn :=
  let due := s.due
  let ev : Option Turn := (due[(s.tick / 2) % due.length]?).map .due
  let ns := (s.cores.map Prod.fst).filter fun n => !(s.order n).isEmpty
  let th : Option Turn := (ns[(s.tick / 2) % ns.length]?).map .core
  if s.tick % 2 = 0 then ev.orElse fun _ => th else th.orElse fun _ => ev

/-- Is the instruction one that only a thread executes? Such a one is no event. -/
def Instr.isEvent (i : Instr) : Bool :=
  match i with
  | .domWrite _ | .dmapWrite _ | .pwbWrite _ _ _ | .holdstWrite _ => false
  | i => (encode i).isNone

/-- The first STEP request of a thread whose instruction has not been executed has been served. -/
def stepDone (n t : Nat) : List (Nat × Nat × Nat × Bool) → List (Nat × Nat × Nat × Bool)
  | [] => []
  | (f, c, k, done) :: rest =>
    if c = n && k = t && !done then (f, c, k, true) :: rest else (f, c, k, done) :: stepDone n t rest

/-- A look of the thread that a STEP request steps: the instruction is over once it has issued, trapped or ended its thread; one
that is yet to be fetched, or waits, is not (spec/16 R315). A lockstep pair notes it. -/
def State.stepMark (s : State) (n : Nat) (t : BitVec 2) : State :=
  let s := if s.lockstep n && s.ctx.fate != .stalled then
      s.onCore n fun c => { c with lock := { c.lock with issued := true } }
    else s
  if s.ctx.fate != .stalled || (s.thread n t).run.life != .live then
    { s with host := { s.host with stepping := stepDone n t.toNat s.host.stepping } }
  else s

/-! ### Lockstep (spec/10 R214) -/

/-- The words that an L1 owns, by line. -/
def Core.owned (c : Core) : List (Nat × List (BitVec 5 × LWord)) :=
  (c.mem.l1.map fun l => (l.num, (allWords.filterMap fun w => if (get32 l.words w).st = .o then some (w, get32 l.words w) else none))).filter
    fun p => !p.2.isEmpty

/-- What a core holds that neither a rollback restores nor time alone or a fetch changes: its requests, superstep, deque,
gang and core registers. -/
def Core.beyond (c : Core) : Core :=
  { c with
    thr := Vector.replicate 4 Thread.init, last := 0, skip := 0, eng := Core.init.eng, lock := Core.init.lock
    mem := { Core.init.mem with gen := c.mem.gen }
    regs := { c.regs with cycle := 0, pm := Core.init.regs.pm }
    sup := { c.sup with start := none } }

/-- The part outside a pair, without what is on its way. -/
def State.outside (s : State) (n : Nat) : State :=
  { s with
    ctx := State.reset.ctx, agenda := [], tick := 0, nextId := 0, ctlb := []
    cores := s.cores.filter fun c => c.1 != n && c.1 != n + 1
    mem := { s.mem with homeq := [], probes := [], replies := [], pushes := [], snoops := [], late := [], traces := [] }
    parts := s.parts.map fun p => { p with trace := none }
    fabric := { s.fabric with remote := [] } }

/-- Does a queued command reach outside its core? -/
def Cmd.reaches (c : Cmd) : Bool :=
  match c.instr with
  | .cpy _ _ _ | .cpyn _ _ _ _ _ | .cpy2d _ _ _ _ => remoteAddr c.a || remoteAddr c.d
  | .cpyg _ _ _ _ _ | .cpye _ _ _ _ | .kvld _ _ _ _ _ | .kvapp _ _ _ _ | .tap _ _ _ _ _ => true
  | _ => false

/-- The address that an instruction accesses as data. -/
def State.dataAddr (s : State) : Instr → Option Word
  | .ld _ ra d wd _ | .st _ ra d wd _ => some (s.addrUnits ra d (wsize wd))
  | .ldx _ ra rb wd _ | .stx _ ra rb wd _ => some (s.addrIndex ra rb (wsize wd))
  | .ldl _ ra d _ _ | .stl _ ra d _ _ | .vld _ ra d _ _ | .vst _ ra d _ _ | .ldm _ ra d _ | .stm _ ra d _
  | .stp _ ra _ d _ _ => some (s.addrLong ra d)
  | .cLdw _ ra k | .cStw _ ra k => some (s.addrUnits (oreg ra) (k.setWidth 5) 4)
  | .amo _ ra _ _ _ _ | .cas _ ra _ _ _ _ | .waitw _ ra _ _ _ _ => some (s.rd ra)
  | _ => none

/-- Is an instruction a request to the home sequencer or the scheduler, or one that reads a list or an image at home? -/
def Instr.asks : Instr → Bool
  | .cxopen _ _ _ | .cxdel _ _ _ | .lah _ _ _ | .tapld _ _ _ _ | .cxclose _ _ | .cxsettle _ _ | .cxstate _ _ _
  | .cxins _ _ _ _ | .cxrep _ _ _ _ | .cxcommit _ _ _ _ | .cxwaitb _ _ _ _ | .cxlen _ _ _ _ | .cxfork _ _ _ _ _
  | .kvaddr _ _ _ _ | .slabgrow _ _ _ _ | .launch _ _ | .region _ _ _ _ | .tlbinv _ _ | .dmapld _ _ _ => true
  | _ => false

/-- Has a fault come from a page-table walk: no translation covers its address? -/
def State.walkedTo (s : State) (n : Nat) (va : Nat) : Bool :=
  match zoneOf va, s.coreLaunch n with
  | .global, some l =>
    let hit (e : TlbEnt) : Bool := e.covers l.part l.asid va
    !((s.core n).mem.tlb.any hit || ((assoc s.ctlb (clusterOf n)).getD []).any hit)
  | _, _ => false

/-- Has a thread seen a waited word past L1, and waits on (spec/05 R139)? -/
def State.sawWord (s before : State) (n : Nat) (t : BitVec 2) : Bool :=
  match (before.thread n t).run.wait, (s.thread n t).run.wait with
  | some (.word _ _ _ false), _ => false
  | some (.word ps _ _ true), some (.word _ _ _ false) => !allOwn ps
  | some (.wordGot _ _ _ _), _ => false
  | _, some (.word ps _ _ false) => !allOwn ps && ((globals ps).isEmpty || (s.wordInL1 n ps).isNone)
  | _, _ => false

/-- Has the instruction that has just issued or trapped made a request outside its core that was performed at once
(spec/10 R214, log 46: DEDUCED)? `before` is the state before the step. Not the loads and atomics that land later. -/
def State.askedOut (s before : State) (n : Nat) : Bool :=
  let t := s.ctx.thr
  let th := s.thread n t
  let b := before.issuing n t 0 0 0 0
  match (decodeBytes (before.decodeTable n t) (leBytes s.ctx.len s.ctx.word.toNat)).map Prod.fst with
  | some i =>
    let peer : Bool := (b.dataAddr i).any fun a => match zoneOf a.toNat with | .peer _ _ => true | _ => false
    let lands : Bool := th.run.pend.any fun a => !(before.thread n t).run.pend.any fun b => b.id = a.id
    let word : Bool := match i, (before.thread n t).run.wait with
      | .waitw _ ra _ _ _ _, some (.word _ _ _ _) => remoteAddr (b.rd ra)
      | .waitw _ ra _ _ dbl _, _ => match b.checkCur .read (b.rd ra) (if dbl then 8 else 4) with
          | (u, .ok ps) => !allOwn ps && (u.wordInL1 n ps).isNone
          | _ => false
      | _, _ => false
    let fault : Bool := s.ctx.fate = .trapped && [Cause.loadFault, .storeFault, .fetchFault].any fun c =>
      th.trap.tcause == c.code && before.walkedTo n th.trap.tval.toNat
    fault || word || Instr.asks i || (peer && !lands)
  | none => false

/-- Has a request of a pair been performed at once in this step: a word that its L1 owns, its own requests and registers,
or, with its own state, the part outside it, is not as before; an engine has read or written outside it; a page-table walk
has given it a translation; a steal request has returned; a waited word has been seen; or its instruction has made one
(log 46: DEDUCED)? -/
def State.requested (s before : State) (n : Nat) : Bool :=
  let a := before.core n
  let b := s.core n
  !(a.owned.all b.owned.contains && b.owned.all a.owned.contains) || a.beyond != b.beyond
  || (a != b && before.outside n != s.outside n)
  || (a.eng.cp ++ a.eng.vs).any (fun c => c.reaches && !c.moved && !c.ran
      && !(b.eng.cp ++ b.eng.vs).any fun x => x.id = c.id && !x.moved && !x.ran)
  || b.mem.tlb.any (fun e => !a.mem.tlb.contains e)
  || (b.lock.issued && s.ctx.core = n && s.ctx.a == (before.thread n s.ctx.thr).pc && s.askedOut before n)
  || [0#2, 1#2, 2#2, 3#2].any (s.sawWord before n)
  || [0#2, 1#2, 2#2, 3#2].any fun t =>
      (match (get4 a.thr t).run.wait with | some (.steal _ true) => true | _ => false)
      && (get4 a.thr t).run.wait != (get4 b.thr t).run.wait

/-- A pair takes its checkpoint once a request that had left it has completed, one that is performed at once included, and
when its undo log is full. -/
def State.checkpoints (s before : State) : State :=
  (before.cores.filter fun c => c.2.lock.en && !c.2.lock.shadow).foldl (fun s c =>
    let now := s.leftCore c.1
    let s1 :=
      if s.lockstep c.1 && (112 ≤ (s.core c.1).lock.log.length || (before.leftCore c.1).any (fun id => !now.contains id)
        || s.requested before c.1) then s.checkpoint c.1
      else s
    if s1.lockstep c.1 then s1.onCore c.1 fun c => { c with lock := { c.lock with issued := false } } else s1) s

/-- The shadow of a pair runs the same threads on the same registers and memories, and its engines do the same
(spec/10 R212, R213): what leaves the pair leaves it once, from core 2k. -/
def State.mirror (s : State) : State :=
  (s.cores.filter fun c => c.2.lock.en && !c.2.lock.shadow).foldl (fun s c =>
    s.onCore (c.1 + 1) fun x =>
      { x with
        thr := c.2.thr, last := c.2.last, skip := c.2.skip, mem := { c.2.mem with fills := [] }
        eng := { c.2.eng with vs := [], mx := [], cp := [], inbox := [] }, regs := c.2.regs }) s

/-- One look of a thread at its next instruction. -/
def State.look (s : State) (n : Nat) (t : BitVec 2) : Res :=
  match (s.fated .stalled).issue n t with
  | .next s' => .next (s'.stepMark n t)
  | o => o

/-- A thread is taken up. -/
def State.takeUp (s : State) (n : Nat) (t : BitVec 2) : Res :=
  if s.canMove n t then (s.considered n t).look n t else .next s

/-- A core's cycle (spec/10 R190): the selector considers its threads in order and issues the first one that is ready. One
that is not ready waits, with what its look has set going. -/
def State.looks (s : State) (n : Nat) : List (BitVec 2) → Res
  | [] => .next (s.onCore n fun c => { c with skip := 0 })
  | t :: rest =>
    match (s.considered n t).look n t with
    | .next s' => if s'.ctx.fate = .stalled then s'.looks n rest else .next s'
    | o => o

/-- What an agent that the agenda names does.
(log 7: DESIGN CHOICE) -/
def State.act (s : State) (a : Agent) : Res :=
  match a with
  | .thread n t => if Config.numCores ≤ n then .fault .noSuchCore else s.takeUp n (tid t)
  | .event e => if Instr.isEvent e && e.wellFormed then exec e s else .refused .illFormedEvent

/-- What happens when the agenda names nobody. -/
def State.turn (s : State) : Res :=
  match s.pick with
  | some (.core n) => s.looks n (s.order n)
  | some (.due d) => d.run (s.fated .stalled)
  | none => .next s

/-- A rewrite of domain table entries re-derives the STATE of the sequences that they serve (spec/17 R323). -/
def State.refreshed (s before : State) : State :=
  if s.domtab == before.domtab then s else s.parts.foldl (fun s p => s.refreshSeqs p.id) s

/-- The end of a step: the STATE of sequences whose domain has been rewritten, what home can take of the part's own late
writes, checkpoints of lockstep pairs, whose shadows follow them, trace records that leave their queues, then time passes. -/
def State.close (before s : State) : State := (((s.refreshed before).drain.checkpoints before).mirror.traceOut).passTime

/-- One step of the part: the agent that the agenda names, else the one whose turn it is. -/
def State.oneStep (s : State) : Res :=
  let r := match s.agenda with
    | a :: rest => ({ s with agenda := rest }).act a
    | [] => s.turn
  match r with
  | .next s' => .next (s.close s')
  | o => o

end Sys2Proof.Machine
end

