-- ==== Sys2Proof/Machine/Step.lean ====
section
/-!
DEFINITION. The step of the part, and the placing of one instruction where the next step fetches it.
-/
namespace Sys2Proof.Machine

/-- One step (log 1: DESIGN CHOICE). -/
def step (s : State) : Host.Outcome State Fault Refusal := s.oneStep

/-- The state with one instruction where the next step fetches it: the front kernel's launch of partition 1 on core 0
(log 3: DESIGN CHOICE), with the instruction's bytes at local address 0. -/
def State.withFetchWord (s : State) (_nbits w : Nat) : State := s.placed (leBytes 8 w)

end Sys2Proof.Machine
end

