-- ==== Sys2Proof/Laws/Encoding.lean ====
section
/-!
SUPPORT. Fields and codes of the encodings: cutting a word gives the fields it was made of, decoding a code gives the name
it was made from, an opcode names its operation; and from words to bytes.
-/
set_option Elab.async false
set_option linter.constructorNameAsVariable false

namespace Sys2Proof

/-! ### Words and their fields -/

theorem toNat_cat {m n : Nat} (x : BitVec m) (y : BitVec n) : (x ++ y).toNat = x.toNat * 2 ^ n + y.toNat := by
  rw [BitVec.toNat_append, ← Nat.shiftLeft_add_eq_or_of_lt y.isLt, Nat.shiftLeft_eq]

theorem toNat_field (w : Word) (lo n : Nat) : (field w lo n).toNat = w.toNat / 2 ^ lo % 2 ^ n := by
  simp [field, BitVec.extractLsb'_toNat, Nat.shiftRight_eq_div_pow]

theorem toNat_ext (w : BitVec 32) (lo n : Nat) : (w.extractLsb' lo n).toNat = w.toNat / 2 ^ lo % 2 ^ n := by
  simp [BitVec.extractLsb'_toNat, Nat.shiftRight_eq_div_pow]

theorem toNat_ext10 (w : BitVec 10) (lo n : Nat) : (w.extractLsb' lo n).toNat = w.toNat / 2 ^ lo % 2 ^ n := by
  simp [BitVec.extractLsb'_toNat, Nat.shiftRight_eq_div_pow]

theorem cut_r (op : BitVec 10) (fn rb ra rd : BitVec 5) : cut .r (Enc.r op fn rb ra rd).word = .r op fn rb ra rd := by
  simp only [cut, Enc.word, Enc.r.injEq]
  have := op.isLt; have := fn.isLt; have := rb.isLt; have := ra.isLt; have := rd.isLt
  refine ⟨?_, ?_, ?_, ?_, ?_⟩ <;> apply BitVec.eq_of_toNat_eq <;>
    simp only [toNat_field, BitVec.toNat_setWidth, toNat_cat, BitVec.toNat_ofNat] <;> omega

theorem cut_i (op : BitVec 10) (imm : BitVec 10) (ra rd : BitVec 5) : cut .i (Enc.i op imm ra rd).word = .i op imm ra rd := by
  simp only [cut, Enc.word, Enc.i.injEq]
  have := op.isLt; have := imm.isLt; have := ra.isLt; have := rd.isLt
  refine ⟨?_, ?_, ?_, ?_⟩ <;> apply BitVec.eq_of_toNat_eq <;>
    simp only [toNat_field, BitVec.toNat_setWidth, toNat_cat, BitVec.toNat_ofNat] <;> omega

theorem cut_b (op : BitVec 10) (off : BitVec 15) (ra : BitVec 5) : cut .b (Enc.b op off ra).word = .b op off ra := by
  simp only [cut, Enc.word, Enc.b.injEq]
  have := op.isLt; have := off.isLt; have := ra.isLt
  refine ⟨?_, ?_, ?_⟩ <;> apply BitVec.eq_of_toNat_eq <;>
    simp only [toNat_field, BitVec.toNat_setWidth, toNat_cat, BitVec.toNat_ofNat] <;> omega

theorem cut_j (op : BitVec 10) (off : BitVec 20) : cut .j (Enc.j op off).word = .j op off := by
  simp only [cut, Enc.word, Enc.j.injEq]
  have := op.isLt; have := off.isLt
  refine ⟨?_, ?_⟩ <;> apply BitVec.eq_of_toNat_eq <;>
    simp only [toNat_field, BitVec.toNat_setWidth, toNat_cat, BitVec.toNat_ofNat] <;> omega

theorem cut_s (op : BitVec 10) (top : BitVec 3) (num : BitVec 12) (reg : BitVec 5) :
    cut .s (Enc.s op top num reg).word = .s op top num reg := by
  simp only [cut, Enc.word, Enc.s.injEq]
  have := op.isLt; have := top.isLt; have := num.isLt; have := reg.isLt
  refine ⟨?_, ?_, ?_, ?_⟩ <;> apply BitVec.eq_of_toNat_eq <;>
    simp only [toNat_field, BitVec.toNat_setWidth, toNat_cat, BitVec.toNat_ofNat] <;> omega

theorem cut_v (op : BitVec 10) (fn ty vb va vd : BitVec 4) : cut .v (Enc.v op fn ty vb va vd).word = .v op fn ty vb va vd := by
  simp only [cut, Enc.word, Enc.v.injEq]
  have := op.isLt; have := fn.isLt; have := ty.isLt; have := vb.isLt; have := va.isLt; have := vd.isLt
  refine ⟨?_, ?_, ?_, ?_, ?_, ?_⟩ <;> apply BitVec.eq_of_toNat_eq <;>
    simp only [toNat_field, BitVec.toNat_setWidth, toNat_cat, BitVec.toNat_ofNat] <;> omega

theorem cut_l (op : BitVec 10) (imm : BitVec 32) (rc rb ra rd : BitVec 5) :
    cut .l (Enc.l op imm rc rb ra rd).word = .l op imm rc rb ra rd := by
  simp only [cut, Enc.word, Enc.l.injEq]
  have := op.isLt; have := imm.isLt; have := rc.isLt; have := rb.isLt; have := ra.isLt; have := rd.isLt
  refine ⟨?_, ?_, ?_, ?_, ?_, ?_⟩ <;> apply BitVec.eq_of_toNat_eq <;>
    simp only [toNat_field, toNat_cat, BitVec.toNat_ofNat] <;> omega

/-- The opcode and the length marks stand at the same place in every format. -/
theorem Enc.word_low (e : Enc) : (∃ hi op, e = .c hi op) ∨
    (field e.word 2 10 = (match e with | .c _ _ => 0 | .r o .. | .i o .. | .b o .. | .j o _ | .s o .. | .v o .. | .l o .. => o)
      ∧ e.word.toNat % 4 = if e.len = 8 then 3 else 1) := by
  cases e with
  | c hi op => exact .inl ⟨hi, op, rfl⟩
  | r op fn rb ra rd =>
    refine .inr ⟨(Enc.r.inj (cut_r op fn rb ra rd)).1, ?_⟩
    have := op.isLt; have := fn.isLt; have := rb.isLt; have := ra.isLt; have := rd.isLt
    simp only [Enc.word, Enc.len, BitVec.toNat_setWidth, toNat_cat, BitVec.toNat_ofNat, Nat.reduceEqDiff, if_false]; omega
  | i op imm ra rd =>
    refine .inr ⟨(Enc.i.inj (cut_i op imm ra rd)).1, ?_⟩
    have := op.isLt; have := imm.isLt; have := ra.isLt; have := rd.isLt
    simp only [Enc.word, Enc.len, BitVec.toNat_setWidth, toNat_cat, BitVec.toNat_ofNat, Nat.reduceEqDiff, if_false]; omega
  | b op off ra =>
    refine .inr ⟨(Enc.b.inj (cut_b op off ra)).1, ?_⟩
    have := op.isLt; have := off.isLt; have := ra.isLt
    simp only [Enc.word, Enc.len, BitVec.toNat_setWidth, toNat_cat, BitVec.toNat_ofNat, Nat.reduceEqDiff, if_false]; omega
  | j op off =>
    refine .inr ⟨(Enc.j.inj (cut_j op off)).1, ?_⟩
    have := op.isLt; have := off.isLt
    simp only [Enc.word, Enc.len, BitVec.toNat_setWidth, toNat_cat, BitVec.toNat_ofNat, Nat.reduceEqDiff, if_false]; omega
  | s op top num reg =>
    refine .inr ⟨(Enc.s.inj (cut_s op top num reg)).1, ?_⟩
    have := op.isLt; have := top.isLt; have := num.isLt; have := reg.isLt
    simp only [Enc.word, Enc.len, BitVec.toNat_setWidth, toNat_cat, BitVec.toNat_ofNat, Nat.reduceEqDiff, if_false]; omega
  | v op fn ty vb va vd =>
    refine .inr ⟨(Enc.v.inj (cut_v op fn ty vb va vd)).1, ?_⟩
    have := op.isLt; have := fn.isLt; have := ty.isLt; have := vb.isLt; have := va.isLt; have := vd.isLt
    simp only [Enc.word, Enc.len, BitVec.toNat_setWidth, toNat_cat, BitVec.toNat_ofNat, Nat.reduceEqDiff, if_false]; omega
  | l op imm rc rb ra rd =>
    refine .inr ⟨(Enc.l.inj (cut_l op imm rc rb ra rd)).1, ?_⟩
    simp only [Enc.word, Enc.len, toNat_cat, BitVec.toNat_ofNat, if_true]; omega

/-- Bits 1:0 of the first parcel give the length (spec/03 R88). -/
theorem Enc.wordLen (e : Enc) : wordLen e.word = e.len := by
  have b0 : ∀ w : Word, w.getLsbD 0 = decide (w.toNat % 2 = 1) := by
    intro w; simp [BitVec.getLsbD, Nat.testBit_zero]
  have b1 : ∀ w : Word, w.getLsbD 1 = decide (w.toNat / 2 % 2 = 1) := by
    intro w; simp [BitVec.getLsbD, Nat.testBit_succ, Nat.testBit_zero]
  have even : ∀ hi op, (Enc.c hi op).word.toNat % 2 = 0 := by
    intro hi op
    have := hi.isLt; have := op.isLt
    simp only [Enc.word, BitVec.toNat_setWidth, toNat_cat, BitVec.toNat_ofNat]; omega
  rcases e.word_low with ⟨hi, op, rfl⟩ | ⟨-, h⟩
  · have g0 : (Enc.c hi op).word.getLsbD 0 = false := by
      rw [b0]; exact decide_eq_false (by have := even hi op; omega)
    simp only [Sys2Proof.wordLen, g0, Enc.len]
    rfl
  · have hl : e.len = 2 ∨ e.len = 4 ∨ e.len = 8 := by cases e <;> simp [Enc.len]
    have g0 : e.len ≠ 2 → e.word.getLsbD 0 = true := by
      intro _
      rw [b0]; exact decide_eq_true (by split at h <;> omega)
    rcases hl with hl | hl | hl
    · cases e <;> simp only [Enc.len] at hl <;> try omega
      rename_i hi op
      have := even hi op
      simp only [Enc.len] at h
      simp at h
      omega
    · rw [hl] at h
      have g1 : e.word.getLsbD 1 = false := by
        rw [b1]; exact decide_eq_false (by simp at h; omega)
      simp only [Sys2Proof.wordLen, g0 (by omega), g1, hl]
      rfl
    · rw [hl] at h
      have g1 : e.word.getLsbD 1 = true := by
        rw [b1]; exact decide_eq_true (by simp at h; omega)
      simp only [Sys2Proof.wordLen, g0 (by omega), g1, hl]
      rfl

/-! ### Opcodes -/

/-- The native map gives each opcode its operation (spec/03 R98). -/
theorem Op.lookup (o : Op) : nativeOp (BitVec.ofNat 10 o.opcode).toNat = some o := by cases o <;> decide +kernel

/-- A native word of an operation in its own format decodes to what its fields say. -/
theorem decodeWord_native (o : Op) (e : Enc) (hc : ∀ hi op, e ≠ .c hi op) (hf : cut o.fmt e.word = e)
    (hl : o.fmt.len = e.len) (ho : field e.word 2 10 = BitVec.ofNat 10 o.opcode) :
    decodeWord nativeOp e.word = keepWf (decodeOp o e) := by
  have h0 : e.word.getLsbD 0 = true := by
    rcases e.word_low with ⟨hi, op, rfl⟩ | ⟨-, h⟩
    · exact absurd rfl (hc hi op)
    · have : e.word.toNat % 2 = 1 := by split at h <;> omega
      simp [BitVec.getLsbD, Nat.testBit_zero, this]
  simp only [decodeWord, h0, if_true, ho, Op.lookup, hf, Enc.wordLen, hl]

theorem decode_r (o : Op) (fn rb ra rd : BitVec 5) (h : o.fmt = .r) :
    decodeWord nativeOp (encR o fn rb ra rd).word = keepWf (decodeR o fn rb ra rd) := by
  have c := cut_r (BitVec.ofNat 10 o.opcode) fn rb ra rd
  exact decodeWord_native o _ (fun _ _ e => Enc.noConfusion e) (by rw [h]; exact c) (by rw [h]; rfl)
    (Enc.r.inj c).1

theorem decode_i (o : Op) (imm : BitVec 10) (ra rd : BitVec 5) (h : o.fmt = .i) :
    decodeWord nativeOp (encI o imm ra rd).word = keepWf (decodeI o imm ra rd) := by
  have c := cut_i (BitVec.ofNat 10 o.opcode) imm ra rd
  exact decodeWord_native o _ (fun _ _ e => Enc.noConfusion e) (by rw [h]; exact c) (by rw [h]; rfl)
    (Enc.i.inj c).1

theorem decode_v (o : Op) (fn : BitVec 4) (t : Nat) (vb va vd : VReg) (h : o.fmt = .v) :
    decodeWord nativeOp (encV o fn t vb va vd).word = keepWf (decodeV o fn (BitVec.ofNat 4 t) vb va vd) := by
  have c := cut_v (BitVec.ofNat 10 o.opcode) fn (BitVec.ofNat 4 t) vb va vd
  exact decodeWord_native o _ (fun _ _ e => Enc.noConfusion e) (by rw [h]; exact c) (by rw [h]; rfl)
    (Enc.v.inj c).1

theorem decode_l (o : Op) (imm : BitVec 32) (rc rb ra rd : BitVec 5) (h : o.fmt = .l) :
    decodeWord nativeOp (encL o imm rc rb ra rd).word = keepWf (decodeL o imm rc rb ra rd) := by
  have c := cut_l (BitVec.ofNat 10 o.opcode) imm rc rb ra rd
  exact decodeWord_native o _ (fun _ _ e => Enc.noConfusion e) (by rw [h]; exact c) (by rw [h]; rfl)
    (Enc.l.inj c).1

theorem decode_b (o : Op) (off : BitVec 15) (ra : BitVec 5) (h : o.fmt = .b) :
    decodeWord nativeOp (Enc.b (BitVec.ofNat 10 o.opcode) off ra).word =
      keepWf (decodeOp o (.b (BitVec.ofNat 10 o.opcode) off ra)) := by
  have c := cut_b (BitVec.ofNat 10 o.opcode) off ra
  exact decodeWord_native o _ (fun _ _ e => Enc.noConfusion e) (by rw [h]; exact c) (by rw [h]; rfl)
    (Enc.b.inj c).1

theorem decode_j (o : Op) (off : BitVec 20) (h : o.fmt = .j) :
    decodeWord nativeOp (Enc.j (BitVec.ofNat 10 o.opcode) off).word =
      keepWf (decodeOp o (.j (BitVec.ofNat 10 o.opcode) off)) := by
  have c := cut_j (BitVec.ofNat 10 o.opcode) off
  exact decodeWord_native o _ (fun _ _ e => Enc.noConfusion e) (by rw [h]; exact c) (by rw [h]; rfl)
    (Enc.j.inj c).1

theorem decode_s (o : Op) (num : BitVec 12) (reg : BitVec 5) (h : o.fmt = .s) :
    decodeWord nativeOp (Enc.s (BitVec.ofNat 10 o.opcode) 0 num reg).word =
      keepWf (decodeOp o (.s (BitVec.ofNat 10 o.opcode) 0 num reg)) := by
  have c := cut_s (BitVec.ofNat 10 o.opcode) 0 num reg
  exact decodeWord_native o _ (fun _ _ e => Enc.noConfusion e) (by rw [h]; exact c) (by rw [h]; rfl)
    (Enc.s.inj c).1

theorem decode_c (hi : BitVec 10) (op : BitVec 5) : decodeWord nativeOp (Enc.c hi op).word = keepWf (decodeC hi op) := by
  have h := hi.isLt
  have h' := op.isLt
  have h0 : (Enc.c hi op).word.getLsbD 0 = false := by
    have : (Enc.c hi op).word.toNat % 2 = 0 := by
      simp only [Enc.word, BitVec.toNat_setWidth, toNat_cat, BitVec.toNat_ofNat]; omega
    simp [BitVec.getLsbD, Nat.testBit_zero, this]
  have h1 : field (Enc.c hi op).word 6 10 = hi := by
    apply BitVec.eq_of_toNat_eq
    simp only [Enc.word, toNat_field, BitVec.toNat_setWidth, toNat_cat, BitVec.toNat_ofNat]; omega
  have h2 : field (Enc.c hi op).word 1 5 = op := by
    apply BitVec.eq_of_toNat_eq
    simp only [Enc.word, toNat_field, BitVec.toNat_setWidth, toNat_cat, BitVec.toNat_ofNat]; omega
  simp only [decodeWord, h0, h1, h2]
  rfl

/-! ### Codes -/

@[simp] theorem vfield_v5 (v : VReg) : vfield (v5 v) = some v := by
  simp [vfield, v5]

@[simp] theorem sfield_s5 (s : SReg) : sfield (s5 s) = some s := by
  have h : s.toNat % 32 < 4 := by have := s.isLt; omega
  simp [sfield, s5, h]

@[simp] theorem memMod_code (w : Width) (o : Bool) : memMod (memCode w o) = some (w, o) := by
  cases w <;> cases o <;> rfl

@[simp] theorem floatMod_code (t : FType) (r : Rnd) : floatMod (floatCode t r) = some (t, r) := by
  cases t <;> cases r <;> rfl

@[simp] theorem ftypeOnly_code (t : FType) : ftypeOnly (floatCode t .frm) = some t := by cases t <;> rfl

@[simp] theorem laneMod_code (s : Bool) (r : Rnd) : laneMod (laneCode s r) = some (s, r) := by
  cases s <;> cases r <;> rfl

@[simp] theorem ordOf_code (b : Bool) : ordOf (ordCode b) = some b := by cases b <;> rfl

@[simp] theorem etype_of_code4 (t : EType) : EType.of (BitVec.ofNat 4 t.code).toNat = some t := by cases t <;> rfl

@[simp] theorem etype_of_code (t : EType) : EType.of t.code = some t := by cases t <;> rfl

theorem etype_code_lt (t : EType) : t.code < 12 := by cases t <;> decide

theorem floe_code_lt (f : Floe) : f.code < 3 := by cases f <;> decide

theorem rnd_code_lt (r : Rnd) : r.code < 8 := by cases r <;> decide

@[simp] theorem rnd_of_code (r : Rnd) : Rnd.of r.code = some r := by cases r <;> rfl

@[simp] theorem floe_of_code (f : Floe) : Floe.of f.code = some f := by cases f <;> rfl

@[simp] theorem stype_of_code (t : SType) : SType.of t.code = some t := by
  cases t with
  | elem t => cases t <;> rfl
  | floe f => cases f <;> rfl

theorem stype_code_lt (t : SType) : t.code < 32 := by
  cases t with
  | elem t => have := etype_code_lt t; simp only [SType.code]; omega
  | floe f => have := floe_code_lt f; simp only [SType.code]; omega

theorem lt_of_code (t : EType) : t.code < 32 := Nat.lt_of_lt_of_le (etype_code_lt t) (by decide)

/-- The stream modifier word cut again (spec/11 R220). -/
theorem streamMod_code (x : Reg) (sat : Bool) (r : Rnd) {st ty : Nat} (h1 : st < 32) (h2 : ty < 32) :
    streamMod (streamCode x sat r st ty) = some (x, sat, r, st, ty) := by
  have hx := x.isLt
  have hr := rnd_code_lt r
  have hs : (BitVec.ofBool sat).toNat < 2 := (BitVec.ofBool sat).isLt
  have e1 : ((streamCode x sat r st ty).extractLsb' 10 3).toNat = r.code := by
    simp only [streamCode, toNat_ext, toNat_cat, BitVec.toNat_ofNat]; omega
  have e2 : (streamCode x sat r st ty).extractLsb' 19 13 = 0 := by
    apply BitVec.eq_of_toNat_eq
    simp only [streamCode, toNat_ext, toNat_cat, BitVec.toNat_ofNat, BitVec.ofNat_eq_ofNat]; omega
  have e3 : (streamCode x sat r st ty).extractLsb' 14 5 = x := by
    apply BitVec.eq_of_toNat_eq
    simp only [streamCode, toNat_ext, toNat_cat, BitVec.toNat_ofNat]; omega
  have e4 : (streamCode x sat r st ty).extractLsb' 13 1 = BitVec.ofBool sat := by
    apply BitVec.eq_of_toNat_eq
    simp only [streamCode, toNat_ext, toNat_cat, BitVec.toNat_ofNat]; omega
  have e5 : ((streamCode x sat r st ty).extractLsb' 5 5).toNat = st := by
    simp only [streamCode, toNat_ext, toNat_cat, BitVec.toNat_ofNat]; omega
  have e6 : ((streamCode x sat r st ty).extractLsb' 0 5).toNat = ty := by
    simp only [streamCode, toNat_ext, toNat_cat, BitVec.toNat_ofNat]; omega
  simp only [streamMod, e1, e2, e3, e4, e5, e6, rnd_of_code]
  cases sat <;> rfl

/-- A stream command's modifier word with stype 0. -/
theorem stream_code (x : Reg) (sat : Bool) (r : Rnd) (t : EType) (useX : Bool)
    (mk : Reg → EType → Bool → Rnd → Option Instr) (h : useX = true ∨ x = 0) :
    stream (streamCode x sat r 0 t.code) useX mk = mk x t sat r := by
  simp only [stream, streamMod_code x sat r (by decide : 0 < 32) (lt_of_code t), etype_of_code]
  exact if_pos ⟨trivial, h⟩

/-! ### Modifier words -/

/-- A narrow field at the bottom of a modifier word leaves zeros above it. -/
theorem high_zero {n : Nat} (x : BitVec n) (lo m : Nat) (h : n ≤ lo) :
    ((x.setWidth 32).extractLsb' lo m == 0#m) = true := by
  rw [beq_iff_eq]
  apply BitVec.eq_of_toNat_eq
  rw [toNat_ext, BitVec.toNat_setWidth, BitVec.toNat_ofNat, Nat.zero_mod]
  have hx : x.toNat < 2 ^ lo := Nat.lt_of_lt_of_le x.isLt (Nat.pow_le_pow_right (by decide) h)
  rw [Nat.div_eq_of_lt (Nat.lt_of_le_of_lt (Nat.mod_le _ _) hx), Nat.zero_mod]

/-- A narrow field goes into a wider one and comes back. -/
theorem narrow_back {n : Nat} (x : BitVec n) (m : Nat) (h : n ≤ m) : (x.setWidth m).setWidth n = x := by
  apply BitVec.eq_of_toNat_eq
  rw [BitVec.toNat_setWidth, BitVec.toNat_setWidth]
  have hm : x.toNat < 2 ^ m := Nat.lt_of_lt_of_le x.isLt (Nat.pow_le_pow_right (by decide) h)
  rw [Nat.mod_eq_of_lt hm, Nat.mod_eq_of_lt x.isLt]

/-- And is small there. -/
theorem mod_lt {n : Nat} (x : BitVec n) (m : Nat) : x.toNat % m < 2 ^ n :=
  Nat.lt_of_le_of_lt (Nat.mod_le _ _) x.isLt

theorem laneImm_fields (t : EType) (lane : BitVec 4) : ((laneImm t lane).extractLsb' 0 4).toNat = t.code
    ∧ (laneImm t lane).extractLsb' 8 24 = 0#24 ∧ (laneImm t lane).extractLsb' 4 4 = lane := by
  have := etype_code_lt t; have := lane.isLt
  refine ⟨?_, ?_, ?_⟩
  · simp only [laneImm, toNat_ext, toNat_cat, BitVec.toNat_ofNat]; omega
  · apply BitVec.eq_of_toNat_eq; simp only [laneImm, toNat_ext, toNat_cat, BitVec.toNat_ofNat]; omega
  · apply BitVec.eq_of_toNat_eq; simp only [laneImm, toNat_ext, toNat_cat, BitVec.toNat_ofNat]; omega

theorem floeImm_fields (f : Floe) (slot : BitVec 4) : ((floeImm f slot).extractLsb' 0 2).toNat = f.code
    ∧ (floeImm f slot).extractLsb' 6 26 = 0#26 ∧ (floeImm f slot).extractLsb' 2 4 = slot := by
  have := floe_code_lt f; have := slot.isLt
  refine ⟨?_, ?_, ?_⟩
  · simp only [floeImm, toNat_ext, toNat_cat, BitVec.toNat_ofNat]; omega
  · apply BitVec.eq_of_toNat_eq; simp only [floeImm, toNat_ext, toNat_cat, BitVec.toNat_ofNat]; omega
  · apply BitVec.eq_of_toNat_eq; simp only [floeImm, toNat_ext, toNat_cat, BitVec.toNat_ofNat]; omega

/-- The modifier word of VCVT (spec/06 R161) cut again. -/
theorem vcvtImm_fields (part : BitVec 3) (sat : Bool) (r : Rnd) (st dt : EType) (w : BitVec 32)
    (h : w = 0#17 ++ part ++ BitVec.ofBool sat ++ BitVec.ofNat 3 r.code ++ BitVec.ofNat 4 st.code ++ BitVec.ofNat 4 dt.code) :
    (w.extractLsb' 0 4).toNat = dt.code ∧ (w.extractLsb' 4 4).toNat = st.code ∧ (w.extractLsb' 8 3).toNat = r.code
    ∧ w.extractLsb' 15 17 = 0#17 ∧ w.extractLsb' 12 3 = part ∧ w.extractLsb' 11 1 = BitVec.ofBool sat := by
  have := etype_code_lt dt; have := etype_code_lt st; have := rnd_code_lt r
  have := part.isLt; have := (BitVec.ofBool sat).isLt
  have hw : w.toNat = ((((0 * 2 ^ 3 + part.toNat) * 2 + (BitVec.ofBool sat).toNat) * 2 ^ 3 + r.code) * 2 ^ 4 + st.code) * 2 ^ 4
      + dt.code := by
    rw [h]; simp only [toNat_cat, BitVec.toNat_ofNat]; omega
  refine ⟨?_, ?_, ?_, ?_, ?_, ?_⟩
  · rw [toNat_ext, hw]; omega
  · rw [toNat_ext, hw]; omega
  · rw [toNat_ext, hw]; omega
  · apply BitVec.eq_of_toNat_eq; rw [toNat_ext, hw, BitVec.toNat_ofNat]; omega
  · apply BitVec.eq_of_toNat_eq; rw [toNat_ext, hw]; omega
  · apply BitVec.eq_of_toNat_eq; rw [toNat_ext, hw]; omega

/-- The count and the span of LOOPI (spec/04 R118) cut again. -/
theorem loopImm_fields (c s : BitVec 16) : (c ++ s).extractLsb' 16 16 = c ∧ (c ++ s).extractLsb' 0 16 = s := by
  have := c.isLt; have := s.isLt
  refine ⟨?_, ?_⟩ <;> apply BitVec.eq_of_toNat_eq <;> rw [toNat_ext, toNat_cat] <;> omega

/-- The modifier word of EXCH (spec/16 R301) cut again. -/
theorem exchImm_fields (b : Bool) (d : BitVec 15) (w : BitVec 32) (h : w = 0#16 ++ BitVec.ofBool b ++ d) :
    w.extractLsb' 16 16 = 0#16 ∧ w.setWidth 15 = d ∧ w.extractLsb' 15 1 = BitVec.ofBool b := by
  have := d.isLt; have := (BitVec.ofBool b).isLt
  have hw : w.toNat = (BitVec.ofBool b).toNat * 2 ^ 15 + d.toNat := by
    rw [h]; simp only [toNat_cat, BitVec.toNat_ofNat]; omega
  refine ⟨?_, ?_, ?_⟩ <;> apply BitVec.eq_of_toNat_eq
  · rw [toNat_ext, hw, BitVec.toNat_ofNat]; omega
  · rw [BitVec.toNat_setWidth, hw]; omega
  · rw [toNat_ext, hw]; omega

theorem mxfmt_code_lt (f : MxFmt) : f.code < 7 := by cases f <;> decide

@[simp] theorem mxfmt_of_code (f : MxFmt) : MxFmt.of f.code = some f := by cases f <;> rfl

/-- The modifier word of MXA (spec/11 R231) cut again. -/
theorem mxaImm_fields (s : Bool) (jn : BitVec 5) (f : MxFmt) (w : BitVec 32)
    (h : w = 0#23 ++ BitVec.ofBool s ++ jn ++ BitVec.ofNat 3 f.code) :
    (w.extractLsb' 0 3).toNat = f.code ∧ w.extractLsb' 9 23 = 0#23 ∧ w.extractLsb' 3 5 = jn
    ∧ w.extractLsb' 8 1 = BitVec.ofBool s := by
  have := mxfmt_code_lt f; have := jn.isLt; have := (BitVec.ofBool s).isLt
  have hw : w.toNat = ((BitVec.ofBool s).toNat * 2 ^ 5 + jn.toNat) * 2 ^ 3 + f.code := by
    rw [h]; simp only [toNat_cat, BitVec.toNat_ofNat]; omega
  refine ⟨?_, ?_, ?_, ?_⟩
  · rw [toNat_ext, hw]; omega
  · apply BitVec.eq_of_toNat_eq; rw [toNat_ext, hw, BitVec.toNat_ofNat]; omega
  · apply BitVec.eq_of_toNat_eq; rw [toNat_ext, hw]; omega
  · apply BitVec.eq_of_toNat_eq; rw [toNat_ext, hw]; omega

@[simp] theorem ofBool_eq_one (b : Bool) : (BitVec.ofBool b == 1#1) = b := by cases b <;> rfl

theorem ctype_code_lt (t : CType) : t.code < 4 := by cases t <;> decide

@[simp] theorem ctype_of_code (t : CType) : CType.of t.code = some t := by cases t <;> rfl

/-- The fields of a compact lane parcel (spec/03 R93). -/
theorem laneParcel_fields (vd vs : VReg) (t : CType) (w : BitVec 10) (h : w = BitVec.ofNat 2 t.code ++ vs ++ vd) :
    (w.extractLsb' 8 2).toNat = t.code ∧ w.extractLsb' 0 4 = vd ∧ w.extractLsb' 4 4 = vs := by
  have := ctype_code_lt t; have := vs.isLt; have := vd.isLt
  have hw : w.toNat = (t.code * 2 ^ 4 + vs.toNat) * 2 ^ 4 + vd.toNat := by
    rw [h]; simp only [toNat_cat, BitVec.toNat_ofNat]; omega
  refine ⟨?_, ?_, ?_⟩
  · rw [toNat_ext10, hw]; omega
  · apply BitVec.eq_of_toNat_eq; rw [toNat_ext10, hw]; omega
  · apply BitVec.eq_of_toNat_eq; rw [toNat_ext10, hw]; omega

/-- The fields of the other compact parcels (spec/03 R94). -/
theorem pairParcel_fields (lo up : BitVec 5) : (up ++ lo).extractLsb' 0 5 = lo ∧ (up ++ lo).extractLsb' 5 5 = up := by
  have := lo.isLt; have := up.isLt
  refine ⟨?_, ?_⟩ <;> apply BitVec.eq_of_toNat_eq <;> rw [toNat_ext10, toNat_cat] <;> omega

theorem memParcel_fields (rd ra : BitVec 3) (idx : BitVec 4) : (idx ++ ra ++ rd).extractLsb' 0 3 = rd
    ∧ (idx ++ ra ++ rd).extractLsb' 3 3 = ra ∧ (idx ++ ra ++ rd).extractLsb' 6 4 = idx := by
  have := rd.isLt; have := ra.isLt; have := idx.isLt
  refine ⟨?_, ?_, ?_⟩ <;> apply BitVec.eq_of_toNat_eq <;> rw [toNat_ext10, toNat_cat, toNat_cat] <;> omega

theorem tagParcel_fields (mask : BitVec 6) : (0#4 ++ mask).extractLsb' 6 4 = 0#4 ∧ (0#4 ++ mask).extractLsb' 0 6 = mask := by
  have := mask.isLt
  refine ⟨?_, ?_⟩ <;> apply BitVec.eq_of_toNat_eq <;> rw [toNat_ext10, toNat_cat, BitVec.toNat_ofNat] <;> omega

theorem depParcel_fields (y : Bool) (mask : BitVec 6) (tag : BitVec 3) :
    (BitVec.ofBool y ++ mask ++ tag).extractLsb' 9 1 = BitVec.ofBool y
    ∧ (BitVec.ofBool y ++ mask ++ tag).extractLsb' 3 6 = mask ∧ (BitVec.ofBool y ++ mask ++ tag).extractLsb' 0 3 = tag := by
  have := mask.isLt; have := tag.isLt; have := (BitVec.ofBool y).isLt
  refine ⟨?_, ?_, ?_⟩ <;> apply BitVec.eq_of_toNat_eq <;> rw [toNat_ext10, toNat_cat, toNat_cat] <;> omega

/-! ### From words to bytes -/

theorem leNat_leBytes (n x : Nat) : leNat (leBytes n x) = x % 256 ^ n := by
  induction n generalizing x with
  | zero => simp [leBytes, leNat, Nat.mod_one]
  | succ n ih =>
    simp only [leBytes, leNat, ih, BitVec.toNat_ofNat]
    rw [show (2 : Nat) ^ 8 = 256 from rfl, Nat.pow_succ', Nat.mod_mul]

theorem leBytes_length (n x : Nat) : (leBytes n x).length = n := by
  induction n generalizing x with
  | zero => rfl
  | succ n ih => simp [leBytes, ih]

theorem Enc.word_lt (e : Enc) : e.word.toNat < 256 ^ e.len := by
  cases e with
  | c hi op =>
    have := hi.isLt; have := op.isLt
    simp only [Enc.word, Enc.len, BitVec.toNat_setWidth, toNat_cat, BitVec.toNat_ofNat]; omega
  | r op fn rb ra rd =>
    have := op.isLt; have := fn.isLt; have := rb.isLt; have := ra.isLt; have := rd.isLt
    simp only [Enc.word, Enc.len, BitVec.toNat_setWidth, toNat_cat, BitVec.toNat_ofNat]; omega
  | i op imm ra rd =>
    have := op.isLt; have := imm.isLt; have := ra.isLt; have := rd.isLt
    simp only [Enc.word, Enc.len, BitVec.toNat_setWidth, toNat_cat, BitVec.toNat_ofNat]; omega
  | b op off ra =>
    have := op.isLt; have := off.isLt; have := ra.isLt
    simp only [Enc.word, Enc.len, BitVec.toNat_setWidth, toNat_cat, BitVec.toNat_ofNat]; omega
  | j op off =>
    have := op.isLt; have := off.isLt
    simp only [Enc.word, Enc.len, BitVec.toNat_setWidth, toNat_cat, BitVec.toNat_ofNat]; omega
  | s op top num reg =>
    have := op.isLt; have := top.isLt; have := num.isLt; have := reg.isLt
    simp only [Enc.word, Enc.len, BitVec.toNat_setWidth, toNat_cat, BitVec.toNat_ofNat]; omega
  | v op fn ty vb va vd =>
    have := op.isLt; have := fn.isLt; have := ty.isLt; have := vb.isLt; have := va.isLt; have := vd.isLt
    simp only [Enc.word, Enc.len, BitVec.toNat_setWidth, toNat_cat, BitVec.toNat_ofNat]; omega
  | l op imm rc rb ra rd => exact (Enc.l op imm rc rb ra rd).word.isLt

/-- The bytes of a word, with anything behind them, decode as the word does. -/
theorem decodeBytes_word (table : Nat → Option Op) (e : Enc) (rest : List Byte) :
    decodeBytes table (leBytes e.len e.word.toNat ++ rest) = (decodeWord table e.word).map fun i => (i, e.len) := by
  have hlen := leBytes_length e.len e.word.toNat
  have h2 : 2 ≤ e.len := by cases e <;> simp [Enc.len]
  obtain ⟨b0, b1, bs, hb⟩ : ∃ b0 b1 bs, leBytes e.len e.word.toNat = b0 :: b1 :: bs := by
    match h : leBytes e.len e.word.toNat with
    | [] => rw [h] at hlen; simp at hlen; omega
    | [_] => rw [h] at hlen; simp at hlen; omega
    | b0 :: b1 :: bs => exact ⟨b0, b1, bs, rfl⟩
  have hn : wordLen (b0.setWidth 64) = e.len := by
    rw [← e.wordLen]
    have hb0 : b0 = BitVec.ofNat 8 e.word.toNat := by
      obtain ⟨m, hm⟩ : ∃ m, e.len = m + 1 := ⟨e.len - 1, by omega⟩
      rw [hm, leBytes] at hb
      exact (List.cons.inj hb).1.symm
    have g : ∀ i, i < 8 → (b0.setWidth 64).getLsbD i = e.word.getLsbD i := by
      intro i hi
      have : i < 64 := by omega
      rw [hb0]
      rw [BitVec.getLsbD_setWidth, BitVec.getLsbD_ofNat]
      simp only [hi, this, decide_true, Bool.true_and, BitVec.getLsbD]
    simp only [Sys2Proof.wordLen, g 0 (by omega), g 1 (by omega)]
  have htake : (leBytes e.len e.word.toNat ++ rest).take e.len = leBytes e.len e.word.toNat := by
    conv => lhs; rw [← hlen]
    rw [hlen]
    exact List.take_left' hlen
  have hw : BitVec.ofNat 64 (leNat (leBytes e.len e.word.toNat)) = e.word := by
    rw [leNat_leBytes, Nat.mod_eq_of_lt e.word_lt]
    simp
  have hl : ¬ (leBytes e.len e.word.toNat ++ rest).length < e.len := by
    simp [hlen]
  rw [hb] at htake hl ⊢
  simp only [List.cons_append] at htake hl ⊢
  simp only [decodeBytes, hn, hl, if_false, htake]
  rw [← hb, hw]

end Sys2Proof
end

