-- ==== Sys2Proof/Laws/PerInstr.lean ====
section
/-!
SUPPORT. The family Encoding: for every instruction, decoding the word of its encoding gives the instruction back, with every
operand at every value that the encoding admits. One lemma for each constructor; an event has no encoding.
-/
set_option Elab.async false
set_option linter.constructorNameAsVariable false

namespace Sys2Proof.Laws.Encoding

/-- The decoder reads back what the encoder writes: no field is dropped, no two instructions share a word. -/
def Statement (i : Instr) : Prop :=
  ∀ e, encode i = some e → i.wellFormed = true → decodeWord nativeOp e.word = some i

/-- From a decoding in two steps. -/
theorem of_some {i : Instr} {e : Enc} {o : Option Instr} (he : encode i = some e)
    (hd : decodeWord nativeOp e.word = keepWf o) (ho : o = some i) : Statement i := by
  intro e' h hw
  have : e = e' := Option.some.inj (he.symm.trans h)
  subst this
  rw [hd, ho]
  simp [keepWf, hw]

/-- An event has no encoding. -/
theorem of_none {i : Instr} (he : encode i = none) : Statement i := by
  intro e h
  rw [he] at h
  cases h

theorem add (rd : Reg) (ra : Reg) (rb : Reg) (w : Bool) (sat : Bool) : Statement (.add rd ra rb w sat) :=
  of_some rfl (decode_r _ _ _ _ _ rfl) (by cases w <;> cases sat <;> rfl)

theorem sub (rd : Reg) (ra : Reg) (rb : Reg) (w : Bool) (sat : Bool) : Statement (.sub rd ra rb w sat) :=
  of_some rfl (decode_r _ _ _ _ _ rfl) (by cases w <;> cases sat <;> rfl)

theorem mul (rd : Reg) (ra : Reg) (rb : Reg) (w : Bool) (sat : Bool) : Statement (.mul rd ra rb w sat) :=
  of_some rfl (decode_r _ _ _ _ _ rfl) (by cases w <;> cases sat <;> rfl)

theorem mulh (rd : Reg) (ra : Reg) (rb : Reg) (w : Bool) (sat : Bool) : Statement (.mulh rd ra rb w sat) :=
  of_some rfl (decode_r _ _ _ _ _ rfl) (by cases w <;> cases sat <;> rfl)

theorem mulhu (rd : Reg) (ra : Reg) (rb : Reg) (w : Bool) (sat : Bool) : Statement (.mulhu rd ra rb w sat) :=
  of_some rfl (decode_r _ _ _ _ _ rfl) (by cases w <;> cases sat <;> rfl)

theorem div (rd : Reg) (ra : Reg) (rb : Reg) (w : Bool) (sat : Bool) : Statement (.div rd ra rb w sat) :=
  of_some rfl (decode_r _ _ _ _ _ rfl) (by cases w <;> cases sat <;> rfl)

theorem divu (rd : Reg) (ra : Reg) (rb : Reg) (w : Bool) (sat : Bool) : Statement (.divu rd ra rb w sat) :=
  of_some rfl (decode_r _ _ _ _ _ rfl) (by cases w <;> cases sat <;> rfl)

theorem rem (rd : Reg) (ra : Reg) (rb : Reg) (w : Bool) (sat : Bool) : Statement (.rem rd ra rb w sat) :=
  of_some rfl (decode_r _ _ _ _ _ rfl) (by cases w <;> cases sat <;> rfl)

theorem remu (rd : Reg) (ra : Reg) (rb : Reg) (w : Bool) (sat : Bool) : Statement (.remu rd ra rb w sat) :=
  of_some rfl (decode_r _ _ _ _ _ rfl) (by cases w <;> cases sat <;> rfl)

theorem and (rd : Reg) (ra : Reg) (rb : Reg) (w : Bool) (sat : Bool) : Statement (.and rd ra rb w sat) :=
  of_some rfl (decode_r _ _ _ _ _ rfl) (by cases w <;> cases sat <;> rfl)

theorem or (rd : Reg) (ra : Reg) (rb : Reg) (w : Bool) (sat : Bool) : Statement (.or rd ra rb w sat) :=
  of_some rfl (decode_r _ _ _ _ _ rfl) (by cases w <;> cases sat <;> rfl)

theorem xor (rd : Reg) (ra : Reg) (rb : Reg) (w : Bool) (sat : Bool) : Statement (.xor rd ra rb w sat) :=
  of_some rfl (decode_r _ _ _ _ _ rfl) (by cases w <;> cases sat <;> rfl)

theorem andn (rd : Reg) (ra : Reg) (rb : Reg) (w : Bool) (sat : Bool) : Statement (.andn rd ra rb w sat) :=
  of_some rfl (decode_r _ _ _ _ _ rfl) (by cases w <;> cases sat <;> rfl)

theorem sll (rd : Reg) (ra : Reg) (rb : Reg) (w : Bool) : Statement (.sll rd ra rb w) :=
  of_some rfl (decode_r _ _ _ _ _ rfl) (by cases w <;> rfl)

theorem srl (rd : Reg) (ra : Reg) (rb : Reg) (w : Bool) : Statement (.srl rd ra rb w) :=
  of_some rfl (decode_r _ _ _ _ _ rfl) (by cases w <;> rfl)

theorem sra (rd : Reg) (ra : Reg) (rb : Reg) (w : Bool) : Statement (.sra rd ra rb w) :=
  of_some rfl (decode_r _ _ _ _ _ rfl) (by cases w <;> rfl)

theorem min (rd : Reg) (ra : Reg) (rb : Reg) (w : Bool) (sat : Bool) : Statement (.min rd ra rb w sat) :=
  of_some rfl (decode_r _ _ _ _ _ rfl) (by cases w <;> cases sat <;> rfl)

theorem max (rd : Reg) (ra : Reg) (rb : Reg) (w : Bool) (sat : Bool) : Statement (.max rd ra rb w sat) :=
  of_some rfl (decode_r _ _ _ _ _ rfl) (by cases w <;> cases sat <;> rfl)

theorem minu (rd : Reg) (ra : Reg) (rb : Reg) (w : Bool) (sat : Bool) : Statement (.minu rd ra rb w sat) :=
  of_some rfl (decode_r _ _ _ _ _ rfl) (by cases w <;> cases sat <;> rfl)

theorem maxu (rd : Reg) (ra : Reg) (rb : Reg) (w : Bool) (sat : Bool) : Statement (.maxu rd ra rb w sat) :=
  of_some rfl (decode_r _ _ _ _ _ rfl) (by cases w <;> cases sat <;> rfl)

theorem cmp (rd : Reg) (ra : Reg) (rb : Reg) (w : Bool) : Statement (.cmp rd ra rb w) :=
  of_some rfl (decode_r _ _ _ _ _ rfl) (by cases w <;> rfl)

theorem sel (rd : Reg) (ra : Reg) (rb : Reg) (rc : Reg) : Statement (.sel rd ra rb rc) :=
  of_some rfl (decode_r _ _ _ _ _ rfl) rfl

theorem clz (rd : Reg) (ra : Reg) (w : Bool) : Statement (.clz rd ra w) :=
  of_some rfl (decode_r _ _ _ _ _ rfl) (by cases w <;> rfl)

theorem ctz (rd : Reg) (ra : Reg) (w : Bool) : Statement (.ctz rd ra w) :=
  of_some rfl (decode_r _ _ _ _ _ rfl) (by cases w <;> rfl)

theorem popc (rd : Reg) (ra : Reg) (w : Bool) : Statement (.popc rd ra w) :=
  of_some rfl (decode_r _ _ _ _ _ rfl) (by cases w <;> rfl)

theorem brev (rd : Reg) (ra : Reg) (w : Bool) : Statement (.brev rd ra w) :=
  of_some rfl (decode_r _ _ _ _ _ rfl) (by cases w <;> rfl)

theorem bswap (rd : Reg) (ra : Reg) (w : Bool) : Statement (.bswap rd ra w) :=
  of_some rfl (decode_r _ _ _ _ _ rfl) (by cases w <;> rfl)

theorem bfx (rd : Reg) (ra : Reg) (rb : Reg) (signed : Bool) : Statement (.bfx rd ra rb signed) :=
  of_some rfl (decode_r _ _ _ _ _ rfl) (by cases signed <;> rfl)

theorem bfi (rd : Reg) (ra : Reg) (rb : Reg) : Statement (.bfi rd ra rb) :=
  of_some rfl (decode_r _ _ _ _ _ rfl) rfl

theorem addi (rd : Reg) (ra : Reg) (imm : BitVec 10) : Statement (.addi rd ra imm) :=
  of_some rfl (decode_i _ _ _ _ rfl) rfl

theorem andi (rd : Reg) (ra : Reg) (imm : BitVec 10) : Statement (.andi rd ra imm) :=
  of_some rfl (decode_i _ _ _ _ rfl) rfl

theorem ori (rd : Reg) (ra : Reg) (imm : BitVec 10) : Statement (.ori rd ra imm) :=
  of_some rfl (decode_i _ _ _ _ rfl) rfl

theorem xori (rd : Reg) (ra : Reg) (imm : BitVec 10) : Statement (.xori rd ra imm) :=
  of_some rfl (decode_i _ _ _ _ rfl) rfl

theorem slli (rd : Reg) (ra : Reg) (imm : BitVec 10) : Statement (.slli rd ra imm) :=
  of_some rfl (decode_i _ _ _ _ rfl) rfl

theorem srli (rd : Reg) (ra : Reg) (imm : BitVec 10) : Statement (.srli rd ra imm) :=
  of_some rfl (decode_i _ _ _ _ rfl) rfl

theorem srai (rd : Reg) (ra : Reg) (imm : BitVec 10) : Statement (.srai rd ra imm) :=
  of_some rfl (decode_i _ _ _ _ rfl) rfl

theorem cmpi (rd : Reg) (ra : Reg) (imm : BitVec 10) : Statement (.cmpi rd ra imm) :=
  of_some rfl (decode_i _ _ _ _ rfl) rfl

theorem li (rd : Reg) (imm : BitVec 32) : Statement (.li rd imm) :=
  of_some rfl (decode_l _ _ _ _ _ _ rfl) rfl

theorem lih (rd : Reg) (imm : BitVec 32) : Statement (.lih rd imm) :=
  of_some rfl (decode_l _ _ _ _ _ _ rfl) rfl

theorem lea (rd : Reg) (ra : Reg) (rb : Reg) (sh : BitVec 2) : Statement (.lea rd ra rb sh) :=
  of_some rfl (decode_r _ _ _ _ _ rfl) (by simp [decodeR, only, (mod_lt sh 32 : sh.toNat % 32 < 4), narrow_back sh 5] <;> exact mod_lt sh 32)

theorem pcrel (rd : Reg) (imm : BitVec 32) : Statement (.pcrel rd imm) :=
  of_some rfl (decode_l _ _ _ _ _ _ rfl) rfl

theorem bz (ra : Reg) (off : BitVec 15) : Statement (.bz ra off) :=
  of_some rfl (decode_b _ _ _ rfl) rfl

theorem bnz (ra : Reg) (off : BitVec 15) : Statement (.bnz ra off) :=
  of_some rfl (decode_b _ _ _ rfl) rfl

theorem j (off : BitVec 20) : Statement (.j off) :=
  of_some rfl (decode_j _ _ rfl) rfl

theorem jr (ra : Reg) (imm : BitVec 10) : Statement (.jr ra imm) :=
  of_some rfl (decode_i _ _ _ _ rfl) rfl

theorem call (off : BitVec 20) : Statement (.call off) :=
  of_some rfl (decode_j _ _ rfl) rfl

theorem callr (ra : Reg) (imm : BitVec 10) : Statement (.callr ra imm) :=
  of_some rfl (decode_i _ _ _ _ rfl) rfl

theorem ret : Statement .ret :=
  of_some rfl (decode_r _ _ _ _ _ rfl) rfl

theorem save (rd : Reg) (ra : Reg) (imm : BitVec 10) : Statement (.save rd ra imm) :=
  of_some rfl (decode_i _ _ _ _ rfl) rfl

theorem restore (rd : Reg) (ra : Reg) (imm : BitVec 10) : Statement (.restore rd ra imm) :=
  of_some rfl (decode_i _ _ _ _ rfl) rfl

theorem loop (k : Bool) (ra : Reg) (span : BitVec 16) : Statement (.loop k ra span) :=
  of_some rfl (decode_l _ _ _ _ _ _ rfl) (by cases k <;> simp [decodeL, only, one, bit1, high_zero span 16 16, narrow_back span 32])

theorem loopi (k : Bool) (count : BitVec 16) (span : BitVec 16) : Statement (.loopi k count span) :=
  of_some rfl (decode_l _ _ _ _ _ _ rfl) (by cases k <;> simp [decodeL, only, one, bit1, loopImm_fields])

theorem loopx (which : BitVec 2) : Statement (.loopx which) :=
  of_some rfl (decode_i _ _ _ _ rfl) (by simp [decodeI, only, (mod_lt which 1024 : which.toNat % 1024 < 4), narrow_back which 10] <;> exact mod_lt which 1024)

theorem ld (rd : Reg) (ra : Reg) (disp : BitVec 5) (wd : Width) (acq : Bool) : Statement (.ld rd ra disp wd acq) :=
  of_some rfl (decode_r _ _ _ _ _ rfl) (by cases wd <;> cases acq <;> rfl)

theorem st (rd : Reg) (ra : Reg) (disp : BitVec 5) (wd : Width) (rel : Bool) : Statement (.st rd ra disp wd rel) :=
  of_some rfl (decode_r _ _ _ _ _ rfl) (by cases wd <;> cases rel <;> rfl)

theorem ldx (rd : Reg) (ra : Reg) (rb : Reg) (wd : Width) (acq : Bool) : Statement (.ldx rd ra rb wd acq) :=
  of_some rfl (decode_r _ _ _ _ _ rfl) (by cases wd <;> cases acq <;> rfl)

theorem stx (rd : Reg) (ra : Reg) (rb : Reg) (wd : Width) (rel : Bool) : Statement (.stx rd ra rb wd rel) :=
  of_some rfl (decode_r _ _ _ _ _ rfl) (by cases wd <;> cases rel <;> rfl)

theorem ldl (rd : Reg) (ra : Reg) (disp : BitVec 32) (wd : Width) (acq : Bool) : Statement (.ldl rd ra disp wd acq) :=
  of_some rfl (decode_l _ _ _ _ _ _ rfl) (by cases wd <;> cases acq <;> rfl)

theorem stl (rd : Reg) (ra : Reg) (disp : BitVec 32) (wd : Width) (rel : Bool) : Statement (.stl rd ra disp wd rel) :=
  of_some rfl (decode_l _ _ _ _ _ _ rfl) (by cases wd <;> cases rel <;> rfl)

theorem vld (vd : VReg) (ra : Reg) (disp : BitVec 32) (pair : Bool) (acq : Bool) : Statement (.vld vd ra disp pair acq) :=
  of_some rfl (decode_l _ _ _ _ _ _ rfl) (by cases pair <;> cases acq <;> simp [decodeL, only, ordOf, bit1])

theorem vst (vd : VReg) (ra : Reg) (disp : BitVec 32) (pair : Bool) (rel : Bool) : Statement (.vst vd ra disp pair rel) :=
  of_some rfl (decode_l _ _ _ _ _ _ rfl) (by cases pair <;> cases rel <;> simp [decodeL, only, ordOf, bit1])

theorem ldm (vd : VReg) (ra : Reg) (disp : BitVec 32) (acq : Bool) : Statement (.ldm vd ra disp acq) :=
  of_some rfl (decode_l _ _ _ _ _ _ rfl) (by simp [decodeL, only])

theorem stm (vd : VReg) (ra : Reg) (disp : BitVec 32) (rel : Bool) : Statement (.stm vd ra disp rel) :=
  of_some rfl (decode_l _ _ _ _ _ _ rfl) (by simp [decodeL, only])

theorem movm (vd : VReg) (va : VReg) : Statement (.movm vd va) :=
  of_some rfl (decode_r _ _ _ _ _ rfl) (by simp [decodeR, only])

theorem amo (rd : Reg) (ra : Reg) (rb : Reg) (op : AmoOp) (dbl : Bool) (ord : AmoOrd) : Statement (.amo rd ra rb op dbl ord) :=
  of_some rfl (decode_r _ _ _ _ _ rfl) (by cases op <;> cases dbl <;> cases ord <;> rfl)

theorem cas (rd : Reg) (ra : Reg) (rb : Reg) (rc : Reg) (dbl : Bool) (ord : AmoOrd) : Statement (.cas rd ra rb rc dbl ord) :=
  of_some rfl (decode_l _ _ _ _ _ _ rfl) (by cases dbl <;> cases ord <;> rfl)

theorem fence : Statement .fence :=
  of_some rfl (decode_r _ _ _ _ _ rfl) rfl

theorem pld (rd : Reg) (ra : Reg) (k : BitVec 3) (off : BitVec 16) (wd : Width) : Statement (.pld rd ra k off wd) :=
  of_some rfl (decode_l _ _ _ _ _ _ rfl) (by simp [decodeL, only, (mod_lt k 32 : k.toNat % 32 < 8), narrow_back k 5, high_zero off 16 16, narrow_back off 32] <;> exact mod_lt k 32)

theorem waitw (rd : Reg) (ra : Reg) (rb : Reg) (cond : WaitCond) (dbl : Bool) (acq : Bool) : Statement (.waitw rd ra rb cond dbl acq) :=
  of_some rfl (decode_r _ _ _ _ _ rfl) (by cases cond <;> cases dbl <;> cases acq <;> rfl)

theorem fadd (rd : Reg) (ra : Reg) (rb : Reg) (t : FType) (rm : Rnd) : Statement (.fadd rd ra rb t rm) :=
  of_some rfl (decode_r _ _ _ _ _ rfl) (by cases t <;> cases rm <;> rfl)

theorem fsub (rd : Reg) (ra : Reg) (rb : Reg) (t : FType) (rm : Rnd) : Statement (.fsub rd ra rb t rm) :=
  of_some rfl (decode_r _ _ _ _ _ rfl) (by cases t <;> cases rm <;> rfl)

theorem fmul (rd : Reg) (ra : Reg) (rb : Reg) (t : FType) (rm : Rnd) : Statement (.fmul rd ra rb t rm) :=
  of_some rfl (decode_r _ _ _ _ _ rfl) (by cases t <;> cases rm <;> rfl)

theorem fdiv (rd : Reg) (ra : Reg) (rb : Reg) (t : FType) (rm : Rnd) : Statement (.fdiv rd ra rb t rm) :=
  of_some rfl (decode_r _ _ _ _ _ rfl) (by cases t <;> cases rm <;> rfl)

theorem fsqrt (rd : Reg) (ra : Reg) (t : FType) (rm : Rnd) : Statement (.fsqrt rd ra t rm) :=
  of_some rfl (decode_r _ _ _ _ _ rfl) (by cases t <;> cases rm <;> rfl)

theorem fma (rd : Reg) (ra : Reg) (rb : Reg) (rc : Reg) (t : FType) (rm : Rnd) : Statement (.fma rd ra rb rc t rm) :=
  of_some rfl (decode_l _ _ _ _ _ _ rfl) (by cases t <;> cases rm <;> rfl)

theorem fmin (rd : Reg) (ra : Reg) (rb : Reg) (t : FType) : Statement (.fmin rd ra rb t) :=
  of_some rfl (decode_r _ _ _ _ _ rfl) (by cases t <;> rfl)

theorem fmax (rd : Reg) (ra : Reg) (rb : Reg) (t : FType) : Statement (.fmax rd ra rb t) :=
  of_some rfl (decode_r _ _ _ _ _ rfl) (by cases t <;> rfl)

theorem fcmp (rd : Reg) (ra : Reg) (rb : Reg) (t : FType) : Statement (.fcmp rd ra rb t) :=
  of_some rfl (decode_r _ _ _ _ _ rfl) (by cases t <;> rfl)

theorem fclass (rd : Reg) (ra : Reg) (t : FType) : Statement (.fclass rd ra t) :=
  of_some rfl (decode_r _ _ _ _ _ rfl) (by cases t <;> rfl)

theorem fsgn (rd : Reg) (ra : Reg) (rb : Reg) (t : FType) (op : SgnOp) : Statement (.fsgn rd ra rb t op) :=
  of_some rfl (decode_r _ _ _ _ _ rfl) (by cases t <;> cases op <;> rfl)

theorem vadd (vd : VReg) (va : VReg) (vb : VReg) (t : EType) (sat : Bool) (rm : Rnd) : Statement (.vadd vd va vb t sat rm) :=
  of_some rfl (decode_v _ _ _ _ _ _ rfl) (by cases t <;> cases sat <;> cases rm <;> rfl)

theorem vsub (vd : VReg) (va : VReg) (vb : VReg) (t : EType) (sat : Bool) (rm : Rnd) : Statement (.vsub vd va vb t sat rm) :=
  of_some rfl (decode_v _ _ _ _ _ _ rfl) (by cases t <;> cases sat <;> cases rm <;> rfl)

theorem vmul (vd : VReg) (va : VReg) (vb : VReg) (t : EType) (sat : Bool) (rm : Rnd) : Statement (.vmul vd va vb t sat rm) :=
  of_some rfl (decode_v _ _ _ _ _ _ rfl) (by cases t <;> cases sat <;> cases rm <;> rfl)

theorem vfma (vd : VReg) (va : VReg) (vb : VReg) (t : EType) (sat : Bool) (rm : Rnd) : Statement (.vfma vd va vb t sat rm) :=
  of_some rfl (decode_v _ _ _ _ _ _ rfl) (by cases t <;> cases sat <;> cases rm <;> rfl)

theorem vmin (vd : VReg) (va : VReg) (vb : VReg) (t : EType) : Statement (.vmin vd va vb t) :=
  of_some rfl (decode_v _ _ _ _ _ _ rfl) (by cases t <;> rfl)

theorem vmax (vd : VReg) (va : VReg) (vb : VReg) (t : EType) : Statement (.vmax vd va vb t) :=
  of_some rfl (decode_v _ _ _ _ _ _ rfl) (by cases t <;> rfl)

theorem vand (vd : VReg) (va : VReg) (vb : VReg) (t : EType) : Statement (.vand vd va vb t) :=
  of_some rfl (decode_v _ _ _ _ _ _ rfl) (by cases t <;> rfl)

theorem vor (vd : VReg) (va : VReg) (vb : VReg) (t : EType) : Statement (.vor vd va vb t) :=
  of_some rfl (decode_v _ _ _ _ _ _ rfl) (by cases t <;> rfl)

theorem vxor (vd : VReg) (va : VReg) (vb : VReg) (t : EType) : Statement (.vxor vd va vb t) :=
  of_some rfl (decode_v _ _ _ _ _ _ rfl) (by cases t <;> rfl)

theorem vshl (vd : VReg) (va : VReg) (vb : VReg) (t : EType) : Statement (.vshl vd va vb t) :=
  of_some rfl (decode_v _ _ _ _ _ _ rfl) (by cases t <;> rfl)

theorem vshr (vd : VReg) (va : VReg) (vb : VReg) (t : EType) : Statement (.vshr vd va vb t) :=
  of_some rfl (decode_v _ _ _ _ _ _ rfl) (by cases t <;> rfl)

theorem vcmp (vd : VReg) (va : VReg) (vb : VReg) (t : EType) (cond : VCond) : Statement (.vcmp vd va vb t cond) :=
  of_some rfl (decode_v _ _ _ _ _ _ rfl) (by cases t <;> cases cond <;> rfl)

theorem vsel (vd : VReg) (va : VReg) (vb : VReg) (t : EType) : Statement (.vsel vd va vb t) :=
  of_some rfl (decode_v _ _ _ _ _ _ rfl) (by cases t <;> rfl)

theorem vsplat (vd : VReg) (ra : Reg) (t : EType) : Statement (.vsplat vd ra t) :=
  of_some rfl (decode_l _ _ _ _ _ _ rfl) (by cases t <;> simp [decodeL, only] <;> rfl)

theorem vext (rd : Reg) (va : VReg) (t : EType) (lane : BitVec 4) : Statement (.vext rd va t lane) :=
  of_some rfl (decode_l _ _ _ _ _ _ rfl) (by
    obtain ⟨h1, h2, h3⟩ := laneImm_fields t lane
    simp [decodeL, only, h1, h2, h3])

theorem vins (vd : VReg) (ra : Reg) (t : EType) (lane : BitVec 4) : Statement (.vins vd ra t lane) :=
  of_some rfl (decode_l _ _ _ _ _ _ rfl) (by
    obtain ⟨h1, h2, h3⟩ := laneImm_fields t lane
    simp [decodeL, only, h1, h2, h3])

theorem vshuf (vd : VReg) (va : VReg) (vb : VReg) : Statement (.vshuf vd va vb) :=
  of_some rfl (decode_v _ _ _ _ _ _ rfl) rfl

theorem vdot (vd : VReg) (va : VReg) (vb : VReg) (t : EType) (sat : Bool) (rm : Rnd) : Statement (.vdot vd va vb t sat rm) :=
  of_some rfl (decode_v _ _ _ _ _ _ rfl) (by cases t <;> cases sat <;> cases rm <;> rfl)

theorem vred (vd : VReg) (va : VReg) (t : EType) (op : RedOp) (sat : Bool) : Statement (.vred vd va t op sat) :=
  of_some rfl (decode_v _ _ _ _ _ _ rfl) (by cases t <;> cases op <;> cases sat <;> rfl)

theorem cvt (rd : Reg) (ra : Reg) (c : CvtKind) (rm : Rnd) : Statement (.cvt rd ra c rm) :=
  of_some rfl (decode_r _ _ _ _ _ rfl) (by
    rcases c with ⟨s, d⟩ | ⟨s, d⟩ | ⟨s, d, sat⟩
    · cases s <;> cases d <;> cases rm <;> rfl
    · cases s <;> cases d <;> cases rm <;> rfl
    · cases s <;> cases d <;> cases sat <;> cases rm <;> rfl)

theorem vcvt (vd : VReg) (va : VReg) (dt : EType) (st : EType) (part : BitVec 3) (sat : Bool) (rm : Rnd) : Statement (.vcvt vd va dt st part sat rm) :=
  of_some rfl (decode_l _ _ _ _ _ _ rfl) (by
    obtain ⟨h1, h2, h3, h4, h5, h6⟩ := vcvtImm_fields part sat rm st dt _ rfl
    simp [decodeL, only, h1, h2, h3, h4, h5, h6])

theorem flenc (vd : VReg) (va : VReg) (fmt : Floe) (slot : BitVec 4) : Statement (.flenc vd va fmt slot) :=
  of_some rfl (decode_l _ _ _ _ _ _ rfl) (by
    obtain ⟨h1, h2, h3⟩ := floeImm_fields fmt slot
    simp [decodeL, only, h1, h2, h3])

theorem fldec (vd : VReg) (va : VReg) (fmt : Floe) (slot : BitVec 4) : Statement (.fldec vd va fmt slot) :=
  of_some rfl (decode_l _ _ _ _ _ _ rfl) (by
    obtain ⟨h1, h2, h3⟩ := floeImm_fields fmt slot
    simp [decodeL, only, h1, h2, h3])

theorem sfu (rd : Reg) (ra : Reg) (func : SfuFn) (t : FType) (rm : Rnd) : Statement (.sfu rd ra func t rm) :=
  of_some rfl (decode_r _ _ _ _ _ rfl) (by cases func <;> cases t <;> cases rm <;> rfl)

theorem vsfu (vd : VReg) (va : VReg) (func : SfuFn) (t : EType) : Statement (.vsfu vd va func t) :=
  of_some rfl (decode_v _ _ _ _ _ _ rfl) (by cases func <;> cases t <;> rfl)

theorem spset (sd : SReg) (ra : Reg) (stride : BitVec 16) : Statement (.spset sd ra stride) :=
  of_some rfl (decode_l _ _ _ _ _ _ rfl) (by simp [decodeL, only, high_zero stride 16 16, narrow_back stride 32])

theorem spget (rd : Reg) (sa : SReg) : Statement (.spget rd sa) :=
  of_some rfl (decode_r _ _ _ _ _ rfl) (by simp [decodeR, only])

theorem vsadd (sd : SReg) (sa : SReg) (sb : SReg) (rc : Reg) (t : EType) (sat : Bool) (rm : Rnd) : Statement (.vsadd sd sa sb rc t sat rm) :=
  of_some rfl (decode_l _ _ _ _ _ _ rfl) (by simp [decodeL, vs3, stream_code])

theorem vssub (sd : SReg) (sa : SReg) (sb : SReg) (rc : Reg) (t : EType) (sat : Bool) (rm : Rnd) : Statement (.vssub sd sa sb rc t sat rm) :=
  of_some rfl (decode_l _ _ _ _ _ _ rfl) (by simp [decodeL, vs3, stream_code])

theorem vsmul (sd : SReg) (sa : SReg) (sb : SReg) (rc : Reg) (t : EType) (sat : Bool) (rm : Rnd) : Statement (.vsmul sd sa sb rc t sat rm) :=
  of_some rfl (decode_l _ _ _ _ _ _ rfl) (by simp [decodeL, vs3, stream_code])

theorem vsfma (sd : SReg) (sa : SReg) (sb : SReg) (rc : Reg) (t : EType) (sat : Bool) (rm : Rnd) : Statement (.vsfma sd sa sb rc t sat rm) :=
  of_some rfl (decode_l _ _ _ _ _ _ rfl) (by simp [decodeL, vs3, stream_code])

theorem vsaxpy (sd : SReg) (sa : SReg) (sb : SReg) (rc : Reg) (x : Reg) (t : EType) (sat : Bool) (rm : Rnd) : Statement (.vsaxpy sd sa sb rc x t sat rm) :=
  of_some rfl (decode_l _ _ _ _ _ _ rfl) (by simp [decodeL, stream_code])

theorem vsmax (sd : SReg) (sa : SReg) (sb : SReg) (rc : Reg) (t : EType) : Statement (.vsmax sd sa sb rc t) :=
  of_some rfl (decode_l _ _ _ _ _ _ rfl) (by simp [decodeL, vs3n, only, stream_code])

theorem vsmin (sd : SReg) (sa : SReg) (sb : SReg) (rc : Reg) (t : EType) : Statement (.vsmin sd sa sb rc t) :=
  of_some rfl (decode_l _ _ _ _ _ _ rfl) (by simp [decodeL, vs3n, only, stream_code])

theorem vsexp (sd : SReg) (sa : SReg) (rc : Reg) (x : Reg) (t : EType) (rm : Rnd) : Statement (.vsexp sd sa rc x t rm) :=
  of_some rfl (decode_l _ _ _ _ _ _ rfl) (by simp [decodeL, only, stream_code])

theorem vsred (sd : SReg) (sa : SReg) (rc : Reg) (t : EType) (rm : Rnd) : Statement (.vsred sd sa rc t rm) :=
  of_some rfl (decode_l _ _ _ _ _ _ rfl) (by simp [decodeL, only, stream_code])

theorem vsdot (sd : SReg) (sa : SReg) (sb : SReg) (rc : Reg) (t : EType) (rm : Rnd) : Statement (.vsdot sd sa sb rc t rm) :=
  of_some rfl (decode_l _ _ _ _ _ _ rfl) (by simp [decodeL, only, stream_code])

theorem vscvt (sd : SReg) (sa : SReg) (rc : Reg) (dt : SType) (st : SType) (sat : Bool) (rm : Rnd) : Statement (.vscvt sd sa rc dt st sat rm) :=
  of_some rfl (decode_l _ _ _ _ _ _ rfl) (by simp [decodeL, only, streamMod_code _ _ _ (stype_code_lt st) (stype_code_lt dt)])

theorem vscopy (sd : SReg) (sa : SReg) (rc : Reg) (t : EType) : Statement (.vscopy sd sa rc t) :=
  of_some rfl (decode_l _ _ _ _ _ _ rfl) (by simp [decodeL, only, stream_code])

theorem vsfill (sd : SReg) (rc : Reg) (x : Reg) (t : EType) : Statement (.vsfill sd rc x t) :=
  of_some rfl (decode_l _ _ _ _ _ _ rfl) (by simp [decodeL, only, stream_code])

theorem mxwl (fmt : MxFmt) (ra : Reg) (rb : Reg) : Statement (.mxwl fmt ra rb) :=
  of_some rfl (decode_l _ _ _ _ _ _ rfl) (by cases fmt <;> rfl)

theorem mxwf : Statement .mxwf :=
  of_some rfl (decode_l _ _ _ _ _ _ rfl) rfl

theorem mxa (fmt : MxFmt) (rd : Reg) (ra : Reg) (rb : Reg) (rc : Reg) (jn : BitVec 5) (split : Bool) : Statement (.mxa fmt rd ra rb rc jn split) :=
  of_some rfl (decode_l _ _ _ _ _ _ rfl) (by
    obtain ⟨h1, h2, h3, h4⟩ := mxaImm_fields split jn fmt _ rfl
    simp [decodeL, only, h1, h2, h3, h4])

theorem mxd (fmt : MxFmt) (ra : Reg) (rb : Reg) (rc : Reg) (clr : Bool) : Statement (.mxd fmt ra rb rc clr) :=
  of_some rfl (decode_l _ _ _ _ _ _ rfl) (by cases fmt <;> cases clr <;> rfl)

theorem mxz (ra : Reg) (rb : Reg) : Statement (.mxz ra rb) :=
  of_some rfl (decode_r _ _ _ _ _ rfl) rfl

theorem mxstat (rd : Reg) (sel : BitVec 2) : Statement (.mxstat rd sel) :=
  of_some rfl (decode_r _ _ _ _ _ rfl) (by simp [decodeR, only, (mod_lt sel 32 : sel.toNat % 32 < 4), narrow_back sel 5] <;> exact mod_lt sel 32)

theorem mxrem (rd : Reg) (ra : Reg) (rb : Reg) : Statement (.mxrem rd ra rb) :=
  of_some rfl (decode_r _ _ _ _ _ rfl) rfl

theorem cpy (rd : Reg) (ra : Reg) (rb : Reg) : Statement (.cpy rd ra rb) :=
  of_some rfl (decode_l _ _ _ _ _ _ rfl) rfl

theorem cpyn (rd : Reg) (ra : Reg) (rb : Reg) (rc : Reg) (val : BitVec 32) : Statement (.cpyn rd ra rb rc val) :=
  of_some rfl (decode_l _ _ _ _ _ _ rfl) rfl

theorem cpy2d (rd : Reg) (ra : Reg) (rb : Reg) (rc : Reg) : Statement (.cpy2d rd ra rb rc) :=
  of_some rfl (decode_l _ _ _ _ _ _ rfl) rfl

theorem cpyg (rd : Reg) (ra : Reg) (rb : Reg) (rc : Reg) (size : BitVec 16) : Statement (.cpyg rd ra rb rc size) :=
  of_some rfl (decode_l _ _ _ _ _ _ rfl) (by simp [decodeL, only, high_zero size 16 16, narrow_back size 32])

theorem cpye (rd : Reg) (ra : Reg) (rb : Reg) (tag : BitVec 3) : Statement (.cpye rd ra rb tag) :=
  of_some rfl (decode_l _ _ _ _ _ _ rfl) (by simp [decodeL, only, high_zero tag 3 29, narrow_back tag 32])

theorem qfence (mask : BitVec 3) : Statement (.qfence mask) :=
  of_some rfl (decode_i _ _ _ _ rfl) (by simp [decodeI, only, (mod_lt mask 1024 : mask.toNat % 1024 < 8), narrow_back mask 10] <;> exact mod_lt mask 1024)

theorem gang (rd : Reg) (ra : Reg) : Statement (.gang rd ra) :=
  of_some rfl (decode_r _ _ _ _ _ rfl) rfl

theorem detach : Statement .detach :=
  of_some rfl (decode_r _ _ _ _ _ rfl) rfl

theorem rejoin : Statement .rejoin :=
  of_some rfl (decode_r _ _ _ _ _ rfl) rfl

theorem chkpt : Statement .chkpt :=
  of_some rfl (decode_r _ _ _ _ _ rfl) rfl

theorem stp (rd : Reg) (ra : Reg) (rb : Reg) (disp : BitVec 32) (wd : Width) (rel : Bool) : Statement (.stp rd ra rb disp wd rel) :=
  of_some rfl (decode_l _ _ _ _ _ _ rfl) (by cases wd <;> cases rel <;> rfl)

theorem pushl (ra : Reg) (rb : Reg) : Statement (.pushl ra rb) :=
  of_some rfl (decode_r _ _ _ _ _ rfl) rfl

theorem hold (rd : Reg) (ra : Reg) (rb : Reg) (acq : Bool) : Statement (.hold rd ra rb acq) :=
  of_some rfl (decode_r _ _ _ _ _ rfl) (by cases acq <;> rfl)

theorem unhold (rd : Reg) (ra : Reg) (rel : Bool) : Statement (.unhold rd ra rel) :=
  of_some rfl (decode_r _ _ _ _ _ rfl) (by cases rel <;> rfl)

theorem dqpush (rd : Reg) (ra : Reg) : Statement (.dqpush rd ra) :=
  of_some rfl (decode_r _ _ _ _ _ rfl) rfl

theorem dqpop (rd : Reg) (wait : Bool) : Statement (.dqpop rd wait) :=
  of_some rfl (decode_r _ _ _ _ _ rfl) (by cases wait <;> rfl)

theorem sync : Statement .sync :=
  of_some rfl (decode_r _ _ _ _ _ rfl) rfl

theorem exch (rd : Reg) (ra : Reg) (rb : Reg) (dst : BitVec 15) (clear : Bool) : Statement (.exch rd ra rb dst clear) :=
  of_some rfl (decode_l _ _ _ _ _ _ rfl) (by
    obtain ⟨h1, h2, h3⟩ := exchImm_fields clear dst _ rfl
    simp [decodeL, only, h1, h2, h3])

theorem redv (rd : Reg) (ra : Reg) (ch : BitVec 2) (op : RedOp) (ty : RedType) (sat : Bool) : Statement (.redv rd ra ch op ty sat) :=
  of_some rfl (decode_r _ _ _ _ _ rfl) (by cases op <;> cases ty <;> cases sat <;> simp [decodeR, only, (mod_lt ch 32 : ch.toNat % 32 < 4), narrow_back ch 5, RedOp.code, RedType.code, RedOp.of, RedType.of, nth, bit1] <;> exact mod_lt ch 32)

theorem domset (rd : Reg) (ra : Reg) : Statement (.domset rd ra) :=
  of_some rfl (decode_r _ _ _ _ _ rfl) rfl

theorem domget (rd : Reg) (sel : BitVec 2) : Statement (.domget rd sel) :=
  of_some rfl (decode_r _ _ _ _ _ rfl) (by simp [decodeR, only, (mod_lt sel 32 : sel.toNat % 32 < 4), narrow_back sel 5] <;> exact mod_lt sel 32)

theorem launch (rd : Reg) (ra : Reg) : Statement (.launch rd ra) :=
  of_some rfl (decode_l _ _ _ _ _ _ rfl) rfl

theorem cxopen (rd : Reg) (ra : Reg) (rb : Reg) : Statement (.cxopen rd ra rb) :=
  of_some rfl (decode_l _ _ _ _ _ _ rfl) rfl

theorem cxclose (rd : Reg) (ra : Reg) : Statement (.cxclose rd ra) :=
  of_some rfl (decode_r _ _ _ _ _ rfl) rfl

theorem cxins (rd : Reg) (ra : Reg) (rb : Reg) (rc : Reg) : Statement (.cxins rd ra rb rc) :=
  of_some rfl (decode_l _ _ _ _ _ _ rfl) rfl

theorem cxrep (rd : Reg) (ra : Reg) (rb : Reg) (rc : Reg) : Statement (.cxrep rd ra rb rc) :=
  of_some rfl (decode_l _ _ _ _ _ _ rfl) rfl

theorem cxdel (rd : Reg) (ra : Reg) (rb : Reg) : Statement (.cxdel rd ra rb) :=
  of_some rfl (decode_l _ _ _ _ _ _ rfl) rfl

theorem cxcommit (rd : Reg) (ra : Reg) (rb : Reg) (rc : Reg) : Statement (.cxcommit rd ra rb rc) :=
  of_some rfl (decode_l _ _ _ _ _ _ rfl) rfl

theorem cxsettle (rd : Reg) (ra : Reg) : Statement (.cxsettle rd ra) :=
  of_some rfl (decode_r _ _ _ _ _ rfl) rfl

theorem cxwaitb (rd : Reg) (ra : Reg) (rb : Reg) (rc : Reg) : Statement (.cxwaitb rd ra rb rc) :=
  of_some rfl (decode_l _ _ _ _ _ _ rfl) rfl

theorem cxstate (rd : Reg) (ra : Reg) (sel : BitVec 2) : Statement (.cxstate rd ra sel) :=
  of_some rfl (decode_r _ _ _ _ _ rfl) (by simp [decodeR, only, (mod_lt sel 32 : sel.toNat % 32 < 4), narrow_back sel 5] <;> exact mod_lt sel 32)

theorem cxlen (rd : Reg) (ra : Reg) (rb : Reg) (rc : Reg) : Statement (.cxlen rd ra rb rc) :=
  of_some rfl (decode_l _ _ _ _ _ _ rfl) rfl

theorem cxfork (rd : Reg) (ra : Reg) (rb : Reg) (rc : Reg) (rekey : Bool) : Statement (.cxfork rd ra rb rc rekey) :=
  of_some rfl (decode_l _ _ _ _ _ _ rfl) (by cases rekey <;> rfl)

theorem kvaddr (rd : Reg) (ra : Reg) (rb : Reg) (rc : Reg) : Statement (.kvaddr rd ra rb rc) :=
  of_some rfl (decode_l _ _ _ _ _ _ rfl) rfl

theorem kvld (rd : Reg) (ra : Reg) (rb : Reg) (rc : Reg) (n : BitVec 16) : Statement (.kvld rd ra rb rc n) :=
  of_some rfl (decode_l _ _ _ _ _ _ rfl) (by simp [decodeL, only, high_zero n 16 16, narrow_back n 32])

theorem kvapp (rd : Reg) (ra : Reg) (rb : Reg) (rc : Reg) : Statement (.kvapp rd ra rb rc) :=
  of_some rfl (decode_l _ _ _ _ _ _ rfl) rfl

theorem slabgrow (rd : Reg) (ra : Reg) (rb : Reg) (rc : Reg) : Statement (.slabgrow rd ra rb rc) :=
  of_some rfl (decode_l _ _ _ _ _ _ rfl) rfl

theorem lah (rd : Reg) (ra : Reg) (rb : Reg) : Statement (.lah rd ra rb) :=
  of_some rfl (decode_l _ _ _ _ _ _ rfl) rfl

theorem tap (rd : Reg) (ra : Reg) (rb : Reg) (rc : Reg) (t : BitVec 5) : Statement (.tap rd ra rb rc t) :=
  of_some rfl (decode_l _ _ _ _ _ _ rfl) (by simp [decodeL, only, high_zero t 5 27, narrow_back t 32])

theorem tapld (rd : Reg) (ra : Reg) (rb : Reg) (op : BitVec 2) : Statement (.tapld rd ra rb op) :=
  of_some rfl (decode_l _ _ _ _ _ _ rfl) (by simp [decodeL, only, (mod_lt op 4294967296 : op.toNat % 4294967296 < 4), narrow_back op 32] <;> exact mod_lt op 4294967296)

theorem rng (rd : Reg) (ra : Reg) (rb : Reg) (half : Bool) : Statement (.rng rd ra rb half) :=
  of_some rfl (decode_r _ _ _ _ _ rfl) (by cases half <;> rfl)

theorem gumb (vd : VReg) (va : VReg) (ra : Reg) (rb : Reg) : Statement (.gumb vd va ra rb) :=
  of_some rfl (decode_l _ _ _ _ _ _ rfl) (by simp [decodeL, only, high_zero va 4 28, narrow_back va 32])

theorem penal (vd : VReg) (ra : Reg) (rb : Reg) : Statement (.penal vd ra rb) :=
  of_some rfl (decode_l _ _ _ _ _ _ rfl) (by simp [decodeL, only])

theorem tourn (rd : Reg) (ra : Reg) (rb : Reg) : Statement (.tourn rd ra rb) :=
  of_some rfl (decode_l _ _ _ _ _ _ rfl) rfl

theorem rsr (rd : Reg) (num : BitVec 12) : Statement (.rsr rd num) :=
  of_some rfl (decode_s _ _ _ rfl) rfl

theorem wsr (num : BitVec 12) (ra : Reg) : Statement (.wsr num ra) :=
  of_some rfl (decode_s _ _ _ rfl) rfl

theorem trap (imm : BitVec 10) : Statement (.trap imm) :=
  of_some rfl (decode_i _ _ _ _ rfl) rfl

theorem tret : Statement .tret :=
  of_some rfl (decode_r _ _ _ _ _ rfl) rfl

theorem tfence : Statement .tfence :=
  of_some rfl (decode_r _ _ _ _ _ rfl) rfl

theorem fetchb : Statement .fetchb :=
  of_some rfl (decode_r _ _ _ _ _ rfl) rfl

theorem cwb (ra : Reg) : Statement (.cwb ra) :=
  of_some rfl (decode_r _ _ _ _ _ rfl) rfl

theorem cinv (ra : Reg) : Statement (.cinv ra) :=
  of_some rfl (decode_r _ _ _ _ _ rfl) rfl

theorem iinv (ra : Reg) : Statement (.iinv ra) :=
  of_some rfl (decode_r _ _ _ _ _ rfl) rfl

theorem dmapsel (k : BitVec 2) : Statement (.dmapsel k) :=
  of_some rfl (decode_i _ _ _ _ rfl) (by simp [decodeI, only, (mod_lt k 1024 : k.toNat % 1024 < 4), narrow_back k 10] <;> exact mod_lt k 1024)

theorem dmapld (rd : Reg) (ra : Reg) (third : Bool) : Statement (.dmapld rd ra third) :=
  of_some rfl (decode_l _ _ _ _ _ _ rfl) (by cases third <;> rfl)

theorem tlbinv (ra : Reg) (scope : BitVec 2) : Statement (.tlbinv ra scope) :=
  of_some rfl (decode_r _ _ _ _ _ rfl) (by simp [decodeR, only, (mod_lt scope 32 : scope.toNat % 32 < 4), narrow_back scope 5] <;> exact mod_lt scope 32)

theorem region (rd : Reg) (ra : Reg) (rb : Reg) (c : Bool) : Statement (.region rd ra rb c) :=
  of_some rfl (decode_l _ _ _ _ _ _ rfl) (by cases c <;> rfl)

theorem freeze (rd : Reg) : Statement (.freeze rd) :=
  of_some rfl (decode_r _ _ _ _ _ rfl) rfl

theorem stop : Statement .stop :=
  of_some rfl (decode_r _ _ _ _ _ rfl) rfl

theorem cVadd (vd : VReg) (vs : VReg) (t : CType) : Statement (.cVadd vd vs t) :=
  of_some rfl (decode_c _ _) (by
    obtain ⟨h1, h2, h3⟩ := laneParcel_fields vd vs t _ rfl
    simp [decodeC, h1, h2, h3])

theorem cVsub (vd : VReg) (vs : VReg) (t : CType) : Statement (.cVsub vd vs t) :=
  of_some rfl (decode_c _ _) (by
    obtain ⟨h1, h2, h3⟩ := laneParcel_fields vd vs t _ rfl
    simp [decodeC, h1, h2, h3])

theorem cVmul (vd : VReg) (vs : VReg) (t : CType) : Statement (.cVmul vd vs t) :=
  of_some rfl (decode_c _ _) (by
    obtain ⟨h1, h2, h3⟩ := laneParcel_fields vd vs t _ rfl
    simp [decodeC, h1, h2, h3])

theorem cVmin (vd : VReg) (vs : VReg) (t : CType) : Statement (.cVmin vd vs t) :=
  of_some rfl (decode_c _ _) (by
    obtain ⟨h1, h2, h3⟩ := laneParcel_fields vd vs t _ rfl
    simp [decodeC, h1, h2, h3])

theorem cVmax (vd : VReg) (vs : VReg) (t : CType) : Statement (.cVmax vd vs t) :=
  of_some rfl (decode_c _ _) (by
    obtain ⟨h1, h2, h3⟩ := laneParcel_fields vd vs t _ rfl
    simp [decodeC, h1, h2, h3])

theorem cVand (vd : VReg) (vs : VReg) (t : CType) : Statement (.cVand vd vs t) :=
  of_some rfl (decode_c _ _) (by
    obtain ⟨h1, h2, h3⟩ := laneParcel_fields vd vs t _ rfl
    simp [decodeC, h1, h2, h3])

theorem cVor (vd : VReg) (vs : VReg) (t : CType) : Statement (.cVor vd vs t) :=
  of_some rfl (decode_c _ _) (by
    obtain ⟨h1, h2, h3⟩ := laneParcel_fields vd vs t _ rfl
    simp [decodeC, h1, h2, h3])

theorem cVxor (vd : VReg) (vs : VReg) (t : CType) : Statement (.cVxor vd vs t) :=
  of_some rfl (decode_c _ _) (by
    obtain ⟨h1, h2, h3⟩ := laneParcel_fields vd vs t _ rfl
    simp [decodeC, h1, h2, h3])

theorem cVshl (vd : VReg) (vs : VReg) (t : CType) : Statement (.cVshl vd vs t) :=
  of_some rfl (decode_c _ _) (by
    obtain ⟨h1, h2, h3⟩ := laneParcel_fields vd vs t _ rfl
    simp [decodeC, h1, h2, h3])

theorem cVshr (vd : VReg) (vs : VReg) (t : CType) : Statement (.cVshr vd vs t) :=
  of_some rfl (decode_c _ _) (by
    obtain ⟨h1, h2, h3⟩ := laneParcel_fields vd vs t _ rfl
    simp [decodeC, h1, h2, h3])

theorem cVceq (vd : VReg) (vs : VReg) (t : CType) : Statement (.cVceq vd vs t) :=
  of_some rfl (decode_c _ _) (by
    obtain ⟨h1, h2, h3⟩ := laneParcel_fields vd vs t _ rfl
    simp [decodeC, h1, h2, h3])

theorem cVclt (vd : VReg) (vs : VReg) (t : CType) : Statement (.cVclt vd vs t) :=
  of_some rfl (decode_c _ _) (by
    obtain ⟨h1, h2, h3⟩ := laneParcel_fields vd vs t _ rfl
    simp [decodeC, h1, h2, h3])

theorem cVmov (vd : VReg) (vs : VReg) (t : CType) : Statement (.cVmov vd vs t) :=
  of_some rfl (decode_c _ _) (by
    obtain ⟨h1, h2, h3⟩ := laneParcel_fields vd vs t _ rfl
    simp [decodeC, h1, h2, h3])

theorem cVabs (vd : VReg) (vs : VReg) (t : CType) : Statement (.cVabs vd vs t) :=
  of_some rfl (decode_c _ _) (by
    obtain ⟨h1, h2, h3⟩ := laneParcel_fields vd vs t _ rfl
    simp [decodeC, h1, h2, h3])

theorem cVneg (vd : VReg) (vs : VReg) (t : CType) : Statement (.cVneg vd vs t) :=
  of_some rfl (decode_c _ _) (by
    obtain ⟨h1, h2, h3⟩ := laneParcel_fields vd vs t _ rfl
    simp [decodeC, h1, h2, h3])

theorem cVspl (vd : VReg) (vs : VReg) (t : CType) : Statement (.cVspl vd vs t) :=
  of_some rfl (decode_c _ _) (by
    obtain ⟨h1, h2, h3⟩ := laneParcel_fields vd vs t _ rfl
    simp [decodeC, h1, h2, h3])

theorem cMov (rd : Reg) (ra : Reg) : Statement (.cMov rd ra) :=
  of_some rfl (decode_c _ _) (by simp [decodeC, pairParcel_fields])

theorem cAddi (rd : Reg) (imm : BitVec 5) : Statement (.cAddi rd imm) :=
  of_some rfl (decode_c _ _) (by simp [decodeC, pairParcel_fields])

theorem cLi (rd : Reg) (imm : BitVec 5) : Statement (.cLi rd imm) :=
  of_some rfl (decode_c _ _) (by simp [decodeC, pairParcel_fields])

theorem cBz (ra : Reg) (off : BitVec 5) : Statement (.cBz ra off) :=
  of_some rfl (decode_c _ _) (by simp [decodeC, pairParcel_fields])

theorem cBnz (ra : Reg) (off : BitVec 5) : Statement (.cBnz ra off) :=
  of_some rfl (decode_c _ _) (by simp [decodeC, pairParcel_fields])

theorem cJ (off : BitVec 10) : Statement (.cJ off) :=
  of_some rfl (decode_c _ _) rfl

theorem cLdw (rd : BitVec 3) (ra : BitVec 3) (idx : BitVec 4) : Statement (.cLdw rd ra idx) :=
  of_some rfl (decode_c _ _) (by simp [decodeC, memParcel_fields])

theorem cStw (rd : BitVec 3) (ra : BitVec 3) (idx : BitVec 4) : Statement (.cStw rd ra idx) :=
  of_some rfl (decode_c _ _) (by simp [decodeC, memParcel_fields])

theorem cSlli (rd : Reg) (sh : BitVec 5) : Statement (.cSlli rd sh) :=
  of_some rfl (decode_c _ _) (by simp [decodeC, pairParcel_fields])

theorem cSrai (rd : Reg) (sh : BitVec 5) : Statement (.cSrai rd sh) :=
  of_some rfl (decode_c _ _) (by simp [decodeC, pairParcel_fields])

theorem cRet : Statement .cRet :=
  of_some rfl (decode_c _ _) rfl

theorem cNop : Statement .cNop :=
  of_some rfl (decode_c _ _) rfl

theorem cTfence : Statement .cTfence :=
  of_some rfl (decode_c _ _) rfl

theorem cWaitt (mask : BitVec 6) : Statement (.cWaitt mask) :=
  of_some rfl (decode_c _ _) (by simp [decodeC, only, tagParcel_fields])

theorem dep (yield : Bool) (mask : BitVec 6) (tag : BitVec 3) : Statement (.dep yield mask tag) :=
  of_some rfl (decode_c _ _) (by simp [decodeC, depParcel_fields])

theorem asyncResultLands (core : Nat) (thr : Nat) (id : Nat) : Statement (.asyncResultLands core thr id) :=
  of_none rfl

theorem asyncPoisonTrap (core : Nat) (thr : Nat) : Statement (.asyncPoisonTrap core thr) :=
  of_none rfl

theorem vstreamOpRun (core : Nat) : Statement (.vstreamOpRun core) :=
  of_none rfl

theorem matrixOpRun (core : Nat) : Statement (.matrixOpRun core) :=
  of_none rfl

theorem copyOpRun (core : Nat) : Statement (.copyOpRun core) :=
  of_none rfl

theorem engineOpComplete (core : Nat) (eng : Eng) : Statement (.engineOpComplete core eng) :=
  of_none rfl

theorem mxremArrival (core : Nat) : Statement (.mxremArrival core) :=
  of_none rfl

theorem pushArrival (id : Nat) : Statement (.pushArrival id) :=
  of_none rfl

theorem pushOutcome (id : Nat) : Statement (.pushOutcome id) :=
  of_none rfl

theorem pushInvalidation (id : Nat) : Statement (.pushInvalidation id) :=
  of_none rfl

theorem registration (id : Nat) : Statement (.registration id) :=
  of_none rfl

theorem registrationReply (id : Nat) : Statement (.registrationReply id) :=
  of_none rfl

theorem readMiss (line : Nat) : Statement (.readMiss line) :=
  of_none rfl

theorem forward (id : Nat) : Statement (.forward id) :=
  of_none rfl

theorem revoke (id : Nat) : Statement (.revoke id) :=
  of_none rfl

theorem homeAtomic (line : Nat) : Statement (.homeAtomic line) :=
  of_none rfl

theorem holdTimerExpiry (core : Nat) (thr : Nat) (line : Nat) : Statement (.holdTimerExpiry core thr line) :=
  of_none rfl

theorem waitwReread (core : Nat) (thr : Nat) : Statement (.waitwReread core thr) :=
  of_none rfl

theorem dqpopResearch (core : Nat) (thr : Nat) : Statement (.dqpopResearch core thr) :=
  of_none rfl

theorem stealRequest (core : Nat) (thr : Nat) : Statement (.stealRequest core thr) :=
  of_none rfl

theorem barrierComplete (core : Nat) : Statement (.barrierComplete core) :=
  of_none rfl

theorem exchangePhaseEnd (core : Nat) (outside : PhaseEnd) : Statement (.exchangePhaseEnd core outside) :=
  of_none rfl

theorem taskInject (handle : Nat) : Statement (.taskInject handle) :=
  of_none rfl

theorem unsharingRelocationEnd (die : Nat) : Statement (.unsharingRelocationEnd die) :=
  of_none rfl

theorem slabRelocationEnd (die : Nat) : Statement (.slabRelocationEnd die) :=
  of_none rfl

theorem kvPageSpill (part : Nat) : Statement (.kvPageSpill part) :=
  of_none rfl

theorem kvPageResident (page : Nat) : Statement (.kvPageResident page) :=
  of_none rfl

theorem tapEventEntry (part : Nat) : Statement (.tapEventEntry part) :=
  of_none rfl

theorem budgetExpiry (core : Nat) (thr : Nat) : Statement (.budgetExpiry core thr) :=
  of_none rfl

theorem preemptRequest (launch : Nat) : Statement (.preemptRequest launch) :=
  of_none rfl

theorem contextSave (launch : Nat) : Statement (.contextSave launch) :=
  of_none rfl

theorem preemptTimeout (launch : Nat) : Statement (.preemptTimeout launch) :=
  of_none rfl

theorem contextResume (launch : Nat) : Statement (.contextResume launch) :=
  of_none rfl

theorem timeSliceExpiry (launch : Nat) : Statement (.timeSliceExpiry launch) :=
  of_none rfl

theorem lockstepCheckpoint (core : Nat) : Statement (.lockstepCheckpoint core) :=
  of_none rfl

theorem lockstepMismatch (core : Nat) : Statement (.lockstepMismatch core) :=
  of_none rfl

theorem launchStart (launch : Nat) : Statement (.launchStart launch) :=
  of_none rfl

theorem launchComplete (launch : Nat) : Statement (.launchComplete launch) :=
  of_none rfl

theorem hostWrite (cxl : Bool) (half : Nat) (bytes : List (Option Byte)) : Statement (.hostWrite cxl half bytes) :=
  of_none rfl

theorem hostRead (half : Nat) : Statement (.hostRead half) :=
  of_none rfl

theorem snoopReply (half : Nat) (bytes : List (Option Byte)) : Statement (.snoopReply half bytes) :=
  of_none rfl

theorem snoopTimeout (half : Nat) : Statement (.snoopTimeout half) :=
  of_none rfl

theorem createPartition (fn : Nat) : Statement (.createPartition fn) :=
  of_none rfl

theorem destroyPartition (fn : Nat) : Statement (.destroyPartition fn) :=
  of_none rfl

theorem resizePartition (fn : Nat) : Statement (.resizePartition fn) :=
  of_none rfl

theorem setErrorWindow (fn : Nat) : Statement (.setErrorWindow fn) :=
  of_none rfl

theorem fwUpdate (fn : Nat) (image : List Byte) : Statement (.fwUpdate fn image) :=
  of_none rfl

theorem attest (fn : Nat) : Statement (.attest fn) :=
  of_none rfl

theorem debugFreeze (fn : Nat) : Statement (.debugFreeze fn) :=
  of_none rfl

theorem resume (fn : Nat) : Statement (.resume fn) :=
  of_none rfl

theorem query (fn : Nat) : Statement (.query fn) :=
  of_none rfl

theorem stepOne (fn : Nat) : Statement (.stepOne fn) :=
  of_none rfl

theorem readState (fn : Nat) : Statement (.readState fn) :=
  of_none rfl

theorem writeState (fn : Nat) (bytes : List Byte) : Statement (.writeState fn bytes) :=
  of_none rfl

theorem trace (fn : Nat) : Statement (.trace fn) :=
  of_none rfl

theorem record (fn : Nat) : Statement (.record fn) :=
  of_none rfl

theorem replay (fn : Nat) : Statement (.replay fn) :=
  of_none rfl

theorem mailboxRequestComplete (fn : Nat) : Statement (.mailboxRequestComplete fn) :=
  of_none rfl

theorem hostMmioWrite (fn : Nat) (off : Nat) (bytes : List Byte) : Statement (.hostMmioWrite fn off bytes) :=
  of_none rfl

theorem domWrite (ra : Reg) : Statement (.domWrite ra) :=
  of_none rfl

theorem dmapWrite (ra : Reg) : Statement (.dmapWrite ra) :=
  of_none rfl

theorem pwbWrite (k : BitVec 3) (size : Bool) (ra : Reg) : Statement (.pwbWrite k size ra) :=
  of_none rfl

theorem holdstWrite (ra : Reg) : Statement (.holdstWrite ra) :=
  of_none rfl

theorem fabricRemoteAccess (acc : FabArrival) : Statement (.fabricRemoteAccess acc) :=
  of_none rfl

theorem fabricAck (id : Nat) : Statement (.fabricAck id) :=
  of_none rfl

theorem fabricDeliveryTimeout (id : Nat) : Statement (.fabricDeliveryTimeout id) :=
  of_none rfl

theorem fabricLaunchReceive (src : Nat) (bytes : List Byte) (image : List Byte) : Statement (.fabricLaunchReceive src bytes image) :=
  of_none rfl

theorem startBarrierComplete (gen : Nat) (ok : Bool) : Statement (.startBarrierComplete gen ok) :=
  of_none rfl

theorem linkPortDown (port : Nat) : Statement (.linkPortDown port) :=
  of_none rfl

theorem unitRetire (unit : ErrUnit) : Statement (.unitRetire unit) :=
  of_none rfl

theorem powerLimitReached : Statement .powerLimitReached :=
  of_none rfl

theorem l1iFill (core : Nat) (line : Nat) : Statement (.l1iFill core line) :=
  of_none rfl

theorem uncorrectableError (site : ErrSite) : Statement (.uncorrectableError site) :=
  of_none rfl

theorem correctedError (unit : ErrUnit) : Statement (.correctedError unit) :=
  of_none rfl

theorem powerOn (images : List (List Byte)) : Statement (.powerOn images) :=
  of_none rfl

theorem portTraining (port : Nat) (gen : Nat) : Statement (.portTraining port gen) :=
  of_none rfl

theorem hostLinkTraining (cxl : Bool) (gen : Nat) (width : Nat) : Statement (.hostLinkTraining cxl gen width) :=
  of_none rfl

theorem tlbEntryLeave (core : Nat) (cluster : Bool) (index : Nat) : Statement (.tlbEntryLeave core cluster index) :=
  of_none rfl

theorem mbdoor (fn : Nat) (value : Nat) : Statement (.mbdoor fn value) :=
  of_none rfl

end Sys2Proof.Laws.Encoding
end

