-- ==== Sys2Proof/Safety.lean ====
section
/-!
DEFINITION. What counts as a safe run of the part, and the terms in which claims speak of one instruction: what it may
change beside its own effect, and how it ends.
-/
namespace Sys2Proof

/-- The first `k` steps from a state answer next states: no fault, no refusal. -/
def Safe (k : Nat) (s : Machine.State) : Prop :=
  match k with
  | 0 => True
  | k + 1 => ∃ t, Machine.step s = .next t ∧ Safe k t

namespace Claims

open Machine

/-- Nothing but the executing thread has changed: not the memory of any core, not global memory, not a cache, an engine,
another thread or core, a partition or a launch. Beside the thread there are the fate of the instruction and the mark of a
yield. -/
structure OnlyThread (s t : State) : Prop where
  rest : t = { s with ctx := { s.ctx with fate := t.ctx.fate }, cores := t.cores }
  cores : ∀ n, n ≠ s.ctx.core → t.core n = s.core n
  core : t.curCore = { s.curCore with thr := t.curCore.thr, skip := t.curCore.skip }
  slots : ∀ k, k ≠ s.ctx.thr → t.thread s.ctx.core k = s.thread s.ctx.core k

/-- A prefix that yields lets the selector pass over the thread once (spec/03 R83). -/
def Yields (s t : State) : Prop :=
  t.curCore.skip = if s.ctx.yield then s.curCore.skip ||| BitVec.ofNat 4 (2 ^ s.ctx.thr.toNat) else s.curCore.skip

/-- The executing instruction has completed without a taken transfer and has changed nothing but its own thread: its
registers are `regs`, `flags` have been ored into FS, the loop test of spec/04 R119 has given the next address from
`next`, INSTRET has grown by one. What the thread waits for and its fetch buffer are its own affair; every other register
of the thread is as before. -/
structure Completed (s t : State) (next : Word) (regs : Regs) (flags : BitVec 8) : Prop where
  only : OnlyThread s t
  yields : Yields s t
  fate : t.ctx.fate = .issued
  pc : t.cur.pc = (s.cur.loops.test s.ctx.a next).2.1
  thread : t.cur =
    { s.cur with
      pc := t.cur.pc
      loops := (s.cur.loops.test s.ctx.a next).1
      regs := regs
      sp := { s.cur.sp with fs := s.cur.sp.fs ||| flags, instret := s.cur.sp.instret + 1, noBkpt := false }
      run := { s.cur.run with wait := none, entered := false, fbuf := t.cur.run.fbuf, install := t.cur.run.install } }

/-- The instruction has completed; its one result is `v` in the scalar register `rd` (none for g0). -/
def Writes (s t : State) (rd : Reg) (v : Word) (flags : BitVec 8) : Prop :=
  Completed s t s.after (s.cur.regs.write rd v) flags

/-- The instruction has completed; its one result is `v` in the v register `vd`. -/
def WritesV (s t : State) (vd : VReg) (v : VWord) (flags : BitVec 8) : Prop :=
  Completed s t s.after (s.cur.regs.writeV vd v) flags

/-- A taken transfer to `target` (spec/04 R113) that changes nothing but its own thread: its registers are `regs`. -/
structure Jumped (s t : State) (target : Word) (regs : Regs) : Prop where
  only : OnlyThread s t
  yields : Yields s t
  fate : t.ctx.fate = .jumped
  thread : t.cur =
    { s.cur with
      pc := target
      loops := s.cur.loops.leave target
      regs := regs
      sp := { s.cur.sp with instret := s.cur.sp.instret + 1, noBkpt := false }
      run := { s.cur.run with wait := none, entered := false, fbuf := ⟨0, []⟩, install := false } }

/-- The executing thread has taken a trap with cause `c` and value `v` at the address `a` (spec/07 R168): the saved
registers, S level, LA clear, the handler's address, no scalar or v register changed. -/
structure EntersAt (s t : State) (a : Word) (c : Cause) (v : Word) : Prop where
  fate : t.ctx.fate = .trapped
  pc : t.cur.pc = s.cur.trap.tvec &&& ~~~1
  level : t.cur.level = .s
  trap : t.cur.trap =
    { s.cur.trap with
      tpc := a
      tcause := c.code
      tval := v
      tstat := BitVec.ofBool (s.holdsAny s.ctx.core s.ctx.thr) ++ s.cur.loops.la ++ BitVec.ofBool (s.cur.level == .s) }
  loops : t.cur.loops = { s.cur.loops with la := 0 }
  regs : t.cur.regs = s.cur.regs
  holds : t.holdsAny s.ctx.core s.ctx.thr = false
  buffer : t.cur.run.fbuf.bytes = []

/-- The trap is taken at the instruction itself. -/
def Enters (s t : State) (c : Cause) (v : Word) : Prop := EntersAt s t s.ctx.a c v

/-- Thread `k` of core `n`, executing or not, has taken a trap with cause `c` and value `v` at its pc (spec/07 R168). -/
structure Taken (s t : State) (n : Nat) (k : BitVec 2) (c : Cause) (v : Word) : Prop where
  pc : (t.thread n k).pc = (s.thread n k).trap.tvec &&& ~~~1
  level : (t.thread n k).level = .s
  trap : (t.thread n k).trap =
    { (s.thread n k).trap with
      tpc := (s.thread n k).pc
      tcause := c.code
      tval := v
      tstat := BitVec.ofBool (s.holdsAny n k) ++ (s.thread n k).loops.la ++ BitVec.ofBool ((s.thread n k).level == .s) }
  loops : (t.thread n k).loops = { (s.thread n k).loops with la := 0 }
  regs : (t.thread n k).regs = (s.thread n k).regs

/-- The executing thread has nothing for a trap to give up or to report: no hold, no place in a gang, no armed budget, no
tracing, no SYNC arrival. -/
structure Plain (s : State) : Prop where
  holds : s.holdsAny s.ctx.core s.ctx.thr = false
  gang : s.gangSlot s.ctx.core s.ctx.thr.toNat = none
  budget : s.cur.sp.lkbud.en = false
  trace : ∀ p, s.corePart s.ctx.core = some p → p.trace = none
  arrived : s.cur.run.arrived = none

/-- The instruction takes a trap. -/
def Traps (i : Instr) (s : State) (c : Cause) (v : Word) : Prop := ∃ t, exec i s = .next t ∧ Enters s t c v

/-- The instruction takes a trap, and nothing else happens: what a trap does is `State.trap`. -/
def Raises (i : Instr) (s : State) (c : Cause) (v : Word) : Prop := exec i s = .next (s.trap c v)

/-- The instruction brings the part to `u`, and then completes as every instruction does. -/
def Ends (i : Instr) (s u : State) : Prop := exec i s = .next u.retire

/-- The instruction waits, as `w` says, in the state `u`: at the thread's next step it is looked at again. -/
def Waits (i : Instr) (s u : State) (w : Wait) : Prop := exec i s = .next (u.stall w)

/-- A request of the sequencer has brought the part to `u` and replies `v` in `rd`: it completes once the writes of the
partition, its own among them, are in memory, and until then it waits with the reply (spec/17 R324, R335). -/
def Replies (i : Instr) (s u : State) (rd : Reg) (v : Word) : Prop :=
  if u.written (u.corePartId u.ctx.core) then Ends i s (u.wr rd v) else Waits i s u (.reply v)

/-- The instruction transfers control to `target`; the thread's registers are then `regs`. -/
def Goes (i : Instr) (s : State) (target : Word) (regs : Regs) : Prop :=
  ∃ t, exec i s = .next t ∧ Jumped s t target regs

/-- The instruction completes; the thread's registers are then `regs`, nothing else changes. -/
def Passes (i : Instr) (s : State) (regs : Regs) (flags : BitVec 8) : Prop :=
  ∃ t, exec i s = .next t ∧ Completed s t s.after regs flags

/-- The state in which an instruction whose result is written two or more cycles after its issue writes it: results on their
way to a register of `dest` may have landed meanwhile (spec/08 R186). -/
def meanwhile (s : State) (dest : List Dest) : State := s.landUnder s.ctx.core s.ctx.thr dest

/-- The instruction completes with a result that is written two or more cycles after its issue: up to what lands meanwhile
`P` says how, and its tag stays pending until the write (spec/03 R82, spec/08 R186). -/
def EndsLate (i : Instr) (s : State) (dest : List Dest) (P : State → State → Prop) : Prop :=
  ∃ t, exec i s = .next t.tagLate ∧ P (meanwhile s dest) t

/-- Such an instruction writes `v` to the scalar register `rd` and raises `flags`; nothing else changes. -/
def WritesLate (i : Instr) (s : State) (rd : Reg) (v : Word) (flags : BitVec 8) : Prop :=
  EndsLate i s [s.cur.regs.dest rd] fun u t => Writes u t rd v flags

/-- Such an instruction writes `v` to the v register `vd` and raises `flags`; nothing else changes. -/
def AnswersV (i : Instr) (s : State) (vd : VReg) (v : VWord) (flags : BitVec 8) : Prop :=
  EndsLate i s [.v vd] fun u t => WritesV u t vd v flags

/-- Global memory and host memory are in canonical form. -/
def CanonicalGlobal (s : State) : Prop := Memory.wf s.mem.cells = true ∧ Memory.wf s.host.mem = true

/-- The local memory of every core is in canonical form, and that of every saved context. -/
def CanonicalLocal (s : State) : Prop :=
  (∀ n, Memory.wf (s.core n).mem.lmem = true) ∧ ∀ l ∈ s.launches, ∀ p ∈ l.saved, Memory.wf p.2.mem.lmem = true

/-! ### Local memory -/

/-- All bytes of an access lie below the end of the executing core's local memory. -/
abbrev Near (s : State) (a : Word) (size : Nat) : Prop := a.toNat + size ≤ s.localEnd s.ctx.core

/-- `u` is `s` with the bytes `bs` written from local address `a` of the executing core on, and nothing else: every other
byte is as before; a row of 16 bytes written whole is no longer poisoned (spec/10 R195). -/
structure Stored (s u : State) (a : Nat) (bs : List Byte) : Prop where
  rest : u = s.onCurCore fun c => { c with mem := { c.mem with lmem := u.curCore.mem.lmem, lpsn := u.curCore.mem.lpsn } }
  inside : ∀ k, k < bs.length → cellsGet u.curCore.mem.lmem (a + k) = bs.getD k 0
  outside : ∀ x, x < a ∨ a + bs.length ≤ x → cellsGet u.curCore.mem.lmem x = cellsGet s.curCore.mem.lmem x
  poison : ∀ r, r ∈ u.curCore.mem.lpsn ↔ r ∈ s.curCore.mem.lpsn ∧ ¬ (a ≤ 16 * r ∧ 16 * r + 16 ≤ a + bs.length)

/-- The register value of loaded bytes: sign-extended for `.b`, `.h` and `.w`, else zero-extended (spec/05 R125). -/
def extended (wd : Width) (bs : List Byte) : Word :=
  match wd with
  | .b => (BitVec.ofNat 8 (leNat bs)).signExtend 64
  | .h => (BitVec.ofNat 16 (leNat bs)).signExtend 64
  | .w => (BitVec.ofNat 32 (leNat bs)).signExtend 64
  | _ => BitVec.ofNat 64 (leNat bs)

/-! ### Numbers -/

/-- a ≤ b as numbers. -/
def atMost (a b : Dy) : Prop := b.lt a = false

/-- a = b as numbers. -/
def same (a b : Dy) : Prop := atMost a b ∧ atMost b a

/-- |a|. -/
def magnitude (a : Dy) : Dy := ⟨a.n.natAbs, a.e⟩

/-- `s` with a result of the executing instruction on its way: its bytes are known, it lands in `dest` with its flags, the
tag of the instruction's prefix tracks it (spec/03 R81, R82). -/
def later (s : State) (kind : AKind) (dest : List Dest) (fmt : ResultFmt) (bs : List Byte) (flags : Flags) : State :=
  (({ s with nextId := s.nextId + 1 }).addPend
    ⟨s.nextId, kind, dest, fmt, bs.map .have, flags, false, 0, s.level, false⟩).track s.nextId

/-- `s` with a command of the executing instruction at the end of an engine's queue, its tag pending (spec/11 R218). -/
def queued (s : State) (e : Eng) (c : Cmd) : State :=
  (({ s with nextId := s.nextId + 1 }).onQueue s.ctx.core e fun q => q ++ [{ c with id := s.nextId }]).track s.nextId

/-! ### Results of the scalar instructions -/

/-- The width that `.w` selects. -/
def width (w : Bool) : Nat := if w then 32 else 64

/-- An operand as an unbounded integer: a register, or its low word with `.w`, read signed or unsigned (spec/04 R102). -/
def opnd (w signed : Bool) (x : Word) : Int :=
  match w, signed with
  | false, true => x.toInt
  | false, false => x.toNat
  | true, true => (x.setWidth 32).toInt
  | true, false => (x.setWidth 32).toNat

/-- An integer, or the nearer bound of the signed range of the width (spec/02 R53). -/
def nearer (w : Bool) (x : Int) : Int :=
  if x < - 2 ^ (width w - 1) then - 2 ^ (width w - 1)
  else if 2 ^ (width w - 1) ≤ x then 2 ^ (width w - 1) - 1
  else x

/-- The exact result `x` (spec/04 R102): clamped with `.sat`, modulo 2^w, sign-extended to 64 bits. -/
def resultOf (w sat : Bool) (x : Int) : Word := (BitVec.ofInt (width w) (if sat then nearer w x else x)).signExtend 64

/-- SAT is raised when clamping has changed the result. -/
def resultFlags (w sat : Bool) (x : Int) : BitVec 8 := if sat && nearer w x != x then 0x20 else 0

/-- The instruction completes with the exact result `x`. -/
def Computes (i : Instr) (s : State) (rd : Reg) (w sat : Bool) (x : Int) : Prop :=
  ∃ t, exec i s = .next t ∧ Writes s t rd (resultOf w sat x) (resultFlags w sat x)

/-- The instruction completes with the exact result `x`, written two or more cycles after its issue. -/
def ComputesLate (i : Instr) (s : State) (rd : Reg) (w sat : Bool) (x : Int) : Prop :=
  WritesLate i s rd (resultOf w sat x) (resultFlags w sat x)

/-- The instruction completes, writes `v` to `rd` and raises no flag. -/
def Answers (i : Instr) (s : State) (rd : Reg) (v : Word) : Prop := ∃ t, exec i s = .next t ∧ Writes s t rd v 0

/-- The condition mask of spec/04 R105 over signed and unsigned operands. -/
def Conditions (v : Word) (sa sb ua ub : Int) : Prop :=
  v.getLsbD 0 = decide (sa = sb) ∧ v.getLsbD 1 = decide (sa ≠ sb) ∧ v.getLsbD 2 = decide (sa < sb) ∧
  v.getLsbD 3 = decide (sa ≥ sb) ∧ v.getLsbD 4 = decide (ua < ub) ∧ v.getLsbD 5 = decide (ua ≥ ub) ∧
  v.getLsbD 6 = decide (sa > sb) ∧ v.getLsbD 7 = decide (sa ≤ sb) ∧ v.getLsbD 8 = decide (ua > ub) ∧
  v.getLsbD 9 = decide (ua ≤ ub) ∧ ∀ i, 10 ≤ i → v.getLsbD i = false

end Claims
end Sys2Proof
end

