-- ==== Sys2Proof/Certificates/Slice0/Obligations.lean ====
section
/-!
DEFINITION. The statements for the provers. OBLIGATIONS.json says of each what it claims and on which rules of spec/ it rests;
the terms they speak in are those of Sys2Proof/Safety.lean.
-/
set_option linter.constructorNameAsVariable false

open Sys2Proof Sys2Proof.Machine Sys2Proof.Claims

/-- ADD, SUB and MUL: the exact result, wrapped or clamped to the width, sign-extended from it. For every state and all
registers, ADD, SUB and MUL complete. With a and b the signed values of ra and rb (of their low 32 bits with .w), rd
becomes a + b, a - b or a * b modulo 2^w sign-extended to 64 bits; with .sat a result outside the signed range becomes
the nearer bound and FS.SAT is raised. Nothing else changes: no other register, flag, byte of memory or part of the
machine; the product is written two or more cycles after issue, so results on their way to rd may land before it.
Concludes that exec answers a next state, on conditions on state and operands alone, for: add, sub, mul. (R102, R53,
R119) -/
def Obligations.IntegerAddSubtractMultiply : Prop :=
  ∀ (s : State) (rd ra rb : Reg) (w sat : Bool),
    let a := opnd w true (s.rd ra)
    let b := opnd w true (s.rd rb)
    Computes (.add rd ra rb w sat) s rd w sat (a + b) ∧
    Computes (.sub rd ra rb w sat) s rd w sat (a - b) ∧
    ComputesLate (.mul rd ra rb w sat) s rd w sat (a * b)

/-- MULH, MULHU, MIN, MAX, MINU and MAXU write their results and complete. For every state and all registers: MULH and
MULHU write floor(a * b / 2^w) over signed and unsigned operands, MIN and MAX the lesser and greater signed operand,
MINU and MAXU the lesser and greater unsigned one, each modulo 2^w and sign-extended from bit w - 1; no flag and
nothing else changes. The products are written two or more cycles after issue. Concludes that exec answers a next
state, on conditions on state and operands alone, for: mulh, mulhu, min, max, minu, maxu. (R102) -/
def Obligations.IntegerHighProductAndExtremes : Prop :=
  ∀ (s : State) (rd ra rb : Reg) (w : Bool),
    let a := opnd w true (s.rd ra)
    let b := opnd w true (s.rd rb)
    let c := opnd w false (s.rd ra)
    let d := opnd w false (s.rd rb)
    ComputesLate (.mulh rd ra rb w false) s rd w false (Int.fdiv (a * b) (2 ^ width w)) ∧
    ComputesLate (.mulhu rd ra rb w false) s rd w false (Int.fdiv (c * d) (2 ^ width w)) ∧
    Computes (.min rd ra rb w false) s rd w false (if a ≤ b then a else b) ∧
    Computes (.max rd ra rb w false) s rd w false (if a ≤ b then b else a) ∧
    Computes (.minu rd ra rb w false) s rd w false (if c ≤ d then c else d) ∧
    Computes (.maxu rd ra rb w false) s rd w false (if c ≤ d then d else c)

/-- DIV, DIVU, REM and REMU, with a zero divisor and an overflowing quotient. For every state and all registers, the
divisions complete and never trap. With a non-zero divisor: DIV truncates toward zero (clamped with .sat), DIVU
floors, REM and REMU give the matching remainders. With a zero divisor: DIV writes -1, or with .sat the largest value
for a dividend of at least 0 and the smallest for a negative one with FS.SAT raised; DIVU writes 2^w - 1; REM and REMU
write a. All results are sign-extended from bit w - 1 and written two or more cycles after issue; nothing else
changes. Concludes that exec answers a next state, on conditions on state and operands alone, for: div, divu, rem,
remu. (R103) -/
def Obligations.IntegerDivision : Prop :=
  ∀ (s : State) (rd ra rb : Reg) (w sat : Bool),
    let a := opnd w true (s.rd ra)
    let b := opnd w true (s.rd rb)
    let c := opnd w false (s.rd ra)
    let d := opnd w false (s.rd rb)
    (b ≠ 0 → ComputesLate (.div rd ra rb w sat) s rd w sat (Int.tdiv a b) ∧
      ComputesLate (.rem rd ra rb w false) s rd w false (a - b * Int.tdiv a b)) ∧
    (b = 0 → ComputesLate (.div rd ra rb w false) s rd w false (-1) ∧
      ComputesLate (.div rd ra rb w true) s rd w true (if 0 ≤ a then 2 ^ 64 else - 2 ^ 64) ∧
      ComputesLate (.rem rd ra rb w false) s rd w false a) ∧
    (d ≠ 0 → ComputesLate (.divu rd ra rb w false) s rd w false (Int.fdiv c d) ∧
      ComputesLate (.remu rd ra rb w false) s rd w false (c - d * Int.fdiv c d)) ∧
    (d = 0 → ComputesLate (.divu rd ra rb w false) s rd w false (2 ^ width w - 1) ∧
      ComputesLate (.remu rd ra rb w false) s rd w false c)

/-- AND to XORI, SEL, LEA, PCREL, LI, LIH and the shifts write their results. For every state and all operands these
instructions complete; each writes the one result that its entry gives to rd and changes nothing else. Sources are
read before rd is written, so a source may be the destination; a result named g0 is discarded. For every state:
without .w the count is the low 6 bits of rb and the result is the 64-bit shift of ra; with .w the count is the low 5
bits of rb and the 32-bit shift of the low word of ra is sign-extended. SLLI, SRLI and SRAI shift by an immediate
below 64, C.SLLI and C.SRAI by a 5-bit one. Each completes, writes rd and changes nothing else. Concludes that exec
answers a next state, on conditions on state and operands alone, for: and, or, xor, andn, sll, srl, sra, sel, addi,
andi, ori, xori, slli, srli, srai, li, lih, lea, pcrel, cMov, cAddi, cLi, cSlli, cSrai. (R102, R106, R109, R110, R111,
R112, R94, R104) -/
def Obligations.LogicAddressesAndShifts : Prop :=
  (∀ (s : State) (rd ra rb rc : Reg) (imm : BitVec 10) (imm5 : BitVec 5) (imm32 : BitVec 32) (sh : BitVec 2),
    Answers (.and rd ra rb false false) s rd (s.rd ra &&& s.rd rb) ∧
    Answers (.or rd ra rb false false) s rd (s.rd ra ||| s.rd rb) ∧
    Answers (.xor rd ra rb false false) s rd (s.rd ra ^^^ s.rd rb) ∧
    Answers (.andn rd ra rb false false) s rd (s.rd ra &&& ~~~(s.rd rb)) ∧
    Answers (.sel rd ra rb rc) s rd (if s.rd rc = 0 then s.rd rb else s.rd ra) ∧
    Answers (.addi rd ra imm) s rd (s.rd ra + imm.signExtend 64) ∧
    Answers (.andi rd ra imm) s rd (s.rd ra &&& imm.signExtend 64) ∧
    Answers (.ori rd ra imm) s rd (s.rd ra ||| imm.signExtend 64) ∧
    Answers (.xori rd ra imm) s rd (s.rd ra ^^^ imm.signExtend 64) ∧
    Answers (.li rd imm32) s rd (imm32.signExtend 64) ∧
    Answers (.lih rd imm32) s rd (BitVec.ofNat 64 (imm32.toNat * 2 ^ 32 + (s.rd rd).toNat % 2 ^ 32)) ∧
    Answers (.lea rd ra rb sh) s rd (s.rd ra + s.rd rb * BitVec.ofNat 64 (2 ^ sh.toNat)) ∧
    Answers (.pcrel rd imm32) s rd (s.ctx.p + imm32.signExtend 64) ∧
    Answers (.cMov rd ra) s rd (s.rd ra) ∧
    Answers (.cAddi rd imm5) s rd (s.rd rd + imm5.signExtend 64) ∧
    Answers (.cLi rd imm5) s rd (imm5.signExtend 64)) ∧
  (∀ (s : State) (rd ra rb : Reg) (imm : BitVec 10) (sh : BitVec 5),
    (let n := (s.rd rb).toNat % 64
     Answers (.sll rd ra rb false) s rd (s.rd ra <<< n) ∧
     Answers (.srl rd ra rb false) s rd (s.rd ra >>> n) ∧
     Answers (.sra rd ra rb false) s rd ((s.rd ra).sshiftRight n)) ∧
    (let n := (s.rd rb).toNat % 32
     let a : BitVec 32 := (s.rd ra).setWidth 32
     Answers (.sll rd ra rb true) s rd ((a <<< n).signExtend 64) ∧
     Answers (.srl rd ra rb true) s rd ((a >>> n).signExtend 64) ∧
     Answers (.sra rd ra rb true) s rd ((a.sshiftRight n).signExtend 64)) ∧
    (imm.toNat < 64 →
     Answers (.slli rd ra imm) s rd (s.rd ra <<< imm.toNat) ∧
     Answers (.srli rd ra imm) s rd (s.rd ra >>> imm.toNat) ∧
     Answers (.srai rd ra imm) s rd ((s.rd ra).sshiftRight imm.toNat)) ∧
    Answers (.cSlli rd sh) s rd (s.rd rd <<< sh.toNat) ∧
    Answers (.cSrai rd sh) s rd ((s.rd rd).sshiftRight sh.toNat))

/-- CMP and CMPI write the mask of ten condition bits. For every state and all operands, CMP (of whole registers or of low
words) and CMPI (against the sign-extended immediate) complete with a value in rd whose bits 0 to 9 are set when a =
b, a /= b, a < b signed, a >= b signed, a < b unsigned, a >= b unsigned, a > b signed, a <= b signed, a > b unsigned,
a <= b unsigned, and whose bits 63 to 10 are zero. Concludes that exec answers a next state, on conditions on state
and operands alone, for: cmp, cmpi. (R105) -/
def Obligations.CompareWritesTenConditions : Prop :=
  ∀ (s : State) (rd ra rb : Reg) (w : Bool) (imm : BitVec 10),
    (∃ v, Answers (.cmp rd ra rb w) s rd v ∧
      Conditions v (opnd w true (s.rd ra)) (opnd w true (s.rd rb)) (opnd w false (s.rd ra)) (opnd w false (s.rd rb))) ∧
    (∃ v, Answers (.cmpi rd ra imm) s rd v ∧
      Conditions v (s.rd ra).toInt (imm.signExtend 64).toInt (s.rd ra).toNat (imm.signExtend 64).toNat)

/-- CLZ, CTZ, POPC, BREV and BSWAP, BFX and BFI, bit by bit. For every state, in the width w that .w selects: CLZ writes
the number of zero bits above the highest set bit (w for zero), CTZ the number below the lowest, POPC the number of
set bits; BREV gives bit k the value of bit w - 1 - k and BSWAP gives byte j the value of byte w/8 - 1 - j, the result
sign-extended with .w. Each completes and changes nothing but rd. For every state, with the position pos = rb<5:0> and
the length len = min(rb<14:8>, 64, 64 - pos): BFX writes bits pos to pos + len - 1 of ra at bit 0, extended by zeros
or by the field's top bit, and 0 for a length of 0; BFI writes the low len bits of ra over bits pos to pos + len - 1
of rd and leaves its other bits. Both complete and change nothing but rd. Concludes that exec answers a next state, on
conditions on state and operands alone, for: clz, ctz, popc, brev, bswap, bfx, bfi. (R107, R108) -/
def Obligations.BitCountsAndBitFields : Prop :=
  (∀ (s : State) (rd ra : Reg) (w : Bool),
    let n := width w
    let x := s.rd ra
    (∃ k, Answers (.clz rd ra w) s rd (BitVec.ofNat 64 k) ∧ k ≤ n ∧ (∀ i, i < k → x.getLsbD (n - 1 - i) = false) ∧
      (k < n → x.getLsbD (n - 1 - k) = true)) ∧
    (∃ k, Answers (.ctz rd ra w) s rd (BitVec.ofNat 64 k) ∧ k ≤ n ∧ (∀ i, i < k → x.getLsbD i = false) ∧
      (k < n → x.getLsbD k = true)) ∧
    Answers (.popc rd ra w) s rd (BitVec.ofNat 64 ((List.range n).filter fun i => x.getLsbD i).length) ∧
    (∃ v, Answers (.brev rd ra w) s rd v ∧ (∀ i, i < n → v.getLsbD i = x.getLsbD (n - 1 - i)) ∧
      (∀ i, n ≤ i → i < 64 → v.getLsbD i = v.getLsbD 31)) ∧
    (∃ v, Answers (.bswap rd ra w) s rd v ∧
      (∀ j i, j < n / 8 → i < 8 → v.getLsbD (8 * j + i) = x.getLsbD (8 * (n / 8 - 1 - j) + i)) ∧
      (∀ i, n ≤ i → i < 64 → v.getLsbD i = v.getLsbD 31))) ∧
  (∀ (s : State) (rd ra rb : Reg),
    let c := s.rd rb
    let pos := c.toNat % 64
    let len := Nat.min (Nat.min (c.toNat / 256 % 128) 64) (64 - pos)
    (∃ v, Answers (.bfx rd ra rb false) s rd v ∧ (∀ i, i < len → v.getLsbD i = (s.rd ra).getLsbD (pos + i)) ∧
      (∀ i, len ≤ i → v.getLsbD i = false)) ∧
    (∃ v, Answers (.bfx rd ra rb true) s rd v ∧ (∀ i, i < len → v.getLsbD i = (s.rd ra).getLsbD (pos + i)) ∧
      (∀ i, len ≤ i → i < 64 → v.getLsbD i = (len != 0 && (s.rd ra).getLsbD (pos + len - 1)))) ∧
    (∃ v, Answers (.bfi rd ra rb) s rd v ∧ (∀ i, i < len → v.getLsbD (pos + i) = (s.rd ra).getLsbD i) ∧
      (∀ i, i < pos ∨ pos + len ≤ i → v.getLsbD i = (s.rd rd).getLsbD i)))

/-- Decoding the bytes of any well-formed encodable instruction gives it back, whatever follows. For every instruction
that has an encoding and keeps the limits of its entry, with every operand at every value the encoding admits: laying
its words out in memory order and decoding through table 0, with any bytes after it, gives exactly that instruction
and its length. (R88, R89, R90, R91, R92, R93, R94, R95) -/
def Obligations.EncodeThenDecode : Prop :=
  ∀ (i : Instr) (bs rest : List Byte), i.wellFormed = true → encodeBytes i = some bs →
    decodeBytes nativeOp (bs ++ rest) = some (i, bs.length)

/-- Words written out from the encoding tables decode to the instructions they stand for. Bit patterns written from the
formats and opcode tables decode to ADD o0, i1, l2; ADD.w l1, i0, i1; CMP l0, i0, i1; ADDI sp, sp, -128; SLLI l1, l1,
3; LEA.d l1, i0, l2; BNZ l0 backwards; CALL; ST.d.rel; TRAP 7; the 64-bit LI, LOOPI, LDL.hz and CAS.w.ar; C.VADD.f32
v3, v5 and C.RET. The numbering is that of the opcode table: bit 0 is the first parcel's lowest bit. (R88, R89, R90,
R91, R92, R93, R94) -/
def Obligations.WordsFromTheEncodingTables : Prop :=
  decodeTableWord 32 0x04B28001 = some (.add 8 25 18 false false) ∧
    decodeTableWord 32 0x0E711001 = some (.add 17 24 25 true false) ∧
    decodeTableWord 32 0x06710051 = some (.cmp 16 24 25 false) ∧
    decodeTableWord 32 0xE01CE101 = some (.addi 14 14 0x380) ∧
    decodeTableWord 32 0x00E31111 = some (.slli 17 17 3) ∧
    decodeTableWord 32 0x1CB11129 = some (.lea 17 24 18 3) ∧
    decodeTableWord 32 0xFFF50205 = some (.bnz 16 0x7FFA) ∧
    decodeTableWord 32 0x00020211 = some (.call 0x20) ∧
    decodeTableWord 32 0x589C9305 = some (.st 9 14 2 .d true) ∧
    decodeTableWord 32 0x01C00F09 = some (.trap 7) ∧
    decodeTableWord 64 0x0040200800002123 = some (.li 2 0x00402008) ∧
    decodeTableWord 64 0x000300060000022B = some (.loopi false 3 6) ∧
    decodeTableWord 64 0xFFFFFFFC28341313 = some (.ldl 1 26 0xFFFFFFFC .hz false) ∧
    decodeTableWord 64 0x0000001A18A01333 = some (.cas 1 16 2 3 false .ar) ∧
    decodeTableWord 16 0x14C0 = some (.cVadd 3 5 .f32) ∧ decodeTableWord 16 0x0034 = some .cRet

/-- Unassigned opcodes and fields beyond their entry's limits are no instructions. A 32-bit or 64-bit word whose opcode no
row of the table assigns decodes to nothing, whatever its other bits; and whatever the decoder accepts keeps the
limits of its entry, so a word that breaks one (a store width above 3, a loop span below 4, a shift by 64 or more)
decodes to nothing. (R95, R99, R100) -/
def Obligations.ReservedEncodingsRefused : Prop :=
  (∀ w : Word, w.getLsbD 0 = true → nativeOp (w.extractLsb' 2 10).toNat = none → decodeWord nativeOp w = none) ∧
    (∀ (table : Nat → Option Op) (w : Word) (i : Instr), decodeWord table w = some i → i.wellFormed = true)

/-- A step runs the instruction that the bytes at the pc decode to. When the agenda names a thread that can move, nothing
is to be taken before its instruction, and the bytes fetched for it are those of a well-formed instruction i (table 0,
no DEP), then step at that state is exec of i with the thread as the executing one at its pc; if that answers a next
state, the step adds the parking of an instruction that began to wait, what follows an issue (counters, trace, gang,
captures), the mark of a debugger's step, checkpoints of lockstep pairs and the passing of time. With a DEP prefix the
prefix runs first (a privileged instruction at U level traps before it), and the instruction runs at pc + 2 once the
prefix has let it issue. (R83, R88, R95, R101, R190) -/
def Obligations.StepRunsDecodedInstruction : Prop :=
  ∀ (s s2 : State) (rest : List Agent) (n k : Nat) (i : Instr) (bs : List Byte) (led : Option (Word × Nat)),
    let t := tid k
    let s1 := (({ s with agenda := rest }).considered n t).fated .stalled
    s.agenda = .thread n k :: rest → n < Config.numCores → ({ s with agenda := rest }).canMove n t = true →
    s1.takeAsync n t = none → s1.nextBytes n t = (s2, .ok bs, led) →
    (s2.preempting n && (s2.thread n t).unasked && Instr.parksAt i) = false →
    (s2.thread n t).sp.sel = 0 → i.wellFormed = true → (∀ y m g, i ≠ .dep y m g) →
    let pc := (s2.thread n t).pc
    let finish (r : Read) : Res → Res
      | .next s3 =>
        .next (({ s with agenda := rest }).close (((s3.parkIfBlocked n t ((s2.issuing n t 0 0 0 0).blockingInstr i)).afterIssue n t bs led r
          (s2.attachedTo n t.toNat)).stepMark n t))
      | r => r
    (encodeBytes i = some bs →
      let u := s2.issuing n t pc pc bs.length (wordAt bs)
      u.cur.breakAt pc = none → u.takeDamage n t i = none →
      step s = finish (.plain i bs.length (wordAt bs)) (exec i u)) ∧
    (∀ y m g inner, encodeBytes i = some inner → encodeBytes (.dep y m g) = some (bs.take 2) → bs = bs.take 2 ++ inner → g ≠ 7 →
      let u := s2.issuing n t pc (pc + 2) inner.length (wordAt inner)
      u.cur.breakAt pc = none → u.takeDamage n t i = none →
      step s = finish (.prefixed (.dep y m g) i inner.length (wordAt inner))
        (match u.privFirst i with
         | some v => .next v
         | none =>
           match exec (.dep y m g) u with
           | .next v => if v.ctx.fate = .issued then exec i (v.fated .stalled) else .next v
           | r => r))

/-- The bytes of an instruction in local memory are what the fetch gives. For a thread with an empty fetch buffer whose pc
lies in its local memory, at least 32 bytes below its end, in blocks without poison: if the bytes at the pc are those
of a well-formed instruction, the fetch answers exactly them. (With StepRunsDecodedInstruction: a step runs what
memory holds at the pc.) (R88, R101, R199, R200, R201) -/
def Obligations.FetchReadsLocalMemory : Prop :=
  ∀ (s : State) (n : Nat) (t : BitVec 2) (i : Instr) (bs : List Byte),
    let th := s.thread n t
    let pc := th.pc.toNat
    th.run.fbuf.bytes = [] → pc % 2 = 0 → pc / 16 * 16 + 32 ≤ s.localEnd n → s.lpoison n (pc / 16 * 16) 32 = false →
    (∀ y m g, i ≠ .dep y m g) → i.wellFormed = true → encodeBytes i = some bs → s.lmem n pc bs.length = bs →
    (s.fetch n t).2 = .ok bs

/-- An event named by the agenda runs the meaning of its row; a thread of no core and an ill-formed event stop by name.
When the agenda names a well-formed event of the opcode table, step is exec of that event followed by the passing of
time; an event that breaks its row's ranges, or an instruction that only a thread executes named as an event, is
refused by name, and a thread of a core the part does not have stops with its own fault. A thread that cannot move
lets time pass. (The agenda is the model's own input, log 1: DESIGN CHOICE.) (R190) -/
def Obligations.EventsRunTheirRow : Prop :=
  ∀ (s : State) (rest : List Agent),
    let u := { s with agenda := rest }
    (∀ e, s.agenda = .event e :: rest → Instr.isEvent e = true → e.wellFormed = true →
      step s = match exec e u with
        | .next v => .next (u.close v)
        | r => r) ∧
    (∀ e, s.agenda = .event e :: rest → (Instr.isEvent e && e.wellFormed) = false →
      step s = .refused .illFormedEvent) ∧
    (∀ n k, s.agenda = .thread n k :: rest → Config.numCores ≤ n → step s = .fault .noSuchCore) ∧
    (∀ n k, s.agenda = .thread n k :: rest → n < Config.numCores → u.canMove n (tid k) = false → step s = .next (u.close u))

/-- The part right after power-on: every register at its reset value, every memory canonical. After reset no partition,
launch or sequence exists, memory lists nothing, and every core and thread reads as the spec gives it: all registers,
FS, FE, FRM, loop registers, trap context, HOLDST and the windows' bindings zero, CWP 0 and WRES 1, DMAP.SEL 0 and
DMAP.UENA 3, LQUOTA 16, MXCAP 0, LOCKCTL 0. (Where the spec states no reset value the model's choice is zero, log 5:
DESIGN CHOICE. That no partition, launch or sequence is there, no thread is live, and memory lists nothing and so
reads zero, is the model's choice too, logs 3 and 4: DESIGN CHOICE.) The premises of the two invariants hold at reset.
(R74, R80, R84, R87, R190, R228, R258) -/
def Obligations.ResetState : Prop :=
  ((∀ n t, ((State.reset.thread n t).regs.read 0 = 0) ∧ (State.reset.thread n t).regs = Regs.zero ∧
      Regs.zero.cwp = 0 ∧ Regs.zero.wres = 1 ∧ (State.reset.thread n t).loops = Loops.zero ∧
      (State.reset.thread n t).trap = TrapCtx.zero ∧ (State.reset.thread n t).sp = Special.zero ∧
      Special.zero.fs = 0 ∧ Special.zero.fe = 0 ∧ Special.zero.frm = 0 ∧ Special.zero.sel = 0 ∧ Special.zero.uena = 3 ∧
      (State.reset.thread n t).run.life = .absent) ∧
    (∀ n, State.reset.sysRead n 0 .lquota = 16 ∧ State.reset.sysRead n 0 .mxcap = 0 ∧ State.reset.sysRead n 0 .lockctl = 0 ∧
      State.reset.sysRead n 0 .holdst = 0) ∧
    State.reset.parts = [] ∧ State.reset.launches = [] ∧ State.reset.seqs = [] ∧ State.reset.mem.cells = []) ∧
  (CanonicalGlobal State.reset ∧ CanonicalLocal State.reset)

/-- Memory in canonical form: a write keeps the form, reads give what was written last, equal contents are equal lists.
For canonical lists of cells: writing any bytes keeps the canonical form; a byte inside the written range reads as
written, every other byte as before; and two canonical lists that read the same at every address are the same list.
(R8) -/
def Obligations.CanonicalMemoryIsDetermined : Prop :=
  ∀ (m : List Host.Cell) (a : Nat) (bs : List Byte), Memory.wf m = true →
    Memory.wf (cellsWrite m a bs) = true ∧
    (∀ x, cellsGet (cellsWrite m a bs) x = if a ≤ x then bs.getD (x - a) (cellsGet m x) else cellsGet m x) ∧
    (∀ m', Memory.wf m' = true → (∀ x, cellsGet m x = cellsGet m' x) → m = m')

/-- Every step keeps global memory and host memory in canonical form. For every state whose global memory and host memory
are in canonical form, and every step that answers a next state, they are in canonical form again: addresses strictly
rising, no listed byte equal to what an unlisted address reads as. (R8, R190) -/
def Obligations.StepKeepsGlobalMemoryCanonical : Prop :=
  ∀ s t : State, CanonicalGlobal s → step s = .next t → CanonicalGlobal t

/-- Every step keeps the local memories of all cores and saved contexts in canonical form. For every state in which the
local memory of every core and of every saved context is in canonical form, and every step that answers a next state,
they are in canonical form again. (R192, R190, R310) -/
def Obligations.StepKeepsLocalMemoryCanonical : Prop :=
  ∀ s t : State, CanonicalLocal s → step s = .next t → CanonicalLocal t

/-- The scalar register file: g0, the window's registers, and what a write leaves. In every window a read of g0 gives zero
and a write to g0 changes nothing. A write to any other register number is read back through that number; a register
number read through another physical register keeps its value, in this window and in every other; v registers are
separate. (R75, R76, R77) -/
def Obligations.RegisterFileThroughWindows : Prop :=
  ∀ (r : Regs) (x y : Reg) (v : Word),
    r.read 0 = 0 ∧ r.write 0 v = r ∧ (x ≠ 0 → (r.write x v).read x = v) ∧ (x ≠ y → (r.write x v).read y = r.read y) ∧
    (r.write x v).v = r.v ∧ (r.write x v).cwp = r.cwp ∧ (r.write x v).wres = r.wres ∧
    (∀ w : BitVec 3, ({ r.write x v with cwp := w }).read y = ({ r with cwp := w }).read y ∨
      ({ r with cwp := w }).dest y = r.dest x)

/-- Branches, jumps, calls and returns: where they go, the link, the loop bits, an odd target. For every state and all
operands: BZ, BNZ, C.BZ and C.BNZ transfer to P + 2 * sext(off) exactly when their register is zero or non-zero and
otherwise complete with no other effect; J and C.J always transfer. JR, CALLR, RET, C.RET and CALL transfer when their
target is even, CALL and CALLR writing P + 4 to o7 after the target is computed; an odd target traps FETCH_FAULT with
the target as TVAL. A taken transfer clears the LA bit of each loop that does not hold the target, discards the fetch
buffer and changes nothing else. After a taken transfer to T, the LA bit of set k is set exactly when it was set and
LSk <= T <= LEk; the other loop registers stay. Concludes that exec answers a next state, on conditions on state and
operands alone, for: bz, bnz, j, jr, call, callr, ret, cBz, cBnz, cJ, cRet, cNop. (R113, R114, R94) -/
def Obligations.ControlTransfers : Prop :=
  (∀ (s : State) (ra : Reg) (imm : BitVec 10) (off15 : BitVec 15) (off20 : BitVec 20) (off5 : BitVec 5) (off10 : BitVec 10),
    let p := s.ctx.p
    let r := s.cur.regs
    let t15 := p + off15.signExtend 64 * 2
    let t20 := p + off20.signExtend 64 * 2
    let t5 := p + off5.signExtend 64 * 2
    let t10 := p + off10.signExtend 64 * 2
    let reg := s.rd ra + imm.signExtend 64
    let o7 := s.rd 15
    (s.rd ra = 0 → Goes (.bz ra off15) s t15 r ∧ Passes (.bnz ra off15) s r 0 ∧ Goes (.cBz ra off5) s t5 r ∧
      Passes (.cBnz ra off5) s r 0) ∧
    (s.rd ra ≠ 0 → Passes (.bz ra off15) s r 0 ∧ Goes (.bnz ra off15) s t15 r ∧ Passes (.cBz ra off5) s r 0 ∧
      Goes (.cBnz ra off5) s t5 r) ∧
    Goes (.j off20) s t20 r ∧ Goes (.cJ off10) s t10 r ∧
    (reg.getLsbD 0 = false → Goes (.jr ra imm) s reg r ∧ Goes (.callr ra imm) s reg (r.write 15 (p + 4))) ∧
    (reg.getLsbD 0 = true → Raises (.jr ra imm) s .fetchFault reg ∧ Raises (.callr ra imm) s .fetchFault reg) ∧
    (t20.getLsbD 0 = false → Goes (.call off20) s t20 (r.write 15 (p + 4))) ∧
    (t20.getLsbD 0 = true → Raises (.call off20) s .fetchFault t20) ∧
    (o7.getLsbD 0 = false → Goes .ret s o7 r ∧ Goes .cRet s o7 r) ∧
    (o7.getLsbD 0 = true → Raises .ret s .fetchFault o7 ∧ Raises .cRet s .fetchFault o7) ∧
    Passes .cNop s r 0) ∧
  (∀ (l : Loops) (t : Word),
    let m := l.leave t
    (m.la.getLsbD 0 = (l.la.getLsbD 0 && decide (l.ls0 ≤ t ∧ t ≤ l.le0))) ∧
    (m.la.getLsbD 1 = (l.la.getLsbD 1 && decide (l.ls1 ≤ t ∧ t ≤ l.le1))) ∧ m = { l with la := m.la })

/-- The loop test as an instruction completes: set 1 first, loop-back, last pass. The test of an instruction at A whose
successor is N: with LA1 set and A = LE1, a count above 1 is decremented and the next address is LS1, set 0 untested;
otherwise the last pass clears LC1 and LA1, and set 0 is tested on what remains. With set 1 not ending at A only set 0
is tested, in the same way. An instruction that completes takes its next address and its loop registers from this
test, counts once in INSTRET and leaves the rest of the part. (R119, R80, R83) -/
def Obligations.LoopTestAtCompletion : Prop :=
  (∀ (l : Loops) (a n : Word),
      let end1 := l.la.getLsbD 1 = true ∧ a = l.le1
      let set0 (m : Loops) : Loops × Word :=
        if m.la.getLsbD 0 = true ∧ a = m.le0 then
          if m.lc0 > 1 then ({ m with lc0 := m.lc0 - 1 }, m.ls0) else ({ m with lc0 := 0, la := m.la &&& 2 }, n)
        else (m, n)
      let r := l.test a n
      (end1 → l.lc1 > 1 → r.1 = { l with lc1 := l.lc1 - 1 } ∧ r.2.1 = l.ls1) ∧
      (end1 → ¬ l.lc1 > 1 → (r.1, r.2.1) = set0 { l with lc1 := 0, la := l.la &&& 1 }) ∧
      (¬ end1 → (r.1, r.2.1) = set0 l)) ∧
    (∀ u : State, Completed u u.retire u.after u.cur.regs 0)

/-- SAVE and RESTORE: the wait, the SPILL and FILL traps, the new window. While a result is pending for a windowed
register SAVE and RESTORE wait, changing nothing. Then SAVE with WRES = 8 traps SPILL with the oldest window, (CWP +
1) mod 8, and RESTORE with WRES = 1 traps FILL with (CWP - 1) mod 8. Otherwise the value ra + sext(imm), ra read in
the old window, goes to rd of the new one, CWP and WRES move by one modulo 8, and nothing else of the part changes;
the o registers of the caller are the i registers of the callee both ways, the globals, v registers and stream
pointers stay. (The l and o registers that hold no defined value are free.) Concludes that exec answers a next state,
on conditions on state and operands alone, for: save, restore. (R116, R117, R76) -/
def Obligations.WindowMoves : Prop :=
  ∀ (s : State) (rd ra : Reg) (imm : BitVec 10),
    let v := s.rd ra + imm.signExtend 64
    let r := s.cur.regs
    (s.cur.windowedPending = true → ∀ i, i = Instr.save rd ra imm ∨ i = .restore rd ra imm → exec i s = .next (s.stall .windows)) ∧
    (s.cur.windowedPending = false →
      (r.wres = 8 → Raises (.save rd ra imm) s .spill ((r.cwp + 1).setWidth 64)) ∧
      (r.wres = 1 → Raises (.restore rd ra imm) s .fill ((r.cwp - 1).setWidth 64)) ∧
      (r.wres ≠ 8 → ∃ q : Regs, Passes (.save rd ra imm) s (q.write rd v) 0 ∧ q.cwp = r.cwp + 1 ∧ q.wres = r.wres + 1 ∧
        (∀ k, 24 ≤ k.toNat → q.read k = r.read (k - 16)) ∧ (∀ k, k.toNat < 8 → q.read k = r.read k) ∧
        (∀ w, w ≠ r.cwp + 1 → get8 q.wins w = get8 r.wins w) ∧ q.v = r.v ∧ q.sp = r.sp) ∧
      (r.wres ≠ 1 → ∃ q : Regs, Passes (.restore rd ra imm) s (q.write rd v) 0 ∧ q.cwp = r.cwp - 1 ∧ q.wres = r.wres - 1 ∧
        (∀ k, 8 ≤ k.toNat → k.toNat < 16 → q.read k = r.read (k + 16)) ∧ (∀ k, k.toNat < 8 → q.read k = r.read k) ∧
        (∀ k, 16 ≤ k.toNat → q.read k = ({ r with cwp := r.cwp - 1 }).read k) ∧
        (∀ w, w ≠ r.cwp → get8 q.wins w = get8 r.wins w) ∧ q.v = r.v ∧ q.sp = r.sp))

/-- LOOP and LOOPI set up a loop set; a count of zero skips the body. With a count n above 0, LOOP (n = the low word of
ra) and LOOPI (n = its immediate) write LSk = P + 8, LEk = P + 2 * span, LCk = n and LA<k> = 1 and continue at P + 8.
With n = 0 they read the length of the instruction at LEk: a fault traps FETCH_FAULT at that address with the loop
registers unchanged; (TPC is the address of the form, that of a DEP prefix where it has one: the model's choice
between R118 and R83, log 90: DESIGN CHOICE); otherwise LCk and LA<k> become 0 and the thread continues behind LEk
with its fetch buffer discarded. The other set and all else stay. Concludes that exec answers a next state, on
conditions on state and operands alone, for: loop, loopi. (R118, R119) -/
def Obligations.LoopSetUp : Prop :=
  ∀ (s : State) (k : Bool) (ra : Reg) (count span : BitVec 16) (i : Instr) (n : BitVec 32),
    i = .loop k ra span ∧ n = (s.rd ra).setWidth 32 ∨ i = .loopi k count span ∧ n = count.setWidth 32 →
    let le := s.ctx.p + BitVec.ofNat 64 (2 * span.toNat)
    let set (l : Loops) (on : Bool) : Loops :=
      if k then { l with ls1 := s.ctx.p + 8, le1 := le, lc1 := n, la := BitVec.ofBool on ++ l.la.setWidth 1 }
      else { l with ls0 := s.ctx.p + 8, le0 := le, lc0 := n, la := l.la.extractLsb' 1 1 ++ BitVec.ofBool on }
    (n ≠ 0 → ∃ t, exec i s = .next t ∧
      Completed (s.onCur fun th => { th with loops := set th.loops true }) t (s.ctx.p + 8) s.cur.regs 0) ∧
    (n = 0 → ∀ s1, (s.lengthAt le = (s1, .error none) → exec i s = .next (s1.stall .fetch)) ∧
      (∀ a, s.lengthAt le = (s1, .error (some a)) → ∃ t, exec i s = .next t ∧ Enters s1 t .fetchFault a) ∧
      (∀ len, s.lengthAt le = (s1, .ok len) → ∃ t, exec i s = .next (t.onCur Thread.discard) ∧
        Completed (s1.onCur fun th => { th with loops := set th.loops false }) t (le + BitVec.ofNat 64 len) s1.cur.regs 0))

/-- LOOPX ends loops and leaves their other registers. LOOPX 0 clears LA0, LOOPX 1 clears LA1 and LOOPX 2 clears both;
LSk, LEk, LCk and everything else of the part are unchanged. Any other immediate is no instruction. Concludes that
exec answers a next state, on conditions on state and operands alone, for: loopx. (R120) -/
def Obligations.LoopEnd : Prop :=
  (∀ (s : State) (w : BitVec 2), w ≠ 3 → ∃ t, exec (.loopx w) s = .next t ∧
      Completed (s.onCur fun th => { th with loops := { th.loops with
        la := if w = 0 then th.loops.la &&& 2 else if w = 1 then th.loops.la &&& 1 else 0 } }) t s.after s.cur.regs 0) ∧
    (∀ imm : BitVec 10, 3 ≤ imm.toNat → decodeWord nativeOp (Enc.i 0x08B imm 0 0).word = none)

/-- Trap entry: the saved registers, level S, the handler's address, and what it leaves alone. A trap with cause c and
value v at the executing instruction writes TPC, TCAUSE, TVAL and TSTAT (PPL, PLA, HREL), clears LA, ends every hold
of the thread, sets level S, discards the fetch buffer and continues at TVEC; no scalar or v register, window or other
loop register changes, and TSCR and TVEC stay. Where the thread has no hold, gang, armed budget, trace or SYNC
arrival, nothing outside the thread changes, FS, FE, FRM, DMAP and the other special registers stay, and pending
asynchronous results stay pending. This holds for a trap taken at any address of the thread. (R166, R167, R168, R82) -/
def Obligations.TrapEntrySavesAndRedirects : Prop :=
  (∀ (s : State) (a : Word) (c : Cause) (v : Word),
      EntersAt s ((s.trapAt s.ctx.core s.ctx.thr a c v).fated .trapped) a c v) ∧
    (∀ (s : State) (c : Cause) (v : Word), Enters s (s.trap c v) c v) ∧
    (∀ (s : State) (c : Cause) (v : Word), Plain s →
      let t := s.trap c v
      OnlyThread s t ∧ t.cur.sp = { s.cur.sp with noBkpt := false } ∧
      t.cur.run.pend = (s.cur.run.pend.filter fun a => !a.sync) ∧ t.cur.run.tracks = s.cur.run.tracks)

/-- TRAP completes and then traps, with TPC the next instruction. TRAP at either level completes like any instruction (the
loop test, INSTRET) and then enters the handler with cause TRAP, TVAL = imm10 zero-extended and TPC = the address that
completion selected. Concludes that exec answers a next state, on conditions on state and operands alone, for: trap.
(R174) -/
def Obligations.TrapInstruction : Prop :=
  ∀ (s : State) (imm : BitVec 10), ∃ t, exec (.trap imm) s = .next t ∧
    Completed s s.retire s.after s.cur.regs 0 ∧ EntersAt s.retire t s.retire.cur.pc .trap (imm.setWidth 64)

/-- TRET at S level restores level, LA and pc; privileged instructions trap PRIV at U level. TRET at U level traps PRIV
with the instruction word. At S level it sets the level from TSTAT.PPL, LA from TSTAT.PLA and the pc from TPC,
discards the fetch buffer and counts in INSTRET; registers, windows, tags, holds and the trap context stay, and
nothing outside the thread changes. (A match of the breakpoint that was taken is suppressed once, spec/16.) At U level
TRET, DMAPLD, LAUNCH, REGION, TLBINV, FREEZE, TAPLD and CXSTATE with selector 2 trap PRIV with the instruction word in
TVAL and have no other effect. Concludes that exec answers a next state, on conditions on state and operands alone,
for: tret. (R176, R314, R101, R96) -/
def Obligations.TrapReturnAndPrivilege : Prop :=
  (∀ s : State, (s.level = .u → Raises .tret s .priv s.ctx.word) ∧
    (s.level = .s → ∃ t, exec .tret s = .next t ∧ OnlyThread s t ∧ Yields s t ∧ t.ctx.fate = .issued ∧
      t.cur = { s.cur with
        pc := s.cur.trap.tpc &&& ~~~1
        level := if s.cur.trap.tstat.getLsbD 0 then .s else .u
        loops := { s.cur.loops with la := s.cur.trap.tstat.extractLsb' 1 2 }
        sp := { s.cur.sp with instret := s.cur.sp.instret + 1, noBkpt := s.cur.trap.tcause == 0x15 }
        run := { s.cur.run with wait := none, entered := false, fbuf := ⟨0, []⟩, install := false } })) ∧
  (∀ (s : State) (rd ra rb : Reg) (third c : Bool) (scope : BitVec 2) (op : BitVec 2), s.level = .u →
    ∀ i ∈ [Instr.tret, .dmapld rd ra third, .launch rd ra, .region rd ra rb c, .tlbinv ra scope, .freeze rd,
        .tapld rd ra rb op, .cxstate rd ra 2],
      exec i s = .next (s.trap .priv s.ctx.word))

/-- TFENCE, DEP and C.WAITT: what they wait for, what they report, what they set. With (FS AND FE) non-zero TFENCE and
C.TFENCE trap ARITH with that value in TVAL; otherwise they complete with no other effect. While a tag of the mask is
pending, DEP (until its instruction itself has begun to wait) and C.WAITT wait. Then, where an operation they cover
has failed, they trap ENGINE with its value; else the flags of the covered operations reach FS: C.WAITT completes, and
DEP lets its instruction issue with the set tag and the yield it names. Concludes that exec answers a next state, on
conditions on state and operands alone, for: tfence, cTfence, cWaitt, dep. (R175, R94, R82, R83, R207, R226) -/
def Obligations.FencesAndTagWaits : Prop :=
  (∀ s : State, let f := s.cur.sp.fs &&& s.cur.sp.fe
    ∀ i, i = Instr.tfence ∨ i = .cTfence →
      (f ≠ 0 → Raises i s .arith (f.setWidth 64)) ∧ (f = 0 → Passes i s s.cur.regs 0)) ∧
  (∀ (s : State) (y : Bool) (mask : BitVec 6) (g : BitVec 3),
    let f := waitsFor mask
    let fresh := s.stage = none ∨ ∃ m, s.stage = some (.tags m)
    (s.cur.tags &&& mask ≠ 0 → Waits (.cWaitt mask) s s (.tags mask) ∧
      (fresh → Waits (.dep y mask g) s s (.tags mask))) ∧
    (¬ fresh → exec (.dep y mask g) s = .next { s with ctx := { s.ctx with tag := g.toNat, yield := y, fate := .issued } }) ∧
    (s.cur.tags &&& mask = 0 →
      (∀ v u, s.failure f = some (v, u) → (∃ t, exec (.cWaitt mask) s = .next t ∧ Enters u t .engine v) ∧
        (fresh → ∃ t, exec (.dep y mask g) s = .next t ∧ Enters u t .engine v)) ∧
      (s.failure f = none → Ends (.cWaitt mask) s (s.mergeFlags f) ∧
        (fresh → exec (.dep y mask g) s = .next { s.mergeFlags f with
          ctx := { s.ctx with tag := g.toNat, yield := y, fate := .issued } }) ∧
        (s.mergeFlags f).cur.sp.fs = (s.covered f).foldl (fun m u => m ||| u.flags) s.cur.sp.fs ∧
        (s.mergeFlags f).cur.regs = s.cur.regs)))

/-- RSR and WSR: the checks in their order, then the access; the rows that name one register. A number from 0x800 on traps
PRIV at U level; else a number without a register, or a mirror of a register that U cannot read, traps ILLEGAL; else a
write at U level to a register that only S writes traps PRIV; else a write to a read-only register or a mirror traps
ILLEGAL; TVAL is the register number and nothing else changes. Otherwise RSR writes the register's value to rd, and
WSR writes the register from ra and completes (INSTRET then counts that completion from the value written: the model's
reading, log 49: DEDUCED). The opcode table's rows for a write of DOM, DMAP, PWBkA or PWBkZ and HOLDST do what WSR of
that register does, with its checks. Concludes that exec answers a next state, on conditions on state and operands
alone, for: rsr, wsr, domWrite, dmapWrite, pwbWrite, holdstWrite. (R85, R173, R86, R295, R136, R263) -/
def Obligations.SystemRegisterAccesses : Prop :=
  (∀ (s : State) (rd ra : Reg) (num : BitVec 12),
    let k := num.toNat
    let tv : Word := num.setWidth 64
    let high := 0x800 ≤ k ∧ s.level = .u
    (high → Raises (.rsr rd num) s .priv tv ∧ Raises (.wsr num ra) s .priv tv) ∧
    (¬ high → sysShown k = none → Raises (.rsr rd num) s .illegal tv ∧ Raises (.wsr num ra) s .illegal tv) ∧
    (∀ r, ¬ high → sysShown k = some r →
      Answers (.rsr rd num) s rd (s.sysRead s.ctx.core s.ctx.thr r) ∧
      (s.level = .u ∧ r.view = .superW → Raises (.wsr num ra) s .priv tv) ∧
      (¬ (s.level = .u ∧ r.view = .superW) → r.view = .readOnly ∨ (0x400 ≤ k ∧ k < 0x800) → Raises (.wsr num ra) s .illegal tv) ∧
      (¬ (s.level = .u ∧ r.view = .superW) → r.view ≠ .readOnly → ¬ (0x400 ≤ k ∧ k < 0x800) →
        Ends (.wsr num ra) s (s.sysWrite s.ctx.core s.ctx.thr r (s.rd ra))))) ∧
  (∀ (s : State) (ra : Reg) (k : BitVec 3) (size : Bool),
    exec (.domWrite ra) s = exec (.wsr 0x040 ra) s ∧ exec (.dmapWrite ra) s = exec (.wsr 0x810 ra) s ∧
    exec (.holdstWrite ra) s = exec (.wsr 0x070 ra) s ∧
    exec (.pwbWrite k size ra) s = exec (.wsr (BitVec.ofNat 12 (0x820 + 2 * k.toNat + bit1 size)) ra) s ∧
    (s.level = .s → Ends (.domWrite ra) s (s.domRequest s.ctx.core (s.rd ra)).1 ∧
      Ends (.dmapWrite ra) s (s.writeDmap s.ctx.core s.ctx.thr (s.rd ra)) ∧
      Ends (.holdstWrite ra) s (s.writeHoldst s.ctx.core s.ctx.thr (s.rd ra)) ∧
      Ends (.pwbWrite k size ra) s (s.writePwb s.ctx.core s.ctx.thr k size (s.rd ra))))

/-- What a WSR writes is read back field by field, reserved bits as zero. After a write of v to a register a read gives v
with its reserved and read-only fields as the field map says: FS and FE 8 bits, FRM 3, CWP 3, LSk, LEk, TPC and TVEC
with bit 0 clear, LCk 32 bits, LA 2, TSTAT 4, TCAUSE 8, PMSELk 11, PWBkA bits 54:4, BKPTk, TVAL, TSCRk, PMCk, CYCLE
and INSTRET all bits, LQUOTA at most 48, WRES unless 0 or above 8. (R173, R80, R84, R87, R171, R136, R258, R318) -/
def Obligations.SystemRegisterReadBack : Prop :=
  ∀ (s : State) (n : Nat) (t k2 : BitVec 2) (k3 : BitVec 3) (b : Bool) (v : Word),
    let back (r : SysReg) : Word := (s.sysWrite n t r v).sysRead n t r
    back .fs = v &&& 0xFF ∧ back .fe = v &&& 0xFF ∧ back .frm = v &&& 7 ∧ back .cwp = v &&& 7 ∧
    back (.ls b) = v &&& ~~~1 ∧ back (.le b) = v &&& ~~~1 ∧ back (.lc b) = v &&& 0xFFFFFFFF ∧ back .la = v &&& 3 ∧
    back .tstat = v &&& 0xF ∧ back .tcause = v &&& 0xFF ∧ back .tpc = v &&& ~~~1 ∧ back .tvec = v &&& ~~~1 ∧
    back .tval = v ∧ back (.tscr k2) = v ∧ back .cycle = v ∧ back .instret = v ∧ back (.pmsel k2) = v &&& 0x7FF ∧
    back (.pmc k2) = v ∧ back (.bkpt k2) = v ∧ back (.pwbA k3) = v &&& 0x007FFFFFFFFFFFF0 ∧
    (back .lquota).toNat = min 48 (v.toNat % 64) ∧
    (1 ≤ v.toNat % 16 → v.toNat % 16 ≤ 8 → back .wres = v &&& 0xF)

/-- A WSR leaves every other system register, every general register and memory. Writing one system register (other than
DOM, whose write is a request of DOMSET) leaves the value of every other system register, every scalar and v register
unless it is CWP or WRES, the pc and level, global memory and every local memory. (R85, R173) -/
def Obligations.SystemRegisterFrame : Prop :=
  ∀ (s : State) (n : Nat) (t : BitVec 2) (r : SysReg) (v : Word), r ≠ .dom →
    let u := s.sysWrite n t r v
    (∀ q, q ≠ r → u.sysRead n t q = s.sysRead n t q) ∧ (r ≠ .cwp → r ≠ .wres → (u.thread n t).regs = (s.thread n t).regs) ∧
    (u.thread n t).regs.v = (s.thread n t).regs.v ∧ (u.thread n t).pc = (s.thread n t).pc ∧
    (u.thread n t).level = (s.thread n t).level ∧ u.mem.cells = s.mem.cells ∧
    (∀ m, (u.core m).mem.lmem = (s.core m).mem.lmem)

/-- DMAPSEL, FETCHB and DMAPLD: selecting and loading a decode table. DMAPSEL of a table that is not loaded traps ILLEGAL;
at U level one that UENA does not enable traps PRIV, both with the instruction word; otherwise SEL becomes the number,
the fetch buffer is discarded and the instruction completes. FETCHB completes and discards the fetch buffer. Nothing
else changes. At S level, in a core of a launch, DMAPLD of table 2 or 3 completes with status 1 where a thread of the
launch decodes under that table. Where no other thread of the launch is in a DMAPLD and the loads of its 1,024
halfwords give their bytes without a trap (read in one step, log 24: DEDUCED), it completes with status 2, nothing
loaded, if an entry is neither 0xFFFF nor an assigned opcode of table 0 (from entry 0x3F0 on: if it is not 0xFFFF);
else with status 0, the table and LOADED set and the launch's measurement extended by the hash of the bytes. Concludes
that exec answers a next state, on conditions on state and operands alone, for: fetchb, dmapsel, dmapld. (R96, R87,
R249) -/
def Obligations.DecodeTables : Prop :=
  (∀ (s : State) (k : BitVec 2),
    let loaded := (s.dmap s.ctx.core s.ctx.thr).getLsbD (8 + k.toNat)
    let enabled := s.cur.sp.uena.getLsbD k.toNat
    (loaded = false → Raises (.dmapsel k) s .illegal s.ctx.word) ∧
    (loaded = true → s.level = .u → enabled = false → Raises (.dmapsel k) s .priv s.ctx.word) ∧
    (loaded = true → s.level = .s ∨ enabled = true → ∃ t, exec (.dmapsel k) s = .next t ∧
      Completed (s.onCur fun th => { th with sp := { th.sp with sel := k }, run := { th.run with fbuf := ⟨0, []⟩, install := false } })
        t s.after s.cur.regs 0) ∧
    (∃ t, exec .fetchb s = .next t ∧ Completed s t s.after s.cur.regs 0 ∧ t.cur.run.fbuf.bytes = [])) ∧
  (∀ (s s1 : State) (rd ra : Reg) (third : Bool) (l : Launch) (bs : List Byte),
    let k : BitVec 2 := if third then 3 else 2
    s.level = .s →
    (s.coreLaunch s.ctx.core = some l → s.tableInUse l k = true → Answers (.dmapld rd ra third) s rd 1) ∧
    (s.coreLaunch s.ctx.core = some l → s.tableInUse l k = false →
      (∀ p, p ∈ s.loaders l → p.1 = s.ctx.core ∧ p.2.1 = s.ctx.thr) → s.seeList (s.rd ra) 2 1024 = (s1, .ok bs) →
      let e := halfwords bs
      let good := ∀ i, i < e.length → e.getD i 0 = 0xFFFF ∨ (i < 0x3F0 ∧ (nativeOp (e.getD i 0).toNat).isSome = true)
      (¬ good → Ends (.dmapld rd ra third) s (s1.wr rd 2)) ∧
      (good → Ends (.dmapld rd ra third) s ((s1.onLaunch l.id fun x =>
        { x with
          table2 := if k = 2 then e else x.table2
          table3 := if k = 3 then e else x.table3
          loaded := x.loaded ||| BitVec.ofNat 4 (2 ^ k.toNat)
          meas := measure x.meas (sha512 bs) }).wr rd 0))))

/-- Loads from the own local window: the little-endian bytes, extended by the width, in every address form. For LD, LDX,
LDL and C.LDW with all of their bytes below the end of the core's local memory and without poison: rd becomes the
sign- or zero-extended little-endian value of the 1, 2, 4 or 8 bytes at the address, aligned or not; a load into g0
discards it. Without .acq nothing else changes; with .acq the core then acquires. Results on their way to rd may land
before the value is written. Where a byte is poisoned they trap POISON with the address. Concludes that exec answers a
next state, on conditions on state and operands alone, for: ld, ldx, ldl, cLdw. (R125, R126, R127, R128, R129, R94) -/
def Obligations.LocalLoads : Prop :=
  ∀ (s : State) (rd ra rb : Reg) (disp : BitVec 5) (disp32 : BitVec 32) (wd : Width) (acq : Bool) (xd xa : BitVec 3) (idx : BitVec 4),
    s.stage = none →
    let loads (i : Instr) (rd : Reg) (wd : Width) (acq : Bool) (a : Word) : Prop :=
      Near s a (wsize wd) →
      (s.lpoison s.ctx.core a.toNat (wsize wd) = false →
        (acq = false → WritesLate i s rd (extended wd (s.lmem s.ctx.core a.toNat (wsize wd))) 0) ∧
        (acq = true → Ends i s (((meanwhile s [s.cur.regs.dest rd]).wr rd
          (extended wd (s.lmem s.ctx.core a.toNat (wsize wd)))).acquire s.ctx.core))) ∧
      (s.lpoison s.ctx.core a.toNat (wsize wd) = true → Raises i s .poison a)
    loads (.ld rd ra disp wd acq) rd wd acq (s.rd ra + BitVec.ofNat 64 (disp.toNat * wsize wd)) ∧
    loads (.ldx rd ra rb wd acq) rd wd acq (s.rd ra + s.rd rb * BitVec.ofNat 64 (wsize wd)) ∧
    loads (.ldl rd ra disp32 wd acq) rd wd acq (s.rd ra + disp32.signExtend 64) ∧
    loads (.cLdw xd xa idx) (8 + xd.setWidth 5) .w false (s.rd (8 + xa.setWidth 5) + BitVec.ofNat 64 (idx.toNat * 4))

/-- Stores to the own local window: the low bytes of the register, and no other byte of memory. For ST, STX, STL and C.STW
with all of their bytes below the end of the core's local memory (no lockstep; with .rel once the release is
complete): the 1, 2, 4 or 8 bytes at the address become the low bytes of the register, little-endian; every other byte
of local memory, all other memory, all registers and everything else stay. With .rel and the release not complete they
wait. Concludes that exec answers a next state, on conditions on state and operands alone, for: st, stx, stl, cStw.
(R125, R126, R127, R128, R195, R94) -/
def Obligations.LocalStores : Prop :=
  ∀ (s : State) (rd ra rb : Reg) (disp : BitVec 5) (disp32 : BitVec 32) (wd : Width) (rel : Bool) (xd xa : BitVec 3) (idx : BitVec 4),
    s.stage = none → s.lockstep s.ctx.core = false → Memory.wf s.curCore.mem.lmem = true →
    let stores (i : Instr) (x : Reg) (n : Nat) (rel : Bool) (a : Word) : Prop :=
      Near s a n →
      (rel = false ∨ s.released s.ctx.core s.ctx.thr = true →
        ∃ u, Ends i s u ∧ Stored s u a.toNat (leBytes n (s.rd x).toNat)) ∧
      (rel = true → s.released s.ctx.core s.ctx.thr = false → Waits i s s .release)
    stores (.st rd ra disp wd rel) rd (wsize wd) rel (s.rd ra + BitVec.ofNat 64 (disp.toNat * wsize wd)) ∧
    stores (.stx rd ra rb wd rel) rd (wsize wd) rel (s.rd ra + s.rd rb * BitVec.ofNat 64 (wsize wd)) ∧
    stores (.stl rd ra disp32 wd rel) rd (wsize wd) rel (s.rd ra + disp32.signExtend 64) ∧
    stores (.cStw xd xa idx) (8 + xd.setWidth 5) 4 false (s.rd (8 + xa.setWidth 5) + BitVec.ofNat 64 (idx.toNat * 4))

/-- VLD, VST, LDM, STM in the own local window, and MOVM. With all of their bytes below the end of local memory and
without poison, VLD (one register or a pair) and LDM write the 16 bytes at A + 16 j to v[rd + j], lane 0 lowest, and
VST and STM store v[rd + j] there and no other byte. MOVM copies four v registers, all read first. Orderings as for
scalar accesses. Concludes that exec answers a next state, on conditions on state and operands alone, for: vld, vst,
ldm, stm, movm. (R130, R131, R132, R128) -/
def Obligations.LocalVectorTransfers : Prop :=
  ∀ (s : State) (vd va : VReg) (ra : Reg) (disp : BitVec 32) (ord : Bool),
    s.stage = none → s.lockstep s.ctx.core = false → Memory.wf s.curCore.mem.lmem = true →
    let a := s.rd ra + disp.signExtend 64
    let at' (j : Nat) : VWord := BitVec.ofNat 128 (leNat (s.lmem s.ctx.core (a.toNat + 16 * j) 16))
    let put (r : Regs) (j : Nat) (x : VWord) : Regs := r.writeV (vd + BitVec.ofNat 4 j) x
    let r1 (r : Regs) := put r 0 (at' 0)
    let r2 (r : Regs) := put (r1 r) 1 (at' 1)
    let r4 (r : Regs) := put (put (r2 r) 2 (at' 2)) 3 (at' 3)
    let loads (i : Instr) (n : Nat) (r : Regs → Regs) : Prop :=
      Near s a (16 * n) → s.lpoison s.ctx.core a.toNat (16 * n) = false →
      (ord = false → EndsLate i s (vdests vd n) fun u t => Completed u t u.after (r u.cur.regs) 0) ∧
      (ord = true → Ends i s (((meanwhile s (vdests vd n)).onCur fun t => { t with regs := r t.regs }).acquire s.ctx.core))
    let bytes (n : Nat) : List Byte := (List.range n).flatMap fun j => leBytes 16 (s.rv (vd + BitVec.ofNat 4 j)).toNat
    let stores (i : Instr) (n : Nat) : Prop :=
      Near s a (16 * n) → ord = false ∨ s.released s.ctx.core s.ctx.thr = true → ∃ u, Ends i s u ∧ Stored s u a.toNat (bytes n)
    loads (.vld vd ra disp false ord) 1 r1 ∧ loads (.vld vd ra disp true ord) 2 r2 ∧ loads (.ldm vd ra disp ord) 4 r4 ∧
    stores (.vst vd ra disp false ord) 1 ∧ stores (.vst vd ra disp true ord) 2 ∧ stores (.stm vd ra disp ord) 4 ∧
    EndsLate (.movm vd va) s (vdests vd 4) fun u t => Completed u t u.after
      (put (put (put (put u.cur.regs 0 (s.rv va)) 1 (s.rv (va + 1))) 2 (s.rv (va + 2))) 3 (s.rv (va + 3))) 0

/-- AMO and CAS on a word of the own local window, alignment, and the plain result that lands later. At an address that is
no multiple of the size AMO and CAS trap MISALIGN with it. On an aligned word of local memory without poison (no
lockstep; a release complete where asked): AMO stores old + b, b, old AND b or old OR b modulo 2^(8 size), CAS stores
its third operand exactly when the word equals its second, in size bytes, and no other byte changes. With .acq or .ar
rd becomes the old word (sign-extended for .w) and the core acquires; otherwise the old word is on its way to rd,
tracked by the tag of the prefix. Concludes that exec answers a next state, on conditions on state and operands alone,
for: amo, cas. (R133, R134, R81, R140) -/
def Obligations.LocalAtomics : Prop :=
  ∀ (s : State) (rd ra rb rc : Reg) (op : AmoOp) (dbl : Bool) (ord : AmoOrd),
    let n := if dbl then 8 else 4
    let a := s.rd ra
    let old := leNat (s.lmem s.ctx.core a.toNat n)
    let b := (s.rd rb).toNat
    let m := 2 ^ (8 * n)
    let new := match op with
      | .add => (old + b) % m | .swap => b % m | .and => old &&& b % m | .or => old ||| b % m
    let acq := ord = .acq ∨ ord = .ar
    let rel := ord = .rel ∨ ord = .ar
    let fmt : ResultFmt := if dbl then .zx else .sx
    let val := extended (if dbl then .d else .w) (leBytes n old)
    let done (i : Instr) (u : State) : Prop :=
      (acq → Ends i s (((u.wr rd val).sign s.ctx.core s.ctx.thr val).acquire s.ctx.core)) ∧
      (¬ acq → Ends i s ((({ u with nextId := u.nextId + 1 }).addPend
        ⟨u.nextId, .atomic, [s.cur.regs.dest rd], fmt, (leBytes n old).map .have, 0, false, a, s.level, false⟩).track
          u.nextId))
    s.stage = none →
    (a.toNat % n ≠ 0 → Raises (.amo rd ra rb op dbl ord) s .misalign a ∧ Raises (.cas rd ra rb rc dbl ord) s .misalign a) ∧
    (a.toNat % n = 0 → Near s a n → s.lpoison s.ctx.core a.toNat n = false → s.lockstep s.ctx.core = false →
      Memory.wf s.curCore.mem.lmem = true → (rel → s.released s.ctx.core s.ctx.thr = true) →
      (∃ u, Stored s u a.toNat (leBytes n new) ∧ done (.amo rd ra rb op dbl ord) u) ∧
      (old = b % m → ∃ u, Stored s u a.toNat (leBytes n ((s.rd rc).toNat % m)) ∧ done (.cas rd ra rb rc dbl ord) u) ∧
      (old ≠ b % m → done (.cas rd ra rb rc dbl ord) s))

/-- Where no memory is: holes, the end of local memory, absent peers, per-byte addresses. A load at a hole of the address
space, beyond a core's local memory, or in the window of a core that is not the partition's traps LOAD_FAULT with the
address, a store STORE_FAULT; an access that begins inside local memory and runs past its end traps WINDOW_CROSS with
its first address. A peer access both outside the partition and past the end traps LOAD_FAULT or STORE_FAULT: the
model's order, log 100: DESIGN CHOICE. Nothing else changes. (R122, R125, R121) -/
def Obligations.AccessChecks : Prop :=
  ∀ (s : State) (rd ra : Reg) (disp : BitVec 32) (wd : Width) (ord : Bool),
    let a := s.rd ra + disp.signExtend 64
    let x := a.toNat
    s.stage = none →
    ((0x6000 ≤ x ∧ x < 0x100000000 ∨ 0x100000000 + 102400 * 0x10000 ≤ x ∧ x < 0x1000000000 ∨ 0x80000000000000 ≤ x ∨
        (∃ k off, k < 102400 ∧ off < 0x10000 ∧ x = 0x100000000 + k * 0x10000 + off ∧ (0x6000 ≤ off ∨ s.inPart s.ctx.core k = false))) →
      Raises (.ldl rd ra disp wd ord) s .loadFault a ∧ Raises (.stl rd ra disp wd ord) s .storeFault a) ∧
    (x < s.localEnd s.ctx.core → 0x6000 < x + wsize wd →
      Raises (.ldl rd ra disp wd ord) s .windowCross a ∧ Raises (.stl rd ra disp wd ord) s .windowCross a)

/-- FENCE, WAITW and PLD. FENCE waits while an earlier load or atomic has not landed or a release is incomplete; otherwise
the core acquires and FENCE completes. WAITW at a misaligned address traps MISALIGN; on a word of local memory that
meets the condition it writes the word to rd (sign-extended for .w), acquires with .acq and completes; on one that
does not it waits. PLD of a window that is not bound traps PARAM_UNBOUND with its number. With every byte at or above
SIZE it completes with the value zero on its way to rd, PWOOB with it. With a byte inside and an address below
0x10_0000_0000 it traps LOAD_FAULT there. In range the bytes inside SIZE are translated at issue, a fault trapping as
it says; without one PLD completes with its value on its way to rd, its tag tracking it: bytes of memory that the
constant cache holds are those, for the others their line is asked of home, bytes at or above SIZE are zero; no
register and no byte of memory changes. Concludes that exec answers a next state, on conditions on state and operands
alone, for: fence, pld, waitw, trap. (R135, R139, R140, R136, R137, R81) -/
def Obligations.FencesWordsAndWindows : Prop :=
  (∀ (s : State) (rd ra rb : Reg) (cond : WaitCond) (dbl acq : Bool),
    let n := if dbl then 8 else 4
    let a := s.rd ra
    let bs := s.lmem s.ctx.core a.toNat n
    let x := leNat bs
    let b := (s.rd rb).toNat % 2 ^ (8 * n)
    let int (y : Nat) : Int := if 2 ^ (8 * n - 1) ≤ y then (y : Int) - 2 ^ (8 * n) else y
    let meets := match cond with
      | .eq => x = b | .ne => x ≠ b | .geU => b ≤ x | .ltU => x < b | .geS => int b ≤ int x | .ltS => int x < int b
    let val := extended (if dbl then .d else .w) bs
    let u := (s.wr rd val).sign s.ctx.core s.ctx.thr val
    (s.cur.loadsLanded = true → s.released s.ctx.core s.ctx.thr = true → Ends .fence s (s.acquire s.ctx.core)) ∧
    ((s.cur.loadsLanded && s.released s.ctx.core s.ctx.thr) = false → Waits .fence s s .release) ∧
    (s.stage = none →
      (a.toNat % n ≠ 0 → Raises (.waitw rd ra rb cond dbl acq) s .misalign a) ∧
      (a.toNat % n = 0 → Near s a n → s.lpoison s.ctx.core a.toNat n = false →
        (meets → (acq = true → Ends (.waitw rd ra rb cond dbl acq) s (u.acquire s.ctx.core)) ∧
          (acq = false → Ends (.waitw rd ra rb cond dbl acq) s u)) ∧
        (¬ meets → ∃ w, Waits (.waitw rd ra rb cond dbl acq) s s w)))) ∧
  (∀ (s : State) (rd ra : Reg) (k : BitVec 3) (off : BitVec 16) (wd : Width),
    let w := get8 s.cur.sp.pwb k
    let o := s.rd ra + off.setWidth 64
    let va := w.base.toNat * 16 + o.toNat
    (w.bound = false → Raises (.pld rd ra k off wd) s .paramUnbound (k.setWidth 64)) ∧
    (w.bound = true → w.size.toNat ≤ o.toNat →
      Ends (.pld rd ra k off wd) s ((({ s with nextId := s.nextId + 1 }).addPend
        ⟨s.nextId, .load, [s.cur.regs.dest rd], wfmt wd, List.replicate (wsize wd) (.have 0), 0x40, false, BitVec.ofNat 64 va,
          s.level, false⟩).track s.nextId)) ∧
    (w.bound = true → o.toNat < w.size.toNat → va < 0x1000000000 →
      Raises (.pld rd ra k off wd) s .loadFault (BitVec.ofNat 64 va)) ∧
    (w.bound = true → o.toNat < w.size.toNat → 0x1000000000 ≤ va → va < 0x80000000000000 →
      let n := s.ctx.core
      let inside := min (wsize wd) (w.size.toNat - o.toNat)
      let r := s.checkGlobal n s.level .read va inside
      (∀ c v, r.2 = .trap c v → exec (.pld rd ra k off wd) s = .next (r.1.trap c v)) ∧
      (r.2 = .wait → exec (.pld rd ra k off wd) s = .next (r.1.stall .translate)) ∧
      (∀ ps, r.2 = .ok ps → r.1.roomFor n ps = true → ∃ (u : State) (bs : List ByteSrc) (psn : Bool),
        Ends (.pld rd ra k off wd) s ((u.addPend ⟨r.1.nextId, .load, [r.1.cur.regs.dest rd], wfmt wd,
          bs ++ List.replicate (wsize wd - inside) (.have 0), if inside < wsize wd then 0x40 else 0, psn, BitVec.ofNat 64 va,
          r.1.level, false⟩).track r.1.nextId) ∧
        u.cur = r.1.cur ∧ u.mem.cells = r.1.mem.cells ∧ (∀ m, m ≠ n → u.core m = r.1.core m) ∧
        ∀ (j pa : Nat) (x : Bool), ps[j]? = some (Place.glob pa x) → fabTarget pa = none →
          (∀ b p, (r.1.core n).constByte pa = some (b, p) → bs[j]? = some (ByteSrc.have b) ∧ (p = true → psn = true)) ∧
          ((r.1.core n).constByte pa = none → bs[j]? = some (ByteSrc.miss pa) ∧
            ∃ q ∈ u.mem.homeq, q.id = r.1.nextId ∧ q.op = .read .const false ∧ q.line = lineOf pa))))

/-- An asynchronous result that is there lands: its registers, its flags, its tag; a poisoned one leaves a POISON pending.
A pending asynchronous result whose bytes are not there does not land; of two SFU results for one register the earlier
lands first: the later, ready or not, cannot land while the earlier is pending, and one with no earlier SFU result for
a register of its own can once its bytes are there. Otherwise, once its bytes are there, its landing writes the
destination registers fixed at issue (with PENAL's computed result), ors its flags into FS, clears its tag and takes
it off the pending list; if its data is poisoned no register and no flag is written and a POISON with the load's
address is pending instead. The thread's pc, level and trap context stay, and memory and all other cores stay.
Concludes that exec answers a next state, on conditions on state and operands alone, for: asyncResultLands. (R81, R82,
R129, R60, R165) -/
def Obligations.ResultsLand : Prop :=
  ∀ (s : State) (n k : Nat) (a : Async), k < 4 →
    let t := tid k
    let th := s.thread n t
    th.run.pend.find? (fun x => x.id = a.id) = some a →
    (th.canLand a = false → exec (.asyncResultLands n k a.id) s = .next s) ∧ (a.ready = false → th.canLand a = false) ∧
    (a.ready = true → a.kind ≠ .sfu → th.canLand a = true) ∧
    (∀ b l1 l2 l3, th.run.pend = l1 ++ b :: l2 ++ a :: l3 → (∀ x ∈ l1, x.id ≠ a.id) → b.id ≠ a.id → (∀ x ∈ l2, x.id ≠ a.id) →
      a.kind = .sfu → b.kind = .sfu → (∃ d ∈ b.dest, d ∈ a.dest) → th.canLand a = false) ∧
    (∀ l1 l2, th.run.pend = l1 ++ a :: l2 → a.ready = true → (∀ x ∈ l1, x.kind = .sfu → ∀ d ∈ x.dest, d ∉ a.dest) →
      th.canLand a = true) ∧
    (th.canLand a = true → a.sync = false → ∃ u, exec (.asyncResultLands n k a.id) s = .next u ∧
      (∀ m, m ≠ n → u.core m = s.core m) ∧ u.mem = s.mem ∧ (u.core n).mem = (s.core n).mem ∧
      (u.thread n t).run.pend = (th.run.pend.filter fun x => x.id != a.id) ∧
      (u.thread n t).run.tracks = (th.run.tracks.filter fun p => p.2 != a.id) ∧
      (u.thread n t).pc = th.pc ∧ (u.thread n t).level = th.level ∧ (u.thread n t).trap = th.trap ∧
      (a.poison = false → (u.thread n t).regs = th.regs.deliver a.dest a.fmt a.final.data ∧
        (u.thread n t).sp.fs = th.sp.fs ||| a.final.flags ∧ (u.thread n t).run.poisons = th.run.poisons) ∧
      (a.poison = true → (u.thread n t).regs = th.regs ∧ (u.thread n t).sp = th.sp ∧
        (u.thread n t).run.poisons = th.run.poisons ++ [(a.addr, a.level)]))

/-- FADD, FSUB, FMUL, FMA, FMIN, FMAX, FDIV and FSQRT: the rounding mode, the result, its flags. With the mode its
modifier names (or FRM holds), FADD, FSUB, FMUL and FMA complete with the correctly rounded result of the operands
read in the format, zero-extended into rd, its flags ored into FS and nothing else changed; so do FDIV and FSQRT on
f32, f16 and bf16, while on f64 their result is on its way and lands later with its flags. FMIN and FMAX complete in
every mode. A reserved FRM traps ILLEGAL with the instruction word. Results are written two or more cycles after
issue: others on their way to the same register may land before. Concludes that exec answers a next state, on
conditions on state and operands alone, for: fadd, fsub, fmul, fdiv, fsqrt, fma, fmin, fmax. (R144, R145, R146, R147,
R57, R60, R77) -/
def Obligations.FloatArithmeticCompletes : Prop :=
  ∀ (s : State) (rd ra rb rc : Reg) (t : FType) (rm : Rnd),
    let f := ffmtOf t
    let a := (s.rd ra).toNat % 2 ^ f.width
    let b := (s.rd rb).toNat % 2 ^ f.width
    let c := (s.rd rc).toNat % 2 ^ f.width
    let gives (i : Instr) (r : Nat × Flags) : Prop := WritesLate i s rd (BitVec.ofNat 64 r.1) r.2
    (∀ m, s.mode rm = some m →
      gives (.fadd rd ra rb t rm) (fAdd f m a b) ∧ gives (.fsub rd ra rb t rm) (fSub f m a b) ∧
      gives (.fmul rd ra rb t rm) (fMul f m a b) ∧ gives (.fma rd ra rb rc t rm) (fFma f m a b c) ∧
      (t ≠ .f64 → gives (.fdiv rd ra rb t rm) (fDiv f m a b) ∧ gives (.fsqrt rd ra t rm) (fSqrt f m a)) ∧
      (t = .f64 →
        Ends (.fdiv rd ra rb t rm) s (later s .fdiv [s.cur.regs.dest rd] .zx (leBytes 8 (BitVec.ofNat 64 (fDiv f m a b).1).toNat) (fDiv f m a b).2) ∧
        Ends (.fsqrt rd ra t rm) s (later s .fdiv [s.cur.regs.dest rd] .zx (leBytes 8 (BitVec.ofNat 64 (fSqrt f m a).1).toNat) (fSqrt f m a).2))) ∧
    (s.mode rm = none → ∀ i ∈ [Instr.fadd rd ra rb t rm, .fsub rd ra rb t rm, .fmul rd ra rb t rm, .fdiv rd ra rb t rm,
        .fsqrt rd ra t rm, .fma rd ra rb rc t rm], exec i s = .next (s.trap .illegal s.ctx.word)) ∧
    gives (.fmin rd ra rb t) (fMinMax f false a b) ∧ gives (.fmax rd ra rb t) (fMinMax f true a b)

/-- Rounding a finite result: nearest, toward zero, down and up. For each of the four formats, every non-zero exact value
n * 2^e and every mode whose result does not overflow: the result is a finite value of the format; toward zero it is
no larger in magnitude, down it is not above and up not below the exact value, and no finite value of the format lies
nearer on that side; in the two nearest modes no finite value of the format is closer, and where another is as close
the result is, to nearest even, the one with an even significand, and, ties away, not the smaller in magnitude. NX is
raised exactly when the result differs from the exact value. (R54, R57, R58, R59) -/
def Obligations.FloatRoundingIsCorrect : Prop :=
  ∀ (f : FFmt) (rm : RMode) (d : Dy) (zs : Bool), f ∈ [fmtF64, fmtF32, fmtF16, fmtBF16] → d.n ≠ 0 →
    let r := roundDy f rm d zs
    let v := (unpack f r.1).dy
    r.2 &&& flagOF = 0 →
    (∃ s m e, unpack f r.1 = .fin s m e) ∧ (r.2 &&& flagNX = 0 ↔ same v d) ∧
    (rm = .rz → atMost (magnitude v) (magnitude d)) ∧ (rm = .rdn → atMost v d) ∧ (rm = .rup → atMost d v) ∧
    (∀ x s m e, unpack f x = .fin s m e →
      let z := (unpack f x).dy
      (rm = .rdn → atMost z d → atMost z v) ∧ (rm = .rup → atMost d z → atMost v z) ∧
      (rm = .rz → atMost (magnitude z) (magnitude d) → atMost (magnitude z) (magnitude v)) ∧
      (rm = .rne ∨ rm = .rmm → atMost (magnitude (v.add d.neg)) (magnitude (z.add d.neg))) ∧
      (¬ same z v → same (magnitude (z.add d.neg)) (magnitude (v.add d.neg)) →
        (rm = .rne → r.1 % 2 = 0) ∧ (rm = .rmm → atMost (magnitude z) (magnitude v))))

/-- FCMP, FCLASS and FSGN. FCMP completes with rd<63:7> zero; with a NaN operand bits 6 and 5 alone are set; otherwise
bits 0 to 4 and 6 say a = b, a < b, a <= b, a > b, a >= b and a /= b in the order of the values, in which +0 and -0
are equal. NV is raised exactly for a signalling NaN. FCLASS completes with exactly one of ten bits set, the one of
the operand's class: 9 quiet NaN, 8 signalling NaN, 7 and 0 the infinities, 6 and 1 normal, 5 and 2 subnormal, 4 and 3
zero, the larger number for the positive one. FSGN completes with no flag; the bits below the sign are those of ra,
the sign is that of rb, its inverse, or the exclusive or of both, and the bits above the format are zero, NaNs
included. Concludes that exec answers a next state, on conditions on state and operands alone, for: fcmp, fclass,
fsgn. (R148, R149, R150, R77) -/
def Obligations.FloatMasksAndSigns : Prop :=
  (∀ (s : State) (rd ra rb : Reg) (t : FType),
    let f := ffmtOf t
    let a := unpack f ((s.rd ra).toNat % 2 ^ f.width)
    let b := unpack f ((s.rd rb).toNat % 2 ^ f.width)
    let nan := a.isNaN || b.isNaN
    let lt := match a, b with
      | .inf sa, .inf sb => sa && !sb | .inf sa, _ => sa | _, .inf sb => !sb | _, _ => a.dy.lt b.dy
    let gt := match a, b with
      | .inf sa, .inf sb => sb && !sa | .inf sa, _ => !sa | _, .inf sb => sb | _, _ => b.dy.lt a.dy
    (∃ v, WritesLate (.fcmp rd ra rb t) s rd v (if isSNaN f a || isSNaN f b then 1 else 0) ∧
      v.getLsbD 0 = (!nan && !lt && !gt) ∧ v.getLsbD 1 = (!nan && lt) ∧ v.getLsbD 2 = (!nan && !gt) ∧
      v.getLsbD 3 = (!nan && gt) ∧ v.getLsbD 4 = (!nan && !lt) ∧ v.getLsbD 5 = nan ∧ v.getLsbD 6 = (nan || lt || gt) ∧
      ∀ i, 7 ≤ i → v.getLsbD i = false) ∧
    (∃ k v, k < 10 ∧ Answers (.fclass rd ra t) s rd v ∧ ∀ i, i < 64 → v.getLsbD i = decide (i = k)) ∧
    (let x := (s.rd ra).toNat % 2 ^ f.width
     let frac := x % 2 ^ f.fb
     let ex := x / 2 ^ f.fb % 2 ^ f.eb
     let neg := decide (2 ^ (f.width - 1) ≤ x)
     let k := if ex = 2 ^ f.eb - 1 then
         (if frac = 0 then (if neg then 0 else 7) else if 2 ^ (f.fb - 1) ≤ frac then 9 else 8)
       else if ex = 0 then
         (if frac = 0 then (if neg then 3 else 4) else if neg then 2 else 5)
       else if neg then 1 else 6
     Answers (.fclass rd ra t) s rd (BitVec.ofNat 64 (2 ^ k)))) ∧
  (∀ (s : State) (rd ra rb : Reg) (t : FType) (op : SgnOp),
    let n := (ffmtOf t).width
    ∃ v, Answers (.fsgn rd ra rb t op) s rd v ∧ (∀ i, i < n - 1 → v.getLsbD i = (s.rd ra).getLsbD i) ∧
      (∀ i, n ≤ i → v.getLsbD i = false) ∧
      v.getLsbD (n - 1) = (match op with
        | .copy => (s.rd rb).getLsbD (n - 1)
        | .inverse => !(s.rd rb).getLsbD (n - 1)
        | .xor => (s.rd ra).getLsbD (n - 1) != (s.rd rb).getLsbD (n - 1)))

/-- CVT in its three directions and SFU. A conversion whose result is always exact never reads the rounding mode;
otherwise the mode is the modifier's or FRM's, a reserved FRM trapping ILLEGAL. CVT then completes with the converted
value, zero-extended for a float and extended by its type for an integer, and its flags. SFU's value is on its way to
rd with its flags. (A 16-bit integer that rounds past FP16 overflows by R58 like a wider one: the model's reading, log
111: DEDUCED.) Concludes that exec answers a next state, on conditions on state and operands alone, for: cvt, sfu.
(R144, R160, R63, R64, R65, R164, R165) -/
def Obligations.ScalarConversions : Prop :=
  ∀ (s : State) (rd ra : Reg) (ft gt : FType) (it : IType) (sat : Bool) (fn : SfuFn) (rm : Rnd),
    let f := ffmtOf ft
    let g := ffmtOf gt
    let x := (s.rd ra).toNat % 2 ^ f.width
    let n : Int := intValue (iTypeBits it) (iTypeSigned it) (s.rd ra).toNat
    let gives (i : Instr) (v : Word) (fl : Flags) : Prop := WritesLate i s rd v fl
    (∀ m, (if floatRounds f g then s.mode rm else some .rne) = some m →
      gives (.cvt rd ra (.floatFloat ft gt) rm) (BitVec.ofNat 64 (fConv f g m x).1) (fConv f g m x).2) ∧
    (∀ m, (if intRounds (iTypeBits it) (iTypeSigned it) g then s.mode rm else some .rne) = some m →
      gives (.cvt rd ra (.intFloat it gt) rm) (BitVec.ofNat 64 (roundDy g m ⟨n, 0⟩ false).1) (roundDy g m ⟨n, 0⟩ false).2) ∧
    (∀ m, s.mode rm = some m →
      let r := floatToInt f m (iTypeBits it) (iTypeSigned it) sat x
      gives (.cvt rd ra (.floatInt ft it sat) rm) (BitVec.ofInt 64 (intValue (iTypeBits it) (iTypeSigned it) r.1)) r.2 ∧
      Ends (.sfu rd ra fn ft rm) s (later s .sfu [s.cur.regs.dest rd] .zx (leBytes 8 (BitVec.ofNat 64 (sfuEval f m fn x).1).toNat)
        (sfuEval f m fn x).2)) ∧
    (s.mode rm = none → ∀ i ∈ [Instr.cvt rd ra (.floatInt ft it sat) rm, .sfu rd ra fn ft rm],
      exec i s = .next (s.trap .illegal s.ctx.word)) ∧
    (s.mode rm = none → floatRounds f g = true →
      exec (.cvt rd ra (.floatFloat ft gt) rm) s = .next (s.trap .illegal s.ctx.word)) ∧
    (s.mode rm = none → intRounds (iTypeBits it) (iTypeSigned it) g = true →
      exec (.cvt rd ra (.intFloat it gt) rm) s = .next (s.trap .illegal s.ctx.word))

/-- Lane-wise arithmetic, comparisons and shifts: every lane from the same lanes of the sources. VADD, VSUB, VMUL, VMIN,
VMAX, VCMP, VSHL, VSHR, VFMA and their compact forms complete with every lane of vd the result of its operation on the
same lane of the sources (all read before any is written), in the element type; their flags are ored into FS and
nothing else changes. Integer lanes read no rounding mode; float lanes use the mode, and a reserved FRM traps ILLEGAL.
Concludes that exec answers a next state, on conditions on state and operands alone, for: vadd, vsub, vmul, vfma,
vmin, vmax, vshl, vshr, vcmp, cVadd, cVsub, cVmul, cVmin, cVmax, cVshl, cVshr, cVceq, cVclt, cVabs, cVneg, cVspl.
(R151, R152, R153, R154, R159, R78) -/
def Obligations.LaneArithmetic : Prop :=
  ∀ (s : State) (vd va vb : VReg) (t : EType) (ct : CType) (sat : Bool) (rm : Rnd) (cond : VCond),
    let byLane (i : Instr) (t : EType) (op : Nat → Nat × Flags) : Prop :=
      ∃ v fl, AnswersV i s vd v fl ∧ (∀ k, k < 128 / t.bits → lane v t.bits k = (op k).1 % 2 ^ t.bits) ∧
        (∀ j, fl.getLsbD j = true ↔ ∃ k, k < 128 / t.bits ∧ (op k).2.getLsbD j = true)
    let a (t : EType) (k : Nat) := lane (s.rv va) t.bits k
    let b (t : EType) (k : Nat) := lane (s.rv vb) t.bits k
    let d (t : EType) (k : Nat) := lane (s.rv vd) t.bits k
    let c := cType ct
    (∀ m, (if t.isInt then some .rne else s.mode rm) = some m →
      byLane (.vadd vd va vb t sat rm) t (fun k => eAdd t sat m (a t k) (b t k)) ∧
      byLane (.vsub vd va vb t sat rm) t (fun k => eSub t sat m (a t k) (b t k)) ∧
      byLane (.vmul vd va vb t sat rm) t (fun k => eMul t sat m (a t k) (b t k)) ∧
      byLane (.vfma vd va vb t sat rm) t (fun k => eFma t sat m (a t k) (b t k) (d t k))) ∧
    (∀ m, (if c.isInt then some .rne else s.mode .frm) = some m →
      byLane (.cVadd vd va ct) c (fun k => eAdd c false m (d c k) (a c k)) ∧
      byLane (.cVsub vd va ct) c (fun k => eSub c false m (d c k) (a c k)) ∧
      byLane (.cVmul vd va ct) c (fun k => eMul c false m (d c k) (a c k))) ∧
    (t.isInt = false → s.mode rm = none → ∀ i ∈ [Instr.vadd vd va vb t sat rm, .vsub vd va vb t sat rm, .vmul vd va vb t sat rm,
      .vfma vd va vb t sat rm], exec i s = .next (s.trap .illegal s.ctx.word)) ∧
    (c.isInt = false → s.mode .frm = none → ∀ i ∈ [Instr.cVadd vd va ct, .cVsub vd va ct, .cVmul vd va ct],
      exec i s = .next (s.trap .illegal s.ctx.word)) ∧
    byLane (.vmin vd va vb t) t (fun k => eMinMax t false (a t k) (b t k)) ∧
    byLane (.vmax vd va vb t) t (fun k => eMinMax t true (a t k) (b t k)) ∧
    byLane (.vcmp vd va vb t cond) t (fun k => maskLane t cond (a t k) (b t k)) ∧
    byLane (.vshl vd va vb t) t (fun k => (a t k * 2 ^ (b t k % t.bits), 0)) ∧
    byLane (.vshr vd va vb t) t (fun k => ((Int.fdiv (intValue t.bits t.signed (a t k)) (2 ^ (b t k % t.bits)) % 2 ^ t.bits).toNat, 0)) ∧
    byLane (.cVmin vd va ct) c (fun k => eMinMax c false (d c k) (a c k)) ∧
    byLane (.cVmax vd va ct) c (fun k => eMinMax c true (d c k) (a c k)) ∧
    byLane (.cVceq vd va ct) c (fun k => maskLane c .eq (d c k) (a c k)) ∧
    byLane (.cVclt vd va ct) c (fun k => maskLane c .lt (d c k) (a c k)) ∧
    byLane (.cVshl vd va ct) c (fun k => (d c k * 2 ^ (a c k % c.bits), 0)) ∧
    byLane (.cVshr vd va ct) c (fun k => ((Int.fdiv (intValue c.bits c.signed (d c k)) (2 ^ (a c k % c.bits)) % 2 ^ c.bits).toNat, 0)) ∧
    byLane (.cVabs vd va ct) c (fun k => (absLane c (a c k), 0)) ∧
    byLane (.cVneg vd va ct) c (fun k => (negLane c (a c k), 0)) ∧
    byLane (.cVspl vd va ct) c (fun _ => (a c 0, 0))

/-- The element operations on integer lanes: exact, then wrapped or clamped once. On an integer element type a sum,
difference, product or multiply-add of lanes is formed exactly on the signed or unsigned values and wrapped modulo
2^w, or with .sat clamped to the type's range, SAT raised exactly when clamping changed it; minimum and maximum
compare by the type's sign. (R152, R53) -/
def Obligations.LaneElementArithmetic : Prop :=
  ∀ (t : EType) (m : RMode) (x y z : Nat), t.isInt = true →
    let w := t.bits
    let val (n : Nat) : Int := if t.signed && decide (2 ^ (w - 1) ≤ n % 2 ^ w) then (n % 2 ^ w : Nat) - 2 ^ w else (n % 2 ^ w : Nat)
    let lo : Int := if t.signed then - 2 ^ (w - 1) else 0
    let hi : Int := if t.signed then 2 ^ (w - 1) - 1 else 2 ^ w - 1
    let result (r : Nat × Flags) (sat : Bool) (n : Int) : Prop :=
      r.1 < 2 ^ w ∧
      (sat = false → r.2 = 0 ∧ ((r.1 : Int) - n) % 2 ^ w = 0) ∧
      (sat = true → val r.1 = (if n < lo then lo else if hi < n then hi else n) ∧ (r.2 = 0x20 ↔ val r.1 ≠ n) ∧ (r.2 = 0 ∨ r.2 = 0x20))
    (∀ sat, result (eAdd t sat m x y) sat (val x + val y) ∧ result (eSub t sat m x y) sat (val x - val y) ∧
      result (eMul t sat m x y) sat (val x * val y) ∧ result (eFma t sat m x y z) sat (val x * val y + val z)) ∧
    (val (eMinMax t false x y).1 = (if val x ≤ val y then val x else val y)) ∧
    (val (eMinMax t true x y).1 = (if val x ≤ val y then val y else val x))

/-- Bitwise lanes, select, shuffle, splat, extract and insert. VAND, VOR, VXOR, VSEL and the compact bit and move forms
act on all 128 bits; VSHUF takes byte k of vd from byte vb[k] mod 32 of va followed by the old vd, or zero where bit 7
of vb[k] is set; VSPLAT puts the low bits of ra in every lane, VINS in one lane and leaves the others; VEXT writes a
lane to rd, sign-extended for a signed integer type, else zero-extended. Nothing else changes. Concludes that exec
answers a next state, on conditions on state and operands alone, for: vand, vor, vxor, vsel, vsplat, vext, vins,
vshuf, cVand, cVor, cVxor, cVmov. (R153, R155, R156, R159) -/
def Obligations.LaneBitsAndMoves : Prop :=
  ∀ (s : State) (vd va vb : VReg) (rd ra : Reg) (t : EType) (ct : CType) (k : BitVec 4),
    let a := s.rv va
    let b := s.rv vb
    let d := s.rv vd
    AnswersV (.vand vd va vb t) s vd (a &&& b) 0 ∧ AnswersV (.vor vd va vb t) s vd (a ||| b) 0 ∧
    AnswersV (.vxor vd va vb t) s vd (a ^^^ b) 0 ∧ AnswersV (.vsel vd va vb t) s vd ((a &&& d) ||| (b &&& ~~~d)) 0 ∧
    AnswersV (.cVand vd va ct) s vd (d &&& a) 0 ∧ AnswersV (.cVor vd va ct) s vd (d ||| a) 0 ∧
    AnswersV (.cVxor vd va ct) s vd (d ^^^ a) 0 ∧ AnswersV (.cVmov vd va ct) s vd a 0 ∧
    (∃ v, AnswersV (.vshuf vd va vb) s vd v 0 ∧ ∀ j, j < 16 →
      let c := lane b 8 j
      lane v 8 j = if 128 ≤ c then 0 else if c % 32 < 16 then lane a 8 (c % 32) else lane d 8 (c % 32 - 16)) ∧
    (∃ v, AnswersV (.vsplat vd ra t) s vd v 0 ∧ ∀ j, j < 128 / t.bits → lane v t.bits j = (s.rd ra).toNat % 2 ^ t.bits) ∧
    (k.toNat < 128 / t.bits → ∃ v, AnswersV (.vins vd ra t k) s vd v 0 ∧ ∀ j, j < 128 / t.bits →
      lane v t.bits j = if j = k.toNat then (s.rd ra).toNat % 2 ^ t.bits else lane d t.bits j) ∧
    (let x := lane a t.bits k.toNat
     WritesLate (.vext rd va t k) s rd (if t.isInt && t.signed && decide (2 ^ (t.bits - 1) ≤ x) then BitVec.ofInt 64 ((x : Int) - 2 ^ t.bits)
      else BitVec.ofNat 64 x) 0)

/-- VDOT, VRED, VCVT, VSFU and the floe groups complete with their results; floe blocks. With the mode they read (the
modifier's or FRM; reserved: ILLEGAL with the instruction word, for each of the four where it rounds), VDOT completes
with the four accumulated 32-bit lanes (the sign of a zero among them is the model's choice, log 101), VRED with the
tree's result in lane 0 and zeros above, VCVT with the converted lanes (narrowing: in the named part, the rest of vd
kept); VSFU's lanes are on their way; FLENC replaces one slot of the destination group by the encoded block of 16
values and keeps its other bytes, FLDEC writes the group of 16 decoded values. Flags go to FS; nothing else changes.
Results are written two or more cycles after issue: others on their way to the same register may land before. A block
whose exponent byte is 255 decodes to 16 default NaNs, and every other block to 16 finite FP32 values without a flag:
the decoding is exact. Sixteen values with a NaN among them encode to the NaN block and raise NV; the encoded block
always has the format's size. Concludes that exec answers a next state, on conditions on state and operands alone,
for: vdot, vred, vcvt, flenc, fldec, vsfu. (R157, R158, R161, R162, R163, R164, R66, R67, R68) -/
def Obligations.LaneResultsAndFloes : Prop :=
  (∀ (s : State) (vd va vb : VReg) (t dt st : EType) (sat : Bool) (rm : Rnd) (op : RedOp) (part : BitVec 3) (fn : SfuFn)
    (fm : Floe) (slot : BitVec 4),
    let group (i : Instr) (bs : List Byte) (fl : Flags) : Prop :=
      exec i s = .next ((((meanwhile s (vdests vd 4)).writeGroup vd 4 bs).sticky fl).retire).tagLate
    (∀ m, (if t.isInt then some .rne else s.mode rm) = some m →
      AnswersV (.vdot vd va vb t sat rm) s vd (vdotResult t sat m (s.rv vd) (s.rv va) (s.rv vb)).1
        (vdotResult t sat m (s.rv vd) (s.rv va) (s.rv vb)).2) ∧
    (∀ m, (if !t.isInt && op == .sum then s.mode .frm else some .rne) = some m →
      let r := reduce t op sat m (lanes (s.rv va) t.bits)
      AnswersV (.vred vd va t op sat) s vd (BitVec.ofNat 128 r.1) r.2) ∧
    (∀ m, (if eConvRounds dt st then s.mode rm else some .rne) = some m →
      let r := vcvtResult dt st part.toNat sat m (s.rv vd) (s.rv va)
      AnswersV (.vcvt vd va dt st part sat rm) s vd r.1 r.2) ∧
    (∀ m, s.mode .frm = some m →
      let r := lanes1 t.bits (sfuEval (eFmt t) m fn) (s.rv va)
      Ends (.vsfu vd va fn t) s (later s .sfu [.v vd] .vec (leBytes 16 r.1.toNat) r.2)) ∧
    (let r := floeEncode fm ((List.range 4).flatMap fun i => lanes (s.rv (va + BitVec.ofNat 4 i)) 32)
     group (.flenc vd va fm slot) (splice (s.groupBytes vd 4) (slot.toNat * Floe.bytes fm) r.1) r.2) ∧
    (let block := ((s.groupBytes va 4).drop (slot.toNat * Floe.bytes fm)).take (Floe.bytes fm)
     group (.fldec vd va fm slot) ((floeDecode fm fmtF32 .rne block).flatMap fun x => leBytes 4 x.1) 0) ∧
    (t.isInt = false → s.mode rm = none → exec (.vdot vd va vb t sat rm) s = .next (s.trap .illegal s.ctx.word)) ∧
    (t.isInt = false → s.mode .frm = none → exec (.vred vd va t .sum sat) s = .next (s.trap .illegal s.ctx.word)) ∧
    (eConvRounds dt st = true → s.mode rm = none → exec (.vcvt vd va dt st part sat rm) s = .next (s.trap .illegal s.ctx.word)) ∧
    (s.mode .frm = none → exec (.vsfu vd va fn t) s = .next (s.trap .illegal s.ctx.word))) ∧
  (∀ (f : Floe) (block : List Byte) (xs : List Nat), xs.length = 16 →
    ((block.getD 0 0).toNat = 255 → floeDecode f fmtF32 .rne block = List.replicate 16 (0x7FC00000, 0)) ∧
    ((block.getD 0 0).toNat ≠ 255 → ∀ r ∈ floeDecode f fmtF32 .rne block, r.2 = 0 ∧ (unpack fmtF32 r.1).isNaN = false ∧
      (unpack fmtF32 r.1).isInf = false) ∧
    (floeDecode f fmtF32 .rne block).length = 16 ∧ (floeEncode f xs).1.length = Floe.bytes f ∧
    ((∃ x ∈ xs, (unpack fmtF32 x).isNaN = true) → floeEncode f xs = (0xFF :: List.replicate (Floe.bytes f - 1) 0, 1)))

/-- Vector-stream, matrix and copy commands: queue full, checks, entry; stream pointers advance at issue. SPSET and SPGET
write and read a stream pointer. A vector-stream, matrix or copy command waits while its engine's queue holds two;
then it traps ENGINE with the value of the first issue check that fails, or enters the queue with the values of its
registers, its tag pending, and completes. A stream command leaves each distinct pointer it names advanced by its
count times the stride, modulo 2^15; other pointers stay. A mode that is read and reserved traps ILLEGAL. MXSTAT waits
for a full queue too; its value is on its way. CPY2D's checks cover every row of each endpoint. MXREM traps ENGINE
where MXCAP does not permit the member, the descriptor is misaligned or not all in local memory, naming its first byte
outside, else it is sent with the accesses of its thread that are not performed. Concludes that exec answers a next
state, on conditions on state and operands alone, for: spset, spget, vsadd, vssub, vsmul, vsfma, vsaxpy, vsmax, vsmin,
vsexp, vsred, vsdot, vscvt, vscopy, vsfill, mxwl, mxwf, mxa, mxd, mxz, mxstat, mxrem, cpy, cpyn, cpy2d, cpyg, cpye.
(R218, R220, R221, R222, R223, R224, R225, R230, R235, R237, R240, R244) -/
def Obligations.EngineCommandsIssue : Prop :=
  ∀ (s : State) (sd sa sb : SReg) (rd ra rb rc x : Reg) (stride size : BitVec 16) (t : EType) (dt st : SType) (sat clr split : Bool)
    (rm : Rnd) (mf : MxFmt) (jn : BitVec 5) (val : BitVec 32) (pick : BitVec 2) (tag : BitVec 3),
    let n := s.ctx.core
    let issues (i : Instr) (e : Eng) (bad : Option Word) (c : Cmd) (u : State) : Prop :=
      (2 ≤ (s.queue n e).length → Waits i s s .queue) ∧
      ((s.queue n e).length < 2 → (∀ v, bad = some v → Raises i s .engine v) ∧ (bad = none → Ends i s (queued u e c)))
    let streams (i : Instr) (needed : Bool) (rm : Rnd) (rs : List Role) (rc : Reg) (x : Word) : Prop :=
      (∀ m, (if needed then s.mode rm else some .rne) = some m →
        issues i .vs (s.rolesBad rs) { s.cmd i 0 0 0 (s.rd rc) x m with ptrs := rs.map fun r => s.ptr r.sp } (s.advance rs [])) ∧
      (needed = true → s.mode rm = none → exec i s = .next (s.trap .illegal s.ctx.word))
    let k := ((s.rd rc).extractLsb' 0 16).toNat
    let e := t.bits / 8
    let three : List Role := [⟨sd, e, k⟩, ⟨sa, e, k⟩, ⟨sb, e, k⟩]
    let two (m : Nat) : List Role := [⟨sd, e, m⟩, ⟨sa, e, k⟩]
    let mx (i : Instr) (d a b c : Word) : Prop := issues i .mx (s.mxCheck n i d a b c) (s.cmd i d a b c 0 .rne) s
    let cp (i : Instr) (bad : Option Word) (d a b c x : Word) : Prop := issues i .cp bad (s.cmd i d a b c x .rne) s
    let vd := s.rd rd
    let va := s.rd ra
    let vb := s.rd rb
    let vc := s.rd rc
    Passes (.spset sd ra stride) s { s.cur.regs with sp := set4 s.cur.regs.sp sd (stride ++ (0#1 ++ va.extractLsb' 0 15)) } 0 ∧
    Answers (.spget rd sa) s rd ((get4 s.cur.regs.sp sa).setWidth 64) ∧
    streams (.vsadd sd sa sb rc t sat rm) (!t.isInt) rm three rc 0 ∧ streams (.vssub sd sa sb rc t sat rm) (!t.isInt) rm three rc 0 ∧
    streams (.vsmul sd sa sb rc t sat rm) (!t.isInt) rm three rc 0 ∧ streams (.vsfma sd sa sb rc t sat rm) (!t.isInt) rm three rc 0 ∧
    streams (.vsaxpy sd sa sb rc x t sat rm) (!t.isInt) rm three rc (s.rd x) ∧
    streams (.vsmax sd sa sb rc t) false .frm three rc 0 ∧ streams (.vsmin sd sa sb rc t) false .frm three rc 0 ∧
    streams (.vsexp sd sa rc x t rm) true rm (two k) rc (s.rd x) ∧ streams (.vsred sd sa rc t rm) true rm (two 1) rc 0 ∧
    streams (.vsdot sd sa sb rc t rm) true rm [⟨sd, e, 1⟩, ⟨sa, e, k⟩, ⟨sb, e, k⟩] rc 0 ∧
    streams (.vscopy sd sa rc t) false .frm (two k) rc 0 ∧ streams (.vsfill sd rc x t) false .frm [⟨sd, e, k⟩] rc (s.rd x) ∧
    streams (.vscvt sd sa rc dt st sat rm) (scvtRounds dt st) rm [⟨sd, sbytes dt, scount dt k⟩, ⟨sa, sbytes st, scount st k⟩] rc 0 ∧
    (∀ (rs : List Role) (q : SReg), (s.advance rs []).ptr q = match rs.find? fun r => r.sp = q with
      | some r => spMoved (s.ptr q) (elemAddr (s.ptr q) r.m)
      | none => s.ptr q) ∧
    (∀ (p : BitVec 32) (a : Int), (spAddr (spMoved p a) : Int) = a % 2 ^ 15 ∧ spStride (spMoved p a) = spStride p) ∧
    mx (.mxwl mf ra rb) 0 va vb 0 ∧ mx .mxwf 0 0 0 0 ∧ mx (.mxa mf rd ra rb rc jn split) vd va vb vc ∧
    mx (.mxd mf ra rb rc clr) 0 va vb vc ∧ mx (.mxz ra rb) 0 va vb 0 ∧
    (2 ≤ (s.queue n .mx).length → Waits (.mxstat rd pick) s s .queue) ∧
    ((s.queue n .mx).length < 2 → Ends (.mxstat rd pick) s (queued (s.addPend ⟨s.nextId, .engine, [s.cur.regs.dest rd], .zx,
      List.replicate 8 (.miss 0), 0, false, s.ctx.word, s.level, false⟩) .mx (s.cmd (.mxstat rd pick) 0 0 0 0 0 .rne))) ∧
    (let ok := s.curCore.regs.mxen && clusterOf va.toNat == clusterOf n && s.curCore.regs.mxmask.getLsbD (va.toNat % 32)
     (ok = false → Raises (.mxrem rd ra rb) s .engine (engTval .mx 5 va.toNat)) ∧
     (ok = true → vb.toNat % 16 ≠ 0 → Raises (.mxrem rd ra rb) s .engine (engTval .mx 2 vb.toNat)) ∧
     (ok = true → vb.toNat % 16 = 0 → s.localEnd n < vb.toNat + 48 →
       Raises (.mxrem rd ra rb) s .engine (engTval .mx 2 (max vb.toNat (s.localEnd n)))) ∧
     (ok = true → vb.toNat % 16 = 0 → vb.toNat + 48 ≤ s.localEnd n →
       let u := ({ s with nextId := s.nextId + 1 }).addPend ⟨s.nextId, .engine, [s.cur.regs.dest rd], .zx,
         List.replicate 8 (.miss 0), 0, false, s.ctx.word, s.level, false⟩
       Ends (.mxrem rd ra rb) s ((u.onCore va.toNat fun c => { c with eng := { c.eng with inbox := c.eng.inbox ++
         [⟨s.nextId, n, s.ctx.thr.toNat, s.level, s.lmem n vb.toNat 48, s.lpoison n vb.toNat 48,
          s.outstanding n s.ctx.thr⟩] } }).track s.nextId))) ∧
    cp (.cpy rd ra rb) (s.copyBad vd va (len32 vb)) vd va vb 0 0 ∧
    cp (.cpyn rd ra rb rc val) ((s.copyBad vd va (len32 vb)).orElse fun _ => s.notifyBad vc) vd va vb vc (val.setWidth 64) ∧
    (let len := (vb.extractLsb' 0 32).toNat
     let row (p : Word) (k r : Nat) : Word := p + BitVec.ofNat 64 r * (vc.extractLsb' k 32).signExtend 64
     cp (.cpy2d rd ra rb rc) (if len = 0 then none else
       rangeTval .cp ((List.range (vb.extractLsb' 32 32).toNat).flatMap fun r =>
         [s.rangeBad n (row va 0 r) len, s.rangeBad n (row vd 32 r) len])) vd va vb vc 0) ∧
    cp (.cpyg rd ra rb rc size) (rangeTval .cp [s.localBad n vb.toNat (4 * len32 vc), s.rangeBad n vd (len32 vc * size.toNat)]) vd va vb vc 0 ∧
    issues (.cpye rd ra rb tag) .cp (s.copyBad vd va (len32 vb)) { s.cmd (.cpye rd ra rb tag) vd va vb 0 0 .rne with bind := s.bound tag } s

/-- The engines at work: streams, matrix commands, copies; an operation leaves its queue as it completes. Once the
accesses before its issue have been performed, the run of a vector-stream operation at the head of its queue performs
its elements and marks it run with its flags. MXWF swaps the weight buffers, MXZ clears its accumulator rows and their
poison and no other row, MXWL fills the inactive buffer with the decoded rows, format, tag and poison, MXSTAT gives
the status word or the poison mask, sel 2 clearing the flags. MXA fails on weights of another class or a poisoned
table entry, else adds to each entry of its rows, skipped ones apart, the sixteen products in one rounded step; MXD
writes its rows in the format, poison with them, and clears them where asked. A copy within local memory leaves the
destination with the bytes the source held before, whatever the overlap, and no other byte changed. A run operation
without a notify word leaves its queue, its tag tracks it no more; an MXSTAT's value lands in rd then. A remote
command that arrives is answered with its status and queued only when that is 0. Concludes that exec answers a next
state, on conditions on state and operands alone, for: mxa, mxd, vstreamOpRun, matrixOpRun, copyOpRun,
engineOpComplete, mxremArrival. (R72, R203, R205, R222, R230, R231, R232, R233, R234, R235, R238, R240) -/
def Obligations.EngineOperationsRun : Prop :=
  ∀ (s : State) (n : Nat) (c : Cmd),
    (s.headToRun n .vs = some c → s.mayBegin n c = true → (∀ rd ra rb rc p, c.instr ≠ .tap rd ra rb rc p) →
      exec (.vstreamOpRun n) s = .next ((s.runStream n c).1.ran n .vs c.id none (s.runStream n c).2)) ∧
    (s.toRun n .mx = some c → s.matrixReady n c = true → c.fail = none → ∃ u, exec (.matrixOpRun n) s = .next u ∧
      (c.instr = .mxwf → (u.core n).eng.mat = { (s.core n).eng.mat with active := !(s.core n).eng.mat.active }) ∧
      (∀ ra rb r, c.instr = .mxz ra rb → (s.core n).eng.mat.acc.length = 1024 → c.a.toNat + c.b.toNat ≤ 64 → r < 64 →
        (u.core n).eng.mat.row r = (if c.a.toNat ≤ r ∧ r < c.a.toNat + c.b.toNat then List.replicate 16 0 else (s.core n).eng.mat.row r) ∧
        (u.core n).eng.mat.accPsn.getLsbD r = ((s.core n).eng.mat.accPsn.getLsbD r && !decide (c.a.toNat ≤ r ∧ r < c.a.toNat + c.b.toNat))) ∧
      (∀ f ra rb, c.instr = .mxwl f ra rb → (u.core n).eng.mat.act = (s.core n).eng.mat.act ∧
        (if (s.core n).eng.mat.active then (u.core n).eng.mat.buf0 else (u.core n).eng.mat.buf1) =
          ⟨(List.range 16).flatMap fun r => mxDecode f (s.lmem n (c.a.toNat + r * mxBytes f) (mxBytes f)), f, c.b.getLsbD 20,
            c.b.extractLsb' 0 20, s.lpoison n c.a.toNat (16 * mxBytes f)⟩) ∧
      (∀ f rd ra rb rc jn sp, c.instr = .mxa f rd ra rb rc jn sp →
        let m := (s.core n).eng.mat
        let m' := (u.core n).eng.mat
        let d := c.d.toNat
        let a := c.a.toNat
        let k := c.b.toNat
        let tb := c.c.toNat
        let failed (v : Word) : Prop := m' = m ∧ ((u.queue n .mx).find? fun x => x.id = c.id).bind Cmd.fail = some v
        (k = 0 → m' = m) ∧
        (k ≠ 0 → mxAccepts m.act.fmt f = false → failed (engTval .mx 6 0)) ∧
        (∀ j, k ≠ 0 → mxAccepts m.act.fmt f = true → j < jn.toNat → s.lpoison n (tb + 8 * j) 8 = true →
          (∀ i, i < j → s.lpoison n (tb + 8 * i) 8 = false) → failed (engTval .mx 3 (tb + 8 * j))) ∧
        (mxAccepts m.act.fmt f = true → (∀ j, j < jn.toNat → s.lpoison n (tb + 8 * j) 8 = false) → m.acc.length = 1024 →
          d + k ≤ 64 →
          let skipped (r : Nat) : Prop := jn ≠ 0 ∧
            rowSkipped m.act ((List.range jn.toNat).map fun j => leNat (s.lmem n (tb + 8 * j) 8)) r = true
          (∀ r, r < 64 → r < d ∨ d + k ≤ r ∨ skipped (r - d) → m'.row r = m.row r) ∧
          ∀ r, r < k → ¬ skipped r →
            let at' := if sp then a + r / 2 * mxBytes f + r % 2 * 0x2000 else a + r * mxBytes f
            (∀ col, col < 16 → (m'.row (d + r)).getD col 0 = (mxStep (f == .i8) ((m.row (d + r)).getD col 0)
              (mxDecode f (s.lmem n at' (mxBytes f))) ((List.range 16).map fun i => m.act.w.getD (16 * i + col) 0)).1) ∧
            ((m.act.psn || s.lpoison n at' (mxBytes f)) = true → m'.accPsn.getLsbD (d + r) = true))) ∧
      (∀ f ra rb rc clr, c.instr = .mxd f ra rb rc clr → f ≠ .i8 → s.lockstep n = false → Memory.wf (s.core n).mem.lmem = true →
        let m := (s.core n).eng.mat
        let m' := (u.core n).eng.mat
        let a := c.a.toNat
        let d := c.b.toNat
        let k := c.c.toNat
        let w := mxBytes f
        let bytes (row : List (BitVec 32)) : List Byte := match mxFloe f with
          | some g => (floeEncode g (row.map BitVec.toNat)).1
          | none => row.flatMap fun x => if f = .f16 then leBytes 2 (fConv fmtF32 fmtF16 .rne x.toNat).1
              else if f = .bf16 then leBytes 2 (fConv fmtF32 fmtBF16 .rne x.toNat).1 else leBytes 4 x.toNat
        m.acc.length = 1024 → d + k ≤ 64 →
        (∀ r i, r < k → i < w → cellsGet (u.core n).mem.lmem (a + r * w + i) = (bytes (m.row (d + r))).getD i 0 ∧
          (m.accPsn.getLsbD (d + r) = true → (a + r * w + i) / 16 ∈ (u.core n).mem.lpsn)) ∧
        (∀ y, y < a ∨ a + k * w ≤ y → cellsGet (u.core n).mem.lmem y = cellsGet (s.core n).mem.lmem y) ∧
        ∀ r, r < 64 →
          m'.row r = (if clr ∧ d ≤ r ∧ r < d + k then List.replicate 16 0 else m.row r) ∧
          m'.accPsn.getLsbD r = (m.accPsn.getLsbD r && !(clr && decide (d ≤ r ∧ r < d + k)))) ∧
      (∀ rd pick, c.instr = .mxstat rd pick → pick = 0 ∨ pick = 2 →
        let m := (s.core n).eng.mat
        (u.core n).eng.mat = (if pick = 2 then { m with flags := 0, nfault := false } else m) ∧
        ∃ v, ((u.queue n .mx).find? fun x => x.id = c.id).map Cmd.x = some v ∧ v.extractLsb' 0 4 = m.flags ∧
          v.getLsbD 4 = decide (m.accPsn ≠ 0) ∧ v.getLsbD 5 = m.nfault ∧ v.extractLsb' 6 5 = 0 ∧ v.getLsbD 11 = m.active ∧
          (v.extractLsb' 12 3).toNat = MxFmt.code m.act.fmt ∧ v.getLsbD 15 = m.act.tagged ∧ v.extractLsb' 16 20 = m.act.handle ∧
          v.extractLsb' 36 12 = 0 ∧ v.extractLsb' 48 16 = m.rerun) ∧
      (∀ rd, c.instr = .mxstat rd 1 → (u.core n).eng.mat = (s.core n).eng.mat ∧
        ((u.queue n .mx).find? fun x => x.id = c.id).map Cmd.x = some (s.core n).eng.mat.accPsn)) ∧
    (∀ rd ra rb, s.headToRun n .cp = some c → c.instr = .cpy rd ra rb → c.moved = false → s.copyReady n c = true → s.lockstep n = false →
      Memory.wf (s.core n).mem.lmem = true → (s.core n).mem.lpsn = [] →
      let len := len32 c.b
      c.a.toNat + len ≤ 0x6000 → c.d.toNat + len ≤ 0x6000 → c.a.toNat < 0x6000 → c.d.toNat < 0x6000 →
      ∃ u, exec (.copyOpRun n) s = .next u ∧ ∀ y, cellsGet (u.core n).mem.lmem y =
        if c.d.toNat ≤ y ∧ y < c.d.toNat + len then cellsGet (s.core n).mem.lmem (c.a.toNat + (y - c.d.toNat))
        else cellsGet (s.core n).mem.lmem y) ∧
    (∀ e rest, s.queue n e = c :: rest → c.ran = true → c.told = false → c.notifies = none → c.fail = none → c.flags = 0 → c.thr < 4 →
      (∀ a ∈ (s.thread n (tid c.thr)).run.pend, a.id ≠ c.id) →
      ∃ u, exec (.engineOpComplete n e) s = .next u ∧ u.queue n e = rest.filter (fun x => x.id != c.id) ∧
        (u.thread n (tid c.thr)).run.tracks = ((s.thread n (tid c.thr)).run.tracks.filter fun p => p.2 != c.id) ∧
        (u.thread n (tid c.thr)).regs = (s.thread n (tid c.thr)).regs ∧ u.mem = s.mem) ∧
    (∀ e rest d w l, s.queue n e = c :: rest → c.ran = true → c.told = false → c.notifies = none → c.fail = none → c.flags = 0 →
      c.thr < 4 → (s.thread n (tid c.thr)).run.pend.find? (fun a => a.id = c.id) =
        some ⟨c.id, .engine, [d], .zx, List.replicate 8 (.miss 0), 0, false, w, l, false⟩ →
      ∃ u, exec (.engineOpComplete n e) s = .next u ∧ u.queue n e = rest.filter (fun x => x.id != c.id) ∧
        (u.thread n (tid c.thr)).regs = (s.thread n (tid c.thr)).regs.deliver [d] .zx (leBytes 8 c.x.toNat) ∧
        (u.thread n (tid c.thr)).run.tracks = ((s.thread n (tid c.thr)).run.tracks.filter fun p => p.2 != c.id)) ∧
    (∀ (z : BitVec 32) (xs ws : List (BitVec 32)), xs.length = 16 → ws.length = 16 →
      let val (y : BitVec 32) := unpack fmtF32 y.toNat
      let sum := Dy.sum (((xs.zip ws).map fun p => (val p.1).dy.mul (val p.2).dy) ++ [(val z).dy])
      ((∃ y ∈ z :: xs ++ ws, (val y).isNaN = true) → mxStep false z xs ws = (0x7FC00000, 1)) ∧
      ((∀ y ∈ z :: xs ++ ws, (val y).isNaN = false ∧ (val y).isInf = false) →
        (sum.n ≠ 0 → mxStep false z xs ws =
          (BitVec.ofNat 32 (roundDy fmtF32 .rne sum false).1, (roundDy fmtF32 .rne sum false).2)) ∧
        (sum.n = 0 → mxStep false z xs ws = (if z = 0x80000000 ∧ ∀ p ∈ xs.zip ws,
          ((val p.1).isZero = true ∨ (val p.2).isZero = true) ∧ (val p.1).sign ≠ (val p.2).sign then 0x80000000 else 0, 0)))) ∧
    (∀ m rest, (s.core n).eng.inbox = m :: rest → s.frozen n = false →
      ∃ u, exec (.mxremArrival n) s = .next u ∧ (u.core n).eng.inbox = rest ∧
        (u.thread m.core (tid m.thr)).run.pend = ((s.thread m.core (tid m.thr)).run.pend.map fun x => if x.id = m.id then
          { x with bytes := (leBytes 8 (BitVec.ofNat 64 (s.remoteStatus n m)).toNat).map .have } else x) ∧
        (s.remoteStatus n m ≠ 0 → u.queue n .mx = s.queue n .mx) ∧
        (∀ i, s.remoteStatus n m = 0 → descInstr (descWord m 0) = some i →
          u.queue n .mx = s.queue n .mx ++ [(s.onCore n fun k => { k with eng := { k.eng with inbox := rest } }).remoteCmd n m i]))

/-- QFENCE, gangs, checkpoints and the cache-line instructions. QFENCE waits for the operations queued in the engines it
names; then it traps ENGINE with the earliest failure, or merges flags, acquires and completes. GANG with a legal mask
makes the core leader and every named core a detached follower, status 0; refused it gives 1. DETACH and REJOIN
without a gang only complete; DETACH of an attached follower detaches it and empties its queue. CHKPT in a lockstep
pair takes the checkpoint as it completes, elsewhere it only completes. CWB, CINV and IINV outside global memory only
complete; on a global line CWB cleans a software-managed line and tracks the registrations of a coherent one, CINV
drops a software-managed line and, of a coherent one that no hold keeps, the V words and a pushed copy, IINV drops the
instruction line. A mismatch of a pair none of whose requests is on its way returns the four threads and the engines
as the checkpoint recorded them and, in both cores, each logged row of local memory with its poison, the other bytes
staying; it is counted, the count stopping at 0xFFFF. At the third within the window every live thread traps LOCKSTEP
with value 3 at its checkpointed instruction and the pair is marked for retirement. Concludes that exec answers a next
state, on conditions on state and operands alone, for: qfence, gang, detach, rejoin, chkpt, cwb, cinv, iinv,
lockstepCheckpoint, lockstepMismatch. (R246, R247, R248, R210, R214, R216, R250) -/
def Obligations.FencesGangsLockstepAndLines : Prop :=
  ∀ (s : State) (rd ra : Reg) (mask : BitVec 3),
    let n := s.ctx.core
    let k := s.ctx.thr.toNat
    let now := s.queued n mask
    (s.stage = none → now ≠ [] → Waits (.qfence mask) s s (.engines now)) ∧
    (s.stage = none → now = [] →
      (∀ v u, s.failure (fun x => names mask x.eng) = some (v, u) → ∃ t, exec (.qfence mask) s = .next t ∧ Enters u t .engine v) ∧
      (s.failure (fun x => names mask x.eng) = none →
        Ends (.qfence mask) s ((s.mergeFlags fun x => names mask x.eng).acquire n))) ∧
    (let m : BitVec 32 := (s.rd ra).extractLsb' 0 32
     let named := gangNamed n m
     (m ≠ 0 → s.gangRefused n k named = true → ∃ u, Ends (.gang rd ra) s u ∧ u.cur.regs = s.cur.regs.write rd 1) ∧
     (m ≠ 0 → s.gangRefused n k named = false → ∃ u, Ends (.gang rd ra) s u ∧ u.cur.regs = s.cur.regs.write rd 0 ∧
       u.gangSlot n k = some ⟨n, true⟩ ∧ (∀ c ∈ named, u.gangSlot c k = some ⟨n, false⟩) ∧
       (∀ c j, (c ≠ n ∧ c ∉ named) ∨ j ≠ k → u.gangSlot c j = s.gangSlot c j)) ∧
     (m = 0 → ∃ u, Ends (.gang rd ra) s u ∧ u.cur.regs = s.cur.regs.write rd 0 ∧ (s.leads n k = true → u.gangSlot n k = none))) ∧
    (s.gangSlot n k = none → Passes .detach s s.cur.regs 0 ∧ Passes .rejoin s s.cur.regs 0) ∧
    (∀ g, s.gangSlot n k = some g → g.leader = n ∨ g.attached = false → Passes .detach s s.cur.regs 0) ∧
    (∀ g, s.gangSlot n k = some g → g.leader ≠ n → g.attached = true → Passes .rejoin s s.cur.regs 0 ∧
      ∃ u, Ends .detach s u ∧ u.gangSlot n k = (if g.leader < Config.numCores then some { g with attached := false } else none) ∧ u.cur.run.fwdq = [] ∧ u.cur.regs = s.cur.regs) ∧
    (s.lockstep n = false → Passes .chkpt s s.cur.regs 0) ∧
    (s.lockstep n = true → ∃ t, Completed s t s.after s.cur.regs 0 ∧ exec .chkpt s = .next (t.checkpoint n) ∧
      ((t.checkpoint n).core n).lock.saved = (t.core n).thr.toList ∧ ((t.checkpoint n).core n).lock.log = []) ∧
    ((s.rd ra).toNat < s.localEnd n → Passes (.cwb ra) s s.cur.regs 0 ∧ Passes (.cinv ra) s s.cur.regs 0 ∧ Passes (.iinv ra) s s.cur.regs 0) ∧
    (∀ u pa coh rest, s.checkCur .read (s.rd ra) 1 = (u, .ok (.glob pa coh :: rest)) →
      let agent := u.agentOf u.ctx.core pa
      let line := lineOf pa
      (coh = false → Ends (.cwb ra) s (u.cleanLine agent line) ∧ Ends (.cinv ra) s (u.dropLine agent line)) ∧
      (coh = true → Ends (.cwb ra) s (u.trackAll (((u.outRegs agent).filter fun r => r.line = line && r.src = u.ctx.core).map OutReg.id))) ∧
      (coh = true → (u.holder agent line).isSome = true → Ends (.cinv ra) s u) ∧
      (coh = true → (u.holder agent line).isSome = false → Ends (.cinv ra) s (u.dropV agent line)) ∧
      Ends (.iinv ra) s (u.onCurCore fun c => { c with mem := { c.mem with l1i := c.mem.l1i.filter fun l => l.num != line } })) ∧
    (∀ m, s.lockstep m = true → s.shadow m = false → exec (.lockstepCheckpoint m) s = .next (s.checkpoint m) ∧
      (s.leftCore m = [] → ((s.rollback m).core m).lock.hits < 3 → exec (.lockstepMismatch m) s = .next (s.rollback m)) ∧
      ((s.rollback m).core m).lock.log = [] ∧
      (∀ a b c d, (s.core m).lock.saved = [a, b, c, d] → ((s.rollback m).core m).thr = #v[a, b, c, d]) ∧
      (∀ g, (s.core m).lock.engs = some g → ((s.rollback m).core m).eng = g) ∧
      (∀ j, j = m ∨ j = m + 1 → Memory.wf (s.core j).mem.lmem = true → (∀ e ∈ (s.core m).lock.log, e.2.1.length = 16) →
        ((s.core m).lock.log.map fun e => e.1).Nodup → ∀ y,
        let row := (s.core m).lock.log.find? fun e => e.1 = y / 16
        cellsGet ((s.rollback m).core j).mem.lmem y = (match row with
          | some e => e.2.1.getD (y % 16) 0
          | none => cellsGet (s.core j).mem.lmem y) ∧
        (y / 16 ∈ ((s.rollback m).core j).mem.lpsn ↔ match row with
          | some e => e.2.2 = true
          | none => y / 16 ∈ (s.core j).mem.lpsn)) ∧
      ((s.rollback m).core m).lock.rbcount =
        (if (s.core m).lock.rbcount = 0xFFFF then 0xFFFF else (s.core m).lock.rbcount + 1) ∧
      (((s.rollback m).core m).lock.hits = 1 ∨ ((s.rollback m).core m).lock.hits = (s.core m).lock.hits + 1) ∧
      (s.leftCore m = [] → 3 ≤ ((s.rollback m).core m).lock.hits →
        (∀ k, k < 4 → ((s.rollback m).thread m (tid k)).sp.lkbud.en = false) →
        ∃ u, exec (.lockstepMismatch m) s = .next u ∧ (u.core m).lock.retire = true ∧
          ∀ k, k < 4 → ((s.rollback m).thread m (tid k)).run.life = .live →
            (u.thread m (tid k)).level = .s ∧ (u.thread m (tid k)).trap.tpc = ((s.rollback m).thread m (tid k)).pc ∧
            (u.thread m (tid k)).trap.tcause = Cause.lockstep.code ∧ (u.thread m (tid k)).trap.tval = 3))

/-- STP and PUSHL, HOLD and UNHOLD, DQPUSH and DQPOP; steals, timers and re-reads. STP waits for room, is checked,
performs its store as ST does and pushes the lines of a coherent page to the named cores; PUSHL pushes a line. Where
the address is not global and hardware-coherent (local memory, a peer, a software-managed page, the fabric window, the
control area) the push is refused and counted with cause 4, where the core set is invalid with 5; STP has stored. A
HOLD whose line has been registered starts its timer, gives 0 and completes; a line the thread or another thread of
the core holds gives 2 or 3; a thread with two holds, or a core with four, traps LEASE. UNHOLD ends the hold with 0,
reports one that ended early with 1, else gives 2. DQPUSH puts a non-zero value at the owner end (0), a full deque
gives 1, zero gives 2. DQPOP takes the own deque's newest entry; with an empty one it asks other members, cluster by
cluster in their order, one request at a time; the first deque that is not empty gives its oldest entry. That one
request examines a cluster's run of members at one moment is the model's reading (log 65), and so is the wait of a
push to no core while sixteen are outstanding (log 66). Concludes that exec answers a next state, on conditions on
state and operands alone, for: stp, pushl, hold, unhold, dqpush, dqpop, holdTimerExpiry, waitwReread, dqpopResearch,
stealRequest. (R260, R263, R264, R265, R267, R268, R270, R272, R273, R274) -/
def Obligations.PushStoresHoldsAndDeques : Prop :=
  ∀ (s : State) (rd ra rb : Reg) (disp : BitVec 32) (wd : Width) (o wait : Bool),
    let n := s.ctx.core
    let t := s.ctx.thr
    let a := s.rd ra + disp.signExtend 64
    let b := s.rd ra
    let v := s.rd rb
    let vline := b.toNat / 128
    (s.pushFits v a (wsize wd) = false → Waits (.stp rd ra rb disp wd o) s s .pushes) ∧
    (∀ u ps, s.pushFits v a (wsize wd) = true → s.checkCur .write a (wsize wd) = (u, .ok ps) →
      o = false ∨ u.released n t = true → u.cur.awaitsAny ps = false → u.roomFor n ps = true →
      let r := u.storePlaces n t ps (leBytes (wsize wd) (u.rd rd).toNat)
      Ends (.stp rd ra rb disp wd o) s ((r.1.trackAll r.2).pushLines v ps fun line => (r.1.lineRegs n line).filter r.2.contains)) ∧
    (s.pushFits v b 1 = false → Waits (.pushl ra rb) s s .pushes) ∧
    (∀ u ps, s.pushFits v b 1 = true → s.checkCur .read b 1 = (u, .ok ps) →
      Ends (.pushl ra rb) s (u.pushLines v ps fun line => u.lineRegs n line)) ∧
    (s.pushFits v b 1 = true → Near s b 1 → Ends (.pushl ra rb) s (s.refused n t 1 4)) ∧
    (∀ u p rest, s.pushFits v b 1 = true → s.checkCur .read b 1 = (u, .ok (p :: rest)) → (∀ pa, p ≠ .glob pa true) →
      Ends (.pushl ra rb) s (u.refused n t 1 4)) ∧
    (∀ u p rest, s.pushFits v a (wsize wd) = true → s.checkCur .write a (wsize wd) = (u, .ok (p :: rest)) →
      (∀ pa, p ≠ .glob pa true) → o = false ∨ u.released n t = true → u.cur.awaitsAny (p :: rest) = false →
      u.roomFor n (p :: rest) = true →
      let r := u.storePlaces n t (p :: rest) (leBytes (wsize wd) (u.rd rd).toNat)
      Ends (.stp rd ra rb disp wd o) s ((r.1.trackAll r.2).refused n t 1 4)) ∧
    (∀ u pa rest, s.pushFits v b 1 = true → s.checkCur .read b 1 = (u, .ok (.glob pa true :: rest)) → u.pushDests n v = none →
      Ends (.pushl ra rb) s (u.refused n t 1 5)) ∧
    (∀ (w : State) m k cause, k < 4 → (w.refused m (tid k) 1 cause).thread m (tid k) = { w.thread m (tid k) with
      sp := { (w.thread m (tid k)).sp with
        pref := BitVec.ofNat 16 (min 0xFFFF ((w.thread m (tid k)).sp.pref.toNat + 1)), pcause := BitVec.ofNat 4 cause } }) ∧
    (∀ u pa k, s.pushFits v b 1 = true → s.checkCur .read b 1 = (u, .ok [.glob pa true]) → u.pushDests n v = some [k] →
      Ends (.pushl ra rb) s (u.addPush n t (lineOf pa) [k] (u.lineRegs n (lineOf pa)))) ∧
    (∀ id line d, s.stage = some (.held id line d) → ((s.sharers n).any fun k => (s.outRegs k).any fun r => r.id = id) = false →
      Ends (.hold rd ra rb o) s (((s.startTimer n line d).wr rd 0).acquireIf o)) ∧
    (s.stage = none → Near s b 1 →
      (2 ≤ ((s.core n).req.holds.filter fun h => h.thr = t.toNat).length ∨ 4 ≤ (s.core n).req.holds.length →
        Raises (.hold rd ra rb o) s .lease b) ∧
      (((s.core n).req.holds.filter fun h => h.thr = t.toNat).length < 2 → (s.core n).req.holds.length + (s.holdsComing n t).length < 4 →
        Answers (.hold rd ra rb o) s rd 5)) ∧
    (∀ u pa rest h, s.stage = none → s.checkCur .read b 1 = (u, .ok (.glob pa true :: rest)) →
      ((u.core n).req.holds.filter fun h => h.thr = t.toNat).length < 2 → (u.core n).req.holds.length + (u.holdsComing n t).length < 4 →
      ((u.core n).req.holds.find? fun h => h.line = lineOf pa) = some h →
      Ends (.hold rd ra rb o) s (u.wr rd (if h.thr = t.toNat then 2 else 3))) ∧
    (o = true → s.released n t = false → Waits (.unhold rd ra o) s s .release) ∧
    (o = false ∨ s.released n t = true →
      (∀ h, ((s.core n).req.holds.find? fun h => h.thr = t.toNat && h.vline = vline) = some h →
        Ends (.unhold rd ra o) s ((s.endHold n h false).wr rd 0)) ∧
      (((s.core n).req.holds.find? fun h => h.thr = t.toNat && h.vline = vline) = none → s.cur.run.endings.contains vline = false →
        Answers (.unhold rd ra o) s rd 2) ∧
      (((s.core n).req.holds.find? fun h => h.thr = t.toNat && h.vline = vline) = none → s.cur.run.endings.contains vline = true →
        Ends (.unhold rd ra o) s ((s.onCur fun th => { th with run := { th.run with
          endings := th.run.endings.filter (· != vline) } }).wr rd 1))) ∧
    (b = 0 → Answers (.dqpush rd ra) s rd 2) ∧
    (b ≠ 0 → 64 ≤ s.curCore.deque.length → Answers (.dqpush rd ra) s rd 1) ∧
    (b ≠ 0 → s.curCore.deque.length < 64 → s.released n t = false → Waits (.dqpush rd ra) s s .release) ∧
    (b ≠ 0 → s.curCore.deque.length < 64 → s.released n t = true →
      Ends (.dqpush rd ra) s ((s.onCurCore fun c => { c with deque := b :: c.deque }).wr rd 0)) ∧
    (∀ x rest, s.stage = none → s.curCore.deque = x :: rest →
      Ends (.dqpop rd wait) s ((((s.onCurCore fun c => { c with deque := rest }).wr rd x).sign n t x).acquireIf (x != 0))) ∧
    (s.stage = none → s.curCore.deque = [] → Waits (.dqpop rd wait) s s (.steal (s.victims n) true)) ∧
    (∀ left sent, s.stage = some (.steal left sent) → Waits (.dqpop rd wait) s s (.steal left true)) ∧
    (s.stage = some (.deqGot 0) → wait = true → Waits (.dqpop rd wait) s s .deque) ∧
    (∀ x, s.stage = some (.deqGot x) → x ≠ 0 ∨ wait = false →
      Ends (.dqpop rd wait) s (((s.wr rd x).sign n t x).acquireIf (x != 0))) ∧
    (∀ c k left, k < 4 → (s.thread c (tid k)).run.wait = some (.steal left true) →
      let run := stealRun c left
      let rest := left.drop run.length
      ∃ u, exec (.stealRequest c k) s = .next u ∧
      (∀ m x q, run.find? (fun j => !(s.core j).deque.isEmpty) = some m → (s.core m).deque = q ++ [x] → x ≠ 0 →
        (u.core m).deque = q ∧ (u.thread c (tid k)).run.wait = some (.deqGot x)) ∧
      (run.find? (fun j => !(s.core j).deque.isEmpty) = none →
        (u.thread c (tid k)).run.wait = some (if rest.isEmpty then .deqGot 0 else .steal rest false) ∧
        ∀ j, (u.core j).deque = (s.core j).deque)) ∧
    (∀ c k, (s.thread c (tid k)).run.wait = some .deque → s.mayGain c = true →
      exec (.dqpopResearch c k) s = .next (s.waitFor c (tid k) none)) ∧
    (∀ c k ps x a again, (s.thread c (tid k)).run.wait = some (.word ps x a again) →
      exec (.waitwReread c k) s = .next (s.waitFor c (tid k) (some (.word ps x a true)))) ∧
    (∀ c h, ((s.core c).req.holds.find? fun x => x.thr = h.thr && x.line = h.line) = some h → h.dur = some 0 →
      exec (.holdTimerExpiry c h.thr h.line) s = .next (s.endHold c h true))

/-- Registrations, reads and atomics at home; messages, replies, pushed copies and fills at a core. A registration that no
earlier request for one of its words precedes and that needs nothing more merges its bytes into home, records the core
as owner of its words, sends an invalidation to every other recorded receiver of a pushed copy, clears the record and
replies with its words as home then has them; so are reads and atomics performed, an atomic leaving the combined word
in memory. A message that is due is served at a core without a hold on the line; behind a hold it is queued, last, and
changes no cache and no memory. A reply makes the words that it brings, and that the core still owns, O with its
values. An invalidation ends a pushed copy sent before it: no longer pushed, its V words I. A pushed copy is refused
with cause 1 at LQUOTA, with 3 on a held line that is in L1, and each outcome counts once at its sender. L1I fills
with home's bytes. Concludes that exec answers a next state, on conditions on state and operands alone, for:
pushArrival, pushOutcome, pushInvalidation, registration, registrationReply, readMiss, forward, revoke, homeAtomic,
l1iFill, tlbEntryLeave. (R280, R281, R284, R285, R287, R257, R259, R261, R262, R263, R266, R197) -/
def Obligations.HomeAndCoreMessages : Prop :=
  ∀ (s : State) (line : Nat),
    let ready (r : HomeReq) : Prop :=
      s.atHead r = true ∧ r.probes = [] ∧ s.needs r = 0 ∧ s.copyAhead r = false ∧ s.heldSince r = false ∧
      (r.isReg = true ∨ s.replyAhead r.core r.line = false)
    let stores (x : HomeReq) : Bool := match x.op with | .reg _ _ | .write _ => true | _ => false
    (∀ r bytes words, (s.mem.homeq.find? fun x => x.id = r.id && stores x) = some r → ready r → r.op = .reg bytes words →
      ∃ u, exec (.registration r.id) s = .next u ∧ u = s.performReg r bytes words ∧
        ((s.dirOf r.line).slotFor (BitVec.ofNat 18 r.core) ≠ none → ∀ w ∈ wordsOf words,
          (u.dirOf r.line).owner w = some (BitVec.ofNat 18 r.core)) ∧
        (∃ v, u.mem.replies = s.mem.replies ++ [(⟨r.id, r.core, r.line, v, words⟩ : RegReply)] ∧
          (v.map fun x => (x.1, x.2.1)) = (wordsOf words).map fun w => (w.toNat, u.cellWord r.line w)) ∧
        (Memory.wf s.mem.cells = true → (bytes.map Prod.fst).Nodup → ∀ b ∈ bytes, u.cell b.1 = b.2) ∧
        (∀ k, k ∈ (s.dirOf r.line).push.receivers → k ≠ r.core →
          ∃ p ∈ u.mem.probes, p.kind = .inv ∧ p.core = k ∧ p.line = r.line ∧ p.req = r.id) ∧
        (u.dirOf r.line).push = .cores [] ∧
        u.mem.homeq = s.mem.homeq.filter fun x => !(x.id = r.id && x.line = r.line)) ∧
    (∀ r bytes, (s.mem.homeq.find? fun x => x.id = r.id && stores x) = some r → ready r → r.op = .write bytes →
      exec (.registration r.id) s = .next (s.performWrite r bytes)) ∧
    (∀ r kind sw, (s.mem.homeq.find? fun x => x.line = line && match x.op with | .read _ _ => true | _ => false) = some r → ready r →
      r.op = .read kind sw → exec (.readMiss line) s = .next (s.performRead r kind sw)) ∧
    (∀ r a pa size op v, (s.mem.homeq.find? fun x => x.line = line && match x.op with | .atomic _ _ _ _ => true | _ => false) = some r →
      ready r → r.op = .atomic a pa size op →
      Memory.wf s.mem.cells = true → s.line? r.core r.line = none → (∀ w, s.homePsn r.line w = false) →
      atomicWrite op size (leNat ((List.range size).map fun k => s.cell (pa + k))) = some v →
      ∃ u, exec (.homeAtomic line) s = .next u ∧ u = s.performAtomic r a pa size op ∧
        ∀ x, u.cell x = if pa ≤ x ∧ x < pa + size then (leBytes size v).getD (x - pa) 0 else s.cell x) ∧
    (∀ p kind, (s.mem.probes.find? fun x => x.id = p.id && x.kind == kind) = some p → s.probeDue p = true →
      s.holder p.core p.line = none →
      (kind = .fwd → exec (.forward p.id) s = .next (s.serveProbe p)) ∧ (kind = .rev → exec (.revoke p.id) s = .next (s.serveProbe p)) ∧
      (kind = .inv → exec (.pushInvalidation p.id) s = .next (s.serveProbe p) ∧
        ∀ l, s.line? p.core p.line = some l → l.copy ≠ 0 → l.copy < p.id → ∃ l', (s.serveProbe p).line? p.core p.line = some l' ∧
          l'.push = false ∧ ∀ w, (get32 l'.words w).st = (if (get32 l.words w).st = .v then .i else (get32 l.words w).st))) ∧
    (∀ p n h, (s.mem.probes.find? fun x => x.id = p.id) = some p → s.probeDue p = true → s.holder p.core p.line = some (n, h) →
      ∃ u, exec (match p.kind with
          | .fwd => Instr.forward p.id
          | .rev => .revoke p.id
          | .inv => .pushInvalidation p.id) s = .next u ∧
        (∃ x ∈ (u.core n).req.holds, x.line = h.line ∧ x.thr = h.thr ∧ x.queue = h.queue ++ [p.id]) ∧
        (∃ x ∈ u.mem.probes, x.id = p.id ∧ x.queued = true) ∧ u.mem.cells = s.mem.cells ∧ u.mem.dir = s.mem.dir ∧
        (∀ k, (u.core k).mem = (s.core k).mem)) ∧
    (∀ r, (s.mem.replies.find? fun x => x.id = r.id) = some r → s.replyDue r = true →
      exec (.registrationReply r.id) s = .next (s.takeReply r) ∧
      ∀ l, s.line? r.core r.line = some l → (∀ x ∈ r.words, x.1 < 32) → (r.words.map Prod.fst).Nodup →
        ∃ l', (s.takeReply r).line? r.core r.line = some l' ∧
          ∀ x ∈ r.words, r.live.getLsbD x.1 = true → get32 l'.words (BitVec.ofNat 5 x.1) = ⟨.o, x.2.1, 0, x.2.2⟩) ∧
    (∀ m, (s.mem.pushes.find? fun x => x.id = m.id) = some m → m.outcome = none →
      exec (.pushArrival m.id) s = .next (s.pushLands m) ∧
      ((s.core m.dest).regs.lquota.toNat ≤ ((s.core m.dest).mem.l1.filter fun l => l.push && !l.touched).length →
        s.pushOutcome m = 1 ∧ ((s.pushLands m).core m.dest).mem = (s.core m.dest).mem) ∧
      (((s.core m.dest).mem.l1.filter fun l => l.push && !l.touched).length < (s.core m.dest).regs.lquota.toNat →
        ((s.core m.dest).mem.l1.filter fun l => l.num % 16 = m.line % 16).length < 4 → (s.holder m.dest m.line).isSome = true →
        s.pushOutcome m = 3 ∧ ((s.pushLands m).core m.dest).mem = (s.core m.dest).mem)) ∧
    (∀ m k, (s.mem.pushes.find? fun x => x.id = m.id) = some m → m.outcome = some k → m.thr < 4 →
      ∃ u, exec (.pushOutcome m.id) s = .next u ∧ u.mem.pushes = (s.mem.pushes.filter fun x => x.id != m.id) ∧
        (k = 0 → (u.thread m.core (tid m.thr)).sp.pacc = addCount (s.thread m.core (tid m.thr)).sp.pacc m.count ∧
          (u.thread m.core (tid m.thr)).sp.pref = (s.thread m.core (tid m.thr)).sp.pref) ∧
        (k ≠ 0 → (u.thread m.core (tid m.thr)).sp.pref = addCount (s.thread m.core (tid m.thr)).sp.pref m.count ∧
          (u.thread m.core (tid m.thr)).sp.pcause = BitVec.ofNat 4 k)) ∧
    (∀ n, (s.core n).mem.fills.contains line = true → s.homeFree line 0xFFFFFFFF = true →
      exec (.l1iFill n line) s = .next (s.fillIline n line) ∧
      ∃ l, l ∈ ((s.fillIline n line).core n).mem.l1i ∧ l.num = line ∧ l.bytes = s.homeBytes (line * 128) 128) ∧
    (∀ n k, exec (.tlbEntryLeave n false k) s = .next (s.onCore n fun c => { c with mem := { c.mem with tlb := c.mem.tlb.eraseIdx k } }) ∧
      exec (.tlbEntryLeave n true k) s =
        .next { s with ctlb := s.ctlb.map fun c => if c.1 = clusterOf n then (c.1, c.2.eraseIdx k) else c })

/-- SYNC, EXCH, REDV, DOMSET, DOMGET, FREEZE and STOP. SYNC ends with an acquire once its barrier has completed; as its
core's only active thread, with everything performed and the engines idle, it makes the core arrive and waits, or
traps EXCHANGE (4) when the plan exceeds 8,192 bytes. EXCH checks size and alignment (6), ranges (1), membership (2)
and the plan's 32 places (3) in that order, else appends its transfer; with the clear form it empties the plan. REDV
contributes and its result is on its way. DOMSET sets the pending value (0), or gives 1 for an invalid one and 3 while
one is pending. DOMGET reads DOM, the member count, the rank and SSTEP. FREEZE at S level requests a freeze (0) unless
one is pending (1). STOP waits for tags and commands, reports a failure, checks the plan, then waits for the release,
traps no more, and ends the thread. Concludes that exec answers a next state, on conditions on state and operands
alone, for: sync, exch, redv, domset, domget, freeze, stop. (R296, R298, R301, R302, R305, R313, R177, R299) -/
def Obligations.SuperstepInstructions : Prop :=
  ∀ (s : State) (rd ra rb : Reg) (dst : BitVec 15) (ch sel : BitVec 2) (op : RedOp) (ty : RedType) (sat : Bool),
    let n := s.ctx.core
    let t := s.ctx.thr
    let me := s.identity n
    let x : Xfer := { d := (s.rd rd).toNat % 2 ^ 23, s := (s.rd ra).toNat % 2 ^ 15, t := dst.toNat, n := (s.rd rb).toNat % 2 ^ 32 }
    let k := s.domKey n
    let misfit := x.n = 0 ∨ 8192 < x.n ∨ x.n % 16 ≠ 0 ∨ x.s % 16 ≠ 0 ∨ x.t % 16 ≠ 0
    let outside := s.localEnd n < x.s + x.n ∨ s.localEnd n < x.t + x.n
    let exch := Instr.exch rd ra rb dst false
    (∀ level unit, s.stage = some (.synced level unit) → Ends .sync s ((s.acquire n).syncReturned level unit)) ∧
    (s.stage = none → s.cur.run.arrived = none → s.cur.loadsLanded = true → s.released n t = true → s.curCore.activeThreads = [t.toNat] →
      s.enginesIdle n = true → s.curCore.sup.arrived = false →
      (planBytes s.curCore.sup.plan ≤ 8192 → ∃ u, exec .sync s = .next u ∧ u.ctx.fate = .stalled ∧ u.curCore.sup.arrived = true ∧
        u.cur.run.wait = some (.sync s.nextId) ∧ u.cur.run.arrived = some s.nextId ∧ u.cur.regs = s.cur.regs) ∧
      (8192 < planBytes s.curCore.sup.plan → ∃ u, exec .sync s = .next u ∧ u.ctx.fate = .trapped ∧ u.cur.trap.tcause = 0x11 ∧
        u.cur.trap.tval = exchTval 4 me)) ∧
    (exec (.exch rd ra rb dst true) s = .next (s.onPlan n fun _ => []).retire) ∧
    (misfit → Raises exch s .exchange (exchTval 6 me)) ∧
    (¬ misfit → outside → Raises exch s .exchange (exchTval 1 x.d)) ∧
    (¬ misfit → ¬ outside → s.namesMember k x.d = false → Raises exch s .exchange (exchTval 2 x.d)) ∧
    (¬ misfit → ¬ outside → s.namesMember k x.d = true → 32 ≤ s.curCore.sup.plan.length → Raises exch s .exchange (exchTval 3 me)) ∧
    (¬ misfit → ¬ outside → s.namesMember k x.d = true → s.curCore.sup.plan.length < 32 →
      Ends exch s (s.onPlan n fun l => l ++ [x])) ∧
    Ends (.redv rd ra ch op ty sat) s (((({ s with nextId := s.nextId + 1 }).onBar k fun b => { b with red := b.red ++
      ([⟨n, t.toNat, s.nextId, s.nextId, ch.toNat, op, ty, sat, s.rd ra⟩] : List Contrib) }).addPend ⟨s.nextId, .redv, [s.cur.regs.dest rd], .zx,
        List.replicate 8 (.miss 0), 0, false, 0, s.level, false⟩).track s.nextId) ∧
    (let v := s.rd ra
     let level := (v.extractLsb' 8 4).toNat
     let table := (v.extractLsb' 0 8).toNat
     let invalid := 4 < level ∨ (level < 4 ∧ table ≠ 0) ∨ (level = 4 ∧ s.entryCovers table n = false)
     (s.curCore.regs.dom.pend = true → Answers (.domset rd ra) s rd 3) ∧
     (s.curCore.regs.dom.pend = false → invalid → Answers (.domset rd ra) s rd 1) ∧
     (s.curCore.regs.dom.pend = false → ¬ invalid → Ends (.domset rd ra) s ((s.onCurCore fun c => { c with regs := { c.regs with
        dom := { c.regs.dom with pend := true, plevel := v.extractLsb' 8 4, ptable := v.extractLsb' 0 8 } } }).wr rd 0))) ∧
    (k.level ≠ 3 → Answers (.domget rd sel) s rd (if sel = 0 then s.curCore.regs.dom.word
      else if sel = 1 then BitVec.ofNat 64 (s.members k).length
      else if sel = 2 then BitVec.ofNat 64 ((s.members k).filter fun m => m < n).length else s.curCore.regs.sstep)) ∧
    (s.level = .s → (s.bar k).freeze = false → Ends (.freeze rd) s ((s.onBar k fun b => { b with freeze := true }).wr rd 0)) ∧
    (s.level = .s → (s.bar k).freeze = true → Answers (.freeze rd) s rd 1) ∧
    (let ends (u : State) : Prop := ∃ v, exec .stop s = .next v ∧ v.ctx.fate = .ended ∧ v.cur.run.life = .stopped ∧
        v.cur.regs = u.cur.regs ∧ v.cur.sp.instret = u.cur.sp.instret + 1
     (s.stage = some .ending → (s.released n t = false → Waits .stop s s .ending) ∧ (s.released n t = true → ends s)) ∧
     (s.stage ≠ some .ending → s.cur.stopTags ≠ 0 → Waits .stop s s (.tags s.cur.stopTags)) ∧
     (s.stage ≠ some .ending → s.cur.stopTags = 0 → s.threadCmds n t.toNat ≠ [] →
       Waits .stop s s (.engines (s.threadCmds n t.toNat))) ∧
     (s.stage ≠ some .ending → s.cur.stopTags = 0 → s.threadCmds n t.toNat = [] →
       (∀ v u, s.failure (fun _ => true) = some (v, u) → exec .stop s = .next (u.trap .engine v)) ∧
       (s.failure (fun _ => true) = none →
         let u := s.mergeFlags fun _ => true
         (∀ why c, u.stopBad n = some (why, c) → exec .stop s = .next (u.trap .exchange (exchTval why c))) ∧
         (u.stopBad n = none → u.released n t = false → Waits .stop s u .ending) ∧
         (u.stopBad n = none → u.released n t = true → ends u))))

/-- A barrier completes when all have arrived; the end of its exchange phase begins the next superstep. While a member has
not arrived nothing happens; with every member arrived and no failing transfer the barrier completes and its exchange
phase begins. At the phase's end, which waits for the records of the domain's tap evaluations, every captured transfer
is in its destination's local memory with its poison, the last of several that write a row, and no other byte has
changed; and at every member that the barrier completed with SSTEP has grown by one, DOM has taken its pending value,
the plan is empty, the arrival is gone and each SYNC that waited may return. Whatever the contributions to a channel:
an integer sum is formed exactly, then wrapped, or clamped with SAT; an integer minimum or maximum is the least or
greatest value; contributions of which any two disagree in op, type or .sat give 0x8000000000000000 with NV. Concludes
that exec answers a next state, on conditions on state and operands alone, for: min, max, barrierComplete,
exchangePhaseEnd. (R296, R299, R303, R304, R305) -/
def Obligations.BarriersAndExchange : Prop :=
  ∀ (s : State) (n : Nat),
    let k := s.domKey n
    (s.barrierReady k = false → exec (.barrierComplete n) s = .next s) ∧
    (s.barrierReady k = true → s.failing k = [] → exec (.barrierComplete n) s = .next (s.completeBarrier k) ∧
      ((s.completeBarrier k).bar k).phase = true ∧ ((s.completeBarrier k).bar k).red = []) ∧
    ((s.bar k).phase = false → ∀ outside, exec (.exchangePhaseEnd n outside) s = .next s) ∧
    ((s.bar k).phase = true → s.tapsPending k = true → ∀ outside, exec (.exchangePhaseEnd n outside) s = .next s) ∧
    ((s.bar k).phase = true → s.tapsPending k = false → (s.bar k).members.Nodup → ∃ u, exec (.exchangePhaseEnd n ⟨[], []⟩) s = .next u ∧
      (∀ m ∈ (s.bar k).members, (u.core m).regs.sstep = (s.core m).regs.sstep + 1 ∧ (u.core m).regs.dom = (s.core m).regs.dom.applied ∧
        (u.core m).sup.plan = [] ∧ (u.core m).sup.arrived = false ∧
        ∀ t, (u.thread m t).run.wait = (if (s.thread m t).run.arrived.isSome then some (.synced k.level k.unit) else (s.thread m t).run.wait) ∧
          (u.thread m t).regs = (s.thread m t).regs) ∧
      (∀ m, m ∉ (s.bar k).members → (u.core m).regs = (s.core m).regs ∧ (u.core m).thr = (s.core m).thr) ∧
      ((∀ x ∈ (s.bar k).xfers, s.lockstep x.dst = false ∧ x.t % 16 = 0 ∧ ∀ r ∈ x.rows, r.1.length = 16) →
        ∀ d y, Memory.wf (s.core d).mem.lmem = true →
        let last := ((s.bar k).xfers.filter fun x => x.dst = d && decide (x.t ≤ y ∧ y < x.t + 16 * x.rows.length)).getLast?
        let row (x : Captured) : List Byte × Bool := x.rows.getD ((y - x.t) / 16) ([], false)
        cellsGet (u.core d).mem.lmem y = (match last with
          | some x => (row x).1.getD (y % 16) 0
          | none => cellsGet (s.core d).mem.lmem y) ∧
        (y / 16 ∈ (u.core d).mem.lpsn ↔ match last with
          | some x => (row x).2 = true
          | none => y / 16 ∈ (s.core d).mem.lpsn))) ∧
    (∀ (l : List Contrib) (ty : RedType) (sat : Bool), l ≠ [] → ty = .i64 ∨ ty = .n64 →
      (∀ x ∈ l, x.op = .sum ∧ x.ty = ty ∧ x.sat = sat) →
      let int (x : Contrib) : Int := if ty = .i64 then x.val.toInt else x.val.toNat
      let lo : Int := if ty = .i64 then - 2 ^ 63 else 0
      let hi : Int := if ty = .i64 then 2 ^ 63 - 1 else 2 ^ 64 - 1
      let sum := l.foldl (fun a x => a + int x) 0
      let near := if sum < lo then lo else if hi < sum then hi else sum
      redResult l = if sat then (BitVec.ofInt 64 near, if near = sum then 0 else 0x20) else (BitVec.ofInt 64 sum, 0)) ∧
    (∀ (l : List Contrib) (ty : RedType) (op : RedOp), l ≠ [] → ty = .i64 ∨ ty = .n64 → op = .min ∨ op = .max →
      (∀ x ∈ l, x.op = op ∧ x.ty = ty ∧ x.sat = false) →
      let int (x : Word) : Int := if ty = .i64 then x.toInt else x.toNat
      (∃ x ∈ l, redResult l = (x.val, 0)) ∧
      ∀ x ∈ l, if op = .min then int (redResult l).1 ≤ int x.val else int x.val ≤ int (redResult l).1) ∧
    (∀ (l : List Contrib) (a b : Contrib), a ∈ l → b ∈ l → a.op ≠ b.op ∨ a.ty ≠ b.ty ∨ a.sat ≠ b.sat →
      redResult l = (0x8000000000000000, 1))

/-- CXOPEN, CXCLOSE, CXCOMMIT, CXSETTLE, CXWAITB, CXSTATE and CXFORK. A request of the sequencer waits for its release and
is refused with 1 (rd = 2^63 + code) where sequences are off or the handle is not open. CXOPEN of a good template
opens the sequence with E, settled generation 0, SHW = HW, no parent (0); a handle in use gives 13. CXCLOSE gives 12
with tasks outstanding, 5 with a lent slab, waits for queued work, else closes (0): the handle is no longer open.
CXCOMMIT gives 2 without an outstanding task, 1 for an entry not F, else applies the commit (0). CXSETTLE and CXWAITB
answer at once, as an acquire, when the map or the entry is V, else park. CXSTATE reads state, generations, counts,
and at S level clears TAPPED and FAULTED unless halted. CXFORK needs a settled parent (7) without MOVING (14) and a
FREE child (13), and creates the child. When a record counts as taken for 13 (the part's own list or the byte in
memory) and that a sequence of another SEQBASE is not named are the model's choices, logs 99 and 98: DESIGN CHOICE.
Concludes that exec answers a next state, on conditions on state and operands alone, for: cxopen, cxclose, cxcommit,
cxsettle, cxwaitb, cxstate, cxfork. (R321, R323, R331, R332, R333, R335, R336, R337, R339, R340, R341, R344) -/
def Obligations.SequenceRequests : Prop :=
  ∀ (s : State) (rd ra rb rc : Reg) (sel : BitVec 2) (rekey : Bool),
    let n := s.ctx.core
    let h := handleOf (s.rd ra)
    let tv := s.rd rb
    let b := tv.toNat
    let layer := (tv.extractLsb' 0 8).toNat
    let blk := ((s.rd rc).extractLsb' 0 20).toNat
    let code (c : Nat) : Word := BitVec.ofNat 64 (2 ^ 63 + c)
    (s.released n s.ctx.thr = false → ∀ i ∈ [Instr.cxopen rd ra rb, .cxclose rd ra, .cxcommit rd ra rb rc, .cxfork rd ra rb rc rekey],
      (∀ v, s.stage ≠ some (.reply v)) → Waits i s s .release) ∧
    (∀ v, s.stage = some (.reply v) →
      ∀ i ∈ [Instr.cxopen rd ra rb, .cxclose rd ra, .cxcommit rd ra rb rc, .cxfork rd ra rb rc rekey, .cxstate rd ra sel],
        Replies i s s rd v) ∧
    (s.released n s.ctx.thr = true → s.seqPart = none → (∀ v, s.stage ≠ some (.reply v)) →
      ∀ i ∈ [Instr.cxopen rd ra rb, .cxclose rd ra, .cxcommit rd ra rb rc, .cxfork rd ra rb rc rekey], Answers i s rd (code 1)) ∧
    (∀ p, s.released n s.ctx.thr = true → s.seqPart = some p → (∀ v, s.stage ≠ some (.reply v)) →
      (s.seqOf p.id h = none → Answers (.cxclose rd ra) s rd (code 1) ∧ Answers (.cxfork rd ra rb rc rekey) s rd (code 1) ∧
        Answers (.cxcommit rd ra rb rc) s rd 2) ∧
      (∀ s1, s.sees p.id [(p.record h, 256), (b, 96)] = (s1, false) → Waits (.cxopen rd ra rb) s s1 .release) ∧
      (∀ s1, s.sees p.id [(p.record h, 256), (b, 96)] = (s1, true) →
        (∀ c, s1.openHead p h b = .error c → Ends (.cxopen rd ra rb) s (s1.wr rd (refusal c))) ∧
        (s1.mapped p.id .write (p.record h) 256 = true → s1.recordTaken p h = true → Ends (.cxopen rd ra rb) s (s1.wr rd (code 13))) ∧
        (s1.mapped p.id .write (p.record h) 256 = false → Ends (.cxopen rd ra rb) s (s1.wr rd (code 10))) ∧
        (∀ q0 s2, s1.openHead p h b = .ok q0 → s1.sees p.id q0.openRanges = (s2, false) → Waits (.cxopen rd ra rb) s s2 .release) ∧
        (∀ q0 s2 c, s1.openHead p h b = .ok q0 → s1.sees p.id q0.openRanges = (s2, true) → s2.openSeq q0 = .error c →
          Ends (.cxopen rd ra rb) s (s2.wr rd (refusal c))) ∧
        (∀ q0 s2 q, s1.openHead p h b = .ok q0 → s1.sees p.id q0.openRanges = (s2, true) → s2.openSeq q0 = .ok q →
          Replies (.cxopen rd ra rb) s (s2.install17 p q) rd 0 ∧
          q.handle = h ∧ q.part = p.id ∧ q.base = p.seqbase ∧ q.edit = 0 ∧ q.settled = 0 ∧ q.shw = q.hw ∧ q.hdr.child = false ∧
          q.hdr.parent = 0xFFFFFFFF ∧ q.tapped = false ∧ q.faulted = false ∧ 1 ≤ q.hdr.bs ∧ q.hdr.bs ≤ 8 ∧ q.hdr.layers ≠ 0 ∧
          q.hdr.rfmt ≠ 3 ∧ q.len ≤ 2 ^ 24 ∧ q.len ≤ q.hw ∧ q.hw ≤ 2 ^ 28 ∧ q.order.length = q.len ∧ q.slots.length = q.hw ∧
          (∀ e ∈ q.map, e.out = false ∧ (e.st = some .d ∧ e.repair = false ∨ e.st = some .q ∧ e.repair = true)))) ∧
      (∀ q, s.seqOf p.id h = some q →
        (0 < q.outstanding → Answers (.cxclose rd ra) s rd (code 12)) ∧
        (q.outstanding = 0 → (∃ x ∈ q.slabs, x.lends ≠ 0) → Answers (.cxclose rd ra) s rd (code 5)) ∧
        (q.outstanding = 0 → (∀ x ∈ q.slabs, x.lends = 0) → s.seqBusy p.id h = true → Waits (.cxclose rd ra) s s .queue) ∧
        (q.outstanding = 0 → (∀ x ∈ q.slabs, x.lends = 0) → s.seqBusy p.id h = false →
          Replies (.cxclose rd ra) s (s.closeSeq p q) rd 0 ∧ (s.closeSeq p q).seqOf p.id h = none) ∧
        (let w := s.rd ra
         let l := (w.extractLsb' 20 8).toNat
         let k := (w.extractLsb' 28 20).toNat
         let past (d : BitVec 32) : Bool := exceeds (deltaOf (w.extractLsb' 56 8).toNat d) q.hdr.tau
         let e := q.ent l k
         (e.out = false → Answers (.cxcommit rd ra rb rc) s rd 2) ∧
         (e.out = true → e.st ≠ some .f → Replies (.cxcommit rd ra rb rc) s (s.putSeq q (q.setEnt { e with out := false })) rd 1) ∧
         (e.out = true → e.st = some .f → Replies (.cxcommit rd ra rb rc) s
           ((s.putSeq q (q.commit l k (past (tv.extractLsb' 0 32)) (past ((s.rd rc).extractLsb' 0 32)))).unquarantine p.id h l k) rd 0)) ∧
        (∀ s1, s.sees p.id (forkRanges p q (handleOf tv) (s.rd rc).toNat) = (s1, false) →
          Waits (.cxfork rd ra rb rc rekey) s s1 .release) ∧
        (∀ s1 s2, s.sees p.id (forkRanges p q (handleOf tv) (s.rd rc).toNat) = (s1, true) →
          s1.sees p.id (s1.childRanges p q (handleOf tv) (s.rd rc).toNat) = (s2, false) → Waits (.cxfork rd ra rb rc rekey) s s2 .release) ∧
        (∀ s1 s2, s.sees p.id (forkRanges p q (handleOf tv) (s.rd rc).toNat) = (s1, true) →
          s1.sees p.id (s1.childRanges p q (handleOf tv) (s.rd rc).toNat) = (s2, true) →
          let gives (c : Nat) : Prop := Ends (.cxfork rd ra rb rc rekey) s (s2.wr rd (code c))
          (∀ c, s2.forkSeq p q (handleOf tv) (s.rd rc).toNat rekey = .error c →
            Ends (.cxfork rd ra rb rc rekey) s (s2.wr rd (refusal c))) ∧
          (s2.recordTaken p (handleOf tv) = true → gives 13) ∧
          (s2.recordTaken p (handleOf tv) = false → q.allV = false → gives 7) ∧
          (s2.recordTaken p (handleOf tv) = false → q.allV = true → (∃ x ∈ q.slabs, x.moving = true) → gives 14) ∧
          (∀ c, s2.forkSeq p q (handleOf tv) (s.rd rc).toNat rekey = .ok c →
            Replies (.cxfork rd ra rb rc rekey) s ((s2.forkCopies p q c).install17 p c) rd 0 ∧
            c.handle = handleOf tv ∧ c.part = q.part ∧ c.base = q.base ∧ c.len = q.len ∧ c.hw = q.hw ∧ c.shw = q.hw ∧ c.tombs = q.tombs ∧ c.order = q.order ∧
            c.slots = q.slots ∧ c.map = [] ∧ c.ctr = q.ctr ∧ (rekey = false → c.key = q.key) ∧ c.edit = 0 ∧ c.settled = 0 ∧
            c.hdr.child = true ∧ c.hdr.parent = BitVec.ofNat 32 q.handle ∧
            ∀ j, j < q.hdr.layers → (c.slab j).shbase = (q.slab j).base ∧ (c.slab j).shcount = q.hw ∧ (c.slab j).shared = true ∧
              (c.slab j).moving = false ∧ (c.slab j).lends = 0 ∧ (c.slab j).stride = (q.slab j).stride)))) ∧
    (s.seqHere h = none → (∀ v, s.stage ≠ some (.granted v)) → Answers (.cxsettle rd ra) s rd (code 1) ∧ Answers (.cxwaitb rd ra rb rc) s rd (code 1)) ∧
    (∀ q, (∀ v, s.stage ≠ some (.granted v)) → s.seqHere h = some q →
      (q.allV = true → Ends (.cxsettle rd ra) s ((s.wr rd (q.edit.setWidth 64)).acquire n)) ∧
      (q.allV = false → Waits (.cxsettle rd ra) s s (.settle h)) ∧
      (q.hdr.layers ≤ layer ∨ 2 ^ (24 - q.hdr.bs) ≤ blk → Answers (.cxwaitb rd ra rb rc) s rd (code 2)) ∧
      (layer < q.hdr.layers → blk < 2 ^ (24 - q.hdr.bs) →
        ((q.ent layer blk).st = none → Ends (.cxwaitb rd ra rb rc) s ((s.wr rd 0).acquire n)) ∧
        ((q.ent layer blk).st ≠ none → Waits (.cxwaitb rd ra rb rc) s s (.block h layer blk)))) ∧
    (∀ v, s.stage = some (.granted v) → Ends (.cxsettle rd ra) s ((s.wr rd v).acquire n) ∧
      Ends (.cxwaitb rd ra rb rc) s ((s.wr rd v).acquire n)) ∧
    (sel = 2 → s.level = .u → (∀ v, s.stage ≠ some (.reply v)) → Raises (.cxstate rd ra sel) s .priv s.ctx.word) ∧
    (sel ≠ 2 ∨ s.level = .s → s.seqHere h = none → (∀ v, s.stage ≠ some (.reply v)) → Answers (.cxstate rd ra sel) s rd (code 1)) ∧
    (∀ q, s.seqHere h = some q → (∀ v, s.stage ≠ some (.reply v)) →
      (∃ v, Answers (.cxstate rd ra 0) s rd v ∧ v.extractLsb' 48 16 = q.settled ∧ v.extractLsb' 32 16 = q.edit ∧
        v.extractLsb' 0 32 = BitVec.ofNat 32 (leNat (q.recBytes.take 4))) ∧
      (q.map.length < 2 ^ 32 → ∃ v, Answers (.cxstate rd ra 1) s rd v ∧ v.extractLsb' 32 32 = BitVec.ofNat 32 q.outstanding ∧
        v.extractLsb' 0 32 = BitVec.ofNat 32 (q.map.filter fun e => e.st = some .d ∨ e.st = some .q).length) ∧
      (s.level = .s → q.halted = true → Answers (.cxstate rd ra 2) s rd (code 8)) ∧
      (s.level = .s → q.halted = false →
        Replies (.cxstate rd ra 2) s (s.putSeq q { q with tapped := false, faulted := false }) rd 0))

/-- CXINS, CXREP, CXDEL and CXLEN: positions, slots, marks, E, L, HW, and what they give. An edit that its operands or its
pages do not allow is refused with the code of the table (the first that applies) and changes nothing. A served edit
gives the new E; CXINS puts n fresh live slots with the tokens read from HW on at position p, L and HW grow by n,
later slots take their new positions; CXREP keeps both and sets the tokens of the slots at its positions, those alone;
CXDEL takes n positions out, their slots lose LIVE, L shrinks, tombstones grow, later slots move down. Each marks the
entries of the table: a marked entry is V no more, one in flight is D; an unmarked V entry stays V; blocks without a
position are V. E grows by one modulo 2^16. That code 10 asks for write permission of the words written, and read
permission of the tokens, is the model's reading (log 54). CXLEN appends k positions in slots HW on, L, HW and the
committed counter grow by k, rd is the new L. Local memory and every register but rd stay as they were. Concludes that
exec answers a next state, on conditions on state and operands alone, for: cxins, cxrep, cxdel, cxlen. (R325, R333,
R335, R338, R342) -/
def Obligations.SequenceEdits : Prop :=
  ∀ (s : State) (rd ra rb rc : Reg) (p : Partition) (q : Seq),
    let h := handleOf (s.rd ra)
    let at0 := editPos (s.rd rb)
    let n := editCount (s.rd rb)
    let k := (s.rd rb).toNat
    let tva := (s.rd rc).toNat
    let code (c : Nat) : Word := BitVec.ofNat 64 (2 ^ 63 + c)
    let quiet (u : State) : Prop := u.ctx = s.ctx ∧ u.cur.regs = s.cur.regs ∧ u.cur.sp = s.cur.sp ∧ u.cur.trap = s.cur.trap ∧
      u.cur.loops = s.cur.loops ∧ u.cur.level = s.cur.level ∧ ∀ m, (u.core m).mem.lmem = (s.core m).mem.lmem
    let size (e : Edit) : Nat := if e = .del then 0 else 4 * n
    let touched (e : Edit) (tva : Nat) : List (Nat × Nat) := (tva, size e) :: q.editRanges e at0 n
    let words (e : Edit) (tva : Nat) (s1 : State) : Prop := s1.mapped q.part .read tva (size e) = true ∧
      (let q1 := q.edited e at0 n (tokensOf (s1.readPart q.part tva (size e)) n)
       s1.editMapped q1 (editSlots q q1 e at0 n) (editOrders q1 e at0)
         (q1.editMarks e at0 n q.blocks ++ (q.map.filter fun x => q1.blocks ≤ x.blk).map fun x => (x.layer, x.blk)) = true)
    let waits (i : Instr) (e : Edit) (tva : Nat) : Prop :=
      (∀ s1, s.editRefusal q e at0 n = none → s.sees q.part (touched e tva) = (s1, false) → Waits i s s1 .release) ∧
      (∀ s1, s.editRefusal q e at0 n = none → s.sees q.part (touched e tva) = (s1, true) → ¬ words e tva s1 →
        Ends i s (s1.wr rd (code 10)))
    let fits (e : Edit) (tva : Nat) (s1 : State) : Prop := s.editRefusal q e at0 n = none ∧
      s.sees q.part (touched e tva) = (s1, true) ∧ words e tva s1
    let token (s1 : State) (j : Nat) : BitVec 32 := BitVec.ofNat 32 (leNat (((s1.readPart q.part tva (4 * n)).drop (4 * j)).take 4))
    let block (x : Nat) : Nat := x / 2 ^ q.hdr.bs
    let blocks (len : Nat) : Nat := (len + 2 ^ q.hdr.bs - 1) / 2 ^ q.hdr.bs
    let marked (e : Edit) (l b : Nat) : Prop := match e with
      | .rep => l = 0 ∧ block at0 ≤ b ∧ b ≤ block (at0 + n - 1)
      | .ins => (l = 0 ∧ block at0 ≤ b) ∨
          (l < q.hdr.layers ∧ ((block at0 ≤ b ∧ b ≤ block (at0 + n - 1)) ∨ blocks q.len ≤ b))
      | .del => l = 0 ∧ block at0 ≤ b
    let marks (e : Edit) (r : Seq) : Prop := (q.map.map fun x => (x.layer, x.blk)).Nodup → ∀ l b,
      (b < blocks r.len → marked e l b → (r.ent l b).st ≠ none ∧
        ((q.ent l b).st = some .f → (q.ent l b).out = true → (r.ent l b).st = some .d)) ∧
      (b < blocks r.len → ¬ marked e l b → (q.ent l b).st = none → (r.ent l b).st = none) ∧
      (blocks r.len ≤ b → (r.ent l b).st = none)
    let sound : Prop := q.order.Nodup ∧ q.order.length = q.len ∧ q.slots.length = q.hw ∧ ∀ x ∈ q.order, x < q.hw
    let slot (r : Seq) (x : Nat) : Option Slot := r.slots[x]?
    (∀ v, s.stage = some (.reply v) →
      ∀ i ∈ [Instr.cxins rd ra rb rc, .cxrep rd ra rb rc, .cxdel rd ra rb, .cxlen rd ra rb rc], Replies i s s rd v) ∧
    ((∀ v, s.stage ≠ some (.reply v)) → s.released s.ctx.core s.ctx.thr = true → s.seqPart = some p → s.seqOf p.id h = some q →
    (∀ c, s.editRefusal q .ins at0 n = some c → Answers (.cxins rd ra rb rc) s rd (refusal c)) ∧
    (∀ c, s.editRefusal q .rep at0 n = some c → Answers (.cxrep rd ra rb rc) s rd (refusal c)) ∧
    (∀ c, s.editRefusal q .del at0 n = some c → Answers (.cxdel rd ra rb) s rd (refusal c)) ∧
    (n = 0 ∨ q.len < at0 → Answers (.cxins rd ra rb rc) s rd (code 2)) ∧
    (n = 0 ∨ q.len < at0 + n → Answers (.cxrep rd ra rb rc) s rd (code 2) ∧ Answers (.cxdel rd ra rb) s rd (code 2)) ∧
    (n ≠ 0 → at0 ≤ q.len → 2 ^ 24 < q.len + n → Answers (.cxins rd ra rb rc) s rd (code 3)) ∧
    (n ≠ 0 → at0 + n ≤ q.len → (∃ x ∈ q.slabs, x.lends ≠ 0) →
      Answers (.cxrep rd ra rb rc) s rd (code 5) ∧ Answers (.cxdel rd ra rb) s rd (code 5)) ∧
    waits (.cxins rd ra rb rc) .ins tva ∧ waits (.cxrep rd ra rb rc) .rep tva ∧ waits (.cxdel rd ra rb) .del 0 ∧
    (∀ s1, fits .ins tva s1 → ∃ u r, Replies (.cxins rd ra rb rc) s u rd ((q.edit + 1).setWidth 64) ∧ quiet u ∧ u.seqOf p.id h = some r ∧
      r.edit = q.edit + 1 ∧ r.len = q.len + n ∧ r.hw = q.hw + n ∧ r.tombs = q.tombs ∧
      r.order = q.order.take at0 ++ (List.range n).map (q.hw + ·) ++ q.order.drop at0 ∧ marks .ins r ∧
      (sound → (∀ j, j < n → slot r (q.hw + j) = some ⟨token s1 j, true, at0 + j⟩) ∧
        ∀ j, j < q.len → slot r (q.order.getD j 0) =
          (slot q (q.order.getD j 0)).map fun x => if j < at0 then x else { x with pos := j + n })) ∧
    (∀ s1, fits .rep tva s1 → ∃ u r, Replies (.cxrep rd ra rb rc) s u rd ((q.edit + 1).setWidth 64) ∧ quiet u ∧ u.seqOf p.id h = some r ∧
      r.edit = q.edit + 1 ∧ r.len = q.len ∧ r.hw = q.hw ∧ r.tombs = q.tombs ∧ r.order = q.order ∧ marks .rep r ∧
      (sound → (∀ j, j < n → slot r (q.order.getD (at0 + j) 0) =
          (slot q (q.order.getD (at0 + j) 0)).map fun x => { x with token := token s1 j }) ∧
        ∀ x, x ∉ (q.order.drop at0).take n → slot r x = slot q x)) ∧
    (∀ s1, fits .del 0 s1 → ∃ u r, Replies (.cxdel rd ra rb) s u rd ((q.edit + 1).setWidth 64) ∧ quiet u ∧ u.seqOf p.id h = some r ∧
      r.edit = q.edit + 1 ∧ r.len = q.len - n ∧ r.hw = q.hw ∧ r.tombs = q.tombs + n ∧
      r.order = q.order.take at0 ++ q.order.drop (at0 + n) ∧ marks .del r ∧
      (sound → ∀ j, j < q.len → slot r (q.order.getD j 0) = (slot q (q.order.getD j 0)).map fun x =>
        if j < at0 then x else if j < at0 + n then { x with live := false } else { x with pos := j - n })) ∧
    (let busy := (s.kvCmds s.ctx.core h).any fun c => match c.instr with | .kvapp _ _ _ _ => true | _ => false
     (busy = true → Waits (.cxlen rd ra rb rc) s s .room) ∧
     (busy = false → (∀ c, q.lenRefusal k = some c → Answers (.cxlen rd ra rb rc) s rd (refusal c)) ∧
       (q.faulted = true → Answers (.cxlen rd ra rb rc) s rd (code 9)) ∧
       (q.faulted = false → q.tapped = true → Answers (.cxlen rd ra rb rc) s rd (code 8)) ∧
       (∀ s1, q.lenRefusal k = none → s.sees q.part (q.lenRanges k tva) = (s1, false) → Waits (.cxlen rd ra rb rc) s s1 .release) ∧
       (∀ s1, q.lenRefusal k = none → s.sees q.part (q.lenRanges k tva) = (s1, true) → s1.mapped q.part .read tva (4 * k) = true →
         s1.mapped q.part .write (q.orderAddr q.len) (4 * k) = true → s1.mapped q.part .write (q.slotAddr q.hw) (8 * k) = true →
         ∃ u r, Replies (.cxlen rd ra rb rc) s u rd (BitVec.ofNat 64 (q.len + k)) ∧ quiet u ∧ u.seqOf p.id h = some r ∧
           r.len = q.len + k ∧ r.hw = q.hw + k ∧ r.shw = q.hw + k ∧ r.ctr = q.ctr + BitVec.ofNat 64 k ∧ r.edit = q.edit ∧
           r.order = q.order ++ (List.range k).map (q.hw + ·)))))

/-- KVADDR, KVLD, KVAPP, SLABGROW, LAH, TAP and TAPLD: checks, commands, results. KVADDR traps CONTEXT with the code for
its operands; else base + slot * STRIDE + (V: 2 * HEADS * HDIM) + 2 * HDIM * head of the slot (by number, or that of a
committed or tentative position) is on its way to rd. KVLD and KVAPP wait for a place in the copy queue, check
operands (CONTEXT), the local range (ENGINE 2) and the pages, then enter it, the rows fixed. SLABGROW is refused with
a code or queues the growth (0). LAH traps CONTEXT 2 for a count of 0 or over 32, else gives the entries accepted. TAP
waits for a place, checks its chunk (ENGINE 2), its index (CONTEXT 2) and the core's 16 keys (CONTEXT 15), then enters
the vector-stream queue, its key open. TAPLD traps PRIV at U level; a number over 31 or a bad image gives 2, an open
key 1, no space 3; it installs, removes or reads the tap point. The model's own: a zero handle field in LAH's TVAL
(log 81: DESIGN CHOICE), a queued growth counts as MOVING (log 29: DEDUCED), TAPLD reads its image before it checks it
(log 62: DEDUCED). Concludes that exec answers a next state, on conditions on state and operands alone, for: kvaddr,
kvld, kvapp, slabgrow, lah, tap, tapld. (R325, R327, R333, R334, R343, R346, R347, R348, R352, R356, R358, R360) -/
def Obligations.KeysValuesAndTaps : Prop :=
  ∀ (s : State) (rd ra rb rc : Reg) (rows : BitVec 16) (t : BitVec 5) (op : BitVec 2),
    let n := s.ctx.core
    let h := handleOf (s.rd ra)
    let d := s.rd rc
    let layer := descLayer d
    let cp (i : Instr) : Cmd := s.cmd i (s.rd rd) (s.rd ra) (s.rd rb) (s.rd rc) 0 .rne
    let ctxTrap (i : Instr) (c : Nat) : Prop := Raises i s .context (BitVec.ofNat 64 (c + 256 * h))
    (s.seqHere h = none → ctxTrap (.kvaddr rd ra rb rc) 1) ∧
    (∀ q, s.seqHere h = some q →
      (descBad d true = true → ctxTrap (.kvaddr rd ra rb rc) 11) ∧
      (descBad d true = false → q.hdr.layers ≤ layer ∨ (q.slab layer).heads ≤ descHead d → ctxTrap (.kvaddr rd ra rb rc) 2) ∧
      (descBad d true = false → layer < q.hdr.layers → descHead d < (q.slab layer).heads →
        let x := q.slab layer
        (q.rowOf d (s.rd rb) 0 = none → ctxTrap (.kvaddr rd ra rb rc) 2) ∧
        (∀ slot pos, q.rowOf d (s.rd rb) 0 = some (slot, pos) → descW d = false ∨ (x.moving = false ∧ x.shared = false) →
          let off := slot * x.stride + (if descV d then 2 * x.heads * x.hdim else 0) + 2 * x.hdim * descHead d
          Ends (.kvaddr rd ra rb rc) s (later (s.refer q.part (x.baseOf slot + off) 1) .kvaddr [s.cur.regs.dest rd] .zx
            (leBytes 8 (x.baseOf slot + off)) 0)) ∧
        (∀ slot pos, q.rowOf d (s.rd rb) 0 = some (slot, pos) → ∃ u, exec (.kvaddr rd ra rb rc) s = .next u ∧ u.ctx.fate = .issued ∧
          u.cur.regs = s.cur.regs ∧ ∃ a, u.cur.run.pend = s.cur.run.pend ++ [a] ∧ a.kind = .kvaddr ∧ a.dest = [s.cur.regs.dest rd]))) ∧
    (∀ (q : Seq) (k : Nat), descBySlot d = false → (s.rd rb).extractLsb' 0 24 = BitVec.ofNat 24 k → k < 2 ^ 24 →
      (k < q.len → q.rowOf d (s.rd rb) 0 = (q.order[k]?).map fun x => (x, k)) ∧
      (q.len ≤ k → k < q.len + 64 → q.rowOf d (s.rd rb) 0 = some (q.hw + (k - q.len), k)) ∧
      (q.len + 64 ≤ k → q.rowOf d (s.rd rb) 0 = none)) ∧
    (let i := Instr.kvld rd ra rb rc rows
     let enters (q : Seq) (l : List (Nat × Nat)) : Prop :=
       (∀ x, s.localBad n (s.rd rd).toNat (l.length * 2 * (q.slab layer).hdim) = some x → Raises i s .engine (engTval .cp 2 x)) ∧
       (s.localBad n (s.rd rd).toNat (l.length * 2 * (q.slab layer).hdim) = none → ∀ u ps,
         let pages := (q.kvldRanges d l).flatMap fun r => piecesOf r.1 r.2
         let out := u.spilledAmong q.part pages
         s.kvCheck n s.level .read pages = (u, .ok ps) →
         (out ≠ [] → Waits i s (out.foldl (fun s pa => s.fetchPage (pa * 0x10000)) u) (.spilled q.handle out l)) ∧
         (out = [] → 2 ≤ (u.queue n .cp).length → Waits i s u (.kvRows q.handle l true)) ∧
         (out = [] → (u.queue n .cp).length < 2 →
           let v := (q.kvldRanges d l).foldl (fun s r => s.refer q.part r.1 r.2) u
           Ends i s (queued v .cp { v.cmd i (v.rd rd) (v.rd ra) (v.rd rb) (v.rd rc) 0 .rne with rows := l })))
     (∀ q l, s.kvKept h = some (q, l) → enters q l) ∧
     (s.kvKept h = none → (∀ c, s.kvOperands h d false = .error c → ctxTrap i c) ∧
       (∀ q, s.kvOperands h d false = .ok q →
         (rows = 0 ∨ 256 < rows.toNat → ctxTrap i 2) ∧
         (∀ l, rows ≠ 0 → rows.toNat ≤ 256 → ((List.range rows.toNat).map fun j => q.rowOf d (s.rd rb) j) = l.map some →
           enters q l)))) ∧
    (let i := Instr.kvapp rd ra rb rc
     let l := ((s.rd rc).extractLsb' 0 8).toNat
     (2 ≤ (s.queue n .cp).length → Waits i s s .queue) ∧
     ((s.queue n .cp).length < 2 → (s.seqHere h = none → ctxTrap i 1) ∧
       (∀ q, s.seqHere h = some q → (∀ c, q.appBad l (s.rd rb) = some c → ctxTrap i c) ∧
         (q.appBad l (s.rd rb) = none →
           let x := q.slab l
           let slot := q.hw + (s.rd rb).toNat
           let a := s.appendBase q l slot + slot * x.stride
           (∀ y, s.localBad n (s.rd rd).toNat (4 * x.heads * x.hdim) = some y → Raises i s .engine (engTval .cp 2 y)) ∧
           (s.localBad n (s.rd rd).toNat (4 * x.heads * x.hdim) = none → ∀ u ps,
             s.kvCheck n s.level .write (piecesOf a (4 * x.heads * x.hdim)) = (u, .ok ps) →
             let v := u.refer q.part a (4 * x.heads * x.hdim)
             Ends i s (queued v .cp { u.cmd i (u.rd rd) (u.rd ra) (u.rd rb) (u.rd rc) 0 .rne with
               rows := [(slot, q.len + (u.rd rb).toNat)] })))))) ∧
    (∀ v, s.stage = some (.reply v) → Replies (.slabgrow rd ra rb rc) s s rd v) ∧
    (s.released n s.ctx.thr = false → (∀ v, s.stage ≠ some (.reply v)) → Waits (.slabgrow rd ra rb rc) s s .release) ∧
    (s.released n s.ctx.thr = false → Waits (.lah rd ra rb) s s .release) ∧
    (s.released n s.ctx.thr = true → (∀ v, s.stage ≠ some (.reply v)) →
      (s.seqHere h = none → Answers (.slabgrow rd ra rb rc) s rd (BitVec.ofNat 64 (2 ^ 63 + 1))) ∧
      (∀ q, s.seqHere h = some q →
        let l := ((s.rd rc).extractLsb' 0 8).toNat
        let grown := piecesOf (s.rd rb).toNat (2 ^ ((q.slab l).log2cap + 1) * (q.slab l).stride)
        (∀ u, s.walks q.part .write grown = (u, false) → Waits (.slabgrow rd ra rb rc) s u .release) ∧
        (∀ u, s.walks q.part .write grown = (u, true) →
          (∀ c, u.growRefusal q l (s.rd rb) = some c → Ends (.slabgrow rd ra rb rc) s (u.wr rd (BitVec.ofNat 64 (2 ^ 63 + c)))) ∧
          (u.growRefusal q l (s.rd rb) = none →
            Replies (.slabgrow rd ra rb rc) s (u.queueReloc q.part q.handle l (some (s.rd rb))) rd 0)))) ∧
    (s.released n s.ctx.thr = true →
      (s.seqPart = none → Raises (.lah rd ra rb) s .context 1) ∧
      (∀ p, s.seqPart = some p →
        let k := (s.rd rb).toNat
        (k = 0 ∨ 32 < k → Raises (.lah rd ra rb) s .context 2) ∧
        (k ≠ 0 → k ≤ 32 → ∀ u bs, s.seeList (s.rd ra) 16 k = (u, .ok bs) →
          let r := u.lahAccept p.id ((List.range k).map fun i => (bs.drop (16 * i)).take 16) 0
          Ends (.lah rd ra rb) s (r.1.wr rd (BitVec.ofNat 64 r.2))))) ∧
    (let i := Instr.tap rd ra rb rc t
     let a := (s.rd rd).toNat
     let key := (h, ((s.rd rb).extractLsb' 0 24).toNat, t.toNat)
     let far := ∃ x, s.tapPoint n t.toNat = some x ∧ x.dm / 16 ≤ ((s.rd rc).extractLsb' 0 16).toNat
     let good := a % 16 = 0 ∧ a + 64 ≤ s.localEnd n
     (2 ≤ (s.queue n .vs).length → Waits i s s .queue) ∧
     ((s.queue n .vs).length < 2 →
       (¬ good → Raises i s .engine (engTval .vs 2 a)) ∧
       (good → far → ctxTrap i 2) ∧
       (good → ¬ far → key ∉ s.curCore.sup.keys → 16 ≤ s.curCore.sup.keys.length → ctxTrap i 15) ∧
       (good → ¬ far → key ∈ s.curCore.sup.keys → Ends i s (queued s .vs (cp i))) ∧
       (good → ¬ far → key ∉ s.curCore.sup.keys → s.curCore.sup.keys.length < 16 →
         Ends i s (queued (s.onCore n fun c => { c with sup := { c.sup with keys := c.sup.keys ++ [key] } }) .vs (cp i))))) ∧
    (let i := Instr.tapld rd ra rb op
     let k := (s.rd rb).toNat
     (s.level = .u → Raises i s .priv s.ctx.word) ∧
     (s.level = .s → ∀ p, s.corePart n = some p → (31 < k → Answers i s rd 2) ∧
       (k ≤ 31 → op.toNat < 2 → s.keyOpen p.id k = true → Answers i s rd 1) ∧
       (k ≤ 31 → op = 1 → s.keyOpen p.id k = false → Ends i s ((s.onPart p.id fun p => p.without k).wr rd 0)) ∧
       (k ≤ 31 → op = 0 → s.keyOpen p.id k = false → ∀ u head, s.readAtHome n s.level (s.rd ra) 272 = (u, .ok head) →
         (∀ x ∈ head, x.2 = false) →
         (imageSize (head.map Prod.fst) = none → Ends i s (u.wr rd 2)) ∧
         (∀ size v img, imageSize (head.map Prod.fst) = some size →
           u.readAtHome u.ctx.core u.level (s.rd ra) size = (v, .ok img) → (∀ x ∈ img, x.2 = false) →
           let bs := img.map Prod.fst
           let used := storeUnits size + ((p.without k).points.map TapPoint.units).sum
           (imageBad bs = true → Ends i s (v.wr rd 2)) ∧
           (imageBad bs = false → 4096 < used → Ends i s (v.wr rd 3)) ∧
           (imageBad bs = false → used ≤ 4096 → Ends i s ((v.onPart p.id fun p => { p.without k with
             points := (p.without k).points ++ [pointOf k bs], meas := measure p.meas (pointOf k bs).digest }).wr rd 0)))) ∧
       (k ≤ 31 → 2 ≤ op.toNat → ∀ u ps, s.checkCur .write (s.rd ra) 64 = (u, .ok ps) → u.roomFor n ps = true →
         let counts := ((p.point k).map TapPoint.count).getD (List.replicate 16 0)
         let v := (u.storePlaces n s.ctx.thr ps (counts.flatMap fun c => leBytes 4 c.toNat)).1
         Ends i s ((if op = 3 then v.onPart p.id fun p => { p with points := p.points.map fun x =>
           if x.t = k then { x with count := List.replicate 16 0 } else x } else v).wr rd 0))))

/-- RNG, GUMB, PENAL and TOURN. RNG gives two words of the tenth round of Philox-4x32 from key and counter. GUMB writes
the four lanes of its v register plus noise from the generator at the lane's own counter. PENAL with a bad header
traps CONTEXT with code 11; else, its table in local memory, the result is on its way with header, lanes and the
counts of the lanes inside the vocabulary (0 for the others). TOURN with its pairs and destination in local memory
writes the pair that no pair of the round beats; none when every pair is empty; and nothing else. Concludes that exec
answers a next state, on conditions on state and operands alone, for: rng, gumb, penal, tourn. (R368, R370, R371,
R372, R373) -/
def Obligations.Sampling : Prop :=
  ∀ (s : State) (rd ra rb : Reg) (vd va : VReg) (half : Bool),
    let lo (x : Word) : BitVec 32 := x.extractLsb' 0 32
    let hi (x : Word) : BitVec 32 := x.extractLsb' 32 32
    let wide (m : BitVec 32) (c : BitVec 32) : Word := m.setWidth 64 * c.setWidth 64
    (∃ c : Nat → Nat → BitVec 32, c 0 0 = lo (s.rd rb) ∧ c 0 1 = hi (s.rd rb) ∧ c 0 2 = 0 ∧ c 0 3 = 0 ∧
      (∀ j, j < 10 →
        c (j + 1) 0 = hi (wide 0xCD9E8D57 (c j 2)) ^^^ c j 1 ^^^ (lo (s.rd ra) + BitVec.ofNat 32 j * 0x9E3779B9) ∧
        c (j + 1) 1 = lo (wide 0xCD9E8D57 (c j 2)) ∧
        c (j + 1) 2 = hi (wide 0xD2511F53 (c j 0)) ^^^ c j 3 ^^^ (hi (s.rd ra) + BitVec.ofNat 32 j * 0xBB67AE85) ∧
        c (j + 1) 3 = lo (wide 0xD2511F53 (c j 0))) ∧
      WritesLate (.rng rd ra rb half) s rd (if half then c 10 3 ++ c 10 2 else c 10 1 ++ c 10 0) 0) ∧
    (let noisy (k : Nat) := gumbLane ((lo (rng (s.rd ra) (hi (s.rd rb) ++ (lo (s.rd rb) + BitVec.ofNat 32 k)) false)).toNat)
        ((s.rv va).extractLsb' (32 * k) 32).toNat
     ∃ v : VWord, (∀ k, k < 4 → v.extractLsb' (32 * k) 32 = BitVec.ofNat 32 (noisy k).1) ∧
       AnswersV (.gumb vd va ra rb) s vd v ((noisy 0).2 ||| (noisy 1).2 ||| (noisy 2).2 ||| (noisy 3).2)) ∧
    (let table := s.rd ra
     let count (k : Nat) : Word := table + 64 + 4 * ((lo (s.rd rb) + BitVec.ofNat 32 k).setWidth 64)
     let header := s.lmem s.ctx.core table.toNat 64
     let inside (k : Nat) : Bool := (lo (s.rd rb) + BitVec.ofNat 32 k).toNat < leNat ((header.drop 12).take 4)
     s.stage = none → Near s table 64 → (∀ k, k < 4 → Near s (count k) 4) → s.lpoison s.ctx.core table.toNat 64 = false →
     (penaltyBad header = true → Raises (.penal vd ra rb) s .context 11) ∧
     (penaltyBad header = false → (∀ k, k < 4 → s.lpoison s.ctx.core (count k).toNat 4 = false) →
       ∃ u a, exec (.penal vd ra rb) s = .next u ∧ u.ctx.fate = .issued ∧ u.cur.regs = s.cur.regs ∧
         u.curCore.mem = s.curCore.mem ∧ u.cur.run.pend = s.cur.run.pend ++ [a] ∧ a.kind = .penal ∧ a.dest = [.v vd] ∧ a.poison = false ∧
         a.bytes = (header.take 16 ++ leBytes 16 (s.rv vd).toNat ++ leBytes 4 (lo (s.rd rb)).toNat ++
           (List.range 4).flatMap fun k => if inside k then s.lmem s.ctx.core (count k).toNat 4 else [0, 0, 0, 0]).map .have)) ∧
    (let m := min (s.rd rb).toNat 8
     let at0 (j : Nat) : Word := s.rd ra + BitVec.ofNat 64 (8 * j)
     let pair (j : Nat) : Nat × Nat :=
       (leNat (s.lmem s.ctx.core (at0 j).toNat 4), leNat (s.lmem s.ctx.core ((at0 j).toNat + 4) 4))
     s.lockstep s.ctx.core = false → Memory.wf s.curCore.mem.lmem = true →
     (∀ j, j < m → Near s (at0 j) 8 ∧ s.lpoison s.ctx.core (at0 j).toNat 8 = false) → Near s (s.rd rd) 8 →
     ∃ u w, Ends (.tourn rd ra rb) s u ∧ Stored s u (s.rd rd).toNat (leBytes 4 w.1 ++ leBytes 4 w.2) ∧
       (w = (0xFF800000, 0xFFFFFFFF) ∨ ∃ j, j < m ∧ w = pair j) ∧ ∀ j, j < m → better (pair j) w = false)

/-- LAUNCH, REGION, TLBINV; a launch starts, completes, is pre-empted, saved, resumed, timed out. LAUNCH, REGION and
TLBINV trap PRIV at U level. LAUNCH waits for its release, reads the 256-byte record, waits while a table word it
needs is with the host, and refuses it (rd = 2^63 + code, STATUS tells the code) or accepts it (0): one more launch
waits. A reserved byte that is not zero gives code 1. REGION gives 1 for a bad range, 2 for an unmapped page, 4 for a
leaf across the edge, 3 for a held line, else switches the leaves (0). TLBINV removes the named translations. A
granted launch starts: its threads of the mask live at ENTRY with every register as R74 has it, all zero but the stack
pointer, the thread parameter and the windows of the record. It completes when every thread has stopped. A running
launch whose cores a launch of higher priority wants, or whose slice is over, begins to be pre-empted; once all is
parked its context is saved and its cores are free; granted again it resumes with registers and local memory as they
were; a context that does not park within 2 ms is faulted. Readings of the model: the greater PRIO is the higher (log
36), REGION and TLBINV act in one step (log 64), the 2 ms count from the request (log 68). Concludes that exec answers
a next state, on conditions on state and operands alone, for: launch, tlbinv, region, preemptRequest, contextSave,
preemptTimeout, contextResume, timeSliceExpiry, launchStart, launchComplete. (R290, R309, R310, R311, R312, R386,
R387, R388, R389, R395) -/
def Obligations.LaunchesAndPreemption : Prop :=
  ∀ (s : State) (rd ra rb : Reg) (c : Bool) (scope : BitVec 2) (id : Nat),
    let n := s.ctx.core
    let b := (s.rd ra).toNat
    let k := (s.rd rb).toNat
    (s.level = .u → Raises (.launch rd ra) s .priv s.ctx.word ∧ Raises (.region rd ra rb c) s .priv s.ctx.word ∧
      Raises (.tlbinv ra scope) s .priv s.ctx.word) ∧
    (s.level = .s → s.released n s.ctx.thr = false → Waits (.launch rd ra) s s .release) ∧
    (∀ l u head, s.level = .s → s.released n s.ctx.thr = true → s.coreLaunch n = some l →
      s.readAtHome n s.level (s.rd ra) 256 = (u, .ok head) → (∀ x ∈ head, x.2 = false) →
      let bs := head.map Prod.fst
      (∀ v, u.predaKnown l.part bs = (v, false) → exec (.launch rd ra) s = .next (v.stall .translate)) ∧
      ∀ u', u.predaKnown l.part bs = (u', true) →
      let u := u'
      let code := u.launchVerdict l.part bs l.system
      (code ≠ 0 → Ends (.launch rd ra) s ((u.putStatus l.part (u.statusPlace (s.rd ra)) (refusedStatus code)).wr rd (BitVec.ofNat 64 (2 ^ 63 + code)))) ∧
      (recReserved bs = true → u.launchCode l.part bs l.system = 1) ∧
      (u.fabricLaunch (u.launchOfRecord 0 l.part 0 bs false none) = false → code = u.launchCode l.part bs l.system) ∧
      (code = 0 →
        let v := (u.acceptLaunch l.part (s.rd ra) bs (launchRecOf bs).slevel (u.statusPlace (s.rd ra))).1
        Ends (.launch rd ra) s (v.wr rd 0) ∧ ∃ x : Launch, v.launches.map Launch.id = u.launches.map Launch.id ++ [x.id] ∧
          v.launchOf x.id ≠ none ∧ x.id = u.nextId)) ∧
    (s.level = .s → (b % 65536 ≠ 0 ∨ k = 0 ∨ k % 65536 ≠ 0 ∨ b < globalBase ∨ globalTop < b + k) → Answers (.region rd ra rb c) s rd 1) ∧
    (∀ l, s.level = .s → regionBad b k = false → s.coreLaunch n = some l →
      (s.leaves l (b + k) (k / 65536) b = .missing → Answers (.region rd ra rb c) s rd 2) ∧
      (∀ ls, s.leaves l (b + k) (k / 65536) b = .ok ls →
        let across := ∃ e ∈ ls, e.va < b ∨ b + k < e.va + e.size
        let held := c = false ∧ ∃ p ∈ s.cores, ∃ h ∈ p.2.req.holds, inPages ls h.line = true
        (across → Answers (.region rd ra rb c) s rd 4) ∧
        (¬ across → held → Answers (.region rd ra rb c) s rd 3) ∧
        (¬ across → ¬ held → s.fenced = false → Waits (.region rd ra rb c) s s .release) ∧
        (¬ across → ¬ held → s.fenced = true → s.quiet ls = true → s.hostIn ls = [] → Ends (.region rd ra rb c) s
          (((ls.foldl (fun s e => s.switchLeaf l c e) (s.acquire n)).acquire n).wr rd 0)))) ∧
    (s.level = .s → s.fenced = false → Waits (.tlbinv ra scope) s s .release) ∧
    (∀ l, s.level = .s → s.fenced = true → s.coreLaunch n = some l →
      let f := tlbNamed l b scope
      s.quiet (s.tlbAll.filter f) = true → Ends (.tlbinv ra scope) s (((s.acquire n).dropTlb f).acquire n) ∧
        ((s.acquire n).dropTlb f).tlbAll.all (fun e => !f e) = true) ∧
    (∀ l, s.launchOf id = some l →
      (l.phase = .waiting → s.predecessor l = none →
        exec (.launchStart id) s = .next (s.partReach l.part .read l.record.preda.toNat 4).1) ∧
      (∀ u, l.phase = .waiting → s.predecessor l ≠ none → s.granted l = true → s.launchReady l = (u, false) →
        exec (.launchStart id) s = .next u) ∧
      (∀ u, l.phase = .waiting → s.predecessor l ≠ none → s.granted l = true → s.launchReady l = (u, true) →
        exec (.launchStart id) s = .next (u.startLaunch l) ∧
        (l.shadows = [] → l.record.masks = 0 → ∀ r m t, (l.cores.drop r).head? = some m → l.cores.Nodup → t < 4 →
          l.record.tmask.getLsbD t = true →
          let th := (u.startLaunch l).thread m (tid t)
          th.pc = l.record.entry ∧ th.run.life = .live ∧ th.level = (if l.record.slevel then Level.s else Level.u) ∧
          th.regs.read 14 = l.record.stktop - BitVec.ofNat 64 (4 * r + t) * BitVec.ofNat 64 l.record.stkstr ∧
          th.regs.read 5 = l.record.tpbase + BitVec.ofNat 64 (4 * r + t) * BitVec.ofNat 64 l.record.tpstr ∧
          (∀ x : Reg, x ≠ 14 → x ≠ 5 → th.regs.read x = 0) ∧ (∀ x : VReg, get16 th.regs.v x = 0) ∧ th.regs.cwp = 0 ∧
          th.regs.sp = Vector.replicate 4 0 ∧ th.loops = Loops.zero ∧ th.trap = TrapCtx.zero ∧
          th.sp = { Special.zero with pwb := th.sp.pwb } ∧
          ∀ k w, k < 8 → l.record.pw[k]? = some w →
            get8 th.sp.pwb (BitVec.ofNat 3 k) = ⟨w.base.extractLsb' 4 51, w.bound, BitVec.ofNat 17 w.size⟩)) ∧
      (l.phase = .waiting → s.predecessor l ≠ none → s.granted l = false → exec (.launchStart id) s = .next s) ∧
      (l.phase = .running ∨ l.phase = .preempting → s.finished l = true → exec (.launchComplete id) s = .next (s.completeLaunch l) ∧
        ∀ m ∈ l.all, ((s.completeLaunch l).core m).launch = none) ∧
      (s.finished l = false → exec (.launchComplete id) s = .next s) ∧
      (l.phase = .running → (s.wanted l true = true ∨ s.fabricLaunch l = true → exec (.preemptRequest id) s = .next (s.preempt l)) ∧
        (s.wanted l true = false → s.fabricLaunch l = false → exec (.preemptRequest id) s = .next s) ∧
        (s.sliceOf l ≤ l.used → s.wanted l false = true → exec (.timeSliceExpiry id) s = .next (s.preempt l)) ∧
        (l.used < s.sliceOf l → exec (.timeSliceExpiry id) s = .next s) ∧
        ((s.preempt l).launchOf id).map Launch.phase = some .preempting) ∧
      (l.phase = .preempting →
        (s.savable l = true → exec (.contextSave id) s = .next (s.saveContext l) ∧
          ((s.saveContext l).launchOf id).map Launch.phase = some .saved ∧
          ∀ m ∈ l.all, ((s.saveContext l).core m).launch = none ∧ ((s.saveContext l).core m).mem.lmem = []) ∧
        (s.savable l = false → exec (.contextSave id) s = .next s) ∧
        (l.since < 2400000 → exec (.preemptTimeout id) s = .next s) ∧
        (2400000 ≤ l.since → s.unparked l ≠ [] → exec (.preemptTimeout id) s = .next (s.timeOut l) ∧
          ((s.timeOut l).launchOf id).map Launch.faulted = some true) ∧
        (s.unparked l = [] → exec (.preemptTimeout id) s = .next s)) ∧
      (l.phase = .saved → s.granted l = true → s.fabricLaunch l = false → exec (.contextResume id) s = .next (s.resumeContext l)) ∧
      (l.phase ≠ .saved → exec (.contextResume id) s = .next s)) ∧
    (∀ (x y : Core) (t : BitVec 2), let z := (x.context).restored y
      (get4 z.thr t).regs = (get4 x.thr t).regs ∧ (get4 z.thr t).pc = (get4 x.thr t).pc ∧ (get4 z.thr t).level = (get4 x.thr t).level ∧
      (get4 z.thr t).loops = (get4 x.thr t).loops ∧ (get4 z.thr t).trap = (get4 x.thr t).trap ∧ (get4 z.thr t).sp = (get4 x.thr t).sp ∧
      z.mem.lmem = x.mem.lmem ∧ z.regs = x.regs ∧ z.mem.l1 = y.mem.l1)

/-- Pending POISON, tap events, budgets; task injection, relocations, K/V pages, state errors. A thread that can take it
takes its oldest pending POISON, a tap event of its partition, or the end of its budget as a trap at its pc; one that
cannot is left as it is. A waiting task goes to the steal end of the deque that takes it. A relocation copies the slot
at WMARK and raises WMARK past it; once every slot has been copied it leaves the slab at its new base, not MOVING, not
SHARED (one slot per event is the model's pace, log 56). The sweep, whose hand moves on by page number (log 21),
spills a page that is not referenced, quarantined, relocated or appended to, and clears the reference bit of one that
is; a page being fetched becomes resident. An uncorrectable error poisons its row of local memory; its word at home;
every word of its line, for a directory entry; the line in both cores of a fused lockstep pair, for a slice; the words
it names, for a unit: those alone, in place, and writes a machine-error record of its unit; in a thread it loses a
register's value and marks the register. Concludes that exec answers a next state, on conditions on state and operands
alone, for: asyncPoisonTrap, taskInject, unsharingRelocationEnd, slabRelocationEnd, kvPageSpill, kvPageResident,
tapEventEntry, budgetExpiry, uncorrectableError. (R129, R167, R168, R195, R292, R330, R345, R346, R351, R365, R375,
R397) -/
def Obligations.ThreadAndSequenceEvents : Prop :=
  ∀ (s : State) (n k : Nat), let t := tid k
    let th := s.thread n t
    let inPlace (m : State) : Prop := m.cores = s.cores ∧ m.mem.cells = s.mem.cells ∧
      ∀ l (o : BitVec 5), (m.dirOf l).owner o = (s.dirOf l).owner o
    (th.open? = false → exec (.asyncPoisonTrap n k) s = .next s ∧ exec (.budgetExpiry n k) s = .next s) ∧
    (∀ a lv, th.open? = true → th.poisonReady = some (a, lv) → ∃ u, exec (.asyncPoisonTrap n k) s = .next u ∧ Taken s u n t .poison a) ∧
    (th.poisonReady = none → exec (.asyncPoisonTrap n k) s = .next s) ∧
    (th.open? = true → th.level = .u → th.sp.lkbud.en = true → th.sp.lkbud.left = 0 → ∃ u, exec (.budgetExpiry n k) s = .next u ∧
      Taken s u n t .budget (th.sp.lkbud.handle.setWidth 64)) ∧
    (th.level = .s ∨ th.sp.lkbud.en = false ∨ th.sp.lkbud.left ≠ 0 → exec (.budgetExpiry n k) s = .next s) ∧
    (∀ p v rest, s.partOf k = some p → p.taph.en = true → p.taph.n.toNat = n → p.tapq = v :: rest →
      let h := s.thread n p.taph.thr
      (h.open? = true → h.level = .u → (∃ l, s.coreLaunch n = some l ∧ l.part = p.id) →
        ∃ u, exec (.tapEventEntry k) s = .next u ∧ Taken s u n p.taph.thr .tap v) ∧
      (h.open? = false ∨ h.level = .s → exec (.tapEventEntry k) s = .next s)) ∧
    (∀ p, s.partOf k = some p → p.tapq = [] ∨ p.taph.en = false → exec (.tapEventEntry k) s = .next s) ∧
    ((∀ q ∈ s.seqs, q.handle = n → q.inject = [] ∨ s.injectTo q = none) → exec (.taskInject n) s = .next s) ∧
    (∀ q w rest m, s.seqs = [q] → q.handle = n → q.inject = w :: rest → s.injectTo q = some m →
      ∃ u, exec (.taskInject n) s = .next u ∧ (u.core m).deque = (s.core m).deque ++ [w] ∧
        (u.seqKept q.part n).map Seq.inject = some rest ∧ ∀ j, j ≠ m → (u.core j).deque = (s.core j).deque) ∧
    (∀ r q, s.relocs = [r] → s.kvwaits = [] → r.die = n → s.seqKept r.part r.handle = some q →
      r.layer < q.slabs.length →
      let x := q.slab r.layer
      let mine := if r.grow = none then Instr.unsharingRelocationEnd n else .slabRelocationEnd n
      let other := if r.grow = none then Instr.slabRelocationEnd n else .unsharingRelocationEnd n
      let count := if r.grow = none then x.shcount else 2 ^ r.oldcap
      exec other s = .next s ∧
      (r.begun = false → exec mine s = .next (s.beginReloc n)) ∧
      (r.begun = true → x.wmark < count → ∀ u b,
        s.moveBytes r.part (x.movedFrom x.wmark) (x.base.toNat + x.wmark * x.stride) x.stride = (u, b) →
        exec mine s = .next (if b then u.onSlab r.part r.handle r.layer fun x => { x with wmark := x.wmark + 1 } else u)) ∧
      (r.begun = true → count ≤ x.wmark → ∃ u, exec mine s = .next u ∧ u.relocs = [] ∧ ∃ q', u.seqKept r.part r.handle = some q' ∧
        (q'.slab r.layer).base = x.base ∧ (q'.slab r.layer).moving = false ∧ (q'.slab r.layer).shared = false ∧
        (q'.slab r.layer).wmark = x.wmark)) ∧
    (s.relocs = [] → exec (.unsharingRelocationEnd n) s = .next s ∧ exec (.slabRelocationEnd n) s = .next s) ∧
    (∀ p, s.partOf n = some p →
      (s.overFull p = false → exec (.kvPageSpill n) s = .next s) ∧
      (∀ page e, s.overFull p = true → (s.kvPagesOf p.id).find? (fun v => decide (p.hand ≤ v)) = some page →
        s.kvPage p.id (page * 65536) = some e → e.spilled = false → ∃ u, exec (.kvPageSpill n) s = .next u ∧
          (u.partOf n).map Partition.hand = some (page + 1) ∧
          (s.handSkips p.id page = true → u.kvPage p.id (page * 65536) = some e) ∧
          (s.handSkips p.id page = false → u.kvPage p.id (page * 65536) =
            some (if e.refd then { e with refd := false } else { e with spilled := true, fetch := false })))) ∧
    ((∃ e ∈ s.kvpages, e.pa = n ∧ e.spilled = true ∧ e.fetch = true) → ∃ u, exec (.kvPageResident n) s = .next u ∧
      (∀ e ∈ u.kvpages, e.pa = n → e.spilled = false ∧ e.fetch = false) ∧ (∀ l ∈ u.lookahead, n ∉ l) ∧
      u.kvpages.map KvPage.va = s.kvpages.map KvPage.va) ∧
    ((∀ e ∈ s.kvpages, e.pa = n → e.fetch = false) → exec (.kvPageResident n) s = .next s) ∧
    (s.shadow n = false → ∃ u, exec (.uncorrectableError (.localRow n k)) s = .next u ∧ k ∈ (u.core n).mem.lpsn ∧ (u.core n).mem.lmem = (s.core n).mem.lmem) ∧
    (let line := k / 32
      ∃ (m : State) (way : Nat), inPlace m ∧ way < 16 ∧
        (∀ l (o : BitVec 5), m.homePsn l o = (s.homePsn l o || (decide (l = line) && o == BitVec.ofNat 5 k))) ∧
        exec (.uncorrectableError (.homeWord k)) s =
          .next (m.machineRecord (s.clusterPart (homeCluster line)) 18 2 (homeCluster line + way * 2 ^ 16) (line * 128) 0 0)) ∧
    (∃ (m : State) (way : Nat), inPlace m ∧ way < 16 ∧ (∀ l (o : BitVec 5), m.homePsn l o = (s.homePsn l o || decide (l = k))) ∧
      exec (.uncorrectableError (.dirEntry k)) s =
        .next (m.machineRecord (s.clusterPart (homeCluster k)) 18 9 (homeCluster k + way * 2 ^ 16) (k * 128) 0 0)) ∧
    (∃ m : State, m.mem = s.mem ∧ (s.fusedL1 n = false ∨ s.lockstep n = false → m = s) ∧
      (s.fusedL1 n = true → s.lockstep n = true → ∀ c, (m.core c).mem.l1 = (s.core c).mem.l1.map fun l =>
        if c = s.agentOf n (k * 128) ∧ l.num = k then { l with words := l.words.map fun w => { w with psn := true } } else l) ∧
      exec (.uncorrectableError (.sliceLine n k)) s =
        .next (m.machineRecord (s.clusterPart (clusterOf n)) 18 1 (s.identity n) 0 (s.core n).regs.sstep.toNat 0)) ∧
    (∀ (unit : ErrUnit) (ws : List Nat), let f := s.unitFields ws unit
      (∃ m : State, inPlace m ∧
        (∀ l (o : BitVec 5), m.homePsn l o = (s.homePsn l o || ws.any fun w => w / 32 = l && BitVec.ofNat 5 w == o)) ∧
        exec (.uncorrectableError (.unit unit ws)) s = .next (m.machineRecord (s.unitPart unit) 18 f.1 f.2.1 f.2.2 0 0)) ∧
      (∀ x rest c b, ws = x :: rest → (unit = .l2Way c b → f = (2, c + b * 2 ^ 16, x / 32 * 128)) ∧
        (unit = .cacheBank c b → f.1 = 5 ∧ f.2.1 = c + b * 2 ^ 8))) ∧
    (∀ kind index, let hit := th.damaged kind index (s.free 43, s.free 44)
      ∃ u, exec (.uncorrectableError (.threadState n k kind index)) s = .next u ∧
        (u.thread n t).run.damage = th.run.damage ++ [⟨kind, index, hit.part kind index⟩] ∧ (u.thread n t).regs = hit.regs ∧
        (u.thread n t).loops = hit.loops ∧ (u.thread n t).trap = hit.trap ∧ (u.thread n t).pc = th.pc ∧
        (kind = 0 → (u.thread n t).regs.v = th.regs.v) ∧ (kind = 1 → ∀ r, (u.thread n t).regs.read r = th.regs.read r))

/-- The management mailbox: registers, doorbell, refusals, each request, completion. Writes to MBREQ and MBCTL reach the
mailbox; other registers ignore them. A doorbell that does not write 1, or finds the mailbox busy, does nothing; one
that submits a listed code is the row of that request, so the doorbell itself then does nothing (the model's division,
log 71); a code not listed completes with result 1, from a virtual function 2. A request that is refused (not
permitted 2, no such partition 3, debug off 5) completes at once with that result. Else CREATE, DESTROY, RESIZE,
SET_ERROR_WINDOW, FW_UPDATE, ATTEST, FREEZE, RESUME, QUERY, STEP, READ_STATE, WRITE_STATE, TRACE, RECORD and REPLAY
make the mailbox busy, do their work and have their result ready, or are refused by their own checks (3 for bad
arguments, 6 for the wrong state). Completion clears BUSY, sets DONE and RESULT, and signals where IRQ is set; DESTROY
first waits until no launch of its partition runs; CREATE, RECORD and REPLAY wait while home cannot serve their
operands. Concludes that exec answers a next state, on conditions on state and operands alone, for: createPartition,
destroyPartition, resizePartition, setErrorWindow, fwUpdate, attest, debugFreeze, resume, query, stepOne, readState,
writeState, trace, record, replay, mailboxRequestComplete, hostMmioWrite, mbdoor. (R385, R399, R400, R401, R402, R403,
R313, R317, R320) -/
def Obligations.MailboxRequests : Prop :=
  ∀ (s : State) (fn off value : Nat) (image bytes : List Byte),
    let b := s.box fn
    let req := b.req
    let f (k n : Nat) : Nat := leNat ((req.drop k).take n)
    let code := f 0 2
    let t := s.mbTake fn
    let rows : List (Nat × Instr) := [(1, .createPartition fn), (2, .destroyPartition fn), (3, .resizePartition fn), (4, .setErrorWindow fn),
      (0x20, .attest fn), (0x30, .debugFreeze fn), (0x31, .resume fn), (0x32, .query fn), (0x33, .stepOne fn), (0x34, .readState fn),
      (0x35, .writeState fn bytes), (0x36, .trace fn), (0x37, .record fn), (0x38, .replay fn)]
    let ready (u : State) (r : Nat) : Prop := (u.box fn).busy = true ∧ ∃ l, (u.box fn).next = some (r, l)
    let fails (i : Instr) (r : Nat) : Prop := exec i s = .next (t.mbComplete fn r [])
    let runs (i : Instr) (r : Nat) : Prop := ∃ u, exec i s = .next u ∧ ready u r
    (∀ i ∈ rows, b.busy = true ∨ code ≠ i.1 → exec i.2 s = .next s) ∧
    (b.busy = true ∨ code ≠ 0x10 ∨ image.length ≠ f 16 4 → exec (.fwUpdate fn image) s = .next s) ∧
    (value ≠ 1 ∨ b.busy = true ∨ listedCode code = true → exec (.mbdoor fn value) s = .next s) ∧
    (b.busy = false → listedCode code = false → fails (.mbdoor fn 1) (if fn = 0 then 1 else 2)) ∧
    ((t.mbComplete fn value bytes).box fn).done = true ∧ ((t.mbComplete fn value bytes).box fn).busy = false ∧
    ((t.mbComplete fn value bytes).box fn).result = BitVec.ofNat 8 value ∧
    ((t.mbComplete fn value bytes).box fn).signal = b.signal + (if b.irq then 1 else 0) ∧
    (0x100 ≤ off → off + bytes.length ≤ 0x200 → req.length = 256 → ∃ u, exec (.hostMmioWrite fn off bytes) s = .next u ∧
      (∀ k, k < 256 → (u.box fn).req.getD k 0 = if off ≤ 0x100 + k ∧ 0x100 + k < off + bytes.length then bytes.getD (0x100 + k - off) 0
        else req.getD k 0) ∧ (u.box fn).irq = b.irq) ∧
    ((∀ k, k < bytes.length → off + k ≠ 0x10 ∧ (off + k < 0x100 ∨ 0x200 ≤ off + k)) → ∃ u, exec (.hostMmioWrite fn off bytes) s = .next u ∧
      (∀ k, u.box k = s.box k) ∧ u.cores = s.cores ∧ u.mem = s.mem ∧ u.host.mem = s.host.mem) ∧
    (∀ x : Byte, ∃ u, exec (.hostMmioWrite fn 0x10 [x]) s = .next u ∧ (u.box fn).irq = x.getLsbD 0 ∧ (u.box fn).req = req) ∧
    (b.busy = false →
      (∀ i ∈ rows, code = i.1 → ∀ r, s.mbRefusal fn code req = some r → fails i.2 r) ∧
      (code = 0x10 → image.length = f 16 4 → s.mbRefusal fn code req = none →
        runs (.fwUpdate fn image) (if Config.signatureOk image (sha512 image) then 0 else 7)) ∧
      (code = 1 → fn = 0 →
        (t.createCode req ≠ 0 → fails (.createPartition fn) (t.createCode req)) ∧
        (t.createCode req = 0 → s.homeFreeAll (addrs (f 16 8) 64) = false →
          exec (.createPartition fn) s = .next (t.snoopAll (addrs (f 16 8) 64))) ∧
        (t.createCode req = 0 → s.homeFreeAll (addrs (f 16 8) 64) = true →
          let u := t.createWith fn (f 12 1) (f 8 4) (f 16 8)
          exec (.createPartition fn) s = .next u ∧ (u.box fn).busy = true ∧
            ((u.box fn).next = none ∨ ∃ r, (r = 0 ∨ r = 3 ∨ r = 8) ∧ ready u r))) ∧
      (s.mbRefusal fn code req = none →
        (code = 2 → exec (.destroyPartition fn) s = .next (t.preemptAll (f 8 1)) ∧ ((t.preemptAll (f 8 1)).box fn).busy = true) ∧
        (code = 3 → f 12 4 = 0 ∨ 3200 < f 12 4 → fails (.resizePartition fn) 3) ∧
        (code = 3 → f 12 4 ≠ 0 → f 12 4 ≤ 3200 → runs (.resizePartition fn) 0) ∧
        (code = 4 → (2 ≤ f 8 1 ∧ f 8 1 ≤ 15 ∧ 20 ≤ f 9 1 ∧ f 9 1 ≤ 40 → ∃ u, exec (.setErrorWindow fn) s = .next u ∧ ready u 0 ∧
            u.errs.need = f 8 1 ∧ u.errs.window = f 9 1) ∧
          (¬ (2 ≤ f 8 1 ∧ f 8 1 ≤ 15 ∧ 20 ≤ f 9 1 ∧ f 9 1 ≤ 40) → fails (.setErrorWindow fn) 3)) ∧
        (code = 0x20 → ∀ p, s.partOf (f 8 1) = some p →
          let body := s.report p ((req.drop 16).take 32)
          let whole := body ++ fitted 512 (Config.reportSignature s.tick body)
          (f 56 4 < whole.length → fails (.attest fn) 4) ∧ (whole.length ≤ f 56 4 → runs (.attest fn) 0 ∧
            ∃ u, exec (.attest fn) s = .next u ∧ u.host.mem = cellsWrite s.host.mem (f 48 8) whole)) ∧
        (0x30 ≤ code → code ≤ 0x35 → s.debugCore req = none → ∀ i ∈ rows, code = i.1 → fails i.2 3) ∧
        (∀ n, s.debugCore req = some n →
          (code = 0x30 → ((s.core n).launch = none → fails (.debugFreeze fn) 6) ∧
            ((s.core n).launch ≠ none → exec (.debugFreeze fn) s = .next ((t.requestFreeze (t.domKey n)).1.mbAnswer fn 0 []) ∧
              runs (.debugFreeze fn) 0)) ∧
          (code = 0x31 → (s.frozen n = false → fails (.resume fn) 6) ∧ (s.frozen n = true → runs (.resume fn) 0 ∧
            ∃ u, exec (.resume fn) s = .next u ∧ (u.bar (s.domKey n)).frozen = false ∧ (u.bar (s.domKey n)).freeze = false)) ∧
          (code = 0x32 → exec (.query fn) s = .next (t.mbAnswer fn 0 (t.queryBytes n))) ∧
          (code = 0x33 → f 16 1 < 4 → s.frozen n = true → (s.thread n (tid (f 16 1))).run.life = .live →
            ∃ u, exec (.stepOne fn) s = .next u ∧ u.host.stepping = s.host.stepping ++ [(fn, n, f 16 1, false)] ∧
              u.agenda = .thread n (f 16 1) :: s.agenda) ∧
          (code = 0x34 → f 16 1 < 4 → s.frozen n = true → ∀ l, t.readObject n (tid (f 16 1)) (f 17 1) (f 20 4) (f 24 4) = some l →
            runs (.readState fn) 0 ∧ ∃ u, exec (.readState fn) s = .next u ∧ u.host.mem = cellsWrite s.host.mem (f 32 8) l) ∧
          (code = 0x35 → f 16 1 < 4 → s.frozen n = true → t.imprecise (t.domKey n) = false → ∀ u,
            t.writeObject n (tid (f 16 1)) (f 17 1) (f 20 4) (f 24 4) bytes = some u →
            exec (.writeState fn bytes) s = .next (u.mbAnswer fn 0 []))) ∧
        (code = 0x36 → (f 40 1 % 2 = 0 → runs (.trace fn) 0) ∧
          (f 40 1 % 2 = 1 → traceSizeOk (f 24 8) = true → deviceOk (f 16 8) = true → deviceOk (f 16 8 + 63 + 32 * f 24 8) = true →
            runs (.trace fn) 0) ∧
          (f 40 1 % 2 = 1 → traceSizeOk (f 24 8) = false → fails (.trace fn) 3)) ∧
        (code = 0x37 → (∀ u, t.partReach (f 8 1) .read (BitVec.ofNat 64 (f 16 8)).toNat 256 = (u, .wait) → exec (.record fn) s = .next u) ∧
          ∀ u pas, t.partReach (f 8 1) .read (BitVec.ofNat 64 (f 16 8)).toNat 256 = (u, .ok pas) →
            let v := u.predaKnown (f 8 1) (pas.map fun pa => (u.homeByte pa).1)
            (v.2 = false → exec (.record fn) s = .next v.1) ∧
            (v.2 = true → runs (.record fn)
              (if v.1.launchVerdict (f 8 1) (pas.map fun pa => (v.1.homeByte pa).1) false = 0 then 0 else 8))) ∧
        (code = 0x38 → (∀ l ∈ s.launches, l.replay = none) → fails (.replay fn) 6) ∧
        (code = 0x38 → ∀ l r, s.launches = [l] → l.part = f 8 1 → l.addr = BitVec.ofNat 64 (f 16 8) → l.phase = .done → l.replay = some r →
          (r.full = true → fails (.replay fn) 6) ∧
          (r.full = false → ∃ u, exec (.replay fn) s = .next u ∧ ((u.box fn).busy = true → (u.box fn).next = none ∨ ready u 0 ∨ ready u 8))))) ∧
    (b.busy = false → exec (.mailboxRequestComplete fn) s = .next s) ∧
    (b.busy = true → (∀ r l, b.next = some (r, l) → exec (.mailboxRequestComplete fn) s = .next (s.mbComplete fn r l)) ∧
      (b.next = none → leNat (b.taken.take 2) = 2 →
        let part := leNat ((b.taken.drop 8).take 1)
        (s.runningIn part = [] → exec (.mailboxRequestComplete fn) s = .next ((s.destroyed part).mbComplete fn 0 [])) ∧
        (s.runningIn part ≠ [] → exec (.mailboxRequestComplete fn) s = .next (s.preemptAll part))) ∧
      (b.next = none → leNat (b.taken.take 2) = 1 → exec (.mailboxRequestComplete fn) s = .next (s.create fn b.taken)) ∧
      (b.next = none → leNat (b.taken.take 2) = 0x37 → exec (.mailboxRequestComplete fn) s = .next (s.recordRun fn b.taken)) ∧
      (b.next = none → leNat (b.taken.take 2) = 0x38 → exec (.mailboxRequestComplete fn) s = .next (s.replayRun fn b.taken)) ∧
      (b.next = none → leNat (b.taken.take 2) = 0x33 →
        exec (.mailboxRequestComplete fn) s = .next (if s.stepOver fn then s.stepEnds fn else s)))

/-- Host reads and writes, snoops, the fabric, errors and retirement, power-on, links. A host write over the trained path
(CXL, or BAR2 where a partition is there) puts its enabled bytes at home (over CXL the host then owns the words) and a
host read returns the half; both wait, in their order, where home is not free and do nothing outside device memory. A
snoop reply is merged and answers the snoop, or waits (the model serves the host's words first, log 92); one that
times out poisons every word of its half, which the host owns no more. A remote access is performed at its turn and
its answer reaches the core; one that is not delivered ends with a poisoned value. A launch received waits for its
start barrier, which lets it start or refuses it with code 5. A port that goes down takes no route. A corrected error
is counted; a unit with enough of them is retired (the line that its record names is free, log 80). Power-on is the
reset state with the images that verify, and no other, measured in order. Link training and the power limit set their
registers. Concludes that exec answers a next state, on conditions on state and operands alone, for: hostWrite,
hostRead, snoopReply, snoopTimeout, fabricRemoteAccess, fabricAck, fabricDeliveryTimeout, fabricLaunchReceive,
startBarrierComplete, linkPortDown, unitRetire, powerLimitReached, correctedError, powerOn, portTraining,
hostLinkTraining. (R3, R383, R384, R396, R397, R402, R404, R406, R409, R411, R412, R414) -/
def Obligations.HostFabricAndHardware : Prop :=
  ∀ (s : State) (cxl ok : Bool) (half id src gen port width : Nat) (bytes : List (Option Byte)) (bs image : List Byte) (unit : ErrUnit)
    (images : List (List Byte)),
    let a := 64 * half
    let line := half / 2
    let on : List (Nat × Byte) := enabled half bytes
    let waits (u : State) (op : LateOp) : State := { u with mem := { u.mem with late := u.mem.late ++ [(⟨0, op⟩ : Late)] } }
    let words : BitVec 32 := if half % 2 = 0 then 0x0000FFFF else 0xFFFF0000
    let reaches (p : Bool) : Prop := s.host.cxl = p ∧ deviceOk a = true ∧ (p = true ∨ s.parts ≠ [])
    (¬ reaches cxl → exec (.hostWrite cxl half bytes) s = .next s) ∧
    (on = ((List.range bytes.length).zip bytes).filterMap fun p => p.2.map fun b => (a + p.1, b)) ∧
    (reaches cxl → exec (.hostWrite cxl half bytes) s = .next (s.later 0 (.hostWrite cxl half bytes))) ∧
    (reaches cxl → s.mem.late = [] →
      (s.spilledPage a = true → exec (.hostWrite cxl half bytes) s = .next (waits (s.fetchPage a) (.hostWrite cxl half bytes))) ∧
      (s.spilledPage a = false →
        (s.hostWriteFree cxl half on = true → exec (.hostWrite cxl half bytes) s = .next (s.hostMerges cxl half on)) ∧
        (s.hostWriteFree cxl half on = false → exec (.hostWrite cxl half bytes) s = .next (waits s (.hostWrite cxl half bytes))))) ∧
    (¬ reaches s.host.cxl → exec (.hostRead half) s = .next s) ∧
    (reaches s.host.cxl → exec (.hostRead half) s = .next (s.later 0 (.hostRead half))) ∧
    (reaches s.host.cxl → s.mem.late = [] → s.spilledPage a = false → s.homeFree line (maskOf ((wordsOf words).filter fun w =>
      (s.dirOf line).owner w != some hostAgent)) = true → ∃ u, exec (.hostRead half) s = .next u ∧ u.mem = s.mem ∧ u.cores = s.cores ∧
        u.host.lastRd = (List.range 64).map fun k => s.hostByte (a + k)) ∧
    (half ∉ s.mem.snoops → exec (.snoopReply half bytes) s = .next s ∧ exec (.snoopTimeout half) s = .next s) ∧
    (half ∈ s.mem.snoops → s.replyWaits half = true → exec (.snoopReply half bytes) s = .next s ∧ exec (.snoopTimeout half) s = .next s) ∧
    (half ∈ s.mem.snoops → s.replyWaits half = false →
      (s.mem.late = [] → let v := s.hostGives line words
       (v.hostWriteFree false half on = true → exec (.snoopReply half bytes) s = .next ((v.hostMerges false half on).snoopDone half)) ∧
       (v.hostWriteFree false half on = false → (∀ w ∈ wordsOf words, (s.dirOf line).owner w ≠ some hostAgent) →
         exec (.snoopReply half bytes) s = .next (waits s (.hostReply half bytes)))) ∧
      (∃ (m : State) (k who : Nat), m.cores = s.cores ∧ m.mem.cells = s.mem.cells ∧ half ∉ m.mem.snoops ∧
        (∀ l (o : BitVec 5), m.homePsn l o = (s.homePsn l o || (decide (l = line) && words.getLsbD o.toNat)) ∧
          (m.dirOf l).owner o = if l = line ∧ words.getLsbD o.toNat = true ∧ (s.dirOf l).owner o = some hostAgent then none
            else (s.dirOf l).owner o) ∧
        exec (.snoopTimeout half) s = .next (m.machineRecord (s.clusterPart (homeCluster line)) 18 k who a 0 0)) ∧
      (s.mem.late = [] → ∃ u, exec (.snoopTimeout half) s = .next u ∧ half ∉ u.mem.snoops)) ∧
    (∀ r, s.fabric.remote.find? (fun x => x.id = id) = some r →
      (∀ p : Nat × Nat, r.val = none → s.remoteFirst r = true → s.cutOff r = false → routerPlace r.pa = some p →
        exec (.fabricRemoteAccess (.own id)) s = .next (if s.shut r.core p.1 then s else s.performAtRouter r p.1 p.2)) ∧
      (r.val = none → s.remoteFirst r = true → s.cutOff r = false → routerPlace r.pa = none → s.homeFreeAll r.addrs = true →
        exec (.fabricRemoteAccess (.own id)) s = .next (s.performRemote r) ∧
        ((s.performRemote r).fabric.remote.find? fun x => x.id = id).any (fun x => x.val.isSome) = true) ∧
      (r.val ≠ none ∨ s.remoteFirst r = false ∨ s.cutOff r = true → exec (.fabricRemoteAccess (.own id)) s = .next s) ∧
      (r.val = none → s.remoteFirst r = true → s.cutOff r = false → routerPlace r.pa = none → s.homeFreeAll r.addrs = false →
        exec (.fabricRemoteAccess (.own id)) s = .next (s.snoopAll r.addrs)) ∧
      (∀ v, r.val = some v → exec (.fabricAck id) s = .next (s.closeRemote r v) ∧
        ∀ x ∈ (s.closeRemote r v).fabric.remote, x.id ≠ id) ∧
      (r.val = none → exec (.fabricAck id) s = .next s) ∧
      (r.val = none → r.core < Config.numCores → s.moduleOf r ≠ s.fabric.module.toNat → s.moduleOf r < 64 → r.store = none →
        exec (.fabricDeliveryTimeout id) s = .next (s.closeRemote r (List.replicate r.size (0, true)))) ∧
      (r.val = none → r.core < Config.numCores → s.moduleOf r ≠ s.fabric.module.toNat → s.moduleOf r < 64 → r.store ≠ none → ∃ u, exec (.fabricDeliveryTimeout id) s = .next u ∧
        ∀ x ∈ u.fabric.remote, x.id ≠ id) ∧
      (r.val ≠ none ∨ Config.numCores ≤ r.core ∨ s.moduleOf r = s.fabric.module.toNat ∨ 64 ≤ s.moduleOf r →
        exec (.fabricDeliveryTimeout id) s = .next s)) ∧
    (∀ m c pa acc, m ≠ s.fabric.module →
      exec (.fabricRemoteAccess (.foreign m c pa acc)) s = .next ((s.foreignAccess (foreignCore m c) pa.toNat acc).remoteArrives s.nextId)) ∧
    (s.joined src = none → exec (.fabricLaunchReceive src bs image) s = .next s) ∧
    (∀ p, s.joined src = some p → src ≠ s.fabric.module.toNat → image.length = (launchRecOf bs).ilen →
      let v := s.predaKnown p.id bs
      (v.2 = false ∨ v.1.launchCode p.id bs true ≠ 0 → exec (.fabricLaunchReceive src bs image) s = .next v.1) ∧
      (v.2 = true → v.1.launchCode p.id bs true = 0 →
        ∃ u l, exec (.fabricLaunchReceive src bs image) s = .next u ∧ u.launches = v.1.launches ++ [l] ∧ l.phase = .waiting ∧
          l.ready = false ∧ l.part = p.id ∧ l.record = launchRecOf bs ∧ l.image = image)) ∧
    (∀ l, s.launches.find? (fun l => l.phase == .waiting && l.expects gen) = some l →
      (ok = true → ∃ u, exec (.startBarrierComplete gen ok) s = .next u ∧ (u.launchOf l.id).map Launch.ready = some true) ∧
      (ok = false → exec (.startBarrierComplete gen ok) s =
        .next ({ s with launches := s.launches.filter fun x => x.id != l.id }.putStatus l.part l.stat 0x52))) ∧
    (port < s.fabric.ports.length → ∃ u, exec (.portTraining port gen) s = .next u ∧ u.fabric.ports[port]? = some ⟨gen, true⟩ ∧
      ∀ m : Nat, (u.fabric.route[m]?).any (fun k => k != port) = true → u.fabric.route[m]? = s.fabric.route[m]?) ∧
    (port < s.fabric.ports.length → ∃ u, exec (.linkPortDown port) s = .next u ∧ (u.fabric.ports[port]?).map Port.up = some false ∧
      (port < 12 → ∀ k ∈ u.fabric.route, k ≠ port)) ∧
    (∃ u, exec (.hostLinkTraining cxl gen width) s = .next u ∧ u.host.cxl = cxl ∧ u.host.gen = gen ∧ u.host.width = width ∧
      u.cores = s.cores ∧ u.mem = s.mem) ∧
    (∃ u, exec .powerLimitReached s = .next u ∧ u.errs.power = true ∧ u.cores = s.cores ∧ u.mem = s.mem) ∧
    (∃ u, exec (.correctedError unit) s = .next u ∧ 1 ≤ u.errorCount unit ∧ u.cores = s.cores ∧ u.mem = s.mem ∧
      ∀ x, x ≠ unit → u.errorCount x = s.errorCount x) ∧
    (s.lasting unit = false → exec (.unitRetire unit) s = .next s) ∧
    (s.lasting unit = true → (∀ n, unit ≠ .core n) → exec (.unitRetire unit) s = .next (s.retireUnit unit) ∧
      unit ∈ (s.retireUnit unit).errs.retired ∧ (s.retireUnit unit).lasting unit = false) ∧
    (∀ n, unit = .core n → s.lasting unit = true →
      (s.coreLaunch n = none → exec (.unitRetire unit) s = .next (s.retireUnit unit)) ∧
      (∀ l, s.coreLaunch n = some l → exec (.unitRetire unit) s = .next (if l.phase = .running then s.preempt l else s))) ∧
    (∃ u, exec (.powerOn images) s = .next u ∧ u.cores = State.reset.cores ∧ u.parts = [] ∧ u.launches = [] ∧ u.seqs = [] ∧
      u.mem = State.reset.mem ∧
      (let good := images.filter fun i => Config.signatureOk i (sha512 i)
       u.host.boot = good.foldl (fun (m : List Byte) i => measure m (sha512 i)) (List.replicate 64 0) ∧
       u.host.fw = good.getLastD State.reset.host.fw))
end

