-- ==== Sys2Proof/Laws/State.lean ====
section
/-!
SUPPORT. What each named update of State leaves alone, field by field, and what reading a core, a thread or a register
gives after a write of one.
-/
set_option Elab.async false
namespace Sys2Proof.Machine

/-! ### setCore -/
@[simp] theorem State.setCore_ctx (s : State) (n : Nat) (c : Core) : (s.setCore n c).ctx = s.ctx := rfl
@[simp] theorem State.setCore_agenda (s : State) (n : Nat) (c : Core) : (s.setCore n c).agenda = s.agenda := rfl
@[simp] theorem State.setCore_tick (s : State) (n : Nat) (c : Core) : (s.setCore n c).tick = s.tick := rfl
@[simp] theorem State.setCore_nextId (s : State) (n : Nat) (c : Core) : (s.setCore n c).nextId = s.nextId := rfl
@[simp] theorem State.setCore_ctlb (s : State) (n : Nat) (c : Core) : (s.setCore n c).ctlb = s.ctlb := rfl
@[simp] theorem State.setCore_mem (s : State) (n : Nat) (c : Core) : (s.setCore n c).mem = s.mem := rfl
@[simp] theorem State.setCore_domtab (s : State) (n : Nat) (c : Core) : (s.setCore n c).domtab = s.domtab := rfl
@[simp] theorem State.setCore_bars (s : State) (n : Nat) (c : Core) : (s.setCore n c).bars = s.bars := rfl
@[simp] theorem State.setCore_seqs (s : State) (n : Nat) (c : Core) : (s.setCore n c).seqs = s.seqs := rfl
@[simp] theorem State.setCore_relocs (s : State) (n : Nat) (c : Core) : (s.setCore n c).relocs = s.relocs := rfl
@[simp] theorem State.setCore_kvpages (s : State) (n : Nat) (c : Core) : (s.setCore n c).kvpages = s.kvpages := rfl
@[simp] theorem State.setCore_kvwaits (s : State) (n : Nat) (c : Core) : (s.setCore n c).kvwaits = s.kvwaits := rfl
@[simp] theorem State.setCore_lookahead (s : State) (n : Nat) (c : Core) : (s.setCore n c).lookahead = s.lookahead := rfl
@[simp] theorem State.setCore_parts (s : State) (n : Nat) (c : Core) : (s.setCore n c).parts = s.parts := rfl
@[simp] theorem State.setCore_launches (s : State) (n : Nat) (c : Core) : (s.setCore n c).launches = s.launches := rfl
@[simp] theorem State.setCore_fabric (s : State) (n : Nat) (c : Core) : (s.setCore n c).fabric = s.fabric := rfl
@[simp] theorem State.setCore_errs (s : State) (n : Nat) (c : Core) : (s.setCore n c).errs = s.errs := rfl
@[simp] theorem State.setCore_host (s : State) (n : Nat) (c : Core) : (s.setCore n c).host = s.host := rfl

/-! ### onCore -/
@[simp] theorem State.onCore_ctx (s : State) (n : Nat) (f : Core → Core) : (s.onCore n f).ctx = s.ctx := rfl
@[simp] theorem State.onCore_agenda (s : State) (n : Nat) (f : Core → Core) : (s.onCore n f).agenda = s.agenda := rfl
@[simp] theorem State.onCore_tick (s : State) (n : Nat) (f : Core → Core) : (s.onCore n f).tick = s.tick := rfl
@[simp] theorem State.onCore_nextId (s : State) (n : Nat) (f : Core → Core) : (s.onCore n f).nextId = s.nextId := rfl
@[simp] theorem State.onCore_ctlb (s : State) (n : Nat) (f : Core → Core) : (s.onCore n f).ctlb = s.ctlb := rfl
@[simp] theorem State.onCore_mem (s : State) (n : Nat) (f : Core → Core) : (s.onCore n f).mem = s.mem := rfl
@[simp] theorem State.onCore_domtab (s : State) (n : Nat) (f : Core → Core) : (s.onCore n f).domtab = s.domtab := rfl
@[simp] theorem State.onCore_bars (s : State) (n : Nat) (f : Core → Core) : (s.onCore n f).bars = s.bars := rfl
@[simp] theorem State.onCore_seqs (s : State) (n : Nat) (f : Core → Core) : (s.onCore n f).seqs = s.seqs := rfl
@[simp] theorem State.onCore_relocs (s : State) (n : Nat) (f : Core → Core) : (s.onCore n f).relocs = s.relocs := rfl
@[simp] theorem State.onCore_kvpages (s : State) (n : Nat) (f : Core → Core) : (s.onCore n f).kvpages = s.kvpages := rfl
@[simp] theorem State.onCore_kvwaits (s : State) (n : Nat) (f : Core → Core) : (s.onCore n f).kvwaits = s.kvwaits := rfl
@[simp] theorem State.onCore_lookahead (s : State) (n : Nat) (f : Core → Core) : (s.onCore n f).lookahead = s.lookahead := rfl
@[simp] theorem State.onCore_parts (s : State) (n : Nat) (f : Core → Core) : (s.onCore n f).parts = s.parts := rfl
@[simp] theorem State.onCore_launches (s : State) (n : Nat) (f : Core → Core) : (s.onCore n f).launches = s.launches := rfl
@[simp] theorem State.onCore_fabric (s : State) (n : Nat) (f : Core → Core) : (s.onCore n f).fabric = s.fabric := rfl
@[simp] theorem State.onCore_errs (s : State) (n : Nat) (f : Core → Core) : (s.onCore n f).errs = s.errs := rfl
@[simp] theorem State.onCore_host (s : State) (n : Nat) (f : Core → Core) : (s.onCore n f).host = s.host := rfl

/-! ### setThread -/
@[simp] theorem State.setThread_ctx (s : State) (n : Nat) (t : BitVec 2) (th : Thread) : (s.setThread n t th).ctx = s.ctx := rfl
@[simp] theorem State.setThread_agenda (s : State) (n : Nat) (t : BitVec 2) (th : Thread) : (s.setThread n t th).agenda = s.agenda := rfl
@[simp] theorem State.setThread_tick (s : State) (n : Nat) (t : BitVec 2) (th : Thread) : (s.setThread n t th).tick = s.tick := rfl
@[simp] theorem State.setThread_nextId (s : State) (n : Nat) (t : BitVec 2) (th : Thread) : (s.setThread n t th).nextId = s.nextId := rfl
@[simp] theorem State.setThread_ctlb (s : State) (n : Nat) (t : BitVec 2) (th : Thread) : (s.setThread n t th).ctlb = s.ctlb := rfl
@[simp] theorem State.setThread_mem (s : State) (n : Nat) (t : BitVec 2) (th : Thread) : (s.setThread n t th).mem = s.mem := rfl
@[simp] theorem State.setThread_domtab (s : State) (n : Nat) (t : BitVec 2) (th : Thread) : (s.setThread n t th).domtab = s.domtab := rfl
@[simp] theorem State.setThread_bars (s : State) (n : Nat) (t : BitVec 2) (th : Thread) : (s.setThread n t th).bars = s.bars := rfl
@[simp] theorem State.setThread_seqs (s : State) (n : Nat) (t : BitVec 2) (th : Thread) : (s.setThread n t th).seqs = s.seqs := rfl
@[simp] theorem State.setThread_relocs (s : State) (n : Nat) (t : BitVec 2) (th : Thread) : (s.setThread n t th).relocs = s.relocs := rfl
@[simp] theorem State.setThread_kvpages (s : State) (n : Nat) (t : BitVec 2) (th : Thread) : (s.setThread n t th).kvpages = s.kvpages := rfl
@[simp] theorem State.setThread_kvwaits (s : State) (n : Nat) (t : BitVec 2) (th : Thread) : (s.setThread n t th).kvwaits = s.kvwaits := rfl
@[simp] theorem State.setThread_lookahead (s : State) (n : Nat) (t : BitVec 2) (th : Thread) : (s.setThread n t th).lookahead = s.lookahead := rfl
@[simp] theorem State.setThread_parts (s : State) (n : Nat) (t : BitVec 2) (th : Thread) : (s.setThread n t th).parts = s.parts := rfl
@[simp] theorem State.setThread_launches (s : State) (n : Nat) (t : BitVec 2) (th : Thread) : (s.setThread n t th).launches = s.launches := rfl
@[simp] theorem State.setThread_fabric (s : State) (n : Nat) (t : BitVec 2) (th : Thread) : (s.setThread n t th).fabric = s.fabric := rfl
@[simp] theorem State.setThread_errs (s : State) (n : Nat) (t : BitVec 2) (th : Thread) : (s.setThread n t th).errs = s.errs := rfl
@[simp] theorem State.setThread_host (s : State) (n : Nat) (t : BitVec 2) (th : Thread) : (s.setThread n t th).host = s.host := rfl

/-! ### onThread -/
@[simp] theorem State.onThread_ctx (s : State) (n : Nat) (t : BitVec 2) (f : Thread → Thread) : (s.onThread n t f).ctx = s.ctx := rfl
@[simp] theorem State.onThread_agenda (s : State) (n : Nat) (t : BitVec 2) (f : Thread → Thread) : (s.onThread n t f).agenda = s.agenda := rfl
@[simp] theorem State.onThread_tick (s : State) (n : Nat) (t : BitVec 2) (f : Thread → Thread) : (s.onThread n t f).tick = s.tick := rfl
@[simp] theorem State.onThread_nextId (s : State) (n : Nat) (t : BitVec 2) (f : Thread → Thread) : (s.onThread n t f).nextId = s.nextId := rfl
@[simp] theorem State.onThread_ctlb (s : State) (n : Nat) (t : BitVec 2) (f : Thread → Thread) : (s.onThread n t f).ctlb = s.ctlb := rfl
@[simp] theorem State.onThread_mem (s : State) (n : Nat) (t : BitVec 2) (f : Thread → Thread) : (s.onThread n t f).mem = s.mem := rfl
@[simp] theorem State.onThread_domtab (s : State) (n : Nat) (t : BitVec 2) (f : Thread → Thread) : (s.onThread n t f).domtab = s.domtab := rfl
@[simp] theorem State.onThread_bars (s : State) (n : Nat) (t : BitVec 2) (f : Thread → Thread) : (s.onThread n t f).bars = s.bars := rfl
@[simp] theorem State.onThread_seqs (s : State) (n : Nat) (t : BitVec 2) (f : Thread → Thread) : (s.onThread n t f).seqs = s.seqs := rfl
@[simp] theorem State.onThread_relocs (s : State) (n : Nat) (t : BitVec 2) (f : Thread → Thread) : (s.onThread n t f).relocs = s.relocs := rfl
@[simp] theorem State.onThread_kvpages (s : State) (n : Nat) (t : BitVec 2) (f : Thread → Thread) : (s.onThread n t f).kvpages = s.kvpages := rfl
@[simp] theorem State.onThread_kvwaits (s : State) (n : Nat) (t : BitVec 2) (f : Thread → Thread) : (s.onThread n t f).kvwaits = s.kvwaits := rfl
@[simp] theorem State.onThread_lookahead (s : State) (n : Nat) (t : BitVec 2) (f : Thread → Thread) : (s.onThread n t f).lookahead = s.lookahead := rfl
@[simp] theorem State.onThread_parts (s : State) (n : Nat) (t : BitVec 2) (f : Thread → Thread) : (s.onThread n t f).parts = s.parts := rfl
@[simp] theorem State.onThread_launches (s : State) (n : Nat) (t : BitVec 2) (f : Thread → Thread) : (s.onThread n t f).launches = s.launches := rfl
@[simp] theorem State.onThread_fabric (s : State) (n : Nat) (t : BitVec 2) (f : Thread → Thread) : (s.onThread n t f).fabric = s.fabric := rfl
@[simp] theorem State.onThread_errs (s : State) (n : Nat) (t : BitVec 2) (f : Thread → Thread) : (s.onThread n t f).errs = s.errs := rfl
@[simp] theorem State.onThread_host (s : State) (n : Nat) (t : BitVec 2) (f : Thread → Thread) : (s.onThread n t f).host = s.host := rfl

/-! ### onCur -/
@[simp] theorem State.onCur_ctx (s : State) (f : Thread → Thread) : (s.onCur f).ctx = s.ctx := rfl
@[simp] theorem State.onCur_agenda (s : State) (f : Thread → Thread) : (s.onCur f).agenda = s.agenda := rfl
@[simp] theorem State.onCur_tick (s : State) (f : Thread → Thread) : (s.onCur f).tick = s.tick := rfl
@[simp] theorem State.onCur_nextId (s : State) (f : Thread → Thread) : (s.onCur f).nextId = s.nextId := rfl
@[simp] theorem State.onCur_ctlb (s : State) (f : Thread → Thread) : (s.onCur f).ctlb = s.ctlb := rfl
@[simp] theorem State.onCur_mem (s : State) (f : Thread → Thread) : (s.onCur f).mem = s.mem := rfl
@[simp] theorem State.onCur_domtab (s : State) (f : Thread → Thread) : (s.onCur f).domtab = s.domtab := rfl
@[simp] theorem State.onCur_bars (s : State) (f : Thread → Thread) : (s.onCur f).bars = s.bars := rfl
@[simp] theorem State.onCur_seqs (s : State) (f : Thread → Thread) : (s.onCur f).seqs = s.seqs := rfl
@[simp] theorem State.onCur_relocs (s : State) (f : Thread → Thread) : (s.onCur f).relocs = s.relocs := rfl
@[simp] theorem State.onCur_kvpages (s : State) (f : Thread → Thread) : (s.onCur f).kvpages = s.kvpages := rfl
@[simp] theorem State.onCur_kvwaits (s : State) (f : Thread → Thread) : (s.onCur f).kvwaits = s.kvwaits := rfl
@[simp] theorem State.onCur_lookahead (s : State) (f : Thread → Thread) : (s.onCur f).lookahead = s.lookahead := rfl
@[simp] theorem State.onCur_parts (s : State) (f : Thread → Thread) : (s.onCur f).parts = s.parts := rfl
@[simp] theorem State.onCur_launches (s : State) (f : Thread → Thread) : (s.onCur f).launches = s.launches := rfl
@[simp] theorem State.onCur_fabric (s : State) (f : Thread → Thread) : (s.onCur f).fabric = s.fabric := rfl
@[simp] theorem State.onCur_errs (s : State) (f : Thread → Thread) : (s.onCur f).errs = s.errs := rfl
@[simp] theorem State.onCur_host (s : State) (f : Thread → Thread) : (s.onCur f).host = s.host := rfl

/-! ### onCurCore -/
@[simp] theorem State.onCurCore_ctx (s : State) (f : Core → Core) : (s.onCurCore f).ctx = s.ctx := rfl
@[simp] theorem State.onCurCore_agenda (s : State) (f : Core → Core) : (s.onCurCore f).agenda = s.agenda := rfl
@[simp] theorem State.onCurCore_tick (s : State) (f : Core → Core) : (s.onCurCore f).tick = s.tick := rfl
@[simp] theorem State.onCurCore_nextId (s : State) (f : Core → Core) : (s.onCurCore f).nextId = s.nextId := rfl
@[simp] theorem State.onCurCore_ctlb (s : State) (f : Core → Core) : (s.onCurCore f).ctlb = s.ctlb := rfl
@[simp] theorem State.onCurCore_mem (s : State) (f : Core → Core) : (s.onCurCore f).mem = s.mem := rfl
@[simp] theorem State.onCurCore_domtab (s : State) (f : Core → Core) : (s.onCurCore f).domtab = s.domtab := rfl
@[simp] theorem State.onCurCore_bars (s : State) (f : Core → Core) : (s.onCurCore f).bars = s.bars := rfl
@[simp] theorem State.onCurCore_seqs (s : State) (f : Core → Core) : (s.onCurCore f).seqs = s.seqs := rfl
@[simp] theorem State.onCurCore_relocs (s : State) (f : Core → Core) : (s.onCurCore f).relocs = s.relocs := rfl
@[simp] theorem State.onCurCore_kvpages (s : State) (f : Core → Core) : (s.onCurCore f).kvpages = s.kvpages := rfl
@[simp] theorem State.onCurCore_kvwaits (s : State) (f : Core → Core) : (s.onCurCore f).kvwaits = s.kvwaits := rfl
@[simp] theorem State.onCurCore_lookahead (s : State) (f : Core → Core) : (s.onCurCore f).lookahead = s.lookahead := rfl
@[simp] theorem State.onCurCore_parts (s : State) (f : Core → Core) : (s.onCurCore f).parts = s.parts := rfl
@[simp] theorem State.onCurCore_launches (s : State) (f : Core → Core) : (s.onCurCore f).launches = s.launches := rfl
@[simp] theorem State.onCurCore_fabric (s : State) (f : Core → Core) : (s.onCurCore f).fabric = s.fabric := rfl
@[simp] theorem State.onCurCore_errs (s : State) (f : Core → Core) : (s.onCurCore f).errs = s.errs := rfl
@[simp] theorem State.onCurCore_host (s : State) (f : Core → Core) : (s.onCurCore f).host = s.host := rfl

/-! ### wr -/
@[simp] theorem State.wr_ctx (s : State) (x : Reg) (v : Word) : (s.wr x v).ctx = s.ctx := rfl
@[simp] theorem State.wr_agenda (s : State) (x : Reg) (v : Word) : (s.wr x v).agenda = s.agenda := rfl
@[simp] theorem State.wr_tick (s : State) (x : Reg) (v : Word) : (s.wr x v).tick = s.tick := rfl
@[simp] theorem State.wr_nextId (s : State) (x : Reg) (v : Word) : (s.wr x v).nextId = s.nextId := rfl
@[simp] theorem State.wr_ctlb (s : State) (x : Reg) (v : Word) : (s.wr x v).ctlb = s.ctlb := rfl
@[simp] theorem State.wr_mem (s : State) (x : Reg) (v : Word) : (s.wr x v).mem = s.mem := rfl
@[simp] theorem State.wr_domtab (s : State) (x : Reg) (v : Word) : (s.wr x v).domtab = s.domtab := rfl
@[simp] theorem State.wr_bars (s : State) (x : Reg) (v : Word) : (s.wr x v).bars = s.bars := rfl
@[simp] theorem State.wr_seqs (s : State) (x : Reg) (v : Word) : (s.wr x v).seqs = s.seqs := rfl
@[simp] theorem State.wr_relocs (s : State) (x : Reg) (v : Word) : (s.wr x v).relocs = s.relocs := rfl
@[simp] theorem State.wr_kvpages (s : State) (x : Reg) (v : Word) : (s.wr x v).kvpages = s.kvpages := rfl
@[simp] theorem State.wr_kvwaits (s : State) (x : Reg) (v : Word) : (s.wr x v).kvwaits = s.kvwaits := rfl
@[simp] theorem State.wr_lookahead (s : State) (x : Reg) (v : Word) : (s.wr x v).lookahead = s.lookahead := rfl
@[simp] theorem State.wr_parts (s : State) (x : Reg) (v : Word) : (s.wr x v).parts = s.parts := rfl
@[simp] theorem State.wr_launches (s : State) (x : Reg) (v : Word) : (s.wr x v).launches = s.launches := rfl
@[simp] theorem State.wr_fabric (s : State) (x : Reg) (v : Word) : (s.wr x v).fabric = s.fabric := rfl
@[simp] theorem State.wr_errs (s : State) (x : Reg) (v : Word) : (s.wr x v).errs = s.errs := rfl
@[simp] theorem State.wr_host (s : State) (x : Reg) (v : Word) : (s.wr x v).host = s.host := rfl

/-! ### wv -/
@[simp] theorem State.wv_ctx (s : State) (x : VReg) (v : VWord) : (s.wv x v).ctx = s.ctx := rfl
@[simp] theorem State.wv_agenda (s : State) (x : VReg) (v : VWord) : (s.wv x v).agenda = s.agenda := rfl
@[simp] theorem State.wv_tick (s : State) (x : VReg) (v : VWord) : (s.wv x v).tick = s.tick := rfl
@[simp] theorem State.wv_nextId (s : State) (x : VReg) (v : VWord) : (s.wv x v).nextId = s.nextId := rfl
@[simp] theorem State.wv_ctlb (s : State) (x : VReg) (v : VWord) : (s.wv x v).ctlb = s.ctlb := rfl
@[simp] theorem State.wv_mem (s : State) (x : VReg) (v : VWord) : (s.wv x v).mem = s.mem := rfl
@[simp] theorem State.wv_domtab (s : State) (x : VReg) (v : VWord) : (s.wv x v).domtab = s.domtab := rfl
@[simp] theorem State.wv_bars (s : State) (x : VReg) (v : VWord) : (s.wv x v).bars = s.bars := rfl
@[simp] theorem State.wv_seqs (s : State) (x : VReg) (v : VWord) : (s.wv x v).seqs = s.seqs := rfl
@[simp] theorem State.wv_relocs (s : State) (x : VReg) (v : VWord) : (s.wv x v).relocs = s.relocs := rfl
@[simp] theorem State.wv_kvpages (s : State) (x : VReg) (v : VWord) : (s.wv x v).kvpages = s.kvpages := rfl
@[simp] theorem State.wv_kvwaits (s : State) (x : VReg) (v : VWord) : (s.wv x v).kvwaits = s.kvwaits := rfl
@[simp] theorem State.wv_lookahead (s : State) (x : VReg) (v : VWord) : (s.wv x v).lookahead = s.lookahead := rfl
@[simp] theorem State.wv_parts (s : State) (x : VReg) (v : VWord) : (s.wv x v).parts = s.parts := rfl
@[simp] theorem State.wv_launches (s : State) (x : VReg) (v : VWord) : (s.wv x v).launches = s.launches := rfl
@[simp] theorem State.wv_fabric (s : State) (x : VReg) (v : VWord) : (s.wv x v).fabric = s.fabric := rfl
@[simp] theorem State.wv_errs (s : State) (x : VReg) (v : VWord) : (s.wv x v).errs = s.errs := rfl
@[simp] theorem State.wv_host (s : State) (x : VReg) (v : VWord) : (s.wv x v).host = s.host := rfl

/-! ### sticky -/
@[simp] theorem State.sticky_ctx (s : State) (m : BitVec 8) : (s.sticky m).ctx = s.ctx := rfl
@[simp] theorem State.sticky_agenda (s : State) (m : BitVec 8) : (s.sticky m).agenda = s.agenda := rfl
@[simp] theorem State.sticky_tick (s : State) (m : BitVec 8) : (s.sticky m).tick = s.tick := rfl
@[simp] theorem State.sticky_nextId (s : State) (m : BitVec 8) : (s.sticky m).nextId = s.nextId := rfl
@[simp] theorem State.sticky_ctlb (s : State) (m : BitVec 8) : (s.sticky m).ctlb = s.ctlb := rfl
@[simp] theorem State.sticky_mem (s : State) (m : BitVec 8) : (s.sticky m).mem = s.mem := rfl
@[simp] theorem State.sticky_domtab (s : State) (m : BitVec 8) : (s.sticky m).domtab = s.domtab := rfl
@[simp] theorem State.sticky_bars (s : State) (m : BitVec 8) : (s.sticky m).bars = s.bars := rfl
@[simp] theorem State.sticky_seqs (s : State) (m : BitVec 8) : (s.sticky m).seqs = s.seqs := rfl
@[simp] theorem State.sticky_relocs (s : State) (m : BitVec 8) : (s.sticky m).relocs = s.relocs := rfl
@[simp] theorem State.sticky_kvpages (s : State) (m : BitVec 8) : (s.sticky m).kvpages = s.kvpages := rfl
@[simp] theorem State.sticky_kvwaits (s : State) (m : BitVec 8) : (s.sticky m).kvwaits = s.kvwaits := rfl
@[simp] theorem State.sticky_lookahead (s : State) (m : BitVec 8) : (s.sticky m).lookahead = s.lookahead := rfl
@[simp] theorem State.sticky_parts (s : State) (m : BitVec 8) : (s.sticky m).parts = s.parts := rfl
@[simp] theorem State.sticky_launches (s : State) (m : BitVec 8) : (s.sticky m).launches = s.launches := rfl
@[simp] theorem State.sticky_fabric (s : State) (m : BitVec 8) : (s.sticky m).fabric = s.fabric := rfl
@[simp] theorem State.sticky_errs (s : State) (m : BitVec 8) : (s.sticky m).errs = s.errs := rfl
@[simp] theorem State.sticky_host (s : State) (m : BitVec 8) : (s.sticky m).host = s.host := rfl

/-! ### fated -/
@[simp] theorem State.fated_agenda (s : State) (f : Fate) : (s.fated f).agenda = s.agenda := rfl
@[simp] theorem State.fated_tick (s : State) (f : Fate) : (s.fated f).tick = s.tick := rfl
@[simp] theorem State.fated_nextId (s : State) (f : Fate) : (s.fated f).nextId = s.nextId := rfl
@[simp] theorem State.fated_cores (s : State) (f : Fate) : (s.fated f).cores = s.cores := rfl
@[simp] theorem State.fated_ctlb (s : State) (f : Fate) : (s.fated f).ctlb = s.ctlb := rfl
@[simp] theorem State.fated_mem (s : State) (f : Fate) : (s.fated f).mem = s.mem := rfl
@[simp] theorem State.fated_domtab (s : State) (f : Fate) : (s.fated f).domtab = s.domtab := rfl
@[simp] theorem State.fated_bars (s : State) (f : Fate) : (s.fated f).bars = s.bars := rfl
@[simp] theorem State.fated_seqs (s : State) (f : Fate) : (s.fated f).seqs = s.seqs := rfl
@[simp] theorem State.fated_relocs (s : State) (f : Fate) : (s.fated f).relocs = s.relocs := rfl
@[simp] theorem State.fated_kvpages (s : State) (f : Fate) : (s.fated f).kvpages = s.kvpages := rfl
@[simp] theorem State.fated_kvwaits (s : State) (f : Fate) : (s.fated f).kvwaits = s.kvwaits := rfl
@[simp] theorem State.fated_lookahead (s : State) (f : Fate) : (s.fated f).lookahead = s.lookahead := rfl
@[simp] theorem State.fated_parts (s : State) (f : Fate) : (s.fated f).parts = s.parts := rfl
@[simp] theorem State.fated_launches (s : State) (f : Fate) : (s.fated f).launches = s.launches := rfl
@[simp] theorem State.fated_fabric (s : State) (f : Fate) : (s.fated f).fabric = s.fabric := rfl
@[simp] theorem State.fated_errs (s : State) (f : Fate) : (s.fated f).errs = s.errs := rfl
@[simp] theorem State.fated_host (s : State) (f : Fate) : (s.fated f).host = s.host := rfl

/-! ### onLaunch -/
@[simp] theorem State.onLaunch_ctx (s : State) (k : Nat) (f : Launch → Launch) : (s.onLaunch k f).ctx = s.ctx := rfl
@[simp] theorem State.onLaunch_agenda (s : State) (k : Nat) (f : Launch → Launch) : (s.onLaunch k f).agenda = s.agenda := rfl
@[simp] theorem State.onLaunch_tick (s : State) (k : Nat) (f : Launch → Launch) : (s.onLaunch k f).tick = s.tick := rfl
@[simp] theorem State.onLaunch_nextId (s : State) (k : Nat) (f : Launch → Launch) : (s.onLaunch k f).nextId = s.nextId := rfl
@[simp] theorem State.onLaunch_cores (s : State) (k : Nat) (f : Launch → Launch) : (s.onLaunch k f).cores = s.cores := rfl
@[simp] theorem State.onLaunch_ctlb (s : State) (k : Nat) (f : Launch → Launch) : (s.onLaunch k f).ctlb = s.ctlb := rfl
@[simp] theorem State.onLaunch_mem (s : State) (k : Nat) (f : Launch → Launch) : (s.onLaunch k f).mem = s.mem := rfl
@[simp] theorem State.onLaunch_domtab (s : State) (k : Nat) (f : Launch → Launch) : (s.onLaunch k f).domtab = s.domtab := rfl
@[simp] theorem State.onLaunch_bars (s : State) (k : Nat) (f : Launch → Launch) : (s.onLaunch k f).bars = s.bars := rfl
@[simp] theorem State.onLaunch_seqs (s : State) (k : Nat) (f : Launch → Launch) : (s.onLaunch k f).seqs = s.seqs := rfl
@[simp] theorem State.onLaunch_relocs (s : State) (k : Nat) (f : Launch → Launch) : (s.onLaunch k f).relocs = s.relocs := rfl
@[simp] theorem State.onLaunch_kvpages (s : State) (k : Nat) (f : Launch → Launch) : (s.onLaunch k f).kvpages = s.kvpages := rfl
@[simp] theorem State.onLaunch_kvwaits (s : State) (k : Nat) (f : Launch → Launch) : (s.onLaunch k f).kvwaits = s.kvwaits := rfl
@[simp] theorem State.onLaunch_lookahead (s : State) (k : Nat) (f : Launch → Launch) : (s.onLaunch k f).lookahead = s.lookahead := rfl
@[simp] theorem State.onLaunch_parts (s : State) (k : Nat) (f : Launch → Launch) : (s.onLaunch k f).parts = s.parts := rfl
@[simp] theorem State.onLaunch_fabric (s : State) (k : Nat) (f : Launch → Launch) : (s.onLaunch k f).fabric = s.fabric := rfl
@[simp] theorem State.onLaunch_errs (s : State) (k : Nat) (f : Launch → Launch) : (s.onLaunch k f).errs = s.errs := rfl
@[simp] theorem State.onLaunch_host (s : State) (k : Nat) (f : Launch → Launch) : (s.onLaunch k f).host = s.host := rfl

/-! ### onPart -/
@[simp] theorem State.onPart_ctx (s : State) (k : Nat) (f : Partition → Partition) : (s.onPart k f).ctx = s.ctx := rfl
@[simp] theorem State.onPart_agenda (s : State) (k : Nat) (f : Partition → Partition) : (s.onPart k f).agenda = s.agenda := rfl
@[simp] theorem State.onPart_tick (s : State) (k : Nat) (f : Partition → Partition) : (s.onPart k f).tick = s.tick := rfl
@[simp] theorem State.onPart_nextId (s : State) (k : Nat) (f : Partition → Partition) : (s.onPart k f).nextId = s.nextId := rfl
@[simp] theorem State.onPart_cores (s : State) (k : Nat) (f : Partition → Partition) : (s.onPart k f).cores = s.cores := rfl
@[simp] theorem State.onPart_ctlb (s : State) (k : Nat) (f : Partition → Partition) : (s.onPart k f).ctlb = s.ctlb := rfl
@[simp] theorem State.onPart_mem (s : State) (k : Nat) (f : Partition → Partition) : (s.onPart k f).mem = s.mem := rfl
@[simp] theorem State.onPart_domtab (s : State) (k : Nat) (f : Partition → Partition) : (s.onPart k f).domtab = s.domtab := rfl
@[simp] theorem State.onPart_bars (s : State) (k : Nat) (f : Partition → Partition) : (s.onPart k f).bars = s.bars := rfl
@[simp] theorem State.onPart_seqs (s : State) (k : Nat) (f : Partition → Partition) : (s.onPart k f).seqs = s.seqs := rfl
@[simp] theorem State.onPart_relocs (s : State) (k : Nat) (f : Partition → Partition) : (s.onPart k f).relocs = s.relocs := rfl
@[simp] theorem State.onPart_kvpages (s : State) (k : Nat) (f : Partition → Partition) : (s.onPart k f).kvpages = s.kvpages := rfl
@[simp] theorem State.onPart_kvwaits (s : State) (k : Nat) (f : Partition → Partition) : (s.onPart k f).kvwaits = s.kvwaits := rfl
@[simp] theorem State.onPart_lookahead (s : State) (k : Nat) (f : Partition → Partition) : (s.onPart k f).lookahead = s.lookahead := rfl
@[simp] theorem State.onPart_launches (s : State) (k : Nat) (f : Partition → Partition) : (s.onPart k f).launches = s.launches := rfl
@[simp] theorem State.onPart_fabric (s : State) (k : Nat) (f : Partition → Partition) : (s.onPart k f).fabric = s.fabric := rfl
@[simp] theorem State.onPart_errs (s : State) (k : Nat) (f : Partition → Partition) : (s.onPart k f).errs = s.errs := rfl
@[simp] theorem State.onPart_host (s : State) (k : Nat) (f : Partition → Partition) : (s.onPart k f).host = s.host := rfl

/-! ### onSeq -/
@[simp] theorem State.onSeq_ctx (s : State) (p k : Nat) (f : Seq → Seq) : (s.onSeq p k f).ctx = s.ctx := rfl
@[simp] theorem State.onSeq_agenda (s : State) (p k : Nat) (f : Seq → Seq) : (s.onSeq p k f).agenda = s.agenda := rfl
@[simp] theorem State.onSeq_tick (s : State) (p k : Nat) (f : Seq → Seq) : (s.onSeq p k f).tick = s.tick := rfl
@[simp] theorem State.onSeq_nextId (s : State) (p k : Nat) (f : Seq → Seq) : (s.onSeq p k f).nextId = s.nextId := rfl
@[simp] theorem State.onSeq_cores (s : State) (p k : Nat) (f : Seq → Seq) : (s.onSeq p k f).cores = s.cores := rfl
@[simp] theorem State.onSeq_ctlb (s : State) (p k : Nat) (f : Seq → Seq) : (s.onSeq p k f).ctlb = s.ctlb := rfl
@[simp] theorem State.onSeq_mem (s : State) (p k : Nat) (f : Seq → Seq) : (s.onSeq p k f).mem = s.mem := rfl
@[simp] theorem State.onSeq_domtab (s : State) (p k : Nat) (f : Seq → Seq) : (s.onSeq p k f).domtab = s.domtab := rfl
@[simp] theorem State.onSeq_bars (s : State) (p k : Nat) (f : Seq → Seq) : (s.onSeq p k f).bars = s.bars := rfl
@[simp] theorem State.onSeq_relocs (s : State) (p k : Nat) (f : Seq → Seq) : (s.onSeq p k f).relocs = s.relocs := rfl
@[simp] theorem State.onSeq_kvpages (s : State) (p k : Nat) (f : Seq → Seq) : (s.onSeq p k f).kvpages = s.kvpages := rfl
@[simp] theorem State.onSeq_kvwaits (s : State) (p k : Nat) (f : Seq → Seq) : (s.onSeq p k f).kvwaits = s.kvwaits := rfl
@[simp] theorem State.onSeq_lookahead (s : State) (p k : Nat) (f : Seq → Seq) : (s.onSeq p k f).lookahead = s.lookahead := rfl
@[simp] theorem State.onSeq_parts (s : State) (p k : Nat) (f : Seq → Seq) : (s.onSeq p k f).parts = s.parts := rfl
@[simp] theorem State.onSeq_launches (s : State) (p k : Nat) (f : Seq → Seq) : (s.onSeq p k f).launches = s.launches := rfl
@[simp] theorem State.onSeq_fabric (s : State) (p k : Nat) (f : Seq → Seq) : (s.onSeq p k f).fabric = s.fabric := rfl
@[simp] theorem State.onSeq_errs (s : State) (p k : Nat) (f : Seq → Seq) : (s.onSeq p k f).errs = s.errs := rfl
@[simp] theorem State.onSeq_host (s : State) (p k : Nat) (f : Seq → Seq) : (s.onSeq p k f).host = s.host := rfl

/-! ### Association lists -/

@[simp] theorem assoc_assocPut_self {α : Type} (l : List (Nat × α)) (x : Nat) (v : α) :
    assoc (assocPut l x v) x = some v := by
  induction l with
  | nil => simp [assocPut, assoc]
  | cons p rest ih =>
    obtain ⟨k, w⟩ := p
    by_cases h1 : k < x
    · simp [assocPut, assoc, h1, ih, Nat.ne_of_lt h1]
    · by_cases h2 : k = x <;> simp [assocPut, assoc, h1, h2]

theorem assoc_assocPut_ne {α : Type} (l : List (Nat × α)) {x y : Nat} (v : α) (h : y ≠ x) :
    assoc (assocPut l x v) y = assoc l y := by
  induction l with
  | nil => simp [assocPut, assoc, Ne.symm h]
  | cons p rest ih =>
    obtain ⟨k, w⟩ := p
    by_cases h1 : k < x
    · simp [assocPut, assoc, h1, ih]
    · by_cases h2 : k = x
      · subst h2; simp [assocPut, assoc, Ne.symm h]
      · simp [assocPut, assoc, h1, h2, Ne.symm h]

/-! ### Cores -/

@[simp] theorem State.core_setCore_self (s : State) (n : Nat) (c : Core) : (s.setCore n c).core n = c := by
  simp [State.core, State.setCore]

theorem State.core_setCore_ne (s : State) {n m : Nat} (c : Core) (h : m ≠ n) : (s.setCore n c).core m = s.core m := by
  simp [State.core, State.setCore, assoc_assocPut_ne _ _ h]

@[simp] theorem State.core_onCore_self (s : State) (n : Nat) (f : Core → Core) : (s.onCore n f).core n = f (s.core n) := by
  simp [State.onCore]

theorem State.core_onCore_ne (s : State) {n m : Nat} (f : Core → Core) (h : m ≠ n) :
    (s.onCore n f).core m = s.core m := by
  simp [State.onCore, State.core_setCore_ne s _ h]

@[simp] theorem State.curCore_onCurCore (s : State) (f : Core → Core) : (s.onCurCore f).curCore = f s.curCore := by
  simp [State.curCore, State.onCurCore, State.onCore]

/-! ### Threads -/

@[simp] theorem get4_set4_self {α : Type} (v : Vector α 4) (i : BitVec 2) (x : α) : get4 (set4 v i x) i = x := by
  simp [get4, set4]

theorem get4_set4_ne {α : Type} (v : Vector α 4) {i j : BitVec 2} (x : α) (h : j ≠ i) :
    get4 (set4 v i x) j = get4 v j := by
  have : i.toNat ≠ j.toNat := fun e => h (BitVec.eq_of_toNat_eq e).symm
  simp [get4, set4, this]

@[simp] theorem get8_set8_self {α : Type} (v : Vector α 8) (i : BitVec 3) (x : α) : get8 (set8 v i x) i = x := by
  simp [get8, set8]

theorem get8_set8_ne {α : Type} (v : Vector α 8) {i j : BitVec 3} (x : α) (h : j ≠ i) :
    get8 (set8 v i x) j = get8 v j := by
  have : i.toNat ≠ j.toNat := fun e => h (BitVec.eq_of_toNat_eq e).symm
  simp [get8, set8, this]

@[simp] theorem get16_set16_self {α : Type} (v : Vector α 16) (i : BitVec 4) (x : α) : get16 (set16 v i x) i = x := by
  simp [get16, set16]

theorem get16_set16_ne {α : Type} (v : Vector α 16) {i j : BitVec 4} (x : α) (h : j ≠ i) :
    get16 (set16 v i x) j = get16 v j := by
  have : i.toNat ≠ j.toNat := fun e => h (BitVec.eq_of_toNat_eq e).symm
  simp [get16, set16, this]

@[simp] theorem State.thread_setThread_self (s : State) (n : Nat) (t : BitVec 2) (th : Thread) :
    (s.setThread n t th).thread n t = th := by
  simp [State.thread, State.setThread]

theorem State.thread_setThread_ne (s : State) {n m : Nat} {t k : BitVec 2} (th : Thread) (h : m ≠ n ∨ k ≠ t) :
    (s.setThread n t th).thread m k = s.thread m k := by
  by_cases e : m = n
  · subst e
    simp [State.thread, State.setThread, get4_set4_ne _ _ (h.resolve_left (fun x => x rfl))]
  · simp [State.thread, State.setThread, State.core_onCore_ne s _ e]

@[simp] theorem State.thread_onThread_self (s : State) (n : Nat) (t : BitVec 2) (f : Thread → Thread) :
    (s.onThread n t f).thread n t = f (s.thread n t) := by
  simp [State.onThread]

theorem State.thread_onThread_ne (s : State) {n m : Nat} {t k : BitVec 2} (f : Thread → Thread) (h : m ≠ n ∨ k ≠ t) :
    (s.onThread n t f).thread m k = s.thread m k := by
  simp [State.onThread, State.thread_setThread_ne s _ h]

/-- What a change of one thread leaves of its core. -/
theorem State.core_onThread (s : State) (n : Nat) (t : BitVec 2) (f : Thread → Thread) :
    (s.onThread n t f).core n = { s.core n with thr := set4 (s.core n).thr t (f (s.thread n t)) } := by
  simp [State.onThread, State.setThread]

theorem State.core_onThread_ne (s : State) {n m : Nat} (t : BitVec 2) (f : Thread → Thread) (h : m ≠ n) :
    (s.onThread n t f).core m = s.core m := by
  simp [State.onThread, State.setThread, State.core_onCore_ne s _ h]

/-! ### The executing thread -/

@[simp] theorem State.cur_onCur (s : State) (f : Thread → Thread) : (s.onCur f).cur = f s.cur := by
  simp [State.cur, State.onCur]

@[simp] theorem State.cur_wr (s : State) (x : Reg) (v : Word) :
    (s.wr x v).cur = { s.cur with regs := s.cur.regs.write x v } := by
  simp [State.wr]

@[simp] theorem State.cur_wv (s : State) (x : VReg) (v : VWord) :
    (s.wv x v).cur = { s.cur with regs := s.cur.regs.writeV x v } := by
  simp [State.wv]

@[simp] theorem State.cur_sticky (s : State) (f : BitVec 8) :
    (s.sticky f).cur = { s.cur with sp := { s.cur.sp with fs := s.cur.sp.fs ||| f } } := by
  simp [State.sticky]

@[simp] theorem State.cur_fated (s : State) (f : Fate) : (s.fated f).cur = s.cur := rfl

@[simp] theorem State.fated_ctx (s : State) (f : Fate) : (s.fated f).ctx = { s.ctx with fate := f } := rfl

@[simp] theorem State.core_fated (s : State) (f : Fate) (n : Nat) : (s.fated f).core n = s.core n := rfl

@[simp] theorem State.thread_fated (s : State) (f : Fate) (n : Nat) (t : BitVec 2) :
    (s.fated f).thread n t = s.thread n t := rfl

/-! ### Registers -/

/-- Reading the physical register that has been written. A v register is none of the scalar ones. -/
theorem Regs.get_put_self (r : Regs) {d : Dest} (v : Word) (h : d ≠ .none) (hv : ∀ k, d ≠ .v k) : (r.put d v).get d = v := by
  cases d <;> simp_all [Regs.get, Regs.put]

/-- Every other scalar register keeps its value. -/
theorem Regs.get_put_ne (r : Regs) {d e : Dest} (v : Word) (h : e ≠ d) : (r.put d v).get e = r.get e := by
  cases d with
  | none => rfl
  | v k => rfl
  | g k =>
    cases e <;> simp only [Regs.get, Regs.put]
    rename_i j
    exact get8_set8_ne _ _ (fun x => h (by rw [x]))
  | out k =>
    cases e <;> simp only [Regs.get, Regs.put]
    rename_i j
    exact get8_set8_ne _ _ (fun x => h (by rw [x]))
  | l w k =>
    cases e <;> simp only [Regs.get, Regs.put]
    · rename_i w' k'
      by_cases e : w' = w
      · subst e
        rw [get8_set8_self]
        exact get8_set8_ne _ _ (fun x => h (by rw [x]))
      · rw [get8_set8_ne _ _ e]
    · rename_i w' k'
      by_cases e : w' = w
      · subst e; rw [get8_set8_self]
      · rw [get8_set8_ne _ _ e]
  | i w k =>
    cases e <;> simp only [Regs.get, Regs.put]
    · rename_i w' k'
      by_cases e : w' = w
      · subst e; rw [get8_set8_self]
      · rw [get8_set8_ne _ _ e]
    · rename_i w' k'
      by_cases e : w' = w
      · subst e
        rw [get8_set8_self]
        exact get8_set8_ne _ _ (fun x => h (by rw [x]))
      · rw [get8_set8_ne _ _ e]

@[simp] theorem Regs.put_v (r : Regs) (d : Dest) (v : Word) : (r.put d v).v = r.v := by cases d <;> rfl
@[simp] theorem Regs.put_sp (r : Regs) (d : Dest) (v : Word) : (r.put d v).sp = r.sp := by cases d <;> rfl
@[simp] theorem Regs.put_top (r : Regs) (d : Dest) (v : Word) : (r.put d v).top = r.top := by cases d <;> rfl
@[simp] theorem Regs.put_cwp (r : Regs) (d : Dest) (v : Word) : (r.put d v).cwp = r.cwp := by cases d <;> rfl
@[simp] theorem Regs.put_wres (r : Regs) (d : Dest) (v : Word) : (r.put d v).wres = r.wres := by cases d <;> rfl
@[simp] theorem Regs.put_dest (r : Regs) (d : Dest) (v : Word) (x : Reg) : (r.put d v).dest x = r.dest x := by
  simp [Regs.dest]
@[simp] theorem Regs.write_v (r : Regs) (x : Reg) (v : Word) : (r.write x v).v = r.v := by simp [Regs.write]
@[simp] theorem Regs.write_sp (r : Regs) (x : Reg) (v : Word) : (r.write x v).sp = r.sp := by simp [Regs.write]
@[simp] theorem Regs.write_top (r : Regs) (x : Reg) (v : Word) : (r.write x v).top = r.top := by simp [Regs.write]
@[simp] theorem Regs.write_cwp (r : Regs) (x : Reg) (v : Word) : (r.write x v).cwp = r.cwp := by simp [Regs.write]
@[simp] theorem Regs.write_wres (r : Regs) (x : Reg) (v : Word) : (r.write x v).wres = r.wres := by simp [Regs.write]
@[simp] theorem Regs.write_dest (r : Regs) (x : Reg) (v : Word) (y : Reg) : (r.write x v).dest y = r.dest y := by
  simp [Regs.write]

/-- A register number never reaches a v register. -/
theorem Regs.dest_ne_v (r : Regs) (x : Reg) (k : BitVec 4) : r.dest x ≠ .v k := by
  simp only [Regs.dest]
  split <;> split <;> (try simp) <;> split <;> simp

/-- g0 reads zero (spec/03 R75). -/
@[simp] theorem Regs.read_g0 (r : Regs) : r.read 0#5 = 0#64 := by simp [Regs.read, Regs.dest, Regs.get]

@[simp] theorem State.rd_g0 (s : State) : s.rd 0#5 = 0#64 := by simp [State.rd]

/-- A write to g0 is discarded. -/
@[simp] theorem Regs.write_g0 (r : Regs) (v : Word) : r.write 0#5 v = r := by simp [Regs.write, Regs.dest, Regs.put]

end Sys2Proof.Machine
end

