-- ==== Sys2Proof/Laws/Complete.lean ====
section
/-!
SUPPORT. What completing an instruction, a taken transfer, a result and a wait do, once and for all instructions that end
so; and what the loop test gives outside loops.
-/
set_option Elab.async false
namespace Sys2Proof.Machine

open Claims

/-! ### Changes of the executing thread alone -/

/-- A change of the executing thread, a yield and the fate leave everything else. -/
theorem onlyThread_of (s : State) (f : Thread → Thread) (fate : Fate) :
    OnlyThread s ((s.onCur f).yielded.fated fate) := by
  unfold State.yielded
  by_cases hy : s.ctx.yield = true
  · rw [if_pos (by exact hy)]
    refine ⟨rfl, fun n h => ?_, ?_, fun k h => ?_⟩
    · simp [State.onCurCore, State.core_onCore_ne _ _ h, State.onCur, State.core_onThread_ne s _ _ h]
    · simp [State.curCore, State.onCurCore, State.onCur, State.core_onThread]
    · simp [State.thread, State.onCurCore, State.onCur, State.core_onThread, get4_set4_ne _ _ h]
  · rw [if_neg (by exact hy)]
    refine ⟨rfl, fun n h => ?_, ?_, fun k h => ?_⟩
    · simp [State.onCur, State.core_onThread_ne s _ _ h]
    · simp [State.curCore, State.onCur, State.core_onThread]
    · simp [State.thread, State.onCur, State.core_onThread, get4_set4_ne _ _ h]

/-- A yield marks the thread; without one the mark stays. -/
theorem yields_of (s : State) (f : Thread → Thread) (fate : Fate) : Yields s ((s.onCur f).yielded.fated fate) := by
  unfold Yields State.yielded
  by_cases hy : s.ctx.yield = true
  · rw [if_pos (by exact hy)]
    simp [hy, State.curCore, State.onCurCore, State.onCur, State.core_onThread]
  · rw [if_neg (by exact hy)]
    simp [hy, State.curCore, State.onCur, State.core_onThread]

@[simp] theorem State.yielded_ctx (s : State) : s.yielded.ctx = s.ctx := by unfold State.yielded; split <;> rfl

@[simp] theorem State.cur_yielded (s : State) : s.yielded.cur = s.cur := by
  unfold State.yielded
  split
  · simp [State.cur, State.thread, State.onCurCore]
  · rfl

theorem State.onCur_onCur (s : State) (f g : Thread → Thread) : (s.onCur f).onCur g = s.onCur fun t => g (f t) := by
  simp only [State.onCur, State.onThread, State.setThread, State.onCore, State.setCore, State.thread, State.core]
  simp only [assoc_assocPut_self, Option.getD_some, get4_set4_self]
  congr 1
  have set_set : ∀ (v : Vector Thread 4) (i : BitVec 2) (x y : Thread), set4 (set4 v i x) i y = set4 v i y := by
    intro v i x y; simp [set4]
  rw [set_set]
  generalize s.ctx.core = n
  induction s.cores with
  | nil => simp [assocPut]
  | cons p rest ih =>
    obtain ⟨k, w⟩ := p
    by_cases h1 : k < n
    · have hne : k ≠ n := Nat.ne_of_lt h1
      simp only [assocPut, assoc, h1, hne, if_true, if_false]
      exact congrArg _ ih
    · by_cases h2 : k = n
      · simp [assocPut, h2]
      · simp [assocPut, h1, h2]

/-! ### Completing -/

/-- What `retireTo` does (spec/04 R119; spec/03 R86). -/
theorem State.retireTo_completed (s : State) (next : Word) : Completed s (s.retireTo next) next s.cur.regs 0 := by
  refine ⟨onlyThread_of s _ .issued, yields_of s _ .issued, rfl, ?_, ?_⟩
  · simp only [State.retireTo, State.cur_fated, State.cur_yielded, State.cur_onCur]
    split <;> rfl
  · simp only [State.retireTo, State.cur_fated, State.cur_yielded, State.cur_onCur]
    split <;> simp [Thread.complete, Thread.discard]

/-- A result of the thread, then completion. -/
theorem State.onCur_retireTo_completed (s : State) (next : Word) (regs : Regs) (flags : BitVec 8) :
    Completed s ((s.onCur fun t => { t with regs := regs, sp := { t.sp with fs := t.sp.fs ||| flags } }).retireTo next)
      next regs flags := by
  simp only [State.retireTo, State.onCur_onCur, State.cur_onCur, State.onCur_ctx]
  refine ⟨onlyThread_of s _ .issued, yields_of s _ .issued, rfl, ?_, ?_⟩
  · simp only [State.cur_fated, State.cur_yielded, State.cur_onCur]
    split <;> rfl
  · simp only [State.cur_fated, State.cur_yielded, State.cur_onCur]
    split <;> simp [Thread.complete, Thread.discard]

@[simp] theorem State.after_wr (s : State) (x : Reg) (v : Word) : (s.wr x v).after = s.after := rfl
@[simp] theorem State.after_wv (s : State) (x : VReg) (v : VWord) : (s.wv x v).after = s.after := rfl
@[simp] theorem State.after_sticky (s : State) (f : BitVec 8) : (s.sticky f).after = s.after := rfl

/-- A scalar result with its flags. -/
theorem State.done_writes (s : State) (rd : Reg) (r : Word × Flags) : Writes s (s.done rd r) rd r.1 r.2 := by
  have e : (s.wr rd r.1).sticky r.2 = s.onCur fun t =>
      { t with regs := s.cur.regs.write rd r.1, sp := { t.sp with fs := t.sp.fs ||| r.2 } } := by
    simp only [State.wr, State.sticky, State.onCur_onCur]
    simp [State.onCur, State.onThread, State.cur]
  simp only [State.done, State.retire, e]
  exact s.onCur_retireTo_completed s.after _ _

/-- A scalar result without flags. -/
theorem State.wr_retire_writes (s : State) (rd : Reg) (v : Word) : Writes s (s.wr rd v).retire rd v 0 := by
  have e : s.wr rd v = s.onCur fun t =>
      { t with regs := s.cur.regs.write rd v, sp := { t.sp with fs := t.sp.fs ||| 0 } } := by
    simp [State.wr, State.onCur, State.onThread, State.cur]
  simp only [State.retire]
  rw [State.after_wr, e]
  exact s.onCur_retireTo_completed s.after _ _

/-- A scalar result that is written late: what it gives once other results have landed meanwhile. -/
theorem State.doneLate_writes (s : State) (rd : Reg) (r : Word × Flags) :
    ∃ t, s.doneLate rd r = t.tagLate ∧ Writes (meanwhile s [s.cur.regs.dest rd]) t rd r.1 r.2 :=
  ⟨_, rfl, State.done_writes _ rd r⟩

/-- A v result with its flags. -/
theorem State.wv_sticky_retire_writes (s : State) (vd : VReg) (v : VWord) (f : Flags) :
    WritesV s ((s.wv vd v).sticky f).retire vd v f := by
  have e : (s.wv vd v).sticky f = s.onCur fun t =>
      { t with regs := s.cur.regs.writeV vd v, sp := { t.sp with fs := t.sp.fs ||| f } } := by
    simp only [State.wv, State.sticky, State.onCur_onCur]
    simp [State.onCur, State.onThread, State.cur]
  simp only [State.retire, e]
  exact s.onCur_retireTo_completed s.after _ _

theorem vdests_one (vd : VReg) : vdests vd 1 = [.v vd] := by simp [vdests]

/-- A v result is written late. -/
theorem State.doneV_writes (s : State) (vd : VReg) (r : VWord × Flags) :
    ∃ t, s.doneV vd r = t.tagLate ∧ WritesV (meanwhile s [.v vd]) t vd r.1 r.2 :=
  ⟨_, rfl, vdests_one vd ▸ State.wv_sticky_retire_writes _ vd r.1 r.2⟩

/-- Where nothing is on its way to the registers of a result, nothing lands before it. -/
theorem meanwhile_none (s : State) (dest : List Dest)
    (h : ∀ a ∈ s.cur.run.pend, ¬ a.dest.any dest.contains) : meanwhile s dest = s := by
  have e : ((s.thread s.ctx.core s.ctx.thr).run.pend.filter fun a =>
      !a.sync && (a.kind == .load || a.kind == .atomic || a.kind == .sfu || a.kind == .fdiv) && a.dest.any dest.contains) = [] := by
    rw [List.filter_eq_nil_iff]
    intro a ha
    have := h a ha
    simp_all
  simp [meanwhile, State.landUnder, e]

/-- Without a tag to set, a late result leaves nothing pending. -/
theorem State.tagLate_untagged (s : State) (h : s.ctx.tag = 0) : s.tagLate = s := by simp [State.tagLate, h]

/-! ### Taken transfers -/

/-- What `jump` does (spec/04 R113). -/
theorem State.jump_jumped (s : State) (target : Word) : Jumped s (s.jump target) target s.cur.regs := by
  refine ⟨onlyThread_of s _ .jumped, yields_of s _ .jumped, rfl, ?_⟩
  simp [State.jump, Thread.complete, Thread.discard, FetchBuf.none]

/-- A link written, then the transfer. -/
theorem State.wr_jump_jumped (s : State) (x : Reg) (v target : Word) :
    Jumped s ((s.wr x v).jump target) target (s.cur.regs.write x v) := by
  simp only [State.jump, State.wr, State.onCur_onCur]
  refine ⟨onlyThread_of s _ .jumped, yields_of s _ .jumped, rfl, ?_⟩
  simp [Thread.complete, Thread.discard, FetchBuf.none]

/-! ### The loop test outside loops -/

/-- With no loop active the next address is the successor, and the loop registers stay (spec/04 R119). -/
theorem Loops.test_inactive (l : Loops) (a next : Word) (h : l.la = 0) : l.test a next = (l, next, false) := by
  simp [Loops.test, Loops.testSet, h]

/-! ### Waiting -/

/-- A wait leaves the thread's registers and everything outside the thread. -/
theorem State.stall_cur (s : State) (w : Wait) :
    (s.stall w).cur = { s.cur with run := { s.cur.run with wait := some w } } := by
  simp [State.stall]

end Sys2Proof.Machine

namespace Sys2Proof

open Machine

/-- So an instruction outside loops advances the pc past itself. -/
theorem Claims.Completed.pc_inactive {s t : State} {next : Word} {regs : Regs} {flags : BitVec 8}
    (h : Completed s t next regs flags) (hl : s.cur.loops.la = 0) : t.cur.pc = next := by
  rw [h.pc, Loops.test_inactive _ _ _ hl]

end Sys2Proof
end

