-- ==== Sys2Proof/Laws/Due.lean ====
section
/-!
SUPPORT. What the part brings about of itself is what the opcode table's row of that event means.
-/
set_option Elab.async false
set_option linter.constructorNameAsVariable false

namespace Sys2Proof.Machine

theorem Due.run_asyncResultLands (core thr id : Nat) (s : State) :
    (Due.asyncResultLands core thr id).run s = exec (.asyncResultLands core thr id) s := rfl

theorem Due.run_stealRequest (core thr : Nat) (s : State) :
    (Due.stealRequest core thr).run s = exec (.stealRequest core thr) s := rfl

theorem Due.run_dqpopResearch (core thr : Nat) (s : State) :
    (Due.dqpopResearch core thr).run s = exec (.dqpopResearch core thr) s := rfl

theorem Due.run_waitwReread (core thr : Nat) (s : State) :
    (Due.waitwReread core thr).run s = exec (.waitwReread core thr) s := rfl

theorem Due.run_vstreamOpRun (core : Nat) (s : State) :
    (Due.vstreamOpRun core).run s = exec (.vstreamOpRun core) s := rfl

theorem Due.run_matrixOpRun (core : Nat) (s : State) :
    (Due.matrixOpRun core).run s = exec (.matrixOpRun core) s := rfl

theorem Due.run_copyOpRun (core : Nat) (s : State) :
    (Due.copyOpRun core).run s = exec (.copyOpRun core) s := rfl

theorem Due.run_engineOpComplete (core : Nat) (eng : Eng) (s : State) :
    (Due.engineOpComplete core eng).run s = exec (.engineOpComplete core eng) s := rfl

theorem Due.run_mxremArrival (core : Nat) (s : State) :
    (Due.mxremArrival core).run s = exec (.mxremArrival core) s := rfl

theorem Due.run_l1iFill (core line : Nat) (s : State) :
    (Due.l1iFill core line).run s = exec (.l1iFill core line) s := rfl

theorem Due.run_holdTimerExpiry (core thr line : Nat) (s : State) :
    (Due.holdTimerExpiry core thr line).run s = exec (.holdTimerExpiry core thr line) s := rfl

theorem Due.run_pushArrival (id : Nat) (s : State) :
    (Due.pushArrival id).run s = exec (.pushArrival id) s := rfl

theorem Due.run_registration (id : Nat) (s : State) :
    (Due.registration id).run s = exec (.registration id) s := rfl

theorem Due.run_readMiss (line : Nat) (s : State) :
    (Due.readMiss line).run s = exec (.readMiss line) s := rfl

theorem Due.run_homeAtomic (line : Nat) (s : State) :
    (Due.homeAtomic line).run s = exec (.homeAtomic line) s := rfl

theorem Due.run_forward (id : Nat) (s : State) :
    (Due.forward id).run s = exec (.forward id) s := rfl

theorem Due.run_revoke (id : Nat) (s : State) :
    (Due.revoke id).run s = exec (.revoke id) s := rfl

theorem Due.run_pushInvalidation (id : Nat) (s : State) :
    (Due.pushInvalidation id).run s = exec (.pushInvalidation id) s := rfl

theorem Due.run_registrationReply (id : Nat) (s : State) :
    (Due.registrationReply id).run s = exec (.registrationReply id) s := rfl

theorem Due.run_pushOutcome (id : Nat) (s : State) :
    (Due.pushOutcome id).run s = exec (.pushOutcome id) s := rfl

theorem Due.run_barrierComplete (core : Nat) (s : State) :
    (Due.barrierComplete core).run s = exec (.barrierComplete core) s := rfl

theorem Due.run_exchangePhaseEnd (core : Nat) (lost : List Nat) (s : State) :
    (Due.exchangePhaseEnd core lost).run s = exec (.exchangePhaseEnd core ⟨lost, []⟩) s := rfl

theorem Due.run_taskInject (handle : Nat) (s : State) :
    (Due.taskInject handle).run s = exec (.taskInject handle) s := rfl

theorem Due.run_slabRelocationEnd (die : Nat) (s : State) :
    (Due.slabRelocationEnd die).run s = exec (.slabRelocationEnd die) s := rfl

theorem Due.run_unsharingRelocationEnd (die : Nat) (s : State) :
    (Due.unsharingRelocationEnd die).run s = exec (.unsharingRelocationEnd die) s := rfl

theorem Due.run_kvPageSpill (part : Nat) (s : State) :
    (Due.kvPageSpill part).run s = exec (.kvPageSpill part) s := rfl

theorem Due.run_kvPageResident (page : Nat) (s : State) :
    (Due.kvPageResident page).run s = exec (.kvPageResident page) s := rfl

theorem Due.run_launchStart (launch : Nat) (s : State) :
    (Due.launchStart launch).run s = exec (.launchStart launch) s := rfl

theorem Due.run_launchComplete (launch : Nat) (s : State) :
    (Due.launchComplete launch).run s = exec (.launchComplete launch) s := rfl

theorem Due.run_preemptRequest (launch : Nat) (s : State) :
    (Due.preemptRequest launch).run s = exec (.preemptRequest launch) s := rfl

theorem Due.run_timeSliceExpiry (launch : Nat) (s : State) :
    (Due.timeSliceExpiry launch).run s = exec (.timeSliceExpiry launch) s := rfl

theorem Due.run_contextSave (launch : Nat) (s : State) :
    (Due.contextSave launch).run s = exec (.contextSave launch) s := rfl

theorem Due.run_preemptTimeout (launch : Nat) (s : State) :
    (Due.preemptTimeout launch).run s = exec (.preemptTimeout launch) s := rfl

theorem Due.run_contextResume (launch : Nat) (s : State) :
    (Due.contextResume launch).run s = exec (.contextResume launch) s := rfl

theorem Due.run_mailboxRequestComplete (fn : Nat) (s : State) :
    (Due.mailboxRequestComplete fn).run s = exec (.mailboxRequestComplete fn) s := rfl

theorem Due.run_fabricAck (id : Nat) (s : State) :
    (Due.fabricAck id).run s = exec (.fabricAck id) s := rfl

theorem Due.run_fabricRemoteAccess (id : Nat) (s : State) :
    (Due.fabricRemoteAccess id).run s = exec (.fabricRemoteAccess (.own id)) s := rfl

end Sys2Proof.Machine
end

