-- ==== Sys2Proof/Laws/Integer.lean ====
section
/-!
SUPPORT. The integer results of spec/04 R102 in the terms of the claims: operands as unbounded integers, one narrowing.
-/
set_option Elab.async false
namespace Sys2Proof.Machine

open Claims

theorem opWidth_eq (w : Bool) : opWidth w = width w := rfl

/-- An operand read as the table says is the claims' operand. -/
theorem intValue_opnd (w signed : Bool) (x : Word) : intValue (opWidth w) signed x.toNat = opnd w signed x := by
  have hx := x.isLt
  cases w <;> cases signed <;>
    simp only [intValue, opnd, opWidth, BitVec.toInt, BitVec.toNat_setWidth, Bool.false_eq_true, if_false, if_true,
      Bool.true_and, Bool.false_and]
  · omega
  · rw [Nat.mod_eq_of_lt hx]
    by_cases h : 2 ^ (64 - 1) ≤ x.toNat
    · have h2 : ¬ 2 * x.toNat < 2 ^ 64 := by omega
      simp only [h, h2, decide_true, if_true, if_false]; rfl
    · have h2 : 2 * x.toNat < 2 ^ 64 := by omega
      simp only [h, h2, decide_false, if_true, Bool.false_eq_true, if_false]
  · by_cases h : 2 ^ (32 - 1) ≤ x.toNat % 2 ^ 32
    · have h2 : ¬ 2 * (x.toNat % 2 ^ 32) < 2 ^ 32 := by omega
      simp only [h, h2, decide_true, if_true, if_false]; rfl
    · have h2 : 2 * (x.toNat % 2 ^ 32) < 2 ^ 32 := by omega
      simp only [h, h2, decide_false, if_true, Bool.false_eq_true, if_false]

/-- A number modulo 2^w, as the register holds it. -/
theorem signed64_ofInt (w : Bool) (x : Int) :
    signed64 w (x % (2 : Int) ^ opWidth w).toNat = (BitVec.ofInt (width w) x).signExtend 64 := by
  cases w
  · simp only [signed64, opWidth, width, Bool.false_eq_true, if_false]
    apply BitVec.eq_of_toNat_eq
    simp [BitVec.toNat_ofNat, BitVec.toNat_ofInt]
    omega
  · simp only [signed64, opWidth, width, if_true]
    congr 1
    apply BitVec.eq_of_toNat_eq
    simp [BitVec.toNat_ofNat, BitVec.toNat_ofInt]
    omega

/-- R102's narrowing is the claims' one. -/
theorem aluResult_eq (w sat : Bool) (x : Int) :
    aluResult w sat x = ((BitVec.ofInt (width w) (if sat then nearer w x else x)).signExtend 64,
      if (if sat then nearer w x else x) = x then 0 else 0x20) := by
  cases sat
  · simp only [aluResult, narrow, Bool.false_eq_true, if_false, signed64_ofInt, if_true]
  · simp only [aluResult, narrow, if_true]
    have hpos : (1 : Int) ≤ 2 ^ (width w - 1) := by cases w <;> decide
    have hc : clampInt (opWidth w) true x = (nearer w x, if nearer w x = x then 0 else 0x20) := by
      simp only [clampInt, intMin, intMax, nearer, opWidth_eq, if_true]
      split
      · rename_i h
        have : ¬ (- (2 : Int) ^ (width w - 1) = x) := by omega
        simp [this, flagSAT]
      · rename_i h
        split
        · rename_i h2
          have h3 : (2 : Int) ^ (width w - 1) ≤ x := by omega
          have : ¬ ((2 : Int) ^ (width w - 1) - 1 = x) := by omega
          simp [h3, this, flagSAT]
        · rename_i h2
          have h3 : ¬ (2 : Int) ^ (width w - 1) ≤ x := by omega
          simp [h3]
    rw [hc]
    simp only [signed64_ofInt]

theorem aluResult_claims (w sat : Bool) (x : Int) : aluResult w sat x = (resultOf w sat x, resultFlags w sat x) := by
  rw [aluResult_eq, resultOf, resultFlags]
  cases sat
  · simp
  · by_cases h : nearer w x = x <;> simp [h]

/-- An instruction whose result is R102's. -/
theorem computes_of {i : Instr} {s : State} {rd : Reg} {w sat : Bool} {x : Int}
    (h : exec i s = .next (s.done rd (aluResult w sat x))) : Computes i s rd w sat x :=
  ⟨_, h, aluResult_claims w sat x ▸ s.done_writes rd (aluResult w sat x)⟩

/-- An instruction whose result is R102's and is written late. -/
theorem computesLate_of {i : Instr} {s : State} {rd : Reg} {w sat : Bool} {x : Int}
    (h : exec i s = .next (s.doneLate rd (aluResult w sat x))) : ComputesLate i s rd w sat x := by
  obtain ⟨t, ht, hw⟩ := s.doneLate_writes rd (aluResult w sat x)
  rw [aluResult_claims] at hw
  exact ⟨t, ht ▸ h, hw⟩

end Sys2Proof.Machine
end

