-- ==== Sys2Proof/Laws/Keeps.lean ====
section
/-!
SUPPORT. What the part does beside an instruction (messages from home, writes at home, records, gangs, results that land in
queues) leaves to every thread: its registers, its loops, its level and pc, its trap context, its fetch buffer; and every
hold. From this, what taking a trap does.
-/
set_option Elab.async false
namespace Sys2Proof.Machine

open Sys2Proof.Claims

/-- What a program sees of its thread, beside the special registers. -/
def Thread.arch (t : Thread) : Word × Level × Regs × Loops × TrapCtx × FetchBuf :=
  (t.pc, t.level, t.regs, t.loops, t.trap, t.run.fbuf)

/-- Every thread looks the same to its program, every hold stands, the instruction under way is the same. -/
structure Keeps (s t : State) : Prop where
  arch : ∀ n k, (t.thread n k).arch = (s.thread n k).arch
  holds : ∀ n, (t.core n).req.holds = (s.core n).req.holds
  ctx : t.ctx = s.ctx

namespace Keeps

theorem refl (s : State) : Keeps s s := ⟨fun _ _ => rfl, fun _ => rfl, rfl⟩

theorem trans {s t u : State} (h : Keeps s t) (h' : Keeps t u) : Keeps s u :=
  ⟨fun n k => (h'.arch n k).trans (h.arch n k), fun n => (h'.holds n).trans (h.holds n), h'.ctx.trans h.ctx⟩

/-- Anything outside the cores may change. -/
theorem of_cores {s t : State} (h : t.cores = s.cores) (hc : t.ctx = s.ctx) : Keeps s t := by
  have : ∀ n, t.core n = s.core n := by intro n; simp [State.core, h]
  exact ⟨fun n k => by simp [State.thread, this], fun n => by rw [this], hc⟩

theorem onCore (s : State) (n : Nat) (f : Core → Core) (ht : ∀ c, (f c).thr = c.thr)
    (hh : ∀ c, (f c).req.holds = c.req.holds) : Keeps s (s.onCore n f) := by
  refine ⟨fun m k => ?_, fun m => ?_, rfl⟩
  · by_cases e : m = n
    · subst e; simp [State.thread, ht]
    · simp [State.thread, State.core_onCore_ne s f e]
  · by_cases e : m = n
    · subst e; simp [hh]
    · rw [State.core_onCore_ne s f e]

theorem onThread (s : State) (n : Nat) (t : BitVec 2) (f : Thread → Thread) (h : ∀ x, (f x).arch = x.arch) :
    Keeps s (s.onThread n t f) := by
  refine ⟨fun m k => ?_, fun m => ?_, rfl⟩
  · by_cases e : m = n ∧ k = t
    · obtain ⟨rfl, rfl⟩ := e; simp [h]
    · rw [State.thread_onThread_ne s f (by by_cases e' : m = n
                                           · exact .inr fun x => e ⟨e', x⟩
                                           · exact .inl e')]
  · by_cases e : m = n
    · subst e; simp [State.core_onThread]
    · rw [State.core_onThread_ne s t f e]

theorem foldl {α : Type} (g : State → α → State) (hg : ∀ s x, Keeps s (g s x)) (l : List α) (s : State) :
    Keeps s (l.foldl g s) := by
  induction l generalizing s with
  | nil => exact refl s
  | cons x l ih => exact (hg s x).trans (ih (g s x))

/-- A change of every core that leaves its threads and holds. -/
theorem mapCores (s t : State) (f : Core → Core) (ht : ∀ c, (f c).thr = c.thr)
    (hh : ∀ c, (f c).req.holds = c.req.holds) (he : t.cores = s.cores.map fun c => (c.1, f c.2)) (hc : t.ctx = s.ctx) :
    Keeps s t := by
  have key : ∀ n, (t.core n).thr = (s.core n).thr ∧ (t.core n).req.holds = (s.core n).req.holds := by
    intro n
    simp only [State.core, he]
    induction s.cores with
    | nil => exact ⟨rfl, rfl⟩
    | cons p rest ih =>
      obtain ⟨k, w⟩ := p
      by_cases e : k = n
      · simp [assoc, e, ht, hh]
      · simpa [assoc, e] using ih
  exact ⟨fun n k => by simp [State.thread, (key n).1], fun n => (key n).2, hc⟩

/-! ### Home -/

theorem withMem (s : State) (m : Global) : Keeps s { s with mem := m } := of_cores rfl rfl
theorem setDir (s : State) (n : Nat) (d : DirEntry) : Keeps s (s.setDir n d) := of_cores rfl rfl
theorem putCells (s : State) (bs : List (Nat × Byte)) : Keeps s (s.putCells bs) := of_cores rfl rfl
theorem putCellWord (s : State) (n : Nat) (w : BitVec 5) (v : BitVec 32) : Keeps s (s.putCellWord n w v) := of_cores rfl rfl
theorem stripReplies (s : State) (a n : Nat) (w : BitVec 5) : Keeps s (s.stripReplies a n w) := of_cores rfl rfl
theorem onReq (s : State) (i l : Nat) (f : HomeReq → HomeReq) : Keeps s (s.onReq i l f) := of_cores rfl rfl

theorem setPsn (s : State) (n : Nat) (w : BitVec 5) (b : Bool) : Keeps s (s.setPsn n w b) := by
  unfold State.setPsn
  split
  · exact refl s
  · exact setDir _ _ _

theorem onLine (s : State) (a n : Nat) (f : Line → Line) : Keeps s (s.onLine a n f) :=
  onCore s a _ (fun _ => rfl) (fun _ => rfl)

theorem dropPushed (s : State) (a n i : Nat) : Keeps s (s.dropPushed a n i) := onLine _ _ _ _

theorem mergeHome (s : State) (n : Nat) (bs : List (Nat × Byte)) : Keeps s (s.mergeHome n bs) :=
  (putCells s bs).trans (foldl _ (fun s w => setPsn s n w false) _ _)

theorem revokeNow (s : State) (n : Nat) (m : BitVec 32) : Keeps s (s.revokeNow n m) := by
  unfold State.revokeNow
  refine (foldl _ (fun s w => ?_) _ s).trans (setDir _ _ _)
  split
  · exact refl s
  · exact (((putCellWord _ _ _ _).trans (setPsn _ _ _ _)).trans (stripReplies _ _ _ _)).trans (onLine _ _ _ _)

theorem homeWriteLine (s : State) (n : Nat) (bs : List (Nat × Byte)) : Keeps s (s.homeWriteLine n bs) := by
  unfold State.homeWriteLine
  exact (((revokeNow _ _ _).trans (mergeHome _ _ _)).trans (foldl _ (fun s m => dropPushed s m n _) _ _)).trans (setDir _ _ _)

theorem homeWrite (s : State) (bs : List (Nat × Byte)) : Keeps s (s.homeWrite bs) := by
  unfold State.homeWrite
  exact foldl _ (fun s p => homeWriteLine s _ _) _ _

theorem untrack (s : State) (n : Nat) (t : BitVec 2) (i : Nat) : Keeps s (s.untrack n t i) :=
  onThread s n t _ fun _ => rfl

theorem closeRegs (s : State) (a : Nat) : Keeps s (s.closeRegs a) := by
  unfold State.closeRegs
  exact (foldl _ (fun s r => foldl _ (fun s k => untrack s _ _ _) _ _) _ _).trans
    (onCore _ _ _ (fun _ => rfl) (fun _ => rfl))

theorem invArrived (s : State) (i : Nat) : Keeps s (s.invArrived i) := by
  unfold State.invArrived
  refine foldl _ (fun s n => ?_) _ _
  refine Keeps.trans ?_ (closeRegs _ _)
  exact onCore _ _ _ (fun _ => rfl) (fun _ => rfl)

theorem serveProbe (s : State) (p : Probe) : Keeps s (s.serveProbe p) := by
  unfold State.serveProbe
  have gone : ∀ (u : State), Keeps u { u with mem := { u.mem with probes := u.mem.probes.filter fun x => x.id != p.id } } :=
    fun u => of_cores rfl rfl
  simp only
  split
  · exact ((dropPushed _ _ _ _).trans (invArrived _ _)).trans (gone _)
  · exact (onReq _ _ _ _).trans (gone _)
  · exact ((revokeNow _ _ _).trans (onReq _ _ _ _)).trans (gone _)

/-! ### Records -/

theorem onPart (s : State) (k : Nat) (f : Partition → Partition) : Keeps s (s.onPart k f) := of_cores rfl rfl

theorem onLaunch (s : State) (k : Nat) (f : Launch → Launch) : Keeps s (s.onLaunch k f) := of_cores rfl rfl
theorem onSeq (s : State) (p k : Nat) (f : Seq → Seq) : Keeps s (s.onSeq p k f) := of_cores rfl rfl
theorem snoop (s : State) (l : List Nat) : Keeps s (s.snoop l) := by
  unfold State.snoop
  split
  · exact refl s
  · exact of_cores rfl rfl
theorem fetchPage (s : State) (pa : Nat) : Keeps s (s.fetchPage pa) := of_cores rfl rfl

theorem snoopAll (s : State) (l : List Nat) : Keeps s (s.snoopAll l) := foldl _ (fun s _ => snoop s _) _ _

theorem walkPage (s : State) (p : Nat) (acc : Acc) (va : Nat) : Keeps s (s.walkPage p acc va).1 := by
  unfold State.walkPage
  split
  · exact refl s
  · split
    · exact refl s
    · split
      · exact refl s
      · exact snoopAll _ _
      · exact refl s

theorem partPage (s : State) (p : Nat) (acc : Acc) (va : Nat) : Keeps s (s.partPage p acc va).1 := by
  have h := walkPage s p acc va
  unfold State.partPage
  split
  · rename_i e
    rw [e] at h
    split
    · exact h.trans (fetchPage _ _)
    · exact h
  · exact h

theorem partAll (p : Nat) (acc : Acc) (fuel : Nat) (s : State) (va size : Nat) : Keeps s (s.partAll p acc fuel va size).1 := by
  induction fuel generalizing s va size with
  | zero => exact refl s
  | succ fuel ih =>
    have h := partPage s p acc va
    simp only [State.partAll]
    split
    · exact refl s
    · split
      · rename_i e
        rw [e] at h
        exact h
      · rename_i u e
        rw [e] at h
        have h' := ih u (va + min size (0x10000 - va % 0x10000)) (size - min size (0x10000 - va % 0x10000))
        split <;> (rename_i e'; rw [e'] at h'; exact h.trans h')
      · rename_i u pa c e
        rw [e] at h
        have h' := ih u (va + min size (0x10000 - va % 0x10000)) (size - min size (0x10000 - va % 0x10000))
        split
        · rename_i e'
          rw [e'] at h'
          exact h.trans h'
        · exact h.trans h'

theorem partReach (s : State) (p : Nat) (acc : Acc) (va size : Nat) : Keeps s (s.partReach p acc va size).1 := by
  have h := partAll p acc (size / 0x10000 + 2) s va size
  unfold State.partReach
  split
  · rename_i e
    rw [e] at h
    generalize (if acc = .write then _ else _ : List Nat) = first
    simp only
    split
    · exact h.trans (snoopAll _ _)
    · split
      · exact h.trans (snoop _ _)
      · exact h
  · exact h

theorem notePage (s : State) (l : Launch) (pa : Nat) : Keeps s (s.notePage l pa) := by
  unfold State.notePage
  split
  · simp only
    split
    · exact refl s
    · split
      · exact onLaunch _ _ _
      · exact (withMem s _).trans (onLaunch _ _ _)
  · exact refl s

theorem notePages (s : State) (p : Nat) (l : List Nat) : Keeps s (s.notePages p l) := by
  unfold State.notePages
  refine foldl _ (fun s _ => foldl _ (fun s pa => ?_) _ _) _ _
  split
  · exact notePage _ _ _
  · exact refl _

theorem tapNumbered (s : State) (p c : Nat) (t : Option Word) : Keeps s (s.tapNumbered p c t) := by
  unfold State.tapNumbered
  split
  · exact onPart _ _ _
  · exact refl s

theorem recordAt (s : State) (p a : Nat) : Keeps s (s.recordAt p a).1 := by
  unfold State.recordAt
  split
  · exact refl s
  · have h := partReach s p .read a 4
    split
    · rename_i e; rw [e] at h; exact h
    · rename_i e; rw [e] at h; exact h
    · rename_i u c e
      rw [e] at h
      simp only
      have h2 := partReach u p .write (a + 64 + 64 * (leNat (c.map fun pa => (u.homeByte pa).1) % 63)) 64
      split
      · rename_i v r e2
        rw [e2] at h2
        have h3 := partReach v p .write a 4
        split
        · rename_i e3; rw [e3] at h3; exact (h.trans h2).trans h3
        · rename_i e3; rw [e3] at h3; exact (h.trans h2).trans h3
      · rename_i e2
        rw [e2] at h2
        exact h.trans h2

theorem hostGives (s : State) (n : Nat) (m : BitVec 32) : Keeps s (s.hostGives n m) := by
  unfold State.hostGives
  simp only
  split
  · exact refl s
  · exact setDir _ _ _

theorem hostTakes (s : State) (n : Nat) (m : BitVec 32) : Keeps s (s.hostTakes n m) := by
  unfold State.hostTakes
  simp only
  have h : Keeps s (if ((s.dirOf n).slotFor hostAgent).isSome then s else s.revokeNow n (s.dirOf n).olderWords) := by
    split
    · exact refl s
    · exact revokeNow _ _ _
  split
  · exact h.trans (setDir _ _ _)
  · exact h

theorem hostMerges (s : State) (c : Bool) (h : Nat) (bs : List (Nat × Byte)) : Keeps s (s.hostMerges c h bs) := by
  unfold State.hostMerges
  simp only
  have k := (hostGives s (halfLine h) (maskOf (bs.map fun p => wordOf p.1))).trans (homeWriteLine _ (halfLine h) bs)
  split
  · exact k.trans (hostTakes _ _ _)
  · exact k

theorem hostWriteNow (s : State) (c : Bool) (h : Nat) (bs : List (Nat × Byte)) : Keeps s (s.hostWriteNow c h bs).1 := by
  unfold State.hostWriteNow
  split
  · exact fetchPage _ _
  · split
    · exact hostMerges _ _ _ _
    · exact refl s

theorem hostReplyNow (s : State) (h : Nat) (bs : List (Option Byte)) : Keeps s (s.hostReplyNow h bs).1 := by
  unfold State.hostReplyNow
  simp only
  split
  · exact ((hostGives _ _ _).trans (hostMerges _ _ _ _)).trans (withMem _ _)
  · split
    · exact (((hostGives _ _ _).trans (hostMerges _ _ _ _)).trans (withMem _ _)).trans (withMem _ _)
    · exact refl s

theorem hostReadNow (s : State) (h : Nat) : Keeps s (s.hostReadNow h).1 := by
  unfold State.hostReadNow
  simp only
  split
  · exact fetchPage _ _
  · split
    · exact of_cores rfl rfl
    · exact refl s

/-- An access that waited at home leaves every thread as its program sees it. -/
theorem lateNow (s : State) (l : Late) : Keeps s (s.lateNow l).1 := by
  unfold State.lateNow
  split
  · simp only
    split
    · exact homeWrite _ _
    · exact snoopAll _ _
  · rename_i va bs _
    have h := partReach s l.part .write va bs.length
    split <;> (rename_i e; rw [e] at h)
    · exact (h.trans (notePages _ _ _)).trans (homeWrite _ _)
    · exact h
    · exact h
  · rename_i area bs tap _
    have h := recordAt s l.part area.toNat
    split <;> (rename_i e; rw [e] at h)
    · exact ((h.trans (notePages _ _ _)).trans (homeWrite _ _)).trans (tapNumbered _ _ _ _)
    · exact h.trans (tapNumbered _ _ _ _)
    · exact h
  · exact hostWriteNow _ _ _ _
  · exact hostReplyNow _ _ _
  · exact hostReadNow _ _

theorem drainList (l : List Late) (s : State) (b : List (Nat × Nat)) : Keeps s (s.drainList b l) := by
  induction l generalizing s b with
  | nil => exact refl s
  | cons x l ih =>
    simp only [State.drainList]
    split
    · exact (withMem s _).trans (ih _ _)
    · have h := lateNow s x
      split
      · rename_i e; rw [e] at h; exact h.trans (ih _ _)
      · rename_i u e
        rw [e] at h
        exact (h.trans (withMem u _)).trans (ih _ _)

theorem drain (s : State) : Keeps s s.drain := (withMem s _).trans (drainList _ _ _)

/-- So does a write of the part, made at once or kept until home can take it. -/
theorem later (s : State) (p : Nat) (op : LateOp) : Keeps s (s.later p op) := (withMem s _).trans (drain _)

theorem traceDrop (s : State) (k : Nat) (t : Trace) (b : Bool) : Keeps s (s.traceDrop k t b) := by
  unfold State.traceDrop
  exact ((onPart _ _ _).trans (later _ _ _)).trans (later _ _ _)

theorem traceRec (s : State) (n t k : Nat) (pc data : Word) : Keeps s (s.traceRec n t k pc data) := by
  unfold State.traceRec
  split
  · exact refl s
  · split
    · exact refl s
    · split
      · exact refl s
      · split
        · exact traceDrop _ _ _ _
        · split
          · exact traceDrop _ _ _ _
          · exact withMem s _

theorem seqFault (s : State) (p h : Nat) : Keeps s (s.seqFault p h) := by
  unfold State.seqFault
  split
  · simp only
    split
    · exact onSeq _ _ _ _
    · exact (onSeq _ _ _ _).trans (later _ _ _)
  · exact refl s

theorem seqRecord (s : State) (p h : Nat) (r : List Byte) (t : Option Word) : Keeps s (s.seqRecord p h r t) := by
  unfold State.seqRecord
  split
  · exact later _ _ _
  · exact tapNumbered _ _ _ _

theorem faultRequest (s : State) (n : Nat) (t : BitVec 2) (a : Word) (c : Cause) (v : Word) :
    Keeps s (s.faultRequest n t a c v) := by
  unfold State.faultRequest
  simp only
  split
  · exact refl s
  · refine Keeps.trans ?_ (onThread _ _ _ _ fun _ => rfl)
    split
    · exact (seqFault _ _ _).trans (seqRecord _ _ _ _ _)
    · exact refl s

/-! ### Gangs -/

theorem detach (s : State) (n k : Nat) : Keeps s (s.detach n k) := by
  unfold State.detach
  split
  · split
    · exact refl s
    · refine Keeps.trans ?_ (onThread _ _ _ _ fun _ => rfl)
      exact onCore _ _ _ (fun _ => rfl) (fun _ => rfl)
  · exact refl s

theorem forward (s : State) (l : List Nat) (k : Nat) (e : Fwd) : Keeps s (s.forward l k e) := by
  unfold State.forward
  refine foldl _ (fun s m => ?_) _ _
  split
  · exact onThread _ _ _ _ fun _ => rfl
  · exact detach _ _ _

theorem gangBreak (s : State) (n k : Nat) : Keeps s (s.gangBreak n k) := (detach s n k).trans (forward _ _ _ _)

end Keeps

/-! ### Ending holds -/

/-- Ending a hold leaves every thread as its program sees it; of the holds it takes out that one. -/
theorem State.endHold_keeps (s : State) (n : Nat) (h : Hold) (early : Bool) :
    (∀ m k, ((s.endHold n h early).thread m k).arch = (s.thread m k).arch) ∧ (s.endHold n h early).ctx = s.ctx ∧
    (∀ m, ((s.endHold n h early).core m).req.holds =
      if m = n then (s.core m).req.holds.filter fun x => !(x.line = h.line && x.thr = h.thr) else (s.core m).req.holds) := by
  have tail : ∀ u : State, Keeps u (if early then u.onThread n (tid h.thr) fun th =>
      let others := th.run.endings.filter (· != h.vline)
      { th with
        sp := { th.sp with exp := true }
        run := { th.run with endings := others.drop (others.length - 1) ++ [h.vline] } } else u) := by
    intro u
    split
    · exact Keeps.onThread _ _ _ _ fun _ => rfl
    · exact Keeps.refl u
  have fold : ∀ u : State, Keeps u (h.queue.foldl (fun s id =>
      match s.mem.probes.find? fun p => p.id = id with
      | some p => s.serveProbe p
      | none => s) u) := by
    intro u
    refine Keeps.foldl _ (fun s i => ?_) _ _
    split
    · exact Keeps.serveProbe _ _
    · exact Keeps.refl _
  have all := (fold (s.onCore n fun c =>
    { c with req := { c.req with holds := c.req.holds.filter fun x => !(x.line = h.line && x.thr = h.thr) } })).trans (tail _)
  refine ⟨fun m k => ?_, all.ctx.trans rfl, fun m => ?_⟩
  · refine (all.arch m k).trans ?_
    by_cases e : m = n
    · subst e; simp [State.thread]
    · simp [State.thread, State.core_onCore_ne s _ e]
  · refine (all.holds m).trans ?_
    by_cases e : m = n
    · subst e; simp
    · simp [State.core_onCore_ne s _ e, e]

/-- After its holds have ended a thread holds nothing. -/
theorem State.endHolds_keeps (s : State) (n : Nat) (t : BitVec 2) :
    (∀ m k, ((s.endHolds n t).thread m k).arch = (s.thread m k).arch) ∧ (s.endHolds n t).ctx = s.ctx ∧
    (s.endHolds n t).holdsAny n t = false := by
  have key : ∀ (l : List Hold) (u : State),
      (∀ m k, ((l.foldl (fun s h => s.endHold n h true) u).thread m k).arch = (u.thread m k).arch) ∧
      (l.foldl (fun s h => s.endHold n h true) u).ctx = u.ctx ∧
      (∀ x, x ∈ ((l.foldl (fun s h => s.endHold n h true) u).core n).req.holds → x ∈ (u.core n).req.holds ∧
        ∀ h ∈ l, ¬ (x.line = h.line ∧ x.thr = h.thr)) := by
    intro l
    induction l with
    | nil => intro u; exact ⟨fun _ _ => rfl, rfl, fun x hx => ⟨hx, by simp⟩⟩
    | cons h l ih =>
      intro u
      obtain ⟨a1, a2, a3⟩ := ih (u.endHold n h true)
      obtain ⟨b1, b2, b3⟩ := u.endHold_keeps n h true
      refine ⟨fun m k => (a1 m k).trans (b1 m k), a2.trans b2, fun x hx => ?_⟩
      obtain ⟨c1, c2⟩ := a3 x hx
      rw [b3 n, if_pos rfl, List.mem_filter] at c1
      refine ⟨c1.1, fun g hg => ?_⟩
      rcases List.mem_cons.mp hg with rfl | hg
      · intro e
        simp [e.1, e.2] at c1
      · exact c2 g hg
  obtain ⟨a1, a2, a3⟩ := key ((s.core n).req.holds.filter fun h => h.thr = t.toNat) s
  refine ⟨a1, a2, ?_⟩
  unfold State.holdsAny
  rw [List.any_eq_false]
  intro x hx
  obtain ⟨h1, h2⟩ := a3 x hx
  intro e
  have e' : x.thr = t.toNat := by simpa using e
  exact h2 x (List.mem_filter.mpr ⟨h1, by simpa using e'⟩) ⟨rfl, rfl⟩

/-! ### Taking a trap -/

/-- What every trap does to its thread (spec/07 R168), whatever else it brings about. -/
theorem State.trapAt_enters (s : State) (a : Word) (c : Cause) (v : Word) :
    EntersAt s ((s.trapAt s.ctx.core s.ctx.thr a c v).fated .trapped) a c v := by
  obtain ⟨h1, h2, h3⟩ := (s.faultRequest s.ctx.core s.ctx.thr a c v).endHolds_keeps s.ctx.core s.ctx.thr
  have k0 := Keeps.faultRequest s s.ctx.core s.ctx.thr a c v
  have hctx : ((s.faultRequest s.ctx.core s.ctx.thr a c v).endHolds s.ctx.core s.ctx.thr).ctx = s.ctx := h2.trans k0.ctx
  have harch := (h1 s.ctx.core s.ctx.thr).trans (k0.arch s.ctx.core s.ctx.thr)
  generalize hs1 : (s.faultRequest s.ctx.core s.ctx.thr a c v).endHolds s.ctx.core s.ctx.thr = s1 at h3 hctx harch
  have hs2 : ∀ m, ((s1.onThread s.ctx.core s.ctx.thr fun th => th.enter (s.holdsAny s.ctx.core s.ctx.thr) a c v).core m).req.holds
      = (s1.core m).req.holds := by
    intro m
    by_cases e : m = s.ctx.core
    · subst e; simp [State.core_onThread]
    · rw [State.core_onThread_ne _ _ _ e]
  have tail : ∀ u : State, Keeps u (((if (s.thread s.ctx.core s.ctx.thr).run.arrived.isSome then
      u.onCore s.ctx.core fun k => { k with sup := { k.sup with arrived := false, maker := none } } else u).gangBreak
        s.ctx.core s.ctx.thr.toNat).traceRec s.ctx.core s.ctx.thr.toNat 4 a (c.code.setWidth 64 ||| (v <<< 8))) := by
    intro u
    refine Keeps.trans ?_ (Keeps.traceRec _ _ _ _ _ _)
    refine Keeps.trans ?_ (Keeps.gangBreak _ _ _)
    split
    · exact Keeps.onCore _ _ _ (fun _ => rfl) (fun _ => rfl)
    · exact Keeps.refl u
  have hk := tail (s1.onThread s.ctx.core s.ctx.thr fun th => th.enter (s.holdsAny s.ctx.core s.ctx.thr) a c v)
  have ht : (s.trapAt s.ctx.core s.ctx.thr a c v).fated .trapped = ((((if (s.thread s.ctx.core s.ctx.thr).run.arrived.isSome then
      (s1.onThread s.ctx.core s.ctx.thr fun th => th.enter (s.holdsAny s.ctx.core s.ctx.thr) a c v).onCore s.ctx.core
        fun k => { k with sup := { k.sup with arrived := false, maker := none } }
      else s1.onThread s.ctx.core s.ctx.thr fun th => th.enter (s.holdsAny s.ctx.core s.ctx.thr) a c v).gangBreak
        s.ctx.core s.ctx.thr.toNat).traceRec s.ctx.core s.ctx.thr.toNat 4 a (c.code.setWidth 64 ||| (v <<< 8))).fated
          .trapped) := by
    rw [State.trapAt, ← hs1]
  generalize hu : ((if (s.thread s.ctx.core s.ctx.thr).run.arrived.isSome then
      (s1.onThread s.ctx.core s.ctx.thr fun th => th.enter (s.holdsAny s.ctx.core s.ctx.thr) a c v).onCore s.ctx.core
        fun k => { k with sup := { k.sup with arrived := false, maker := none } }
      else s1.onThread s.ctx.core s.ctx.thr fun th => th.enter (s.holdsAny s.ctx.core s.ctx.thr) a c v).gangBreak
        s.ctx.core s.ctx.thr.toNat).traceRec s.ctx.core s.ctx.thr.toNat 4 a (c.code.setWidth 64 ||| (v <<< 8)) = u
    at hk ht
  have hc : u.ctx = s.ctx := hk.ctx.trans hctx
  have hcur : ((s.trapAt s.ctx.core s.ctx.thr a c v).fated .trapped).cur = u.thread s.ctx.core s.ctx.thr := by
    rw [ht, State.cur_fated, State.cur, hc]
  have hfin : (u.thread s.ctx.core s.ctx.thr).arch =
      ((s1.thread s.ctx.core s.ctx.thr).enter (s.holdsAny s.ctx.core s.ctx.thr) a c v).arch := by
    rw [hk.arch]; simp
  have ha : (s1.thread s.ctx.core s.ctx.thr).arch = s.cur.arch := harch
  simp only [Thread.arch, Prod.mk.injEq] at ha
  obtain ⟨-, a2, a3, a4, a5, -⟩ := ha
  simp only [Thread.arch, Thread.enter, Prod.mk.injEq, a2, a3, a4, a5] at hfin
  obtain ⟨f1, f2, f3, f4, f5, f6⟩ := hfin
  refine ⟨by rw [ht]; rfl, by rw [hcur, f1], by rw [hcur, f2], ?_, by rw [hcur, f4], by rw [hcur, f3], ?_,
    by rw [hcur, f6]; rfl⟩
  · rw [hcur, f5]
    congr 1
    have hb : ∀ b : Bool, BitVec.ofNat 1 (bit1 b) = BitVec.ofBool b := by intro b; cases b <;> rfl
    have hl : BitVec.ofNat 1 (if s.cur.level = Level.s then 1 else 0) = BitVec.ofBool (s.cur.level == .s) := by
      cases s.cur.level <;> rfl
    simp only [tstatOf, hb, hl]
  · have : ((s.trapAt s.ctx.core s.ctx.thr a c v).fated .trapped).holdsAny s.ctx.core s.ctx.thr = s1.holdsAny s.ctx.core s.ctx.thr := by
      rw [ht]
      show ((u.fated .trapped).core _).req.holds.any _ = (s1.core _).req.holds.any _
      rw [State.core_fated, hk.holds]
      exact congrArg (fun l : List Hold => l.any fun h => decide (h.thr = s.ctx.thr.toNat)) (hs2 s.ctx.core)
    rw [this]
    exact h3

/-- What a trap of the executing instruction does. -/
theorem State.trap_enters (s : State) (c : Cause) (v : Word) : Enters s (s.trap c v) c v := s.trapAt_enters s.ctx.a c v

end Sys2Proof.Machine
end

