-- ==== Sys2Proof/Laws/Memory.lean ====
section
/-!
SUPPORT. The canonical form of memory: every write keeps it, and reading after a write gives what was written, at its place
alone. Local and home memory, as the operations of Access and Ops write them.
-/
set_option Elab.async false
namespace Sys2Proof.Machine

/-! ### One byte -/

theorem Memory.wf_cons {a : Nat} {b : Byte} {rest : List Host.Cell} :
    Memory.wf ((a, b) :: rest) = true ↔ b ≠ 0 ∧ (∀ p ∈ rest.head?, a < p.1) ∧ Memory.wf rest = true := by
  cases rest with
  | nil => simp [Memory.wf]
  | cons p rest =>
    obtain ⟨a', b'⟩ := p
    simp [Memory.wf, and_assoc]

/-- The first address of memory after a write is the written address or the first one before it. -/
theorem cellsPut_head (m : List Host.Cell) (x : Nat) (v : Byte) (a : Nat) (ha : a < x)
    (hm : ∀ p ∈ m.head?, a < p.1) (hw : Memory.wf m = true) : ∀ p ∈ (cellsPut m x v).head?, a < p.1 := by
  cases m with
  | nil =>
    simp only [cellsPut]
    split <;> simp [ha]
  | cons q rest =>
    obtain ⟨k, w⟩ := q
    have hk : a < k := hm (k, w) (by simp)
    simp only [cellsPut]
    split
    · simpa using hk
    · split
      · split
        · intro p hp
          have := (Memory.wf_cons.mp hw).2.1 p hp
          omega
        · simpa using ha
      · split
        · simpa using hk
        · simpa using ha

/-- A write keeps the canonical form. -/
theorem cellsPut_wf (m : List Host.Cell) (x : Nat) (v : Byte) (h : Memory.wf m = true) :
    Memory.wf (cellsPut m x v) = true := by
  induction m with
  | nil =>
    simp only [cellsPut]
    split <;> simp_all [Memory.wf]
  | cons q rest ih =>
    obtain ⟨k, w⟩ := q
    obtain ⟨hw, hh, hr⟩ := Memory.wf_cons.mp h
    simp only [cellsPut]
    split
    · rename_i hk
      exact Memory.wf_cons.mpr ⟨hw, cellsPut_head rest x v k hk hh hr, ih hr⟩
    · split
      · rename_i hk
        split
        · exact hr
        · rename_i hv
          exact Memory.wf_cons.mpr ⟨hv, hk ▸ hh, hr⟩
      · split
        · exact h
        · rename_i h1 h2 hv
          refine Memory.wf_cons.mpr ⟨hv, ?_, h⟩
          intro p hp
          simp only [List.head?_cons, Option.mem_def, Option.some.injEq] at hp
          subst hp
          show x < k
          omega

/-- An address below every listed one reads zero. -/
theorem cellsGet_below (m : List Host.Cell) (y : Nat) (hm : ∀ p ∈ m.head?, y < p.1) : cellsGet m y = 0 := by
  cases m with
  | nil => rfl
  | cons q rest =>
    obtain ⟨k, w⟩ := q
    have : y < k := hm (k, w) (by simp)
    simp [cellsGet, this, Nat.ne_of_gt this]

/-- Reading the byte that has been written. -/
theorem cellsGet_put_self (m : List Host.Cell) (x : Nat) (v : Byte) (h : Memory.wf m = true) :
    cellsGet (cellsPut m x v) x = v := by
  induction m with
  | nil =>
    simp only [cellsPut]
    split <;> simp_all [cellsGet]
  | cons q rest ih =>
    obtain ⟨k, w⟩ := q
    obtain ⟨hw, hh, hr⟩ := Memory.wf_cons.mp h
    simp only [cellsPut]
    split
    · rename_i hk
      simp [cellsGet, Nat.ne_of_lt hk, Nat.not_lt_of_lt hk, ih hr]
    · split
      · rename_i hk
        split
        · rename_i hv
          rw [hv]
          exact cellsGet_below rest x (hk ▸ hh)
        · simp [cellsGet]
      · rename_i h1 h2
        have : x < k := by omega
        split
        · rename_i hv
          simp [cellsGet, h2, this, hv]
        · simp [cellsGet]

/-- Reading any other byte. -/
theorem cellsGet_put_ne (m : List Host.Cell) {x y : Nat} (v : Byte) (h : Memory.wf m = true) (hxy : y ≠ x) :
    cellsGet (cellsPut m x v) y = cellsGet m y := by
  induction m with
  | nil =>
    simp only [cellsPut]
    split
    · rfl
    · simp [cellsGet, Ne.symm hxy]
  | cons q rest ih =>
    obtain ⟨k, w⟩ := q
    obtain ⟨hw, hh, hr⟩ := Memory.wf_cons.mp h
    simp only [cellsPut]
    split
    · simp [cellsGet, ih hr]
    · split
      · rename_i hk
        subst hk
        split
        · simp only [cellsGet, Ne.symm hxy, if_false]
          split
          · rename_i hy
            exact cellsGet_below rest y (fun p hp => Nat.lt_trans hy (hh p hp))
          · rfl
        · simp [cellsGet, Ne.symm hxy]
      · rename_i h1 h2
        have hk : x < k := by omega
        split
        · rfl
        · simp only [cellsGet, Ne.symm hxy, if_false]
          split
          · rename_i hy
            have h3 : k ≠ y := by omega
            have h4 : y < k := by omega
            simp [h3, h4]
          · rfl

/-! ### Several bytes -/

theorem cellsWrite_wf (m : List Host.Cell) (x : Nat) (bs : List Byte) (h : Memory.wf m = true) :
    Memory.wf (cellsWrite m x bs) = true := by
  induction bs generalizing m x with
  | nil => exact h
  | cons b bs ih => exact ih _ _ (cellsPut_wf m x b h)

theorem cellsGet_write_outside (m : List Host.Cell) (x : Nat) (bs : List Byte) (h : Memory.wf m = true) (y : Nat)
    (hy : y < x ∨ x + bs.length ≤ y) : cellsGet (cellsWrite m x bs) y = cellsGet m y := by
  induction bs generalizing m x with
  | nil => rfl
  | cons b bs ih =>
    simp only [List.length_cons] at hy
    rw [cellsWrite, ih _ _ (cellsPut_wf m x b h) (by omega), cellsGet_put_ne m b h (by omega)]

theorem cellsGet_write_inside (m : List Host.Cell) (x : Nat) (bs : List Byte) (h : Memory.wf m = true) (k : Nat)
    (hk : k < bs.length) : cellsGet (cellsWrite m x bs) (x + k) = bs[k] := by
  induction bs generalizing m x k with
  | nil => simp at hk
  | cons b bs ih =>
    cases k with
    | zero =>
      rw [cellsWrite, cellsGet_write_outside _ _ _ (cellsPut_wf m x b h) _ (by omega)]
      simpa using cellsGet_put_self m x b h
    | succ k =>
      have hk' : k < bs.length := by simpa using hk
      rw [cellsWrite, show x + (k + 1) = x + 1 + k by omega, ih _ _ (cellsPut_wf m x b h) k hk']
      simp

theorem cellsRead_length (m : List Host.Cell) (n x : Nat) : (cellsRead m n x).length = n := by
  induction n generalizing x with
  | zero => rfl
  | succ n ih => simp [cellsRead, ih]

theorem cellsRead_getElem (m : List Host.Cell) (n x k : Nat) (hk : k < (cellsRead m n x).length) :
    (cellsRead m n x)[k] = cellsGet m (x + k) := by
  induction n generalizing x k with
  | zero => simp [cellsRead] at hk
  | succ n ih =>
    cases k with
    | zero => simp [cellsRead]
    | succ k =>
      have hk' : k < (cellsRead m n (x + 1)).length := by
        simp only [cellsRead, List.length_cons] at hk; omega
      simp only [cellsRead, List.getElem_cons_succ]
      rw [ih (x + 1) k hk', show x + 1 + k = x + (k + 1) by omega]

/-- Reading back what has been written. -/
theorem cellsRead_write (m : List Host.Cell) (x : Nat) (bs : List Byte) (h : Memory.wf m = true) :
    cellsRead (cellsWrite m x bs) bs.length x = bs := by
  apply List.ext_getElem (cellsRead_length _ _ _)
  intro k h1 h2
  rw [cellsRead_getElem, cellsGet_write_inside m x bs h k h2]

/-- Equal memories are equal data: two canonical lists that read alike are one list. -/
theorem cells_ext (m m' : List Host.Cell) (h : Memory.wf m = true) (h' : Memory.wf m' = true)
    (he : ∀ y, cellsGet m y = cellsGet m' y) : m = m' := by
  induction m generalizing m' with
  | nil =>
    cases m' with
    | nil => rfl
    | cons q r =>
      obtain ⟨k, w⟩ := q
      have := he k
      simp [cellsGet] at this
      exact absurd this.symm (Memory.wf_cons.mp h').1
  | cons p rest ih =>
    obtain ⟨a, b⟩ := p
    obtain ⟨hb, hh, hr⟩ := Memory.wf_cons.mp h
    cases m' with
    | nil =>
      have := he a
      simp [cellsGet] at this
      exact absurd this hb
    | cons q r =>
      obtain ⟨k, w⟩ := q
      obtain ⟨hw, hk, hr'⟩ := Memory.wf_cons.mp h'
      have hak : a = k := by
        have e1 := he a
        have e2 := he k
        simp only [cellsGet] at e1 e2
        by_cases c1 : a = k
        · exact c1
        · by_cases c2 : a < k
          · simp [Ne.symm c1, c2] at e1; exact absurd e1 hb
          · have c3 : k < a := by omega
            simp [c1, c3] at e2; exact absurd e2.symm hw
      subst hak
      have hbw : b = w := by simpa [cellsGet] using he a
      subst hbw
      congr 1
      apply ih r hr hr'
      intro y
      have e := he y
      simp only [cellsGet] at e
      by_cases c1 : a = y
      · subst c1
        rw [cellsGet_below rest a hh, cellsGet_below r a hk]
      · by_cases c2 : y < a
        · rw [cellsGet_below rest y (fun p hp => Nat.lt_trans c2 (hh p hp)),
            cellsGet_below r y (fun p hp => Nat.lt_trans c2 (hk p hp))]
        · simpa [c1, c2] using e

/-! ### The memories of the part -/

theorem Core.logRow_mem (c : Core) (r : Nat) : (c.logRow r).mem = c.mem := by
  unfold Core.logRow; split <;> rfl

/-- A write of local memory writes its bytes and no others, in the canonical form. -/
theorem Core.lwrite_lmem (c : Core) (off : Nat) (bs : List Byte) (psn : Bool) :
    (c.lwrite off bs psn).mem.lmem = cellsWrite c.mem.lmem off bs := by
  have h : ∀ l : List Nat, (l.foldl Core.logRow c).mem = c.mem := by
    intro l
    induction l generalizing c with
    | nil => rfl
    | cons r l ih => rw [List.foldl_cons, ih, Core.logRow_mem]
  simp only [Core.lwrite, h]

theorem Core.lwrite_wf (c : Core) (off : Nat) (bs : List Byte) (psn : Bool) (h : Memory.wf c.mem.lmem = true) :
    Memory.wf (c.lwrite off bs psn).mem.lmem = true := by
  rw [Core.lwrite_lmem]; exact cellsWrite_wf _ _ _ h

/-- Writes at home keep the canonical form. -/
theorem State.putCells_wf (s : State) (bs : List (Nat × Byte)) (h : Memory.wf s.mem.cells = true) :
    Memory.wf (s.putCells bs).mem.cells = true := by
  have key : ∀ (bs : List (Nat × Byte)) (m : List Host.Cell), Memory.wf m = true →
      Memory.wf (bs.foldl (fun m p => cellsPut m p.1 p.2) m) = true := by
    intro bs
    induction bs with
    | nil => intro m hm; exact hm
    | cons p bs ih => intro m hm; exact ih _ (cellsPut_wf m p.1 p.2 hm)
  exact key bs _ h

/-- Memory at reset lists nothing. -/
theorem State.reset_wf : Memory.wf State.reset.mem.cells = true ∧ Memory.wf State.reset.host.mem = true
    ∧ ∀ n, Memory.wf (State.reset.core n).mem.lmem = true := ⟨rfl, rfl, fun _ => rfl⟩

end Sys2Proof.Machine
end

