-- ==== Sys2Proof/Laws/Requests.lean ====
section
/-!
SUPPORT. What the requests of a sequencer share: the reply that waits for memory, the wait for words that home cannot
serve, the start of a request, which sequence a handle names.
-/
set_option Elab.async false
namespace Sys2Proof.Machine

open Claims

/-! ### Replies -/

/-- A reply completes the request, or leaves it waiting with the reply (spec/17 R324). -/
theorem State.replies_cases (s : State) (rd : Reg) (v : Word) :
    (s.written (s.corePartId s.ctx.core) = true ∧ s.replies rd v = (s.wr rd v).retire) ∨
    (s.written (s.corePartId s.ctx.core) = false ∧ s.replies rd v = s.stall (.reply v)) := by
  unfold State.replies
  cases h : s.written (s.corePartId s.ctx.core) <;> simp

/-- An instruction that ends in a reply replies in the sense of the claims. -/
theorem State.replies_claim {i : Instr} {s u : State} {rd : Reg} {v : Word} (h : exec i s = .next (u.replies rd v)) :
    Replies i s u rd v := by
  unfold Replies Ends Waits
  rw [h]
  unfold State.replies
  split <;> rfl

/-! ### What a request must see -/

theorem State.sees_nil (s : State) (part : Nat) : s.sees part [] = (s, true) := rfl

/-- A request goes on in the state in which all its ranges have been seen. -/
theorem State.seeing_of_sees {s u : State} {part : Nat} {ranges : List (Nat × Nat)} (h : s.sees part ranges = (u, true))
    (k : State → State) : s.seeing part ranges k = k u := by
  simp [State.seeing, h]

/-- While home cannot serve one of them the request waits. -/
theorem State.seeing_of_not_sees {s u : State} {part : Nat} {ranges : List (Nat × Nat)} (h : s.sees part ranges = (u, false))
    (k : State → State) : s.seeing part ranges k = u.stall .release := by
  simp [State.seeing, h]

/-! ### The start of a request -/

/-- A request that has been carried out gives its reply. -/
theorem State.request17_reply {s : State} {v : Word} (h : s.stage = some (.reply v)) (rd : Reg) (k : Partition → State) :
    s.request17 rd k = s.replies rd v := by
  simp [State.request17, h]

/-- A request that has not yet been carried out waits for its release (R335), is refused with code 1 where sequences are off
(R321), or goes on in the partition. -/
theorem State.request17_start {s : State} (h : ∀ v, s.stage ≠ some (.reply v)) (rd : Reg) (k : Partition → State) :
    s.request17 rd k = if s.released s.ctx.core s.ctx.thr = false then s.stall .release
      else match s.seqPart with
        | none => s.refuse rd 1
        | some p => k p := by
  unfold State.request17
  split
  · next v e => exact absurd e (h v)
  · cases s.released s.ctx.core s.ctx.thr <;> cases s.seqPart <;> rfl

/-! ### Which sequence a handle names -/

/-- The sequence of a handle is one that the part keeps, and its record lies in the array of SEQBASE (R321). -/
theorem State.seqOf_eq_some {s : State} {part h : Nat} {q : Seq} (e : s.seqOf part h = some q) :
    s.seqKept part h = some q ∧ ∃ p, s.partOf part = some p ∧ p.seqbase = q.base := by
  unfold State.seqOf at e
  obtain ⟨ek, hp⟩ := Option.filter_eq_some_iff.1 e
  obtain ⟨p, hp1, hp2⟩ := (Option.any_eq_true _ _).1 hp
  exact ⟨ek, p, hp1, by simpa using hp2⟩

/-- It has the handle and the partition it is looked up by. -/
theorem State.seqKept_fields {s : State} {part h : Nat} {q : Seq} (e : s.seqKept part h = some q) :
    q.handle = h ∧ q.part = part := by
  simpa using List.find?_some e

/-- Changing a sequence leaves those of other handles and partitions. -/
theorem State.seqKept_onSeq_ne {s : State} {part h part' h' : Nat} (f : Seq → Seq)
    (hf : ∀ q, (f q).handle = q.handle ∧ (f q).part = q.part) (ne : ¬ (h' = h ∧ part' = part)) :
    (s.onSeq part h f).seqKept part' h' = s.seqKept part' h' := by
  simp only [State.seqKept, State.onSeq, List.find?_map]
  have : ((fun q : Seq => decide (q.handle = h') && decide (q.part = part')) ∘
      fun q => if q.handle = h ∧ q.part = part then f q else q) = fun q => decide (q.handle = h') && decide (q.part = part') := by
    funext q
    by_cases hq : q.handle = h ∧ q.part = part <;> simp [hq, hf q]
  rw [this]
  cases hfind : s.seqs.find? fun q => decide (q.handle = h') && decide (q.part = part') with
  | none => rfl
  | some q =>
    have : q.handle = h' ∧ q.part = part' := by simpa using List.find?_some hfind
    have nq : ¬ (q.handle = h ∧ q.part = part) := by rw [this.1, this.2]; exact ne
    simp [nq]

end Sys2Proof.Machine
end

