-- ==== Sys2Proof/Tests/Slice0.lean ====
section
/-!
SUPPORT. The model's own tests. Words are written out from the encoding tables of spec/03 (R88-R98), results by hand from
the entries of the instructions. A theorem `wit_<Obligation>` shows concrete states and operands that meet the hypotheses
of the obligation it names, clause by clause.
-/
set_option linter.constructorNameAsVariable false
set_option maxRecDepth 8000

namespace Sys2Proof.Tests

set_option Elab.async false

open Sys2Proof.Machine Sys2Proof.Claims

/-! ### Small states -/

/-- Core 0 with one live thread at S level, executing an instruction of 4 bytes at 0x100. -/
def base : State :=
  { State.reset.placed [] with ctx := ⟨0, 0, 0x100, 0x100, 4, 0x12345678, 0, false, .stalled⟩ }

/-- The base with some scalar registers set. -/
def live (rs : List (Reg × Word)) : State := rs.foldl (fun s p => s.wr p.1 p.2) base

/-- Changes the executing thread. -/
def thr (f : Thread → Thread) (s : State) : State := s.onCur f

/-- Changes what the thread is in the middle of. -/
def run (f : Run → Run) (s : State) : State := s.onCur fun t => { t with run := f t.run }

/-- Changes the special registers of the thread. -/
def spec (f : Special → Special) (s : State) : State := s.onCur fun t => { t with sp := f t.sp }

/-- Changes core 0. -/
def core0 (f : Core → Core) (s : State) : State := s.onCore 0 f

/-- At U level. -/
def user (s : State) : State := s.onCur fun t => { t with level := .u }

/-- Bytes in the local memory of core 0. -/
def loc (a : Nat) (bs : List Byte) (s : State) : State :=
  core0 (fun c => { c with mem := { c.mem with lmem := cellsWrite c.mem.lmem a bs } }) s

/-- One coherent leaf of 4 TiB maps the partition's global addresses (spec/21 R391). -/
def mapped (s : State) : State := { s with mem := { s.mem with cells := [(0, 0x7F)] } }

/-- A v register of the executing thread. -/
def vset (v : VReg) (x : VWord) (s : State) : State := s.onCur fun t => { t with regs := t.regs.writeV v x }

/-- What the execution answers (the state itself where it does not answer a next state). -/
def after (i : Instr) (s : State) : State :=
  match exec i s with
  | .next t => t
  | _ => s

/-- A scalar register afterwards. -/
def reg (i : Instr) (s : State) (x : Reg) : Word := (after i s).rd x

/-- A v register afterwards. -/
def vec (i : Instr) (s : State) (x : VReg) : VWord := (after i s).rv x

/-- FS afterwards. -/
def flags (i : Instr) (s : State) : BitVec 8 := (after i s).cur.sp.fs

/-- The cause and value of the trap taken. -/
def trapped (i : Instr) (s : State) : BitVec 8 × Word :=
  ((after i s).cur.trap.tcause, (after i s).cur.trap.tval)

/-- What the thread waits for afterwards. -/
def waits (i : Instr) (s : State) : Option Wait := (after i s).cur.run.wait

/-! ### Well-formedness: an ill-formed term for each check -/

theorem test_wf_shift : (Instr.slli 1 2 64).wellFormed = false := by decide
theorem test_wf_shift_ok : (Instr.slli 1 2 63).wellFormed = true := by decide
theorem test_wf_loopx : (Instr.loopx 3).wellFormed = false := by decide
theorem test_wf_loop_span : (Instr.loop false 1 3).wellFormed = false := by decide
theorem test_wf_loopi_span : (Instr.loopi false 1 4).wellFormed = true := by decide
theorem test_wf_fields :
    (Instr.mulh 1 2 3 false true).wellFormed = false ∧ (Instr.and 1 2 3 true false).wellFormed = false ∧
    (Instr.st 1 2 0 .bz false).wellFormed = false ∧ (Instr.vld 15 1 0 true false).wellFormed = false ∧
    (Instr.ldm 13 1 0 false).wellFormed = false ∧ (Instr.movm 2 4).wellFormed = false := by decide

theorem test_wf_lanes :
    (Instr.vadd 1 2 3 .f32 true .rne).wellFormed = false ∧ (Instr.vadd 1 2 3 .i32 false .rne).wellFormed = false ∧
    (Instr.vshl 1 2 3 .f32).wellFormed = false ∧ (Instr.vext 1 2 .f64 2).wellFormed = false ∧
    (Instr.vdot 1 2 3 .f32 false .rne).wellFormed = false ∧ (Instr.vred 1 2 .f32 .sum true).wellFormed = false ∧
    (Instr.cvt 1 2 (.floatFloat .f32 .f32) .rne).wellFormed = false ∧
    (Instr.vcvt 1 2 .f32 .f32 0 false .rne).wellFormed = false ∧ (Instr.vcvt 1 2 .f64 .f32 2 false .rne).wellFormed = false ∧
    (Instr.flenc 0 4 .fl7 3).wellFormed = false ∧ (Instr.vsfu 1 2 .exp .f64).wellFormed = false ∧
    (Instr.cVshl 1 2 .f32).wellFormed = false := by decide

theorem test_wf_engines :
    (Instr.vsexp 0 1 2 3 .f64 .rne).wellFormed = false ∧ (Instr.vsred 0 1 2 .i32 .rne).wellFormed = false ∧
    (Instr.vscvt 0 1 2 (.elem .f32) (.elem .f32) false .rne).wellFormed = false ∧ (Instr.mxwl .f32 1 2).wellFormed = false ∧
    (Instr.mxa .f16 1 2 3 0 1 false).wellFormed = false ∧ (Instr.mxd .i8 1 2 3 false).wellFormed = false ∧
    (Instr.mxstat 1 3).wellFormed = false ∧ (Instr.cpyg 1 2 3 4 0).wellFormed = false ∧ (Instr.cpye 1 2 3 0).wellFormed = false ∧
    (Instr.qfence 0).wellFormed = false := by decide

theorem test_wf_rest :
    (Instr.exch 1 0 0 0 true).wellFormed = false ∧ (Instr.redv 1 2 0 .max .i64 true).wellFormed = false ∧
    (Instr.cxstate 1 2 3).wellFormed = false ∧ (Instr.tlbinv 1 3).wellFormed = false ∧ (Instr.dep false 0 7).wellFormed = false := by
  decide

theorem test_wf_events :
    (Instr.vstreamOpRun 102400).wellFormed = false ∧ (Instr.budgetExpiry 0 4).wellFormed = false ∧
    (Instr.slabRelocationEnd 8).wellFormed = false ∧ (Instr.hostWrite true 0 []).wellFormed = false ∧
    (Instr.attest 129).wellFormed = false ∧ (Instr.fabricLaunchReceive 64 [] []).wellFormed = false ∧
    (Instr.linkPortDown 12).wellFormed = false ∧ (Instr.unitRetire (.core 102400)).wellFormed = false ∧
    (Instr.uncorrectableError (.dirEntry (2 ^ 41))).wellFormed = false ∧ (Instr.portTraining 0 3).wellFormed = false ∧
    (Instr.hostLinkTraining true 1 4).wellFormed = false := by decide


/-! ### Decoding: words written from the encoding tables of spec/03 -/

theorem test_dec_integer :
    decodeTableWord 32 0x0E711001 = some (.add 17 24 25 true false) ∧ decodeTableWord 32 0x06710051 = some (.cmp 16 24 25 false) ∧
    decodeTableWord 32 0x86F52055 = some (.sel 18 26 27 16) ∧ decodeTableWord 32 0x0CB1106D = some (.bfx 17 24 18 true) ∧
    decodeTableWord 32 0x00E31111 = some (.slli 17 17 3) ∧ decodeTableWord 32 0x1CB11129 = some (.lea 17 24 18 3) := by
  decide +kernel

theorem test_dec_control :
    decodeTableWord 32 0xFFF50205 = some (.bnz 16 0x7FFA) ∧ decodeTableWord 32 0x00020211 = some (.call 0x20) ∧
    decodeTableWord 32 0x00000219 = some .ret ∧ decodeTableWord 32 0xE01CE21D = some (.save 14 14 0x380) ∧
    decodeTableWord 64 0x000300060000022B = some (.loopi false 3 6) ∧ decodeTableWord 16 0x34 = some .cRet := by
  decide +kernel

theorem test_dec_memory :
    decodeTableWord 32 0x10B10301 = some (.ld 16 24 2 .w false) ∧ decodeTableWord 32 0x589C9305 = some (.st 9 14 2 .d true) ∧
    decodeTableWord 64 0xFFFFFFFC28341313 = some (.ldl 1 26 0xFFFFFFFC .hz false) ∧
    decodeTableWord 64 0x0000001A18A01333 = some (.cas 1 16 2 3 false .ar) := by decide +kernel

theorem test_dec_system :
    decodeTableWord 32 0x10050F01 = some (.rsr 16 0x802) ∧ decodeTableWord 32 0x00200F05 = some (.wsr 0x010 0) ∧
    decodeTableWord 32 0x01C00F09 = some (.trap 7) ∧ decodeTableWord 32 0xF0D = some .tret ∧ decodeTableWord 32 0xF39 = some .stop ∧
    decodeTableWord 16 0x38 = some .cTfence := by decide +kernel

/-! ### Integer instructions (spec/04) -/

/-- -1 + 1 in 32 bits, and a 32-bit overflow sign-extended or clamped with SAT (R102). -/
theorem test_add :
    let s := live [(1, 0x7FFFFFFF), (2, 1), (3, 0xFFFFFFFFFFFFFFFF)]
    reg (.add 4 3 2 false false) s 4 = 0 ∧ reg (.add 4 1 2 true false) s 4 = 0xFFFFFFFF80000000 ∧
    reg (.add 1 1 2 true true) s 1 = 0x7FFFFFFF ∧ flags (.add 4 1 2 true true) s = 0x20 ∧ flags (.add 4 1 2 true false) s = 0 ∧
    reg (.add 0 1 2 false false) s 0 = 0 ∧ (after (.add 4 1 2 true false) s).cur.pc = 0x104 := by decide +kernel

theorem test_sub_mul :
    let s := live [(1, 0x8000000000000000), (2, 1), (3, 3)]
    reg (.sub 4 1 2 false true) s 4 = 0x8000000000000000 ∧ flags (.sub 4 1 2 false true) s = 0x20 ∧
    reg (.sub 4 2 3 false false) s 4 = 0xFFFFFFFFFFFFFFFE ∧ reg (.mul 4 1 3 false false) s 4 = 0x8000000000000000 ∧
    reg (.mul 4 1 3 false true) s 4 = 0x8000000000000000 := by decide +kernel

theorem test_high_products :
    let s := live [(1, 0xFFFFFFFFFFFFFFFF), (2, 2)]
    reg (.mulh 4 1 2 false false) s 4 = 0xFFFFFFFFFFFFFFFF ∧ reg (.mulhu 4 1 2 false false) s 4 = 1 ∧
    reg (.mulhu 4 1 1 true false) s 4 = 0xFFFFFFFFFFFFFFFE := by decide +kernel

theorem test_extremes :
    let s := live [(1, 0xFFFFFFFFFFFFFFFF), (2, 2)]
    reg (.min 4 1 2 false false) s 4 = 0xFFFFFFFFFFFFFFFF ∧ reg (.max 4 1 2 false false) s 4 = 2 ∧
    reg (.minu 4 1 2 false false) s 4 = 2 ∧ reg (.maxu 4 1 2 true false) s 4 = 0xFFFFFFFFFFFFFFFF := by decide +kernel

/-- Division by zero, the overflowing quotient, truncation and remainders (R103). -/
theorem test_div :
    let s := live [(1, 0x8000000000000000), (2, 0xFFFFFFFFFFFFFFFF), (3, 7), (5, 0xFFFFFFFFFFFFFFFE)]
    reg (.div 4 3 0 false false) s 4 = 0xFFFFFFFFFFFFFFFF ∧ reg (.div 4 3 0 false true) s 4 = 0x7FFFFFFFFFFFFFFF ∧
    reg (.div 4 2 0 false true) s 4 = 0x8000000000000000 ∧ flags (.div 4 2 0 false true) s = 0x20 ∧
    reg (.div 4 1 2 false false) s 4 = 0x8000000000000000 ∧ reg (.div 4 1 2 false true) s 4 = 0x7FFFFFFFFFFFFFFF ∧
    reg (.div 4 3 5 false false) s 4 = 0xFFFFFFFFFFFFFFFD ∧ reg (.rem 4 3 5 false false) s 4 = 1 ∧
    reg (.rem 4 1 2 false false) s 4 = 0 ∧ reg (.rem 4 3 0 false false) s 4 = 7 := by decide +kernel

theorem test_divu :
    let s := live [(1, 0xFFFFFFFF80000000), (3, 7)]
    reg (.divu 4 1 3 true false) s 4 = 0x12492492 ∧ reg (.divu 4 3 0 true false) s 4 = 0xFFFFFFFFFFFFFFFF ∧
    reg (.remu 4 1 3 true false) s 4 = 2 ∧ reg (.remu 4 1 0 true false) s 4 = 0xFFFFFFFF80000000 := by decide +kernel

theorem wit_IntegerDivision :
    let s := live [(1, 0xFFFFFFFF00000000), (2, 1)]
    opnd true true (s.rd 2) ≠ 0 ∧ opnd false true (s.rd 1) ≠ 0 ∧ opnd true true (s.rd 1) = 0 ∧ opnd false true (s.rd 0) = 0 ∧
    opnd true false (s.rd 2) ≠ 0 ∧ opnd true false (s.rd 1) = 0 := by decide +kernel

theorem test_logic :
    let s := live [(1, 0xF0F0), (2, 0xFF00)]
    reg (.and 4 1 2 false false) s 4 = 0xF000 ∧ reg (.or 4 1 2 false false) s 4 = 0xFFF0 ∧ reg (.xor 4 1 2 false false) s 4 = 0x0FF0 ∧
    reg (.andn 4 1 2 false false) s 4 = 0x00F0 ∧ reg (.sel 4 1 2 0) s 4 = 0xFF00 ∧ reg (.sel 4 1 2 1) s 4 = 0xF0F0 ∧
    reg (.andi 4 1 0x3F0) s 4 = 0xF0F0 ∧ reg (.ori 4 1 0x20F) s 4 = 0xFFFFFFFFFFFFFEFF ∧ reg (.xori 4 1 0x3FF) s 4 = 0xFFFFFFFFFFFF0F0F := by
  decide +kernel

theorem test_constants :
    let s := live [(1, 0x1122334455667788), (2, 3)]
    reg (.addi 4 1 0x3FF) s 4 = 0x1122334455667787 ∧ reg (.li 4 0x80000000) s 4 = 0xFFFFFFFF80000000 ∧
    reg (.lih 1 0xAABBCCDD) s 1 = 0xAABBCCDD55667788 ∧ reg (.lea 4 1 2 3) s 4 = 0x11223344556677A0 ∧
    reg (.pcrel 4 0xFFFFFFFE) s 4 = 0xFE ∧ reg (.cMov 4 1) s 4 = 0x1122334455667788 ∧ reg (.cAddi 2 0x1F) s 2 = 2 ∧
    reg (.cLi 4 0x10) s 4 = 0xFFFFFFFFFFFFFFF0 := by decide +kernel

/-- Counts are taken modulo the width (R104). -/
theorem test_shifts :
    let s := live [(1, 0xFFFFFFFF80000001), (2, 0x44), (3, 0x21)]
    reg (.sll 4 1 2 false) s 4 = 0xFFFFFFF800000010 ∧ reg (.srl 4 1 2 false) s 4 = 0x0FFFFFFFF8000000 ∧
    reg (.sra 4 1 2 false) s 4 = 0xFFFFFFFFF8000000 ∧ reg (.sll 4 1 3 true) s 4 = 2 ∧ reg (.srl 4 1 3 true) s 4 = 0x40000000 ∧
    reg (.sra 4 1 3 true) s 4 = 0xFFFFFFFFC0000000 ∧ reg (.slli 4 1 63) s 4 = 0x8000000000000000 ∧ reg (.srli 4 1 63) s 4 = 1 ∧
    reg (.srai 4 1 63) s 4 = 0xFFFFFFFFFFFFFFFF ∧ reg (.cSlli 1 31) s 1 = 0xC000000080000000 ∧
    reg (.cSrai 1 31) s 1 = 0xFFFFFFFFFFFFFFFF := by decide +kernel

theorem wit_LogicAddressesAndShifts : (63 : BitVec 10).toNat < 64 ∧ (0 : BitVec 10).toNat < 64 := by decide

theorem test_cmp :
    let s := live [(1, 0xFFFFFFFFFFFFFFFF), (2, 1)]
    reg (.cmp 4 1 2 false) s 4 = 0x1A6 ∧ reg (.cmp 4 2 2 true) s 4 = 0x2A9 ∧ reg (.cmpi 4 1 0x3FF) s 4 = 0x2A9 := by decide +kernel

theorem test_counts :
    let s := live [(1, 0x00F0000000000100), (2, 0x8000)]
    reg (.clz 4 1 false) s 4 = 8 ∧ reg (.clz 4 0 true) s 4 = 32 ∧ reg (.ctz 4 1 false) s 4 = 8 ∧ reg (.ctz 4 0 false) s 4 = 64 ∧
    reg (.popc 4 1 false) s 4 = 5 ∧ reg (.popc 4 1 true) s 4 = 1 ∧ reg (.brev 4 2 true) s 4 = 0x10000 ∧
    reg (.bswap 4 1 false) s 4 = 0x000100000000F000 := by decide +kernel

theorem test_bit_fields :
    let s := live [(1, 0xABCDEF), (2, 0x0804), (3, 0xFFFFFFFFFFFFFFFF), (5, 0x7F3C)]
    reg (.bfx 4 1 2 false) s 4 = 0xDE ∧ reg (.bfx 4 1 2 true) s 4 = 0xFFFFFFFFFFFFFFDE ∧ reg (.bfx 4 1 0 true) s 4 = 0 ∧
    reg (.bfi 3 1 2) s 3 = 0xFFFFFFFFFFFFFEFF ∧ reg (.bfi 3 0 5) s 3 = 0x0FFFFFFFFFFFFFFF := by decide +kernel

theorem wit_BitCountsAndBitFields :
    let c := (live [(2, 0x7F3C)]).rd 2
    let len := Nat.min (Nat.min (c.toNat / 256 % 128) 64) (64 - c.toNat % 64)
    len = 4 ∧ 3 < len ∧ 59 < c.toNat % 64 ∧ (60 + len : Nat) ≤ 64 ∧ 31 < width true ∧ 63 < width false := by decide +kernel

/-! ### Steps, fetching, memory in canonical form -/

/-- The state for StepRunsDecodedInstruction: ADDI g1, g0, 5 at the pc, the agenda names the thread. -/
def ready (w : Nat) : State := { State.reset.withFetchWord 32 w with agenda := [.thread 0 0] }

theorem wit_StepRunsDecodedInstruction :
    let i : Instr := .addi 1 0 5
    ∀ bs, encodeBytes i = some bs →
    let s := ready (leNat bs)
    let s0 := { s with agenda := [] }
    let s1 := (s0.considered 0 0).fated .stalled
    let r := s1.nextBytes 0 0
    s0.canMove 0 0 = true ∧ s1.takeAsync 0 0 = none ∧ (r.2.1 = .ok bs) ∧
    ((r.1.issuing 0 0 0 0 4 (wordAt bs)).cur.breakAt 0 = none) ∧ (r.1.issuing 0 0 0 0 4 (wordAt bs)).takeDamage 0 0 i = none ∧
    r.1.preempting 0 = false ∧ (r.1.thread 0 0).sp.sel = 0 ∧ i.wellFormed = true := by
  intro i bs h
  have e : bs = [0x01, 0x11, 0x40, 0x01] := by
    have : encodeBytes i = some [0x01, 0x11, 0x40, 0x01] := by decide +kernel
    rw [this] at h; exact (Option.some.inj h).symm
  subst e
  decide +kernel

/-- The same with DEP g=1, mask 0 before it. -/
theorem wit_StepRunsDecodedInstruction_prefixed :
    let bs : List Byte := (encodeBytes (.dep false 0 1)).getD [] ++ (encodeBytes (.addi 1 0 5)).getD []
    let s0 := { ready (leNat bs) with agenda := [] }
    let r := ((s0.considered 0 0).fated .stalled).nextBytes 0 0
    let u := r.1.issuing 0 0 0 2 4 (wordAt (bs.drop 2))
    bs.length = 6 ∧ encodeBytes (.dep false 0 1) = some (bs.take 2) ∧ r.2.1 = .ok bs ∧ u.cur.breakAt 0 = none ∧
    u.takeDamage 0 0 (.addi 1 0 5) = none ∧ (u.privFirst (.addi 1 0 5)).isNone = true := by decide +kernel

/-- A step executes what memory holds at the pc. -/
theorem test_step :
    (match step (ready 0x01405101) with | .next t => ((t.thread 0 0).regs.read 5, (t.thread 0 0).pc) | _ => (0, 0)) = (5, 4) := by
  decide +kernel

theorem wit_FetchReadsLocalMemory :
    let s := ready 0x01611101
    let th := s.thread 0 0
    th.run.fbuf.bytes = [] ∧ th.pc.toNat % 2 = 0 ∧ th.pc.toNat / 16 * 16 + 32 ≤ s.localEnd 0 ∧ s.lpoison 0 0 32 = false ∧
    encodeBytes (.addi 17 16 5) = some (s.lmem 0 0 4) := by decide +kernel

theorem wit_EventsRunTheirRow :
    (Instr.isEvent (.powerOn []) = true ∧ (Instr.powerOn []).wellFormed = true) ∧ Instr.isEvent .ret = false ∧
    (Instr.vstreamOpRun 102400).wellFormed = false ∧ Config.numCores ≤ 102400 ∧ 102399 < Config.numCores ∧
    (live []).canMove 0 1 = false := by decide +kernel

theorem wit_CanonicalMemoryIsDetermined : Memory.wf [(3, 1), (7, 2)] = true ∧ Memory.wf [(7, 2), (3, 1)] = false ∧ Memory.wf [(3, 0)] = false := by
  decide

theorem wit_StepKeepsCanonical : CanonicalGlobal State.reset ∧ Memory.wf (State.reset.core 0).mem.lmem = true ∧ State.reset.launches = [] :=
  ⟨⟨rfl, rfl⟩, rfl, rfl⟩

theorem wit_RegisterFileThroughWindows : (1 : Reg) ≠ 0 ∧ (8 : Reg) ≠ 24 := by decide

/-! ### Control flow (spec/04) -/

theorem test_branches :
    let s := live [(1, 1), (2, 0x201)]
    (after (.bz 1 5) s).cur.pc = 0x104 ∧ (after (.bnz 1 0x7FFE) s).cur.pc = 0xFC ∧ (after (.cBz 0 31) s).cur.pc = 0xFE ∧
    (after (.cBnz 0 31) s).cur.pc = 0x104 ∧ (after (.j 0x80000) s).cur.pc = 0xFFFFFFFFFFF00100 ∧ (after (.cJ 2) s).cur.pc = 0x104 ∧
    (after (.jr 2 1) s).cur.pc = 0x202 ∧ trapped (.jr 2 0) s = (Cause.fetchFault.code, 0x201) := by decide +kernel

theorem test_calls :
    let s := live [(15, 0x301), (1, 0x400)]
    reg (.call 8) s 15 = 0x104 ∧ (after (.call 8) s).cur.pc = 0x110 ∧ (after (.callr 15 1) s).cur.pc = 0x302 ∧
    reg (.callr 15 1) s 15 = 0x104 ∧ trapped .ret s = (Cause.fetchFault.code, 0x301) ∧
    (after .cRet (live [(15, 0x302)])).cur.pc = 0x302 ∧ (after .cNop s).cur.pc = 0x104 := by decide +kernel

theorem wit_ControlTransfers :
    let s := live [(1, 7), (2, 8)]
    let p : Word := { s.ctx with p := 0x101 }.p
    s.rd 0 = 0 ∧ s.rd 1 ≠ 0 ∧ (s.rd 2 + (0 : BitVec 10).signExtend 64).getLsbD 0 = false ∧
    (s.rd 1 + (0 : BitVec 10).signExtend 64).getLsbD 0 = true ∧ (s.ctx.p + (0 : BitVec 20).signExtend 64 * 2).getLsbD 0 = false ∧
    (p + (0 : BitVec 20).signExtend 64 * 2).getLsbD 0 = true ∧ (s.rd 15).getLsbD 0 = false ∧ ((live [(15, 1)]).rd 15).getLsbD 0 = true := by
  decide +kernel

/-- Loop set 0 over an instruction at 0x100 and set 1 over one at 0x100. -/
def loops (lc0 lc1 : BitVec 32) (la : BitVec 2) : Loops := ⟨0x80, 0x100, lc0, 0x90, 0x100, lc1, la⟩

theorem test_loop_test :
    ((loops 2 2 3).test 0x100 0x104).2.1 = 0x90 ∧ ((loops 2 1 3).test 0x100 0x104).2.1 = 0x80 ∧
    ((loops 2 1 3).test 0x100 0x104).1 = loops 1 0 1 ∧ ((loops 1 1 3).test 0x100 0x104).1 = loops 0 0 0 ∧
    ((loops 1 1 3).test 0x100 0x104).2.1 = 0x104 ∧ ((loops 2 1 3).leave 0x8E).la = 1 ∧ ((loops 2 1 3).leave 0x102).la = 0 := by
  decide +kernel

theorem wit_LoopTestAtCompletion :
    ((loops 2 2 3).la.getLsbD 1 = true ∧ (0x100 : Word) = (loops 2 2 3).le1 ∧ (loops 2 2 3).lc1 > 1) ∧ ¬ (loops 2 1 3).lc1 > 1 ∧
    (loops 2 1 1).la.getLsbD 1 = false := by decide +kernel

/-- SAVE: the caller's o0 is the callee's i0, ra is read before, rd written after (R116); the traps (R116, R117). -/
theorem test_windows :
    let s := live [(8, 77), (14, 0x1000)]
    let t := after (.save 14 14 0x3F0) s
    t.rd 14 = 0xFF0 ∧ t.rd 24 = 77 ∧ t.rd 30 = 0x1000 ∧ t.cur.regs.cwp = 1 ∧ t.cur.regs.wres = 2 ∧
    reg (.restore 9 24 1) { t with ctx := s.ctx } 9 = 78 ∧ trapped (.restore 0 0 0) s = (Cause.fill.code, 7) ∧
    trapped (.save 0 0 0) (s.onCur fun t => { t with regs := { t.regs with wres := 8 } }) = (Cause.spill.code, 1) := by decide +kernel

/-- A result is on its way to a window register. -/
def pending (d : Dest) : Async := ⟨9, .load, [d], .sx, [.have 0x80, .have 1], 0, false, 0x40, .s, false⟩

theorem wit_WindowMoves :
    (run (fun r => { r with pend := [pending (.l 0 3)] }) (live [])).cur.windowedPending = true ∧
    (live []).cur.windowedPending = false ∧ (live []).cur.regs.wres = 1 ∧ (8 : BitVec 4) ≠ 1 ∧
    (waits (.save 0 0 0) (run (fun r => { r with pend := [pending (.l 0 3)] }) (live []))) = some .windows := by decide +kernel

/-- A count of zero continues behind the instruction at LE (R118): here a 16-bit one at 0x108. -/
theorem test_loop_setup :
    let s := loc 0x108 [0x2C, 0, 0, 0] (live [(1, 0x100000003)])
    let t := after (.loop true 1 4) s
    t.cur.loops = { s.cur.loops with ls1 := 0x108, le1 := 0x108, lc1 := 3, la := 2 } ∧ t.cur.pc = 0x108 ∧
    (after (.loopi false 0 4) s).cur.pc = 0x10A ∧ (after (.loopi false 2 6) s).cur.loops.le0 = 0x10C ∧
    (after (.loopi false 2 6) s).cur.loops.la = 1 := by decide +kernel

theorem wit_LoopSetUp :
    let s := loc 0x108 [0x2C, 0, 0, 0] (live [])
    ((s.rd 0).setWidth 32 = (0 : BitVec 32)) ∧ ((0xFFFF : BitVec 16).setWidth 32 ≠ (0 : BitVec 32)) ∧
    (s.lengthAt 0x108).2.toOption = some 2 ∧
    ((s.lengthAt (BitVec.ofNat 64 (2 ^ 60))).2 matches .error (some _)) = true := by decide +kernel

theorem test_loopx :
    let s := thr (fun t => { t with loops := loops 5 6 3 }) (live [])
    (after (.loopx 0) s).cur.loops = loops 5 5 2 ∧ (after (.loopx 1) s).cur.loops = loops 4 6 1 ∧ (after (.loopx 2) s).cur.loops = loops 5 6 0 := by
  decide +kernel

theorem wit_LoopEnd : (2 : BitVec 2) ≠ 3 ∧ 3 ≤ (3 : BitVec 10).toNat := by decide

/-! ### Traps, privilege, tags (spec/07, spec/03) -/

theorem test_trap :
    let s := thr (fun t => { t with loops := loops 5 6 3, trap := { t.trap with tvec := 0x901 } }) (user (live [(1, 9)]))
    let t := after (.trap 0x3FF) s
    t.cur.pc = 0x900 ∧ t.cur.level = .s ∧ t.cur.loops.la = 0 ∧ t.cur.trap.tpc = 0x90 ∧ t.cur.trap.tstat = 6 ∧
    trapped (.trap 0x3FF) s = (Cause.trap.code, 0x3FF) ∧ t.rd 1 = 9 := by decide +kernel

theorem wit_TrapEntrySavesAndRedirects :
    (live []).holdsAny 0 0 = false ∧ (live []).gangSlot 0 0 = none ∧ (live []).cur.sp.lkbud.en = false ∧
    ((live []).corePart 0).bind Partition.trace = none ∧ (live []).cur.run.arrived = none := by decide +kernel

theorem test_tret :
    let s := thr (fun t => { t with trap := { t.trap with tpc := 0x201, tstat := 2 }, loops := loops 1 1 0 }) (live [])
    (after .tret s).cur.pc = 0x200 ∧ (after .tret s).cur.level = .u ∧ (after .tret s).cur.loops.la = 1 ∧
    trapped .tret (user s) = (Cause.priv.code, 0x12345678) ∧ trapped (.launch 1 1) (user s) = (Cause.priv.code, 0x12345678) := by
  decide +kernel

theorem wit_TrapReturnAndPrivilege : (live []).level = .s ∧ (user (live [])).level = .u := by decide +kernel

theorem test_tfence :
    let s := spec (fun p => { p with fs := 0x30, fe := 0x21 }) (live [])
    trapped .tfence s = (Cause.arith.code, 0x20) ∧ trapped .cTfence s = (Cause.arith.code, 0x20) ∧
    (after .tfence (spec (fun p => { p with fe := 0x0F }) s)).cur.pc = 0x104 := by decide +kernel

/-- Tag 3 tracks operation 9. -/
def tracked : State := run (fun r => { r with tracks := [(3, 9)] }) (live [])

/-- An operation of tag 3 has failed, or left flags. -/
def reported (v : Option Word) : State :=
  core0 (fun c => { c with eng := { c.eng with done := [⟨9, 0, 3, .mx, v, 0x10⟩] } }) (live [])

theorem test_tags :
    waits (.cWaitt 4) tracked = some (.tags 4) ∧ waits (.dep false 6 1) tracked = some (.tags 6) ∧
    (after (.cWaitt 3) tracked).cur.pc = 0x104 ∧ trapped (.cWaitt 4) (reported (some 5)) = (Cause.engine.code, 5) ∧
    flags (.cWaitt 4) (reported none) = 0x10 ∧ flags (.cWaitt 3) (reported none) = 0 ∧ (after (.dep true 3 6) tracked).ctx.tag = 6 ∧
    (after (.dep true 3 6) tracked).ctx.yield = true := by decide +kernel

theorem wit_FencesAndTagWaits :
    tracked.cur.tags &&& 4 ≠ 0 ∧ tracked.cur.tags &&& 3 = 0 ∧ tracked.stage = none ∧
    ((reported (some 5)).failure (waitsFor 4)).isSome = true ∧ ((reported none).failure (waitsFor 4)).isSome = false ∧
    (live []).cur.sp.fs &&& (live []).cur.sp.fe = 0 ∧ (0x30 : BitVec 8) &&& 0x21 ≠ 0 := by decide +kernel

/-! ### System registers and decode tables (spec/03, spec/07) -/

theorem test_rsr_wsr :
    let s := live [(1, 0xFFFFFFFFFFFFFFFF)]
    (after (.wsr 0x012 1) s).cur.sp.frm = 7 ∧ trapped (.rsr 2 0x802) (user s) = (Cause.priv.code, 0x802) ∧
    trapped (.rsr 2 0x3FF) s = (Cause.illegal.code, 0x3FF) ∧ reg (.rsr 2 0x010) (spec (fun p => { p with fs := 0x15 }) s) 2 = 0x15 := by
  decide +kernel

theorem test_special_writes :
    let s := live [(1, 0x7FFFFFFFFFFFFFFF)]
    (after (.pwbWrite 2 false 1) s).sysRead 0 0 (.pwbA 2) = 0x007FFFFFFFFFFFF0 ∧ trapped (.dmapWrite 1) (user s) = (Cause.priv.code, 0x810) ∧
    (after (.holdstWrite 1) s).cur.pc = 0x104 ∧ (after (.domWrite 0) s).cur.pc = 0x104 := by decide +kernel

theorem wit_SystemRegisterAccesses :
    (0x800 ≤ 0x800 ∧ (user (live [])).level = .u) ∧ sysShown 0x3FF = none ∧ (∃ r, sysShown 0x010 = some r ∧ r.view ≠ .readOnly) ∧
    ((List.range 4096).any fun k => (sysShown k).any fun r => decide (r.view = .superW ∧ k < 0x800)) = true ∧
    ((List.range 4096).any fun k => (sysShown k).any fun r => decide (r.view = .readOnly ∧ k < 0x800)) = true ∧
    ((List.range 4096).any fun k => (sysShown k).any fun r => decide (r.view ≠ .superW ∧ 0x400 ≤ k ∧ k < 0x800)) = true := by
  decide +kernel

theorem wit_SystemRegisterReadBack : 1 ≤ (8 : Word).toNat % 16 ∧ (8 : Word).toNat % 16 ≤ 8 := by decide

theorem wit_SystemRegisterFrame : SysReg.fs ≠ .dom ∧ SysReg.fe ≠ .fs ∧ SysReg.fs ≠ .cwp ∧ SysReg.fs ≠ .wres := by decide

theorem test_dmapsel :
    let s := live []
    trapped (.dmapsel 2) s = (Cause.illegal.code, 0x12345678) ∧ (after (.dmapsel 1) s).cur.sp.sel = 1 ∧
    trapped (.dmapsel 1) (user (spec (fun p => { p with uena := 1 }) s)) = (Cause.priv.code, 0x12345678) ∧
    (after .fetchb (run (fun r => { r with fbuf := ⟨0, [(1, none)]⟩ }) s)).cur.run.fbuf.bytes = [] := by decide +kernel

theorem test_dmapld : reg (.dmapld 2 1 true) { live [] with launches := [] } 2 = 1 ∧
    trapped (.dmapld 2 1 true) (user (live [])) = (Cause.priv.code, 0x12345678) := by decide +kernel

theorem wit_DecodeTables :
    let s := live []
    (s.dmap 0 0).getLsbD (8 + 2) = false ∧ (s.dmap 0 0).getLsbD (8 + 1) = true ∧ s.cur.sp.uena.getLsbD 1 = true ∧
    s.level = .s ∧ (s.coreLaunch 0).isSome = true ∧ ({ s with launches := [] }.coreLaunch 0).isSome = false ∧
    (s.coreLaunch 0).all (fun l => !s.tableInUse l 2) = true ∧
    ((spec (fun p => { p with sel := 2 }) s).coreLaunch 0).all (fun l => (spec (fun p => { p with sel := 2 }) s).tableInUse l 2) = true := by decide +kernel

/-! ### Memory (spec/05) -/

theorem test_load :
    let s := loc 0x40 [0x80, 0xFF, 1, 2, 3, 4, 5, 0x86] (live [(1, 0x38), (2, 2), (8, 0x3C)])
    reg (.ld 3 1 1 .d false) s 3 = 0x86050403_0201FF80 ∧ reg (.ld 3 1 4 .h false) s 3 = 0xFFFFFFFFFFFFFF80 ∧
    reg (.ldx 3 1 2 .wz false) s 3 = 0x0201FF80 ∧ reg (.ldl 3 1 8 .b false) s 3 = 0xFFFFFFFFFFFFFF80 ∧
    reg (.ldl 3 1 9 .w false) s 3 = 0x030201FF ∧ reg (.cLdw 1 0 2) s 9 = 0xFFFFFFFF86050403 := by decide +kernel

theorem test_store :
    let s := loc 0x40 [0x11, 0x22, 0x33, 0x44] (live [(1, 0x41), (2, 0xAABBCCDD), (8, 0x40)])
    (after (.st 2 1 0 .h false) s).lmem 0 0x40 4 = [0x11, 0xDD, 0xCC, 0x44] ∧
    (after (.stx 2 1 0 .b false) s).lmem 0 0x40 4 = [0x11, 0xDD, 0x33, 0x44] ∧
    (after (.stl 2 1 0xFFFFFFFF .d false) s).lmem 0 0x40 8 = [0xDD, 0xCC, 0xBB, 0xAA, 0, 0, 0, 0] ∧
    (after (.cStw 0 0 0) s).lmem 0 0x40 4 = [0x40, 0, 0, 0] := by decide +kernel

/-- Row 4 of local memory is poisoned. -/
def poisoned (s : State) : State := core0 (fun c => { c with mem := { c.mem with lpsn := [4] } }) s

/-- A store of the core is on its way to home: a release is not complete. -/
def storing (s : State) : State :=
  core0 (fun c => { c with req := { c.req with regs := [⟨7, 0, 0, 0x20000000, [], 1, false, []⟩] } }) s

theorem wit_LocalLoads :
    let s := live [(1, 0x5FF8)]
    s.stage = none ∧ Near s (s.rd 1) 8 ∧ s.lpoison 0 0x5FF8 8 = false ∧ (poisoned s).lpoison 0 0x4F 1 = true ∧ ¬ Near s 0x5FF9 8 ∧
    trapped (.ldl 2 0 0x4F .b false) (poisoned s) = (Cause.poison.code, 0x4F) := by decide +kernel

theorem wit_LocalStores :
    let s := live []
    s.stage = none ∧ s.lockstep 0 = false ∧ Memory.wf s.curCore.mem.lmem = true ∧ s.released 0 0 = true ∧
    (storing s).released 0 0 = false ∧ waits (.st 1 0 0 .d true) (storing s) = some .release ∧ Near s 0x5FFF 1 := by decide +kernel

theorem test_vector_transfers :
    let s := loc 0x40 ((List.range 64).map (BitVec.ofNat 8)) (live [(1, 0x40)])
    let t := after (.vld 2 1 0 true false) s
    t.rv 2 = 0x0F0E0D0C0B0A09080706050403020100 ∧ t.rv 3 = 0x1F1E1D1C1B1A19181716151413121110 ∧
    vec (.ldm 4 1 0 false) s 7 = 0x3F3E3D3C3B3A39383736353433323130 ∧
    (after (.vst 2 0 1 true false) { t with ctx := s.ctx }).lmem 0 0x11 3 = [0x10, 0x11, 0x12] ∧
    (after (.stm 0 0 0x80 false) (vset 3 7 s)).lmem 0 0xB0 2 = [7, 0] ∧ vec (.movm 8 4) (vset 7 9 s) 11 = 9 := by decide +kernel

theorem wit_LocalVectorTransfers :
    let s := live [(1, 0x5FC0)]
    s.stage = none ∧ s.lockstep 0 = false ∧ Memory.wf s.curCore.mem.lmem = true ∧ Near s (s.rd 1) 64 ∧ s.lpoison 0 0x5FC0 64 = false ∧
    s.released 0 0 = true := by decide +kernel

theorem test_amo_cas :
    let s := loc 0x40 [0xFF, 0xFF, 0xFF, 0xFF] (live [(1, 0x40), (2, 2), (3, 0xFFFFFFFF)])
    (after (.amo 4 1 2 .add false .plain) s).lmem 0 0x40 5 = [1, 0, 0, 0, 0] ∧ reg (.amo 4 1 2 .swap false .acq) s 4 = 0xFFFFFFFFFFFFFFFF ∧
    (after (.amo 4 1 2 .and true .ar) s).lmem 0 0x40 4 = [2, 0, 0, 0] ∧ (after (.cas 4 1 3 2 false .ar) s).lmem 0 0x40 4 = [2, 0, 0, 0] ∧
    (after (.cas 4 1 2 3 false .ar) s).lmem 0 0x40 1 = [0xFF] ∧ trapped (.amo 4 1 2 .or true .ar) (live [(1, 0x44)]) = (Cause.misalign.code, 0x44) := by
  decide +kernel

theorem wit_LocalAtomics :
    let s := live [(1, 0x5FF8), (2, 4)]
    s.stage = none ∧ (s.rd 2).toNat % 8 ≠ 0 ∧ (s.rd 2).toNat % 4 = 0 ∧ Near s (s.rd 1) 8 ∧ s.lpoison 0 0x5FF8 8 = false ∧
    s.lockstep 0 = false ∧ Memory.wf s.curCore.mem.lmem = true ∧ s.released 0 0 = true ∧
    leNat (s.lmem 0 0x5FF8 8) = (s.rd 0).toNat % 2 ^ 64 ∧ leNat (s.lmem 0 0x5FF8 8) ≠ (s.rd 2).toNat % 2 ^ 64 := by decide +kernel

theorem test_access_checks :
    let s := live []
    trapped (.ldl 1 0 0x6000 .b false) s = (Cause.loadFault.code, 0x6000) ∧
    trapped (.stl 1 0 0x5FFF .h false) s = (Cause.windowCross.code, 0x5FFF) ∧
    trapped (.stl 1 2 0 .h false) (live [(2, 0x100006000)]) = (Cause.storeFault.code, 0x100006000) ∧
    trapped (.ldl 1 2 0 .h false) (live [(2, 0x100200000)]) = (Cause.loadFault.code, 0x100200000) := by decide +kernel

theorem wit_AccessChecks :
    let s := live []
    (0x6000 ≤ 0x6000 ∧ 0xFFFFFFFF < 0x100000000) ∧ (0x100000000 + 102400 * 0x10000 ≤ 0xFFFFFFFFF) ∧
    (102399 < 102400 ∧ s.inPart 0 102399 = false ∧ s.inPart 0 0 = true ∧ 0x6000 ≤ 0xFFFF) ∧
    (0x5FF9 < s.localEnd 0 ∧ 0x6000 < 0x5FF9 + wsize .d) ∧ s.stage = none := by decide +kernel

theorem test_fence_waitw :
    let s := loc 0x40 [5, 0, 0, 0x80] (live [(1, 0x40), (2, 0xFFFFFFFF80000005), (3, 0x41)])
    waits .fence (storing s) = some .release ∧ (after .fence s).cur.pc = 0x104 ∧ reg (.waitw 4 1 2 .eq false false) s 4 = 0xFFFFFFFF80000005 ∧
    reg (.waitw 4 1 0 .ltS false true) s 4 = 0xFFFFFFFF80000005 ∧ (waits (.waitw 4 1 0 .ltU false false) s).isSome = true ∧
    trapped (.waitw 4 3 0 .eq false false) s = (Cause.misalign.code, 0x41) := by decide +kernel

/-- A bound parameter window of 0x20 bytes. -/
def window (a : Nat) : State := spec (fun p => { p with pwb := set8 p.pwb 3 ⟨BitVec.ofNat 51 (a / 16), true, 0x20⟩ }) (live [(1, 0x20)])

theorem test_pld :
    trapped (.pld 2 1 4 0 .w) (window 0) = (Cause.paramUnbound.code, 4) ∧
    ((after (.pld 2 1 3 0 .w) (window 0)).cur.run.pend.map fun a => (a.flags, a.ready, a.data)) = [(0x40, true, [0, 0, 0, 0])] ∧
    trapped (.pld 2 0 3 0x1C .w) (window 0x100) = (Cause.loadFault.code, 0x11C) := by decide +kernel

theorem wit_FencesWordsAndWindows :
    let s := loc 0x40 [5, 0, 0, 0x80] (live [(1, 0x40)])
    s.cur.loadsLanded = true ∧ s.released 0 0 = true ∧ (storing s).released 0 0 = false ∧ s.stage = none ∧ Near s 0x40 8 ∧
    s.lpoison 0 0x40 8 = false ∧ leNat (s.lmem 0 0x40 4) ≠ 0 ∧ (0x41 : Word).toNat % 4 ≠ 0 ∧
    (get8 (window 0).cur.sp.pwb 4).bound = false ∧ (get8 (window 0).cur.sp.pwb 3).bound = true ∧
    (get8 (window 0).cur.sp.pwb 3).size.toNat ≤ 0x20 ∧ 0x1F < (get8 (window 0).cur.sp.pwb 3).size.toNat ∧
    (get8 (window 0xFFFFFFFF0).cur.sp.pwb 3).base.toNat * 16 + 0xF < 0x1000000000 := by decide +kernel

/-- A pending load of 2 bytes into l3, tracked by tag 2. -/
def onItsWay (psn : Bool) : State :=
  run (fun r => { r with pend := [{ pending (.l 0 3) with poison := psn, flags := 3 }], tracks := [(2, 9), (3, 8)] }) (live [])

theorem test_result_lands :
    let t := after (.asyncResultLands 0 0 9) (onItsWay false)
    let p := after (.asyncResultLands 0 0 9) (onItsWay true)
    t.rd 19 = 0x180 ∧ t.cur.sp.fs = 3 ∧ t.cur.tags = 4 ∧ t.cur.run.pend = [] ∧ p.rd 19 = 0 ∧ p.cur.run.poisons = [(0x40, .s)] ∧
    p.cur.sp.fs = 0 := by decide +kernel

theorem wit_ResultsLand :
    let a := pending (.l 0 3)
    let b : Async := { a with bytes := [.miss 0] }
    (run (fun r => { r with pend := [a] }) (live [])).cur.run.pend.find? (fun x => x.id = a.id) = some a ∧ a.ready = true ∧ a.sync = false ∧
    b.ready = false ∧ a.poison = false ∧ { a with poison := true }.poison = true := by decide +kernel

/-! ### Floating point and lanes (spec/06) -/

/-- 1 + 2^-24 in each direction; 1 / 3; infinity from an overflow (R57, R59). -/
theorem test_float_arithmetic :
    let s := live [(1, 0x3F800000), (2, 0x33800000), (3, 0x40400000), (5, 0x7F7FFFFF)]
    reg (.fadd 4 1 2 .f32 .rne) s 4 = 0x3F800000 ∧ reg (.fadd 4 1 2 .f32 .rup) s 4 = 0x3F800001 ∧ flags (.fadd 4 1 2 .f32 .rne) s = 0x10 ∧
    reg (.fsub 4 1 3 .f32 .rne) s 4 = 0xC0000000 ∧ reg (.fdiv 4 1 3 .f32 .rne) s 4 = 0x3EAAAAAB ∧ reg (.fmul 4 5 3 .f32 .rne) s 4 = 0x7F800000 ∧
    reg (.fmul 4 5 3 .f32 .rz) s 4 = 0x7F7FFFFF ∧ flags (.fdiv 4 1 0 .f32 .rne) s = 0x02 ∧ reg (.fma 4 3 3 1 .f32 .rne) s 4 = 0x41200000 := by
  decide +kernel

theorem test_float_more :
    let s := live [(1, 0x4400), (2, 0x7E00), (3, 0xC400), (5, 0x40800000)]
    reg (.fsqrt 4 1 .f16 .rne) s 4 = 0x4000 ∧ reg (.fmin 4 1 3 .f16) s 4 = 0xC400 ∧ reg (.fmax 4 1 2 .f16) s 4 = 0x4400 ∧
    trapped (.fadd 4 1 2 .f16 .frm) (spec (fun p => { p with frm := 6 }) s) = (Cause.illegal.code, 0x12345678) ∧
    reg (.fcmp 4 3 1 .f16) s 4 = 0x46 ∧ reg (.fcmp 4 1 2 .f16) s 4 = 0x60 ∧ reg (.fsgn 4 1 3 .f16 .copy) s 4 = 0xC400 ∧
    reg (.fsgn 4 3 3 .f16 .xor) s 4 = 0x4400 := by decide +kernel

theorem wit_FloatArithmeticCompletes :
    let s := live []
    s.mode .rup = some .rup ∧ s.mode .frm = some .rne ∧ (spec (fun p => { p with frm := 5 }) s).mode .frm = none ∧ FType.f64 ≠ .f32 := by
  decide +kernel

theorem wit_FloatRoundingIsCorrect :
    fmtF16 ∈ [fmtF64, fmtF32, fmtF16, fmtBF16] ∧ (0x801 : Int) ≠ 0 ∧
    ((roundDy fmtF16 .rne ⟨0x801, 0⟩ false).2 &&& flagOF = 0 ∧ (roundDy fmtF16 .rdn ⟨-0x801, 0⟩ false).2 &&& flagOF = 0) ∧
    unpack fmtF16 (roundDy fmtF16 .rup ⟨0x801, 0⟩ false).1 = unpack fmtF16 0x6801 := by decide +kernel

theorem test_conversions :
    let s := live [(1, 0xC0200000), (2, 0x101), (3, 0x7F800000), (5, 0x3FC00000)]
    reg (.cvt 4 1 (.floatFloat .f32 .f64) .rne) s 4 = 0xC004000000000000 ∧ reg (.cvt 4 2 (.intFloat .i8 .f32) .rne) s 4 = 0x3F800000 ∧
    reg (.cvt 4 1 (.floatInt .f32 .i32 false) .rz) s 4 = 0xFFFFFFFFFFFFFFFE ∧ reg (.cvt 4 5 (.floatInt .f32 .n8 true) .rne) s 4 = 2 ∧
    reg (.cvt 4 3 (.floatInt .f32 .i16 true) .rz) s 4 = 0x7FFF := by decide +kernel

theorem test_sfu :
    let t := after (.sfu 4 1 .exp2 .f32 .rne) (live [(1, 0x40000000)])
    t.cur.run.pend.map (fun a => (a.dest, a.data)) = [([Dest.g 4], [0, 0, 0x80, 0x40, 0, 0, 0, 0])] ∧ t.cur.pc = 0x104 := by decide +kernel

theorem wit_ScalarConversions :
    floatRounds fmtF32 fmtF64 = false ∧ floatRounds fmtF64 fmtF32 = true ∧ intRounds 8 true fmtF32 = false ∧ intRounds 64 true fmtF32 = true ∧
    (spec (fun p => { p with frm := 7 }) (live [])).mode .frm = none := by decide +kernel

theorem test_lanes :
    let s := vset 2 0x00000001000000020000000380000000 (vset 1 0x7FFFFFFF00000005FFFFFFFF80000000 (live []))
    vec (.vadd 3 1 2 .i32 true .rne) s 3 = 0x7FFFFFFF000000070000000280000000 ∧ flags (.vadd 3 1 2 .i32 true .rne) s = 0x20 ∧
    vec (.vsub 3 1 2 .i32 false .rne) s 3 = 0x7FFFFFFE00000003FFFFFFFC00000000 ∧ vec (.vmul 3 1 2 .i32 false .rne) s 3 = 0x7FFFFFFF0000000AFFFFFFFD00000000 ∧
    vec (.vmin 3 1 2 .n32) s 3 = 0x00000001000000020000000380000000 ∧ vec (.vmax 3 1 2 .i32) s 3 = 0x7FFFFFFF000000050000000380000000 ∧
    vec (.vcmp 3 1 2 .i32 .lt) s 3 = 0x0000000000000000FFFFFFFF00000000 ∧ vec (.vshr 3 1 2 .i32) s 3 = 0x3FFFFFFF00000001FFFFFFFF80000000 ∧
    vec (.vshl 3 1 2 .i32) s 3 = 0xFFFFFFFE00000014FFFFFFF880000000 := by decide +kernel

theorem test_compact_lanes :
    let s := vset 2 0x00000001000000020000000380000000 (vset 1 0x7FFFFFFF00000005FFFFFFFF80000000 (live []))
    vec (.cVadd 1 2 .i32) s 1 = 0x80000000000000070000000200000000 ∧ vec (.cVsub 1 2 .i32) s 1 = 0x7FFFFFFE00000003FFFFFFFC00000000 ∧
    vec (.cVmul 1 2 .i32) s 1 = 0x7FFFFFFF0000000AFFFFFFFD00000000 ∧ vec (.cVmin 1 2 .i32) s 1 = 0x0000000100000002FFFFFFFF80000000 ∧
    vec (.cVmax 1 2 .i32) s 1 = 0x7FFFFFFF000000050000000380000000 ∧ vec (.cVceq 1 2 .i32) s 1 = 0xFFFFFFFF ∧
    vec (.cVclt 1 2 .i32) s 1 = 0x0000000000000000FFFFFFFF00000000 ∧ vec (.cVshl 1 2 .i32) s 1 = 0xFFFFFFFE00000014FFFFFFF880000000 ∧
    vec (.cVshr 1 2 .i32) s 1 = 0x3FFFFFFF00000001FFFFFFFF80000000 ∧ vec (.cVabs 1 1 .i32) s 1 = 0x7FFFFFFF000000050000000180000000 ∧
    vec (.cVneg 1 1 .i32) s 1 = 0x80000001FFFFFFFB0000000180000000 ∧ vec (.cVspl 1 2 .i32) s 1 = 0x80000000800000008000000080000000 := by
  decide +kernel

theorem wit_LaneArithmetic :
    EType.i32.isInt = true ∧ EType.f32.isInt = false ∧ (cType .i32).isInt = true ∧ (live []).mode .rne = some .rne ∧ 3 < 128 / EType.f32.bits := by
  decide +kernel

theorem wit_LaneElementArithmetic : EType.n8.isInt = true ∧ EType.i64.isInt = true ∧ (-128 : Int) < - 2 ^ 7 + 1 := by decide

theorem test_lane_moves :
    let s := vset 2 0x0F0E0D0C0B0A09080706050403020100 (vset 1 0x8110000000000000000000000000011F (live [(4, 0xABCD)]))
    vec (.vand 3 1 2 .f32) s 3 = 0x01000000000000000000000000000100 ∧ vec (.vor 3 0 2 .f32) s 3 = s.rv 2 ∧ vec (.vxor 3 2 2 .f32) s 3 = 0 ∧
    vec (.vsel 1 2 0 .f32) s 1 = 0x01000000000000000000000000000100 ∧ vec (.vshuf 2 2 1) s 2 = 0x0000000000000000000000000000010F ∧
    vec (.vsplat 3 4 .n8) s 3 = 0xCDCDCDCDCDCDCDCDCDCDCDCDCDCDCDCD ∧ vec (.vins 2 4 .n16 7) s 2 = 0xABCD0D0C0B0A09080706050403020100 ∧
    reg (.vext 4 1 .i8 15) s 4 = 0xFFFFFFFFFFFFFF81 ∧ reg (.vext 4 1 .n8 15) s 4 = 0x81 := by decide +kernel

theorem test_compact_moves :
    let s := vset 2 12 (vset 1 10 (live []))
    vec (.cVand 1 2 .f32) s 1 = 8 ∧ vec (.cVor 1 2 .f32) s 1 = 14 ∧ vec (.cVxor 1 2 .f32) s 1 = 6 ∧ vec (.cVmov 1 2 .f32) s 1 = 12 := by
  decide +kernel

theorem wit_LaneBitsAndMoves : (15 : BitVec 4).toNat < 128 / EType.i8.bits ∧ (1 : BitVec 4).toNat < 128 / EType.f64.bits := by decide

theorem test_dot_reduce :
    let s := vset 2 0x02020202020202020202020202020202 (vset 1 0x03030303030303030303030303030303 (live []))
    vec (.vdot 3 1 2 .i8 false .rne) s 3 = 0x00000018000000180000001800000018 ∧ vec (.vred 3 1 .i8 .sum false) s 3 = 0x30 ∧
    vec (.vcvt 3 1 .i16 .i8 0 false .rne) s 3 = 0x00030003000300030003000300030003 := by decide +kernel

/-- The worked FL4 block of spec/02 (R66-R68) and the R163 example of FLENC and FLDEC. -/
theorem test_floe_worked_block :
    let xs : List Nat := [0x40400000, 0xBFA00000, 0x3F000000, 0x3EC00000, 0x40300000, 0x40E00000, 0, 0x80000000,
      0x3DCCCCCD, 0xBE4CCCCD, 0x3F800000, 0x3F800000, 0x40D00000, 0x3E800000, 0xC0A00000, 0x3D000000]
    let bs : List Byte := [0x81, 0x21, 0xAC, 0x0A, 0x61, 0x1C, 0x80, 0x41, 0x22, 0xD4, 0x80, 0x06]
    floeEncode .fl4 xs = (bs, 0x18) ∧
    (floeDecode .fl4 fmtF32 .rne bs).map Prod.fst = [0x40400000, 0xBFA00000, 0x3F000000, 0x3F000000, 0x40400000, 0x40E00000, 0, 0x80000000,
      0x3E000000, 0xBE800000, 0x3F800000, 0x3F800000, 0x40D00000, 0, 0xC0A00000, 0] ∧
    decodeTableWord 64 0x000000090000470B = some (.flenc 4 0 .fl4 2) := by decide +kernel

/-- The examples of R60, R63, R65, R69 and R160. -/
theorem test_worked_conversions :
    let s := live [(1, 0x7FA01234), (2, 0x3F808000), (3, 0xC0FCCCCD), (4, 0x4396599A), (5, 0x7F800000), (6, 0x7FA00001), (7, 0x7FC00005)]
    reg (.cvt 16 1 (.floatFloat .f32 .f16) .rne) s 16 = 0x7F00 ∧ flags (.cvt 16 1 (.floatFloat .f32 .f16) .rne) s = 1 ∧
    reg (.cvt 16 2 (.floatFloat .f32 .bf16) .rne) s 16 = 0x3F80 ∧ reg (.cvt 16 2 (.floatFloat .f32 .bf16) .rup) s 16 = 0x3F81 ∧
    decodeTableWord 32 0x24A11701 = some (.cvt 17 16 (.floatInt .f32 .i32 false) .rz) ∧
    reg (.cvt 17 3 (.floatInt .f32 .i32 false) .rz) s 17 = 0xFFFFFFFFFFFFFFF9 ∧ flags (.cvt 17 3 (.floatInt .f32 .i32 false) .rz) s = 0x10 ∧
    reg (.cvt 17 4 (.floatInt .f32 .n8 false) .rne) s 17 = 45 ∧ flags (.cvt 17 4 (.floatInt .f32 .n8 false) .rne) s = 1 ∧
    reg (.fma 16 0 5 6 .f32 .rne) s 16 = 0x7FE00001 ∧ flags (.fma 16 0 5 6 .f32 .rne) s = 1 ∧
    reg (.fma 16 7 0 5 .f32 .rne) s 16 = 0x7FC00005 ∧ flags (.fma 16 7 0 5 .f32 .rne) s = 0 := by decide +kernel

theorem test_floe :
    let s := vset 0 0x3F8000003F8000003F8000003F800000 (live [])
    let t := after (.flenc 4 0 .fl7 0) s
    vec (.fldec 8 4 .fl7 0) { t with ctx := s.ctx } 8 = 0x3F8000003F8000003F8000003F800000 ∧
    ((after (.vsfu 3 0 .recip .f32) s).cur.run.pend.map Async.data) = [leBytes 16 0x3F8000003F8000003F8000003F800000] := by decide +kernel

theorem wit_LaneResultsAndFloes :
    (live []).mode .frm = some .rne ∧ ((0xFF : Byte).toNat = 255) ∧ ((254 : Byte).toNat ≠ 255) ∧ (List.replicate 16 0x7FC00000).length = 16 ∧
    (unpack fmtF32 0x7FC00000).isNaN = true ∧ eConvRounds .f64 .f32 = false := by decide +kernel

/-! ### Engines (spec/10, spec/11) -/

/-- Stream pointers s0 at 0x100, s1 at 0x200, s2 at 0x300, strides of 4 bytes. -/
def streams (s : State) : State :=
  s.onCur fun t => { t with regs := { t.regs with sp := #v[0x40100, 0x40200, 0x40300, 0x40400] } }

/-- The bytes of words. -/
def words (l : List Nat) : List Byte := l.flatMap (leBytes 4)

theorem test_stream_pointers :
    (after (.spset 2 1 4) (live [(1, 0xF123)])).ptr 2 = 0x47123 ∧ reg (.spget 3 1) (streams (live [])) 3 = 0x40200 ∧
    waits (.vsadd 0 1 2 1 .i32 false .rne) (core0 (fun c => { c with eng := { c.eng with vs := List.replicate 2 (base.cmd .mxwf 0 0 0 0 0 .rne) } })
      (streams (live [(1, 2)]))) = some .queue := by decide +kernel

/-- Issues one stream command over two elements (or one) and runs it: local memory at 0x100 afterwards. -/
def streamed (i : Instr) : List Byte :=
  let s := loc 0x200 (words [5, 0xFFFFFFFF]) (loc 0x300 (words [3, 4]) (loc 0x100 (words [1, 1]) (streams (live [(1, 2), (2, 2)]))))
  let t := after i s
  (after (.vstreamOpRun 0) { t with ctx := s.ctx }).lmem 0 0x100 8

theorem test_streams_integer :
    streamed (.vsadd 0 1 2 1 .i32 false .rne) = words [8, 3] ∧ streamed (.vssub 0 1 2 1 .i32 false .rne) = words [2, 0xFFFFFFFB] ∧
    streamed (.vsmul 0 1 2 1 .i32 false .rne) = words [15, 0xFFFFFFFC] ∧ streamed (.vsfma 0 1 2 1 .i32 false .rne) = words [16, 0xFFFFFFFD] ∧
    streamed (.vsmax 0 1 2 1 .i32) = words [5, 4] ∧ streamed (.vsmin 0 1 2 1 .n32) = words [3, 4] ∧
    streamed (.vsaxpy 0 1 2 1 2 .i32 false .rne) = words [13, 2] := by decide +kernel

theorem test_streams_moves :
    streamed (.vscopy 0 1 1 .i32) = words [5, 0xFFFFFFFF] ∧ streamed (.vsfill 0 1 2 .i32) = words [2, 2] ∧
    streamed (.vscvt 0 1 1 (.elem .f32) (.elem .i32) false .rne) = words [0x40A00000, 0xBF800000] := by decide +kernel

/-- 1, 2 at s1 and 1, 1 at s2. -/
def streamedF (i : Instr) : List Byte :=
  let s := loc 0x200 (words [0x3F800000, 0x40000000]) (loc 0x300 (words [0x3F800000, 0x3F800000]) (streams (live [(1, 2), (2, 0)])))
  let t := after i s
  (after (.vstreamOpRun 0) { t with ctx := s.ctx }).lmem 0 0x100 8

theorem test_streams_float :
    streamedF (.vsdot 0 1 2 1 .f32 .rne) = words [0x40400000, 0] ∧ streamedF (.vsred 0 1 1 .f32 .rne) = words [0x40400000, 0] := by
  decide +kernel

theorem wit_EngineCommandsIssue :
    let s := streams (live [(1, 0x100000000), (2, 0x5FD0)])
    let full := core0 (fun c => { c with eng := { c.eng with vs := List.replicate 2 (base.cmd .mxwf 0 0 0 0 0 .rne) } }) s
    2 ≤ (full.queue 0 .vs).length ∧ (s.queue 0 .vs).length < 2 ∧ s.rolesBad [⟨0, 4, 2⟩] = none ∧ (s.rolesBad [⟨0, 4, 0xFFFF⟩]).isSome = true ∧
    s.mode .frm = some .rne ∧ (spec (fun p => { p with frm := 5 }) s).mode .frm = none ∧ (s.queue 0 .mx).length < 2 ∧
    (core0 (fun c => { c with regs := { c.regs with mxen := true, mxmask := 1 } }) s).curCore.regs.mxmask.getLsbD 0 = true ∧
    s.curCore.regs.mxen = false ∧ (s.rd 2).toNat % 16 = 0 ∧ (s.rd 2).toNat + 48 ≤ s.localEnd 0 ∧ (s.rd 1 + 1).toNat % 16 ≠ 0 ∧
    s.mxCheck 0 .mxwf 0 0 0 0 = none ∧ s.copyBad 0 0x100 16 = none ∧ (s.copyBad 0 0x6000 16).isSome = true := by decide +kernel

theorem test_matrix_issue :
    let s := live [(1, 0x100), (2, 4), (3, 60), (5, 0x5F00), (6, 0x108)]
    let n (i : Instr) := ((after i s).queue 0 .mx).length
    n (.mxwl .fl7 1 0) = 1 ∧ n .mxwf = 1 ∧ n (.mxa .fl7 3 1 2 0 0 false) = 1 ∧ n (.mxd .f32 1 2 3 false) = 1 ∧ n (.mxz 3 2) = 1 ∧ n (.mxstat 4 1) = 1 ∧
    n (.mxz 2 3) = 1 ∧ n (.mxz 3 1) = 0 ∧ trapped (.mxrem 4 0 1) s = (Cause.engine.code, engTval .mx 5 0) := by decide +kernel

theorem test_mxrem :
    let s := core0 (fun c => { c with regs := { c.regs with mxen := true, mxmask := 1 } }) (live [(1, 0x100), (6, 0x108)])
    trapped (.mxrem 4 0 6) s = (Cause.engine.code, engTval .mx 2 0x108) ∧ ((after (.mxrem 4 0 1) s).curCore.eng.inbox.map MxMsg.core) = [0] := by
  decide +kernel

theorem test_copy_issue :
    let s := live [(1, 0x100), (2, 0x10), (3, 0x200), (5, 0x202), (6, 0x6000), (9, 0x200000010)]
    let n (i : Instr) := ((after i s).queue 0 .cp).length
    n (.cpy 3 1 2) = 1 ∧ n (.cpyn 3 1 2 3 9) = 1 ∧ n (.cpy2d 3 1 9 0) = 1 ∧ n (.cpyg 3 1 2 0 16) = 1 ∧ n (.cpye 3 1 2 2) = 1 ∧
    trapped (.cpyn 3 1 2 5 9) s = (Cause.engine.code, engTval .cp 7 0x202) ∧ (trapped (.cpy 6 1 2) s).1 = Cause.engine.code := by decide +kernel

/-- A copy of 4 bytes up by one byte within local memory, issued. -/
def copying : State :=
  let s := loc 0x100 [1, 2, 3, 4, 5] (live [(1, 0x100), (2, 4), (3, 0x101)])
  { after (.cpy 3 1 2) s with ctx := s.ctx }

theorem test_copy_run :
    (after (.copyOpRun 0) copying).lmem 0 0x100 6 = [1, 1, 2, 3, 4, 0] ∧
    ((after (.engineOpComplete 0 .cp) (after (.copyOpRun 0) copying)).queue 0 .cp).length = 0 := by decide +kernel

theorem test_matrix_run :
    let go (i : Instr) (s : State) : State := let t := after i s; after (.matrixOpRun 0) { t with ctx := s.ctx }
    let s := core0 (fun c => { c with eng := { c.eng with mat := { c.eng.mat with accPsn := 0xF } } }) (live [(1, 2), (2, 1)])
    ((go .mxwf s).core 0).eng.mat.active = true ∧ ((go (.mxz 2 1) s).core 0).eng.mat.accPsn = 0x9 ∧
    ((go (.mxstat 4 1) s).queue 0 .mx).map Cmd.x = [0xF] := by decide +kernel

/-- A remote MXWF has come to core 0. -/
def remote : State :=
  core0 (fun c => { c with
    regs := { c.regs with mxacc := true }
    eng := { c.eng with inbox := [⟨5, 1, 0, .s, leBytes 48 0, false, []⟩] } }) (live [])

theorem wit_EngineOperationsRun :
    let s := streams (live [(1, 2)])
    let v := after (.vsadd 0 1 2 1 .i32 false .rne) s
    let m := after (.mxz 0 1) s
    (v.headToRun 0 .vs).isSome = true ∧ (m.toRun 0 .mx).map Cmd.fail = some none ∧ (m.core 0).eng.mat.acc.length = 1024 ∧
    (copying.headToRun 0 .cp).map (fun c => (copying.copyReady 0 c, len32 c.b, c.d.toNat, c.a.toNat)) = some (true, 4, 0x101, 0x100) ∧
    copying.lockstep 0 = false ∧ Memory.wf (copying.core 0).mem.lmem = true ∧ (copying.core 0).mem.lpsn = [] ∧
    ((after (.copyOpRun 0) copying).queue 0 .cp).map (fun c => (c.ran, c.notifies.isNone, c.fail, c.flags)) = [(true, true, none, 0)] ∧
    (remote.core 0).eng.inbox.length = 1 ∧ remote.frozen 0 = false ∧ remote.remoteStatus 0 ⟨5, 1, 0, .s, leBytes 48 0, false, []⟩ ≠ 0 := by
  decide +kernel

/-! ### Fences, gangs, lockstep, lines (spec/10, spec/11) -/

/-- Cores 0 and 1 run the launch, thread 0 of each is live. -/
def duo (s : State) : State :=
  let s1 : State := { s with launches := s.launches.map fun l => { l with cores := [0, 1] } }
  s1.onCore 1 fun c => { c with launch := some 0, thr := set4 c.thr 0 frontThread }

/-- Core 0 leads a gang of slot 0 that core 1 is in. -/
def ganged (attached : Bool) (s : State) : State :=
  ((duo s).setSlot 0 0 (some ⟨0, true⟩)).setSlot 1 0 (some ⟨0, attached⟩)

/-- The same, executing on core 1. -/
def follower (attached : Bool) : State :=
  let s := ganged attached (live [])
  { s with ctx := { s.ctx with core := 1 } }

/-- A command in the vector queue. -/
def busy (s : State) : State :=
  core0 (fun c => { c with eng := { c.eng with vs := [{ base.cmd .mxwf 0 0 0 0 0 .rne with id := 9 }] } }) s

theorem test_qfence :
    waits (.qfence 3) (busy (live [])) = some (.engines [9]) ∧ (after (.qfence 6) (busy (live []))).cur.pc = 0x104 ∧
    trapped (.qfence 2) (reported (some 5)) = (Cause.engine.code, 5) ∧ flags (.qfence 2) (reported none) = 0x10 := by decide +kernel

theorem test_gang :
    let s := duo (live [(1, 2), (2, 4)])
    reg (.gang 3 1) s 3 = 0 ∧ (after (.gang 3 1) s).gangSlot 1 0 = some ⟨0, false⟩ ∧ (after (.gang 3 1) s).gangSlot 0 0 = some ⟨0, true⟩ ∧
    reg (.gang 3 2) s 3 = 1 ∧ (after (.gang 3 0) (ganged false (live []))).gangSlot 0 0 = none := by decide +kernel

theorem test_detach_rejoin :
    (after .detach (follower true)).gangSlot 1 0 = some ⟨0, false⟩ ∧ (after .rejoin (follower true)).cur.pc = 0x104 ∧
    waits .rejoin (follower false) = some .rejoin ∧ (after .detach (live [])).cur.pc = 0x104 ∧ (after .rejoin (live [])).cur.pc = 0x104 := by
  decide +kernel

/-- Core 0 is the primary of a lockstep pair. -/
def paired (s : State) : State := core0 (fun c => { c with lock := { c.lock with en := true } }) s

theorem test_chkpt :
    ((after .chkpt (paired (live [(1, 5)]))).core 0).lock.saved.length = 4 ∧ ((after .chkpt (live [])).core 0).lock.saved = [] ∧
    ((after (.lockstepCheckpoint 0) (paired (live []))).core 0).lock.saved.length = 4 := by decide +kernel

theorem test_lines :
    let s := core0 (fun c => { c with mem := { c.mem with l1i := [⟨0x20000000, [], 0⟩, ⟨5, [], 0⟩] } }) (mapped (live [(1, 0x1000000000)]))
    ((after (.iinv 1) s).core 0).mem.l1i.map ILine.num = [5] ∧ (after (.cwb 1) s).cur.pc = 0x104 ∧ (after (.cinv 1) s).cur.pc = 0x104 ∧
    trapped (.cinv 2) (live [(2, 0x6000)]) = (Cause.loadFault.code, 0x6000) := by decide +kernel

/-- One software-managed leaf. -/
def software (s : State) : State := { s with mem := { s.mem with cells := [(0, 0x3F)] } }

theorem wit_FencesGangsLockstepAndLines :
    let s := mapped (live [(1, 0x1000000000), (2, 2)])
    let held := core0 (fun c => { c with req := { c.req with holds := [⟨0, 0x20000000, 0x20000000, some 5, []⟩] } }) s
    (busy s).queued 0 1 ≠ [] ∧ s.queued 0 7 = [] ∧ ((reported (some 5)).failure fun x => names 2 x.eng).isSome = true ∧
    (s.failure fun x => names 2 x.eng).isNone = true ∧ (2 : BitVec 32) ≠ 0 ∧ (duo s).gangRefused 0 0 (gangNamed 0 2) = false ∧
    (duo s).gangRefused 0 0 (gangNamed 0 4) = true ∧ s.leads 0 0 = false ∧ (ganged true s).leads 0 0 = true ∧ s.gangSlot 0 0 = none ∧
    (follower true).gangSlot 1 0 = some ⟨0, true⟩ ∧ s.lockstep 0 = false ∧ (paired s).lockstep 0 = true ∧ (paired s).shadow 0 = false ∧ (paired s).leftCore 0 = [] ∧
    0x5FFF < s.localEnd 0 ∧ (s.checkCur .read 0x1000000000 1).2 = .ok [.glob 0x1000000000 true] ∧
    ((software s).checkCur .read 0x1000000000 1).2 = .ok [.glob 0x1000000000 false] ∧ (s.holder 0 0x20000000).isSome = false ∧
    (held.holder 0 0x20000000).isSome = true := by decide +kernel

/-! ### Pushes, holds, deques (spec/13) -/

/-- Core 0 holds lines. -/
def holding (l : List Hold) (s : State) : State := core0 (fun c => { c with req := { c.req with holds := l } }) s

/-- The deque of core 0. -/
def tasks (l : List Word) (s : State) : State := core0 (fun c => { c with deque := l }) s

theorem test_stp_pushl :
    let s := live [(1, 0x100), (2, 0x55)]
    let t := after (.stp 2 1 0 0 .b false) s
    t.lmem 0 0x100 1 = [0x55] ∧ t.cur.sp.pref = 1 ∧ t.cur.sp.pcause = 4 ∧ (after (.pushl 1 0) s).cur.sp.pref = 1 := by decide +kernel

theorem test_hold :
    let s := live [(1, 0x100), (2, 0x1000000000)]
    let h : Hold := ⟨0, 0x20000000, 0x20000000, some 5, []⟩
    reg (.hold 3 1 0 false) s 3 = 5 ∧ reg (.hold 3 2 0 false) (holding [h] (mapped s)) 3 = 2 ∧
    reg (.hold 3 2 0 false) (holding [{ h with thr := 1 }] (mapped s)) 3 = 3 ∧
    trapped (.hold 3 1 0 false) (holding [h, h] s) = (Cause.lease.code, 0x100) := by decide +kernel

theorem test_unhold :
    let s := live [(2, 0x1000000000)]
    let h : Hold := ⟨0, 0x20000000, 0x20000000, some 5, []⟩
    reg (.unhold 3 2 false) (holding [h] s) 3 = 0 ∧ reg (.unhold 3 2 false) s 3 = 2 ∧
    reg (.unhold 3 2 false) (run (fun r => { r with endings := [0x20000000] }) s) 3 = 1 ∧
    ((after (.holdTimerExpiry 0 0 0x20000000) (holding [{ h with dur := some 0 }] s)).cur.run.endings) = [0x20000000] := by decide +kernel

theorem test_deque :
    let s := live [(1, 7)]
    ((after (.dqpush 3 1) (tasks [9] s)).core 0).deque = [7, 9] ∧ reg (.dqpush 3 0) s 3 = 2 ∧
    reg (.dqpush 3 1) (tasks (List.replicate 64 1) s) 3 = 1 ∧ reg (.dqpop 3 false) (tasks [8, 9] s) 3 = 8 ∧
    waits (.dqpop 3 false) (duo s) = some (.steal [1] true) := by decide +kernel

/-- A request of core 0's steal is on its way to core 1, which has these tasks. -/
def stealing (l : List Word) : State :=
  let s := (duo (run (fun r => { r with wait := some (.steal [1] true) }) (live []))).onCore 1 fun c => { c with deque := l }
  core0 (fun c => { c with regs := { c.regs with dom := { c.regs.dom with level := 0 } } }) s

theorem test_steal :
    let t := after (.stealRequest 0 0) (stealing [5, 6])
    (t.core 1).deque = [5] ∧ (t.thread 0 0).run.wait = some (.deqGot 6) ∧
    ((after (.stealRequest 0 0) (stealing [])).thread 0 0).run.wait = some (.deqGot 0) ∧
    ((after (.stealRequest 0 0) (run (fun r => { r with wait := some (.steal [1, 40] true) }) (stealing []))).thread 0 0).run.wait =
      some (.steal [40] false) := by decide +kernel

theorem wit_PushStoresHoldsAndDeques :
    let s := mapped (live [(1, 0x1000000000), (2, 5)])
    let h : Hold := ⟨0, 0x20000000, 0x20000000, some 5, []⟩
    let full : State := { s with mem := { s.mem with pushes := List.replicate 16 ⟨1, 1, 1, 0, 0, 0, 1, [], none⟩ } }
    s.pushFits 0 0x100 1 = true ∧ full.pushFits 2 0x1000000000 1 = false ∧ (s.checkCur .write 0x1000000000 1).2 = .ok [.glob 0x1000000000 true] ∧
    s.released 0 0 = true ∧ (storing s).released 0 0 = false ∧ s.roomFor 0 [.glob 0x1000000000 true] = true ∧ Near s 0x5FFF 1 ∧
    (duo s).pushDests 0 2 = some [1] ∧ (run (fun r => { r with wait := some (.held 4 0 5) }) s).stage = some (.held 4 0 5) ∧
    ((s.sharers 0).any fun k => (s.outRegs k).any fun r => r.id = 4) = false ∧
    2 ≤ (((holding [h, h] s).core 0).req.holds.filter fun h => h.thr = (0 : BitVec 2).toNat).length ∧
    ((s.core 0).req.holds.filter fun h => h.thr = (0 : BitVec 2).toNat).length < 2 ∧ (s.core 0).req.holds.length + (s.holdsComing 0 0).length < 4 ∧
    (((holding [h] s).core 0).req.holds.find? fun h => h.line = lineOf 0x1000000000).isSome = true ∧ s.cur.run.endings.contains 0 = false ∧
    (s.rd 0 = 0 ∧ s.rd 2 ≠ 0) ∧ 64 ≤ (tasks (List.replicate 64 1) s).curCore.deque.length ∧ s.curCore.deque.length < 64 ∧
    (run (fun r => { r with wait := some (.deqGot 3) }) s).stage = some (.deqGot 3) ∧
    (run (fun r => { r with wait := some (.steal [1] false) }) s).stage = some (.steal [1] false) ∧
    (stealRun 0 [1]).find? (fun j => !((stealing [5, 6]).core j).deque.isEmpty) = some 1 ∧
    (stealRun 0 [1]).find? (fun j => !((stealing []).core j).deque.isEmpty) = none ∧ (stealing [5, 6]).mayGain 0 = true ∧
    s.cur.awaitsAny [.glob 0x1000000000 true] = false ∧
    (run (fun r => { r with endings := [0] }) s).cur.run.endings.contains 0 = true := by decide +kernel

/-! ### Home and coherence (spec/15) -/

/-- A request in the queue of line 0x20000000 (physical 0x10_0000_0000), from core 0. -/
def request (op : HomeOp) : HomeReq := ⟨7, 0, 0, 0, 0x20000000, op, [], 0⟩

/-- Home has one request. -/
def asked (op : HomeOp) (s : State) : State := { s with mem := { s.mem with homeq := [request op] } }

/-- A registration of word 1 by core 0, a store of 4 bytes. -/
def registering : HomeOp := .reg [(0x1000000004, 1), (0x1000000005, 2), (0x1000000006, 3), (0x1000000007, 4)] 2

theorem test_registration :
    let u := after (.registration 7) (asked registering (live []))
    u.homeBytes 0x1000000000 8 = [0, 0, 0, 0, 1, 2, 3, 4] ∧ (u.dirOf 0x20000000).owner 1 = some 0 ∧ (u.dirOf 0x20000000).owner 0 = none ∧
    u.mem.replies.map RegReply.id = [7] ∧ u.mem.homeq = [] := by decide +kernel

theorem test_home_atomic :
    let s := { live [] with mem := { (live []).mem with cells := [(0x1000000000, 0xFF)] } }
    (after (.homeAtomic 0x20000000) (asked (.atomic 3 0x1000000000 4 (.amo .add 2)) s)).homeBytes 0x1000000000 3 = [1, 1, 0] ∧
    (after (.homeAtomic 0x20000000) (asked (.atomic 3 0x1000000000 4 (.cas 0xFE 2)) s)).homeBytes 0x1000000000 2 = [0xFF, 0] ∧
    (after (.registration 7) (asked (.write [(0x1000000001, 5)]) s)).homeBytes 0x1000000000 2 = [0xFF, 5] ∧
    ((after (.readMiss 0x20000000) (asked (.read .l1 false) s)).line? 0 0x20000000).map (fun l => (get32 l.words 0).val) = some 0xFF := by
  decide +kernel

/-- A message from home to core 0 about the line. -/
def message (k : ProbeKind) (s : State) : State :=
  { s with mem := { s.mem with dir := [(0x20000000, DirEntry.fresh.record false 0 2)], probes := [⟨4, k, 0, 0x20000000, 2, 7, false⟩] } }

/-- Core 0 owns word 1 of the line, value 5, and has another valid word. -/
def owning (s : State) : State :=
  core0 (fun c => { c with mem := { c.mem with l1 := [⟨0x20000000, false, 0, false, true, 0, set32 (Vector.replicate 32 ⟨.v, 1, 0, false⟩) 1 ⟨.o, 5, 3, false⟩⟩] } }) s

theorem test_messages :
    let st (i : Instr) (k : ProbeKind) := ((after i (message k (owning (live [])))).line? 0 0x20000000).map fun l => ((get32 l.words 1).st, (get32 l.words 0).st)
    (st (.revoke 4) .rev) = some (.i, .v) ∧ (after (.revoke 4) (message .rev (owning (live [])))).homeBytes 0x1000000004 1 = [5] ∧ (st (.forward 4) .fwd).map Prod.fst = some .o ∧
    (after (.pushInvalidation 4) (message .inv (owning (live [])))).mem.probes = [] ∧
    ((after (.revoke 4) (message .rev (holding [⟨0, 0x20000000, 0x20000000, some 5, []⟩] (owning (live []))))).core 0).req.holds.map Hold.queue = [[4]] := by
  decide +kernel

/-- The reply to a registration of word 1 is on its way. -/
def replied : State :=
  let s := owning (storing (live []))
  { s with mem := { s.mem with replies := [⟨7, 0, 0x20000000, [(1, 9, false)], 2⟩] } }

theorem test_reply : (after (.registrationReply 7) replied).mem.replies = [] ∧ ((after (.registrationReply 7) replied).core 0).req.regs = [] := by
  decide +kernel

/-- A pushed copy from core 1 on its way to core 0. -/
def pushed (o : Option Nat) (s : State) : State :=
  { s with mem := { s.mem with pushes := [⟨6, 5, 1, 0, 0, 0x20000000, 0, List.replicate 32 (3, false), o⟩] } }

theorem test_pushes :
    ((after (.pushArrival 6) (pushed none (live []))).line? 0 0x20000000).map (fun l => (l.push, (get32 l.words 0).val)) = some (true, 3) ∧
    (after (.pushOutcome 6) (pushed (some 0) (live []))).cur.sp.pacc = 1 ∧ (after (.pushOutcome 6) (pushed (some 3) (live []))).cur.sp.pcause = 3 ∧
    ((after (.pushArrival 6) (pushed none (core0 (fun c => { c with regs := { c.regs with lquota := 0 } }) (live [])))).mem.pushes.map PushMsg.outcome) =
      [some 1] := by decide +kernel

/-- L1I waits for a line; a translation is in the micro-TLB. -/
def filling (s : State) : State :=
  core0 (fun c => { c with mem := { c.mem with fills := [0x20000000], tlb := [⟨1, 0, 0, 1, 0, 0⟩] } }) { s with mem := { s.mem with cells := [(0x1000000001, 9)] } }

theorem test_l1i_tlb :
    ((after (.l1iFill 0 0x20000000) (filling (live []))).core 0).mem.l1i.map (fun l => l.bytes.take 3) = [[0, 9, 0]] ∧
    ((after (.tlbEntryLeave 0 false 0) (filling (live []))).core 0).mem.tlb = [] := by decide +kernel

theorem wit_HomeAndCoreMessages :
    let s := live []
    let at' (op : HomeOp) := asked op s
    let r := registering
    let set (op : HomeOp) : Bool := (at' op).atHead (request op) && (at' op).needs (request op) == 0 && !(at' op).copyAhead (request op)
      && !(at' op).heldSince (request op)
    set r = true ∧ set (.write []) = true ∧ set (.read .l1 false) = true ∧ set (.atomic 3 0x1000000000 4 (.amo .add 2)) = true ∧
    (s.dirOf 0x20000000).slotFor (BitVec.ofNat 18 0) ≠ none ∧
    Memory.wf s.mem.cells = true ∧ s.line? 0 0x20000000 = none ∧ s.homePsn 0x20000000 31 = false ∧
    (atomicWrite (.amo .add 2) 4 0).isSome = true ∧ (message .fwd s).probeDue ⟨4, .fwd, 0, 0x20000000, 2, 7, false⟩ = true ∧
    (message .inv s).holder 0 0x20000000 = none ∧ replied.replyDue ⟨7, 0, 0x20000000, [(1, 9, false)], 2⟩ = true ∧
    (s.core 0).regs.lquota.toNat ≤ (List.replicate 16 ()).length ∧ (filling s).homeFree 0x20000000 0xFFFFFFFF = true ∧
    (filling s).core 0 ≠ s.core 0 := by decide +kernel

/-! ### Supersteps (spec/16) -/

theorem test_exch :
    let s := live [(1, 0x100), (2, 16), (3, 0x108), (5, 0x5FF8)]
    let me := s.identity 0
    let at' (x : Reg) := s.wr x (BitVec.ofNat 64 me)
    (after (.exch 4 1 2 0x200 false) (at' 4)).curCore.sup.plan = [⟨me, 0x100, 0x200, 16⟩] ∧
    trapped (.exch 4 3 2 0x200 false) s = (Cause.exchange.code, exchTval 6 me) ∧
    trapped (.exch 4 1 2 0x6000 false) s = (Cause.exchange.code, exchTval 1 0) ∧
    trapped (.exch 4 1 2 0x200 false) (s.wr 4 0x7FFFFF) = (Cause.exchange.code, exchTval 2 0x7FFFFF) ∧
    (after (.exch 4 1 2 0x200 true) (after (.exch 4 1 2 0x200 false) (at' 4))).curCore.sup.plan = [] := by decide +kernel

theorem test_sync :
    let s := live []
    (waits .sync s).isSome = true ∧ (after .sync s).curCore.sup.arrived = true ∧
    (after .sync (run (fun r => { r with wait := some (.synced 0 0) }) s)).cur.pc = 0x104 ∧
    trapped .sync (core0 (fun c => { c with sup := { c.sup with plan := List.replicate 2 ⟨0, 0, 0, 8192⟩ } }) s) =
      (Cause.exchange.code, exchTval 4 (s.identity 0)) := by decide +kernel

theorem test_redv :
    let t := after (.redv 3 1 2 .sum .i64 false) (live [(1, 0x100)])
    ((t.bar (t.domKey 0)).red.map Contrib.val == [0x100]) = true ∧ t.cur.pc = 0x104 := by decide +kernel

theorem test_domset_domget :
    let s := live [(1, 0x100), (2, 0x500)]
    reg (.domset 3 1) s 3 = 0 ∧ (after (.domset 3 1) s).curCore.regs.dom.plevel = 1 ∧ reg (.domset 3 2) s 3 = 1 ∧
    reg (.domset 3 1) (after (.domset 3 1) s) 3 = 3 ∧ reg (.domget 3 1) s 3 = 1 ∧ reg (.domget 3 2) s 3 = 0 := by decide +kernel

theorem test_freeze_stop :
    let s := live []
    reg (.freeze 3) (s.wr 3 9) 3 = 0 ∧ reg (.freeze 3) (after (.freeze 3) s) 3 = 1 ∧ (trapped (.freeze 3) (user s)).1 = Cause.priv.code ∧
    (after .stop s).cur.run.life = .stopped ∧ waits .stop tracked = some (.tags 4) ∧ waits .stop (storing s) = some .ending := by decide +kernel

theorem wit_SuperstepInstructions :
    let s := live [(4, BitVec.ofNat 64 (base.identity 0))]
    (run (fun r => { r with wait := some (.synced 0 0) }) s).stage = some (.synced 0 0) ∧ s.stage = none ∧ s.cur.run.arrived = none ∧ s.cur.loadsLanded = true ∧
    s.released 0 0 = true ∧ s.curCore.activeThreads = [0] ∧ s.enginesIdle 0 = true ∧ s.curCore.sup.arrived = false ∧
    planBytes [⟨0, 0, 0, 8192⟩] ≤ 8192 ∧ 8192 < planBytes [⟨0, 0, 0, 8192⟩, ⟨0, 0, 0, 16⟩] ∧
    (s.localEnd 0 < 0x5FF0 + 32 ∧ ¬ s.localEnd 0 < 0x5FF0 + 16) ∧ s.namesMember (s.domKey 0) 0x7FFFFF = false ∧
    s.namesMember (s.domKey 0) (base.identity 0) = true ∧ s.curCore.sup.plan.length < 32 ∧ s.curCore.regs.dom.pend = false ∧
    (after (.domset 3 0) s).curCore.regs.dom.pend = true ∧ s.entryCovers 255 0 = false ∧ (s.domKey 0).level ≠ 3 ∧ s.level = .s ∧
    (s.bar (s.domKey 0)).freeze = false ∧ ((after (.freeze 3) s).bar (s.domKey 0)).freeze = true ∧ tracked.cur.stopTags ≠ 0 ∧
    s.cur.stopTags = 0 ∧ (busy s).threadCmds 0 0 ≠ [] ∧ s.threadCmds 0 0 = [] ∧ (s.failure (fun _ => true)).isNone = true ∧
    (s.mergeFlags fun _ => true).stopBad 0 = none ∧ ((s.mergeFlags fun _ => true).released 0 0 = true) ∧
    ((storing s).mergeFlags fun _ => true).released 0 0 = false ∧
    (run (fun r => { r with wait := some .ending }) s).stage = some .ending ∧ (run (fun r => { r with wait := some .ending }) (storing s)).released 0 0 = false ∧
    ((core0 (fun c => { c with sup := { c.sup with plan := List.replicate 2 ⟨0, 0, 0, 8192⟩ } }) s).mergeFlags fun _ => true).stopBad 0 ≠ none := by
  decide +kernel

/-- Core 0 has arrived, alone in its domain. -/
def arrived : State := after .sync (live [])

theorem test_barrier :
    let t := after (.barrierComplete 0) arrived
    let u := after (.exchangePhaseEnd 0 ⟨[], []⟩) t
    (t.bar (t.domKey 0)).phase = true ∧ (u.core 0).regs.sstep = 1 ∧ (u.core 0).sup.arrived = false ∧ (u.thread 0 0).run.wait = some (.synced (t.domKey 0).level (t.domKey 0).unit) := by
  decide +kernel

/-- An exchange phase in which core 0 sends itself one row. -/
def exchanging : State :=
  let s := live []
  { s with bars := [{ s.bar (s.domKey 0) with key := s.domKey 0, phase := true, members := [0], xfers := [⟨0, 0, 0x200, [(List.replicate 16 7, false)]⟩] }] }

theorem test_exchange : (after (.exchangePhaseEnd 0 ⟨[], []⟩) exchanging).lmem 0 0x1FF 3 = [0, 7, 7] := by decide +kernel

theorem wit_BarriersAndExchange :
    let s := live []
    s.barrierReady (s.domKey 0) = false ∧ arrived.barrierReady (arrived.domKey 0) = true ∧ arrived.failing (arrived.domKey 0) = [] ∧
    (s.bar (s.domKey 0)).phase = false ∧ (exchanging.bar (exchanging.domKey 0)).phase = true ∧ (exchanging.bar (exchanging.domKey 0)).members.Nodup ∧
    (exchanging.bar (exchanging.domKey 0)).xfers.map (fun x => (x.rows.length, x.dst, x.t)) = [(1, 0, 0x200)] ∧ exchanging.lockstep 0 = false ∧
    Memory.wf (exchanging.core 0).mem.lmem = true ∧ RedOp.sum ≠ .max := by decide +kernel

/-! ### Sequences (spec/17, spec/19) -/

/-- A slab of 2^4 slots of 128 bytes: one head of 16 elements. -/
def slabAt (b : Word) : Slab := ⟨b, 0, 0, 0, 0, 128, 4, false, false, 0, 1, 16, 0, false, 0⟩

/-- Sequence 5: 3 positions in slots 0, 2, 3 of 4, two layers, blocks of 2, settled at generation 7. -/
def seq5 : Seq where
  handle := 5
  part := 1
  base := 0x100
  hdr := ⟨1, 2, 0, false, 0x3F800000, 0x1010000000, 0x1020000000, 0x1030000000, 0x1040000000, 0, 0, 0, 0xFFFFFFFF⟩
  len := 3
  edit := 7
  settled := 7
  hw := 4
  shw := 4
  tombs := 1
  key := 0
  ctr := 9
  tapped := false
  halted := false
  faulted := false
  order := [0, 2, 3]
  slots := [⟨10, true, 0⟩, ⟨11, false, 0⟩, ⟨12, true, 1⟩, ⟨13, true, 2⟩]
  slabs := [slabAt 0x1050000000, slabAt 0x1050010000]
  map := []
  inject := []
  shown := 5

/-- Sequences are enabled, records at 0x10_0000_0000; one coherent leaf maps everything; `q` is open. -/
def withSeq (q : Seq) (rs : List (Reg × Word)) : State :=
  let s := mapped (live rs)
  { s with parts := s.parts.map (fun p => { p with seqen := true, seqbase := 0x100 }), seqs := [q] }

/-- The sequence afterwards. -/
def seqAfter (i : Instr) (s : State) : Option Seq := (after i s).seqOf 1 5

/-- rd of a refusal (R333). -/
def refusedWith (c : Nat) : Word := BitVec.ofNat 64 (2 ^ 63 + c)

theorem test_cxins :
    let s := withSeq seq5 [(1, 5), (2, 0x2000001), (3, 0x1060000000)]
    reg (.cxins 4 1 2 3) s 4 = 8 ∧ (seqAfter (.cxins 4 1 2 3) s).map (fun q => (q.order, q.len, q.hw, q.edit)) = some ([0, 4, 5, 2, 3], 5, 6, 8) ∧
    reg (.cxins 4 1 0 3) s 4 = refusedWith 2 := by decide +kernel

theorem test_cxrep_cxdel :
    let s := withSeq seq5 [(1, 5), (2, 0x1000001), (3, 0x1060000000), (5, 0x3000000)]
    reg (.cxrep 4 1 2 3) s 4 = 8 ∧ (seqAfter (.cxrep 4 1 2 3) s).map (fun q => (q.order, (q.slot 2).token)) = some ([0, 2, 3], 0) ∧
    reg (.cxdel 4 1 5) s 4 = 8 ∧ (seqAfter (.cxdel 4 1 5) s).map (fun q => (q.order, q.len, q.tombs)) = some ([], 0, 4) ∧
    reg (.cxdel 4 1 2) { s with seqs := [{ seq5 with slabs := [{ slabAt 0 with lends := 1 }] }] } 4 = refusedWith 5 := by decide +kernel

theorem test_cxlen :
    let s := withSeq seq5 [(1, 5), (2, 2), (3, 0x1060000000), (5, 65)]
    reg (.cxlen 4 1 2 3) s 4 = 5 ∧ (seqAfter (.cxlen 4 1 2 3) s).map (fun q => (q.order, q.hw, q.shw, q.ctr)) = some ([0, 2, 3, 4, 5], 6, 6, 11) ∧
    reg (.cxlen 4 1 5 3) s 4 = refusedWith 2 ∧ reg (.cxlen 4 1 2 3) { s with seqs := [{ seq5 with tapped := true }] } 4 = refusedWith 8 := by
  decide +kernel

/-- Entry (0, 1) is in flight. -/
def inFlight : Seq := { seq5 with map := [⟨0, 1, some .f, false, true, 0⟩] }

theorem test_cxcommit :
    let s := withSeq inFlight [(1, 0x10100005), (2, 0), (3, 0)]
    let t := withSeq { seq5 with map := [⟨0, 1, some .d, false, true, 0⟩] } [(1, 0x10000005), (2, 0), (3, 0)]
    reg (.cxcommit 4 1 2 3) s 4 = 2 ∧ reg (.cxcommit 4 1 2 3) t 4 = 1 ∧
    reg (.cxcommit 4 1 2 3) (withSeq inFlight [(1, 0x10000005)]) 4 = 0 ∧
    (seqAfter (.cxcommit 4 1 2 3) (withSeq inFlight [(1, 0x10000005)])).map Seq.allV = some true ∧
    (seqAfter (.cxcommit 4 1 2 3) (withSeq inFlight [(1, 0x10000005), (2, 0x40000000)])).map (fun q => q.map.map fun e => (e.layer, e.blk)) =
      some [(1, 1)] := by decide +kernel

theorem test_cxsettle_cxwaitb_cxstate :
    let s := withSeq seq5 [(1, 5), (2, 1), (3, 0), (5, 6)]
    let f := withSeq inFlight [(1, 5), (2, 0), (3, 1)]
    reg (.cxsettle 4 1) s 4 = 7 ∧ waits (.cxsettle 4 1) f = some (.settle 5) ∧ reg (.cxsettle 4 5) s 4 = refusedWith 1 ∧
    reg (.cxwaitb 4 1 2 3) s 4 = 0 ∧ waits (.cxwaitb 4 1 2 3) f = some (.block 5 0 1) ∧ reg (.cxwaitb 4 1 5 3) s 4 = refusedWith 2 ∧
    reg (.cxstate 4 1 0) s 4 = 0x0007000702010005 ∧ reg (.cxstate 4 1 1) f 4 = 0x100000000 ∧
    trapped (.cxstate 4 1 2) (user s) = (Cause.priv.code, 0x12345678) := by decide +kernel

theorem test_cxclose_cxfork :
    let s := withSeq seq5 [(1, 5), (2, 6), (3, 0x1070000000)]
    reg (.cxclose 4 1) s 4 = 0 ∧ (seqAfter (.cxclose 4 1) s).isNone = true ∧ reg (.cxclose 4 1) (withSeq inFlight [(1, 5)]) 4 = refusedWith 12 ∧
    reg (.cxfork 4 1 1 3 false) s 4 = refusedWith 13 ∧ reg (.cxfork 4 1 2 3 false) (withSeq inFlight [(1, 5), (2, 6)]) 4 = refusedWith 7 ∧
    reg (.cxclose 4 2) s 4 = refusedWith 1 ∧ reg (.cxopen 4 1 3) s 4 = refusedWith 13 ∧ reg (.cxopen 4 2 3) s 4 = refusedWith 11 := by
  decide +kernel

/-- A template of an empty sequence at 0x10_6000_0000: one layer, blocks of 2, one slab (spec/17 R322, R326). -/
def template : State :=
  let s := withSeq seq5 [(1, 6), (2, 0x1060000000), (3, 5)]
  let t : List Byte := [0, 0, 1, 1] ++ leBytes 8 0 ++ leBytes 4 0x3F800000 ++ leBytes 8 0x1011000000 ++ leBytes 8 0x1021000000 ++
    leBytes 8 0x1031000000 ++ leBytes 24 0 ++ leBytes 8 0x1041000000 ++ leBytes 24 0
  let cells := cellsWrite (cellsWrite s.mem.cells 0x1060000000 t) 0x1031000000 ((slabAt 0x1051000000).bytes ++ (slabAt 0x1051010000).bytes)
  { s with mem := { s.mem with cells := cells } }

theorem test_cxopen :
    let t := after (.cxopen 4 1 2) template
    (t.rd 4 == 0) = true ∧ ((t.seqOf 1 6).map fun q => (q.len, q.hdr.layers, q.hdr.child, q.hdr.parent)) = some (0, 1, false, 0xFFFFFFFF) := by
  decide +kernel

theorem test_cxfork : reg (.cxfork 4 3 1 2 false) template 4 = 0 ∧
    ((after (.cxfork 4 3 1 2 false) template).seqOf 1 6).map (fun q => (q.order, q.hdr.child, (q.slab 1).shared)) = some ([0, 2, 3], true, true) := by
  decide +kernel

theorem wit_SequenceRequests :
    let s := withSeq seq5 [(1, 5), (2, 0x1060000000), (3, 6)]
    (storing s).released 0 0 = false ∧ s.released 0 0 = true ∧ (live []).seqPart = none ∧ s.seqPart.isSome = true ∧ (s.seqOf 1 6).isNone = true ∧
    (s.seqOf 1 5).isSome = true ∧ (s.sees 1 [(0x1000000600, 256), (0x1060000000, 96)]).2 = true ∧ s.mapped 1 .write 0x1000000500 256 = true ∧
    (live []).mapped 1 .write 0x1000000500 256 = false ∧ 0 < inFlight.outstanding ∧ seq5.outstanding = 0 ∧
    (∃ x ∈ [{ slabAt 0 with lends := 1 }], x.lends ≠ 0) ∧ (seq5.slabs.all fun x => x.lends = 0) = true ∧ s.seqBusy 1 5 = false ∧
    { s with relocs := [⟨0, 1, 5, 0, none, false, 0⟩] }.seqBusy 1 5 = true ∧ (inFlight.ent 0 1).out = true ∧ (inFlight.ent 0 1).st = some .f ∧
    (inFlight.ent 0 0).out = false ∧ inFlight.allV = false ∧ seq5.allV = true ∧ (∃ x ∈ [{ slabAt 0 with moving := true }], x.moving = true) ∧
    s.stage = none ∧ (inFlight.hdr.layers ≤ 2 ∧ 1 < inFlight.hdr.layers ∧ 2 ^ 23 - 1 < 2 ^ (24 - inFlight.hdr.bs)) ∧
    (run (fun r => { r with wait := some (.granted 5) }) s).stage = some (.granted 5) ∧ s.level = .s ∧ (user s).level = .u ∧
    (2 : BitVec 2) ≠ 1 ∧ inFlight.map.length < 2 ^ 32 ∧ seq5.halted = false ∧ { seq5 with halted := true }.halted = true := by decide +kernel

theorem wit_SequenceRequests_opened :
    let s := template
    let p := s.parts.head?
    (p.map fun p => (match s.openHead p 6 0x1060000000 with
      | .ok q => (s.sees 1 q.openRanges).2 && (match s.openSeq q with | .ok _ => true | .error _ => false)
      | _ => false)) = some true ∧
    (p.map fun p => (match s.openHead p 6 0x1020000000 with
      | .ok q => (match s.openSeq q with | .ok _ => true | .error _ => false)
      | .error _ => true | .poison _ => true)) = some false ∧
    (p.map fun p => (match s.openHead p 5 0x1060000000 with | .ok _ => true | _ => false)) = some false ∧
    (p.map fun p => (match s.forkSeq p seq5 6 0x1060000000 false with | .ok _ => true | _ => false)) = some true ∧
    (p.map fun p => (match s.forkSeq p seq5 6 0x1020000000 false with | .ok _ => true | _ => false)) = some false := by decide +kernel

theorem wit_SequenceEdits :
    let s := withSeq seq5 [(1, 5), (2, 0x1000001), (3, 0x1060000000)]
    let kv : Cmd := { base.cmd (.kvapp 1 2 3 4) 0 5 0 0 0 .rne with id := 9 }
    let fits (e : Edit) (tva : Nat) : Bool :=
      (s.editRefusal seq5 e 1 1).isNone && (s.sees 1 ((tva, if e = .del then 0 else 4) :: seq5.editRanges e 1 1)).2 && s.mapped 1 .read tva (if e = .del then 0 else 4) &&
      (let q1 := seq5.edited e 1 1 (tokensOf (s.readPart 1 tva (if e = .del then 0 else 4)) 1)
       s.editMapped q1 (editSlots seq5 q1 e 1 1) (editOrders q1 e 1) (q1.editMarks e 1 1 seq5.blocks ++ []))
    s.released 0 0 = true ∧ s.seqPart.map Partition.id = some 1 ∧ s.seqOf 1 5 = some seq5 ∧ s.editRefusal seq5 .ins 4 1 = some 2 ∧
    s.editRefusal seq5 .rep 3 1 = some 2 ∧ s.editRefusal seq5 .del 0 0 = some 2 ∧ seq5.len < 4 ∧ ¬ seq5.len < 3 ∧ 2 ^ 24 < seq5.len + 2 ^ 24 ∧
    fits .ins 0x1060000000 = true ∧ fits .rep 0x1060000000 = true ∧ fits .del 0 = true ∧ (s.kvCmds 0 5).length = 0 ∧
    ((core0 (fun c => { c with eng := { c.eng with cp := [kv] } }) s).kvCmds 0 5).length = 1 ∧
    seq5.lenRefusal 0 = some 2 ∧ seq5.lenRefusal 2 = none ∧ { seq5 with faulted := true }.faulted = true ∧
    s.mapped 1 .write (seq5.orderAddr 3) 8 = true ∧ s.mapped 1 .write (seq5.slotAddr 4) 16 = true := by decide +kernel

/-! ### Keys, values, taps, sampling (spec/17, spec/18) -/

theorem test_kvaddr :
    let s := withSeq seq5 [(1, 5), (2, 1), (3, 0x101), (5, 0x800), (6, 67), (7, 0x201)]
    ((after (.kvaddr 4 1 2 3) s).cur.run.pend.map fun a => a.data) = [leBytes 8 (0x1050010000 + 2 * 128 + 32)] ∧
    ((after (.kvaddr 4 1 2 7) s).cur.run.pend.map fun a => a.data) = [leBytes 8 (0x1050010000 + 128)] ∧
    trapped (.kvaddr 4 1 2 5) s = (Cause.context.code, 0x50B) ∧ trapped (.kvaddr 4 1 6 3) s = (Cause.context.code, 0x502) ∧
    trapped (.kvaddr 4 2 2 3) s = (Cause.context.code, 0x101) := by decide +kernel

theorem test_kvld_kvapp :
    let s := withSeq seq5 [(1, 5), (2, 1), (3, 1), (4, 0x100), (6, 0x6000), (7, 64)]
    ((after (.kvld 4 1 2 3 2) s).queue 0 .cp).map Cmd.rows = [[(2, 1), (3, 2)]] ∧ trapped (.kvld 4 1 2 3 0) s = (Cause.context.code, 0x502) ∧
    trapped (.kvld 6 1 2 3 2) s = (Cause.engine.code, engTval .cp 2 0x6000) ∧ ((after (.kvapp 4 1 2 3) s).queue 0 .cp).map Cmd.rows = [[(5, 4)]] ∧
    trapped (.kvapp 4 1 7 3) s = (Cause.context.code, 0x502) := by decide +kernel

theorem test_slabgrow_lah :
    let s := withSeq seq5 [(1, 5), (2, 0x1080000000), (3, 1), (5, 0x1080000001), (6, 33)]
    reg (.slabgrow 4 1 2 3) s 4 = 0 ∧ (after (.slabgrow 4 1 2 3) s).relocs.map Reloc.layer = [1] ∧ reg (.slabgrow 4 1 5 3) s 4 = refusedWith 11 ∧
    reg (.slabgrow 4 1 2 1) s 4 = refusedWith 2 ∧ trapped (.lah 4 2 6) s = (Cause.context.code, 2) ∧ trapped (.lah 4 2 0) s = (Cause.context.code, 2) := by
  decide +kernel

theorem test_lah : reg (.lah 4 2 3) (withSeq seq5 [(2, 0x100), (3, 1)]) 4 = 1 := by decide +kernel

/-- Tap point 3 of 32 elements is installed, its count of probe 0 is 6. -/
def tapping (rs : List (Reg × Word)) : State :=
  let s := withSeq seq5 rs
  let point : TapPoint := ⟨3, 32, false, 0, [], 6 :: List.replicate 15 0, 1, []⟩
  { s with parts := s.parts.map fun p => { p with points := [point] } }

theorem test_tap :
    let s := tapping [(1, 5), (2, 7), (3, 1), (4, 0x100), (5, 0x108), (6, 2)]
    let full := core0 (fun c => { c with sup := { c.sup with keys := (List.range 16).map fun k => (k, 0, 0) } }) s
    (after (.tap 4 1 2 3 3) s).curCore.sup.keys = [(5, 7, 3)] ∧ ((after (.tap 4 1 2 3 3) s).queue 0 .vs).length = 1 ∧
    trapped (.tap 5 1 2 3 3) s = (Cause.engine.code, engTval .vs 2 0x108) ∧ trapped (.tap 4 1 2 6 3) s = (Cause.context.code, 0x502) ∧
    trapped (.tap 4 1 2 3 3) full = (Cause.context.code, 0x50F) := by decide +kernel

theorem test_tapld :
    let s := tapping [(1, 0x100), (2, 3), (3, 32)]
    reg (.tapld 4 1 3 1) s 4 = 2 ∧ reg (.tapld 4 1 2 1) (s.wr 4 9) 4 = 0 ∧
    (((after (.tapld 4 1 2 1) s).corePart 0).map fun p => p.points.length) = some 0 ∧
    (after (.tapld 4 1 2 3) s).lmem 0 0x100 5 = [6, 0, 0, 0, 0] ∧
    (((after (.tapld 4 1 2 3) s).corePart 0).map fun p => p.points.map fun x => x.count.getD 0 9) = some [0] := by decide +kernel

theorem wit_KeysValuesAndTaps :
    let s := tapping [(1, 5), (2, 1), (3, 0x101), (4, 0x100), (5, 0x1080000000)]
    let d : Word := 0x101
    (live []).seqHere 5 = none ∧ s.seqHere 5 = some seq5 ∧ descBad 0x800 true = true ∧ descBad d true = false ∧
    (descLayer 2 ≥ seq5.hdr.layers ∧ descLayer d < seq5.hdr.layers ∧ descHead d < (seq5.slab 1).heads ∧ (seq5.slab 1).heads ≤ descHead 0x10000) ∧
    seq5.rowOf d 67 0 = none ∧ seq5.rowOf d 66 0 = some (67, 66) ∧ seq5.rowOf d 2 0 = some (3, 2) ∧ descW d = false ∧
    (seq5.slab 1).moving = false ∧ descBySlot d = false ∧ (s.queue 0 .cp).length < 2 ∧
    (match s.kvOperands 5 d false with | .ok _ => true | .error _ => false) = true ∧
    (match s.kvOperands 5 0x400 false with | .ok _ => true | .error _ => false) = false ∧
    (256 < (257 : BitVec 16).toNat ∧ (256 : BitVec 16).toNat ≤ 256) ∧ s.localBad 0 0x5FE1 32 = some 0x6000 ∧ s.localBad 0 0x5FE0 32 = none ∧
    seq5.appBad 1 64 = some 2 ∧ seq5.appBad 1 11 = none ∧ seq5.appBad 1 12 = some 4 ∧ s.released 0 0 = true ∧
    s.growRefusal seq5 1 0x1080000001 = some 11 ∧ s.growRefusal seq5 1 0x1080000000 = none ∧ s.seqPart.isSome = true ∧
    (0x100 % 16 = 0 ∧ 0x5FC0 + 64 ≤ s.localEnd 0) ∧ (s.tapPoint 0 3).map (fun x => x.dm / 16) = some 2 ∧ s.curCore.sup.keys.length < 16 ∧
    s.level = .s ∧ (s.corePart 0).isSome = true ∧ s.keyOpen 1 3 = false ∧
    (core0 (fun c => { c with sup := { c.sup with keys := [(5, 7, 3)] } }) s).keyOpen 1 3 = true ∧
    (s.checkCur .write 0x100 64).2 ≠ .wait ∧ s.roomFor 0 [.own 0x100] = true := by decide +kernel

theorem wit_KeysValuesAndTaps_images :
    let s := withSeq seq5 []
    (match (s.readAtHome 0 .s 0x1060000000 272).2 with | .ok h => h.all (fun x => !x.2) && (imageSize (h.map Prod.fst)).isNone | _ => false) = true ∧
    imageSize ([16, 0, 1, 0] ++ List.replicate 268 0) = some 304 ∧ imageBad ([16, 0, 1, 0] ++ List.replicate 268 0) = false ∧
    imageBad ([16, 0, 1, 4] ++ List.replicate 268 0) = true ∧ storeUnits 304 = 1 := by decide +kernel

/-- The published vector of Philox-4x32-10 at key and counter zero (spec/18 R368). -/
theorem test_rng :
    reg (.rng 4 0 0 false) (live []) 4 = 0xE169C58D6627E8D5 ∧ reg (.rng 4 0 0 true) (live []) 4 = 0x9B00DBD8BC57AC4C := by decide +kernel

theorem test_tourn :
    let s := loc 0x100 (leBytes 4 0x3F800000 ++ leBytes 4 9 ++ leBytes 4 0x3F800000 ++ leBytes 4 7 ++ leBytes 4 0x7FC00000 ++ leBytes 4 1 ++
      leBytes 4 0x7F800000 ++ leBytes 4 0xFFFFFFFF) (live [(2, 0x100), (3, 4), (4, 0x200)])
    (after (.tourn 4 2 3) s).lmem 0 0x200 8 = leBytes 4 0x3F800000 ++ leBytes 4 7 ∧
    (after (.tourn 4 2 0) s).lmem 0 0x200 8 = leBytes 4 0xFF800000 ++ leBytes 4 0xFFFFFFFF := by decide +kernel

/-- ρ 2, presence 1, frequency 0.5, vocabulary of 4; the counts of tokens 0 to 3 are 2, 1, 1, 0. -/
def penalties : State :=
  vset 1 0xC0800000408000004080000041000000 (loc 0x100 (leBytes 4 0x40000000 ++ leBytes 4 0x3F800000 ++ leBytes 4 0x3F000000 ++ leBytes 4 4 ++
    List.replicate 48 0 ++ leBytes 4 2 ++ leBytes 4 1 ++ leBytes 4 1) (live [(2, 0x100), (3, 1), (5, 0x110)]))

/-- 8 / 2 - 1 - 0.5 = 2.5; 4 / 2 - 1.5 = 0.5; a count of 0 leaves 4; token 4 is outside. -/
theorem test_penal :
    let s := after (.penal 1 2 3) penalties
    (s.cur.run.pend.map fun a => ((s.lands 0 0 a.final).rv 1 == 0xFF800000408000003F00000040200000)) = [true] ∧
    trapped (.penal 1 5 3) penalties = (Cause.context.code, 0xB) := by decide +kernel

/-- Lane 0: −ln(−ln u) of the draw 0x6627E8D5 (spec/18 R370). -/
theorem test_gumb : vec (.gumb 1 2 0 0) (vset 2 0xFF800000000000000000000000000000 (live [])) 1 = 0xFF800000BFAF825540647D7F3DADB63D := by
  decide +kernel

theorem wit_Sampling :
    let s := penalties
    penaltyBad (s.lmem 0 0x100 64) = false ∧ penaltyBad (s.lmem 0 0x110 64) = true ∧ s.stage = none ∧ Near s 0x100 64 ∧ Near s 0x110 64 ∧
    ((List.range 4).all fun k => decide (Near s (0x144 + BitVec.ofNat 64 (4 * k)) 4)) = true ∧ s.lpoison 0 0x100 64 = false ∧
    s.lockstep 0 = false ∧ Memory.wf s.curCore.mem.lmem = true ∧ Near s 0x100 8 := by decide +kernel
/-! ### Launches and pre-emption (spec/16, spec/21) -/

/-- A launch record (spec/21 R387): ENTRY 0x200, threads 0 and 1 at LEVEL 1, PRIO 2, no image, stacks from 0x4000 down by 0x100. -/
def record (ctab : Byte) (reserved : Byte) : List Byte :=
  leBytes 8 0x200 ++ [0, 0x31, ctab, 0x08, reserved, 0, 0, 0] ++ leBytes 8 0 ++ leBytes 8 0 ++ leBytes 8 0 ++ leBytes 8 0x4000 ++ leBytes 4 0x100 ++
  leBytes 4 8 ++ leBytes 8 0x700 ++ List.replicate 192 0

/-- Bytes at home. -/
def home (a : Nat) (bs : List Byte) (s : State) : State := { s with mem := { s.mem with cells := cellsWrite s.mem.cells a bs } }

/-- What a result holds (the state itself where it is no next state). -/
def nextOf (s : State) (r : Res) : State :=
  match r with
  | .next t => t
  | _ => s

/-- Records at 0x10_1000_0000 (entry 1: core 1) and 0x10_1000_0100 (a reserved byte is not zero). -/
def launching : State :=
  let s := live [(1, 0x1010000000), (2, 0x1010000100)]
  let at' (a : Nat) (bs : List Byte) : List Host.Cell := (((List.range 256).zip bs).filter fun p => p.2 != 0).map fun p => (a + p.1, p.2)
  { s with
    mem := { s.mem with cells := [(0, 0x7F)] ++ at' 0x1010000000 (record 1 0) ++ at' 0x1010000100 (record 1 1) }
    domtab := s.domtab ++ [(1, ⟨[0], 2, true, some 1⟩)], agenda := [] }

/-- The first record is accepted: launch 1 waits for core 1. -/
def accepted : State :=
  let s := { mapped (live []) with domtab := launching.domtab, agenda := [] }
  (s.acceptLaunch 1 0x1010000000 (record 1 0) false (some 0x101000005C)).1

/-- The launch of a number (the front kernel's where there is none). -/
def theLaunch (s : State) (id : Nat) : Launch := (s.launchOf id).getD frontLaunch

/-- Launch 1 runs on core 1. -/
def started : State := nextOf accepted (execLaunchStart 1 accepted)

/-- Launch 2, of PRIO 3, wants core 1 too. -/
def contended : State :=
  { started with launches := started.launches ++ [{ theLaunch accepted 1 with id := 2, record := { (theLaunch accepted 1).record with prio := 3 } }] }

/-- Every thread of core 1 has stopped. -/
def stopped (s : State) : State := s.onCore 1 fun c => { c with thr := c.thr.map fun t => { t with run := { t.run with life := .stopped } } }

/-- Launch 1 is asked to leave; both threads have parked. -/
def parked : State :=
  let s := nextOf contended (execPreemptRequest 1 contended)
  s.onCore 1 fun c => { c with thr := c.thr.map fun t => { t with run := { t.run with parked := true } }, mem := { c.mem with lmem := [(5, 9)] } }

/-- Launch 1 is saved. -/
def savedOut : State := nextOf parked (execContextSave 1 parked)

theorem test_launch :
    let s := launching
    (let t := after (.launch 4 1) s
     t.rd 4 = 0 ∧ (t.launches.map Launch.id == [0, 1]) = true ∧ leNat (t.homeBytes (0x1010000000 + 92) 4) = 1) ∧
    s.launchCode 1 (record 2 0) true = 2 ∧ s.launchCode 1 (record 1 1) true = 1 ∧ trapped (.launch 4 1) (user s) = (Cause.priv.code, 0x12345678) := by
  decide +kernel

theorem test_launchStart :
    let th := started.thread 1 1
    th.pc = 0x200 ∧ th.run.life = .live ∧ th.level = .u ∧ th.regs.read 14 = 0x3F00 ∧ th.regs.read 5 = 0x708 ∧
    (started.thread 1 2).run.life ≠ .live ∧ (started.core 1).regs.dom.level = 1 := by decide +kernel

theorem test_launchComplete :
    let s := stopped started
    ((nextOf s (execLaunchComplete 1 s)).core 1).launch = none ∧ leNat ((nextOf s (execLaunchComplete 1 s)).homeBytes (0x1010000000 + 92) 4) = 0x201 ∧
    ((nextOf started (execLaunchComplete 1 started)).core 1).launch = some 1 := by decide +kernel

theorem test_preempt_save_resume :
    (theLaunch (nextOf contended (execPreemptRequest 1 contended)) 1).phase = .preempting ∧
    (theLaunch (nextOf started (execPreemptRequest 1 started)) 1).phase = .running ∧ (savedOut.core 1).launch = none ∧
    savedOut.launches.map Launch.id = [0, 2, 1] ∧
    (let s := { savedOut with launches := savedOut.launches.filter fun l => l.id != 2 }
     let t := nextOf s (execContextResume 1 s)
     (t.core 1).launch = some 1 ∧ (t.core 1).mem.lmem = [(5, 9)] ∧ (t.thread 1 1).regs.read 14 = 0x3F00) := by decide +kernel

theorem test_slice_timeout :
    let s := contended.onLaunch 1 fun l => { l with used := 12000000 }
    let late := (nextOf contended (execPreemptRequest 1 contended)).onLaunch 1 fun l => { l with since := 14400000 }
    (theLaunch (nextOf s (execTimeSliceExpiry 1 s)) 1).phase = .preempting ∧ (theLaunch (nextOf contended (execTimeSliceExpiry 1 contended)) 1).phase = .running ∧
    (theLaunch (nextOf late (execPreemptTimeout 1 late)) 1).faulted = true ∧
    ((nextOf late (execPreemptTimeout 1 late)).thread 1 0).run.life = .faulted := by decide +kernel

theorem test_region :
    let s := mapped (live [(1, 0x1000000000), (2, 0x10000), (3, 0x8000)])
    reg (.region 4 1 2 true) s 4 = 4 ∧ reg (.region 4 1 3 true) s 4 = 1 ∧ reg (.region 4 1 2 false) { s with mem := { s.mem with cells := [] } } 4 = 2 := by
  decide +kernel

/-- The whole leaf of 4 TiB becomes software-managed: bit 6 of its entry clears (spec/15 R290, spec/21 R391). -/
theorem test_region_leaf :
    let s := home 8 [0x7F] (live [(1, 0x40000000000), (2, 0x40000000000)])
    reg (.region 4 1 2 false) s 4 = 0 ∧ (after (.region 4 1 2 false) s).homeBytes 8 1 = [0x3F] := by decide +kernel

/-- One translation for each scope of TLBINV (spec/21 R395). -/
def cached : State :=
  let e (asid : BitVec 16) (va : Nat) : TlbEnt := ⟨1, asid, va, 0x10000, 0, 0⟩
  core0 (fun c => { c with mem := { c.mem with tlb := [e 0 0x1000000000, e 0 0x1000010000, e 1 0x1000000000] } }) (live [(1, 0x1000000004)])

theorem test_tlbinv :
    ((after (.tlbinv 1 0) cached).curCore.mem.tlb.map fun e => (e.asid, e.va)) = [(0, 0x1000010000), (1, 0x1000000000)] ∧
    ((after (.tlbinv 1 1) cached).curCore.mem.tlb.map fun e => (e.asid, e.va)) = [(1, 0x1000000000)] ∧
    (after (.tlbinv 1 2) cached).curCore.mem.tlb = [] := by decide +kernel

theorem wit_LaunchesAndPreemption_launch :
    let s := launching
    let ok (x : Word) (f : Nat → Bool) : Bool := match s.readAtHome 0 s.level x 256 with
      | (u, .ok h) => h.all (fun x => !x.2) && f (u.launchCode 1 (h.map Prod.fst) true) && f (u.launchVerdict 1 (h.map Prod.fst) true) &&
          !u.fabricLaunch (u.launchOfRecord 0 1 0 (h.map Prod.fst) false none)
      | _ => false
    s.level = .s ∧ (user s).level = .u ∧ s.released 0 0 = true ∧ (s.coreLaunch 0).isSome = true ∧
    ok 0x1010000000 (fun c => c = 0) = true ∧ ok 0x1010000100 (fun c => c = 1) = true ∧ recReserved (record 1 1) = true:= by decide +kernel

theorem wit_LaunchesAndPreemption_start :
    let a := accepted
    (theLaunch a 1).phase = .waiting ∧ a.granted (theLaunch a 1) = true ∧ (a.launchReady (theLaunch a 1)).2 = true ∧ (a.predecessor (theLaunch a 1)).isSome = true ∧
    contended.granted (theLaunch contended 2) = false ∧ (theLaunch contended 2).phase = .waiting ∧
    (theLaunch a 1).shadows = [] ∧ (theLaunch a 1).record.masks = 0 ∧ (theLaunch a 1).cores = [1] ∧ (theLaunch a 1).record.tmask = 3 := by
  decide +kernel

theorem wit_LaunchesAndPreemption_release :
    (run (fun r => { r with pend := [⟨9, .load, [], .zx, [.have 0], 0, false, 0, .s, false⟩] }) (live [])).level = .s ∧
    (live []).fenced = true := by decide +kernel

theorem wit_LaunchesAndPreemption_region :
    let s := mapped (live [])
    let f := theLaunch s 0
    let t := home 8 [0x7F] (live [])
    let h := t.onCore 1 fun c => { c with req := { c.req with holds := [⟨0, 7, 0x80000007, none, []⟩] } }
    let e : TlbEnt := ⟨1, 0, 0x40000000000, 0x40000000000, 0, 0x1F⟩
    regionBad 0x1000000000 0x10000 = false ∧ regionBad 0x1000000000 0x8000 = true ∧
    (match (live []).leaves f 0x1000010000 1 0x1000000000 with | .missing => true | _ => false) = true ∧
    (match s.leaves f 0x1000010000 1 0x1000000000 with | .ok [e] => decide (e.va = 0 ∧ e.size = 0x40000000000) | _ => false) = true ∧
    (match t.leaves f 0x80000000000 0x4000000 0x40000000000 with
      | .ok [x] => decide (x.va = e.va ∧ x.size = e.size) && t.quiet [x] && (t.hostIn [x]).isEmpty && inPages [x] 7
      | _ => false) = true ∧ h.cores.length = 2 ∧ t.fenced = true ∧ cached.fenced = true ∧
    cached.quiet (cached.tlbAll.filter (tlbNamed f 0x1000000004 0)) = true := by decide +kernel

theorem wit_LaunchesAndPreemption_course :
    let p := nextOf contended (execPreemptRequest 1 contended)
    let late := p.onLaunch 1 fun l => { l with since := 14400000 }
    let lone := { savedOut with launches := savedOut.launches.filter fun l => l.id != 2 }
    (theLaunch started 1).phase = .running ∧ started.finished (theLaunch started 1) = false ∧
    (stopped started).finished (theLaunch started 1) = true ∧ contended.wanted (theLaunch contended 1) true = true ∧
    started.wanted (theLaunch started 1) true = false ∧ contended.sliceOf (theLaunch contended 1) = 12000000 ∧
    (theLaunch p 1).phase = .preempting ∧ p.savable (theLaunch p 1) = false ∧ parked.savable (theLaunch parked 1) = true ∧
    late.unparked (theLaunch late 1) ≠ [] ∧ parked.unparked (theLaunch parked 1) = [] ∧ late.sliceOf (theLaunch late 1) = 12000000 ∧
    (theLaunch lone 1).phase = .saved ∧ lone.granted (theLaunch lone 1) = true := by decide +kernel

/-! ### Events of threads and sequences (spec/05, spec/07, spec/17, spec/18) -/

/-- A thread at U level with two pending POISONs, the older of S level; its handler stands at 0x2000. -/
def twoPoisons : State :=
  user (run (fun r => { r with poisons := [(0x40, .s), (0x44, .u)] }) (thr (fun t => { t with trap := { t.trap with tvec := 0x2000 }, pc := 0x100 }) (live [])))

theorem test_poison :
    let t := nextOf twoPoisons (execAsyncPoisonTrap 0 0 twoPoisons)
    let s := thr (fun t => { t with level := .s }) twoPoisons
    let w := run (fun r => { r with poisons := [(0x44, .u)] }) s
    t.cur.trap.tcause = Cause.poison.code ∧ t.cur.trap.tval = 0x40 ∧ t.cur.trap.tpc = 0x100 ∧ t.cur.pc = 0x2000 ∧ t.cur.run.poisons = [(0x44, .u)] ∧
    (nextOf w (execAsyncPoisonTrap 0 0 w)).cur.pc = 0x100 := by decide +kernel

/-- A budget of handle 5 that has run out. -/
def overrun : State := spec (fun p => { p with lkbud := ⟨true, 5, 0, 0⟩ }) (user (thr (fun t => { t with pc := 0x100 }) (live [])))

theorem test_budget :
    let t := nextOf overrun (execBudgetExpiry 0 0 overrun)
    let s := thr (fun t => { t with level := .s }) overrun
    t.cur.trap.tcause = Cause.budget.code ∧ t.cur.trap.tval = 5 ∧ t.cur.sp.lkbud.en = false ∧ (nextOf s (execBudgetExpiry 0 0 s)).cur.pc = 0x100 := by
  decide +kernel

/-- Two tap events wait for thread 0 of core 0. -/
def tapEvents : State :=
  let s := user (thr (fun t => { t with pc := 0x100 }) (live []))
  { s with parts := s.parts.map fun p => { p with taph := ⟨true, false, 0, 0⟩, tapq := [0x33, 0x44] } }

theorem test_tapEvent :
    let t := nextOf tapEvents (execTapEventEntry 1 tapEvents)
    t.cur.trap.tcause = Cause.tap.code ∧ t.cur.trap.tval = 0x33 ∧ (t.parts.map Partition.tapq) = [[0x44]] ∧
    (nextOf (thr (fun t => { t with level := .s }) tapEvents) (execTapEventEntry 1 (thr (fun t => { t with level := .s }) tapEvents))).cur.pc = 0x100 := by
  decide +kernel

/-- Sequence 5 has two tasks to inject, and core 0 serves it. -/
def injecting : State := { withSeq { seq5 with inject := [0x77, 0x88] } [] with domtab := [(0, ⟨[0], 1, true, some 1⟩)] }

theorem test_taskInject :
    let t := nextOf injecting (execTaskInject 5 injecting)
    (t.core 0).deque = [0x77] ∧ (t.seqs.map Seq.inject) = [[0x88]] := by decide +kernel

/-- Layer 1 grows from 2^4 slots to a new base; the move has begun. -/
def growing (grow : Option Word) : State :=
  let x := { slabAt 0x1050010000 with base := 0x1060000000, oldbase := 0x1050010000, moving := true, log2cap := 1, shared := grow.isNone, shcount := 1, shbase := 0x1050010000 }
  { withSeq { seq5 with slabs := [slabAt 0x1050000000, x] } [] with relocs := [⟨0, 1, 5, 1, grow, true, 0⟩] }

theorem test_relocation :
    let s := home 0x1050010004 [0x5A] (growing (some 0x1060000000))
    let t1 := nextOf s (execSlabRelocationEnd 0 s)
    let t := nextOf t1 (execSlabRelocationEnd 0 t1)
    let u1 := nextOf (growing none) (execUnsharingRelocationEnd 0 (growing none))
    let u := nextOf u1 (execUnsharingRelocationEnd 0 u1)
    (t1.seqs.map fun q => ((q.slab 1).moving, (q.slab 1).wmark)) = [(true, 1)] ∧ t.relocs = [] ∧ t.homeBytes 0x1060000004 1 = [0x5A] ∧ (t.seqs.map fun q => ((q.slab 1).moving, (q.slab 1).wmark)) = [(false, 1)] ∧
    (u.seqs.map fun q => ((q.slab 1).shared, (q.slab 1).wmark)) = [(false, 1)] ∧
    (nextOf s (execUnsharingRelocationEnd 0 s)).relocs = s.relocs := by decide +kernel

/-- One K/V page of sequence 5 too many; the hand stands before it. -/
def sweeping (refd : Bool) : State :=
  let s := withSeq { seq5 with slabs := [slabAt 0x1050000000] } []
  { s with kvpages := [⟨1, 0x105000, 0x105000, refd, false, false, []⟩] }

theorem test_kvPageSpill :
    ((nextOf (sweeping true) (execKvPageSpill 1 (sweeping true))).kvpages.map fun e => (e.refd, e.spilled)) = [(false, false)] ∧
    ((nextOf (sweeping false) (execKvPageSpill 1 (sweeping false))).kvpages.map fun e => (e.refd, e.spilled)) = [(false, true)] := by decide +kernel

theorem test_kvPageResident :
    let s := { live [] with kvpages := [⟨1, 9, 7, false, true, true, []⟩, ⟨1, 8, 6, false, true, true, []⟩], lookahead := [[7], [6, 7]] }
    let t := nextOf s (execKvPageResident 7 s)
    (t.kvpages.map KvPage.spilled) = [false, true] ∧ t.lookahead = [[6]] := by decide +kernel

theorem test_uncorrectable :
    let s := live []
    ((nextOf s (execUncorrectableError (.localRow 0 3) s)).core 0).mem.lpsn = [3] ∧
    (((nextOf s (execUncorrectableError (.threadState 0 1 1 2) s)).thread 0 1).run.damage.map fun d => (d.kind, d.index)) = [(1, 2)] := by decide +kernel

theorem wit_ThreadAndSequenceEvents_traps :
    let halted := thr (fun t => { t with run := { t.run with life := .stopped } }) twoPoisons
    halted.cur.open? = false ∧ twoPoisons.cur.open? = true ∧ twoPoisons.cur.poisonReady = some (0x40, .s) ∧ (live []).cur.poisonReady = none ∧
    overrun.cur.open? = true ∧ overrun.cur.level = .u ∧ overrun.cur.sp.lkbud.en = true ∧ overrun.cur.sp.lkbud.left = 0 ∧ (live []).cur.level = .s ∧
    (tapEvents.partOf 1).any (fun p => p.taph.en && p.taph.n = 0 && decide (p.tapq = [0x33, 0x44])) = true ∧ tapEvents.cur.open? = true ∧
    tapEvents.cur.level = .u ∧ (tapEvents.coreLaunch 0).any (fun l => l.part = 1) = true ∧ ((live []).partOf 1).any (fun p => p.tapq.isEmpty) = true := by
  decide +kernel

theorem wit_ThreadAndSequenceEvents_sequences :
    let q : Seq := { seq5 with inject := [0x77, 0x88] }
    (withSeq seq5 []).seqs.all (fun q => q.handle = 5 && q.inject.isEmpty) = true ∧ injecting.injectTo q = some 0 ∧
    (growing none).kvwaits = [] ∧ ((growing none).seqOf 1 5).isSome = true ∧ ((growing (some 4)).seqOf 1 5).any (fun q => 1 < q.slabs.length) = true ∧
    (live []).relocs = [] ∧
    ((sweeping true).partOf 1).any (fun p => (sweeping true).overFull p && p.hand = 0) = true ∧
    ((withSeq seq5 []).partOf 1).any (fun p => (withSeq { seq5 with slabs := [] } []).overFull p) = false ∧
    (sweeping true).kvPagesOf 1 = [0x105000] ∧ (sweeping true).handSkips 1 0x105000 = false ∧
    ((sweeping true).kvPage 1 (0x105000 * 65536)).any (fun e => e.refd && !e.spilled) = true ∧ (live []).kvpages = [] := by decide +kernel

/-! ### The mailbox (spec/21 R399-R403, spec/16) -/

/-- MBREQ of mailbox 0 holds a request: CODE, SEQ 7, then bytes from offset 8. -/
def asking (code : Nat) (fields : List Byte) (s : State) : State :=
  let req := leBytes 2 code ++ [0, 0] ++ leBytes 4 7 ++ fields ++ List.replicate (248 - fields.length) 0
  s.onBox 0 fun b => { b with req := req }

/-- Partition 1 may be debugged. -/
def debugged : State := { live [(9, 0xABCD)] with parts := base.parts.map fun p => { p with debug := true } }

/-- The domain of core 0 is frozen. -/
def frozenNow : State := debugged.onBar (debugged.domKey 0) fun b => { b with frozen := true }

/-- The fields of a debug request about core 0. -/
def aboutCore (rest : List Byte) : List Byte := [1, 0, 0, 0] ++ leBytes 4 ((live []).identity 0) ++ rest

/-- RESULT of a request that has completed; 99 where it has not. -/
def resultOf (s : State) (r : Res) : Nat := let b := (nextOf s r).box 0; if b.done then b.result.toNat else 99

/-- The outcome that a request has ready; 99 where there is none. -/
def readyOf (s : State) (r : Res) : Nat := let b := (nextOf s r).box 0; if b.busy then (b.next.map Prod.fst).getD 99 else 99

theorem test_mbdoor :
    let s := asking 0x77 [] (live [])
    resultOf s (execMbdoor 0 1 s) = 1 ∧ resultOf s (execMbdoor 0 2 s) = 99 ∧ resultOf (asking 2 [] s) (execMbdoor 0 1 (asking 2 [] s)) = 99 ∧
    ((nextOf s (execMbdoor 0 1 s)).box 0).rsp.take 8 = leBytes 2 0x77 ++ [1, 0] ++ leBytes 4 7 := by decide +kernel

theorem test_hostMmioWrite :
    let s := live []
    ((nextOf s (execHostMmioWrite 0 0x104 [5, 6] s)).box 0).req.take 7 = [0, 0, 0, 0, 5, 6, 0] ∧
    ((nextOf s (execHostMmioWrite 0 0x10 [1] s)).box 0).irq = true := by decide +kernel

theorem test_refusals :
    let s := live []
    let d := asking 0x32 (aboutCore []) s
    let e := asking 2 [9] s
    let v := e.onBox 3 fun _ => e.box 0
    resultOf d (execQuery 0 d) = 5 ∧ resultOf e (execDestroyPartition 0 e) = 3 ∧ ((nextOf v (execDestroyPartition 3 v)).box 3).result = 2 := by
  decide +kernel

theorem test_createPartition :
    let s := asking 1 (leBytes 4 1 ++ [0]) (live [])
    resultOf s (execCreatePartition 0 s) = 3 := by decide +kernel

theorem test_destroy_complete :
    let s := asking 2 [1] (live [])
    let t := nextOf s (execDestroyPartition 0 s)
    let u := stopped (t.onLaunch 0 fun l => { l with phase := .done })
    (t.box 0).busy = true ∧ t.launches.map Launch.phase = [.preempting] ∧ (nextOf u (execMailboxRequestComplete 0 u)).parts.length = 0 ∧
    resultOf u (execMailboxRequestComplete 0 u) = 0 := by decide +kernel

theorem test_resize_window :
    let s := asking 3 ([1, 0, 0, 0] ++ leBytes 4 1) (live [])
    let z := asking 3 [1] (live [])
    let w := asking 4 [2, 40] (live [])
    let x := asking 4 [1, 40] (live [])
    readyOf s (execResizePartition 0 s) = 0 ∧ resultOf z (execResizePartition 0 z) = 3 ∧ readyOf w (execSetErrorWindow 0 w) = 0 ∧
    (nextOf w (execSetErrorWindow 0 w)).errs.need = 2 ∧ resultOf x (execSetErrorWindow 0 x) = 3 := by decide +kernel

theorem test_attest_short :
    let s := asking 0x20 [1] (live [])
    s.mbRefusal 0 0x20 (s.box 0).req = none ∧ (s.box 0).req.length = 256 := by decide +kernel

theorem test_freeze_resume_query :
    let f := asking 0x30 (aboutCore []) debugged
    let r := asking 0x31 (aboutCore []) frozenNow
    let q := asking 0x32 (aboutCore []) frozenNow
    let t := asking 0x31 (aboutCore []) debugged
    readyOf f (execDebugFreeze 0 f) = 0 ∧ readyOf r (execResume 0 r) = 0 ∧ (nextOf r (execResume 0 r)).frozen 0 = false ∧
    resultOf t (execResume 0 t) = 6 ∧ (((nextOf q (execQuery 0 q)).box 0).next.map fun p => p.2.take 1) = some [1] := by decide +kernel

theorem test_stepOne :
    let s := asking 0x33 (aboutCore [0, 0]) frozenNow
    let t := nextOf s (execStepOne 0 s)
    let u : State := { t with host := { t.host with stepping := [(0, 0, 0, true)] } }
    t.agenda.head? = some (.thread 0 0) ∧ (t.box 0).busy = true ∧ resultOf u (execMailboxRequestComplete 0 u) = 0 ∧
    resultOf t (execMailboxRequestComplete 0 t) = 99 := by decide +kernel

/-- READ_STATE and WRITE_STATE of register 9 of thread 0. -/
def aboutReg (code index : Nat) : State :=
  asking code (aboutCore [0, 1, 0, 0] ++ leBytes 4 index ++ leBytes 4 8 ++ [0, 0, 0, 0] ++ leBytes 8 0x700) frozenNow

theorem test_readState :
    let r := nextOf (aboutReg 0x34 9) (execReadState 0 (aboutReg 0x34 9))
    (r.host.mem == [(0x700, 0xCD), (0x701, 0xAB)]) = true ∧ resultOf (aboutReg 0x34 32) (execReadState 0 (aboutReg 0x34 32)) = 3 := by decide +kernel

theorem test_writeState :
    (nextOf (aboutReg 0x35 9) (execWriteState 0 (leBytes 8 0x1234) (aboutReg 0x35 9))).rd 9 = 0x1234 := by decide +kernel

theorem test_trace :
    let s := asking 0x36 ([1] ++ List.replicate 7 0 ++ leBytes 8 0x1000 ++ leBytes 8 16 ++ leBytes 8 0 ++ [1]) debugged
    let z := asking 0x36 ([1] ++ List.replicate 7 0 ++ leBytes 8 0x1000 ++ leBytes 8 17 ++ leBytes 8 0 ++ [1]) debugged
    readyOf s (execTrace 0 s) = 0 ∧ (nextOf s (execTrace 0 s)).homeBytes 0x1000 2 = [16, 0] ∧ resultOf z (execTrace 0 z) = 3 := by decide +kernel

theorem test_replay :
    let s := asking 0x38 [1] debugged
    resultOf s (execReplay 0 s) = 6 := by decide +kernel

theorem wit_MailboxRequests_requests :
    let s := asking 0x10 (leBytes 8 0 ++ leBytes 4 3) (live [])
    let c := asking 1 (leBytes 4 1 ++ [2, 0, 0, 0] ++ leBytes 8 0x20000) (live [])
    let d := asking 2 [1] (live [])
    (s.box 0).busy = false ∧
    s.mbRefusal 0 0x10 (s.box 0).req = none ∧ listedCode 0x10 = true ∧ listedCode 0x77 = false ∧ (s.mbTake 0).homeFreeAll (addrs 0x20000 64) = true ∧
    ((c.mbTake 0).createCode (c.box 0).req) = 0 ∧ d.mbRefusal 0 2 (d.box 0).req = none ∧
    (asking 0x32 [1] (live [])).mbRefusal 0 0x32 ((asking 0x32 [1] (live [])).box 0).req = some 5 ∧ (s.mbTake 0 |>.box 0).busy = true := by
  decide +kernel

theorem wit_MailboxRequests_debug :
    let s := aboutReg 0x34 9
    let req := (s.box 0).req
    let none' := asking 0x34 ([1, 0, 0, 0] ++ leBytes 4 0x7FFFFFFF) frozenNow
    s.mbRefusal 0 0x34 req = none ∧ s.debugCore req = some 0 ∧ none'.debugCore (none'.box 0).req = none ∧ s.frozen 0 = true ∧ debugged.frozen 0 = false ∧
    (s.core 0).launch ≠ none ∧ (s.thread 0 0).run.life = .live ∧ s.host.stepping = [] ∧ (s.mbTake 0).imprecise (s.domKey 0) = false ∧
    ((s.mbTake 0).readObject 0 0 1 9 8).isSome = true ∧ ((s.mbTake 0).writeObject 0 0 1 9 8 [1]).isSome = true ∧ traceSizeOk 16 = true ∧
    traceSizeOk 17 = false ∧ deviceOk 0x1000 = true ∧ deviceOk (0x1000 + 63 + 32 * 16) = true := by decide +kernel

theorem wit_MailboxRequests_launches :
    let s := { accepted with parts := debugged.parts }
    let r : Replay := ⟨true, false, 0, 65536, [], false, [], none, []⟩
    let x := { theLaunch accepted 1 with phase := .done, replay := some r }
    let t := asking 0x38 ([1] ++ List.replicate 7 0 ++ leBytes 8 0x1010000000) { s with launches := [x] }
    (s.partRead 1 0x1010000000 4).isSome = true ∧ s.launches.all (fun l => l.replay.isNone) = true ∧ x.part = 1 ∧ x.addr = 0x1010000000 ∧
    t.mbRefusal 0 0x38 (t.box 0).req = none ∧ r.full = false ∧ ((live []).runningIn 1).length = 1 ∧ ((live []).runningIn 2).length = 0 := by decide +kernel

/-! ### Host, fabric, hardware (spec/00, spec/21, spec/22) -/

/-- The link has trained to CXL.mem. -/
def cxl : State := { live [] with host := { (live []).host with cxl := true, gen := 3 } }

theorem test_hostWrite :
    let s := cxl
    let t := nextOf s (execHostWrite true 1 [some 0x5A, none, some 0x5B] s)
    t.homeBytes 64 3 = [0x5A, 0, 0x5B] ∧ (t.dirOf 0).owner 16 = some hostAgent ∧ (t.dirOf 0).owner 17 = none ∧
    (nextOf s (execHostWrite false 1 [some 1] s)).homeBytes 64 1 = [0] := by decide +kernel

theorem test_hostRead :
    let s := home 64 [7, 8] (live [])
    (nextOf s (execHostRead 1 s)).host.lastRd.take 3 = [7, 8, 0] := by decide +kernel

/-- The link has trained to PCIe. -/
def barTwo : State := { live [] with host := { (live []).host with cxl := false } }

/-- The half 1 is asked for; the host owns its word 16. -/
def snooped : State :=
  let s := nextOf cxl (execHostWrite true 1 [some 1] cxl)
  { s with mem := { s.mem with snoops := [1] } }

theorem test_snoopReply :
    let t := nextOf snooped (execSnoopReply 1 [some 9] snooped)
    t.homeBytes 64 1 = [9] ∧ t.mem.snoops = [] ∧ (t.dirOf 0).owner 16 = none := by decide +kernel

theorem test_snoopTimeout :
    let t := nextOf snooped (execSnoopTimeout 1 snooped)
    t.mem.snoops = [] ∧ (t.homeByte 64).2 = true ∧ (t.homeByte 0).2 = false := by decide +kernel

/-- A remote load of 4 bytes by thread 0 of core 0 to the own module's window, a store to module 1, a load from module 1, to
which port 0 leads. -/
def remotes : State :=
  let far := 0x400000000000 + 2 ^ 40
  let s := live []
  { s with fabric := { s.fabric with
      ports := s.fabric.ports.set 0 ⟨5, true⟩
      remote := [⟨4, 0, 0, 8, 4, none, none, none, none, none⟩, ⟨5, 0, 0, far, 1, none, some [(3, false)], none, none, none⟩,
        ⟨6, 0, 0, far + 8, 1, none, none, none, none, none⟩] } }

theorem test_remote :
    let s := home 8 [6] remotes
    let t := nextOf s (execFabricRemoteAccess (.own 4) s)
    (t.fabric.remote.map fun r => r.val.map (List.map Prod.fst)) = [some [6, 0, 0, 0], none, none] ∧
    (nextOf s (execFabricRemoteAccess (.own 6) s)).fabric.remote.length = 3 ∧ (nextOf t (execFabricAck 4 t)).fabric.remote.map Remote.id = [5, 6] ∧
    (nextOf s (execFabricAck 4 s)).fabric.remote.length = 3 := by decide +kernel

theorem test_fabricTimeout :
    let s := remotes
    (nextOf s (execFabricDeliveryTimeout 6 s)).fabric.remote.map Remote.id = [4, 5] ∧
    (nextOf s (execFabricDeliveryTimeout 4 s)).fabric.remote.map Remote.id = [4, 5, 6] := by decide +kernel

/-- The partition is joined with module 1; a launch for entry 1 has been received. -/
def received : State :=
  let s := { accepted with launches := [frontLaunch], parts := accepted.parts.map fun p => { p with fabgrp := 3 } }
  let t := nextOf s (execFabricLaunchReceive 1 (record 1 0) [] s)
  { t with launches := t.launches.map fun l => if l.ready then l else { l with gen := 9 } }

theorem test_fabricLaunch :
    (received.launches.map fun l => (l.ready, l.image, l.cores)) = [(true, [], [0]), (false, [], [1])] ∧
    ((nextOf received (execStartBarrierComplete 9 true received)).launches.map Launch.ready) = [true, true] ∧
    ((nextOf received (execStartBarrierComplete 9 false received)).launches.length) = 1 := by decide +kernel

theorem test_ports :
    let s := live []
    let t := nextOf s (execPortTraining 3 5 s)
    (t.fabric.ports[3]?) = some ⟨5, true⟩ ∧ ((nextOf t (execLinkPortDown 3 t)).fabric.ports[3]?) = some ⟨5, false⟩ := by decide +kernel

theorem test_hostLink_power :
    let s := live []
    ((nextOf s (execHostLinkTraining true 6 16 s)).host.cxl = true ∧ (nextOf s (execHostLinkTraining true 6 16 s)).host.gen = 6) ∧
    (nextOf s (execPowerLimitReached s)).errs.power = true ∧ (nextOf s (execPowerOn [] s)).parts.length = 0 ∧
    (nextOf s (execPowerOn [] s)).host.boot.length = 64 := by decide +kernel

/-- A way of an L2 has reached the threshold; core 40 too. -/
def worn : State :=
  let s := live []
  { s with errs := { s.errs with counts := [(.l2Way 2 1, 15), (.core 40, 15), (.core 0, 15)] } }

theorem test_errors :
    let s := live []
    ((nextOf s (execCorrectedError (.core 7) s)).errs.counts.map Prod.fst) = [.core 7] ∧ s.lasting (.core 7) = false ∧
    ((nextOf worn (execUnitRetire (.l2Way 2 1) worn)).errs.retired) = [.l2Way 2 1] ∧
    ((nextOf worn (execUnitRetire (.core 0) worn)).launches.map Launch.phase) = [.preempting] ∧
    ((nextOf worn (execUnitRetire (.core 7) worn)).errs.counts.length) = 3 := by decide +kernel

theorem wit_HostFabricAndHardware :
    let on : List (Nat × Byte) := [(64, 0x5A), (66, 0x5B)]
    let p := { cxl with kvpages := [⟨1, 0x100000, 0, false, true, false, []⟩] }
    deviceOk 64 = true ∧ deviceOk 0x5000000000 = false ∧ cxl.host.cxl = true ∧ barTwo.parts ≠ [] ∧ barTwo.host.cxl = false ∧ cxl.spilledPage 64 = false ∧ p.spilledPage 64 = true ∧
    cxl.hostWriteFree true 1 on = true ∧ snooped.homeFree 0 (maskOf ((wordsOf 0xFFFF0000).filter fun w => (snooped.dirOf 0).owner w != some hostAgent)) = true ∧
    1 ∈ snooped.mem.snoops ∧ 1 ∉ cxl.mem.snoops ∧ (snooped.hostGives 0 0xFFFF0000).hostWriteFree false 1 [(64, 9)] = true ∧
    (remotes.fabric.remote.find? fun x => x.id = 4).any (fun r => r.val.isNone && remotes.remoteFirst r && remotes.homeFreeAll r.addrs) = true ∧
    (remotes.fabric.remote.find? fun x => x.id = 6).any (fun r => r.val.isNone && !remotes.remoteFirst r && remotes.moduleOf r != remotes.fabric.module.toNat &&
      r.store.isNone) = true ∧
    (remotes.fabric.remote.find? fun x => x.id = 5).any (fun r => r.val.isNone && remotes.moduleOf r != remotes.fabric.module.toNat && r.store.isSome) = true ∧
    (remotes.fabric.remote.find? fun x => x.id = 4).any (fun r => remotes.moduleOf r == remotes.fabric.module.toNat) = true ∧
    (nextOf remotes (execFabricRemoteAccess (.own 4) remotes)).fabric.remote.any (fun r => r.id = 4 && r.val.isSome) = true := by decide +kernel

theorem wit_HostFabricAndHardware_held :
    let s := cxl.onCore 1 fun c => { c with req := { c.req with holds := [⟨0, 0, 0x20000000, none, []⟩] } }
    let d := s.dirOf 0
    let t := match d.slotFor 1 with
      | some k => s.setDir 0 (d.record k 1 0x10000)
      | none => s
    t.hostWriteFree true 1 [(64, 0x5A)] = false := by decide +kernel

theorem wit_HostFabricAndHardware_units :
    (live []).joined 1 = none ∧ (received.joined 1).any (fun p => received.launchCode p.id (record 1 0) true = 0) = true ∧
    (received.launches.find? fun l => l.phase == .waiting && l.expects 9).isSome = true ∧ 3 < (live []).fabric.ports.length ∧
    worn.lasting (.core 7) = false ∧ worn.lasting (.l2Way 2 1) = true ∧ worn.lasting (.core 0) = true ∧ (worn.coreLaunch 0).isSome = true ∧
    worn.lasting (.core 40) = true ∧ (worn.coreLaunch 40).isNone = true ∧ (live []).fabric.module.toNat ≠ 1 := by decide +kernel

/-! ### Witnesses of what the rules make an instruction wait for -/

/-- The host owns the words of the line of a byte at home. -/
def hostHolds (a : Nat) (s : State) : State :=
  let d := s.dirOf (lineOf a)
  match d.slotFor hostAgent with
  | some k => s.setDir (lineOf a) (d.record k hostAgent 0xFFFFFFFF)
  | none => s

/-- The thread waits. -/
def waiting (w : Wait) (s : State) : State := run (fun r => { r with wait := some w }) s

theorem wit_FencesAndTagWaits_later :
    (waiting .queue (live [])).stage = some .queue ∧ (waiting (.tags 4) tracked).stage = some (.tags 4) := by decide +kernel

theorem wit_DecodeTables_loads :
    let s := live []
    ((spec (fun p => { p with uena := 1 }) (user s)).cur.sp.uena.getLsbD 1 = false ∧ (user s).level = .u) ∧
    (s.coreLaunch 0).all (fun l => (s.loaders l).isEmpty) = true ∧ (nativeOp 0).isSome = true ∧
    (match (s.seeList 0 2 3).2 with | .ok bs => decide (halfwords bs = [0, 0, 0]) | _ => false) = true := by decide +kernel

theorem wit_FencesWordsAndWindows_waits :
    (run (fun r => { r with pend := [{ pending (.l 0 3) with bytes := [.miss 0] }] }) (live [])).cur.loadsLanded = false := by decide +kernel

theorem wit_ResultsLand_order :
    let a := pending (.l 0 3)
    let x : Async := { a with kind := .sfu }
    let t (l : List Async) : Thread := (run (fun r => { r with pend := l }) (live [])).cur
    (t [a]).canLand a = true ∧ a.kind ≠ .sfu ∧ (t [{ x with id := 8 }, x]).canLand x = false ∧ (t [x]).canLand x = true := by decide +kernel

theorem wit_EngineOperationsRun_begun :
    let s := streams (live [(1, 2)])
    let v := after (.vsadd 0 1 2 1 .i32 false .rne) s
    let m := after (.mxz 0 1) s
    (v.headToRun 0 .vs).any (v.mayBegin 0) = true ∧ (m.toRun 0 .mx).any (m.matrixReady 0) = true ∧
    (copying.headToRun 0 .cp).any (fun c => !c.moved && !c.told) = true ∧
    ((after (.copyOpRun 0) copying).queue 0 .cp).map Cmd.told = [false] := by decide +kernel

theorem wit_FencesGangsLockstepAndLines_ends :
    (ganged true (live [])).gangSlot 0 0 = some ⟨0, true⟩ ∧ (((paired (live [])).rollback 0).core 0).lock.hits < 3 := by
  refine ⟨by decide +kernel, ?_⟩
  cases h : (paired (live [])).choice 700 <;> simp only [State.rollback, h] <;> decide +kernel

theorem wit_PushStoresHoldsAndDeques_waits :
    let s := live []
    let h : Hold := ⟨0, 7, 7, some 0, []⟩
    (waiting (.deqGot 0) s).stage = some (.deqGot 0) ∧ ((waiting (.steal [1] true) s).thread 0 0).run.wait = some (.steal [1] true) ∧
    ((waiting .deque s).thread 0 0).run.wait = some .deque ∧ ((waiting (.word [] 0 0 false) s).thread 0 0).run.wait = some (.word [] 0 0 false) ∧
    (((holding [h] s).core 0).req.holds.find? fun x => x.thr = h.thr && x.line = h.line) = some h ∧
    (((holding [h] s).core 0).req.holds.find? fun x => x.thr = (0 : BitVec 2).toNat && x.vline = 7) = some h := by decide +kernel

theorem wit_SequenceRequests_waits :
    let s := withSeq seq5 [(1, 5), (2, 0x1060000000), (3, 6)]
    let t := template
    (waiting (.reply 3) s).stage = some (.reply 3) ∧ s.stage = none ∧
    ((hostHolds 0x1060000000 s).sees 1 [(0x1000000600, 256), (0x1060000000, 96)]).2 = false ∧
    (t.parts.head?.map fun p => match t.openHead p 6 0x1060000000 with
      | .ok q => (t.sees 1 q.openRanges).2 && !((hostHolds 0x1031000000 t).sees 1 q.openRanges).2
      | _ => false) = some true ∧
    (t.parts.head?.map fun p => t.recordTaken p 5 && !t.recordTaken p 6 && (t.sees 1 (forkRanges p seq5 6 0x1060000000)).2 &&
      !((hostHolds 0x1060000000 t).sees 1 (forkRanges p seq5 6 0x1060000000)).2 && (t.sees 1 (t.childRanges p seq5 6 0x1060000000)).2 &&
      !((hostHolds 0x1031000000 t).sees 1 (t.childRanges p seq5 6 0x1060000000)).2) = some true := by decide +kernel

theorem wit_SequenceEdits_waits :
    let s := withSeq seq5 [(1, 5), (2, 0x1000001), (3, 0x1060000000)]
    (waiting (.reply 3) s).stage = some (.reply 3) ∧
    ((hostHolds 0x1060000000 s).sees 1 ((0x1060000000, 4) :: seq5.editRanges .ins 1 1)).2 = false ∧
    (s.sees 1 (seq5.lenRanges 2 0x1060000000)).2 = true ∧ ((hostHolds 0x1060000000 s).sees 1 (seq5.lenRanges 2 0x1060000000)).2 = false ∧
    s.mapped 1 .read 0x1060000000 8 = true ∧ (s.sees 1 ((0, 4) :: seq5.editRanges .ins 1 1)).2 = true ∧ s.mapped 1 .read 0 4 = false := by
  decide +kernel

theorem wit_KeysValuesAndTaps_waits :
    let s := withSeq seq5 [(1, 5), (2, 0x100), (3, 1)]
    let k := waiting (.kvRows 5 [(2, 1)] true) s
    s.kvKept 5 = none ∧ (k.kvKept 5).map Prod.snd = some [(2, 1)] ∧ (waiting (.reply 3) s).stage = some (.reply 3) ∧ s.stage = none ∧
    (storing s).released 0 0 = false ∧ (match (s.seeList 0x100 16 2).2 with | .ok l => decide (l.length = 32) | _ => false) = true ∧
    (s.walks 1 .write [0x1080000000]).2 = true ∧ ((hostHolds 8 s).walks 1 .write [0x40000000000]).2 = false ∧
    (match (s.kvCheck 0 .s .read [0x1050000000]).2 with | .ok _ => true | _ => false) = true ∧
    s.spilledAmong 1 [0x1050000000] = [] ∧ (live []).seqPart = none := by decide +kernel

/-- The launch with its image (64 bytes) and its predecessor's word in lines of their own. -/
def needing : Launch :=
  let l := theLaunch accepted 1
  { l with record := { l.record with img := 0x1020000000, ilen := 64, preda := 0x1021000000, predv := 0 } }

theorem wit_LaunchesAndPreemption_waits :
    let a := accepted
    (a.predecessor needing).isSome = true ∧ ((hostHolds 0x1021000000 a).predecessor needing).isNone = true ∧
    (a.launchReady needing).2 = true ∧ ((hostHolds 0x1020000000 a).launchReady needing).2 = false ∧ (hostHolds 0x1020000000 a).granted needing = true ∧
    a.fabricLaunch needing = false := by decide +kernel

theorem wit_ThreadAndSequenceEvents_slots :
    let s := growing (some 0x1060000000)
    let t := nextOf s (execSlabRelocationEnd 0 s)
    let fresh := { s with relocs := [⟨0, 1, 5, 1, some 0x1060000000, false, 0⟩] }
    (s.seqKept 1 5).map (fun q => (q.slab 1).wmark) = some 0 ∧ (t.seqKept 1 5).map (fun q => (q.slab 1).wmark) = some 1 ∧
    fresh.relocs.map Reloc.begun = [false] ∧ (injecting.seqKept 1 5).isSome = true := by decide +kernel

theorem wit_MailboxRequests_waits :
    let c := asking 1 (leBytes 4 1 ++ [2, 0, 0, 0] ++ leBytes 8 0x20000) (live [])
    let r := asking 0x37 ([1] ++ List.replicate 7 0 ++ leBytes 8 0x1010000000) { accepted with parts := debugged.parts }
    let got (s : State) : Bool := match (s.partReach 1 .read 0x1010000000 256).2 with | .ok l => l.length = 256 | _ => false
    let stays (s : State) : Bool := match (s.partReach 1 .read 0x1010000000 256).2 with | .wait => true | _ => false
    let pendingOf (code : Nat) : Mailbox := (((asking code [] (live [])).mbTake 0).box 0)
    c.homeFreeAll (addrs 0x20000 64) = true ∧ (hostHolds 0x20000 c).homeFreeAll (addrs 0x20000 64) = false ∧ got r = true ∧
    stays (hostHolds 0x1010000000 r) = true ∧ [1, 2, 0x33, 0x37, 0x38].all (fun code =>
      (pendingOf code).busy && (pendingOf code).next.isNone && leNat ((pendingOf code).taken.take 2) == code) = true := by decide +kernel

theorem wit_HostFabricAndHardware_waits :
    let l : List Late := [⟨1, .hostReply 1 []⟩]
    let own := hostHolds 8 remotes
    let down := { remotes with fabric := { remotes.fabric with ports := List.replicate 12 ⟨0, false⟩ } }
    cxl.mem.late = [] ∧ snooped.mem.late = [] ∧ snooped.replyWaits 1 = false ∧ { snooped with mem := { snooped.mem with late := l } }.replyWaits 1 = true ∧
    remotes.fabric.remote.map remotes.cutOff = [false, false, false] ∧ down.fabric.remote.map down.cutOff = [false, true, true] ∧
    remotes.fabric.remote.all (fun r => decide (r.core < Config.numCores)) = true ∧
    (own.fabric.remote.find? fun x => x.id = 4).any (fun r => r.val.isNone && own.remoteFirst r && !own.homeFreeAll r.addrs) = true ∧
    (1 : BitVec 6) ≠ remotes.fabric.module := by decide +kernel

/-! ### Witnesses of single clauses -/

theorem wit_FencesWordsAndWindows_global :
    let w := window 0x1000000000
    let b := get8 w.cur.sp.pwb 3
    let const (s : State) : Core := { s.core 0 with mem := { (s.core 0).mem with cc := [⟨0x20000000, List.replicate 128 7, 0⟩] } }
    b.bound = true ∧ 0x1F < b.size.toNat ∧ b.base.toNat * 16 = 0x1000000000 ∧ (0x1000000000 + 0x1F < 0x80000000000000) ∧
    (match (w.checkGlobal 0 .s .read 0x1000000000 4).2 with | .trap _ _ => true | _ => false) = true ∧
    (match ((hostHolds 0 (mapped w)).checkGlobal 0 .s .read 0x1000000000 4).2 with | .wait => true | _ => false) = true ∧
    (match (mapped w).checkGlobal 0 .s .read 0x1000000000 4 with | (u, .ok ps) => ps.length = 4 && u.roomFor 0 ps | _ => false) = true ∧
    fabTarget 0x1000000000 = none ∧ ((w.core 0).constByte 0x1000000000) = none ∧ ((const w).constByte 0x1000000003) = some (7, false) := by
  decide +kernel

theorem wit_ResultsLand_sfu :
    let x : Async := { pending (.l 0 3) with kind := .sfu }
    let l : Async := { pending (.l 0 3) with id := 5 }
    let t (l : List Async) : Thread := (run (fun r => { r with pend := l }) (live [])).cur
    (t [{ x with id := 8 }, l, x]).canLand x = false ∧ (t [{ x with id := 8, dest := [.l 0 4] }, l, x]).canLand x = true ∧
    (t [{ x with id := 8, bytes := [.miss 0] }, x]).canLand x = false ∧ (t [{ x with id := 8 }, x]).canLand { x with id := 8 } = true := by
  decide +kernel

theorem wit_reservedMode :
    let s := spec (fun p => { p with frm := 5 }) (live [])
    s.mode .frm = none ∧ (spec (fun p => { p with frm := 7 }) s).mode .frm = none ∧ (spec (fun p => { p with frm := 4 }) s).mode .frm ≠ none ∧
    floatRounds fmtF64 fmtF32 = true ∧ floatRounds fmtF16 fmtF32 = false ∧ intRounds 32 true fmtF32 = true ∧ intRounds 8 true fmtF32 = false ∧
    eConvRounds .f32 .f16 = false ∧ eConvRounds .f16 .f32 = true ∧ EType.f32.isInt = false ∧ (cType .f32).isInt = false := by decide +kernel

theorem wit_FloatMasksAndSigns_ties :
    let d : Dy := ⟨2049, 0⟩
    let r (m : RMode) : Nat := (roundDy fmtF16 m d false).1
    (roundDy fmtF16 .rne d false).2 &&& flagOF = 0 ∧ r .rne % 2 = 0 ∧ r .rmm = r .rne + 1 := by decide +kernel

theorem wit_EngineCommandsIssue_remote :
    let q (s : State) := core0 (fun c => { c with eng := { c.eng with mx := List.replicate 2 (base.cmd .mxwf 0 0 0 0 0 .rne) } }) s
    let s := core0 (fun c => { c with regs := { c.regs with mxen := true, mxmask := 1 } }) (live [])
    2 ≤ ((q s).queue 0 .mx).length ∧ (s.curCore.regs.mxen && clusterOf 0 == clusterOf 0 && s.curCore.regs.mxmask.getLsbD (0 % 32)) = true ∧
    (0x5FE0 % 16 = 0 ∧ s.localEnd 0 < 0x5FE0 + 48 ∧ 0x5FD0 + 48 ≤ s.localEnd 0) ∧
    (s.rangeBad 0 0x5FF0 32).isSome = true ∧ s.rangeBad 0 0x5FE0 32 = none := by decide +kernel

theorem wit_EngineOperationsRun_matrix :
    let s := core0 (fun c => { c with mem := { c.mem with lpsn := [0x50] } }) (loc 0x100 (List.replicate 64 1) (live [(1, 0x100), (2, 2), (3, 0x500)]))
    let ready (i : Instr) (ok : Cmd → Bool) : Bool :=
      let t := { after i s with ctx := s.ctx }
      (t.toRun 0 .mx).any fun c => t.matrixReady 0 c && c.fail.isNone && ok c
    let m := (s.core 0).eng.mat
    ready (.mxwl .f16 1 0) (fun _ => true) = true ∧ ready (.mxa .f16 0 1 2 3 1 false) (fun c => s.lpoison 0 c.c.toNat 8 && c.b.toNat = 2) = true ∧
    ready (.mxa .i8 0 1 2 0 0 false) (fun _ => !mxAccepts m.act.fmt .i8) = true ∧ mxAccepts m.act.fmt m.act.fmt = true ∧
    ready (.mxa m.act.fmt 0 1 2 0 0 true) (fun c => c.d.toNat + c.b.toNat ≤ 64) = true ∧
    ready (.mxd .f32 1 0 2 true) (fun c => c.b.toNat + c.c.toNat ≤ 64) = true ∧ ready (.mxstat 4 0) (fun _ => true) = true ∧
    m.acc.length = 1024 ∧ s.lockstep 0 = false ∧ Memory.wf (s.core 0).mem.lmem = true := by decide +kernel

theorem wit_EngineOperationsRun_end :
    let s := { after (.mxstat 4 0) (live []) with ctx := (live []).ctx }
    let t := after (.matrixOpRun 0) s
    (t.queue 0 .mx).map (fun c => (c.ran, c.told, c.notifies.isNone, c.fail.isNone, c.flags, c.thr)) = [(true, false, true, true, 0, 0)] ∧
    (t.queue 0 .mx).all (fun c => t.cur.run.pend.any fun a => a.id = c.id && a.kind == .engine && a.fmt == .zx) = true ∧
    (unpack fmtF32 0x7FC00000).isNaN = true ∧ (unpack fmtF32 0x3F800000).isInf = false := by decide +kernel

theorem wit_FencesGangsLockstepAndLines_rollback :
    let row : Nat × List Byte × Bool := (2, List.replicate 16 7, true)
    let s := core0 (fun c => { c with lock := { c.lock with saved := c.thr.toList, engs := some c.eng, log := [row], hits := 3, rbcount := 0xFFFF } })
      (paired (duo (live [])))
    s.lockstep 0 = true ∧ s.shadow 0 = false ∧ s.leftCore 0 = [] ∧ (s.core 0).lock.saved.length = 4 ∧ (s.core 0).lock.engs.isSome = true ∧
    Memory.wf (s.core 1).mem.lmem = true ∧ row.2.1.length = 16 ∧ [row.1].Nodup := by decide +kernel

theorem wit_FencesGangsLockstepAndLines_third :
    let s := core0 (fun c => { c with lock := { c.lock with saved := c.thr.toList, hits := 3 } }) (paired (duo (live [])))
    let f := (s.rollback 0).core 0
    (f.lock.hits = 1 ∨ f.lock.hits = 4) ∧ (get4 f.thr 0).run.life = .live ∧ (get4 f.thr 0).sp.lkbud.en = false := by
  cases h : (core0 (fun c => { c with lock := { c.lock with saved := c.thr.toList, hits := 3 } }) (paired (duo (live [])))).choice 700 <;>
    simp only [State.rollback, h] <;> decide +kernel

theorem wit_PushStoresHoldsAndDeques_refused :
    let s := software (live [])
    let g := mapped (live [])
    (s.checkCur .read 0x1000000000 1).2 = .ok [.glob 0x1000000000 false] ∧ s.pushFits 0 0x1000000000 1 = true ∧
    (g.checkCur .read 0x1000000000 1).2 = .ok [.glob 0x1000000000 true] ∧ g.pushDests 0 0x1000000000000 = none ∧
    g.pushFits 0x1000000000000 0x1000000000 1 = true ∧
    ((duo g).checkCur .read 0x100010000 1).2 = .ok [.peer 1 0] := by decide +kernel

theorem wit_HomeAndCoreMessages_held :
    let h : Hold := ⟨0, 0x20000000, 0x20000000, some 5, []⟩
    let s := message .rev (holding [h] (owning (live [])))
    let r := asked registering (live [])
    s.probeDue ⟨4, .rev, 0, 0x20000000, 2, 7, false⟩ = true ∧ s.holder 0 0x20000000 = some (0, h) ∧
    (request registering).isReg = true ∧ (request (.write [])).isReg = false ∧ r.replyAhead 0 0x20000000 = false ∧
    replied.replyAhead 0 0x20000000 = true ∧ (replied.line? 0 0x20000000).isSome = true ∧
    (core0 (fun c => { c with mem := { c.mem with l1 := [⟨0x20000000, false, 0, true, true, 3, Vector.replicate 32 ⟨.v, 1, 0, false⟩⟩] } })
      (message .inv (live []))).line? 0 0x20000000 ≠ none ∧ (pushed none s).holder 0 0x20000000 ≠ none := by decide +kernel

theorem wit_BarriersAndExchange_many :
    let s := live []
    let late (w : LateOp) : State := { exchanging with mem := { exchanging.mem with late := [⟨1, w⟩] } }
    let x : List Captured := [⟨0, 0, 0x200, [(List.replicate 16 7, false)]⟩, ⟨1, 0, 0x200, [(List.replicate 16 8, true)]⟩]
    exchanging.tapsPending (exchanging.domKey 0) = false ∧ (late (.record 0x40 [] (some 1))).tapsPending (exchanging.domKey 0) = true ∧
    (late (.record 0x40 [] none)).tapsPending (exchanging.domKey 0) = false ∧
    x.all (fun x => !s.lockstep x.dst && x.t % 16 = 0 && x.rows.all fun r => r.1.length = 16) = true := by decide +kernel

theorem wit_SequenceEdits_served :
    let s := withSeq inFlight [(1, 5), (2, 0x1000001), (3, 0x1060000000)]
    let ok (e : Edit) (tva size : Nat) : Bool := match s.sees 1 ((tva, size) :: inFlight.editRanges e 1 1) with
      | (u, true) =>
        let q1 := inFlight.edited e 1 1 (tokensOf (u.readPart 1 tva size) 1)
        (s.editRefusal inFlight e 1 1).isNone && u.mapped 1 .read tva size && u.editMapped q1 (editSlots inFlight q1 e 1 1) (editOrders q1 e 1)
          (q1.editMarks e 1 1 inFlight.blocks ++ (inFlight.map.filter fun x => q1.blocks ≤ x.blk).map fun x => (x.layer, x.blk))
      | _ => false
    ok .ins 0x1060000000 4 = true ∧ ok .rep 0x1060000000 4 = true ∧ ok .del 0 0 = true ∧ inFlight.order.Nodup ∧
    inFlight.order.length = inFlight.len ∧ inFlight.slots.length = inFlight.hw ∧ (inFlight.order.all fun x => decide (x < inFlight.hw)) = true ∧
    (inFlight.map.map fun x => (x.layer, x.blk)).Nodup ∧ (inFlight.ent 0 1).out = true ∧ (inFlight.ent 0 0).st = none := by decide +kernel

theorem wit_LaunchesAndPreemption_preda :
    let bs := record 1 0
    let needs := bs.take 64 ++ leBytes 8 0x1010000000 ++ bs.drop 72
    let s := launching
    (launchRecOf needs).preda = 0x1010000000 ∧ (s.predaKnown 1 bs).2 = true ∧ (s.predaKnown 1 needs).2 = true ∧
    ((hostHolds 0 s).predaKnown 1 needs).2 = false := by decide +kernel

theorem wit_ThreadAndSequenceEvents_errors :
    let p := paired (duo (live []))
    let f := p.onLaunch 0 fun l => { l with fused := true }
    (live []).shadow 0 = false ∧ p.fusedL1 0 = false ∧ f.fusedL1 0 = true ∧ f.lockstep 0 = true ∧
    ((live []).unitFields [70, 5] (.l2Way 2 1)) = (2, 2 + 2 ^ 16, 256) := by decide +kernel

theorem wit_MailboxRequests_step :
    let s := asking 0x33 (aboutCore [3, 0]) (frozenNow.onThread 0 3 fun t => { t with run := { t.run with life := .live } })
    let req := (s.box 0).req
    s.mbRefusal 0 0x33 req = none ∧ s.debugCore req = some 0 ∧ leNat ((req.drop 16).take 1) = 3 ∧ s.frozen 0 = true ∧
    (s.thread 0 3).run.life = .live ∧
    (List.range 4).all (fun k => (0x200 + k ≠ 0x10 : Bool) && decide (0x200 + k < 0x100 ∨ 0x200 ≤ 0x200 + k)) = true ∧
    (List.range 4).all (fun k => (0xFC + k ≠ 0x10 : Bool) && decide (0xFC + k < 0x100 ∨ 0x200 ≤ 0xFC + k)) = true := by decide +kernel

theorem wit_HostFabricAndHardware_paths :
    let s := barTwo
    let none' : State := { s with parts := [] }
    let router : Remote := ⟨4, 0, 0, routerAddr 1 8, 4, none, none, none, none, none⟩
    let z := duo (live [])
    s.host.cxl = false ∧ s.parts ≠ [] ∧ none'.parts = [] ∧ routerPlace router.pa = some (1, 8) ∧ routerPlace 8 = none ∧
    remotes.remoteFirst ⟨4, 0, 0, 8, 4, none, none, none, none, none⟩ = true ∧ z.shut 0 1 = false ∧
    ({ z with fabric := { z.fabric with remote := [router] } } : State).remoteFirst router = true ∧
    ({ z with fabric := { z.fabric with remote := [router] } } : State).cutOff router = false ∧ 64 ≤ z.moduleOf router ∧
    (snooped.hostGives 0 0xFFFF0000).hostWriteFree false 1 [(64, 9)] = true ∧
    (received.joined 1).any (fun p => (received.predaKnown p.id (record 1 0)).2 &&
      decide ((received.predaKnown p.id (record 1 0)).1.launchCode p.id (record 1 0) true = 0)) = true := by decide +kernel

/-! ### Encoding and invariants -/

theorem wit_EncodeThenDecode :
    (Instr.ldl 1 26 0xFFFFFFFC .hz false).wellFormed = true ∧ encodeBytes (.ldl 1 26 0xFFFFFFFC .hz false) = some (leBytes 8 0xFFFFFFFC28341313) := by
  decide +kernel

theorem wit_ReservedEncodingsRefused :
    (0xFFD : Word).getLsbD 0 = true ∧ nativeOp ((0xFFD : Word).extractLsb' 2 10).toNat = none ∧
    decodeWord nativeOp 0x04B28001 = some (.add 8 25 18 false false) := by decide +kernel

end Sys2Proof.Tests
end

/-!
PROOFS. Memory in canonical form (spec/00 R8): what a write leaves at every address, and that it determines its list.
-/
namespace Sys2Proof.Machine
set_option Elab.async false

/-- What every address reads after a write: the byte written there, or what it read before. -/
theorem cellsGet_cellsWrite (m : List Host.Cell) (a : Nat) (bs : List Byte) (h : Memory.wf m = true) (x : Nat) :
    cellsGet (cellsWrite m a bs) x = if a ≤ x then bs.getD (x - a) (cellsGet m x) else cellsGet m x := by
  by_cases inside : a ≤ x ∧ x - a < bs.length
  · obtain ⟨ha, hk⟩ := inside
    have e := cellsGet_write_inside m a bs h (x - a) hk
    rw [Nat.add_sub_cancel' ha] at e
    rw [if_pos ha, e, List.getD_eq_getElem?_getD, List.getElem?_eq_getElem hk, Option.getD_some]
  · rw [cellsGet_write_outside m a bs h x (by omega)]
    split
    · rw [List.getD_eq_getElem?_getD, List.getElem?_eq_none (by omega), Option.getD_none]
    · rfl

/-- Settles O14, from the laws of canonical lists: a write keeps the form, reads are as written, equal reads are equal
lists. -/
theorem canonicalMemoryIsDetermined : Obligations.CanonicalMemoryIsDetermined := by
  intro m a bs h
  exact ⟨cellsWrite_wf m a bs h, cellsGet_cellsWrite m a bs h, fun m' h' e => cells_ext m m' h h' e⟩

end Sys2Proof.Machine

/-!
PROOFS. Global memory and host memory stay in canonical form (spec/00 R8). Memory is written in three places only (bytes and
words of home's own copy, the host's buffer), each by `cellsPut`, which keeps the form; everything else that a step does is
put together from these and from updates that touch no memory. One lemma for each operation of the model, in the model's
order.
-/
namespace Sys2Proof.Claims
set_option Elab.async false

open Machine

/-- A state that may be there is canonical if it is. -/
structure CanonicalSome (o : Option State) : Prop where
  of_some : ∀ {t}, o = some t → CanonicalGlobal t

/-- The next state of an outcome is canonical if there is one. -/
structure CanonicalNext (r : Res) : Prop where
  of_next : ∀ {t}, r = .next t → CanonicalGlobal t

namespace CanonicalSome

theorem none : CanonicalSome none := ⟨nofun⟩

theorem some {s : State} (h : CanonicalGlobal s) : CanonicalSome (some s) := ⟨fun e => by cases e; exact h⟩

theorem ite {c : Prop} [Decidable c] {o p : Option State} (h : CanonicalSome o) (h' : CanonicalSome p) :
    CanonicalSome (if c then o else p) := by
  split
  · exact h
  · exact h'

theorem map {α : Type} {o : Option α} {f : α → State} (hf : ∀ a, CanonicalGlobal (f a)) : CanonicalSome (o.map f) := by
  cases o with
  | none => exact .none
  | some a => exact .some (hf a)

theorem bind {α : Type} {o : Option α} {f : α → Option State} (hf : ∀ a, CanonicalSome (f a)) : CanonicalSome (o.bind f) := by
  cases o with
  | none => exact .none
  | some a => exact hf a

theorem getD {s : State} {o : Option State} (h : CanonicalSome o) (h' : CanonicalGlobal s) : CanonicalGlobal (o.getD s) := by
  cases o with
  | none => exact h'
  | some t => exact h.of_some rfl

end CanonicalSome

namespace CanonicalNext

theorem next {s : State} (h : CanonicalGlobal s) : CanonicalNext (.next s) := ⟨fun e => by cases e; exact h⟩

theorem fault {r : Fault} : CanonicalNext (.fault r) := ⟨nofun⟩

theorem refused {r : Refusal} : CanonicalNext (.refused r) := ⟨nofun⟩

theorem ite {c : Prop} [Decidable c] {o p : Res} (h : CanonicalNext o) (h' : CanonicalNext p) :
    CanonicalNext (if c then o else p) := by
  split
  · exact h
  · exact h'

end CanonicalNext

namespace CanonicalGlobal

variable {s t u : State}

/-! ### How states are put together -/

section
variable {ctx : Ctx} {agenda : List Agent} {tick nextId : Nat} {cores : List (Nat × Core)} {ctlb : List (Nat × List TlbEnt)}
  {mem : Global} {domtab : List (Nat × DomEntry)} {bars : List Barrier} {seqs : List Seq} {relocs : List Reloc}
  {kvpages : List KvPage} {kvwaits : List KvWait} {lookahead : List (List Nat)} {parts : List Partition}
  {launches : List Launch} {fabric : Fabric} {errs : Errors} {host : HostSide}

/-- A change of anything but cells, host memory, cores and launches. -/
theorem same (h : CanonicalGlobal s) (hm : mem.cells = s.mem.cells := by rfl) (hh : host.mem = s.host.mem := by rfl) :
    CanonicalGlobal ⟨ctx, agenda, tick, nextId, s.cores, ctlb, mem, domtab, bars, seqs, relocs, kvpages, kvwaits, lookahead,
      parts, s.launches, fabric, errs, host⟩ := by
  simpa only [CanonicalGlobal, hm, hh] using h

/-- A change of cores, and of anything but cells, host memory and launches. -/
theorem withCores (h : CanonicalGlobal s) (hm : mem.cells = s.mem.cells := by rfl) (hh : host.mem = s.host.mem := by rfl) :
    CanonicalGlobal ⟨ctx, agenda, tick, nextId, cores, ctlb, mem, domtab, bars, seqs, relocs, kvpages, kvwaits, lookahead,
      parts, s.launches, fabric, errs, host⟩ := by
  simpa only [CanonicalGlobal, hm, hh] using h

/-- A change of launches, and of anything but cells, host memory and cores. -/
theorem withLaunches (h : CanonicalGlobal s) (hm : mem.cells = s.mem.cells := by rfl) (hh : host.mem = s.host.mem := by rfl) :
    CanonicalGlobal ⟨ctx, agenda, tick, nextId, s.cores, ctlb, mem, domtab, bars, seqs, relocs, kvpages, kvwaits, lookahead,
      parts, launches, fabric, errs, host⟩ := by
  simpa only [CanonicalGlobal, hm, hh] using h

end

theorem ite {c : Prop} [Decidable c] (h : CanonicalGlobal s) (h' : CanonicalGlobal t) :
    CanonicalGlobal (if c then s else t) := by
  split
  · exact h
  · exact h'

theorem foldl {α : Type} {g : State → α → State} {l : List α} (h : CanonicalGlobal s)
    (hg : ∀ t x, CanonicalGlobal t → CanonicalGlobal (g t x)) : CanonicalGlobal (l.foldl g s) := by
  induction l generalizing s with
  | nil => exact h
  | cons x l ih => exact ih (hg s x h)

/-! A state beside what its computation has found -/

section
variable {α β : Type} {x : β} {p q : State × β}

theorem pair (h : CanonicalGlobal s) : CanonicalGlobal (s, x).1 := h

theorem fst (h : CanonicalGlobal p.1) (e : p = (u, x)) : CanonicalGlobal u := by subst e; exact h

theorem iteFst {c : Prop} [Decidable c] (h : CanonicalGlobal p.1) (h' : CanonicalGlobal q.1) :
    CanonicalGlobal (if c then p else q).1 := by
  split
  · exact h
  · exact h'

theorem foldlFst {g : State × β → α → State × β} {l : List α} (h : CanonicalGlobal p.1)
    (hg : ∀ q x, CanonicalGlobal q.1 → CanonicalGlobal (g q x).1) : CanonicalGlobal (l.foldl g p).1 := by
  induction l generalizing p with
  | nil => exact h
  | cons x l ih => exact ih (hg p x h)

end

/-! ### The writes, and reset -/

theorem reset : CanonicalGlobal State.reset := ⟨State.reset_wf.1, State.reset_wf.2.1⟩

theorem putCells (h : CanonicalGlobal s) {bs} : CanonicalGlobal (s.putCells bs) := ⟨State.putCells_wf s bs h.1, h.2⟩

theorem putCellWord (h : CanonicalGlobal s) {num w v} : CanonicalGlobal (s.putCellWord num w v) :=
  ⟨cellsWrite_wf _ _ _ h.1, h.2⟩

theorem hostBuffer (h : CanonicalGlobal s) {a bs} : CanonicalGlobal (s.hostBuffer a bs) := ⟨h.1, cellsWrite_wf _ _ _ h.2⟩

/-! ### Cores and launches -/

theorem onCore (h : CanonicalGlobal s) {n f} : CanonicalGlobal (s.onCore n f) := h

theorem onThread (h : CanonicalGlobal s) {n t f} : CanonicalGlobal (s.onThread n t f) := h

theorem onCurCore (h : CanonicalGlobal s) {f} : CanonicalGlobal (s.onCurCore f) := h

theorem onLaunch (h : CanonicalGlobal s) {id f} : CanonicalGlobal (s.onLaunch id f) := h

/-! ### Access -/

theorem onCur (h : CanonicalGlobal s) {f} : CanonicalGlobal (s.onCur f) :=
  h.onThread

theorem wr (h : CanonicalGlobal s) {x v} : CanonicalGlobal (s.wr x v) :=
  h.onCur

theorem wv (h : CanonicalGlobal s) {x v} : CanonicalGlobal (s.wv x v) :=
  h.onCur

theorem count (h : CanonicalGlobal s) {n t event k} : CanonicalGlobal (s.count n t event k) :=
  h.onCore

theorem fresh (h : CanonicalGlobal s) : CanonicalGlobal s.fresh.2 :=
  h.same

theorem onPart (h : CanonicalGlobal s) {id f} : CanonicalGlobal (s.onPart id f) :=
  h.same

theorem onSeq (h : CanonicalGlobal s) {part handle f} : CanonicalGlobal (s.onSeq part handle f) :=
  h.same

/-! ### Home -/

theorem setDir (h : CanonicalGlobal s) {num d} : CanonicalGlobal (s.setDir num d) :=
  h.same

theorem setPsn (h : CanonicalGlobal s) {num w b} : CanonicalGlobal (s.setPsn num w b) :=
  .ite h h.setDir

theorem mergeHome (h : CanonicalGlobal s) {num bs} : CanonicalGlobal (s.mergeHome num bs) :=
  h.putCells.foldl fun _ _ k => k.setPsn

theorem onLine (h : CanonicalGlobal s) {agent num f} : CanonicalGlobal (s.onLine agent num f) :=
  h.onCore

theorem dropLine (h : CanonicalGlobal s) {agent num} : CanonicalGlobal (s.dropLine agent num) :=
  h.onCore

theorem useLine (h : CanonicalGlobal s) {agent num} : CanonicalGlobal (s.useLine agent num) := by
  unfold State.useLine
  split
  · exact h
  · exact h.onCore

theorem writeBack (h : CanonicalGlobal s) {l} : CanonicalGlobal (s.writeBack l) :=
  .ite h.mergeHome (.ite (h.foldl fun _ _ k => k.putCellWord.setPsn) ((h.foldl fun _ _ k => k.putCellWord.setPsn).setDir))

theorem allocate (h : CanonicalGlobal s) {agent num sw} : CanonicalSome (s.allocate agent num sw) := by
  unfold State.allocate
  split
  · exact .some h
  · refine .ite (.some h.onCore) ?_
    split
    · exact .some h.writeBack.dropLine.onCore
    · exact .none

theorem snoop (h : CanonicalGlobal s) {halves} : CanonicalGlobal (s.snoop halves) :=
  .ite h h.same

theorem snoopAll (h : CanonicalGlobal s) {pas} : CanonicalGlobal (s.snoopAll pas) :=
  h.foldl fun _ _ k => k.snoop

theorem stripReplies (h : CanonicalGlobal s) {agent num w} : CanonicalGlobal (s.stripReplies agent num w) :=
  h.same

theorem revokeNow (h : CanonicalGlobal s) {num m} : CanonicalGlobal (s.revokeNow num m) := by
  unfold State.revokeNow
  refine .setDir ?_
  refine .foldl h fun _ _ k => ?_
  split
  · exact k
  · exact k.putCellWord.setPsn.stripReplies.onLine

theorem dropPushed (h : CanonicalGlobal s) {agent num id} : CanonicalGlobal (s.dropPushed agent num id) :=
  h.onLine

theorem homeWriteLine (h : CanonicalGlobal s) {num bs} : CanonicalGlobal (s.homeWriteLine num bs) :=
  (h.revokeNow.mergeHome.foldl fun _ _ k => k.dropPushed).setDir

theorem homeWrite (h : CanonicalGlobal s) {bs} : CanonicalGlobal (s.homeWrite bs) :=
  h.foldl fun _ _ k => k.homeWriteLine

theorem homePoison (h : CanonicalGlobal s) {pas} : CanonicalGlobal (s.homePoison pas) :=
  h.foldl fun _ _ k => k.setPsn

theorem onPend (h : CanonicalGlobal s) {n t f} : CanonicalGlobal (s.onPend n t f) :=
  h.onThread

theorem untrack (h : CanonicalGlobal s) {n t id} : CanonicalGlobal (s.untrack n t id) :=
  h.onThread

theorem request (h : CanonicalGlobal s) {r} : CanonicalGlobal (s.request r) :=
  h.same

theorem fillReg (h : CanonicalGlobal s) {r n t a} : CanonicalGlobal (s.fillReg r n t a) := by
  unfold State.fillReg
  refine .ite h.onPend ?_
  refine .ite h ?_
  split
  · exact .ite h.onPend h.onPend.request
  · exact h.onPend.request

theorem fillRegs (h : CanonicalGlobal s) {r} : CanonicalGlobal (s.fillRegs r) :=
  h.foldl fun _ _ k => k.foldl fun _ _ k => k.foldl fun _ _ k => k.fillReg

theorem onReq (h : CanonicalGlobal s) {id line f} : CanonicalGlobal (s.onReq id line f) :=
  h.same

theorem dropReq (h : CanonicalGlobal s) {id line} : CanonicalGlobal (s.dropReq id line) :=
  h.same

theorem sendProbe (h : CanonicalGlobal s) {kind core line words req} :
    CanonicalGlobal (s.sendProbe kind core line words req) := by
  unfold State.sendProbe
  exact .ite h.fresh.same.withCores h.fresh.same.onReq

theorem closeRegs (h : CanonicalGlobal s) {agent} : CanonicalGlobal (s.closeRegs agent) :=
  (h.foldl fun _ _ k => k.foldl fun _ _ k => k.untrack).onCore

theorem invArrived (h : CanonicalGlobal s) {id} : CanonicalGlobal (s.invArrived id) :=
  h.foldl fun _ _ k => k.onCore.closeRegs

theorem serveProbe (h : CanonicalGlobal s) {p} : CanonicalGlobal (s.serveProbe p) := by
  unfold State.serveProbe
  dsimp only
  split
  · exact h.dropPushed.invArrived.same
  · exact h.onReq.same
  · exact h.revokeNow.onReq.same

theorem endHold (h : CanonicalGlobal s) {n handle early} : CanonicalGlobal (s.endHold n handle early) := by
  unfold State.endHold
  refine .ite ?_ ?_
  · refine .onThread ?_
    refine .foldl h.onCore fun _ _ k => ?_
    split
    · exact k.serveProbe
    · exact k
  · refine .foldl h.onCore fun _ _ k => ?_
    split
    · exact k.serveProbe
    · exact k

theorem endHolds (h : CanonicalGlobal s) {n t} : CanonicalGlobal (s.endHolds n t) :=
  h.foldl fun _ _ k => k.endHold

theorem loadLines (h : CanonicalGlobal s) {n t id pas lines} : CanonicalGlobal (s.loadLines n t id pas lines) :=
  (h.count.foldl fun _ _ k => k.request).foldl fun _ _ k => k.useLine

theorem register (h : CanonicalGlobal s) {agent n t num bs words op} :
    CanonicalGlobal (s.register agent n t num bs words op).1 :=
  .pair h.fresh.onCore.request

theorem storeLine (h : CanonicalGlobal s) {n t num bs c} : CanonicalGlobal (s.storeLine n t num bs c).1 := by
  unfold State.storeLine
  extract_lets agent s1
  have h1 : CanonicalGlobal s1 := .ite h.count h
  have h2 : CanonicalSome (if s1.writeAhead agent num && !c then none else s1.allocate agent num (!c)) := .ite .none
    h1.allocate
  generalize (if s1.writeAhead agent num && !c then none else s1.allocate agent num (!c)) = o at h2
  cases o with
  | none => exact h1.register
  | some s2 =>
    have h3 := (h2.of_some rfl).useLine (agent := agent) (num := num)
    refine .iteFst h3.onLine (.foldlFst h3 fun _ _ k => ?_)
    exact .iteFst k.onLine k.register

theorem storeGlobal (h : CanonicalGlobal s) {n t bs c} : CanonicalGlobal (s.storeGlobal n t bs c).1 :=
  h.foldlFst fun _ _ k => k.storeLine

theorem acquire (h : CanonicalGlobal s) {n} : CanonicalGlobal (s.acquire n) :=
  h.onCore.foldl fun _ _ k => k.onCore

/-! ### Members -/

theorem domRequest (h : CanonicalGlobal s) {n v} : CanonicalGlobal (s.domRequest n v).1 := by
  unfold State.domRequest
  split
  · exact .pair h.onCore
  · exact h

theorem onBar (h : CanonicalGlobal s) {k f} : CanonicalGlobal (s.onBar k f) :=
  .ite h.same h.same

/-! ### Translate -/

theorem enterTlb (h : CanonicalGlobal s) {n e} : CanonicalGlobal (s.enterTlb n e) :=
  h.onCore.same

theorem translateRaw (h : CanonicalGlobal s) {n level acc va} : CanonicalGlobal (s.translateRaw n level acc va).1 := by
  unfold State.translateRaw
  split
  · exact h
  · dsimp only
    split
    · exact h
    · split
      · exact h
      · exact h.snoopAll
      · split
        · exact h.enterTlb
        · exact h

theorem fetchPage (h : CanonicalGlobal s) {pa} : CanonicalGlobal (s.fetchPage pa) :=
  h.same

theorem notePage (h : CanonicalGlobal s) {l pa} : CanonicalGlobal (s.notePage l pa) := by
  unfold State.notePage
  split
  · exact .ite h (.ite h.onLaunch h.same.onLaunch)
  · exact h

theorem translate (h : CanonicalGlobal s) {n level acc va} : CanonicalGlobal (s.translate n level acc va).1 := by
  unfold State.translate
  split
  · refine .iteFst ((h.translateRaw.fst ‹_›).fetchPage) ?_
    split
    · exact .iteFst (h.translateRaw.fst ‹_›) (.iteFst ((h.translateRaw.fst ‹_›).notePage) ((h.translateRaw.fst ‹_›).snoop))
    · exact h.translateRaw.fst ‹_›
  · exact h.translateRaw

theorem ctlPut (h : CanonicalGlobal s) {n off b} : CanonicalGlobal (s.ctlPut n off b) := by
  unfold State.ctlPut
  split
  · exact .ite h.same h
  · exact h

theorem ctlWrite (h : CanonicalGlobal s) {n cells} : CanonicalGlobal (s.ctlWrite n cells) := by
  unfold State.ctlWrite
  refine .foldl h fun _ _ k => ?_
  split
  · exact k.ctlPut
  · exact k

theorem reach (h : CanonicalGlobal s) {n level acc va len} : CanonicalGlobal (s.reach n level acc va len).1 := by
  unfold State.reach
  split
  · exact h
  · split <;> exact h.translate.fst ‹_›

theorem checkGlobal (h : CanonicalGlobal s) {n level acc va size} :
    CanonicalGlobal (s.checkGlobal n level acc va size).1 := by
  unfold State.checkGlobal
  dsimp only
  split
  · exact h.reach.fst ‹_›
  · exact h.reach.fst ‹_›
  · refine .iteFst (h.reach.fst ‹_›) ?_
    refine .iteFst (h.reach.fst ‹_›) ?_
    split <;> exact (h.reach.fst ‹_›).reach.fst ‹_›

theorem check (h : CanonicalGlobal s) {n level acc a size} : CanonicalGlobal (s.check n level acc a size).1 := by
  unfold State.check
  dsimp only
  split
  · exact h
  · exact .iteFst h (.iteFst h (.iteFst h h))
  · exact .iteFst h (.iteFst h (.iteFst h h))
  · exact h.checkGlobal

theorem walkPage (h : CanonicalGlobal s) {part acc va} : CanonicalGlobal (s.walkPage part acc va).1 := by
  unfold State.walkPage
  split
  · exact h
  · refine .iteFst h ?_
    split
    · exact h
    · exact h.snoopAll
    · exact h

theorem partPage (h : CanonicalGlobal s) {part acc va} : CanonicalGlobal (s.partPage part acc va).1 := by
  unfold State.partPage
  split
  · exact .iteFst ((h.walkPage.fst ‹_›).fetchPage) (h.walkPage.fst ‹_›)
  · exact h.walkPage

theorem partAll (h : CanonicalGlobal s) {part acc fuel va size} :
    CanonicalGlobal (s.partAll part acc fuel va size).1 := by
  induction fuel generalizing s va size with
  | zero => exact h
  | succ fuel ih =>
    simp only [State.partAll]
    refine .iteFst h ?_
    split
    · exact h.partPage.fst ‹_›
    · split
      · exact (ih (h.partPage.fst ‹_›)).fst ‹_›
      · exact (ih (h.partPage.fst ‹_›)).fst ‹_›
    · split
      · exact (ih (h.partPage.fst ‹_›)).fst ‹_›
      · exact ih (h.partPage.fst ‹_›)

theorem partReach (h : CanonicalGlobal s) {part acc va size} : CanonicalGlobal (s.partReach part acc va size).1 := by
  unfold State.partReach
  split
  · exact .iteFst ((h.partAll.fst ‹_›).snoopAll) (.iteFst ((h.partAll.fst ‹_›).snoop) (h.partAll.fst ‹_›))
  · exact h.partAll

/-! ### Records -/

theorem hostGives (h : CanonicalGlobal s) {num m} : CanonicalGlobal (s.hostGives num m) :=
  .ite h h.setDir

theorem hostTakes (h : CanonicalGlobal s) {num m} : CanonicalGlobal (s.hostTakes num m) := by
  unfold State.hostTakes
  dsimp only
  split
  · exact .setDir (.ite h h.revokeNow)
  · exact .ite h h.revokeNow

theorem hostMerges (h : CanonicalGlobal s) {cxl half bs} : CanonicalGlobal (s.hostMerges cxl half bs) :=
  .ite h.hostGives.homeWriteLine.hostTakes h.hostGives.homeWriteLine

theorem snoopDone (h : CanonicalGlobal s) {half} : CanonicalGlobal (s.snoopDone half) :=
  h.same

theorem hostWriteNow (h : CanonicalGlobal s) {cxl half bs} : CanonicalGlobal (s.hostWriteNow cxl half bs).1 :=
  .iteFst h.fetchPage (.iteFst h.hostMerges h)

theorem hostReplyNow (h : CanonicalGlobal s) {half bytes} : CanonicalGlobal (s.hostReplyNow half bytes).1 :=
  .iteFst h.hostGives.hostMerges.snoopDone (.iteFst h.hostGives.hostMerges.snoopDone.same h)

theorem hostReadNow (h : CanonicalGlobal s) {half} : CanonicalGlobal (s.hostReadNow half).1 :=
  .iteFst h.fetchPage (.iteFst h.same h)

theorem tapEvent (h : CanonicalGlobal s) {part v} : CanonicalGlobal (s.tapEvent part v) :=
  h.onPart

theorem tapNumbered (h : CanonicalGlobal s) {part count tap} : CanonicalGlobal (s.tapNumbered part count tap) := by
  unfold State.tapNumbered
  split
  · exact h.tapEvent
  · exact h

theorem notePages (h : CanonicalGlobal s) {part pas} : CanonicalGlobal (s.notePages part pas) := by
  unfold State.notePages
  refine .foldl h fun _ _ k => ?_
  refine .foldl k fun _ _ k => ?_
  split
  · exact k.notePage
  · exact k

theorem recordAt (h : CanonicalGlobal s) {part a} : CanonicalGlobal (s.recordAt part a).1 := by
  unfold State.recordAt
  refine .iteFst h ?_
  split
  · exact h.partReach.fst ‹_›
  · exact h.partReach.fst ‹_›
  · dsimp only
    split
    · split <;> exact ((h.partReach.fst ‹_›).partReach.fst ‹_›).partReach.fst ‹_›
    · exact (h.partReach.fst ‹_›).partReach.fst ‹_›

theorem lateNow (h : CanonicalGlobal s) {l} : CanonicalGlobal (s.lateNow l).1 := by
  unfold State.lateNow
  split
  · exact .iteFst h.homeWrite h.snoopAll
  · split
    · exact (h.partReach.fst ‹_›).notePages.homeWrite
    · exact h.partReach.fst ‹_›
    · exact h.partReach.fst ‹_›
  · split
    · exact (h.recordAt.fst ‹_›).notePages.homeWrite.tapNumbered
    · exact (h.recordAt.fst ‹_›).tapNumbered
    · exact h.recordAt.fst ‹_›
  · exact h.hostWriteNow
  · exact h.hostReplyNow
  · exact h.hostReadNow

theorem drainList (h : CanonicalGlobal s) {blocked l} : CanonicalGlobal (s.drainList blocked l) := by
  induction l generalizing s blocked with
  | nil => exact h
  | cons x l ih =>
    simp only [State.drainList]
    refine .ite (ih h.same) ?_
    split
    · exact ih (h.lateNow.fst ‹_›)
    · exact ih (h.lateNow.fst ‹_›).same

theorem drain (h : CanonicalGlobal s) : CanonicalGlobal s.drain :=
  h.same.drainList

theorem later (h : CanonicalGlobal s) {part op} : CanonicalGlobal (s.later part op) :=
  h.same.drain

theorem faultRecord (h : CanonicalGlobal s) {part area rec tap} : CanonicalGlobal (s.faultRecord part area rec tap) :=
  h.later

theorem partRecord (h : CanonicalGlobal s) {part rec} : CanonicalGlobal (s.partRecord part rec) := by
  unfold State.partRecord
  split
  · exact h.faultRecord
  · exact h

theorem contextRecord (h : CanonicalGlobal s) {n t kind byte1 pc extra} :
    CanonicalGlobal (s.contextRecord n t kind byte1 pc extra) :=
  h.partRecord

theorem machineRecord (h : CanonicalGlobal s) {part kind unit who pa sstep extra} :
    CanonicalGlobal (s.machineRecord part kind unit who pa sstep extra) :=
  h.partRecord

theorem noteError (h : CanonicalGlobal s) {u} : CanonicalGlobal (s.noteError u) :=
  h.same

theorem seqFault (h : CanonicalGlobal s) {part handle} : CanonicalGlobal (s.seqFault part handle) := by
  unfold State.seqFault
  split
  · exact .ite h.onSeq h.onSeq.later
  · exact h

theorem seqRecord (h : CanonicalGlobal s) {part handle rec tap} : CanonicalGlobal (s.seqRecord part handle rec tap) := by
  unfold State.seqRecord
  split
  · exact h.faultRecord
  · exact h.tapNumbered

theorem faultRequest (h : CanonicalGlobal s) {n t a c v} : CanonicalGlobal (s.faultRequest n t a c v) :=
  .ite h (.onThread (.ite h.seqFault.seqRecord h))

theorem traceDrop (h : CanonicalGlobal s) {part t full} : CanonicalGlobal (s.traceDrop part t full) :=
  h.onPart.later.later

theorem traceRec (h : CanonicalGlobal s) {n t kind pc data} : CanonicalGlobal (s.traceRec n t kind pc data) := by
  unfold State.traceRec
  split
  · exact h
  · split
    · exact h
    · exact .ite h (.ite h.traceDrop (.ite h.traceDrop h.same))

theorem untrace (h : CanonicalGlobal s) {x} : CanonicalGlobal (s.untrace x) :=
  h.same

theorem placeTrace (h : CanonicalGlobal s) {x} : CanonicalGlobal (s.placeTrace x) := by
  unfold State.placeTrace
  split
  · exact h.untrace
  · exact .ite h.untrace.traceDrop (.ite h.snoopAll (.ite h h.untrace.onPart.homeWrite))

theorem traceOut (h : CanonicalGlobal s) : CanonicalGlobal s.traceOut := by
  unfold State.traceOut
  refine .foldl h fun _ _ k => ?_
  split
  · exact .ite k.placeTrace k
  · exact k

theorem traceCut (h : CanonicalGlobal s) {part} : CanonicalGlobal (s.traceCut part) :=
  h.same

/-! ### Ops -/

theorem sticky (h : CanonicalGlobal s) {f} : CanonicalGlobal (s.sticky f) :=
  h.onCur

theorem stickyAt (h : CanonicalGlobal s) {n t f} : CanonicalGlobal (s.stickyAt n t f) :=
  h.onThread

theorem fated (h : CanonicalGlobal s) {f} : CanonicalGlobal (s.fated f) :=
  h.same

theorem stall (h : CanonicalGlobal s) {w} : CanonicalGlobal (s.stall w) :=
  h.onCur.fated

theorem yielded (h : CanonicalGlobal s) : CanonicalGlobal s.yielded :=
  .ite h.onCurCore h

theorem retireTo (h : CanonicalGlobal s) {next} : CanonicalGlobal (s.retireTo next) :=
  h.onCur.yielded.fated

theorem retire (h : CanonicalGlobal s) : CanonicalGlobal s.retire :=
  h.retireTo

theorem jump (h : CanonicalGlobal s) {t} : CanonicalGlobal (s.jump t) :=
  h.onCur.yielded.fated

theorem detach (h : CanonicalGlobal s) {n k} : CanonicalGlobal (s.detach n k) := by
  unfold State.detach
  split
  · exact .ite h h.onCore.onThread
  · exact h

theorem forward (h : CanonicalGlobal s) {dst0 k e} : CanonicalGlobal (s.forward dst0 k e) :=
  h.foldl fun _ _ k => .ite k.onThread k.detach

theorem gangBreak (h : CanonicalGlobal s) {n k} : CanonicalGlobal (s.gangBreak n k) :=
  h.detach.forward

theorem trapAt (h : CanonicalGlobal s) {n t a c v} : CanonicalGlobal (s.trapAt n t a c v) :=
  .traceRec (.gangBreak (.ite h.faultRequest.endHolds.onThread.onCore h.faultRequest.endHolds.onThread))

theorem trap (h : CanonicalGlobal s) {c v} : CanonicalGlobal (s.trap c v) :=
  h.trapAt.fated

theorem privTrap (h : CanonicalGlobal s) : CanonicalGlobal s.privTrap :=
  h.trap

theorem trapReturn (h : CanonicalGlobal s) : CanonicalGlobal s.trapReturn :=
  h.onCur.yielded.fated

theorem track (h : CanonicalGlobal s) {id} : CanonicalGlobal (s.track id) :=
  .ite h h.onCur

theorem trackAll (h : CanonicalGlobal s) {ids} : CanonicalGlobal (s.trackAll ids) :=
  h.foldl fun _ _ k => k.track

theorem lwrite (h : CanonicalGlobal s) {n off bs psn} : CanonicalGlobal (s.lwrite n off bs psn) :=
  .ite h.onCore.onCore h.onCore

theorem poisonRow (h : CanonicalGlobal s) {n row} : CanonicalGlobal (s.poisonRow n row) :=
  h.onCore

theorem deliver (h : CanonicalGlobal s) {n t dest fmt bs} : CanonicalGlobal (s.deliver n t dest fmt bs) :=
  h.onThread

theorem addPend (h : CanonicalGlobal s) {a} : CanonicalGlobal (s.addPend a) :=
  h.onCur

theorem issueValue (h : CanonicalGlobal s) {kind dest fmt bs flags} :
    CanonicalGlobal (s.issueValue kind dest fmt bs flags) :=
  h.fresh.addPend.track.retire

theorem issueWord (h : CanonicalGlobal s) {kind rd v flags} : CanonicalGlobal (s.issueWord kind rd v flags) :=
  h.issueValue

theorem tagLate (h : CanonicalGlobal s) : CanonicalGlobal s.tagLate :=
  .ite h h.fresh.addPend.track

theorem unpend (h : CanonicalGlobal s) {n t id} : CanonicalGlobal (s.unpend n t id) :=
  h.onPend

theorem land (h : CanonicalGlobal s) {n t a} : CanonicalGlobal (s.land n t a) :=
  .ite (.ite h.unpend.trapAt h.unpend.onThread) (.ite h.unpend.untrack.onThread h.unpend.untrack.deliver.stickyAt)

theorem sign (h : CanonicalGlobal s) {n t v} : CanonicalGlobal (s.sign n t v) := by
  unfold State.sign
  split
  · exact .ite h.onThread h
  · exact h

theorem lands (h : CanonicalGlobal s) {n t a} : CanonicalGlobal (s.lands n t a) :=
  .ite h.land.sign h.land

theorem landUnder (h : CanonicalGlobal s) {n t dest} : CanonicalGlobal (s.landUnder n t dest) :=
  h.foldl fun _ _ k => .ite k.lands k

theorem sendRemote (h : CanonicalGlobal s) {n t pa size op store async cmd} :
    CanonicalGlobal (s.sendRemote n t pa size op store async cmd).1 :=
  h.fresh.same

theorem readRemote (h : CanonicalGlobal s) {n t id pas} : CanonicalGlobal (s.readRemote n t id pas) :=
  h.foldl fun _ _ k => k.sendRemote

theorem gather (h : CanonicalGlobal s) {n t id ps} : CanonicalGlobal (s.gather n t id ps).1 :=
  .readRemote (.ite h h.loadLines)

theorem acquireIf (h : CanonicalGlobal s) {b} : CanonicalGlobal (s.acquireIf b) :=
  .ite h.acquire h

theorem checkCur (h : CanonicalGlobal s) {acc a size} : CanonicalGlobal (s.checkCur acc a size).1 :=
  h.check

theorem loadPlaces (h : CanonicalGlobal s) {kind ps a dest fmt acq} :
    CanonicalGlobal (s.loadPlaces kind ps a dest fmt acq) :=
  .ite (.ite h.trap (.ite h.landUnder.deliver.acquireIf.retire h.landUnder.deliver.acquireIf.retire.tagLate))
    (.ite h.stall (.ite (.ite h.fresh.gather.trap h.fresh.gather.deliver.acquireIf.retire)
    (.ite h.fresh.gather.addPend.stall h.fresh.gather.addPend.track.retire)))

theorem load (h : CanonicalGlobal s) {a size dest fmt acq} : CanonicalGlobal (s.load a size dest fmt acq) := by
  unfold State.load
  split
  · exact h.stall
  · exact h.deliver.acquireIf.retire
  · split
    · exact (h.checkCur.fst ‹_›).trap
    · exact (h.checkCur.fst ‹_›).stall
    · exact (h.checkCur.fst ‹_›).loadPlaces

theorem storePlaces (h : CanonicalGlobal s) {n t ps bs} : CanonicalGlobal (s.storePlaces n t ps bs).1 := by
  unfold State.storePlaces
  extract_lets qs
  generalize qs = qs
  match qs with
  | [] => exact .foldlFst h.ctlWrite.storeGlobal fun _ _ k => k.sendRemote
  | .own off :: _ => exact h.lwrite
  | .peer m off :: _ => exact .iteFst h.lwrite h
  | .glob .. :: _ => exact .foldlFst h.ctlWrite.storeGlobal fun _ _ k => k.sendRemote
  | .fab .. :: _ => exact .foldlFst h.ctlWrite.storeGlobal fun _ _ k => k.sendRemote
  | .ctl .. :: _ => exact .foldlFst h.ctlWrite.storeGlobal fun _ _ k => k.sendRemote

theorem store (h : CanonicalGlobal s) {a bs rel} : CanonicalGlobal (s.store a bs rel) := by
  unfold State.store
  split
  · exact (h.checkCur.fst ‹_›).trap
  · exact (h.checkCur.fst ‹_›).stall
  · exact .ite ((h.checkCur.fst ‹_›).stall) (.ite ((h.checkCur.fst ‹_›).stall)
      (.ite ((h.checkCur.fst ‹_›).stall) ((h.checkCur.fst ‹_›).storePlaces.trackAll.retire)))

theorem failure (h : CanonicalGlobal s) {p v u} (e : s.failure p = some (v, u)) : CanonicalGlobal u := by
  obtain ⟨x, -, hx⟩ := Option.bind_eq_some_iff.mp e
  obtain ⟨y, -, hy⟩ := Option.map_eq_some_iff.mp hx
  cases hy
  exact h.onCurCore

theorem mergeFlags (h : CanonicalGlobal s) {f} : CanonicalGlobal (s.mergeFlags f) :=
  h.onCurCore.sticky

/-! ### Flags -/

theorem rounding (h : CanonicalGlobal s) {r k} (hk : ∀ a, CanonicalGlobal (k a)) : CanonicalGlobal (s.rounding r k) := by
  unfold State.rounding
  split
  · exact hk _
  · exact h.trap

theorem roundingIf (h : CanonicalGlobal s) {needed r k} (hk : ∀ a, CanonicalGlobal (k a)) :
    CanonicalGlobal (s.roundingIf needed r k) :=
  .ite (h.rounding fun _ => (hk _)) (hk _)

/-! ### Operands -/

theorem writeGroup (h : CanonicalGlobal s) {v k bs} : CanonicalGlobal (s.writeGroup v k bs) :=
  h.foldl fun _ _ k => k.wv

theorem done (h : CanonicalGlobal s) {rd r} : CanonicalGlobal (s.done rd r) :=
  h.wr.sticky.retire

theorem doneLate (h : CanonicalGlobal s) {rd r} : CanonicalGlobal (s.doneLate rd r) :=
  h.landUnder.done.tagLate

theorem doneV (h : CanonicalGlobal s) {vd r} : CanonicalGlobal (s.doneV vd r) :=
  h.landUnder.wv.sticky.retire.tagLate

theorem doneGroup (h : CanonicalGlobal s) {vd bs f} : CanonicalGlobal (s.doneGroup vd bs f) :=
  h.landUnder.writeGroup.sticky.retire.tagLate

/-! ### Integer -/

theorem alu (h : CanonicalGlobal s) {signed w sat f rd ra rb} : CanonicalGlobal (s.alu signed w sat f rd ra rb) :=
  h.done

theorem aluLate (h : CanonicalGlobal s) {signed w sat f rd ra rb} : CanonicalGlobal (s.aluLate signed w sat f rd ra rb) :=
  h.doneLate

theorem logic (h : CanonicalGlobal s) {f rd ra rb} : CanonicalGlobal (s.logic f rd ra rb) :=
  h.done

theorem shift (h : CanonicalGlobal s) {k w rd ra rb} : CanonicalGlobal (s.shift k w rd ra rb) :=
  h.done

theorem bitsOp (h : CanonicalGlobal s) {w f rd ra} : CanonicalGlobal (s.bitsOp w f rd ra) :=
  h.done

/-! ### Memory -/

theorem atomicLocal (h : CanonicalGlobal s) {n off size op} : CanonicalGlobal (s.atomicLocal n off size op).1 := by
  unfold State.atomicLocal
  refine .iteFst h ?_
  split
  · exact h.lwrite
  · exact h

theorem atomicPeer (h : CanonicalGlobal s) {k off size op} : CanonicalGlobal (s.atomicPeer k off size op).1 := by
  unfold State.atomicPeer
  refine .iteFst h.atomicLocal ?_
  dsimp only
  split
  · exact .ite h.lwrite h
  · exact h

theorem atomicKnown (h : CanonicalGlobal s) {a rd dbl old psn acq} : CanonicalGlobal (s.atomicKnown a rd dbl old psn acq) :=
  .ite (.ite h.trap h.deliver.sign.acquire.retire) h.fresh.addPend.track.retire

theorem atomic (h : CanonicalGlobal s) {rd ra dbl ord op} : CanonicalGlobal (s.atomic rd ra dbl ord op) := by
  unfold State.atomic
  dsimp only
  split
  · exact h.stall
  · exact h.atomicKnown
  · refine .ite h.trap ?_
    split
    · exact (h.checkCur.fst ‹_›).trap
    · exact (h.checkCur.fst ‹_›).stall
    · refine .ite ((h.checkCur.fst ‹_›).stall) ?_
      refine .ite ((h.checkCur.fst ‹_›).stall) ?_
      split
      · exact (h.checkCur.fst ‹_›).atomicLocal.atomicKnown
      · exact (h.checkCur.fst ‹_›).atomicPeer.atomicKnown
      · exact .ite ((h.checkCur.fst ‹_›).stall) (.ite ((h.checkCur.fst ‹_›).fresh.useLine.register.addPend.stall)
          ((h.checkCur.fst ‹_›).fresh.useLine.register.addPend.track.retire))
      · exact .ite ((h.checkCur.fst ‹_›).fresh.sendRemote.addPend.stall)
          ((h.checkCur.fst ‹_›).fresh.sendRemote.addPend.track.retire)
      · refine .atomicKnown ?_
        split
        · exact (h.checkCur.fst ‹_›).ctlWrite
        · exact h.checkCur.fst ‹_›
      · exact (h.checkCur.fst ‹_›).retire

theorem gatherConst (h : CanonicalGlobal s) {n t id ps} : CanonicalGlobal (s.gatherConst n t id ps).1 :=
  .pair (((h.foldl fun _ _ k => k.request).foldl fun _ _ k => k.onCore).readRemote)

theorem paramLoad (h : CanonicalGlobal s) {rd w o size fmt} : CanonicalGlobal (s.paramLoad rd w o size fmt) := by
  unfold State.paramLoad
  refine .ite (.ite h.stall h.fresh.gatherConst.addPend.track.retire) ?_
  refine .ite h.trap ?_
  split
  · exact (h.checkGlobal.fst ‹_›).trap
  · exact (h.checkGlobal.fst ‹_›).stall
  · exact .ite ((h.checkGlobal.fst ‹_›).stall) ((h.checkGlobal.fst ‹_›).fresh.gatherConst.addPend.track.retire)

theorem askWindow (h : CanonicalGlobal s) {pas} : CanonicalGlobal (s.askWindow pas) :=
  h.foldl fun _ _ k => .ite k k.sendRemote.onCur

theorem seeOne (h : CanonicalGlobal s) {a size} : CanonicalGlobal (s.seeOne a size).1 := by
  unfold State.seeOne
  split
  · exact h.checkCur.fst ‹_›
  · exact h.checkCur.fst ‹_›
  · dsimp only
    split
    · exact (h.checkCur.fst ‹_›).askWindow.snoopAll
    · exact h.checkCur.fst ‹_›

theorem seeList (h : CanonicalGlobal s) {a size n} : CanonicalGlobal (s.seeList a size n).1 := by
  induction n with
  | zero => exact h
  | succ n ih =>
    simp only [State.seeList]
    split
    · have k := (ih.fst ‹_›).seeOne (a := a + BitVec.ofNat 64 (size * n)) (size := size)
      split
      · exact k.fst ‹_›
      · exact k
    · exact ih

theorem waitSees (h : CanonicalGlobal s) {rd cond size acq ps b a bs} :
    CanonicalGlobal (s.waitSees rd cond size acq ps b a bs) :=
  .ite h.wr.sign.acquireIf.retire h.stall

theorem waitLook (h : CanonicalGlobal s) {rd cond size acq l1 ps b a} :
    CanonicalGlobal (s.waitLook rd cond size acq l1 ps b a) := by
  unfold State.waitLook
  refine .ite (.ite h.stall h.fresh.readRemote.addPend.stall) ?_
  split
  · exact h.snoopAll.stall
  · exact .ite h.trap h.waitSees

theorem touchAll (h : CanonicalGlobal s) {ps} : CanonicalGlobal (s.touchAll ps) :=
  h.foldl fun _ _ k => k.useLine

theorem execWaitw (h : CanonicalGlobal s) {rd ra rb cond dbl acq} : CanonicalNext (execWaitw rd ra rb cond dbl acq s) := by
  unfold Machine.execWaitw
  refine .next ?_
  split
  · exact .ite h.waitLook h.stall
  · exact h.stall
  · exact h.waitSees
  · refine .ite h.trap ?_
    split
    · exact (h.checkCur.fst ‹_›).trap
    · exact (h.checkCur.fst ‹_›).stall
    · exact (h.checkCur.fst ‹_›).touchAll.waitLook

/-! ### SysRegs -/

theorem writeDmap (h : CanonicalGlobal s) {n t v} : CanonicalGlobal (s.writeDmap n t v) :=
  h.onThread

theorem writePwb (h : CanonicalGlobal s) {n t k size v} : CanonicalGlobal (s.writePwb n t k size v) :=
  h.onThread.onCore

theorem writeHoldst (h : CanonicalGlobal s) {n t v} : CanonicalGlobal (s.writeHoldst n t v) :=
  h.onThread

theorem writeDom (h : CanonicalGlobal s) {n v} : CanonicalGlobal (s.writeDom n v) :=
  h.domRequest

theorem onSp (h : CanonicalGlobal s) {n t f} : CanonicalGlobal (s.onSp n t f) :=
  h.onThread

theorem onTrap (h : CanonicalGlobal s) {n t f} : CanonicalGlobal (s.onTrap n t f) :=
  h.onThread

theorem onRegs (h : CanonicalGlobal s) {n f} : CanonicalGlobal (s.onRegs n f) :=
  h.onCore

theorem onCorePart (h : CanonicalGlobal s) {n f} : CanonicalGlobal (s.onCorePart n f) := by
  unfold State.onCorePart
  split
  · exact h.onPart
  · exact h

theorem onCoreLaunch (h : CanonicalGlobal s) {n f} : CanonicalGlobal (s.onCoreLaunch n f) := by
  unfold State.onCoreLaunch
  split
  · exact h.onLaunch
  · exact h

theorem setCycle (h : CanonicalGlobal s) {n v} : CanonicalGlobal (s.setCycle n v) :=
  h.onCore

theorem sysWrite (h : CanonicalGlobal s) {n t r v} : CanonicalGlobal (s.sysWrite n t r v) := by
  unfold State.sysWrite
  split
  · exact h
  · exact h
  · exact h
  · exact h
  · exact h
  · exact h
  · exact h
  · exact h.setCycle
  · exact h.onSp
  · exact h.onSp
  · exact h.onSp
  · exact h.onSp
  · exact h.onThread
  · exact h.onThread
  · exact h.onThread
  · exact h.onThread
  · exact h.onThread
  · exact h.onThread
  · exact h.writeDom
  · exact h.onRegs
  · exact h.onRegs
  · exact h.writeHoldst
  · exact h.onTrap
  · exact h.onTrap
  · exact h.onTrap
  · exact h.onTrap
  · exact h.onTrap
  · exact h.onTrap
  · exact h.writeDmap
  · exact h.writePwb
  · exact h.writePwb
  · exact h.onRegs
  · exact h.onRegs
  · exact h.onCorePart
  · exact h.onCoreLaunch
  · exact h.onCoreLaunch
  · exact h.onCore
  · exact h.onSp
  · exact h.onCorePart
  · exact h.onSp

/-! ### System -/

theorem execRsr (h : CanonicalGlobal s) {rd num} : CanonicalNext (execRsr rd num s) := by
  unfold Machine.execRsr
  refine .next ?_
  split
  · exact h.trap
  · exact h.wr.retire

theorem wsr (h : CanonicalGlobal s) {num v} : CanonicalGlobal (s.wsr num v) := by
  unfold State.wsr
  split
  · exact h.trap
  · exact h.sysWrite.retire

theorem tfence (h : CanonicalGlobal s) : CanonicalGlobal s.tfence :=
  .ite h.trap h.retire

theorem waitTags (h : CanonicalGlobal s) {mask next} (hnext : ∀ t, CanonicalGlobal t → CanonicalGlobal (next t)) :
    CanonicalGlobal (s.waitTags mask next) := by
  unfold State.waitTags
  refine .ite h.stall ?_
  split
  · exact (h.failure ‹_›).trap
  · exact hnext _ h.mergeFlags

theorem execDep (h : CanonicalGlobal s) {yield mask tag} : CanonicalNext (execDep yield mask tag s) := by
  unfold Machine.execDep
  refine .next ?_
  split
  · exact h.waitTags fun _ k => k.same
  · exact h.waitTags fun _ k => k.same
  · exact h.same

theorem dmapTake (h : CanonicalGlobal s) {rd k l bs} : CanonicalGlobal (s.dmapTake rd k l bs) :=
  .ite h.onLaunch.wr.retire h.wr.retire

theorem execDmapld (h : CanonicalGlobal s) {rd ra third} : CanonicalNext (execDmapld rd ra third s) := by
  unfold Machine.execDmapld
  refine .next ?_
  refine .ite h.privTrap ?_
  split
  · exact h.wr.retire
  · refine .ite h.wr.retire ?_
    refine .ite h.stall ?_
    split
    · exact (h.seeList.fst ‹_›).trap
    · exact (h.seeList.fst ‹_›).stall
    · exact (h.seeList.fst ‹_›).dmapTake

/-! ### Async -/

theorem takePoison (h : CanonicalGlobal s) {n t} : CanonicalSome (s.takePoison n t) :=
  .ite .none (.map fun _ => h.onThread.trapAt)

theorem takeTap (h : CanonicalGlobal s) {p} : CanonicalSome (s.takeTap p) := by
  unfold State.takeTap
  split
  · exact .ite (.some h.onPart.trapAt) .none
  · exact .none

theorem takeBudget (h : CanonicalGlobal s) {n t} : CanonicalSome (s.takeBudget n t) :=
  .ite (.some h.trapAt) .none

theorem takeAsync (h : CanonicalGlobal s) {n t} : CanonicalSome (s.takeAsync n t) := by
  unfold State.takeAsync
  split
  · exact .some (h.takePoison.of_some ‹_›)
  · dsimp only
    split
    · exact .some (CanonicalSome.of_some (.bind fun _ => .ite h.takeTap .none) ‹_›)
    · exact h.takeBudget

/-! ### Engine -/

theorem onQueue (h : CanonicalGlobal s) {n e f} : CanonicalGlobal (s.onQueue n e f) :=
  h.onCore

theorem onCmd (h : CanonicalGlobal s) {n e id f} : CanonicalGlobal (s.onCmd n e id f) :=
  h.onQueue

theorem enter (h : CanonicalGlobal s) {e c} : CanonicalGlobal (s.enter e c) :=
  h.fresh.onQueue.track.retire

theorem command (h : CanonicalGlobal s) {e bad c} : CanonicalGlobal (s.command e bad c) := by
  unfold State.command
  refine .ite h.stall ?_
  split
  · exact h.trap
  · exact h.enter

theorem ran (h : CanonicalGlobal s) {n e id fail flags} : CanonicalGlobal (s.ran n e id fail flags) :=
  h.onCmd

theorem onAnyCmd (h : CanonicalGlobal s) {n id f} : CanonicalGlobal (s.onAnyCmd n id f) :=
  h.foldl fun _ _ k => k.onCmd

theorem fetchAway (h : CanonicalGlobal s) {n c pas} : CanonicalGlobal (s.fetchAway n c pas) :=
  h.foldl fun _ _ k => .ite k k.sendRemote.onAnyCmd

theorem sendOut (h : CanonicalGlobal s) {n c} : CanonicalGlobal (s.sendOut n c) :=
  h.foldl fun _ _ k => .ite k k.sendRemote.onAnyCmd

/-! ### Copy -/

theorem copy (h : CanonicalGlobal s) {i bad d a b c x} : CanonicalGlobal (s.copy i bad d a b c x) :=
  h.command

theorem pages (h : CanonicalGlobal s) {n level acc fuel va len} :
    CanonicalGlobal (s.pages n level acc fuel va len).1 := by
  induction fuel generalizing s va len with
  | zero => exact h
  | succ fuel ih =>
    simp only [State.pages]
    refine .iteFst h ?_
    split
    · exact h.reach.fst ‹_›
    · exact ih (h.reach.fst ‹_›)
    · exact ih (h.reach.fst ‹_›)

theorem endpoint (h : CanonicalGlobal s) {n level acc a len} : CanonicalGlobal (s.endpoint n level acc a len).1 := by
  unfold State.endpoint
  split
  · exact h
  · exact h
  · exact h
  · exact h.pages

theorem dropOwn (h : CanonicalGlobal s) {n pas} : CanonicalGlobal (s.dropOwn n pas) :=
  h.foldl fun _ _ k => k.onLine

theorem engineGlobal (h : CanonicalGlobal s) {n bs} : CanonicalGlobal (s.engineGlobal n bs) :=
  (h.homeWrite.dropOwn.foldl fun _ _ k => k.mergeHome).homePoison

theorem engineAway (h : CanonicalGlobal s) {n id bs} : CanonicalGlobal (s.engineAway n id bs) :=
  .ite h h.onAnyCmd

theorem engineLocal (h : CanonicalGlobal s) {k off bs} : CanonicalGlobal (s.engineLocal k off bs) :=
  h.lwrite.foldl fun _ _ k => k.poisonRow

theorem engineWrite (h : CanonicalGlobal s) {n id ps bs} : CanonicalGlobal (s.engineWrite n id ps bs) := by
  unfold State.engineWrite
  split
  · exact h
  · exact h.engineLocal
  · exact .ite h.engineLocal h
  · exact h.ctlWrite.engineGlobal.engineAway

theorem move (h : CanonicalGlobal s) {n c dst src len} : CanonicalGlobal (s.move n c dst src len).1 := by
  unfold State.move
  refine .iteFst h.endpoint.endpoint ?_
  refine .iteFst h.endpoint.endpoint.snoopAll ?_
  refine .iteFst h.endpoint.endpoint ?_
  dsimp only
  split <;> exact h.endpoint.endpoint.engineWrite

theorem moves (h : CanonicalGlobal s) {n c l} : CanonicalGlobal (s.moves n c l).1 := by
  induction l generalizing s with
  | nil => exact h
  | cons x l ih =>
    simp only [State.moves]
    split
    · exact ih (h.move.fst ‹_›)
    · exact h.move

theorem gatherMoves (h : CanonicalGlobal s) {n c size l} : CanonicalGlobal (s.gatherMoves n c size l).1 := by
  induction l generalizing s with
  | nil => exact h
  | cons x l ih =>
    simp only [State.gatherMoves]
    refine .iteFst h ?_
    split
    · exact h
    · split
      · exact ih (h.move.fst ‹_›)
      · exact h.move

theorem waits (h : CanonicalGlobal s) {r'} : CanonicalGlobal (s.waits r') :=
  h.same

theorem runCopy (h : CanonicalGlobal s) {n c} : CanonicalGlobal (s.runCopy n c).1 := by
  unfold State.runCopy
  split
  · exact h.moves
  · exact h.moves
  · exact h.moves
  · exact h.moves
  · exact h.gatherMoves
  · exact h

theorem notify (h : CanonicalGlobal s) {n id level a bs} : CanonicalGlobal (s.notify n id level a bs).1 := by
  unfold State.notify
  refine .iteFst h.endpoint ?_
  split
  · exact h.endpoint
  · exact .iteFst h.endpoint.snoopAll h.endpoint.engineWrite

/-! ### FloatScalar -/

theorem float2 (h : CanonicalGlobal s) {t rm op rd ra rb} : CanonicalGlobal (s.float2 t rm op rd ra rb) :=
  h.rounding fun _ => h.doneLate

theorem floatLate (h : CanonicalGlobal s) {t rd r} : CanonicalGlobal (s.floatLate t rd r) := by
  unfold State.floatLate
  split
  · exact h.issueWord
  · exact h.doneLate

theorem execCvt (h : CanonicalGlobal s) {rd ra c rm} : CanonicalNext (execCvt rd ra c rm s) := by
  unfold Machine.execCvt
  refine .next ?_
  split
  · exact h.roundingIf fun _ => h.doneLate
  · exact h.roundingIf fun _ => h.doneLate
  · exact h.rounding fun _ => h.doneLate

/-! ### Simd -/

theorem lane2 (h : CanonicalGlobal s) {t rm op vd va vb} : CanonicalGlobal (s.lane2 t rm op vd va vb) :=
  h.roundingIf fun _ => h.doneV

/-! ### Stream -/

theorem setPtr (h : CanonicalGlobal s) {k p} : CanonicalGlobal (s.setPtr k p) :=
  h.onCur

theorem advance (h : CanonicalGlobal s) {roles seen} : CanonicalGlobal (s.advance roles seen) := by
  induction roles generalizing s seen with
  | nil => exact h
  | cons r roles ih =>
    simp only [State.advance]
    exact .ite (ih h) (ih h.setPtr)

theorem stream (h : CanonicalGlobal s) {rs c} : CanonicalGlobal (s.stream rs c) := by
  unfold State.stream
  refine .ite h.stall ?_
  split
  · exact h.trap
  · exact h.advance.enter

theorem stream3 (h : CanonicalGlobal s) {i needed rm sd sa sb rc x t} :
    CanonicalGlobal (s.stream3 i needed rm sd sa sb rc x t) :=
  h.roundingIf fun _ => h.stream

theorem stream2 (h : CanonicalGlobal s) {i needed rm sd sa rc x t md} :
    CanonicalGlobal (s.stream2 i needed rm sd sa rc x t md) :=
  h.roundingIf fun _ => h.stream

theorem putElem (h : CanonicalGlobal s) {n p e j v psn} : CanonicalGlobal (s.putElem n p e j v psn) :=
  h.lwrite

theorem run1Close {r : Run1} (h : CanonicalGlobal r.s) {n ps j psn} : CanonicalGlobal (r.close n ps j psn).s := by
  unfold Run1.close
  split
  · exact h
  · extract_lets fresh bad row
    split
    · exact h.onCore
    · exact h

theorem elements (h : CanonicalGlobal s) {n ps count f} : CanonicalGlobal (s.elements n ps count f).1 := by
  have fold (l : List Nat) (g : Run1 → Nat → Run1) (hg : ∀ r k, CanonicalGlobal r.s → CanonicalGlobal (g r k).s)
      (r : Run1) (hr : CanonicalGlobal r.s) : CanonicalGlobal (l.foldl g r).s := by
    induction l generalizing r with
    | nil => exact hr
    | cons x l ih => exact ih _ (hg r x hr)
  refine fold _ _ (fun r k hr => ?_) _ h
  dsimp only
  split
  · exact hr
  · exact run1Close (CanonicalGlobal.putElem hr)

theorem reduceStream (h : CanonicalGlobal s) {n d t rm count term} :
    CanonicalGlobal (s.reduceStream n d t rm count term).1 :=
  h.putElem

theorem run2 (h : CanonicalGlobal s) {n c t count f} : CanonicalGlobal (s.run2 n c t count f).1 := by
  unfold State.run2
  split
  · exact h.elements
  · exact h

theorem run1 (h : CanonicalGlobal s) {n c t count f} : CanonicalGlobal (s.run1 n c t count f).1 := by
  unfold State.run1
  split
  · exact h.elements
  · exact h

theorem runCvt (h : CanonicalGlobal s) {n c dt st sat rm count} : CanonicalGlobal (s.runCvt n c dt st sat rm count).1 := by
  unfold State.runCvt
  split
  · exact h.elements
  · exact h.elements
  · exact h.elements
  · exact h

theorem runStream (h : CanonicalGlobal s) {n c} : CanonicalGlobal (s.runStream n c).1 := by
  unfold State.runStream
  dsimp only
  split
  · exact h.run2
  · exact h.run2
  · exact h.run2
  · split
    · exact h.elements
    · exact h
  · exact h.run2
  · exact h.run2
  · exact h.run2
  · exact h.run1
  · split
    · exact h.reduceStream
    · exact h
  · split
    · exact h.reduceStream
    · exact h
  · exact h.run1
  · split
    · exact h.elements
    · exact h
  · exact h.runCvt
  · exact h

/-! ### Matrix -/

theorem onMat (h : CanonicalGlobal s) {n f} : CanonicalGlobal (s.onMat n f) :=
  h.onCore

theorem matrix (h : CanonicalGlobal s) {i d a b c} : CanonicalGlobal (s.matrix i d a b c) :=
  h.command

theorem mxaRow (h : CanonicalGlobal s) {n fmt a split c es r} : CanonicalGlobal (s.mxaRow n fmt a split c es r) :=
  .ite h h.onMat

theorem mxChecksum (h : CanonicalGlobal s) {n c rows written} : CanonicalGlobal (s.mxChecksum n c rows written) :=
  .ite h (.ite (h.noteError.onMat.foldl fun _ _ k => .ite k.onMat k) h.noteError.onMat)

theorem runMxa (h : CanonicalGlobal s) {n who fmt jn split c a rows t} :
    CanonicalGlobal (s.runMxa n who fmt jn split c a rows t).1 := by
  unfold State.runMxa
  refine .iteFst h ?_
  refine .iteFst h ?_
  split
  · exact h
  · exact .pair ((h.foldl fun _ _ k => k.mxaRow).mxChecksum.count)

theorem mxdRow (h : CanonicalGlobal s) {n fmt clr a c r} : CanonicalGlobal (s.mxdRow n fmt clr a c r) :=
  h.lwrite.onMat

theorem runMatrix (h : CanonicalGlobal s) {n c} : CanonicalGlobal (s.runMatrix n c).1 := by
  unfold State.runMatrix
  split
  · exact h
  · split
    · exact .pair h.onMat
    · exact .pair h.onMat
    · exact h.runMxa
    · exact .pair (h.foldl fun _ _ k => k.mxdRow)
    · exact .pair (h.foldl fun _ _ k => k.onMat)
    · exact .pair h.onMat
    · exact h

theorem execMxrem (h : CanonicalGlobal s) {rd ra rb} : CanonicalNext (execMxrem rd ra rb s) := by
  unfold Machine.execMxrem
  refine .next ?_
  refine .ite h.trap ?_
  refine .ite h.trap ?_
  split
  · exact h.trap
  · exact h.fresh.addPend.onCore.track.retire

theorem supply (h : CanonicalGlobal s) {n t id v} : CanonicalGlobal (s.supply n t id v) :=
  h.onPend

theorem execMxremArrival (h : CanonicalGlobal s) {core} : CanonicalNext (execMxremArrival core s) := by
  unfold Machine.execMxremArrival
  refine .next ?_
  split
  · exact h
  · refine .ite h ?_
    refine .supply ?_
    split
    · exact h.onCore.onQueue
    · exact h.onCore

/-! ### CoreControl -/

theorem qfenceEnd (h : CanonicalGlobal s) {mask} : CanonicalGlobal (s.qfenceEnd mask) := by
  unfold State.qfenceEnd
  split
  · exact (h.failure ‹_›).trap
  · exact h.mergeFlags.acquire.retire

theorem setSlot (h : CanonicalGlobal s) {n k g} : CanonicalGlobal (s.setSlot n k g) :=
  h.onCore

theorem setWait (h : CanonicalGlobal s) {n t w} : CanonicalGlobal (s.setWait n t w) :=
  h.onThread

theorem leaveRejoin (h : CanonicalGlobal s) {k ms} : CanonicalGlobal (s.leaveRejoin k ms) :=
  h.foldl fun _ _ k => .ite k.setWait k

theorem gangEnd (h : CanonicalGlobal s) {n k} : CanonicalGlobal (s.gangEnd n k) :=
  .ite (h.leaveRejoin.setSlot.foldl fun _ _ k => k.setSlot) h

theorem gangLeave (h : CanonicalGlobal s) {n k} : CanonicalGlobal (s.gangLeave n k) :=
  .ite h.setSlot.onThread h

theorem rejoinLeader (h : CanonicalGlobal s) {n k} : CanonicalGlobal (s.rejoinLeader n k) :=
  .ite ((h.foldl fun _ _ k => k.setSlot).retire) h.stall

theorem rejoinAlone (h : CanonicalGlobal s) {leader n k} : CanonicalGlobal (s.rejoinAlone leader n k) :=
  .ite h.leaveRejoin.retire h.stall

theorem execRejoin (h : CanonicalGlobal s) : CanonicalNext (execRejoin s) := by
  unfold Machine.execRejoin
  refine .next ?_
  split
  · exact h.retire
  · exact .ite h.retire (.ite h.rejoinLeader (.ite h.rejoinAlone h.stall))

theorem checkpoint (h : CanonicalGlobal s) {n} : CanonicalGlobal (s.checkpoint n) :=
  h.onCore

theorem rollback (h : CanonicalGlobal s) {n} : CanonicalGlobal (s.rollback n) :=
  h.noteError.onCore.onCore

theorem lineOp (h : CanonicalGlobal s) {ra f} (hf : ∀ t, CanonicalGlobal t → ∀ b c, CanonicalGlobal (f t b c)) :
    CanonicalGlobal (s.lineOp ra f) := by
  unfold State.lineOp
  split
  · exact (h.checkCur.fst ‹_›).trap
  · exact (h.checkCur.fst ‹_›).stall
  · exact hf _ (h.checkCur.fst ‹_›) _ _
  · exact (h.checkCur.fst ‹_›).retire

theorem cleanLine (h : CanonicalGlobal s) {agent num} : CanonicalGlobal (s.cleanLine agent num) := by
  unfold State.cleanLine
  split
  · exact h
  · exact h.mergeHome.onLine

theorem dropV (h : CanonicalGlobal s) {agent num} : CanonicalGlobal (s.dropV agent num) :=
  h.onLine

/-! ### Fetch -/

theorem useIline (h : CanonicalGlobal s) {n num} : CanonicalGlobal (s.useIline n num) := by
  unfold State.useIline
  split
  · exact h
  · exact h.onCore

theorem captureBlock (h : CanonicalGlobal s) {n t level b} : CanonicalGlobal (s.captureBlock n t level b).1 := by
  unfold State.captureBlock
  split
  · exact .iteFst h h
  · refine .iteFst h ?_
    split
    · exact h.translate.fst ‹_›
    · exact h.translate.fst ‹_›
    · split
      · exact (h.translate.fst ‹_›).useIline
      · exact .iteFst (h.translate.fst ‹_›) (.pair ((h.translate.fst ‹_›).onCore.count))
  · exact h

theorem setBuf (h : CanonicalGlobal s) {n t b} : CanonicalGlobal (s.setBuf n t b) :=
  h.onThread

theorem fillBuf (h : CanonicalGlobal s) {n t} : CanonicalGlobal (s.fillBuf n t) := by
  unfold State.fillBuf
  refine .setBuf ?_
  refine .iteFst ?_ ?_
  · refine .pair ?_
    refine .iteFst h.setBuf ?_
    split <;> exact h.setBuf.captureBlock.fst ‹_›
  · refine .iteFst ?_ ?_
    · refine .pair ?_
      refine .iteFst h.setBuf ?_
      split <;> exact h.setBuf.captureBlock.fst ‹_›
    · split
      · refine .pair ?_
        refine .fst ?_ ‹_›
        refine .captureBlock ?_
        refine .iteFst h.setBuf ?_
        split <;> exact h.setBuf.captureBlock.fst ‹_›
      · refine .pair ?_
        refine .fst ?_ ‹_›
        refine .captureBlock ?_
        refine .iteFst h.setBuf ?_
        split <;> exact h.setBuf.captureBlock.fst ‹_›

theorem fetch (h : CanonicalGlobal s) {n t} : CanonicalGlobal (s.fetch n t).1 := by
  unfold State.fetch
  dsimp only
  split
  · split
    · split
      · exact h.fillBuf.captureBlock.fst ‹_›
      · exact h.fillBuf.captureBlock.fst ‹_›
      · exact .iteFst (h.fillBuf.captureBlock.fst ‹_›) (h.fillBuf.captureBlock.fst ‹_›)
    · refine .iteFst ?_ ?_
      · split
        · exact h.fillBuf.captureBlock.fst ‹_›
        · exact h.fillBuf.captureBlock.fst ‹_›
        · exact .iteFst (h.fillBuf.captureBlock.fst ‹_›) (h.fillBuf.captureBlock.fst ‹_›)
      · split <;> exact h.fillBuf
  · split
    · exact h.fillBuf.captureBlock.fst ‹_›
    · exact h.fillBuf.captureBlock.fst ‹_›
    · exact .iteFst (h.fillBuf.captureBlock.fst ‹_›) (h.fillBuf.captureBlock.fst ‹_›)

theorem peekParcel (h : CanonicalGlobal s) {n t level a} : CanonicalGlobal (s.peekParcel n t level a).1 := by
  unfold State.peekParcel
  split
  · exact h.captureBlock.fst ‹_›
  · exact h.captureBlock

theorem fillIline (h : CanonicalGlobal s) {n num} : CanonicalGlobal (s.fillIline n num) :=
  h.onCore

/-! ### Coherence -/

theorem ask (h : CanonicalGlobal s) {r m} : CanonicalGlobal (s.ask r m) :=
  h.foldl fun _ _ k => .ite k.snoop (.ite k k.sendProbe)

theorem sendInvs (h : CanonicalGlobal s) {line agent id} : CanonicalGlobal (s.sendInvs line agent id) :=
  (h.foldl fun _ _ k => k.sendProbe).setDir

theorem sendReply (h : CanonicalGlobal s) {r} : CanonicalGlobal (s.sendReply r) :=
  h.same

theorem performReg (h : CanonicalGlobal s) {r bytes words} : CanonicalGlobal (s.performReg r bytes words) := by
  unfold State.performReg
  refine .dropReq ?_
  refine .sendReply ?_
  refine .foldl ?_ fun _ _ k => k.setPsn
  refine .sendInvs ?_
  split
  · exact (h.foldl fun _ _ k => k.putCellWord.setPsn).mergeHome.setDir
  · exact (h.foldl fun _ _ k => k.putCellWord.setPsn).mergeHome

theorem makeInvalid (h : CanonicalGlobal s) {agent num m} : CanonicalGlobal (s.makeInvalid agent num m) :=
  h.onLine

theorem performWrite (h : CanonicalGlobal s) {r bytes} : CanonicalGlobal (s.performWrite r bytes) :=
  h.mergeHome.setDir.sendInvs.makeInvalid.sendReply.dropReq

theorem give (h : CanonicalGlobal s) {n t id line value} : CanonicalGlobal (s.give n t id line value) :=
  h.onPend

theorem performAtomic (h : CanonicalGlobal s) {r async pa size op} :
    CanonicalGlobal (s.performAtomic r async pa size op) := by
  unfold State.performAtomic
  refine .dropReq ?_
  refine .closeRegs ?_
  refine .onCore ?_
  refine .give ?_
  refine .ite ?_ ?_
  · refine .setDir ?_
    refine .makeInvalid ?_
    split
    · exact .ite h.mergeHome h
    · exact h
  · split
    · refine .sendInvs ?_
      refine .putCells ?_
      refine .setDir ?_
      refine .makeInvalid ?_
      split
      · exact .ite h.mergeHome h
      · exact h
    · refine .setDir ?_
      refine .makeInvalid ?_
      split
      · exact .ite h.mergeHome h
      · exact h

theorem fillL1 (h : CanonicalGlobal s) {agent num sw value} : CanonicalGlobal (s.fillL1 agent num sw value) := by
  unfold State.fillL1
  split
  · exact h
  · exact (h.allocate.of_some ‹_›).onLine.useLine

theorem fillConst (h : CanonicalGlobal s) {n num value} : CanonicalGlobal (s.fillConst n num value) :=
  h.onCore

theorem performRead (h : CanonicalGlobal s) {r kind sw} : CanonicalGlobal (s.performRead r kind sw) := by
  unfold State.performRead
  refine .dropReq ?_
  split
  · exact h.give.fillL1
  · exact h.give.fillConst

theorem performPush (h : CanonicalGlobal s) {r dests} : CanonicalGlobal (s.performPush r dests) :=
  (h.foldl fun _ _ k => k.fresh.setDir.same).dropReq

theorem serve (h : CanonicalGlobal s) {r} : CanonicalGlobal (s.serve r) := by
  unfold State.serve
  refine .ite h ?_
  refine .ite h.ask ?_
  refine .ite h.onReq ?_
  split
  · exact h.performReg
  · exact h.performWrite
  · exact h.performAtomic
  · exact h.performRead
  · exact h.performPush

theorem serveUrgent (h : CanonicalGlobal s) {r} : CanonicalGlobal (s.serveUrgent r) := by
  unfold State.serveUrgent
  refine .ite h ?_
  refine .ite h.snoop ?_
  refine .ite ?_ h
  split
  · exact h.revokeNow.performReg
  · exact h.revokeNow.performWrite
  · exact h

theorem execRegistration (h : CanonicalGlobal s) {id} : CanonicalNext (execRegistration id s) := by
  unfold Machine.execRegistration
  refine .next ?_
  split
  · exact .ite h.serve (.ite h.serveUrgent h)
  · exact h

theorem execReadMiss (h : CanonicalGlobal s) {line} : CanonicalNext (execReadMiss line s) := by
  unfold Machine.execReadMiss
  refine .next ?_
  split
  · exact .ite h.serve h
  · exact h

theorem execHomeAtomic (h : CanonicalGlobal s) {line} : CanonicalNext (execHomeAtomic line s) := by
  unfold Machine.execHomeAtomic
  refine .next ?_
  split
  · exact .ite h.serve h
  · exact h

theorem beginHold (h : CanonicalGlobal s) {agent id} : CanonicalGlobal (s.beginHold agent id) := by
  unfold State.beginHold
  refine .foldl h fun _ _ k => ?_
  refine .foldl k fun _ _ k => ?_
  split
  · exact .ite k.onCore.onThread k
  · exact k

theorem takeReply (h : CanonicalGlobal s) {r} : CanonicalGlobal (s.takeReply r) :=
  h.same.onLine.onCore.fillRegs.beginHold.closeRegs

theorem execRegistrationReply (h : CanonicalGlobal s) {id} : CanonicalNext (execRegistrationReply id s) := by
  unfold Machine.execRegistrationReply
  refine .next ?_
  split
  · exact .ite h.takeReply h
  · exact h

theorem probeArrives (h : CanonicalGlobal s) {kind id} : CanonicalGlobal (s.probeArrives kind id) := by
  unfold State.probeArrives
  split
  · exact h
  · refine .ite h ?_
    split
    · exact .ite h.onCore.same.invArrived h.onCore.same
    · exact h.serveProbe

theorem execForward (h : CanonicalGlobal s) {id} : CanonicalNext (execForward id s) :=
  .next h.probeArrives

theorem execRevoke (h : CanonicalGlobal s) {id} : CanonicalNext (execRevoke id s) :=
  .next h.probeArrives

theorem execPushInvalidation (h : CanonicalGlobal s) {id} : CanonicalNext (execPushInvalidation id s) :=
  .next h.probeArrives

theorem install (h : CanonicalGlobal s) {m} : CanonicalGlobal (s.install m) := by
  unfold State.install
  split
  · exact h
  · exact (h.allocate.of_some ‹_›).onLine.useLine.onLine

theorem pushDecided (h : CanonicalGlobal s) {id outcome} : CanonicalGlobal (s.pushDecided id outcome) :=
  h.same

theorem pushLands (h : CanonicalGlobal s) {m} : CanonicalGlobal (s.pushLands m) := by
  unfold State.pushLands
  split
  · exact h.install.pushDecided.count
  · exact h.pushDecided.count

theorem pushGoes (h : CanonicalGlobal s) {n p} : CanonicalGlobal (s.pushGoes n p) :=
  .ite h h.onCore.request

theorem execPushArrival (h : CanonicalGlobal s) {id} : CanonicalNext (execPushArrival id s) := by
  unfold Machine.execPushArrival
  refine .next ?_
  split
  · exact .ite h.pushLands h
  · split
    · exact .ite h.serve h
    · split
      · exact h.pushGoes
      · exact h

theorem refused (h : CanonicalGlobal s) {n t k cause} : CanonicalGlobal (s.refused n t k cause) :=
  h.onSp

theorem accepted (h : CanonicalGlobal s) {n t k} : CanonicalGlobal (s.accepted n t k) :=
  h.onSp

theorem pushReturns (h : CanonicalGlobal s) {m outcome} : CanonicalGlobal (s.pushReturns m outcome) :=
  .ite (.ite h.same.accepted h.same.setDir.refused) (.untrack (.ite h.same.accepted h.same.setDir.refused))

theorem execPushOutcome (h : CanonicalGlobal s) {id} : CanonicalNext (execPushOutcome id s) := by
  unfold Machine.execPushOutcome
  refine .next ?_
  split
  · split
    · exact h.pushReturns
    · exact h
  · exact h

theorem execHoldTimerExpiry (h : CanonicalGlobal s) {core thr line} :
    CanonicalNext (execHoldTimerExpiry core thr line s) := by
  unfold Machine.execHoldTimerExpiry
  refine .next ?_
  split
  · exact .ite h.endHold h
  · exact h

theorem execWaitwReread (h : CanonicalGlobal s) {core thr} : CanonicalNext (execWaitwReread core thr s) :=
  .next h.onThread

theorem execAsyncResultLands (h : CanonicalGlobal s) {core thr id} :
    CanonicalNext (execAsyncResultLands core thr id s) := by
  unfold Machine.execAsyncResultLands
  refine .next ?_
  split
  · exact .ite h.lands h
  · exact h

theorem execL1iFill (h : CanonicalGlobal s) {core line} : CanonicalNext (execL1iFill core line s) :=
  .next (.ite h (.ite h.fillIline h.snoop))

theorem poisonLine (h : CanonicalGlobal s) {line} : CanonicalGlobal (s.poisonLine line) :=
  h.setDir

theorem poisonSlice (h : CanonicalGlobal s) {n line} : CanonicalGlobal (s.poisonSlice n line) :=
  .ite h.onLine h

theorem execUncorrectableError (h : CanonicalGlobal s) {site} : CanonicalNext (execUncorrectableError site s) := by
  unfold Machine.execUncorrectableError
  refine .next ?_
  split
  · exact h.poisonRow.machineRecord
  · exact h.setPsn.machineRecord
  · exact h.poisonLine.machineRecord
  · exact h.poisonSlice.machineRecord
  · exact h.onThread.machineRecord
  · exact (h.foldl fun _ _ k => k.setPsn).machineRecord

/-! ### Damage -/

theorem landRead (h : CanonicalGlobal s) {n t i} : CanonicalGlobal (s.landRead n t i) :=
  h.foldl fun _ _ k => k.lands

theorem markLate (h : CanonicalGlobal s) {n t i} : CanonicalGlobal (s.markLate n t i) :=
  h.onPend

theorem takeDamage (h : CanonicalGlobal s) {n t i} : CanonicalSome (s.takeDamage n t i) :=
  .map fun _ => h.onThread.trapAt

/-! ### Cluster -/

theorem addPush (h : CanonicalGlobal s) {n t line dests regs} : CanonicalGlobal (s.addPush n t line dests regs) :=
  h.fresh.onCore.track

theorem pushLines (h : CanonicalGlobal s) {v ps regs} : CanonicalGlobal (s.pushLines v ps regs) := by
  unfold State.pushLines
  dsimp only
  split
  · split
    · exact h.refused
    · exact h
    · exact h.foldl fun _ _ k => k.addPush
  · exact h.refused

theorem execStp (h : CanonicalGlobal s) {rd ra rb disp wd rel} : CanonicalNext (execStp rd ra rb disp wd rel s) := by
  unfold Machine.execStp
  refine .next ?_
  refine .ite h.stall ?_
  split
  · exact (h.checkCur.fst ‹_›).trap
  · exact (h.checkCur.fst ‹_›).stall
  · exact .ite ((h.checkCur.fst ‹_›).stall) (.ite ((h.checkCur.fst ‹_›).stall)
      (.ite ((h.checkCur.fst ‹_›).stall) ((h.checkCur.fst ‹_›).storePlaces.trackAll.pushLines.retire)))

theorem execPushl (h : CanonicalGlobal s) {ra rb} : CanonicalNext (execPushl ra rb s) := by
  unfold Machine.execPushl
  refine .next ?_
  refine .ite h.stall ?_
  split
  · exact (h.checkCur.fst ‹_›).trap
  · exact (h.checkCur.fst ‹_›).stall
  · exact (h.checkCur.fst ‹_›).pushLines.retire

theorem startTimer (h : CanonicalGlobal s) {n line d} : CanonicalGlobal (s.startTimer n line d) :=
  h.onCore

theorem holdDone (h : CanonicalGlobal s) {rd acq} : CanonicalGlobal (s.holdDone rd acq) :=
  h.wr.acquireIf.retire

theorem holdTake (h : CanonicalGlobal s) {rd ra rb acq agent num} :
    CanonicalGlobal (s.holdTake rd ra rb acq agent num) := by
  unfold State.holdTake
  dsimp only
  split
  · exact h.stall
  · exact .ite ((h.allocate.of_some ‹_›).useLine.onCurCore.onCur.holdDone) ((h.allocate.of_some ‹_›).useLine.register.stall)

theorem holdLine (h : CanonicalGlobal s) {rd ra rb acq pa c} : CanonicalGlobal (s.holdLine rd ra rb acq pa c) := by
  unfold State.holdLine
  refine .ite h.wr.retire ?_
  split
  · exact h.wr.retire
  · exact .ite h.stall (.ite h.wr.retire (.ite h.stall h.holdTake))

theorem holdStart (h : CanonicalGlobal s) {rd ra rb acq} : CanonicalGlobal (s.holdStart rd ra rb acq) := by
  unfold State.holdStart
  dsimp only
  split
  · exact (h.checkCur.fst ‹_›).trap
  · exact (h.checkCur.fst ‹_›).stall
  · refine .ite ((h.checkCur.fst ‹_›).trap) ?_
    refine .ite ((h.checkCur.fst ‹_›).stall) ?_
    split
    · exact (h.checkCur.fst ‹_›).holdLine
    · exact (h.checkCur.fst ‹_›).wr.retire

theorem execHold (h : CanonicalGlobal s) {rd ra rb acq} : CanonicalNext (execHold rd ra rb acq s) := by
  unfold Machine.execHold
  refine .next ?_
  split
  · exact h.stall
  · exact .ite h.stall h.startTimer.holdDone
  · exact h.holdStart

theorem execUnhold (h : CanonicalGlobal s) {rd ra rel} : CanonicalNext (execUnhold rd ra rel s) := by
  unfold Machine.execUnhold
  refine .next ?_
  refine .ite h.stall ?_
  split
  · exact h.endHold.wr.retire
  · exact .ite h.onCur.wr.retire h.wr.retire

theorem popped (h : CanonicalGlobal s) {rd e} : CanonicalGlobal (s.popped rd e) :=
  h.wr.sign.acquireIf.retire

theorem pop (h : CanonicalGlobal s) {rd} : CanonicalGlobal (s.pop rd) := by
  unfold State.pop
  split
  · exact h.onCurCore.popped
  · exact h.stall

theorem execDqpop (h : CanonicalGlobal s) {rd wait} : CanonicalNext (execDqpop rd wait s) := by
  unfold Machine.execDqpop
  refine .next ?_
  split
  · exact h.stall
  · exact h.stall
  · exact .ite h.popped h.stall
  · exact h.pop

theorem steal (h : CanonicalGlobal s) {run} : CanonicalGlobal (s.steal run).1 := by
  unfold State.steal
  split
  · exact h
  · exact .pair h.onCore

theorem waitFor (h : CanonicalGlobal s) {n t w} : CanonicalGlobal (s.waitFor n t w) :=
  h.onThread

theorem execStealRequest (h : CanonicalGlobal s) {core thr} : CanonicalNext (execStealRequest core thr s) := by
  unfold Machine.execStealRequest
  refine .next ?_
  split
  · exact .ite h.steal.waitFor.count h.steal.waitFor
  · exact h

theorem execDqpopResearch (h : CanonicalGlobal s) {core thr} : CanonicalNext (execDqpopResearch core thr s) := by
  unfold Machine.execDqpopResearch
  refine .next ?_
  split
  · exact .ite h.waitFor h
  · exact h

/-! ### Seqs -/

theorem through (h : CanonicalGlobal s) {part va bs} : CanonicalGlobal (s.through part va bs) :=
  h.later

theorem throughDiff (h : CanonicalGlobal s) {part va old new} : CanonicalGlobal (s.throughDiff part va old new) :=
  h.foldl fun _ _ k => k.through

theorem wakeSeq (h : CanonicalGlobal s) {q} : CanonicalGlobal (s.wakeSeq q) := by
  unfold State.wakeSeq
  refine .foldl h fun _ _ k => ?_
  refine .ite ?_ k
  refine .foldl k fun _ _ k => ?_
  split
  · exact .ite k.waitFor k
  · exact .ite k.waitFor k
  · exact k

theorem putSeq (h : CanonicalGlobal s) {old new} : CanonicalGlobal (s.putSeq old new) :=
  (h.onSeq.foldl fun _ _ k => k.through).throughDiff.wakeSeq.wakeSeq

theorem refreshSeqs (h : CanonicalGlobal s) {part} : CanonicalGlobal (s.refreshSeqs part) := by
  unfold State.refreshSeqs
  refine .foldl h fun _ _ k => ?_
  refine .ite ?_ k
  split
  · exact .ite k k.putSeq
  · exact k

theorem onSlab (h : CanonicalGlobal s) {part handle layer f} : CanonicalGlobal (s.onSlab part handle layer f) := by
  unfold State.onSlab
  split
  · exact h
  · exact h.onSeq.throughDiff

theorem writeSlot (h : CanonicalGlobal s) {q k} : CanonicalGlobal (s.writeSlot q k) :=
  h.through

theorem writeOrder (h : CanonicalGlobal s) {q pos} : CanonicalGlobal (s.writeOrder q pos) :=
  h.through

theorem beginReloc (h : CanonicalGlobal s) {die} : CanonicalGlobal (s.beginReloc die) := by
  unfold State.beginReloc
  split
  · exact h
  · refine .ite h ?_
    split
    · exact h
    · exact h.same.onSlab

theorem queueReloc (h : CanonicalGlobal s) {part handle layer grow} :
    CanonicalGlobal (s.queueReloc part handle layer grow) :=
  h.same.beginReloc

theorem moveBytes (h : CanonicalGlobal s) {part src dst len} : CanonicalGlobal (s.moveBytes part src dst len).1 := by
  unfold State.moveBytes
  split
  · exact h.partReach.fst ‹_›
  · exact h.partReach.fst ‹_›
  · split
    · exact (h.partReach.fst ‹_›).partReach.fst ‹_›
    · exact (h.partReach.fst ‹_›).partReach.fst ‹_›
    · exact ((h.partReach.fst ‹_›).partReach.fst ‹_›).notePages.homeWrite.homePoison

theorem serveKvWaits (h : CanonicalGlobal s) : CanonicalGlobal s.serveKvWaits := by
  unfold State.serveKvWaits
  refine .foldl h fun _ _ k => ?_
  split
  · exact k
  · exact .ite (.ite k.queueReloc k) (.ite k k.onPend.same)

theorem endReloc (h : CanonicalGlobal s) {die r q} : CanonicalGlobal (s.endReloc die r q) :=
  .serveKvWaits (.beginReloc (.ite h.same.onSlab.onSlab h.same.onSlab))

theorem relocate (h : CanonicalGlobal s) {die grow} : CanonicalGlobal (s.relocate die grow) := by
  unfold State.relocate
  split
  · exact h
  · refine .ite h ?_
    split
    · exact h.same.beginReloc
    · refine .ite h.beginReloc ?_
      refine .ite h.endReloc ?_
      split
      · exact h.moveBytes.fst ‹_›
      · exact (h.moveBytes.fst ‹_›).onSlab

theorem execUnsharingRelocationEnd (h : CanonicalGlobal s) {die} : CanonicalNext (execUnsharingRelocationEnd die s) :=
  .next h.relocate

theorem execSlabRelocationEnd (h : CanonicalGlobal s) {die} : CanonicalNext (execSlabRelocationEnd die s) :=
  .next h.relocate

theorem execTaskInject (h : CanonicalGlobal s) {handle} : CanonicalNext (execTaskInject handle s) := by
  unfold Machine.execTaskInject
  refine .next ?_
  split
  · exact h
  · split
    · exact h.onSeq.onCore
    · exact h

/-! ### Context -/

theorem refuse (h : CanonicalGlobal s) {rd code} : CanonicalGlobal (s.refuse rd code) :=
  h.wr.retire

theorem replies (h : CanonicalGlobal s) {rd v} : CanonicalGlobal (s.replies rd v) :=
  .ite h.wr.retire h.stall

theorem request17 (h : CanonicalGlobal s) {rd k} (hk : ∀ a, CanonicalGlobal (k a)) :
    CanonicalGlobal (s.request17 rd k) := by
  unfold State.request17
  split
  · exact h.replies
  · refine .ite h.stall ?_
    split
    · exact h.refuse
    · exact hk _

theorem requestSeq (h : CanonicalGlobal s) {rd handle k} (hk : ∀ a b, CanonicalGlobal (k a b)) :
    CanonicalGlobal (s.requestSeq rd handle k) := by
  unfold State.requestSeq
  refine .request17 h fun _ => ?_
  split
  · exact h.refuse
  · exact hk _ _

theorem sees (h : CanonicalGlobal s) {part ranges} : CanonicalGlobal (s.sees part ranges).1 := by
  induction ranges generalizing s with
  | nil => exact h
  | cons r ranges ih =>
    simp only [State.sees]
    exact ih h.partReach

theorem walks (h : CanonicalGlobal s) {part acc vas} : CanonicalGlobal (s.walks part acc vas).1 := by
  induction vas generalizing s with
  | nil => exact h
  | cons va vas ih =>
    simp only [State.walks]
    exact ih h.walkPage

theorem seeing (h : CanonicalGlobal s) {part ranges k} (hk : ∀ t, CanonicalGlobal t → CanonicalGlobal (k t)) :
    CanonicalGlobal (s.seeing part ranges k) := by
  unfold State.seeing
  split
  · exact hk _ (h.sees.fst ‹_›)
  · exact (h.sees.fst ‹_›).stall

theorem install17 (h : CanonicalGlobal s) {p q} : CanonicalGlobal (s.install17 p q) :=
  (h.same.through.foldl fun _ _ k => k.through).putSeq

theorem execCxopen (h : CanonicalGlobal s) {rd ra rb} : CanonicalNext (execCxopen rd ra rb s) := by
  unfold Machine.execCxopen
  refine .next ?_
  refine .request17 h fun _ => ?_
  refine .seeing h fun _ k => ?_
  split
  · exact k.refuse
  · exact k.trap
  · refine .seeing k fun _ k => ?_
    split
    · exact k.refuse
    · exact k.install17.replies

theorem closeSeq (h : CanonicalGlobal s) {p q} : CanonicalGlobal (s.closeSeq p q) :=
  (h.foldl fun _ _ k => .ite k.onSlab k).same.same.through

theorem edit (h : CanonicalGlobal s) {rd e q p n tva} : CanonicalGlobal (s.edit rd e q p n tva) := by
  unfold State.edit
  split
  · exact h.refuse
  · exact h.seeing fun _ k => .ite k.refuse ((((k.putSeq.foldl fun _ _ k => k.writeSlot).foldl
      fun _ _ k => k.writeOrder).foldl fun _ _ k => k.queueReloc).replies)

theorem editOp (h : CanonicalGlobal s) {e rd ra rb tva} : CanonicalGlobal (s.editOp e rd ra rb tva) :=
  h.requestSeq fun _ _ => h.edit

theorem unquarantine (h : CanonicalGlobal s) {part handle layer blk} :
    CanonicalGlobal (s.unquarantine part handle layer blk) :=
  h.same

theorem commitTask (h : CanonicalGlobal s) {rd q w dout dkv} : CanonicalGlobal (s.commitTask rd q w dout dkv) :=
  .ite h.wr.retire (.ite h.putSeq.replies h.putSeq.unquarantine.replies)

theorem execCxcommit (h : CanonicalGlobal s) {rd ra rb rc} : CanonicalNext (execCxcommit rd ra rb rc s) := by
  unfold Machine.execCxcommit
  refine .next ?_
  refine .request17 h fun _ => ?_
  split
  · exact h.wr.retire
  · exact h.commitTask

theorem grant (h : CanonicalGlobal s) {rd v} : CanonicalGlobal (s.grant rd v) :=
  h.wr.acquire.retire

theorem execCxsettle (h : CanonicalGlobal s) {rd ra} : CanonicalNext (execCxsettle rd ra s) := by
  unfold Machine.execCxsettle
  refine .next ?_
  split
  · exact h.grant
  · split
    · exact h.refuse
    · exact .ite h.grant h.stall

theorem execCxwaitb (h : CanonicalGlobal s) {rd ra rb rc} : CanonicalNext (execCxwaitb rd ra rb rc s) := by
  unfold Machine.execCxwaitb
  refine .next ?_
  split
  · exact h.grant
  · split
    · exact h.refuse
    · exact .ite h.refuse (.ite h.grant h.stall)

theorem execCxstate (h : CanonicalGlobal s) {rd ra pick} : CanonicalNext (execCxstate rd ra pick s) := by
  unfold Machine.execCxstate
  refine .next ?_
  split
  · exact h.replies
  · refine .ite h.privTrap ?_
    split
    · exact h.refuse
    · exact .ite h.wr.retire (.ite h.wr.retire (.ite h.refuse h.putSeq.replies))

theorem lengthen (h : CanonicalGlobal s) {rd q k tva} : CanonicalGlobal (s.lengthen rd q k tva) :=
  .ite h.refuse ((h.putSeq.foldl fun _ _ k => k.writeSlot.writeOrder).replies)

theorem execCxlen (h : CanonicalGlobal s) {rd ra rb rc} : CanonicalNext (execCxlen rd ra rb rc s) := by
  unfold Machine.execCxlen
  refine .next ?_
  split
  · exact h.replies
  · refine .ite h.stall ?_
    refine .requestSeq h fun _ _ => ?_
    split
    · exact h.refuse
    · exact h.seeing fun _ k => k.lengthen

theorem forkCopies (h : CanonicalGlobal s) {p q c} : CanonicalGlobal (s.forkCopies p q c) :=
  (h.through.through.foldl fun _ _ k => k.through.through).moveBytes.foldl fun _ _ k => k.onSlab

theorem execCxfork (h : CanonicalGlobal s) {rd ra rb rc rekey} : CanonicalNext (execCxfork rd ra rb rc rekey s) := by
  unfold Machine.execCxfork
  refine .next ?_
  refine .requestSeq h fun _ _ => ?_
  refine .seeing h fun _ k => ?_
  refine .seeing k fun _ k => ?_
  split
  · exact k.refuse
  · exact k.trap
  · exact k.forkCopies.install17.replies

/-! ### ControlFlow -/

theorem branch (h : CanonicalGlobal s) {taken t} : CanonicalGlobal (s.branch taken t) :=
  .ite h.jump h.retire

theorem jumpTo (h : CanonicalGlobal s) {t link} : CanonicalGlobal (s.jumpTo t link) :=
  .ite h.trap (.jump (.ite h.wr h))

theorem moveWindow (h : CanonicalGlobal s) {limit c tval f rd ra imm} :
    CanonicalGlobal (s.moveWindow limit c tval f rd ra imm) :=
  .ite h.stall (.ite h.trap h.onCur.wr.retire)

theorem onLoops (h : CanonicalGlobal s) {f} : CanonicalGlobal (s.onLoops f) :=
  h.onCur

theorem lengthAt (h : CanonicalGlobal s) {a} : CanonicalGlobal (s.lengthAt a).1 := by
  unfold State.lengthAt
  split
  · exact h.peekParcel.fst ‹_›
  · exact h.peekParcel.fst ‹_›
  · split
    · refine .iteFst ?_ (h.peekParcel.fst ‹_›)
      split
      · exact (h.peekParcel.fst ‹_›).peekParcel.fst ‹_›
      · exact (h.peekParcel.fst ‹_›).peekParcel.fst ‹_›
      · split <;> exact (h.peekParcel.fst ‹_›).peekParcel.fst ‹_›
    · exact h.peekParcel.fst ‹_›

theorem startLoop (h : CanonicalGlobal s) {k n span} : CanonicalGlobal (s.startLoop k n span) := by
  unfold State.startLoop
  refine .ite ?_ h.onLoops.retireTo
  split
  · exact (h.lengthAt.fst ‹_›).stall
  · exact (h.lengthAt.fst ‹_›).trap
  · exact (h.lengthAt.fst ‹_›).onLoops.retireTo.onCur

/-! ### Kv -/

theorem onKvPage (h : CanonicalGlobal s) {part va f} : CanonicalGlobal (s.onKvPage part va f) := by
  unfold State.onKvPage
  refine .ite h.same ?_
  split
  · exact h.same
  · exact h

theorem refer (h : CanonicalGlobal s) {part va len} : CanonicalGlobal (s.refer part va len) :=
  h.foldl fun _ _ k => k.onKvPage

theorem kvCheck (h : CanonicalGlobal s) {n level acc vas} : CanonicalGlobal (s.kvCheck n level acc vas).1 := by
  induction vas generalizing s with
  | nil => exact h
  | cons va vas ih =>
    simp only [State.kvCheck]
    refine .iteFst h ?_
    split
    · exact h.translateRaw.fst ‹_›
    · exact h.translateRaw.fst ‹_›
    · exact ih (h.translateRaw.fst ‹_›)

theorem contextTrap (h : CanonicalGlobal s) {code handle} : CanonicalGlobal (s.contextTrap code handle) :=
  h.trap

theorem kvResult (h : CanonicalGlobal s) {rd bytes} : CanonicalGlobal (s.kvResult rd bytes).1 :=
  h.fresh.addPend.track

theorem kvAddress (h : CanonicalGlobal s) {rd q d slot} : CanonicalGlobal (s.kvAddress rd q d slot) :=
  .ite (.retire (.ite h.refer.kvResult.same.queueReloc h.refer.kvResult.same))
    (.retire (.ite h.refer.kvResult.queueReloc h.refer.kvResult))

theorem execKvaddr (h : CanonicalGlobal s) {rd ra rb rc} : CanonicalNext (execKvaddr rd ra rb rc s) := by
  unfold Machine.execKvaddr
  refine .next ?_
  split
  · exact h.contextTrap
  · split
    · exact h.contextTrap
    · exact h.kvAddress

theorem kvldIssue (h : CanonicalGlobal s) {i rd ra rb rc q rows} : CanonicalGlobal (s.kvldIssue i rd ra rb rc q rows) := by
  unfold State.kvldIssue
  dsimp only
  split
  · exact h.trap
  · split
    · exact (h.kvCheck.fst ‹_›).trap
    · exact (h.kvCheck.fst ‹_›).stall
    · exact .ite (((h.kvCheck.fst ‹_›).foldl fun _ _ k => k.fetchPage).stall)
        (.ite ((h.kvCheck.fst ‹_›).stall) (((h.kvCheck.fst ‹_›).foldl fun _ _ k => k.refer).enter))

theorem execKvld (h : CanonicalGlobal s) {rd ra rb rc rows} : CanonicalNext (execKvld rd ra rb rc rows s) := by
  unfold Machine.execKvld
  refine .next ?_
  split
  · exact h.kvldIssue
  · split
    · exact h.contextTrap
    · exact .ite h.contextTrap h.kvldIssue

theorem execKvapp (h : CanonicalGlobal s) {rd ra rb rc} : CanonicalNext (execKvapp rd ra rb rc s) := by
  unfold Machine.execKvapp
  refine .next ?_
  refine .ite h.stall ?_
  split
  · exact h.contextTrap
  · split
    · exact h.contextTrap
    · dsimp only
      split
      · exact h.trap
      · split
        · exact (h.kvCheck.fst ‹_›).trap
        · exact (h.kvCheck.fst ‹_›).stall
        · exact (h.kvCheck.fst ‹_›).refer.enter

theorem engineRead (h : CanonicalGlobal s) {n level va len got} : CanonicalGlobal (s.engineRead n level va len got).1 := by
  unfold State.engineRead
  refine .iteFst h.endpoint ?_
  split
  · exact h.endpoint
  · exact .iteFst h.endpoint (.iteFst h.endpoint h.endpoint.snoopAll)

theorem quarantineEnt (h : CanonicalGlobal s) {part record e} : CanonicalGlobal (s.quarantineEnt part record e) := by
  unfold State.quarantineEnt
  split
  · exact h
  · exact .ite h.putSeq.seqRecord h.putSeq

theorem quarantinePage (h : CanonicalGlobal s) {part page record handle} :
    CanonicalGlobal (s.quarantinePage part page record handle) :=
  .ite h ((h.onKvPage.foldl fun _ _ k => k.quarantineEnt).seqRecord)

theorem kvldRow (h : CanonicalGlobal s) {n c q freqs fpsn j row} :
    CanonicalGlobal (s.kvldRow n c q freqs fpsn j row).1 := by
  unfold State.kvldRow
  dsimp only
  split
  · exact .pair (.ite ((h.engineRead.fst ‹_›).engineWrite.foldl fun _ _ k => k.quarantinePage)
      ((h.engineRead.fst ‹_›).engineWrite))
  · exact h.engineRead.fst ‹_›

theorem kvldRows (h : CanonicalGlobal s) {n c part q freqs fpsn j rows} :
    CanonicalGlobal (s.kvldRows n c part q freqs fpsn j rows).1 := by
  induction rows generalizing s j with
  | nil => exact h
  | cons row rows ih =>
    simp only [State.kvldRows]
    split
    · exact h
    · split
      · exact h.kvldRow.fst ‹_›
      · exact h.kvldRow.fst ‹_›
      · exact h.kvldRow.fst ‹_›
      · exact ih (h.kvldRow.fst ‹_›)

theorem runKvld (h : CanonicalGlobal s) {n c} : CanonicalGlobal (s.runKvld n c).1 := by
  unfold State.runKvld
  dsimp only
  split
  · exact h
  · refine .iteFst h.kvldRows ?_
    split
    · exact h.engineRead.fst ‹_›
    · exact h.engineRead.fst ‹_›
    · exact h.engineRead.fst ‹_›
    · exact (h.engineRead.fst ‹_›).kvldRows

theorem runKvapp (h : CanonicalGlobal s) {n c} : CanonicalGlobal (s.runKvapp n c).1 := by
  unfold State.runKvapp
  split
  · exact h.move
  · exact h

theorem execSlabgrow (h : CanonicalGlobal s) {rd ra rb rc} : CanonicalNext (execSlabgrow rd ra rb rc s) := by
  unfold Machine.execSlabgrow
  refine .next ?_
  refine .requestSeq h fun _ _ => ?_
  dsimp only
  split
  · exact (h.walks.fst ‹_›).stall
  · split
    · exact (h.walks.fst ‹_›).refuse
    · exact (h.walks.fst ‹_›).queueReloc.replies

theorem lahAccept (h : CanonicalGlobal s) {part l k} : CanonicalGlobal (s.lahAccept part l k).1 := by
  induction l generalizing s k with
  | nil => exact h
  | cons e l ih =>
    simp only [State.lahAccept]
    exact .iteFst h (.iteFst (ih h) (ih h.same))

theorem execLah (h : CanonicalGlobal s) {rd ra rb} : CanonicalNext (execLah rd ra rb s) := by
  unfold Machine.execLah
  refine .next ?_
  refine .ite h.stall ?_
  split
  · exact h.contextTrap
  · refine .ite h.contextTrap ?_
    split
    · exact (h.seeList.fst ‹_›).trap
    · exact (h.seeList.fst ‹_›).stall
    · exact (h.seeList.fst ‹_›).lahAccept.wr.retire

theorem sweep (h : CanonicalGlobal s) {p} : CanonicalGlobal (s.sweep p) := by
  unfold State.sweep
  dsimp only
  split
  · exact h
  · exact .ite h.onPart (.ite h.onPart.onKvPage h.onPart.onKvPage)

theorem execKvPageSpill (h : CanonicalGlobal s) {part} : CanonicalNext (execKvPageSpill part s) := by
  unfold Machine.execKvPageSpill
  refine .next ?_
  split
  · exact .ite h.sweep h
  · exact h

theorem execKvPageResident (h : CanonicalGlobal s) {page} : CanonicalNext (execKvPageResident page s) :=
  .next (.ite h.same h)

/-! ### Sampling -/

theorem checkCounts (h : CanonicalGlobal s) {table index ks} : CanonicalGlobal (s.checkCounts table index ks).1 := by
  induction ks generalizing s with
  | nil => exact h
  | cons k ks ih =>
    simp only [State.checkCounts]
    split
    · split
      · exact (ih (h.checkCur.fst ‹_›)).fst ‹_›
      · exact ih (h.checkCur.fst ‹_›)
    · exact h.checkCur

theorem penalize (h : CanonicalGlobal s) {vd table index header counts} :
    CanonicalGlobal (s.penalize vd table index header counts) :=
  .ite h.trap (.ite h.stall h.fresh.gather.addPend.track.retire)

theorem execPenal (h : CanonicalGlobal s) {vd ra rb} : CanonicalNext (execPenal vd ra rb s) := by
  unfold Machine.execPenal
  refine .next ?_
  split
  · exact h.stall
  · split
    · exact (h.checkCur.fst ‹_›).trap
    · exact (h.checkCur.fst ‹_›).stall
    · split
      · exact ((h.checkCur.fst ‹_›).checkCounts.fst ‹_›).trap
      · exact ((h.checkCur.fst ‹_›).checkCounts.fst ‹_›).stall
      · split
        · exact ((h.checkCur.fst ‹_›).checkCounts.fst ‹_›).penalize
        · exact .ite (((h.checkCur.fst ‹_›).checkCounts.fst ‹_›).stall)
            (.ite (.ite (((h.checkCur.fst ‹_›).checkCounts.fst ‹_›).fresh.gather.trap)
            (((h.checkCur.fst ‹_›).checkCounts.fst ‹_›).fresh.gather.penalize))
            (((h.checkCur.fst ‹_›).checkCounts.fst ‹_›).fresh.gather.addPend.stall))

theorem tournAt (h : CanonicalGlobal s) {acc a} : CanonicalGlobal (s.tournAt acc a).1 := by
  unfold State.tournAt
  split
  · exact h
  · exact h
  · split <;> exact h.checkCur.fst ‹_›

theorem tournPairs (h : CanonicalGlobal s) {a js} : CanonicalGlobal (s.tournPairs a js).1 := by
  induction js generalizing s with
  | nil => exact h
  | cons j js ih =>
    simp only [State.tournPairs]
    split
    · exact h.tournAt.fst ‹_›
    · refine .iteFst (.pair (h.tournAt.fst ‹_›)) ?_
      split
      · exact (ih (h.tournAt.fst ‹_›)).fst ‹_›
      · exact ih (h.tournAt.fst ‹_›)

theorem execTourn (h : CanonicalGlobal s) {rd ra rb} : CanonicalNext (execTourn rd ra rb s) := by
  unfold Machine.execTourn
  refine .next ?_
  split
  · exact (h.tournPairs.fst ‹_›).trap
  · split
    · exact ((h.tournPairs.fst ‹_›).tournAt.fst ‹_›).trap
    · exact ((h.tournPairs.fst ‹_›).tournAt.fst ‹_›).lwrite.retire

/-! ### Taps -/

theorem readAtHome (h : CanonicalGlobal s) {n level a len} : CanonicalGlobal (s.readAtHome n level a len).1 := by
  unfold State.readAtHome
  split
  · dsimp only
    split
    · exact .iteFst (h.engineRead.fst ‹_›) (h.engineRead.fst ‹_›)
    · exact (h.engineRead.fst ‹_›).askWindow
    · exact h.engineRead
  · exact h

theorem imageRead (h : CanonicalGlobal s) {a len k} (hk : ∀ t, CanonicalGlobal t → ∀ b, CanonicalGlobal (k t b)) :
    CanonicalGlobal (s.imageRead a len k) := by
  unfold State.imageRead
  split
  · exact (h.readAtHome.fst ‹_›).trap
  · exact (h.readAtHome.fst ‹_›).stall
  · exact (h.readAtHome.fst ‹_›).stall
  · split
    · exact (h.readAtHome.fst ‹_›).trap
    · exact hk _ (h.readAtHome.fst ‹_›) _

theorem installPoint (h : CanonicalGlobal s) {rd part t image} : CanonicalGlobal (s.installPoint rd part t image) :=
  h.onPart.wr.retire

theorem loadPoint (h : CanonicalGlobal s) {rd a p t} : CanonicalGlobal (s.loadPoint rd a p t) := by
  unfold State.loadPoint
  refine .imageRead h fun _ k _ => ?_
  split
  · exact k.wr.retire
  · exact k.imageRead fun _ k _ => .ite k.wr.retire (.ite k.wr.retire k.installPoint)

theorem readPoint (h : CanonicalGlobal s) {rd a p t clear} : CanonicalGlobal (s.readPoint rd a p t clear) := by
  unfold State.readPoint
  dsimp only
  split
  · exact (h.checkCur.fst ‹_›).trap
  · exact (h.checkCur.fst ‹_›).stall
  · exact .ite ((h.checkCur.fst ‹_›).stall) (.retire
      (.wr (.ite ((h.checkCur.fst ‹_›).storePlaces.onPart) ((h.checkCur.fst ‹_›).storePlaces))))

theorem execTapld (h : CanonicalGlobal s) {rd ra rb op} : CanonicalNext (execTapld rd ra rb op s) := by
  unfold Machine.execTapld
  refine .next ?_
  refine .ite h.privTrap ?_
  split
  · exact h.wr.retire
  · exact .ite h.wr.retire (.ite h.wr.retire (.ite h.loadPoint (.ite h.onPart.wr.retire h.readPoint)))

theorem openKey (h : CanonicalGlobal s) {n key} : CanonicalGlobal (s.openKey n key) :=
  .ite h h.onCore

theorem steer (h : CanonicalGlobal s) {n c t elems} : CanonicalGlobal (s.steer n c t elems).1 := by
  unfold State.steer
  split
  · exact h
  · refine .iteFst h ?_
    split
    · refine .iteFst (h.engineRead.fst ‹_›) ?_
      split
      · exact (h.engineRead.fst ‹_›).engineRead.fst ‹_›
      · exact (h.engineRead.fst ‹_›).engineRead
    · exact h.engineRead

theorem putChunk (h : CanonicalGlobal s) {n a bs} : CanonicalGlobal (s.putChunk n a bs) :=
  .ite h (h.lwrite.foldl fun _ _ k => k.poisonRow)

theorem runTap (h : CanonicalGlobal s) {n c t} : CanonicalGlobal (s.runTap n c t).1 := by
  unfold State.runTap
  dsimp only
  split
  · exact h.steer.fst ‹_›
  · exact h.steer.fst ‹_›
  · refine .pair ?_
    split
    · exact (h.steer.fst ‹_›).onBar
    · exact h.steer.fst ‹_›
  · refine .pair ?_
    refine .putChunk ?_
    split
    · exact (h.steer.fst ‹_›).onBar
    · exact h.steer.fst ‹_›

theorem tapCross (h : CanonicalGlobal s) {part handle t probe halt incomplete record} :
    CanonicalGlobal (s.tapCross part handle t probe halt incomplete record) := by
  unfold State.tapCross
  split
  · exact h
  · exact h.putSeq.seqRecord

theorem tapCount (h : CanonicalGlobal s) {part t probe} : CanonicalGlobal (s.tapCount part t probe) :=
  h.onPart

theorem tapProbe (h : CanonicalGlobal s) {part handle pos sstep edit x parts probe p} :
    CanonicalGlobal (s.tapProbe part handle pos sstep edit x parts probe p) :=
  .ite h (.ite h.tapCount h.tapCross)

theorem evalKey (h : CanonicalGlobal s) {part sstep taps key} : CanonicalGlobal (s.evalKey part sstep taps key) := by
  obtain ⟨handle, pos, t⟩ := key
  simp only [State.evalKey]
  cases (s.partOf part).bind fun p => p.point t with
  | none => exact h
  | some x =>
    cases s.seqOf part handle with
    | none => exact h
    | some q =>
      dsimp only
      split
      · exact h.foldl fun _ _ k => k.tapProbe
      · exact h.tapCross

theorem evalTaps (h : CanonicalGlobal s) {k} : CanonicalGlobal (s.evalTaps k) := by
  unfold State.evalTaps
  split
  · exact h
  · exact h.foldl fun _ _ k => k.evalKey

/-! ### Domain -/

theorem exchTrap (h : CanonicalGlobal s) {why core} : CanonicalGlobal (s.exchTrap why core) :=
  h.trap

theorem onPlan (h : CanonicalGlobal s) {n f} : CanonicalGlobal (s.onPlan n f) :=
  h.onCore

theorem execExch (h : CanonicalGlobal s) {rd ra rb dst clear} : CanonicalNext (execExch rd ra rb dst clear s) := by
  unfold Machine.execExch
  refine .next ?_
  refine .ite h.onPlan.retire ?_
  split
  · exact h.exchTrap
  · exact h.onPlan.retire

theorem arriveThread (h : CanonicalGlobal s) {order} : CanonicalGlobal (s.arriveThread order) :=
  .ite h.onCur.onCurCore h.onCur

theorem coreArrives (h : CanonicalGlobal s) {n t} : CanonicalGlobal (s.coreArrives n t) :=
  h.onCore.traceRec

theorem syncLook (h : CanonicalGlobal s) {order} : CanonicalGlobal (s.syncLook order) :=
  .ite (.ite (.exchTrap (.ite h (.ite h.arriveThread h))) (.stall (.coreArrives (.ite h (.ite h.arriveThread h)))))
    (.stall (.ite h (.ite h.arriveThread h)))

theorem syncReturned (h : CanonicalGlobal s) {level unit} : CanonicalGlobal (s.syncReturned level unit) :=
  h.onCurCore

theorem execSync (h : CanonicalGlobal s) : CanonicalNext (execSync s) := by
  unfold Machine.execSync
  refine .next ?_
  split
  · exact h.acquire.syncReturned.retire
  · exact h.stall
  · exact h.syncLook
  · exact h.fresh.syncLook

theorem rearrive (h : CanonicalGlobal s) {n} : CanonicalGlobal (s.rearrive n) :=
  .ite h.onCore h

theorem endThread (h : CanonicalGlobal s) : CanonicalGlobal s.endThread :=
  (h.foldl fun _ _ k => k.endHold).retire.onCur.gangBreak.rearrive.fated

theorem execStop (h : CanonicalGlobal s) : CanonicalNext (execStop s) := by
  unfold Machine.execStop
  refine .next (.ite (.ite h.endThread h.stall) (.ite h.stall (.ite h.stall ?_)))
  split
  · exact (h.failure ‹_›).trap
  · dsimp only
    split
    · exact h.mergeFlags.exchTrap
    · exact .ite h.mergeFlags.endThread h.mergeFlags.stall

theorem requestFreeze (h : CanonicalGlobal s) {k} : CanonicalGlobal (s.requestFreeze k).1 :=
  .iteFst h h.onBar

theorem dropRecord (h : CanonicalGlobal s) {n x why} : CanonicalGlobal (s.dropRecord n x why) :=
  h.partRecord

theorem dropDeparted (h : CanonicalGlobal s) {bad} : CanonicalGlobal (s.dropDeparted bad) :=
  h.foldl fun _ _ k => k.dropRecord.onPlan

theorem trapSenders (h : CanonicalGlobal s) {bad} : CanonicalGlobal (s.trapSenders bad) := by
  unfold State.trapSenders
  refine .foldl h fun _ _ k => ?_
  split
  · exact k.trapAt
  · exact k

theorem landRed (h : CanonicalGlobal s) {c r} : CanonicalGlobal (s.landRed c r) := by
  unfold State.landRed
  split
  · exact h.lands
  · exact h

theorem reductions (h : CanonicalGlobal s) {k} : CanonicalGlobal (s.reductions k) :=
  h.foldl fun _ _ k => k.foldl fun _ _ k => k.landRed

theorem imbalance (h : CanonicalGlobal s) {k} : CanonicalGlobal (s.imbalance k) :=
  h.foldl fun _ _ k => k.onRegs

theorem atMember (h : CanonicalGlobal s) {n} : CanonicalGlobal (s.atMember n) := by
  unfold State.atMember
  refine .onCore ?_
  split
  · exact h.count.traceRec
  · exact h.count

theorem completeBarrier (h : CanonicalGlobal s) {k} : CanonicalGlobal (s.completeBarrier k) :=
  (h.reductions.evalTaps.imbalance.onLaunch.foldl fun _ _ k => k.atMember.onCore).onBar

theorem tryBarrier (h : CanonicalGlobal s) {k} : CanonicalGlobal (s.tryBarrier k) :=
  .ite h (.ite h.dropDeparted (.ite h.dropDeparted.completeBarrier h.dropDeparted.trapSenders))

theorem execBarrierComplete (h : CanonicalGlobal s) {core} : CanonicalNext (execBarrierComplete core s) :=
  .next h.tryBarrier

theorem deliverRows (h : CanonicalGlobal s) {x rows} : CanonicalGlobal (s.deliverRows x rows) :=
  h.foldl fun _ _ k => k.lwrite

theorem loseRows (h : CanonicalGlobal s) {x done} : CanonicalGlobal (s.loseRows x done) :=
  (h.foldl fun _ _ k => k.lwrite).machineRecord

theorem renewBar (h : CanonicalGlobal s) {k} : CanonicalGlobal (s.renewBar k) :=
  h.same

theorem loseArrived (h : CanonicalGlobal s) {x} : CanonicalGlobal (s.loseArrived x) := by
  unfold State.loseArrived
  dsimp only
  split
  · exact h
  · exact (h.foldl fun _ _ k => k.lwrite).machineRecord

theorem deliverAll (h : CanonicalGlobal s) {xs lost arrived} : CanonicalGlobal (s.deliverAll xs lost arrived) :=
  ((h.foldl fun _ _ k => k.deliverRows).foldl fun _ _ k => k.loseRows).foldl fun _ _ k => k.loseArrived

theorem endPhase (h : CanonicalGlobal s) {k outside} : CanonicalGlobal (s.endPhase k outside) :=
  .ite h ((h.deliverAll.foldl fun _ _ k => k.onCore).renewBar)

theorem execExchangePhaseEnd (h : CanonicalGlobal s) {core outside} : CanonicalNext (execExchangePhaseEnd core outside s) :=
  .next h.endPhase

/-! ### Launches -/

theorem dropTlb (h : CanonicalGlobal s) {f} : CanonicalGlobal (s.dropTlb f) :=
  h.withCores

theorem flushL1 (h : CanonicalGlobal s) {n f} : CanonicalGlobal (s.flushL1 n f) :=
  h.foldl fun _ _ k => k.writeBack.dropLine

theorem loseL1 (h : CanonicalGlobal s) {n f} : CanonicalGlobal (s.loseL1 n f) :=
  h.onCore

theorem switchLeaf (h : CanonicalGlobal s) {l c e} : CanonicalGlobal (s.switchLeaf l c e) :=
  .homeWrite (.ite ((h.dropTlb.foldl fun _ _ k => k.flushL1).putCells.foldl fun _ _ k => k.setDir)
    ((h.dropTlb.foldl fun _ _ k => (k.revokeNow.foldl fun _ _ k => k.dropPushed).setDir).foldl fun _ _ k => k.loseL1))

theorem regionLeaves (h : CanonicalGlobal s) {rd l b n c ls} : CanonicalGlobal (s.regionLeaves rd l b n c ls) :=
  .ite h.wr.retire (.ite h.wr.retire (.ite h.stall (.ite h.stall
    (.ite h.snoop.stall ((h.acquire.foldl fun _ _ k => k.switchLeaf).acquire.wr.retire)))))

theorem execRegion (h : CanonicalGlobal s) {rd ra rb c} : CanonicalNext (execRegion rd ra rb c s) := by
  unfold Machine.execRegion
  refine .next ?_
  refine .ite h.privTrap ?_
  refine .ite h.wr.retire ?_
  split
  · exact h.wr.retire
  · split
    · exact h.wr.retire
    · exact h.snoopAll.stall
    · exact h.regionLeaves

theorem execTlbinv (h : CanonicalGlobal s) {ra scope} : CanonicalNext (execTlbinv ra scope s) := by
  unfold Machine.execTlbinv
  refine .next ?_
  refine .ite h.privTrap ?_
  refine .ite h.stall ?_
  split
  · exact h.acquire.acquire.retire
  · exact .ite h.acquire.dropTlb.acquire.retire h.stall

theorem predaKnown (h : CanonicalGlobal s) {part bs} : CanonicalGlobal (s.predaKnown part bs).1 := by
  unfold State.predaKnown
  refine .iteFst h ?_
  split
  · exact h.walkPage.fst ‹_›
  · exact h

theorem putStatus (h : CanonicalGlobal s) {part stat v} : CanonicalGlobal (s.putStatus part stat v) := by
  unfold State.putStatus
  split
  · exact h.later
  · exact h

theorem joinFabric (h : CanonicalGlobal s) {l} : CanonicalGlobal (s.joinFabric l).1 :=
  .iteFst h.same h

theorem acceptLaunch (h : CanonicalGlobal s) {part addr bs system stat} :
    CanonicalGlobal (s.acceptLaunch part addr bs system stat).1 :=
  h.fresh.joinFabric.withLaunches.putStatus

theorem launchWith (h : CanonicalGlobal s) {rd a l bs} : CanonicalGlobal (s.launchWith rd a l bs) :=
  .ite h.acceptLaunch.wr.retire h.putStatus.wr.retire

theorem execLaunch (h : CanonicalGlobal s) {rd ra} : CanonicalNext (execLaunch rd ra s) := by
  unfold Machine.execLaunch
  refine .next ?_
  refine .ite h.privTrap ?_
  refine .ite h.stall ?_
  split
  · exact h.trap
  · refine .imageRead h fun _ k _ => ?_
    split
    · exact (k.predaKnown.fst ‹_›).launchWith
    · exact (k.predaKnown.fst ‹_›).stall

theorem looseReady (h : CanonicalGlobal s) {part fuel va size} :
    CanonicalGlobal (s.looseReady part fuel va size).1 := by
  induction fuel generalizing s va size with
  | zero => exact h
  | succ fuel ih =>
    simp only [State.looseReady]
    exact .iteFst h (ih h.partReach)

theorem launchReady (h : CanonicalGlobal s) {l} : CanonicalGlobal (s.launchReady l).1 :=
  .looseReady (.iteFst h.looseReady h)

theorem startCore (h : CanonicalGlobal s) {l image rank n} : CanonicalGlobal (s.startCore l image rank n) :=
  .ite h.onCore.onCore h.onCore

theorem switchFusion (h : CanonicalGlobal s) {l} : CanonicalGlobal (s.switchFusion l) :=
  .ite (h.foldl fun _ _ k => k.flushL1) h

theorem emptyShadows (h : CanonicalGlobal s) {l} : CanonicalGlobal (s.emptyShadows l) :=
  h.foldl fun _ _ k => k.flushL1

theorem startLaunch (h : CanonicalGlobal s) {l} : CanonicalGlobal (s.startLaunch l) :=
  (h.switchFusion.emptyShadows.foldl fun _ _ k => k.startCore).onLaunch.refreshSeqs

theorem execLaunchStart (h : CanonicalGlobal s) {launch} : CanonicalNext (execLaunchStart launch s) := by
  unfold Machine.execLaunchStart
  refine .next ?_
  split
  · refine .ite h.partReach ?_
    refine .ite ?_ h
    split
    · exact (h.launchReady.fst ‹_›).startLaunch
    · exact h.launchReady.fst ‹_›
  · exact h

theorem freeCores (h : CanonicalGlobal s) {l} : CanonicalGlobal (s.freeCores l) :=
  (h.switchFusion.foldl fun _ _ k => k.onCore).same

theorem completeLaunch (h : CanonicalGlobal s) {l} : CanonicalGlobal (s.completeLaunch l) :=
  h.through.putStatus.freeCores.onLaunch.refreshSeqs

theorem execLaunchComplete (h : CanonicalGlobal s) {launch} : CanonicalNext (execLaunchComplete launch s) := by
  unfold Machine.execLaunchComplete
  refine .next ?_
  split
  · exact .ite h.completeLaunch h
  · exact h

/-! ### HostMemory -/

/-! ### EngineRun -/

theorem endRun (h : CanonicalGlobal s) {n e c} {r : State × Moved} (hr : CanonicalGlobal r.1) {flags} :
    CanonicalGlobal (s.endRun n e c r flags) := by
  unfold State.endRun
  split
  · exact h.waits
  · exact h.waits.fetchAway
  · exact hr.ran
  · exact hr.ran

theorem runVs (h : CanonicalGlobal s) {n c} : CanonicalGlobal (s.runVs n c) := by
  unfold State.runVs
  split
  · exact h.endRun h.runTap
  · exact h.runStream.ran

theorem execVstreamOpRun (h : CanonicalGlobal s) {core} : CanonicalNext (execVstreamOpRun core s) := by
  unfold Machine.execVstreamOpRun
  refine .next ?_
  split
  · exact .ite h.runVs h
  · exact h

theorem execMatrixOpRun (h : CanonicalGlobal s) {core} : CanonicalNext (execMatrixOpRun core s) := by
  unfold Machine.execMatrixOpRun
  refine .next ?_
  split
  · exact h.runMatrix.ran.onCmd
  · exact h

theorem runCp (h : CanonicalGlobal s) {n c} : CanonicalGlobal (s.runCp n c) := by
  unfold State.runCp
  split
  · exact h.endRun h.runKvld
  · exact h.endRun h.runKvapp
  · exact h.endRun h.runCopy

theorem execCopyOpRun (h : CanonicalGlobal s) {core} : CanonicalNext (execCopyOpRun core s) := by
  unfold Machine.execCopyOpRun
  refine .next ?_
  split
  · exact .ite h.sendOut (.ite h.runCp h)
  · exact h

theorem finish (h : CanonicalGlobal s) {n e c} : CanonicalGlobal (s.finish n e c) := by
  unfold State.finish
  refine .ite ?_ ?_
  · split
    · exact h.onQueue.traceRec
    · exact h.onQueue
  · refine .ite ?_ ?_
    · split
      · refine .lands ?_
        refine .untrack ?_
        refine .supply ?_
        split
        · exact h.onQueue.traceRec
        · exact h.onQueue
      · refine .untrack ?_
        refine .supply ?_
        split
        · exact h.onQueue.traceRec
        · exact h.onQueue
    · refine .onCore ?_
      split
      · refine .lands ?_
        refine .untrack ?_
        refine .supply ?_
        split
        · exact h.onQueue.traceRec
        · exact h.onQueue
      · refine .untrack ?_
        refine .supply ?_
        split
        · exact h.onQueue.traceRec
        · exact h.onQueue

theorem notifyFails (h : CanonicalGlobal s) {n e c why addr} : CanonicalGlobal (s.notifyFails n e c why addr) := by
  unfold State.notifyFails
  split
  · exact h.finish
  · exact h.onMat.finish

theorem finishTold (h : CanonicalGlobal s) {n e c} : CanonicalGlobal (s.finishTold n e c) :=
  .ite h.finish h.sendOut

theorem completeOp (h : CanonicalGlobal s) {n e c} : CanonicalGlobal (s.completeOp n e c) := by
  unfold State.completeOp
  refine .ite h.finishTold ?_
  split
  · exact h.finish
  · split
    · exact (h.notify.fst ‹_›).notifyFails
    · exact CanonicalSome.getD (.map fun _ => (h.notify.fst ‹_›).onCmd.finishTold) ((h.notify.fst ‹_›).onCmd)
    · exact h.waits

theorem execEngineOpComplete (h : CanonicalGlobal s) {core eng} : CanonicalNext (execEngineOpComplete core eng s) := by
  unfold Machine.execEngineOpComplete
  refine .next ?_
  split
  · exact .ite h.completeOp h
  · exact h

/-! ### Preempt -/

theorem park (h : CanonicalGlobal s) {n t} : CanonicalGlobal (s.park n t) :=
  h.onThread

theorem parkIfBlocked (h : CanonicalGlobal s) {n t blocking} : CanonicalGlobal (s.parkIfBlocked n t blocking) :=
  .ite h.park h

theorem preempt (h : CanonicalGlobal s) {l} : CanonicalGlobal (s.preempt l) :=
  h.onLaunch.foldl fun _ _ k => k.foldl fun _ _ k => .ite k.park k

theorem execPreemptRequest (h : CanonicalGlobal s) {launch} : CanonicalNext (execPreemptRequest launch s) := by
  unfold Machine.execPreemptRequest
  refine .next ?_
  split
  · exact .ite h.preempt h
  · exact h

theorem execTimeSliceExpiry (h : CanonicalGlobal s) {launch} : CanonicalNext (execTimeSliceExpiry launch s) := by
  unfold Machine.execTimeSliceExpiry
  refine .next ?_
  split
  · exact .ite h.preempt h
  · exact h

theorem saveContext (h : CanonicalGlobal s) {l} : CanonicalGlobal (s.saveContext l) := by
  unfold State.saveContext
  dsimp only
  split
  · exact ((h.foldl fun _ _ k => k.foldl fun _ _ k => k.endHolds).switchFusion.foldl
      fun _ _ k => k.onCore).withLaunches.refreshSeqs
  · exact (h.foldl fun _ _ k => k.foldl fun _ _ k => k.endHolds).switchFusion.foldl fun _ _ k => k.onCore

theorem execContextSave (h : CanonicalGlobal s) {launch} : CanonicalNext (execContextSave launch s) := by
  unfold Machine.execContextSave
  refine .next ?_
  split
  · exact .ite h.saveContext h
  · exact h

theorem resumeContext (h : CanonicalGlobal s) {l} : CanonicalGlobal (s.resumeContext l) :=
  (h.switchFusion.emptyShadows.foldl fun _ _ k => k.onCore).same.onLaunch.refreshSeqs

theorem execContextResume (h : CanonicalGlobal s) {launch} : CanonicalNext (execContextResume launch s) := by
  unfold Machine.execContextResume
  refine .next ?_
  split
  · exact .ite h.resumeContext h
  · exact h

theorem timeOut (h : CanonicalGlobal s) {l} : CanonicalGlobal (s.timeOut l) :=
  ((h.foldl fun _ _ k => k.contextRecord).foldl fun _ _ k => k.foldl fun _ _ k => .ite k.endHolds.onThread k).onLaunch

theorem execPreemptTimeout (h : CanonicalGlobal s) {launch} : CanonicalNext (execPreemptTimeout launch s) := by
  unfold Machine.execPreemptTimeout
  refine .next ?_
  split
  · exact .ite h.timeOut h
  · exact h

/-! ### Host -/

theorem onBox (h : CanonicalGlobal s) {fn f} : CanonicalGlobal (s.onBox fn f) :=
  h.same

theorem mbComplete (h : CanonicalGlobal s) {fn result bytes} : CanonicalGlobal (s.mbComplete fn result bytes) :=
  h.onBox

theorem mbAnswer (h : CanonicalGlobal s) {fn result bytes} : CanonicalGlobal (s.mbAnswer fn result bytes) :=
  h.onBox

theorem mbTake (h : CanonicalGlobal s) {fn} : CanonicalGlobal (s.mbTake fn) :=
  h.onBox

theorem submit (h : CanonicalGlobal s) {fn code k} (hk : ∀ t, CanonicalGlobal t → ∀ b, CanonicalGlobal (k t b)) :
    CanonicalGlobal (s.submit fn code k) := by
  unfold State.submit
  refine .ite h ?_
  split
  · exact h.mbTake.mbComplete
  · exact hk _ h.mbTake _

theorem assign (h : CanonicalGlobal s) {p boot} : CanonicalGlobal (s.assign p boot).1 :=
  h.same.homeWrite

theorem unassign (h : CanonicalGlobal s) {part} : CanonicalGlobal (s.unassign part) :=
  h.same

theorem frontKernel (h : CanonicalGlobal s) {part addr pas} : CanonicalGlobal (s.frontKernel part addr pas).1 :=
  .iteFst (.pair h.acceptLaunch.onLaunch) h.putStatus

theorem awaiting (h : CanonicalGlobal s) {r'} : CanonicalGlobal (s.awaiting r') :=
  h.same

theorem createWith (h : CanonicalGlobal s) {fn vf count boot} : CanonicalGlobal (s.createWith fn vf count boot) := by
  unfold State.createWith
  dsimp only
  split
  · exact h.assign.unassign.mbAnswer
  · exact h.awaiting
  · split
    · exact h.awaiting
    · exact .ite (((h.assign.partReach.fst ‹_›).predaKnown.fst ‹_›).frontKernel.mbAnswer)
        (((h.assign.partReach.fst ‹_›).predaKnown.fst ‹_›).frontKernel.unassign.mbAnswer)

theorem create (h : CanonicalGlobal s) {fn req} : CanonicalGlobal (s.create fn req) := by
  unfold State.create
  exact .ite h.createWith h.snoopAll

theorem execCreatePartition (h : CanonicalGlobal s) {fn} : CanonicalNext (execCreatePartition fn s) := by
  unfold Machine.execCreatePartition
  refine .next ?_
  refine .submit h fun _ k _ => ?_
  split
  · exact k.create
  · exact k.mbComplete

theorem preemptAll (h : CanonicalGlobal s) {part} : CanonicalGlobal (s.preemptAll part) :=
  h.foldl fun _ _ k => k.preempt

theorem destroyed (h : CanonicalGlobal s) {part} : CanonicalGlobal (s.destroyed part) := by
  unfold State.destroyed
  refine .withLaunches ?_
  refine .traceCut ?_
  refine .unassign ?_
  refine .dropTlb ?_
  refine .foldl h fun _ _ k => ?_
  split
  · exact k.withLaunches.completeLaunch
  · exact k

theorem execResizePartition (h : CanonicalGlobal s) {fn} : CanonicalNext (execResizePartition fn s) := by
  unfold Machine.execResizePartition
  refine .next ?_
  refine .submit h fun _ k _ => ?_
  dsimp only
  split
  · exact k.mbComplete
  · exact .ite k.mbComplete k.onPart.mbAnswer

theorem loadImage (h : CanonicalGlobal s) {image} : CanonicalGlobal (s.loadImage image) :=
  .ite h.same h

theorem execAttest (h : CanonicalGlobal s) {fn} : CanonicalNext (execAttest fn s) := by
  unfold Machine.execAttest
  refine .next ?_
  refine .submit h fun _ k _ => ?_
  split
  · exact k.mbComplete
  · exact .ite k.mbComplete k.hostBuffer.mbAnswer

/-! ### Debug -/

theorem execDebugFreeze (h : CanonicalGlobal s) {fn} : CanonicalNext (execDebugFreeze fn s) := by
  unfold Machine.execDebugFreeze
  refine .next ?_
  refine .submit h fun _ k _ => ?_
  split
  · exact k.mbComplete
  · exact .ite k.mbComplete k.requestFreeze.mbAnswer

theorem execResume (h : CanonicalGlobal s) {fn} : CanonicalNext (execResume fn s) := by
  unfold Machine.execResume
  refine .next ?_
  refine .submit h fun _ k _ => ?_
  split
  · exact k.mbComplete
  · exact .ite k.mbComplete k.onBar.mbAnswer

theorem execQuery (h : CanonicalGlobal s) {fn} : CanonicalNext (execQuery fn s) := by
  unfold Machine.execQuery
  refine .next ?_
  refine .submit h fun _ k _ => ?_
  split
  · exact k.mbComplete
  · exact k.mbAnswer

theorem execStepOne (h : CanonicalGlobal s) {fn} : CanonicalNext (execStepOne fn s) := by
  unfold Machine.execStepOne
  refine .next ?_
  refine .submit h fun _ k _ => ?_
  split
  · exact k.mbComplete
  · exact k.same

theorem stepEnds (h : CanonicalGlobal s) {fn} : CanonicalGlobal (s.stepEnds fn) := by
  unfold State.stepEnds
  split
  · exact .mbComplete (.ite h.same.hostBuffer h.same.hostBuffer.onBar)
  · exact h

theorem writeObject (h : CanonicalGlobal s) {n t kind index len bs} :
    CanonicalSome (s.writeObject n t kind index len bs) := by
  unfold State.writeObject
  dsimp only
  split
  · exact .ite (.some h.onThread) .none
  · exact .ite (.some h.onThread) .none
  · refine .ite .none ?_
    split
    · exact .some h.sysWrite
    · exact .none
  · exact .ite .none (.some h.onThread)
  · exact .ite .none (.some h.onCore)
  · exact .ite (.some h.onMat) .none
  · exact .ite (.some h.onPlan) .none
  · exact .ite (.some h.onCore) .none
  · exact .none

theorem execReadState (h : CanonicalGlobal s) {fn} : CanonicalNext (execReadState fn s) := by
  unfold Machine.execReadState
  refine .next ?_
  refine .submit h fun _ k _ => ?_
  split
  · exact k.mbComplete
  · split
    · exact k.mbComplete
    · exact .ite k.mbComplete k.hostBuffer.mbAnswer

theorem execWriteState (h : CanonicalGlobal s) {fn bytes} : CanonicalNext (execWriteState fn bytes s) := by
  unfold Machine.execWriteState
  refine .next ?_
  refine .submit h fun _ k _ => ?_
  split
  · exact k.mbComplete
  · split
    · exact k.mbComplete
    · exact .ite k.mbComplete ((k.writeObject.of_some ‹_›).mbAnswer)

theorem debugLaunch (h : CanonicalGlobal s) {fn part addr pas r old} :
    CanonicalGlobal (s.debugLaunch fn part addr pas r old) :=
  .ite h.acceptLaunch.withLaunches.onLaunch.mbAnswer h.putStatus.mbAnswer

theorem recordRun (h : CanonicalGlobal s) {fn req} : CanonicalGlobal (s.recordRun fn req) := by
  unfold State.recordRun
  dsimp only
  split
  · exact (h.partReach.fst ‹_›).mbComplete
  · exact h.partReach.fst ‹_›
  · split
    · exact ((h.partReach.fst ‹_›).predaKnown.fst ‹_›).debugLaunch
    · exact (h.partReach.fst ‹_›).predaKnown.fst ‹_›

theorem rewind (h : CanonicalGlobal s) {part r} : CanonicalGlobal (s.rewind part r) :=
  ((h.foldl fun _ _ k => k.homeWrite).foldl fun _ _ k => k.flushL1).foldl fun _ _ k => k.onCore

theorem replayRun (h : CanonicalGlobal s) {fn req} : CanonicalGlobal (s.replayRun fn req) := by
  unfold State.replayRun
  split
  · exact h.mbComplete
  · dsimp only
    split
    · exact (h.partReach.fst ‹_›).mbComplete
    · exact h.partReach.fst ‹_›
    · exact .ite ((h.partReach.fst ‹_›).snoopAll) (.ite ((h.partReach.fst ‹_›).predaKnown)
        ((h.partReach.fst ‹_›).rewind.debugLaunch))

theorem execReplay (h : CanonicalGlobal s) {fn} : CanonicalNext (execReplay fn s) := by
  unfold Machine.execReplay
  refine .next ?_
  refine .submit h fun _ k _ => ?_
  split
  · exact .ite k.mbComplete k.replayRun
  · exact k.mbComplete

theorem execMailboxRequestComplete (h : CanonicalGlobal s) {fn} : CanonicalNext (execMailboxRequestComplete fn s) := by
  unfold Machine.execMailboxRequestComplete
  refine .next ?_
  refine .ite h ?_
  split
  · exact h.mbComplete
  · split
    · exact h.create
    · exact h.recordRun
    · exact h.replayRun
    · exact .ite h.destroyed.mbComplete h.preemptAll
    · exact .ite h.stepEnds h
    · exact h

/-! ### Fabric -/

theorem respond (h : CanonicalGlobal s) {id val} : CanonicalGlobal (s.respond id val) :=
  h.same

theorem performRemote (h : CanonicalGlobal s) {r} : CanonicalGlobal (s.performRemote r) := by
  unfold State.performRemote
  dsimp only
  split
  · exact h.homeWrite.homePoison.respond
  · refine .ite h.respond ?_
    split
    · exact h.homeWrite.respond
    · exact h.respond
  · exact h.respond

theorem performAtRouter (h : CanonicalGlobal s) {r k off} : CanonicalGlobal (s.performAtRouter r k off) := by
  unfold State.performAtRouter
  split
  · exact .respond (.ite h.engineLocal h)
  · exact h.atomicPeer.respond
  · exact h.respond

theorem remoteArrives (h : CanonicalGlobal s) {id} : CanonicalGlobal (s.remoteArrives id) := by
  unfold State.remoteArrives
  split
  · refine .ite h ?_
    split
    · exact h.performAtRouter
    · exact .ite h.performRemote h.snoopAll
  · exact h

theorem foreignAccess (h : CanonicalGlobal s) {src pa acc} : CanonicalGlobal (s.foreignAccess src pa acc) :=
  h.fresh.same

theorem execFabricRemoteAccess (h : CanonicalGlobal s) {acc} : CanonicalNext (execFabricRemoteAccess acc s) := by
  unfold Machine.execFabricRemoteAccess
  refine .next ?_
  split
  · exact h.remoteArrives
  · exact .ite h h.foreignAccess.remoteArrives

theorem closeRemote (h : CanonicalGlobal s) {r val} : CanonicalGlobal (s.closeRemote r val) := by
  unfold State.closeRemote
  refine .ite h.same ?_
  split
  · exact h.same.onAnyCmd
  · exact h.same.untrack.onPend
  · exact h.same.untrack.onThread

theorem execFabricAck (h : CanonicalGlobal s) {id} : CanonicalNext (execFabricAck id s) := by
  unfold Machine.execFabricAck
  refine .next ?_
  split
  · split
    · exact h.closeRemote
    · exact h
  · exact h

theorem execFabricDeliveryTimeout (h : CanonicalGlobal s) {id} : CanonicalNext (execFabricDeliveryTimeout id s) := by
  unfold Machine.execFabricDeliveryTimeout
  refine .next ?_
  split
  · exact .ite h (.ite h.closeRemote.machineRecord h.closeRemote)
  · exact h

theorem takeLaunch (h : CanonicalGlobal s) {part bytes image} : CanonicalGlobal (s.takeLaunch part bytes image) :=
  h.fresh.withLaunches

theorem execFabricLaunchReceive (h : CanonicalGlobal s) {src bytes image} :
    CanonicalNext (execFabricLaunchReceive src bytes image s) := by
  unfold Machine.execFabricLaunchReceive
  refine .next ?_
  split
  · exact h
  · refine .ite h ?_
    split
    · exact h.predaKnown.fst ‹_›
    · exact .ite ((h.predaKnown.fst ‹_›).takeLaunch) (h.predaKnown.fst ‹_›)

theorem execStartBarrierComplete (h : CanonicalGlobal s) {gen ok} : CanonicalNext (execStartBarrierComplete gen ok s) := by
  unfold Machine.execStartBarrierComplete
  refine .next ?_
  split
  · exact h
  · exact .ite h.onLaunch h.withLaunches.putStatus

theorem onPort (h : CanonicalGlobal s) {port p} : CanonicalGlobal (s.onPort port p) :=
  h.same

/-! ### Hardware -/

theorem replaceCore (h : CanonicalGlobal s) {n} : CanonicalGlobal (s.replaceCore n) :=
  .ite h.flushL1.onCore.same h.flushL1.onCore.same

theorem retireUnit (h : CanonicalGlobal s) {u} : CanonicalGlobal (s.retireUnit u) := by
  unfold State.retireUnit
  dsimp only
  split
  · exact h.machineRecord.same.replaceCore
  · exact h.machineRecord.same

theorem execUnitRetire (h : CanonicalGlobal s) {unit} : CanonicalNext (execUnitRetire unit s) := by
  unfold Machine.execUnitRetire
  refine .next ?_
  refine .ite h ?_
  split
  · split
    · exact .ite h.preempt h
    · exact h.retireUnit
  · exact h.retireUnit

theorem execPowerOn (_ : CanonicalGlobal s) {images} : CanonicalNext (execPowerOn images s) := by
  unfold Machine.execPowerOn
  exact .next (.foldl reset fun _ _ k => k.loadImage)

/-! ### Dispatch -/

theorem exec (h : CanonicalGlobal s) {i} : CanonicalNext (exec i s) := by
  cases i with
  | add => exact .next h.alu
  | sub => exact .next h.alu
  | mul => exact .next h.aluLate
  | mulh => exact .next h.aluLate
  | mulhu => exact .next h.aluLate
  | div => exact .next h.doneLate
  | divu => exact .next h.aluLate
  | rem => exact .next h.aluLate
  | remu => exact .next h.aluLate
  | and => exact .next h.logic
  | or => exact .next h.logic
  | xor => exact .next h.logic
  | andn => exact .next h.logic
  | sll => exact .next h.shift
  | srl => exact .next h.shift
  | sra => exact .next h.shift
  | min => exact .next h.alu
  | max => exact .next h.alu
  | minu => exact .next h.alu
  | maxu => exact .next h.alu
  | cmp => exact .next h.done
  | sel => exact .next h.done
  | clz => exact .next h.bitsOp
  | ctz => exact .next h.bitsOp
  | popc => exact .next h.bitsOp
  | brev => exact .next h.bitsOp
  | bswap => exact .next h.bitsOp
  | bfx => exact .next h.done
  | bfi => exact .next h.done
  | addi => exact .next h.done
  | andi => exact .next h.done
  | ori => exact .next h.done
  | xori => exact .next h.done
  | slli => exact .next h.done
  | srli => exact .next h.done
  | srai => exact .next h.done
  | cmpi => exact .next h.done
  | li => exact .next h.done
  | lih => exact .next h.done
  | lea => exact .next h.done
  | pcrel => exact .next h.done
  | bz => exact .next h.branch
  | bnz => exact .next h.branch
  | j => exact .next h.jump
  | jr => exact .next h.jumpTo
  | call => exact .next h.jumpTo
  | callr => exact .next h.jumpTo
  | ret => exact .next h.jumpTo
  | save => exact .next h.moveWindow
  | restore => exact .next h.moveWindow
  | loop => exact .next h.startLoop
  | loopi => exact .next h.startLoop
  | loopx => exact .next h.onLoops.retire
  | ld => exact .next h.load
  | st => exact .next h.store
  | ldx => exact .next h.load
  | stx => exact .next h.store
  | ldl => exact .next h.load
  | stl => exact .next h.store
  | vld => exact .next h.load
  | vst => exact .next h.store
  | ldm => exact .next h.load
  | stm => exact .next h.store
  | movm => exact .next h.doneGroup
  | amo => exact .next h.atomic
  | cas => exact .next h.atomic
  | fence => exact .next (.ite h.acquire.retire h.stall)
  | pld => exact .next (.ite h.trap h.paramLoad)
  | waitw => exact h.execWaitw
  | fadd => exact .next h.float2
  | fsub => exact .next h.float2
  | fmul => exact .next h.float2
  | fdiv => exact .next (h.rounding fun _ => h.floatLate)
  | fsqrt => exact .next (h.rounding fun _ => h.floatLate)
  | fma => exact .next (h.rounding fun _ => h.doneLate)
  | fmin => exact .next h.doneLate
  | fmax => exact .next h.doneLate
  | fcmp => exact .next h.doneLate
  | fclass => exact .next h.done
  | fsgn => exact .next h.done
  | vadd => exact .next h.lane2
  | vsub => exact .next h.lane2
  | vmul => exact .next h.lane2
  | vfma => exact .next (h.roundingIf fun _ => h.doneV)
  | vmin => exact .next h.doneV
  | vmax => exact .next h.doneV
  | vand => exact .next h.doneV
  | vor => exact .next h.doneV
  | vxor => exact .next h.doneV
  | vshl => exact .next h.doneV
  | vshr => exact .next h.doneV
  | vcmp => exact .next h.doneV
  | vsel => exact .next h.doneV
  | vsplat => exact .next h.doneV
  | vext => exact .next h.doneLate
  | vins => exact .next h.doneV
  | vshuf => exact .next h.doneV
  | vdot => exact .next (h.roundingIf fun _ => h.doneV)
  | vred => exact .next (h.roundingIf fun _ => h.doneV)
  | cvt => exact h.execCvt
  | vcvt => exact .next (h.roundingIf fun _ => h.doneV)
  | flenc => exact .next h.doneGroup
  | fldec => exact .next h.doneGroup
  | sfu => exact .next (h.rounding fun _ => h.issueWord)
  | vsfu => exact .next (h.rounding fun _ => h.issueValue)
  | spset => exact .next h.setPtr.retire
  | spget => exact .next h.wr.retire
  | vsadd => exact .next h.stream3
  | vssub => exact .next h.stream3
  | vsmul => exact .next h.stream3
  | vsfma => exact .next h.stream3
  | vsaxpy => exact .next h.stream3
  | vsmax => exact .next h.stream3
  | vsmin => exact .next h.stream3
  | vsexp => exact .next h.stream2
  | vsred => exact .next h.stream2
  | vsdot => exact .next (h.rounding fun _ => h.stream)
  | vscvt => exact .next (h.roundingIf fun _ => h.stream)
  | vscopy => exact .next h.stream2
  | vsfill => exact .next h.stream
  | mxwl => exact .next h.matrix
  | mxwf => exact .next h.matrix
  | mxa => exact .next h.matrix
  | mxd => exact .next h.matrix
  | mxz => exact .next h.matrix
  | mxstat => exact .next (.ite h.stall h.addPend.enter)
  | mxrem => exact h.execMxrem
  | cpy => exact .next h.copy
  | cpyn => exact .next h.copy
  | cpy2d => exact .next h.copy
  | cpyg => exact .next h.copy
  | cpye => exact .next h.command
  | qfence => exact .next (.ite h.qfenceEnd h.stall)
  | gang => exact .next (.ite h.wr.gangEnd.gangLeave.retire
    (.ite h.wr.gangLeave.retire ((h.setSlot.foldl fun _ _ k => k.setSlot.onThread).wr.retire)))
  | detach => exact .next (.ite h.detach.retire h.retire)
  | rejoin => exact h.execRejoin
  | chkpt => exact .next (.ite h.retire.checkpoint h.retire)
  | stp => exact h.execStp
  | pushl => exact h.execPushl
  | hold => exact h.execHold
  | unhold => exact h.execUnhold
  | dqpush => exact .next (.ite h.wr.retire (.ite h.wr.retire (.ite h.stall h.onCurCore.wr.retire)))
  | dqpop => exact h.execDqpop
  | sync => exact h.execSync
  | exch => exact h.execExch
  | redv => exact .next h.fresh.onBar.addPend.track.retire
  | domset => exact .next h.domRequest.wr.retire
  | domget => exact .next h.wr.retire
  | launch => exact h.execLaunch
  | cxopen => exact h.execCxopen
  | cxclose => exact .next (h.requestSeq fun _ _ => .ite h.refuse (.ite h.refuse (.ite h.stall h.closeSeq.replies)))
  | cxins => exact .next h.editOp
  | cxrep => exact .next h.editOp
  | cxdel => exact .next h.editOp
  | cxcommit => exact h.execCxcommit
  | cxsettle => exact h.execCxsettle
  | cxwaitb => exact h.execCxwaitb
  | cxstate => exact h.execCxstate
  | cxlen => exact h.execCxlen
  | cxfork => exact h.execCxfork
  | kvaddr => exact h.execKvaddr
  | kvld => exact h.execKvld
  | kvapp => exact h.execKvapp
  | slabgrow => exact h.execSlabgrow
  | lah => exact h.execLah
  | tap => exact .next (.ite h.stall (.ite h.trap (.ite h.contextTrap (.ite h.contextTrap h.openKey.enter))))
  | tapld => exact h.execTapld
  | rng => exact .next h.doneLate
  | gumb => exact .next h.doneV
  | penal => exact h.execPenal
  | tourn => exact h.execTourn
  | rsr => exact h.execRsr
  | wsr => exact .next h.wsr
  | trap => exact .next h.retire.trapAt.fated
  | tret => exact .next (.ite h.privTrap h.trapReturn)
  | tfence => exact .next h.tfence
  | fetchb => exact .next h.retire.onCur
  | cwb => exact .next (h.lineOp fun _ k _ _ => .ite k.trackAll.retire k.cleanLine.retire)
  | cinv => exact .next (h.lineOp fun _ k _ _ => .ite k.dropLine.retire (.ite k.retire k.dropV.retire))
  | iinv => exact .next (h.lineOp fun _ k _ _ => k.onCurCore.retire)
  | dmapsel => exact .next (.ite h.trap (.ite h.trap h.onCur.retire))
  | dmapld => unfold Machine.exec; exact h.execDmapld
  | tlbinv => exact h.execTlbinv
  | region => exact h.execRegion
  | freeze => exact .next (.ite h.privTrap h.requestFreeze.wr.retire)
  | stop => exact h.execStop
  | cVadd => exact .next h.lane2
  | cVsub => exact .next h.lane2
  | cVmul => exact .next h.lane2
  | cVmin => exact .next h.doneV
  | cVmax => exact .next h.doneV
  | cVand => exact .next h.doneV
  | cVor => exact .next h.doneV
  | cVxor => exact .next h.doneV
  | cVshl => exact .next h.doneV
  | cVshr => exact .next h.doneV
  | cVceq => exact .next h.doneV
  | cVclt => exact .next h.doneV
  | cVmov => exact .next h.doneV
  | cVabs => exact .next h.doneV
  | cVneg => exact .next h.doneV
  | cVspl => exact .next h.doneV
  | cMov => exact .next h.logic
  | cAddi => exact .next h.done
  | cLi => exact .next h.done
  | cBz => exact .next h.branch
  | cBnz => exact .next h.branch
  | cJ => exact .next h.jump
  | cLdw => exact .next h.load
  | cStw => exact .next h.store
  | cSlli => exact .next h.done
  | cSrai => exact .next h.done
  | cRet => exact .next h.jumpTo
  | cNop => exact .next h.retire
  | cTfence => exact .next h.tfence
  | cWaitt => exact .next (h.waitTags fun _ k => k.retire)
  | dep => exact h.execDep
  | asyncResultLands => exact h.execAsyncResultLands
  | asyncPoisonTrap => exact .next (CanonicalSome.getD h.takePoison h)
  | vstreamOpRun => exact h.execVstreamOpRun
  | matrixOpRun => exact h.execMatrixOpRun
  | copyOpRun => exact h.execCopyOpRun
  | engineOpComplete => exact h.execEngineOpComplete
  | mxremArrival => exact h.execMxremArrival
  | pushArrival => exact h.execPushArrival
  | pushOutcome => exact h.execPushOutcome
  | pushInvalidation => exact h.execPushInvalidation
  | registration => exact h.execRegistration
  | registrationReply => exact h.execRegistrationReply
  | readMiss => exact h.execReadMiss
  | forward => exact h.execForward
  | revoke => exact h.execRevoke
  | homeAtomic => exact h.execHomeAtomic
  | holdTimerExpiry => exact h.execHoldTimerExpiry
  | waitwReread => exact h.execWaitwReread
  | dqpopResearch => exact h.execDqpopResearch
  | stealRequest => exact h.execStealRequest
  | barrierComplete => exact h.execBarrierComplete
  | exchangePhaseEnd => exact h.execExchangePhaseEnd
  | taskInject => exact h.execTaskInject
  | unsharingRelocationEnd => exact h.execUnsharingRelocationEnd
  | slabRelocationEnd => exact h.execSlabRelocationEnd
  | kvPageSpill => exact h.execKvPageSpill
  | kvPageResident => exact h.execKvPageResident
  | tapEventEntry => exact .next (CanonicalSome.getD (.bind fun _ => h.takeTap) h)
  | budgetExpiry => exact .next (CanonicalSome.getD h.takeBudget h)
  | preemptRequest => exact h.execPreemptRequest
  | contextSave => exact h.execContextSave
  | preemptTimeout => exact h.execPreemptTimeout
  | contextResume => exact h.execContextResume
  | timeSliceExpiry => exact h.execTimeSliceExpiry
  | lockstepCheckpoint => exact .next (.ite h.checkpoint h)
  | lockstepMismatch => exact .next (.ite h (.ite h.rollback (h.rollback.onCore.foldl fun _ _ k => .ite k.trapAt k)))
  | launchStart => exact h.execLaunchStart
  | launchComplete => exact h.execLaunchComplete
  | hostWrite => exact .next (.ite h.later h)
  | hostRead => exact .next (.ite h.later h)
  | snoopReply => exact .next (.ite h h.later)
  | snoopTimeout => exact .next (.ite h ((h.hostGives.foldl fun _ _ k => k.setPsn).snoopDone.machineRecord))
  | createPartition => exact h.execCreatePartition
  | destroyPartition => exact .next (h.submit fun _ k _ => k.preemptAll)
  | resizePartition => exact h.execResizePartition
  | setErrorWindow => exact .next (h.submit fun _ k _ => .ite k.mbComplete k.same.mbAnswer)
  | fwUpdate => exact .next (.ite h (h.submit fun _ k _ => .ite k.loadImage.mbAnswer k.mbAnswer))
  | attest => exact h.execAttest
  | debugFreeze => exact h.execDebugFreeze
  | resume => exact h.execResume
  | query => exact h.execQuery
  | stepOne => exact h.execStepOne
  | readState => exact h.execReadState
  | writeState => exact h.execWriteState
  | trace => exact .next (h.submit fun _ k _ => .ite k.traceCut.onPart.mbAnswer
    (.ite k.mbComplete k.traceCut.onPart.later.mbAnswer))
  | record => exact .next (h.submit fun _ k _ => k.recordRun)
  | replay => exact h.execReplay
  | mailboxRequestComplete => exact h.execMailboxRequestComplete
  | hostMmioWrite => exact .next h.onBox
  | domWrite => exact .next h.wsr
  | dmapWrite => exact .next h.wsr
  | pwbWrite => exact .next h.wsr
  | holdstWrite => exact .next h.wsr
  | fabricRemoteAccess => exact h.execFabricRemoteAccess
  | fabricAck => exact h.execFabricAck
  | fabricDeliveryTimeout => exact h.execFabricDeliveryTimeout
  | fabricLaunchReceive => exact h.execFabricLaunchReceive
  | startBarrierComplete => exact h.execStartBarrierComplete
  | linkPortDown => exact .next h.onPort.same
  | unitRetire => exact h.execUnitRetire
  | powerLimitReached => exact .next h.same
  | l1iFill => exact h.execL1iFill
  | uncorrectableError => exact h.execUncorrectableError
  | correctedError => exact .next h.noteError
  | powerOn => exact h.execPowerOn
  | portTraining => exact .next h.onPort.same
  | hostLinkTraining => exact .next h.same
  | tlbEntryLeave => exact .next (.ite h.same h.onCore)
  | mbdoor => exact .next (.ite h h.mbTake.mbComplete)

/-! ### Due -/

theorem run (h : CanonicalGlobal s) {x} : CanonicalNext (Due.run x s) := by
  unfold Due.run
  split
  · exact h.execAsyncResultLands
  · exact h.execStealRequest
  · exact h.execDqpopResearch
  · exact h.execWaitwReread
  · exact h.execVstreamOpRun
  · exact h.execMatrixOpRun
  · exact h.execCopyOpRun
  · exact h.execEngineOpComplete
  · exact h.execMxremArrival
  · exact h.execL1iFill
  · exact h.execHoldTimerExpiry
  · exact h.execPushArrival
  · exact h.execRegistration
  · exact h.execReadMiss
  · exact h.execHomeAtomic
  · exact h.execForward
  · exact h.execRevoke
  · exact h.execPushInvalidation
  · exact h.execRegistrationReply
  · exact h.execPushOutcome
  · exact h.execBarrierComplete
  · exact h.execExchangePhaseEnd
  · exact h.execTaskInject
  · exact h.execSlabRelocationEnd
  · exact h.execUnsharingRelocationEnd
  · exact h.execKvPageSpill
  · exact h.execKvPageResident
  · exact h.execLaunchStart
  · exact h.execLaunchComplete
  · exact h.execPreemptRequest
  · exact h.execTimeSliceExpiry
  · exact h.execContextSave
  · exact h.execPreemptTimeout
  · exact h.execContextResume
  · exact h.execMailboxRequestComplete
  · exact h.execFabricAck
  · exact h.execFabricRemoteAccess
  · exact h.execFabricDeliveryTimeout

/-! ### Schedule -/

theorem bytesFor (h : CanonicalGlobal s) {n t} : CanonicalGlobal (s.bytesFor n t).1 := by
  unfold State.bytesFor
  refine .iteFst ?_ h.fetch
  split
  · exact h
  · exact .iteFst h.detach.fetch h

theorem nextBytes (h : CanonicalGlobal s) {n t} : CanonicalGlobal (s.nextBytes n t).1 := by
  unfold State.nextBytes
  split
  · refine .pair ?_
    split
    · exact (h.bytesFor.fst ‹_›).landRead
    · exact h.bytesFor.fst ‹_›
  · exact h.bytesFor

theorem vectorFault (h : CanonicalGlobal s) {n t c} : CanonicalGlobal (s.vectorFault n t c) :=
  h.contextRecord.onThread.onCoreLaunch.rearrive

theorem issuing (h : CanonicalGlobal s) {n t a p len w} : CanonicalGlobal (s.issuing n t a p len w) :=
  h.same

theorem privFirst (h : CanonicalGlobal s) {i} : CanonicalSome (s.privFirst i) := by
  unfold State.privFirst
  refine .ite ?_ .none
  split
  · exact .ite (.some (h.exec.of_next ‹_›)) .none
  · exact .none

theorem execute (h : CanonicalGlobal s) {d i} : CanonicalNext (s.execute d i) := by
  unfold State.execute
  split
  · exact h.exec
  · split
    · exact .next (h.privFirst.of_some ‹_›)
    · split
      · exact .ite ((h.exec.of_next ‹_›).fated.exec) (.next (h.exec.of_next ‹_›))
      · exact h.exec

theorem checked (h : CanonicalGlobal s) {d i} : CanonicalNext (s.checked d i) := by
  unfold State.checked
  refine .ite h.execute ?_
  split
  · exact .next h.trap
  · split
    · exact .next (CanonicalSome.getD h.privFirst ((h.takeDamage.of_some ‹_›).fated))
    · exact h.execute

theorem runInstr (h : CanonicalGlobal s) {n t r} : CanonicalNext (s.runInstr n t r) := by
  unfold State.runInstr
  dsimp only
  split
  · exact .next h.issuing.trap
  · exact h.issuing.checked
  · exact h.issuing.checked

theorem prefetch (h : CanonicalGlobal s) {n t} : CanonicalGlobal (s.prefetch n t) :=
  .ite h.fillBuf h

theorem sample (h : CanonicalGlobal s) {n t} : CanonicalGlobal (s.sample n t) :=
  .ite h.traceRec h

theorem afterIssue (h : CanonicalGlobal s) {n t bs led r before} : CanonicalGlobal (s.afterIssue n t bs led r before) := by
  unfold State.afterIssue
  refine .ite ?_ (.ite h.count.sample.onCore h)
  dsimp only
  split
  · refine .ite ?_ ?_
    · refine .onThread ?_
      refine .ite ?_ ?_
      · refine .traceRec ?_
        refine .sign ?_
        split
        · exact .markLate (.ite h.count.sample.onCore h)
        · exact .ite h.count.sample.onCore h
      · split
        · exact .markLate (.ite h.count.sample.onCore h)
        · exact .ite h.count.sample.onCore h
    · refine .detach ?_
      refine .onThread ?_
      refine .ite ?_ ?_
      · refine .traceRec ?_
        refine .sign ?_
        split
        · exact .markLate (.ite h.count.sample.onCore h)
        · exact .ite h.count.sample.onCore h
      · split
        · exact .markLate (.ite h.count.sample.onCore h)
        · exact .ite h.count.sample.onCore h
  · refine .prefetch ?_
    refine .forward ?_
    refine .ite ?_ ?_
    · refine .traceRec ?_
      refine .sign ?_
      split
      · exact .markLate (.ite h.count.sample.onCore h)
      · exact .ite h.count.sample.onCore h
    · split
      · exact .markLate (.ite h.count.sample.onCore h)
      · exact .ite h.count.sample.onCore h

theorem issue (h : CanonicalGlobal s) {n t} : CanonicalNext (s.issue n t) := by
  unfold State.issue
  split
  · exact .next ((h.takeAsync.of_some ‹_›).fated)
  · split
    · exact .next (h.nextBytes.fst ‹_›)
    · exact .ite (.next ((h.nextBytes.fst ‹_›).vectorFault.fated)) (.next ((h.nextBytes.fst ‹_›).trapAt.fated))
    · refine .ite (.next ((h.nextBytes.fst ‹_›).park)) ?_
      dsimp only
      split
      · exact .next (((h.nextBytes.fst ‹_›).runInstr.of_next ‹_›).parkIfBlocked.afterIssue)
      · exact (h.nextBytes.fst ‹_›).runInstr

theorem passTime (h : CanonicalGlobal s) : CanonicalGlobal s.passTime := h

theorem considered (h : CanonicalGlobal s) {n t} : CanonicalGlobal (s.considered n t) :=
  h.onThread.onCore

theorem stepMark (h : CanonicalGlobal s) {n t} : CanonicalGlobal (s.stepMark n t) :=
  .ite (.same (.ite h.onCore h)) (.ite h.onCore h)

theorem checkpoints (h : CanonicalGlobal s) {before'} : CanonicalGlobal (s.checkpoints before') :=
  h.foldl fun _ _ k => .ite (.onCore (.ite k.checkpoint k)) (.ite k.checkpoint k)

theorem mirror (h : CanonicalGlobal s) : CanonicalGlobal s.mirror :=
  h.foldl fun _ _ k => k.onCore

theorem look (h : CanonicalGlobal s) {n t} : CanonicalNext (s.look n t) := by
  unfold State.look
  split
  · exact .next ((h.fated.issue.of_next ‹_›).stepMark)
  · exact h.fated.issue

theorem takeUp (h : CanonicalGlobal s) {n t} : CanonicalNext (s.takeUp n t) :=
  .ite h.considered.look (.next h)

theorem looks (h : CanonicalGlobal s) {n ts} : CanonicalNext (s.looks n ts) := by
  induction ts generalizing s with
  | nil => exact .next h.onCore
  | cons t ts ih =>
    simp only [State.looks]
    split
    · exact .ite (ih (h.considered.look.of_next ‹_›)) (.next (h.considered.look.of_next ‹_›))
    · exact h.considered.look

theorem act (h : CanonicalGlobal s) {a} : CanonicalNext (s.act a) := by
  unfold State.act
  split
  · exact .ite .fault h.takeUp
  · exact .ite h.exec .refused

theorem turn (h : CanonicalGlobal s) : CanonicalNext s.turn := by
  unfold State.turn
  split
  · exact h.looks
  · exact h.fated.run
  · exact .next h

theorem refreshed (h : CanonicalGlobal s) {before'} : CanonicalGlobal (s.refreshed before') :=
  .ite h (h.foldl fun _ _ k => k.refreshSeqs)

theorem close (h : CanonicalGlobal s) {before : State} : CanonicalGlobal (before.close s) :=
  h.refreshed.drain.checkpoints.mirror.traceOut.passTime

theorem oneStep (h : CanonicalGlobal s) : CanonicalNext s.oneStep := by
  unfold State.oneStep
  extract_lets r
  have hr : CanonicalNext r := by
    dsimp only [r]
    split
    · exact h.same.act
    · exact h.turn
  clear_value r
  cases r with
  | next t => exact .next (hr.of_next rfl).close
  | fault r => exact .fault
  | refused r => exact .refused

/-! ### Step -/

theorem step (h : CanonicalGlobal s) : CanonicalNext (step s) :=
  h.oneStep

end CanonicalGlobal

/-- Settles O15: whatever a step does, it is put together from operations that keep memory canonical. -/
theorem stepKeepsGlobalMemoryCanonical : Obligations.StepKeepsGlobalMemoryCanonical := by
  intro s t h e
  exact h.step.of_next e

end Sys2Proof.Claims

/-!
PROOFS. The host's half of a line, the fabric, errors, retirement and power-on (spec/21 R383, R384, R396, R397, R402; spec/22
R404 to R414). What home's own operations leave alone is said once, for every property of the directory, the snoops and
the fabric that they keep (`HomeInvariant`); the clauses of the obligation follow from one law for each case of an operation.
-/
namespace Sys2Proof.Machine
set_option Elab.async false

/-! ### Words of a line -/

theorem mem_allWords (w : BitVec 5) : w ∈ allWords :=
  List.mem_map.mpr ⟨w.toNat, List.mem_range.mpr w.isLt, BitVec.ofNat_toNat 5 w⟩

@[simp] theorem mem_wordsOf {m : BitVec 32} {w : BitVec 5} : w ∈ wordsOf m ↔ m.getLsbD w.toNat = true := by
  simp [wordsOf, mem_allWords]

@[simp] theorem getLsbD_wordBit (w v : BitVec 5) : (wordBit w).getLsbD v.toNat = decide (v = w) := by
  rw [wordBit, BitVec.getLsbD_ofNat, decide_eq_true v.isLt, Bool.true_and, Nat.testBit_two_pow]
  exact decide_eq_decide.mpr ⟨fun e => BitVec.eq_of_toNat_eq e.symm, fun e => e ▸ rfl⟩

@[simp] theorem getLsbD_maskOf (l : List (BitVec 5)) (v : BitVec 5) : (maskOf l).getLsbD v.toNat = decide (v ∈ l) := by
  have general (m : BitVec 32) : (l.foldl (fun m w => m ||| wordBit w) m).getLsbD v.toNat =
      (m.getLsbD v.toNat || decide (v ∈ l)) := by
    induction l generalizing m with
    | nil => simp
    | cons w l ih => simp [ih, Bool.or_assoc]
  simp [maskOf, general]

/-- A mask of words is determined by its words. -/
theorem mask_ext {m m' : BitVec 32} (h : ∀ w : BitVec 5, m.getLsbD w.toNat = m'.getLsbD w.toNat) : m = m' :=
  BitVec.eq_of_getLsbD_eq fun i hi => by
    have := h (BitVec.ofNat 5 i)
    rwa [BitVec.toNat_ofNat, Nat.mod_eq_of_lt hi] at this

@[simp] theorem get32_set32_self {α : Type} (v : Vector α 32) (i : BitVec 5) (x : α) : get32 (set32 v i x) i = x := by
  simp [get32, set32]

theorem get32_set32_ne {α : Type} (v : Vector α 32) {i j : BitVec 5} (x : α) (h : j ≠ i) :
    get32 (set32 v i x) j = get32 v j := by
  have : i.toNat ≠ j.toNat := fun e => h (BitVec.eq_of_toNat_eq e.symm)
  simp [get32, set32, Vector.getElem_set_ne _ _ this]

/-- Clearing words in a vector: the words of the list are `x`, the others as before. -/
theorem get32_foldl_set32 {α : Type} (l : List (BitVec 5)) (v : Vector α 32) (x : α) (w : BitVec 5) :
    get32 (l.foldl (fun v k => set32 v k x) v) w = if w ∈ l then x else get32 v w := by
  induction l generalizing v with
  | nil => rfl
  | cons k l ih =>
    rw [List.foldl_cons, ih]
    by_cases e : w = k
    · simp [e]
    · simp [e, get32_set32_ne _ _ e]

/-! ### Owners -/

theorem mem_toList_get32 {α : Type} (v : Vector α 32) (w : BitVec 5) : get32 v w ∈ v.toList := by
  simp [get32]

@[simp] theorem DirEntry.owner_tidy (d : DirEntry) (w : BitVec 5) : d.tidy.owner w = d.owner w := by
  have mem := mem_toList_get32 d.sel w
  have any (x : BitVec 2) (h : get32 d.sel w = x) : d.sel.toList.any (· == x) = true :=
    List.any_eq_true.mpr ⟨_, mem, by simp [h]⟩
  simp only [DirEntry.owner, DirEntry.tidy]
  split
  next h => rw [any 1 (BitVec.eq_of_toNat_eq h), if_pos rfl]
  next h => rw [any 2 (BitVec.eq_of_toNat_eq h), if_pos rfl]
  next => rfl

/-- Words that are released have no owner, the others the owner that they had. -/
@[simp] theorem DirEntry.owner_release (d : DirEntry) (m : BitVec 32) (w : BitVec 5) :
    (d.release m).owner w = if m.getLsbD w.toNat = true then none else d.owner w := by
  rw [DirEntry.release, owner_tidy]
  simp only [DirEntry.owner, get32_foldl_set32, mem_wordsOf]
  by_cases h : m.getLsbD w.toNat = true
  · simp [h]
  · simp [h]

/-- The host's words of a mask are those that it owns. -/
@[simp] theorem DirEntry.getLsbD_hostWords (d : DirEntry) (m : BitVec 32) (w : BitVec 5) :
    (d.hostWords m).getLsbD w.toNat = (m.getLsbD w.toNat && decide (d.owner w = some hostAgent)) := by
  simp [DirEntry.hostWords]

theorem DirEntry.hostWords_hostWords (d : DirEntry) (m : BitVec 32) : d.hostWords (d.hostWords m) = d.hostWords m :=
  mask_ext fun w => by simp

theorem DirEntry.hostWords_eq_zero {d : DirEntry} {m : BitVec 32} :
    d.hostWords m = 0 ↔ ∀ w : BitVec 5, m.getLsbD w.toNat = true → d.owner w ≠ some hostAgent := by
  constructor
  · intro e w hw ho
    have := d.getLsbD_hostWords m w
    simp [e, hw, ho] at this
  · intro h
    exact mask_ext fun w => by simpa using h w

@[simp] theorem State.dirOf_setDir_self (s : State) (num : Nat) (d : DirEntry) : (s.setDir num d).dirOf num = d := by
  simp [State.dirOf, State.setDir]

theorem State.dirOf_setDir_ne (s : State) {num l : Nat} (d : DirEntry) (h : l ≠ num) :
    (s.setDir num d).dirOf l = s.dirOf l := by
  simp [State.dirOf, State.setDir, assoc_assocPut_ne _ _ h]

/-! ### What home's own operations keep -/

/-- A property of the state that looks at the fabric, the directory and the snoops alone, and that home keeps when it
releases words and when it snoops what the host owns. Such a property is kept by the writes at home and by the records that
the part itself makes; where every late write keeps it, `later` does. -/
structure HomeInvariant (P : State → Prop) : Prop where
  same : ∀ {s t}, P s → t.fabric = s.fabric → t.mem.dir = s.mem.dir → t.mem.snoops = s.mem.snoops → P t
  setDir : ∀ {s num d}, P s → (∀ w, d.owner w = none ∨ d.owner w = (s.dirOf num).owner w) → P (s.setDir num d)
  snoop : ∀ {s l}, P s → (∀ h ∈ l, ∃ num m, h ∈ s.hostHalves num m) → P (s.snoop l)

namespace HomeInvariant

variable {P : State → Prop} (I : HomeInvariant P) {s : State}
include I

theorem onCore (h : P s) {n f} : P (s.onCore n f) := I.same h rfl rfl rfl

theorem release (h : P s) {num m} : P (s.setDir num ((s.dirOf num).release m)) := by
  refine I.setDir h fun w => ?_
  rw [DirEntry.owner_release]
  split
  · exact .inl rfl
  · exact .inr rfl

theorem setPsn (h : P s) {num w b} : P (s.setPsn num w b) := by
  unfold State.setPsn
  split
  · exact h
  · exact I.setDir h fun _ => .inr rfl

theorem mergeHome (h : P s) {num bs} : P (s.mergeHome num bs) :=
  List.foldlRecOn _ _ (I.same h rfl rfl rfl) fun _ k _ _ => I.setPsn k

theorem revokeNow (h : P s) {num m} : P (s.revokeNow num m) := by
  refine I.release (List.foldlRecOn _ _ h fun t k w _ => ?_)
  split
  next => exact k
  next a _ =>
    have h1 : P (t.putCellWord num w (t.homeWord num w).1) := I.same k rfl rfl rfl
    have h2 : P (((t.putCellWord num w (t.homeWord num w).1).setPsn num w (t.homeWord num w).2).stripReplies a.toNat num w) :=
      I.same (I.setPsn h1) rfl rfl rfl
    exact I.onCore h2

theorem homeWriteLine (h : P s) {num bs} : P (s.homeWriteLine num bs) := by
  unfold State.homeWriteLine
  extract_lets m s1 d s2
  have h1 : P s1 := I.mergeHome (I.revokeNow h)
  have h2 : P s2 ∧ s2.mem = s1.mem :=
    List.foldlRecOn (motive := fun t : State => P t ∧ t.mem = s1.mem) _ _ ⟨h1, rfl⟩ fun _ ⟨k, e⟩ _ _ =>
      ⟨I.same k rfl rfl rfl, e⟩
  refine I.setDir h2.1 fun w => ?_
  have e : s2.dirOf num = d := by rw [State.dirOf, h2.2]; rfl
  rw [e, show DirEntry.owner { d.release m with push := .cores [] } w = (d.release m).owner w from rfl,
    DirEntry.owner_release]
  split
  · exact .inl rfl
  · exact .inr rfl

theorem homeWrite (h : P s) {bs} : P (s.homeWrite bs) :=
  List.foldlRecOn _ _ h fun _ k _ _ => I.homeWriteLine k

theorem homePoison (h : P s) {pas} : P (s.homePoison pas) :=
  List.foldlRecOn _ _ h fun _ k _ _ => I.setPsn k

theorem snoopAll (h : P s) {pas} : P (s.snoopAll pas) :=
  List.foldlRecOn _ _ h fun _ k _ _ => I.snoop k fun _ hh => ⟨_, _, hh⟩

omit I in
theorem keepAll_owned {part pas} : ∀ h ∈ s.keepAll part pas, ∃ num m, h ∈ s.hostHalves num m := by
  intro x hx
  simp only [State.keepAll, List.mem_flatMap] at hx
  obtain ⟨l, -, pa, -, hx⟩ := hx
  unfold State.keepFirst at hx
  split at hx
  · obtain ⟨d, -, hd⟩ := List.mem_flatMap.mp hx
    exact ⟨_, _, hd⟩
  · cases hx

theorem walkPage (h : P s) {part acc va} : P (s.walkPage part acc va).1 := by
  unfold State.walkPage
  split
  · exact h
  · split
    · exact h
    · split
      · exact h
      · exact I.snoopAll h
      · exact h

theorem partPage (h : P s) {part acc va} : P (s.partPage part acc va).1 := by
  have hw := I.walkPage h (part := part) (acc := acc) (va := va)
  unfold State.partPage
  split
  next e =>
    rw [e] at hw
    split
    · exact I.same hw rfl rfl rfl
    · exact hw
  next => exact hw

theorem partAll (h : P s) {part acc fuel va size} : P (s.partAll part acc fuel va size).1 := by
  induction fuel generalizing s va size with
  | zero => exact h
  | succ fuel ih =>
    have hp := I.partPage h (part := part) (acc := acc) (va := va)
    simp only [State.partAll]
    split
    · exact h
    · split
      next e => rw [e] at hp; exact hp
      next e =>
        rw [e] at hp
        have hr := ih hp (va := va + min size (0x10000 - va % 0x10000)) (size := size - min size (0x10000 - va % 0x10000))
        split
        next e => rw [e] at hr; exact hr
        next e => rw [e] at hr; exact hr
      next e =>
        rw [e] at hp
        have hr := ih hp (va := va + min size (0x10000 - va % 0x10000)) (size := size - min size (0x10000 - va % 0x10000))
        split
        next e => rw [e] at hr; exact hr
        next => exact hr

theorem partReach (h : P s) {part acc va size} : P (s.partReach part acc va size).1 := by
  have ha := I.partAll h (part := part) (acc := acc) (fuel := size / 0x10000 + 2) (va := va) (size := size)
  unfold State.partReach
  split
  next e =>
    rw [e] at ha
    extract_lets first
    split
    · exact I.snoopAll ha
    · split
      · refine I.snoop ha fun x hx => ?_
        dsimp only [first] at hx
        split at hx
        · exact keepAll_owned x hx
        · cases hx
      · exact ha
  next => exact ha

theorem notePage (h : P s) {l pa} : P (s.notePage l pa) := by
  unfold State.notePage
  split
  · dsimp only
    split
    · exact h
    · split
      · exact I.same h rfl rfl rfl
      · exact I.same h rfl rfl rfl
  · exact h

theorem notePages (h : P s) {part pas} : P (s.notePages part pas) :=
  List.foldlRecOn _ _ h fun _ k _ _ => List.foldlRecOn _ _ k fun t k pa _ => by
    split
    · exact I.notePage k
    · exact k

theorem tapNumbered (h : P s) {part count tap} : P (s.tapNumbered part count tap) := by
  unfold State.tapNumbered
  split
  · exact I.same h rfl rfl rfl
  · exact h

theorem recordAt (h : P s) {part a} : P (s.recordAt part a).1 := by
  unfold State.recordAt
  split
  · exact h
  · have h1 := I.partReach h (part := part) (acc := .read) (va := a) (size := 4)
    split
    next e => rw [e] at h1; exact h1
    next e => rw [e] at h1; exact h1
    next t c e =>
      rw [e] at h1
      dsimp only
      have h2 := I.partReach h1 (part := part) (acc := .write)
        (va := a + 64 + 64 * (leNat (c.map fun pa => (t.homeByte pa).1) % 63)) (size := 64)
      split
      next e =>
        rw [e] at h2
        have h3 := I.partReach h2 (part := part) (acc := .write) (va := a) (size := 4)
        split
        next e => rw [e] at h3; exact h3
        next e => rw [e] at h3; exact h3
      next e => rw [e] at h2; exact h2

/-- A record and its count, at their place in the partition's memory or nowhere. -/
theorem lateRecord (h : P s) {part area bs tap} : P (s.lateNow ⟨part, .record area bs tap⟩).1 := by
  have h1 := I.recordAt h (part := part) (a := area.toNat)
  simp only [State.lateNow]
  split
  next e => rw [e] at h1; exact I.tapNumbered (I.homeWrite (I.notePages h1))
  next e => rw [e] at h1; exact I.tapNumbered h1
  next e => rw [e] at h1; exact h1

theorem drainList (now : ∀ {t l}, P t → P (t.lateNow l).1) {l blocked} (h : P s) : P (s.drainList blocked l) := by
  induction l generalizing s blocked with
  | nil => exact h
  | cons x l ih =>
    have h1 := now (l := x) h
    simp only [State.drainList]
    split
    · exact ih (I.same h rfl rfl rfl)
    · split
      next e => rw [e] at h1; exact ih h1
      next e => rw [e] at h1; exact ih (I.same h1 rfl rfl rfl)

theorem later (now : ∀ {t l}, P t → P (t.lateNow l).1) {part op} (h : P s) : P (s.later part op) :=
  I.drainList now (I.same h rfl rfl rfl)

end HomeInvariant

/-! ### One late write where no other waits -/

theorem State.drain_one (s : State) {l : Late} (h : s.mem.late = []) :
    { s with mem := { s.mem with late := s.mem.late ++ [l] } }.drain = s.drainList [] [l] := by
  rw [State.drain, h]
  have e : { s.mem with late := [] } = s.mem := by rw [← h]
  dsimp only
  rw [e]
  rfl

/-- A late write that home can take is performed at once. -/
theorem State.later_done {s u : State} {part : Nat} {op : LateOp} (h : s.mem.late = [])
    (now : s.lateNow ⟨part, op⟩ = (u, true)) :
    s.later part op = u := by
  simp [State.later, State.drain_one s h, State.drainList, now]

/-- A late write that home cannot take waits. -/
theorem State.later_waits {s u : State} {part : Nat} {op : LateOp} (h : s.mem.late = [])
    (now : s.lateNow ⟨part, op⟩ = (u, false)) :
    s.later part op = { u with mem := { u.mem with late := u.mem.late ++ [(⟨part, op⟩ : Late)] } } := by
  simp [State.later, State.drain_one s h, State.drainList, now]

theorem HomeInvariant.later_record {P : State → Prop} (I : HomeInvariant P) {s : State} (late : s.mem.late = []) (h : P s)
    {part area bs tap} : P (s.later part (.record area bs tap)) := by
  have h1 := I.lateRecord h (part := part) (area := area) (bs := bs) (tap := tap)
  rcases e : s.lateNow ⟨part, .record area bs tap⟩ with ⟨u, done⟩
  rw [e] at h1
  cases done with
  | true => rwa [State.later_done late e]
  | false => rw [State.later_waits late e]; exact I.same h1 rfl rfl rfl

/-! ### The fabric's record is left alone -/

theorem homeInvariant_fabric (f : Fabric) : HomeInvariant fun s => s.fabric = f where
  same h e _ _ := e.trans h
  setDir h _ := h
  snoop h _ := by
    unfold State.snoop
    split
    · exact h
    · exact h

section
variable (s : State)

@[simp] theorem State.homeWriteLine_fabric (num : Nat) (bs : List (Nat × Byte)) :
    (s.homeWriteLine num bs).fabric = s.fabric :=
  (homeInvariant_fabric _).homeWriteLine rfl

@[simp] theorem State.homeWrite_fabric (bs : List (Nat × Byte)) : (s.homeWrite bs).fabric = s.fabric :=
  (homeInvariant_fabric _).homeWrite rfl

@[simp] theorem State.homePoison_fabric (pas : List Nat) : (s.homePoison pas).fabric = s.fabric :=
  (homeInvariant_fabric _).homePoison rfl

@[simp] theorem State.snoopAll_fabric (pas : List Nat) : (s.snoopAll pas).fabric = s.fabric :=
  (homeInvariant_fabric _).snoopAll rfl

@[simp] theorem State.revokeNow_fabric (num : Nat) (m : BitVec 32) : (s.revokeNow num m).fabric = s.fabric :=
  (homeInvariant_fabric _).revokeNow rfl

@[simp] theorem State.hostGives_fabric (num : Nat) (m : BitVec 32) : (s.hostGives num m).fabric = s.fabric := by
  unfold State.hostGives
  dsimp only
  split <;> rfl

@[simp] theorem State.hostTakes_fabric (num : Nat) (m : BitVec 32) : (s.hostTakes num m).fabric = s.fabric := by
  unfold State.hostTakes
  extract_lets s1
  have h : s1.fabric = s.fabric := by
    dsimp only [s1]
    split
    · rfl
    · simp
  split
  · exact h
  · exact h

@[simp] theorem State.hostMerges_fabric (cxl : Bool) (half : Nat) (bs : List (Nat × Byte)) :
    (s.hostMerges cxl half bs).fabric = s.fabric := by
  unfold State.hostMerges
  dsimp only
  split <;> simp

@[simp] theorem State.hostWriteNow_fabric (cxl : Bool) (half : Nat) (bs : List (Nat × Byte)) :
    (s.hostWriteNow cxl half bs).1.fabric = s.fabric := by
  unfold State.hostWriteNow
  split
  · rfl
  · split
    · simp
    · rfl

@[simp] theorem State.snoopDone_fabric (half : Nat) : (s.snoopDone half).fabric = s.fabric := rfl

@[simp] theorem State.hostReplyNow_fabric (half : Nat) (bytes : List (Option Byte)) :
    (s.hostReplyNow half bytes).1.fabric = s.fabric := by
  unfold State.hostReplyNow
  dsimp only
  split
  · simp
  · split
    · simp
    · rfl

@[simp] theorem State.hostReadNow_fabric (half : Nat) : (s.hostReadNow half).1.fabric = s.fabric := by
  unfold State.hostReadNow
  dsimp only
  split
  · rfl
  · split <;> rfl

theorem State.partReach_fabric (part : Nat) (acc : Acc) (va size : Nat) :
    (s.partReach part acc va size).1.fabric = s.fabric :=
  (homeInvariant_fabric _).partReach rfl

@[simp] theorem State.lateNow_fabric (l : Late) : (s.lateNow l).1.fabric = s.fabric := by
  obtain ⟨part, op⟩ := l
  cases op with
  | phys pa bs =>
    simp only [State.lateNow]
    split <;> simp
  | store va bs =>
    have h := s.partReach_fabric part .write va bs.length
    simp only [State.lateNow]
    split
    next e =>
      rw [e] at h
      rw [State.homeWrite_fabric]
      exact ((homeInvariant_fabric _).notePages rfl).trans h
    next e => rwa [e] at h
    next e => rwa [e] at h
  | record area bs tap => exact (homeInvariant_fabric _).lateRecord rfl
  | hostWrite cxl half bs => exact s.hostWriteNow_fabric _ _ _
  | hostReply half bs => exact s.hostReplyNow_fabric _ _
  | hostRead half => exact s.hostReadNow_fabric _

@[simp] theorem State.later_fabric (part : Nat) (op : LateOp) : (s.later part op).fabric = s.fabric :=
  (homeInvariant_fabric _).later (fun h => (State.lateNow_fabric _ _).trans h) rfl

@[simp] theorem State.machineRecord_fabric (part kind unit who pa sstep extra : Nat) :
    (s.machineRecord part kind unit who pa sstep extra).fabric = s.fabric := by
  unfold State.machineRecord State.partRecord
  split
  · exact s.later_fabric _ _
  · rfl

end

/-! ### A half of which the host owns nothing -/

/-- A word stands in the half that its number names. -/
theorem getLsbD_halfWords (half : Nat) (w : BitVec 5) :
    (halfWords half).getLsbD w.toNat = decide (w.toNat / 16 = half % 2) := by
  unfold halfWords
  rcases Nat.mod_two_eq_zero_or_one half with e | e
  · rw [e]
    revert w
    decide
  · rw [e]
    revert w
    decide

/-- The host owns no word of a half, and no snoop of the half is out. -/
def Unowned (half : Nat) (s : State) : Prop :=
  half ∉ s.mem.snoops ∧
    ∀ w : BitVec 5, (halfWords half).getLsbD w.toNat = true → (s.dirOf (halfLine half)).owner w ≠ some hostAgent

theorem mem_insertNat {x y : Nat} {l : List Nat} : y ∈ insertNat x l ↔ y = x ∨ y ∈ l := by
  induction l with
  | nil => simp [insertNat]
  | cons z l ih =>
    simp only [insertNat]
    split
    · simp
    · split
      next e => simp [e]
      next => simp [ih, or_left_comm]

theorem mem_foldl_insertNat {halves l : List Nat} {y : Nat} :
    y ∈ halves.foldl (fun l h => insertNat h l) l ↔ y ∈ halves ∨ y ∈ l := by
  induction halves generalizing l with
  | nil => simp
  | cons h halves ih => simp [ih, mem_insertNat, or_left_comm, or_assoc]

/-- Home snoops no half of which the host owns nothing. -/
theorem Unowned.not_mem_hostHalves {half : Nat} {s : State} (h : Unowned half s) (num : Nat) (m : BitVec 32) :
    half ∉ s.hostHalves num m := by
  intro hm
  simp only [State.hostHalves, List.mem_filter, List.any_eq_true, Bool.and_eq_true, decide_eq_true_eq] at hm
  obtain ⟨-, w, -, owned, e⟩ := hm
  have hw : w.toNat < 32 := w.isLt
  have line : halfLine half = num := by unfold halfLine; omega
  refine h.2 w ?_ (line ▸ owned)
  rw [getLsbD_halfWords, decide_eq_true_eq]
  omega

theorem homeInvariant_unowned (half : Nat) : HomeInvariant (Unowned half) where
  same h _ hdir hsnoops := by
    refine ⟨hsnoops ▸ h.1, fun w hw => ?_⟩
    rw [State.dirOf, hdir]
    exact h.2 w hw
  setDir {s num d} h hd := by
    refine ⟨h.1, fun w hw => ?_⟩
    by_cases e : halfLine half = num
    · subst e
      rw [State.dirOf_setDir_self]
      rcases hd w with e | e
      · simp [e]
      · rw [e]; exact h.2 w hw
    · rw [State.dirOf_setDir_ne s d e]
      exact h.2 w hw
  snoop {s l} h hl := by
    unfold State.snoop
    split
    · exact h
    · refine ⟨fun hm => ?_, h.2⟩
      rcases mem_foldl_insertNat.mp hm with hm | hm
      · obtain ⟨num, m, hm⟩ := hl _ hm
        exact h.not_mem_hostHalves num m hm
      · exact h.1 hm

/-- A machine-error record written where no late write waits snoops no half of which the host owns nothing. -/
theorem Unowned.machineRecord {half : Nat} {s : State} (h : Unowned half s) (late : s.mem.late = [])
    {part kind unit who pa sstep extra : Nat} : Unowned half (s.machineRecord part kind unit who pa sstep extra) := by
  unfold State.machineRecord State.partRecord
  split
  · exact (homeInvariant_unowned half).later_record late h
  · exact h

/-! ### Host reads and writes (spec/21 R383, R396) -/

theorem halfAddr_eq (half : Nat) : halfAddr half = 64 * half := Nat.mul_comm _ _

theorem State.hostReaches_iff {s : State} {p : Bool} {half : Nat} :
    s.hostReaches p half = true ↔ s.host.cxl = p ∧ deviceOk (64 * half) = true ∧ (p = true ∨ s.parts ≠ []) := by
  simp [State.hostReaches, halfAddr_eq, and_assoc]

theorem enabled_eq (half : Nat) (bytes : List (Option Byte)) : enabled half bytes =
    ((List.range bytes.length).zip bytes).filterMap fun p => p.2.map fun b => (64 * half + p.1, b) := by
  rw [enabled, halfAddr_eq]

theorem execHostWrite_of_reaches {s : State} {p : Bool} {half : Nat} {bytes : List (Option Byte)}
    (h : s.hostReaches p half = true) :
    execHostWrite p half bytes s = .next (s.later 0 (.hostWrite p half bytes)) := by
  rw [execHostWrite, if_pos h]

theorem execHostWrite_of_not_reaches {s : State} {p : Bool} {half : Nat} {bytes : List (Option Byte)}
    (h : ¬ s.hostReaches p half = true) : execHostWrite p half bytes s = .next s := by
  rw [execHostWrite, if_neg h]

theorem execHostRead_of_reaches {s : State} {half : Nat} (h : s.hostReaches s.host.cxl half = true) :
    execHostRead half s = .next (s.later 0 (.hostRead half)) := by
  rw [execHostRead, if_pos h]

theorem execHostRead_of_not_reaches {s : State} {half : Nat} (h : ¬ s.hostReaches s.host.cxl half = true) :
    execHostRead half s = .next s := by
  rw [execHostRead, if_neg h]

theorem State.lateNow_hostWrite (s : State) (part : Nat) (cxl : Bool) (half : Nat) (bytes : List (Option Byte)) :
    s.lateNow ⟨part, .hostWrite cxl half bytes⟩ = s.hostWriteNow cxl half (enabled half bytes) := rfl

theorem State.lateNow_hostReply (s : State) (part half : Nat) (bytes : List (Option Byte)) :
    s.lateNow ⟨part, .hostReply half bytes⟩ = s.hostReplyNow half bytes := rfl

theorem State.lateNow_hostRead (s : State) (part half : Nat) : s.lateNow ⟨part, .hostRead half⟩ = s.hostReadNow half := rfl

/-! What a host write does whose page is spilled, that home can take, and that home cannot take. -/

section
variable {s : State} {p : Bool} {half : Nat} {bytes : List (Option Byte)}

theorem State.later_hostWrite_spilled (late : s.mem.late = []) (h : s.spilledPage (64 * half) = true) :
    s.later 0 (.hostWrite p half bytes) =
      { s.fetchPage (64 * half) with
        mem := { s.mem with late := s.mem.late ++ [(⟨0, .hostWrite p half bytes⟩ : Late)] } } := by
  rw [← halfAddr_eq] at h ⊢
  exact State.later_waits late (by rw [State.lateNow_hostWrite, State.hostWriteNow, if_pos h])

theorem State.later_hostWrite_free (late : s.mem.late = []) (h : s.spilledPage (64 * half) = false)
    (free : s.hostWriteFree p half (enabled half bytes) = true) :
    s.later 0 (.hostWrite p half bytes) = s.hostMerges p half (enabled half bytes) := by
  rw [← halfAddr_eq] at h
  exact State.later_done late (by rw [State.lateNow_hostWrite, State.hostWriteNow, if_neg (by simp [h]), if_pos free])

theorem State.later_hostWrite_held (late : s.mem.late = []) (h : s.spilledPage (64 * half) = false)
    (held : s.hostWriteFree p half (enabled half bytes) = false) :
    s.later 0 (.hostWrite p half bytes) =
      { s with mem := { s.mem with late := s.mem.late ++ [(⟨0, .hostWrite p half bytes⟩ : Late)] } } := by
  rw [← halfAddr_eq] at h
  exact State.later_waits late
    (by rw [State.lateNow_hostWrite, State.hostWriteNow, if_neg (by simp [h]), if_neg (by simp [held])])

end

/-- The words of a half that the host does not own, as the model masks them. -/
theorem halfWords_not_hosts (half : Nat) (d : DirEntry) :
    halfWords half &&& ~~~d.hostWords (halfWords half) =
      maskOf ((wordsOf (halfWords half)).filter fun w => d.owner w != some hostAgent) := by
  refine mask_ext fun w => ?_
  have hw : w.toNat < 32 := w.isLt
  simp only [BitVec.getLsbD_and, BitVec.getLsbD_not, DirEntry.getLsbD_hostWords, getLsbD_maskOf, List.mem_filter, mem_wordsOf,
    decide_eq_true hw, Bool.true_and]
  cases (halfWords half).getLsbD w.toNat <;> simp [bne]

theorem State.later_hostRead_free {s : State} {half : Nat} (late : s.mem.late = [])
    (h : s.spilledPage (64 * half) = false)
    (free : s.homeFree (halfLine half) (maskOf ((wordsOf (halfWords half)).filter fun w =>
      (s.dirOf (halfLine half)).owner w != some hostAgent)) = true) :
    s.later 0 (.hostRead half) =
      { s with host := { s.host with lastRd := (List.range 64).map fun k => s.hostByte (64 * half + k) } } := by
  rw [← halfWords_not_hosts] at free
  rw [← halfAddr_eq] at h ⊢
  exact State.later_done late (by rw [State.lateNow_hostRead, State.hostReadNow, if_neg (by simp [h]), if_pos free])

/-! ### Replies to snoops and their time-out (spec/21 R384, R396) -/

theorem snoop_due {s : State} {half : Nat} (out : half ∈ s.mem.snoops) (w : s.replyWaits half = false) :
    ¬ (!s.mem.snoops.contains half || s.replyWaits half) = true := by
  simp [out, w]

theorem snoop_not_due {s : State} {half : Nat} (h : half ∉ s.mem.snoops ∨ s.replyWaits half = true) :
    (!s.mem.snoops.contains half || s.replyWaits half) = true := by
  rcases h with h | h <;> simp [h]

theorem execSnoopReply_of_not_due {s : State} {half : Nat} {bytes : List (Option Byte)}
    (h : half ∉ s.mem.snoops ∨ s.replyWaits half = true) : execSnoopReply half bytes s = .next s := by
  rw [execSnoopReply, if_pos (snoop_not_due h)]

theorem execSnoopTimeout_of_not_due {s : State} {half : Nat}
    (h : half ∉ s.mem.snoops ∨ s.replyWaits half = true) : execSnoopTimeout half s = .next s := by
  rw [execSnoopTimeout, if_pos (snoop_not_due h)]

theorem execSnoopReply_of_due {s : State} {half : Nat} {bytes : List (Option Byte)}
    (out : half ∈ s.mem.snoops) (w : s.replyWaits half = false) :
    execSnoopReply half bytes s = .next (s.later 0 (.hostReply half bytes)) := by
  rw [execSnoopReply, if_neg (snoop_due out w)]

theorem State.hostGives_hostWords (s : State) (num : Nat) (m : BitVec 32) :
    s.hostGives num ((s.dirOf num).hostWords m) = s.hostGives num m := by
  unfold State.hostGives
  rw [DirEntry.hostWords_hostWords]

/-- A reply that home can take is merged as a host write. -/
theorem State.later_hostReply_free {s : State} {half : Nat} {bytes : List (Option Byte)} (late : s.mem.late = [])
    (free : (s.hostGives (halfLine half) (halfWords half)).hostWriteFree false half (enabled half bytes) = true) :
    s.later 0 (.hostReply half bytes) =
      ((s.hostGives (halfLine half) (halfWords half)).hostMerges false half (enabled half bytes)).snoopDone half := by
  refine State.later_done late ?_
  rw [State.lateNow_hostReply, State.hostReplyNow]
  dsimp only
  rw [State.hostGives_hostWords, if_pos free]

/-- One that home cannot take waits where the host owns no word of the half. -/
theorem State.later_hostReply_held {s : State} {half : Nat} {bytes : List (Option Byte)} (late : s.mem.late = [])
    (held : (s.hostGives (halfLine half) (halfWords half)).hostWriteFree false half (enabled half bytes) = false)
    (unowned : ∀ w ∈ wordsOf (halfWords half), (s.dirOf (halfLine half)).owner w ≠ some hostAgent) :
    s.later 0 (.hostReply half bytes) =
      { s with mem := { s.mem with late := s.mem.late ++ [(⟨0, .hostReply half bytes⟩ : Late)] } } := by
  have m0 : (s.dirOf (halfLine half)).hostWords (halfWords half) = 0 :=
    DirEntry.hostWords_eq_zero.mpr fun w hw => unowned w (mem_wordsOf.mpr hw)
  refine State.later_waits late ?_
  rw [State.lateNow_hostReply, State.hostReplyNow]
  dsimp only
  rw [State.hostGives_hostWords, if_neg (by simp [held]), m0]
  rfl

/-- The half given back and poisoned, its snoop answered: what a time-out makes of it before the record. -/
def State.halfLost (s : State) (half : Nat) : State :=
  ((wordsOf (halfWords half)).foldl (fun s w => s.setPsn (halfLine half) w true)
    (s.hostGives (halfLine half) (halfWords half))).snoopDone half

theorem State.setPsn_frame (s : State) (num : Nat) (w : BitVec 5) (b : Bool) :
    s.setPsn num w b = { s with mem := { s.mem with dir := (s.setPsn num w b).mem.dir } } := by
  unfold State.setPsn
  split <;> rfl

theorem State.hostGives_frame (s : State) (num : Nat) (m : BitVec 32) :
    s.hostGives num m = { s with mem := { s.mem with dir := (s.hostGives num m).mem.dir } } := by
  unfold State.hostGives
  dsimp only
  split <;> rfl

theorem State.owner_setPsn (s : State) (num : Nat) (w : BitVec 5) (b : Bool) (l : Nat) (o : BitVec 5) :
    ((s.setPsn num w b).dirOf l).owner o = (s.dirOf l).owner o := by
  unfold State.setPsn
  split
  · rfl
  · by_cases e : l = num
    · subst e
      rw [State.dirOf_setDir_self]
      rfl
    · rw [State.dirOf_setDir_ne s _ e]

theorem State.homePsn_setPsn_true (s : State) (num : Nat) (w : BitVec 5) (l : Nat) (o : BitVec 5) :
    (s.setPsn num w true).homePsn l o = (s.homePsn l o || (decide (l = num) && decide (o = w))) := by
  unfold State.setPsn
  split
  next h =>
    by_cases e : l = num ∧ o = w
    · obtain ⟨rfl, rfl⟩ := e
      simp [h]
    · simp [← Bool.decide_and, e]
  next h =>
    by_cases e : l = num
    · subst e
      simp [State.homePsn]
    · simp [State.homePsn, State.dirOf_setDir_ne s _ e, e]

theorem State.owner_hostGives (s : State) (num : Nat) (m : BitVec 32) (l : Nat) (o : BitVec 5) :
    ((s.hostGives num m).dirOf l).owner o =
      if l = num ∧ m.getLsbD o.toNat = true ∧ (s.dirOf l).owner o = some hostAgent then none else (s.dirOf l).owner o := by
  unfold State.hostGives
  dsimp only
  split
  next h =>
    have := DirEntry.hostWords_eq_zero.mp h o
    by_cases e : l = num
    · subst e
      by_cases hm : m.getLsbD o.toNat = true
      · simp [hm, this hm]
      · simp [hm]
    · simp [e]
  next h =>
    by_cases e : l = num
    · subst e
      simp [DirEntry.owner_release]
    · simp [State.dirOf_setDir_ne s _ e, e]

theorem State.homePsn_hostGives (s : State) (num : Nat) (m : BitVec 32) (l : Nat) (o : BitVec 5) :
    (s.hostGives num m).homePsn l o = s.homePsn l o := by
  unfold State.hostGives
  dsimp only
  split
  · rfl
  · by_cases e : l = num
    · subst e
      simp [State.homePsn, DirEntry.release, DirEntry.tidy]
    · simp [State.homePsn, State.dirOf_setDir_ne s _ e]

/-- A state that differs from another in the directory alone. -/
def SameButDir (s t : State) : Prop := t = { s with mem := { s.mem with dir := t.mem.dir } }

theorem SameButDir.setPsn {s t : State} (h : SameButDir s t) (num : Nat) (w : BitVec 5) (b : Bool) :
    SameButDir s (t.setPsn num w b) := by
  have e := t.setPsn_frame num w b
  generalize t.setPsn num w b = u at e ⊢
  unfold SameButDir at h ⊢
  rw [e, h]

section
variable (s : State) (half : Nat)

/-- A half that is lost changes the directory and the snoops alone. -/
theorem State.halfLost_frame : s.halfLost half =
    { s with mem := { s.mem with
      dir := (s.halfLost half).mem.dir
      snoops := s.mem.snoops.filter (· != half) } } := by
  have poisoned : SameButDir s ((wordsOf (halfWords half)).foldl (fun s w => s.setPsn (halfLine half) w true)
      (s.hostGives (halfLine half) (halfWords half))) :=
    List.foldlRecOn _ _ (s.hostGives_frame _ _) fun _ k w _ => k.setPsn _ w true
  unfold State.halfLost
  unfold SameButDir at poisoned
  rw [poisoned]
  rfl

theorem State.halfLost_cores : (s.halfLost half).cores = s.cores := by rw [State.halfLost_frame]

theorem State.halfLost_cells : (s.halfLost half).mem.cells = s.mem.cells := by rw [State.halfLost_frame]

theorem State.halfLost_late : (s.halfLost half).mem.late = s.mem.late := by rw [State.halfLost_frame]

theorem State.not_mem_snoops_halfLost : half ∉ (s.halfLost half).mem.snoops := by
  rw [State.halfLost_frame]
  simp

theorem State.owner_halfLost (l : Nat) (o : BitVec 5) : ((s.halfLost half).dirOf l).owner o =
    if l = halfLine half ∧ (halfWords half).getLsbD o.toNat = true ∧ (s.dirOf l).owner o = some hostAgent then none
    else (s.dirOf l).owner o := by
  rw [← State.owner_hostGives]
  exact List.foldlRecOn
    (motive := fun t : State => (t.dirOf l).owner o = ((s.hostGives (halfLine half) (halfWords half)).dirOf l).owner o)
    _ _ rfl fun t k w _ => (t.owner_setPsn _ w true l o).trans k

theorem State.homePsn_foldl_setPsn (num l : Nat) (o : BitVec 5) (ws : List (BitVec 5)) :
    (ws.foldl (fun s w => s.setPsn num w true) s).homePsn l o = (s.homePsn l o || (decide (l = num) && decide (o ∈ ws))) := by
  induction ws generalizing s with
  | nil => simp
  | cons w ws ih =>
    rw [List.foldl_cons, ih, State.homePsn_setPsn_true, Bool.or_assoc, ← Bool.and_or_distrib_left]
    simp

theorem State.homePsn_halfLost (l : Nat) (o : BitVec 5) : (s.halfLost half).homePsn l o =
    (s.homePsn l o || (decide (l = halfLine half) && (halfWords half).getLsbD o.toNat)) := by
  have h := State.homePsn_foldl_setPsn (s.hostGives (halfLine half) (halfWords half)) (halfLine half) l o
    (wordsOf (halfWords half))
  rw [State.homePsn_hostGives] at h
  refine h.trans ?_
  simp

theorem State.unowned_halfLost : Unowned half (s.halfLost half) := by
  refine ⟨s.not_mem_snoops_halfLost half, fun w hw => ?_⟩
  rw [State.owner_halfLost]
  split
  next => exact nofun
  next h => exact fun ho => h ⟨rfl, hw, ho⟩

end

/-- A snoop that is not answered in time: the half is lost, and a record says so. -/
theorem execSnoopTimeout_of_due {s : State} {half : Nat} (out : half ∈ s.mem.snoops) (w : s.replyWaits half = false) :
    ∃ k who, execSnoopTimeout half s = .next ((s.halfLost half).machineRecord (s.clusterPart (homeCluster (halfLine half)))
      18 k who (64 * half) 0 0) := by
  have e : s.clusterPart (homeCluster (halfLine half)) = (s.halfLost half).clusterPart (homeCluster (halfLine half)) := by
    rw [State.halfLost_frame]
    rfl
  rw [execSnoopTimeout, if_neg (snoop_due out w), ← halfAddr_eq, e]
  exact ⟨_, _, rfl⟩

/-! ### Remote accesses (spec/22 R409, R410, R414) -/

theorem State.respond_find? (s : State) {id : Nat} {val : List (Byte × Bool)} {r : Remote}
    (h : s.fabric.remote.find? (fun x => x.id = id) = some r) :
    ((s.respond id val).fabric.remote.find? fun x => x.id = id).any (fun x => x.val.isSome) = true := by
  obtain ⟨x, hx⟩ : ∃ x, (s.respond id val).fabric.remote.find? (fun x => x.id = id) = some x := by
    rw [← Option.isSome_iff_exists, List.find?_isSome]
    have hr : r.id = id := by simpa using List.find?_some h
    refine ⟨{ r with val := some val }, List.mem_map.mpr ⟨r, List.mem_of_find?_eq_some h, if_pos hr⟩, by simpa using hr⟩
  rw [hx, Option.any_some]
  obtain ⟨y, -, hy⟩ := List.mem_map.mp (List.mem_of_find?_eq_some hx)
  have hid : x.id = id := by simpa using List.find?_some hx
  subst hy
  split at hid
  next => simp [*]
  next ne => exact absurd hid ne

/-- A remote access that home performs has its response. -/
theorem State.performRemote_responds (s : State) {id : Nat} {r : Remote}
    (h : s.fabric.remote.find? (fun x => x.id = id) = some r) :
    ((s.performRemote r).fabric.remote.find? fun x => x.id = id).any (fun x => x.val.isSome) = true := by
  have hr : r.id = id := by simpa using List.find?_some h
  have answered (t : State) (val : List (Byte × Bool)) (e : t.fabric = s.fabric) :
      ((t.respond r.id val).fabric.remote.find? fun x => x.id = id).any (fun x => x.val.isSome) = true := by
    rw [hr]
    exact t.respond_find? (e ▸ h)
  unfold State.performRemote
  dsimp only
  split
  · exact answered _ _ (by simp)
  · split
    · exact answered _ _ rfl
    · split
      · exact answered _ _ (by simp)
      · exact answered _ _ rfl
  · exact answered _ _ rfl

section
variable {s : State} {id : Nat} {r : Remote} (found : s.fabric.remote.find? (fun x => x.id = id) = some r)
include found

/-- An access that is answered, whose turn has not come, or that no path takes further stays as it is. -/
theorem State.remoteArrives_of_not_due (h : r.val ≠ none ∨ s.remoteFirst r = false ∨ s.cutOff r = true) :
    s.remoteArrives id = s := by
  unfold State.remoteArrives
  rw [found]
  refine if_pos ?_
  rcases h with h | h | h
  · simp [Option.isSome_iff_ne_none.mpr h]
  · simp [h]
  · simp [h]

section
variable (fresh : r.val = none) (first : s.remoteFirst r = true) (path : s.cutOff r = false)
include fresh first path

theorem State.remoteArrives_of_router {p : Nat × Nat} (place : routerPlace r.pa = some p) :
    s.remoteArrives id = if s.shut r.core p.1 then s else s.performAtRouter r p.1 p.2 := by
  unfold State.remoteArrives
  rw [found]
  cases h : s.shut r.core p.1 <;> simp [fresh, first, path, place, State.mayPass, h]

theorem State.remoteArrives_of_home (place : routerPlace r.pa = none) :
    s.remoteArrives id = if s.homeFreeAll r.addrs then s.performRemote r else s.snoopAll r.addrs := by
  unfold State.remoteArrives
  rw [found]
  simp [fresh, first, path, place, State.mayPass]

end

/-! ### The end of a remote access -/

omit found in
theorem State.closeRemote_fabric (s : State) (r : Remote) (val : List (Byte × Bool)) :
    (s.closeRemote r val).fabric = { s.fabric with remote := s.fabric.remote.filter fun x => x.id != r.id } := by
  unfold State.closeRemote
  dsimp only
  split
  · rfl
  · split
    · rfl
    · rfl
    · rfl

/-- No access of the number is in flight any more. -/
theorem State.closeRemote_gone (val : List (Byte × Bool)) : ∀ x ∈ (s.closeRemote r val).fabric.remote, x.id ≠ id := by
  have hr : r.id = id := by simpa using List.find?_some found
  rw [State.closeRemote_fabric, hr]
  intro x hx
  simpa using (List.mem_filter.mp hx).2

theorem execFabricAck_answered {v : List (Byte × Bool)} (h : r.val = some v) :
    execFabricAck id s = .next (s.closeRemote r v) := by
  rw [execFabricAck, found]
  dsimp only
  rw [h]

theorem execFabricAck_pending (h : r.val = none) : execFabricAck id s = .next s := by
  rw [execFabricAck, found]
  dsimp only
  rw [h]

theorem execFabricDeliveryTimeout_of_other
    (h : r.val ≠ none ∨ Config.numCores ≤ r.core ∨ s.moduleOf r = s.fabric.module.toNat ∨ 64 ≤ s.moduleOf r) :
    execFabricDeliveryTimeout id s = .next s := by
  have cond : (r.val.isSome || Config.numCores ≤ r.core || 64 ≤ s.moduleOf r ||
      s.moduleOf r = s.fabric.module.toNat) = true := by
    rcases h with h | h | h | h
    · simp [Option.isSome_iff_ne_none.mpr h]
    · simp [h]
    · simp [h]
    · simp [h]
  rw [execFabricDeliveryTimeout, found]
  exact congrArg _ (if_pos cond)

section
variable (fresh : r.val = none) (own : r.core < Config.numCores) (away : s.moduleOf r ≠ s.fabric.module.toNat)
  (named : s.moduleOf r < 64)
include fresh own away named

omit found in
theorem undelivered : ¬ (r.val.isSome || Config.numCores ≤ r.core || 64 ≤ s.moduleOf r ||
    s.moduleOf r = s.fabric.module.toNat) = true := by
  simp [fresh, away, Nat.not_le.mpr own, Nat.not_le.mpr named]

theorem execFabricDeliveryTimeout_of_load (load : r.store = none) :
    execFabricDeliveryTimeout id s = .next (s.closeRemote r (List.replicate r.size (0, true))) := by
  rw [execFabricDeliveryTimeout, found]
  dsimp only
  rw [if_neg (undelivered fresh own away named), load]
  rfl

theorem execFabricDeliveryTimeout_of_store (store : r.store ≠ none) :
    ∃ u, execFabricDeliveryTimeout id s = .next u ∧ ∀ x ∈ u.fabric.remote, x.id ≠ id := by
  rw [execFabricDeliveryTimeout, found]
  dsimp only
  rw [if_neg (undelivered fresh own away named), if_pos (Option.isSome_iff_ne_none.mpr store)]
  refine ⟨_, rfl, ?_⟩
  rw [State.machineRecord_fabric]
  exact State.closeRemote_gone found []

end
end

/-- An access that a core of another module has sent. -/
theorem execFabricRemoteAccess_foreign {s : State} {m : BitVec 6} (h : m ≠ s.fabric.module) (c : BitVec 17) (pa : Word)
    (acc : FabAccess) : execFabricRemoteAccess (.foreign m c pa acc) s =
      .next ((s.foreignAccess (foreignCore m c) pa.toNat acc).remoteArrives s.nextId) := by
  rw [execFabricRemoteAccess]
  exact congrArg _ (if_neg fun e => h (BitVec.eq_of_toNat_eq e))

/-! ### Fabric launches (spec/22 R411, R412, R414) -/

theorem execFabricLaunchReceive_not_joined {s : State} {src : Nat} (h : s.joined src = none) (bytes image : List Byte) :
    execFabricLaunchReceive src bytes image s = .next s := by
  rw [execFabricLaunchReceive, h]

section
variable {s : State} {src : Nat} {p : Partition} {bytes image : List Byte}

theorem execFabricLaunchReceive_joined (join : s.joined src = some p) (away : src ≠ s.fabric.module.toNat)
    (size : image.length = (launchRecOf bytes).ilen) : execFabricLaunchReceive src bytes image s =
      .next (if (s.predaKnown p.id bytes).2 = true ∧ (s.predaKnown p.id bytes).1.launchCode p.id bytes true = 0 then
        (s.predaKnown p.id bytes).1.takeLaunch p.id bytes image else (s.predaKnown p.id bytes).1) := by
  rw [execFabricLaunchReceive, join]
  dsimp only
  rw [if_neg (by simp [away, size])]
  rcases s.predaKnown p.id bytes with ⟨v, known⟩
  cases known with
  | false => simp
  | true => simp

/-- A launch that is taken waits for its start barrier. -/
theorem State.takeLaunch_launches (s : State) (part : Nat) (bytes image : List Byte) :
    ∃ l, (s.takeLaunch part bytes image).launches = s.launches ++ [l] ∧ l.phase = .waiting ∧ l.ready = false ∧
      l.part = part ∧ l.record = launchRecOf bytes ∧ l.image = image :=
  ⟨_, rfl, rfl, rfl, rfl, rfl, rfl⟩

end

/-- A launch that has been changed, its number kept, is found by its number as changed. -/
theorem State.launchOf_onLaunch {s : State} {id : Nat} {f : Launch → Launch} (keeps : ∀ l, (f l).id = l.id) {l : Launch}
    (h : l ∈ s.launches) (hid : l.id = id) : ∃ x, (s.onLaunch id f).launchOf id = some (f x) := by
  obtain ⟨y, hy⟩ : ∃ y, (s.onLaunch id f).launchOf id = some y := by
    rw [← Option.isSome_iff_exists, State.launchOf, List.find?_isSome]
    exact ⟨f l, List.mem_map.mpr ⟨l, h, if_pos hid⟩, by simp [keeps, hid]⟩
  obtain ⟨x, -, hx⟩ := List.mem_map.mp (List.mem_of_find?_eq_some hy)
  have hyid : y.id = id := by simpa using List.find?_some hy
  subst hx
  split at hyid
  next e => exact ⟨x, by rw [hy, if_pos e]⟩
  next ne => exact absurd hyid ne

section
variable {s : State} {gen : Nat} {l : Launch}
  (found : s.launches.find? (fun l => l.phase == .waiting && l.expects gen) = some l)
include found

/-- A start barrier that completes lets its launch start. -/
theorem execStartBarrierComplete_ok :
    ∃ u, execStartBarrierComplete gen true s = .next u ∧ (u.launchOf l.id).map Launch.ready = some true := by
  obtain ⟨x, hx⟩ := State.launchOf_onLaunch (s := s) (id := l.id) (f := fun l => { l with ready := true }) (fun _ => rfl)
    (List.mem_of_find?_eq_some found) rfl
  rw [execStartBarrierComplete, found]
  exact ⟨_, rfl, congrArg (Option.map Launch.ready) hx⟩

/-- One that fails refuses it. -/
theorem execStartBarrierComplete_fails : execStartBarrierComplete gen false s =
    .next ({ s with launches := s.launches.filter fun x => x.id != l.id }.putStatus l.part l.stat 0x52) := by
  rw [execStartBarrierComplete, found]
  rfl

end

/-! ### Ports (spec/22 R404, R414) -/

theorem execPortTraining_sets {s : State} {port gen : Nat} (h : port < s.fabric.ports.length) :
    ∃ u, execPortTraining port gen s = .next u ∧ u.fabric.ports[port]? = some ⟨gen, true⟩ ∧
      ∀ m : Nat, (u.fabric.route[m]?).any (fun k => k != port) = true → u.fabric.route[m]? = s.fabric.route[m]? := by
  refine ⟨_, rfl, by simp [State.onPort, h], fun m hm => ?_⟩
  rw [List.getElem?_map] at hm ⊢
  rcases e : ((List.range 64).zip (s.onPort port ⟨gen, true⟩).fabric.route)[m]? with _ | q
  · rw [e] at hm
    cases hm
  · rw [e, Option.map_some, Option.any_some] at hm
    rw [Option.map_some, show s.fabric.route[m]? = some q.2 from (List.getElem?_zip_eq_some.mp e).2]
    split at hm
    next => simp at hm
    next c => rw [if_neg c]

theorem State.port_not_mem_portsUp {s : State} {port gen : Nat} (h : port < s.fabric.ports.length) :
    port ∉ (s.onPort port ⟨gen, false⟩).portsUp := by
  simp [State.portsUp, State.onPort, h]

/-- No route leads over a port that is not up. -/
theorem State.rerouted_ne {s : State} {port : Nat} (down : port ∉ s.portsUp) (h : port < 12) (m k : Nat) :
    s.rerouted m port k ≠ port := by
  have other : noPort ≠ port := by unfold noPort; omega
  unfold State.rerouted
  split
  next e => simpa using e
  next =>
    split
    · rcases e : s.portsUp[(s.free (900 + m)).toNat % s.portsUp.length]? with _ | x
      · exact other
      · intro hx
        exact down (hx ▸ List.mem_of_getElem? e)
    · exact other

theorem execLinkPortDown_clears {s : State} {port : Nat} (h : port < s.fabric.ports.length) :
    ∃ u, execLinkPortDown port s = .next u ∧ (u.fabric.ports[port]?).map Port.up = some false ∧
      (port < 12 → ∀ k ∈ u.fabric.route, k ≠ port) := by
  refine ⟨_, rfl, by simp [State.onPort, h], fun hp k hk => ?_⟩
  obtain ⟨q, -, rfl⟩ := List.mem_map.mp hk
  exact State.rerouted_ne (State.port_not_mem_portsUp h) hp _ _

/-! ### Errors and retirement (spec/21 R397) -/

theorem State.errorCount_noteError_self (s : State) (u : ErrUnit) : 1 ≤ (s.noteError u).errorCount u := by
  have gone : (s.errs.counts.filter fun p => p.1 != u).find? (fun p => p.1 = u) = none := by simp
  rw [State.errorCount, State.noteError, List.find?_append, gone]
  simp

theorem State.errorCount_noteError_ne (s : State) {u x : ErrUnit} (h : x ≠ u) :
    (s.noteError u).errorCount x = s.errorCount x := by
  have same : (s.errs.counts.filter fun p => p.1 != u).find? (fun p => p.1 = x) = s.errs.counts.find? (fun p => p.1 = x) := by
    rw [List.find?_filter]
    congr 1
    funext p
    by_cases e : p.1 = x
    · simp [e, h]
    · simp [e]
  rw [State.errorCount, State.noteError, List.find?_append, same]
  simp [State.errorCount, Ne.symm h]

theorem execUnitRetire_of_not_lasting {s : State} {u : ErrUnit} (h : s.lasting u = false) : execUnitRetire u s = .next s := by
  unfold execUnitRetire
  rw [h]
  rfl

theorem execUnitRetire_of_lasting {s : State} {u : ErrUnit} (h : s.lasting u = true) (other : ∀ n, u ≠ .core n) :
    execUnitRetire u s = .next (s.retireUnit u) := by
  unfold execUnitRetire
  rw [h]
  cases u with
  | core n => exact absurd rfl (other n)
  | _ => rfl

theorem State.mem_retired_retireUnit (s : State) {u : ErrUnit} (other : ∀ n, u ≠ .core n) :
    u ∈ (s.retireUnit u).errs.retired := by
  cases u with
  | core n => exact absurd rfl (other n)
  | _ => exact List.mem_append_right _ (List.mem_singleton_self _)

theorem State.lasting_of_retired {s : State} {u : ErrUnit} (h : u ∈ s.errs.retired) : s.lasting u = false := by
  simp [State.lasting, h]

theorem execUnitRetire_core_idle {s : State} {n : Nat} (h : s.lasting (.core n) = true) (idle : s.coreLaunch n = none) :
    execUnitRetire (.core n) s = .next (s.retireUnit (.core n)) := by
  unfold execUnitRetire
  rw [h]
  dsimp only
  rw [idle]
  rfl

theorem execUnitRetire_core_busy {s : State} {n : Nat} {l : Launch} (h : s.lasting (.core n) = true)
    (busy : s.coreLaunch n = some l) :
    execUnitRetire (.core n) s = .next (if l.phase = .running then s.preempt l else s) := by
  unfold execUnitRetire
  rw [h]
  dsimp only
  rw [busy]
  simp

/-! ### Power-on (spec/21 R402) -/

/-- The images that verify. -/
def verified (images : List (List Byte)) : List (List Byte) := images.filter fun i => Config.signatureOk i (sha512 i)

theorem verified_cons_of_ok {i : List Byte} {images : List (List Byte)} (h : Config.signatureOk i (sha512 i) = true) :
    verified (i :: images) = i :: verified images := List.filter_cons_of_pos h

theorem verified_cons_of_not_ok {i : List Byte} {images : List (List Byte)} (h : ¬ Config.signatureOk i (sha512 i) = true) :
    verified (i :: images) = verified images := List.filter_cons_of_neg h

/-- Loading images in order leaves the last one that verifies, and measures each that does. -/
theorem State.foldl_loadImage (s : State) (images : List (List Byte)) : images.foldl (fun s image => s.loadImage image) s =
    { s with host := { s.host with
      fw := (verified images).getLastD s.host.fw
      boot := (verified images).foldl (fun m i => measure m (sha512 i)) s.host.boot } } := by
  induction images generalizing s with
  | nil => rfl
  | cons i images ih =>
    by_cases ok : Config.signatureOk i (sha512 i) = true
    · have e : s.loadImage i = { s with host := { s.host with fw := i, boot := measure s.host.boot (sha512 i) } } := if_pos ok
      rw [List.foldl_cons, e, ih, verified_cons_of_ok ok, List.getLastD_cons, List.foldl_cons]
    · rw [List.foldl_cons, show s.loadImage i = s from if_neg ok, ih, verified_cons_of_not_ok ok]

/-- Power-on is the reset state with the images that verify, the last of them in use, each measured in order. -/
theorem execPowerOn_loads (images : List (List Byte)) (s : State) : ∃ u, execPowerOn images s = .next u ∧
    u.cores = State.reset.cores ∧ u.parts = [] ∧ u.launches = [] ∧ u.seqs = [] ∧ u.mem = State.reset.mem ∧
    u.host.boot = (verified images).foldl (fun m i => measure m (sha512 i)) (List.replicate 64 0) ∧
    u.host.fw = (verified images).getLastD State.reset.host.fw := by
  unfold execPowerOn
  dsimp only
  rw [State.foldl_loadImage]
  exact ⟨_, rfl, rfl, rfl, rfl, rfl, rfl, rfl, rfl⟩

end Sys2Proof.Machine

namespace Sys2Proof.Claims
set_option Elab.async false

open Machine

/-- Settles O60, clause by clause from the laws of home's half of a line, of remote accesses, of fabric launches and ports, and
of errors and power-on. -/
theorem hostFabricAndHardware : Obligations.HostFabricAndHardware := by
  intro s cxl ok half id src gen port width bytes bs image unit images a line on waits words reaches
  have reach (p : Bool) : reaches p ↔ s.hostReaches p half = true := State.hostReaches_iff.symm
  refine ⟨?hostWriteNowhere, enabled_eq half bytes, ?hostWrite, ?hostWriteAlone, ?hostReadNowhere, ?hostRead, ?hostReadAlone,
    ?notSnooped, ?replyWaits, ?snooped, ?remote, ?foreign, ?notJoined, ?joined, ?startBarrier, ?portTraining, ?linkPortDown,
    ?hostLinkTraining, ?powerLimit, ?correctedError, ?notLasting, ?retire, ?retireCore, ?powerOn⟩
  case hostWriteNowhere => exact fun h => execHostWrite_of_not_reaches fun r => h ((reach _).mpr r)
  case hostWrite => exact fun h => execHostWrite_of_reaches ((reach _).mp h)
  case hostWriteAlone =>
    intro h late
    have e : exec (.hostWrite cxl half bytes) s = .next _ := execHostWrite_of_reaches ((reach _).mp h)
    rw [e]
    exact ⟨fun spilled => congrArg _ (State.later_hostWrite_spilled late spilled), fun resident =>
      ⟨fun free => congrArg _ (State.later_hostWrite_free late resident free),
        fun held => congrArg _ (State.later_hostWrite_held late resident held)⟩⟩
  case hostReadNowhere => exact fun h => execHostRead_of_not_reaches fun r => h ((reach _).mpr r)
  case hostRead => exact fun h => execHostRead_of_reaches ((reach _).mp h)
  case hostReadAlone =>
    intro h late resident free
    have e : exec (.hostRead half) s = .next _ := execHostRead_of_reaches ((reach _).mp h)
    rw [e]
    exact ⟨_, congrArg _ (State.later_hostRead_free late resident free), rfl, rfl, rfl⟩
  case notSnooped => exact fun h => ⟨execSnoopReply_of_not_due (.inl h), execSnoopTimeout_of_not_due (.inl h)⟩
  case replyWaits => exact fun _ h => ⟨execSnoopReply_of_not_due (.inr h), execSnoopTimeout_of_not_due (.inr h)⟩
  case snooped =>
    intro out due
    obtain ⟨k, who, lost⟩ := execSnoopTimeout_of_due out due
    have e : exec (.snoopReply half bytes) s = .next _ := execSnoopReply_of_due out due
    rw [e]
    refine ⟨fun late => ⟨fun free => congrArg _ (State.later_hostReply_free late free),
      fun held unowned => congrArg _ (State.later_hostReply_held late held unowned)⟩, ?_, fun late => ⟨_, lost, ?_⟩⟩
    · exact ⟨s.halfLost half, k, who, s.halfLost_cores half, s.halfLost_cells half, s.not_mem_snoops_halfLost half,
        fun l o => ⟨s.homePsn_halfLost half l o, s.owner_halfLost half l o⟩, lost⟩
    · exact ((s.unowned_halfLost half).machineRecord ((s.halfLost_late half).trans late)).1
  case remote =>
    intro r found
    refine ⟨fun p fresh first path place => ?_, fun fresh first path place free => ⟨?_, s.performRemote_responds found⟩,
      fun h => ?_, fun fresh first path place held => ?_, fun v answered => ⟨?_, State.closeRemote_gone found v⟩,
      fun fresh => ?_,
      fun fresh own away named load => execFabricDeliveryTimeout_of_load found fresh own away named load,
      fun fresh own away named store => execFabricDeliveryTimeout_of_store found fresh own away named store,
      fun h => execFabricDeliveryTimeout_of_other found h⟩
    · exact congrArg _ (State.remoteArrives_of_router found fresh first path place)
    · exact congrArg _ ((State.remoteArrives_of_home found fresh first path place).trans (if_pos free))
    · exact congrArg _ (State.remoteArrives_of_not_due found h)
    · exact congrArg _ ((State.remoteArrives_of_home found fresh first path place).trans (if_neg (by simp [held])))
    · exact execFabricAck_answered found answered
    · exact execFabricAck_pending found fresh
  case foreign => exact fun m c pa acc h => execFabricRemoteAccess_foreign h c pa acc
  case notJoined => exact fun h => execFabricLaunchReceive_not_joined h bs image
  case joined =>
    intro p join away size v
    have e : exec (.fabricLaunchReceive src bs image) s = .next _ := execFabricLaunchReceive_joined join away size
    rw [e]
    refine ⟨fun h => congrArg _ (if_neg fun k => ?_), fun known accepted => ?_⟩
    · rcases h with h | h
      · exact absurd k.1 (by simp [v, h])
      · exact h k.2
    · obtain ⟨l, hl⟩ := v.1.takeLaunch_launches p.id bs image
      exact ⟨_, l, congrArg _ (if_pos ⟨known, accepted⟩), hl⟩
  case startBarrier => exact fun l found => ⟨fun h => h ▸ execStartBarrierComplete_ok found,
    fun h => h ▸ execStartBarrierComplete_fails found⟩
  case portTraining => exact execPortTraining_sets
  case linkPortDown => exact execLinkPortDown_clears
  case hostLinkTraining => exact ⟨_, rfl, rfl, rfl, rfl, rfl, rfl⟩
  case powerLimit => exact ⟨_, rfl, rfl, rfl, rfl⟩
  case correctedError =>
    exact ⟨_, rfl, s.errorCount_noteError_self unit, rfl, rfl, fun x h => s.errorCount_noteError_ne h⟩
  case notLasting => exact execUnitRetire_of_not_lasting
  case retire => exact fun h other => ⟨execUnitRetire_of_lasting h other, s.mem_retired_retireUnit other,
    State.lasting_of_retired (s.mem_retired_retireUnit other)⟩
  case retireCore =>
    rintro n rfl h
    exact ⟨execUnitRetire_core_idle h, fun l => execUnitRetire_core_busy h⟩
  case powerOn => exact execPowerOn_loads images s

end Sys2Proof.Claims

/-!
PROOFS. The integer arithmetic of spec/04 R102 and R103: every result is an exact integer, narrowed once, of operands read as
unbounded integers.
-/
namespace Sys2Proof.Machine
set_option Elab.async false

open Claims

/-- An instruction that follows R102's pattern completes with the exact result of its operands. -/
theorem computes_alu {i : Instr} {s : State} {rd ra rb : Reg} (signed w sat : Bool) (f : Int → Int → Int)
    (h : exec i s = .next (s.alu signed w sat f rd ra rb)) :
    Computes i s rd w sat (f (opnd w signed (s.rd ra)) (opnd w signed (s.rd rb))) := by
  rw [← intValue_opnd, ← intValue_opnd]
  exact computes_of h

/-- One that follows it and takes more than a cycle writes that result late. -/
theorem computesLate_alu {i : Instr} {s : State} {rd ra rb : Reg} (signed w sat : Bool) (f : Int → Int → Int)
    (h : exec i s = .next (s.aluLate signed w sat f rd ra rb)) :
    ComputesLate i s rd w sat (f (opnd w signed (s.rd ra)) (opnd w signed (s.rd rb))) := by
  rw [← intValue_opnd, ← intValue_opnd]
  exact computesLate_of h

/-- Settles O1: all three follow the pattern of R102, the product the late one. -/
theorem integerAddSubtractMultiply : Obligations.IntegerAddSubtractMultiply := by
  intro s rd ra rb w sat a b
  exact ⟨computes_alu true w sat (· + ·) rfl, computes_alu true w sat (· - ·) rfl, computesLate_alu true w sat (· * ·) rfl⟩

/-- The high half of a product: rounding down divides as the model does. -/
theorem fdiv_two_pow_width (w : Bool) (x : Int) : Int.fdiv x (2 ^ width w) = x / (2 : Int) ^ opWidth w :=
  Int.fdiv_eq_ediv_of_nonneg x (Int.pow_nonneg (by decide))

/-- Settles O2: the pattern of R102 over signed and unsigned operands. -/
theorem integerHighProductAndExtremes : Obligations.IntegerHighProductAndExtremes := by
  intro s rd ra rb w a b c d
  rw [fdiv_two_pow_width, fdiv_two_pow_width]
  exact ⟨computesLate_alu true w false (fun a b => a * b / (2 : Int) ^ opWidth w) rfl,
    computesLate_alu false w false (fun a b => a * b / (2 : Int) ^ opWidth w) rfl,
    computes_alu true w false (fun a b => if a ≤ b then a else b) rfl,
    computes_alu true w false (fun a b => if a ≤ b then b else a) rfl,
    computes_alu false w false (fun a b => if a ≤ b then a else b) rfl,
    computes_alu false w false (fun a b => if a ≤ b then b else a) rfl⟩

/-! ### Division -/

/-- With a divisor DIV gives the narrowed quotient. -/
theorem divResult_of_ne_zero (w sat : Bool) (a : Int) {b : Int} (h : b ≠ 0) : divResult w sat a b = aluResult w sat (a.tdiv b) :=
  if_neg h

/-- What lies above every signed value is clamped to the largest, what lies below to the smallest. -/
theorem clampInt_beyond (w above : Bool) : clampInt (opWidth w) true (if above then 2 ^ 64 else - 2 ^ 64) =
    (if above then intMax (opWidth w) true else intMin (opWidth w) true, flagSAT) := by
  cases w <;> cases above <;> decide

/-- Without a divisor DIV.sat gives the bound on the dividend's side, as if the quotient lay beyond it (R103). -/
theorem divResult_sat_zero (w : Bool) (a : Int) :
    divResult w true a 0 = aluResult w true (if 0 ≤ a then 2 ^ 64 else - 2 ^ 64) := by
  have clamped := clampInt_beyond w (decide (0 ≤ a))
  simp only [decide_eq_true_eq] at clamped
  simp only [divResult, aluResult, narrow, clamped, if_true, Bool.false_eq_true, if_false]

/-- DIV writes its quotient late. -/
theorem computesLate_div {s : State} {rd ra rb : Reg} {w sat : Bool} {x : Int}
    (h : divResult w sat (opnd w true (s.rd ra)) (opnd w true (s.rd rb)) = aluResult w sat x) :
    ComputesLate (.div rd ra rb w sat) s rd w sat x := by
  rw [← intValue_opnd, ← intValue_opnd] at h
  exact computesLate_of (h ▸ rfl)

/-- DIVU's quotient of operands. -/
theorem computesLate_divu (s : State) (rd ra rb : Reg) (w : Bool) : ComputesLate (.divu rd ra rb w false) s rd w false
    (if opnd w false (s.rd rb) = 0 then 2 ^ width w - 1 else opnd w false (s.rd ra) / opnd w false (s.rd rb)) :=
  computesLate_alu false w false (fun a b => if b = 0 then (2 : Int) ^ opWidth w - 1 else a / b) rfl

/-- REM's remainder of operands. -/
theorem computesLate_rem (s : State) (rd ra rb : Reg) (w : Bool) : ComputesLate (.rem rd ra rb w false) s rd w false
    (if opnd w true (s.rd rb) = 0 then opnd w true (s.rd ra) else (opnd w true (s.rd ra)).tmod (opnd w true (s.rd rb))) :=
  computesLate_alu true w false (fun a b => if b = 0 then a else a.tmod b) rfl

/-- REMU's remainder of operands. -/
theorem computesLate_remu (s : State) (rd ra rb : Reg) (w : Bool) : ComputesLate (.remu rd ra rb w false) s rd w false
    (if opnd w false (s.rd rb) = 0 then opnd w false (s.rd ra) else opnd w false (s.rd ra) % opnd w false (s.rd rb)) :=
  computesLate_alu false w false (fun a b => if b = 0 then a else a % b) rfl

/-- An unsigned operand is a natural number. -/
theorem opnd_unsigned_nonneg (w : Bool) (x : Word) : 0 ≤ opnd w false x := by
  cases w <;> exact Int.natCast_nonneg _

/-- Settles O3: a case for each kind of divisor, with the remainders by the library's equations of division. -/
theorem integerDivision : Obligations.IntegerDivision := by
  intro s rd ra rb w sat a b c d
  have floors : Int.fdiv c d = c / d := Int.fdiv_eq_ediv_of_nonneg c (opnd_unsigned_nonneg w (s.rd rb))
  have rem := computesLate_rem s rd ra rb w
  have divu := computesLate_divu s rd ra rb w
  have remu := computesLate_remu s rd ra rb w
  refine ⟨fun hb => ⟨computesLate_div (divResult_of_ne_zero w sat a hb), ?_⟩, fun hb => ⟨computesLate_div ?_,
    computesLate_div ?_, ?_⟩, fun hd => ⟨?_, ?_⟩, fun hd => ⟨?_, ?_⟩⟩
  · rwa [if_neg hb, Int.tmod_def] at rem
  · exact if_pos hb
  · exact hb ▸ divResult_sat_zero w a
  · rwa [if_pos hb] at rem
  · rwa [if_neg hd, ← floors] at divu
  · rwa [if_neg hd, Int.emod_def, ← floors] at remu
  · rwa [if_pos hd] at divu
  · rwa [if_pos hd] at remu

end Sys2Proof.Machine

/-!
PROOFS. The instructions of spec/04 R102 to R112 that write one value and raise no flag: logic, shifts, constants and
addresses, comparisons, bit counts and bit fields. Values are given bit by bit.
-/
namespace Sys2Proof.Machine
set_option Elab.async false

open Claims

/-- An instruction whose one effect is a value in `rd`. -/
theorem answers_of {i : Instr} {s : State} {rd : Reg} {v : Word} (h : exec i s = .next (s.done rd (v, 0))) :
    Answers i s rd v :=
  ⟨_, h, s.done_writes rd (v, 0)⟩

/-! ### Logic, constants and addresses -/

/-- SEL takes ra unless rc is zero (R106). -/
theorem select_eq (a b c : Word) : (if c != 0 then a else b) = if c = 0 then b else a := by
  by_cases h : c = 0 <;> simp [h]

/-- LIH keeps the low half of its register (R110). -/
theorem append_low_half (imm : BitVec 32) (x : Word) :
    imm ++ x.setWidth 32 = BitVec.ofNat 64 (imm.toNat * 2 ^ 32 + x.toNat % 2 ^ 32) := by
  apply BitVec.eq_of_toNat_eq
  have := imm.isLt
  rw [toNat_cat, BitVec.toNat_setWidth, BitVec.toNat_ofNat]
  omega

/-- A scale is a shift (R111). -/
theorem shiftLeft_eq_scale (x : Word) (sh : BitVec 2) : x <<< sh.toNat = x * BitVec.ofNat 64 (2 ^ sh.toNat) := by
  rw [BitVec.shiftLeft_eq_mul_twoPow]
  congr 1
  exact BitVec.eq_of_toNat_eq (by simp)

/-- Settles O4: each instruction completes with the one value that its entry gives. -/
theorem logicAddressesAndShifts : Obligations.LogicAddressesAndShifts := by
  refine ⟨fun s rd ra rb rc imm imm5 imm32 sh => ⟨answers_of rfl, answers_of rfl, answers_of rfl, answers_of rfl,
    ?sel, answers_of rfl, answers_of rfl, answers_of rfl, answers_of rfl, answers_of rfl, ?lih, ?lea, answers_of rfl, ?cMov,
    answers_of rfl, ?cLi⟩, fun s rd ra rb imm sh => ?shifts⟩
  case sel => exact select_eq (s.rd ra) (s.rd rb) (s.rd rc) ▸ answers_of rfl
  case lih => exact append_low_half imm32 (s.rd rd) ▸ answers_of rfl
  case lea => exact shiftLeft_eq_scale (s.rd rb) sh ▸ answers_of rfl
  case cMov =>
    have or_zero : s.rd ra ||| s.rd 0 = s.rd ra := (congrArg (s.rd ra ||| ·) s.rd_g0).trans BitVec.or_zero
    exact or_zero ▸ answers_of (v := s.rd ra ||| s.rd 0) rfl
  case cLi =>
    have zero_add : s.rd 0 + imm5.signExtend 64 = imm5.signExtend 64 :=
      (congrArg (· + imm5.signExtend 64) s.rd_g0).trans (BitVec.zero_add _)
    exact zero_add ▸ answers_of (v := s.rd 0 + imm5.signExtend 64) rfl
  case shifts =>
    exact ⟨⟨answers_of rfl, answers_of rfl, answers_of rfl⟩, ⟨answers_of rfl, answers_of rfl, answers_of rfl⟩,
      fun _ => ⟨answers_of rfl, answers_of rfl, answers_of rfl⟩, answers_of rfl, answers_of rfl⟩

/-! ### Numbers from lists of bits and bytes -/

/-- A number has the bits of the list it is made from. -/
theorem testBit_bitsValue (l : List Bool) (i : Nat) : (bitsValue l).testBit i = l.getD i false := by
  induction l generalizing i with
  | nil => simp [bitsValue]
  | cons b l ih =>
    have step : bitsValue (b :: l) = 2 ^ 1 * bitsValue l + bit1 b := Nat.add_comm _ _
    have small : bit1 b < 2 ^ 1 := by cases b <;> decide
    rw [step, Nat.testBit_two_pow_mul_add _ small]
    cases i with
    | zero => cases b <;> rfl
    | succ i => exact ih i

/-- The bits of a number of `k` bits, listed downward. -/
theorem bitsDown_eq (x k : Nat) : bitsDown x k = ((List.range k).map x.testBit).reverse := by
  induction k with
  | zero => rfl
  | succ k ih => rw [bitsDown, ih, List.range_succ, List.map_append, List.reverse_append]; rfl

/-- A number has the bits of the bytes it is made from. -/
theorem testBit_leNat (l : List Byte) (j : Nat) {i : Nat} (h : i < 8) :
    (leNat l).testBit (8 * j + i) = (l.getD j 0).getLsbD i := by
  induction l generalizing j with
  | nil => simp [leNat]
  | cons b l ih =>
    have step : leNat (b :: l) = 2 ^ 8 * leNat l + b.toNat := Nat.add_comm _ _
    rw [step, Nat.testBit_two_pow_mul_add _ b.isLt]
    cases j with
    | zero => rw [Nat.mul_zero, Nat.zero_add, if_pos h]; rfl
    | succ j =>
      rw [if_neg (by omega), show 8 * (j + 1) + i - 8 = 8 * j + i by omega]
      exact ih j

/-- The bytes of a number have its bits. -/
theorem getLsbD_leBytes (n x : Nat) {i j : Nat} (hi : i < 8) (hj : j < n) :
    ((leBytes n x).getD j 0).getLsbD i = x.testBit (8 * j + i) := by
  induction n generalizing x j with
  | zero => omega
  | succ n ih =>
    cases j with
    | zero =>
      have low : (BitVec.ofNat 8 x).getLsbD i = x.testBit i := by rw [BitVec.getLsbD_ofNat, decide_eq_true hi, Bool.true_and]
      rw [Nat.mul_zero, Nat.zero_add]
      exact low
    | succ j =>
      have shift : x / 256 = x >>> 8 := (Nat.shiftRight_eq_div_pow x 8).symm
      have e := ih (x / 256) (j := j) (by omega)
      rw [shift, Nat.testBit_shiftRight] at e
      rw [show 8 * (j + 1) + i = 8 + (8 * j + i) by omega, ← e, ← shift]
      rfl

/-! ### Comparison -/

/-- The conditions of R105 in their order. -/
def conditionBits (sa sb ua ub : Int) : List Bool :=
  [sa = sb, sa ≠ sb, sa < sb, sb ≤ sa, ua < ub, ub ≤ ua, sb < sa, sa ≤ sb, ub < ua, ua ≤ ub]

/-- The mask holds them from bit 0 on. -/
theorem getLsbD_cmpMask (w : Bool) (a b : Word) (k : Nat) : (cmpMask w a b).getLsbD k =
    (decide (k < 64) && (conditionBits (opnd w true a) (opnd w true b) (opnd w false a) (opnd w false b)).getD k false) := by
  rw [← testBit_bitsValue, ← BitVec.getLsbD_ofNat]
  simp only [cmpMask, intValue_opnd, conditionBits, bitsValue, decide_not]
  rfl

/-- The mask has the bits of R105 and no others. -/
theorem conditions_cmpMask (w : Bool) (a b : Word) :
    Conditions (cmpMask w a b) (opnd w true a) (opnd w true b) (opnd w false a) (opnd w false b) := by
  have bit := getLsbD_cmpMask w a b
  refine ⟨bit 0, bit 1, bit 2, bit 3, bit 4, bit 5, bit 6, bit 7, bit 8, bit 9, fun k above => ?_⟩
  rw [bit k, List.getD_eq_getElem?_getD, List.getElem?_eq_none above, Option.getD_none, Bool.and_false]

/-- Settles O5: both write the mask of R105. -/
theorem compareWritesTenConditions : Obligations.CompareWritesTenConditions := fun s _ ra rb w imm =>
  ⟨⟨_, answers_of rfl, conditions_cmpMask w (s.rd ra) (s.rd rb)⟩,
    ⟨_, answers_of rfl, conditions_cmpMask false (s.rd ra) (imm64 imm)⟩⟩

/-! ### Results of a width -/

/-- Below its width a result has the bits of its number. -/
theorem getLsbD_signed64_low {w : Bool} {i : Nat} (x : Nat) (h : i < width w) : (signed64 w x).getLsbD i = x.testBit i := by
  cases w with
  | false =>
    have h64 : i < 64 := h
    rw [signed64, if_neg Bool.false_ne_true, BitVec.getLsbD_ofNat, decide_eq_true h64, Bool.true_and]
  | true =>
    have h32 : i < 32 := h
    have h64 : i < 64 := by omega
    rw [signed64, if_pos rfl, BitVec.getLsbD_signExtend, if_pos h32, BitVec.getLsbD_ofNat, decide_eq_true h64,
      decide_eq_true h32, Bool.true_and, Bool.true_and]

/-- Above it, those of bit 31. -/
theorem getLsbD_signed64_high {w : Bool} {i : Nat} (x : Nat) (h : width w ≤ i) (h64 : i < 64) :
    (signed64 w x).getLsbD i = (signed64 w x).getLsbD 31 := by
  cases w with
  | false => exact absurd h64 (Nat.not_lt.mpr h)
  | true =>
    have h32 : ¬ i < 32 := Nat.not_lt.mpr h
    have top (k : Nat) (hk : k < 64) (n : ¬ k < 32) : (signed64 true x).getLsbD k = (BitVec.ofNat 32 x).msb := by
      rw [signed64, if_pos rfl, BitVec.getLsbD_signExtend, if_neg n, decide_eq_true hk, Bool.true_and]
    rw [top i h64 h32, BitVec.msb_eq_getLsbD_last, signed64, if_pos rfl, BitVec.getLsbD_signExtend]
    rfl

/-- A count fits every width. -/
theorem signed64_count (w : Bool) {k : Nat} (h : k ≤ width w) : signed64 w k = BitVec.ofNat 64 k := by
  cases w with
  | false => rfl
  | true =>
    have h32 : k ≤ 32 := h
    have small : (BitVec.ofNat 32 k).toNat = k := Nat.mod_eq_of_lt (by omega)
    have pos : (BitVec.ofNat 32 k).msb = false := by rw [BitVec.msb_eq_false_iff_two_mul_lt, small]; omega
    rw [signed64, if_pos rfl, BitVec.signExtend_eq_setWidth_of_msb_false pos]
    exact BitVec.eq_of_toNat_eq (by rw [BitVec.toNat_setWidth, small, BitVec.toNat_ofNat])

/-- The operand of R107's operations: the low bits of a register. -/
def lowOperand (w : Bool) (x : Word) : Nat := x.toNat % 2 ^ opWidth w

/-- It has the bits of the register. -/
theorem testBit_lowOperand {w : Bool} {i : Nat} (x : Word) (h : i < width w) : (lowOperand w x).testBit i = x.getLsbD i := by
  rw [lowOperand, Nat.testBit_mod_two_pow, opWidth_eq, decide_eq_true h, Bool.true_and, BitVec.testBit_toNat]

/-! ### Counts -/

/-- Leading false values are counted up to the first true one. -/
theorem leadingClear_eq_findIdx (l : List Bool) : leadingClear l = l.findIdx id := by
  rw [leadingClear, List.takeWhile_eq_take_findIdx_not, List.length_take, Nat.min_eq_left List.findIdx_le_length]
  simp only [Bool.not_not]
  rfl

/-- So a count of them is at most the length, everything before it is false, and what stands at it is true. -/
theorem leadingClear_spec {l : List Bool} {n : Nat} {bit : Nat → Bool} (hl : l.length = n)
    (hb : ∀ i (h : i < l.length), l[i] = bit i) :
    leadingClear l ≤ n ∧ (∀ i, i < leadingClear l → bit i = false) ∧ (leadingClear l < n → bit (leadingClear l) = true) := by
  subst hl
  rw [leadingClear_eq_findIdx]
  refine ⟨List.findIdx_le_length, fun i h => ?_, fun h => ?_⟩
  · rw [← hb i (Nat.lt_of_lt_of_le h List.findIdx_le_length)]
    exact List.not_of_lt_findIdx h
  · rw [← hb _ h]
    exact List.findIdx_getElem (w := h)

theorem length_bitsDown (x k : Nat) : (bitsDown x k).length = k := by simp [bitsDown_eq]

/-- The bits listed downward start with the highest. -/
theorem getElem_bitsDown (x k i : Nat) (h : i < (bitsDown x k).length) : (bitsDown x k)[i] = x.testBit (k - 1 - i) := by
  simp only [bitsDown_eq, List.getElem_reverse, List.getElem_map, List.getElem_range, List.length_map, List.length_range]

/-- Listed upward they start with the lowest. -/
theorem getElem_bitsDown_reverse (x k i : Nat) (h : i < (bitsDown x k).reverse.length) :
    (bitsDown x k).reverse[i] = x.testBit i := by
  simp only [bitsDown_eq, List.reverse_reverse, List.getElem_map, List.getElem_range]

/-- An instruction that counts bits of its operand writes the count. -/
theorem answers_count {i : Instr} {s : State} {rd ra : Reg} {w : Bool} (f : Nat → Nat → Nat)
    (h : exec i s = .next (s.bitsOp w f rd ra)) (hk : f (width w) (lowOperand w (s.rd ra)) ≤ width w) :
    Answers i s rd (BitVec.ofNat 64 (f (width w) (lowOperand w (s.rd ra)))) :=
  signed64_count w hk ▸ answers_of h

/-- CLZ counts down from the highest bit of its width (R107). -/
theorem execClz_counts (s : State) (rd ra : Reg) (w : Bool) : ∃ k, Answers (.clz rd ra w) s rd (BitVec.ofNat 64 k) ∧
    k ≤ width w ∧ (∀ i, i < k → (s.rd ra).getLsbD (width w - 1 - i) = false) ∧
    (k < width w → (s.rd ra).getLsbD (width w - 1 - k) = true) := by
  obtain ⟨le, clear, set⟩ := leadingClear_spec (length_bitsDown (lowOperand w (s.rd ra)) (width w)) (getElem_bitsDown _ _)
  have bit {i : Nat} (h : i < width w) := testBit_lowOperand (s.rd ra) (w := w) (i := width w - 1 - i) (by omega)
  exact ⟨_, answers_count (fun k x => leadingClear (bitsDown x k)) rfl le, le,
    fun i h => (bit (Nat.lt_of_lt_of_le h le)).symm.trans (clear i h), fun h => (bit h).symm.trans (set h)⟩

/-- CTZ counts up from bit 0. -/
theorem execCtz_counts (s : State) (rd ra : Reg) (w : Bool) : ∃ k, Answers (.ctz rd ra w) s rd (BitVec.ofNat 64 k) ∧
    k ≤ width w ∧ (∀ i, i < k → (s.rd ra).getLsbD i = false) ∧ (k < width w → (s.rd ra).getLsbD k = true) := by
  obtain ⟨le, clear, set⟩ := leadingClear_spec (List.length_reverse.trans (length_bitsDown (lowOperand w (s.rd ra)) (width w)))
    (getElem_bitsDown_reverse _ _)
  have bit {i : Nat} (h : i < width w) := testBit_lowOperand (s.rd ra) h
  exact ⟨_, answers_count (fun k x => leadingClear (bitsDown x k).reverse) rfl le, le,
    fun i h => (bit (Nat.lt_of_lt_of_le h le)).symm.trans (clear i h), fun h => (bit h).symm.trans (set h)⟩

/-- The set bits of a number of `n` bits are those of its places. -/
theorem length_filter_bitsDown (x n : Nat) :
    ((bitsDown x n).filter id).length = ((List.range n).filter fun i => x.testBit i).length := by
  rw [bitsDown_eq, List.filter_reverse, List.length_reverse, List.filter_map, List.length_map]
  rfl

/-- POPC counts the places of set bits. -/
theorem execPopc_counts (s : State) (rd ra : Reg) (w : Bool) : Answers (.popc rd ra w) s rd
    (BitVec.ofNat 64 ((List.range (width w)).filter fun i => (s.rd ra).getLsbD i).length) := by
  have places : ((bitsDown (lowOperand w (s.rd ra)) (width w)).filter id).length =
      ((List.range (width w)).filter fun i => (s.rd ra).getLsbD i).length := by
    rw [length_filter_bitsDown, List.filter_congr fun i h => testBit_lowOperand (s.rd ra) (List.mem_range.mp h)]
  have le : ((bitsDown (lowOperand w (s.rd ra)) (width w)).filter id).length ≤ width w :=
    Nat.le_trans (List.length_filter_le _ _) (Nat.le_of_eq (length_bitsDown _ _))
  exact places ▸ answers_count (fun k x => ((bitsDown x k).filter id).length) rfl le

/-! ### Reversals -/

/-- BREV gives bit k the value of bit w - 1 - k. -/
theorem testBit_brev {w : Bool} {i : Nat} (x : Word) (h : i < width w) :
    (bitsValue (bitsDown (lowOperand w x) (width w))).testBit i = x.getLsbD (width w - 1 - i) := by
  have inside : i < (bitsDown (lowOperand w x) (width w)).length := (length_bitsDown _ _).symm ▸ h
  rw [testBit_bitsValue, List.getD_eq_getElem?_getD, List.getElem?_eq_getElem inside, Option.getD_some, getElem_bitsDown,
    testBit_lowOperand x (by omega)]

/-- BSWAP gives byte j the value of byte w/8 - 1 - j. -/
theorem testBit_bswap {w : Bool} {i j : Nat} (x : Word) (hj : j < width w / 8) (hi : i < 8) :
    (leNat (leBytes (width w / 8) (lowOperand w x)).reverse).testBit (8 * j + i) =
      x.getLsbD (8 * (width w / 8 - 1 - j) + i) := by
  have len := leBytes_length (width w / 8) (lowOperand w x)
  have back : (leBytes (width w / 8) (lowOperand w x)).reverse.getD j 0 =
      (leBytes (width w / 8) (lowOperand w x)).getD (width w / 8 - 1 - j) 0 := by
    simp only [List.getD_eq_getElem?_getD]
    rw [List.getElem?_reverse (len.symm ▸ hj), len]
  rw [testBit_leNat _ _ hi, back, getLsbD_leBytes _ _ hi (by omega), testBit_lowOperand x (by omega)]

/-! ### Bit fields -/

/-- A field of a word as an integer, in a register: extended by its top bit or by zeros. -/
theorem ofInt_intValue (signed : Bool) (x : Nat) {n : Nat} (h : n ≠ 0) : BitVec.ofInt 64 (intValue n signed x) =
    if signed then (BitVec.ofNat n x).signExtend 64 else (BitVec.ofNat n x).setWidth 64 := by
  cases signed with
  | false =>
    rw [if_neg Bool.false_ne_true, ← BitVec.ofNat_toNat, BitVec.toNat_ofNat, ← BitVec.ofInt_natCast]
    rfl
  | true =>
    obtain ⟨m, rfl⟩ := Nat.exists_eq_succ_of_ne_zero h
    have value : intValue (m + 1) true x = (BitVec.ofNat (m + 1) x).toInt := by
      have double : 2 ^ (m + 1) = 2 ^ m * 2 := Nat.pow_succ 2 m
      rw [BitVec.toInt, BitVec.toNat_ofNat, intValue, Nat.add_sub_cancel, Bool.true_and]
      by_cases top : 2 ^ m ≤ x % 2 ^ (m + 1)
      · rw [decide_eq_true top, if_pos rfl, if_neg (by omega)]; rfl
      · rw [decide_eq_false top, if_neg Bool.false_ne_true, if_pos (by omega)]
    rw [if_pos rfl, value]
    rfl

/-- BFX cuts its field out of ra and extends it (R108). -/
theorem bfxResult_eq (signed : Bool) (a c : Word) : bfxResult signed a c =
    if signed then (a.extractLsb' (fieldOf c).1 (fieldOf c).2).signExtend 64
    else (a.extractLsb' (fieldOf c).1 (fieldOf c).2).setWidth 64 := by
  rw [bfxResult]
  generalize fieldOf c = f
  obtain ⟨pos, len⟩ := f
  have cut : BitVec.ofNat len (a.toNat / 2 ^ pos % 2 ^ len) = a.extractLsb' pos len :=
    BitVec.eq_of_toNat_eq (by rw [BitVec.toNat_ofNat, Nat.mod_mod, BitVec.extractLsb'_toNat, Nat.shiftRight_eq_div_pow])
  show (if len = 0 then 0 else BitVec.ofInt 64 (intValue len signed (a.toNat / 2 ^ pos % 2 ^ len))) =
    if signed then (a.extractLsb' pos len).signExtend 64 else (a.extractLsb' pos len).setWidth 64
  by_cases none : len = 0
  · subst none
    rw [if_pos rfl, BitVec.of_length_zero (x := a.extractLsb' pos 0)]
    cases signed <;> rfl
  · rw [if_neg none, ofInt_intValue signed _ none, cut]

/-- A field ends at bit 63 at the latest. -/
theorem fieldOf_le (c : Word) : (fieldOf c).1 + (fieldOf c).2 ≤ 64 := by
  have := Nat.mod_lt c.toNat (by decide : 64 > 0)
  have := Nat.min_le_right (min (c.toNat / 2 ^ 8 % 2 ^ 7) 64) (64 - c.toNat % 64)
  simp only [fieldOf]
  omega

section
variable (a c : Word) {i : Nat}

/-- BFX without extension by sign: the field at bit 0, and zeros above it. -/
theorem getLsbD_bfxResult_unsigned : (bfxResult false a c).getLsbD i =
    (decide (i < (fieldOf c).2) && a.getLsbD ((fieldOf c).1 + i)) := by
  have le := fieldOf_le c
  rw [bfxResult_eq, if_neg Bool.false_ne_true, BitVec.getLsbD_setWidth, BitVec.getLsbD_extractLsb']
  by_cases inside : i < (fieldOf c).2
  · rw [decide_eq_true (show i < 64 by omega), Bool.true_and]
  · rw [decide_eq_false inside, Bool.false_and, Bool.and_false]

/-- BFX with extension by sign: the field at bit 0. -/
theorem getLsbD_bfxResult_signed_inside (h : i < (fieldOf c).2) :
    (bfxResult true a c).getLsbD i = a.getLsbD ((fieldOf c).1 + i) := by
  have le := fieldOf_le c
  rw [bfxResult_eq, if_pos rfl, BitVec.getLsbD_signExtend, if_pos h, BitVec.getLsbD_extractLsb', decide_eq_true h,
    decide_eq_true (show i < 64 by omega), Bool.true_and, Bool.true_and]

/-- Above it stands the field's top bit, or zero where the field is empty. -/
theorem getLsbD_bfxResult_signed_above (h : (fieldOf c).2 ≤ i) (h64 : i < 64) : (bfxResult true a c).getLsbD i =
    ((fieldOf c).2 != 0 && a.getLsbD ((fieldOf c).1 + (fieldOf c).2 - 1)) := by
  rw [bfxResult_eq, if_pos rfl, BitVec.getLsbD_signExtend, if_neg (Nat.not_lt.mpr h), decide_eq_true h64, Bool.true_and,
    BitVec.msb_eq_getLsbD_last, BitVec.getLsbD_extractLsb']
  by_cases none : (fieldOf c).2 = 0
  · simp [none]
  · rw [decide_eq_true (by omega), Bool.true_and, Nat.add_sub_assoc (Nat.pos_of_ne_zero none), bne_iff_ne.mpr none,
      Bool.true_and]

/-- The mask of a field has the field's bits. -/
theorem getLsbD_fieldMask (pos len : Nat) : (BitVec.ofNat 64 ((2 ^ len - 1) * 2 ^ pos)).getLsbD i =
    (decide (i < 64) && (decide (pos ≤ i) && decide (i - pos < len))) := by
  rw [BitVec.getLsbD_ofNat, ← Nat.shiftLeft_eq, Nat.testBit_shiftLeft, Nat.testBit_two_pow_sub_one]

/-- BFI takes the bits of its mask from ra, moved up to the field, and the others from rd. -/
theorem getLsbD_bfiResult (d : Word) (h64 : i < 64) : (bfiResult d a c).getLsbD i =
    if (fieldOf c).1 ≤ i ∧ i - (fieldOf c).1 < (fieldOf c).2 then a.getLsbD (i - (fieldOf c).1) else d.getLsbD i := by
  have eq : bfiResult d a c = (d &&& ~~~ BitVec.ofNat 64 ((2 ^ (fieldOf c).2 - 1) * 2 ^ (fieldOf c).1)) |||
    ((a <<< (fieldOf c).1) &&& BitVec.ofNat 64 ((2 ^ (fieldOf c).2 - 1) * 2 ^ (fieldOf c).1)) := rfl
  rw [eq, BitVec.getLsbD_or, BitVec.getLsbD_and, BitVec.getLsbD_and, BitVec.getLsbD_not, BitVec.getLsbD_shiftLeft,
    getLsbD_fieldMask]
  by_cases inside : (fieldOf c).1 ≤ i ∧ i - (fieldOf c).1 < (fieldOf c).2
  · simp [inside, h64]
  · rw [if_neg inside, ← Bool.decide_and, decide_eq_false inside]
    simp [h64]

/-- The field becomes the low bits of ra. -/
theorem getLsbD_bfiResult_inside (d : Word) (h : i < (fieldOf c).2) :
    (bfiResult d a c).getLsbD ((fieldOf c).1 + i) = a.getLsbD i := by
  have le := fieldOf_le c
  rw [getLsbD_bfiResult a c d (by omega), if_pos (by omega), Nat.add_sub_cancel_left]

/-- The other bits of rd stay. -/
theorem getLsbD_bfiResult_outside (d : Word) (h : i < (fieldOf c).1 ∨ (fieldOf c).1 + (fieldOf c).2 ≤ i) :
    (bfiResult d a c).getLsbD i = d.getLsbD i := by
  by_cases h64 : i < 64
  · rw [getLsbD_bfiResult a c d h64, if_neg (by omega)]
  · rw [BitVec.getLsbD_of_ge _ _ (Nat.not_lt.mp h64), BitVec.getLsbD_of_ge _ _ (Nat.not_lt.mp h64)]

end

/-- Settles O6, from the bits of each result. -/
theorem bitCountsAndBitFields : Obligations.BitCountsAndBitFields := by
  refine ⟨?bits, ?fields⟩
  case bits =>
    intro s rd ra w n x
    refine ⟨execClz_counts s rd ra w, execCtz_counts s rd ra w, execPopc_counts s rd ra w,
      ⟨_, answers_of rfl, fun i h => ?brev, fun i => getLsbD_signed64_high _⟩,
      ⟨_, answers_of rfl, fun j i hj hi => ?bswap, fun i => getLsbD_signed64_high _⟩⟩
    case brev => exact (getLsbD_signed64_low _ h).trans (testBit_brev x h)
    case bswap =>
      have below : 8 * j + i < width w := by omega
      exact (getLsbD_signed64_low _ below).trans (testBit_bswap x hj hi)
  case fields =>
    intro s rd ra rb c pos len
    have zeros {i : Nat} := getLsbD_bfxResult_unsigned (s.rd ra) c (i := i)
    refine ⟨⟨_, answers_of rfl, fun i h => zeros.trans ?inside, fun i h => zeros.trans ?above⟩,
      ⟨_, answers_of rfl, fun i => getLsbD_bfxResult_signed_inside (s.rd ra) c,
        fun i => getLsbD_bfxResult_signed_above (s.rd ra) c⟩,
      ⟨_, answers_of rfl, fun i => getLsbD_bfiResult_inside (s.rd ra) c (s.rd rd),
        fun i => getLsbD_bfiResult_outside (s.rd ra) c (s.rd rd)⟩⟩
    case inside => exact (congrArg (· && _) (decide_eq_true h)).trans (Bool.true_and _)
    case above => exact (congrArg (· && _) (decide_eq_false (Nat.not_lt.mpr h))).trans (Bool.false_and _)

end Sys2Proof.Machine

/-!
PROOFS. Control flow: transfers (spec/04 R113, R114), the loop test (R119), window moves (R116, R117) and loop set-up
(R118, R120).
-/
namespace Sys2Proof.Machine
set_option Elab.async false

open Claims

/-! ### Transfers -/

/-- P + 2 · sext(off). -/
theorem State.relTarget_eq {n : Nat} (s : State) (off : BitVec n) : s.relTarget off = s.ctx.p + off.signExtend 64 * 2 :=
  congrArg (s.ctx.p + ·) (BitVec.shiftLeft_eq_mul_twoPow _ 1)

/-- A transfer that writes no register. -/
theorem goes_of_jump {i : Instr} {s : State} {t : Word} (h : exec i s = .next (s.jump t)) : Goes i s t s.cur.regs :=
  ⟨_, h, s.jump_jumped t⟩

/-- An instruction that only completes. -/
theorem passes_of_retire {i : Instr} {s : State} (h : exec i s = .next s.retire) : Passes i s s.cur.regs 0 :=
  ⟨_, h, s.retireTo_completed s.after⟩

/-- A taken branch goes to its target. -/
theorem goes_of_branch {i : Instr} {s : State} {taken : Bool} {n : Nat} {off : BitVec n}
    (h : exec i s = .next (s.branch taken (s.relTarget off))) (ht : taken = true) :
    Goes i s (s.ctx.p + off.signExtend 64 * 2) s.cur.regs := by
  subst ht
  exact s.relTarget_eq off ▸ goes_of_jump h

/-- A branch that is not taken only completes. -/
theorem passes_of_branch {i : Instr} {s : State} {taken : Bool} {t : Word} (h : exec i s = .next (s.branch taken t))
    (ht : taken = false) : Passes i s s.cur.regs 0 := by
  subst ht
  exact passes_of_retire h

section
variable {i : Instr} {s : State} {t : Word} {link : Bool} (h : exec i s = .next (s.jumpTo t link))
include h

/-- A transfer to an odd address traps (R113). -/
theorem raises_of_jumpTo (odd : t.getLsbD 0 = true) : Raises i s .fetchFault t := by
  rw [State.jumpTo, if_pos odd] at h
  exact h

/-- A transfer to an even address goes there, with its link where it writes one. -/
theorem goes_of_jumpTo (even : t.getLsbD 0 = false) :
    Goes i s t (if link then s.cur.regs.write 15 (s.ctx.p + 4) else s.cur.regs) := by
  rw [State.jumpTo, if_neg (ne_true_of_eq_false even)] at h
  cases link with
  | false => exact goes_of_jump h
  | true => exact ⟨_, h, s.wr_jump_jumped 15 (s.ctx.p + 4) t⟩

end

/-- After a transfer a loop is active where it was and holds the target. -/
theorem Loops.leave_la (l : Loops) (t : Word) :
    (l.leave t).la.getLsbD 0 = (l.la.getLsbD 0 && decide (l.ls0 ≤ t ∧ t ≤ l.le0)) ∧
    (l.leave t).la.getLsbD 1 = (l.la.getLsbD 1 && decide (l.ls1 ≤ t ∧ t ≤ l.le1)) := by
  have bits : ∀ (la : BitVec 2) (in0 in1 : Bool),
      (la &&& ((if in0 then 1 else 0) ||| if in1 then 2 else 0)).getLsbD 0 = (la.getLsbD 0 && in0) ∧
      (la &&& ((if in0 then 1 else 0) ||| if in1 then 2 else 0)).getLsbD 1 = (la.getLsbD 1 && in1) := by decide
  simp only [BitVec.le_def, Bool.decide_and]
  exact bits l.la _ _

/-- Settles O18, from what a branch and a transfer to a computed address do. -/
theorem controlTransfers : Obligations.ControlTransfers := by
  refine ⟨?transfers, fun l t => ⟨(l.leave_la t).1, (l.leave_la t).2, rfl⟩⟩
  intro s ra imm off15 off20 off5 off10 p r t15 t20 t5 t10 reg o7
  have eq20 : s.relTarget off20 = t20 := s.relTarget_eq off20
  have eq10 : s.relTarget off10 = t10 := s.relTarget_eq off10
  have call : exec (.call off20) s = .next (s.jumpTo t20 true) := eq20 ▸ rfl
  refine ⟨fun z => ?zero, fun nz => ?nonzero, eq20 ▸ goes_of_jump rfl, eq10 ▸ goes_of_jump rfl,
    fun even => ⟨goes_of_jumpTo (link := false) rfl even, goes_of_jumpTo (link := true) rfl even⟩,
    fun odd => ⟨raises_of_jumpTo (link := false) rfl odd, raises_of_jumpTo (link := true) rfl odd⟩,
    goes_of_jumpTo call, raises_of_jumpTo call,
    fun even => ⟨goes_of_jumpTo (link := false) rfl even, goes_of_jumpTo (link := false) rfl even⟩,
    fun odd => ⟨raises_of_jumpTo (link := false) rfl odd, raises_of_jumpTo (link := false) rfl odd⟩, passes_of_retire rfl⟩
  case zero =>
    have eq : (s.rd ra == 0) = true := beq_iff_eq.mpr z
    have ne : (s.rd ra != 0) = false := congrArg (!·) eq
    exact ⟨goes_of_branch rfl eq, passes_of_branch rfl ne, goes_of_branch rfl eq, passes_of_branch rfl ne⟩
  case nonzero =>
    have eq : (s.rd ra == 0) = false := beq_eq_false_iff_ne.mpr nz
    have ne : (s.rd ra != 0) = true := congrArg (!·) eq
    exact ⟨passes_of_branch rfl eq, goes_of_branch rfl ne, passes_of_branch rfl eq, goes_of_branch rfl ne⟩

/-! ### The loop test -/

section
variable {l m : Loops} {a : Word} (n : Word)

/-- The part of the loop test that concerns set 0 (R119): the loops after it and the next address. -/
def Loops.test0 (l : Loops) (a n : Word) : Loops × Word :=
  if l.la.getLsbD 0 = true ∧ a = l.le0 then
    if l.lc0 > 1 then ({ l with lc0 := l.lc0 - 1 }, l.ls0) else ({ l with lc0 := 0, la := l.la &&& 2 }, n)
  else (l, n)

/-- Set 1 does not end here. -/
theorem Loops.testSet1_of_not_end (h : ¬ (l.la.getLsbD 1 = true ∧ a = l.le1)) : l.testSet true a = none := by
  have h' : ¬ (l.la.getLsbD 1 && a == l.le1) = true := by simpa using h
  rw [Loops.testSet, if_pos rfl, if_neg h']

/-- It ends here: with a count above 1 it loops back, else this is its last pass. -/
theorem Loops.testSet1_of_end (h : l.la.getLsbD 1 = true ∧ a = l.le1) : l.testSet true a =
    some (if l.lc1 > 1 then ({ l with lc1 := l.lc1 - 1 }, true) else ({ l with lc1 := 0, la := l.la &&& 1 }, false)) := by
  have h' : (l.la.getLsbD 1 && a == l.le1) = true := by simpa using h
  have count : l.lc1 > 1 ↔ 1 < l.lc1.toNat := Iff.rfl
  rw [Loops.testSet, if_pos rfl, if_pos h']
  by_cases more : l.lc1 > 1
  · rw [if_pos more, if_pos (count.mp more)]
  · rw [if_neg more, if_neg (mt count.mpr more)]

/-- Set 0, in the same way. -/
theorem Loops.testSet0_eq (l : Loops) (a : Word) : l.testSet false a = if l.la.getLsbD 0 = true ∧ a = l.le0 then
    some (if l.lc0 > 1 then ({ l with lc0 := l.lc0 - 1 }, true) else ({ l with lc0 := 0, la := l.la &&& 2 }, false))
    else none := by
  have here : (l.la.getLsbD 0 && a == l.le0) = true ↔ l.la.getLsbD 0 = true ∧ a = l.le0 := by simp
  have count : l.lc0 > 1 ↔ 1 < l.lc0.toNat := Iff.rfl
  rw [Loops.testSet, if_neg Bool.false_ne_true]
  by_cases ends : l.la.getLsbD 0 = true ∧ a = l.le0
  · rw [if_pos ends, if_pos (here.mpr ends)]
    by_cases more : l.lc0 > 1
    · rw [if_pos more, if_pos (count.mp more)]
    · rw [if_neg more, if_neg (mt count.mpr more)]
  · rw [if_neg ends, if_neg (mt here.mp ends)]

/-- Looping back in set 1 ends the test. -/
theorem Loops.test_of_back (h : l.testSet true a = some (m, true)) : l.test a n = (m, l.ls1, true) := by
  rw [Loops.test, h]

/-- Otherwise set 0 is tested on what remains. -/
theorem Loops.test_of_not_back (h : l.testSet true a = some (m, false) ∨ l.testSet true a = none ∧ m = l)
    (kept : m.ls0 = l.ls0) : ((l.test a n).1, (l.test a n).2.1) = m.test0 a n := by
  have rest : l.test a n = match m.testSet false a with
      | some (l0, true) => (l0, l.ls0, true)
      | some (l0, false) => (l0, n, false)
      | none => (m, n, false) := by
    rcases h with h | ⟨h, rfl⟩ <;> simp only [Loops.test, h] <;> rfl
  rw [rest, Loops.testSet0_eq, Loops.test0, ← kept]
  by_cases ends : m.la.getLsbD 0 = true ∧ a = m.le0
  · rw [if_pos ends, if_pos ends]
    by_cases more : m.lc0 > 1
    · rw [if_pos more, if_pos more]
    · rw [if_neg more, if_neg more]
  · rw [if_neg ends, if_neg ends]

end

/-- Settles O19, set 1 first. -/
theorem loopTestAtCompletion : Obligations.LoopTestAtCompletion := by
  refine ⟨?test, fun u => u.retireTo_completed u.after⟩
  intro l a n end1 set0 r
  refine ⟨fun here more => ?_, fun here last => ?_, fun elsewhere => ?_⟩
  · have back := Loops.test_of_back n ((Loops.testSet1_of_end here).trans (congrArg some (if_pos more)))
    exact ⟨congrArg (·.1) back, congrArg (·.2.1) back⟩
  · exact Loops.test_of_not_back n (.inl ((Loops.testSet1_of_end here).trans (congrArg some (if_neg last)))) rfl
  · exact Loops.test_of_not_back n (.inr ⟨Loops.testSet1_of_not_end elsewhere, rfl⟩) rfl

/-! ### Windows -/

section
variable (r : Regs) {k : Reg}

/-- The physical registers that the o registers of the current window are. -/
def Regs.outsNow (r : Regs) : Vector Word 8 := if r.cwp = r.top then r.outs else (get8 r.wins (r.cwp + 1)).i

/-- An o register. -/
theorem Regs.read_out (h8 : 8 ≤ k.toNat) (h16 : k.toNat < 16) : r.read k = get8 r.outsNow (k.setWidth 3) := by
  rw [Regs.read, Regs.dest, if_neg (Nat.not_lt.mpr h8), if_pos h16, Regs.outsNow]
  by_cases youngest : r.cwp = r.top
  · rw [if_pos youngest, if_pos youngest]; rfl
  · rw [if_neg youngest, if_neg youngest]; rfl

/-- An l register. -/
theorem Regs.read_local (h16 : 16 ≤ k.toNat) (h24 : k.toNat < 24) :
    r.read k = get8 (get8 r.wins r.cwp).l (k.setWidth 3) := by
  rw [Regs.read, Regs.dest, if_neg (by omega), if_neg (by omega), if_pos h24]; rfl

/-- An i register. -/
theorem Regs.read_in (h24 : 24 ≤ k.toNat) : r.read k = get8 (get8 r.wins r.cwp).i (k.setWidth 3) := by
  rw [Regs.read, Regs.dest, if_neg (by omega), if_neg (by omega), if_neg (by omega)]; rfl

/-- The globals are the same in every window. -/
theorem Regs.read_global {q r : Regs} (hg : q.g = r.g) (h : k.toNat < 8) : q.read k = r.read k := by
  rw [Regs.read, Regs.read, Regs.dest, Regs.dest, if_pos h, if_pos h]
  split
  · rfl
  · exact congrArg (get8 · _) hg

/-- The registers of a window are the same wherever the window is the same. -/
theorem Regs.read_window {q r : Regs} (hw : get8 q.wins q.cwp = get8 r.wins r.cwp) (h16 : 16 ≤ k.toNat) :
    q.read k = r.read k := by
  by_cases h24 : k.toNat < 24
  · rw [Regs.read_local q h16 h24, Regs.read_local r h16 h24, hw]
  · rw [Regs.read_in q (Nat.not_lt.mp h24), Regs.read_in r (Nat.not_lt.mp h24), hw]

/-- The windows of SAVE: the new one has the caller's o registers as its i registers (R76). -/
theorem Regs.save_wins (l o : Vector Word 8) : (r.save l o).wins = set8 r.wins (r.cwp + 1) ⟨l, r.outsNow⟩ := rfl

/-- The caller's o registers are the callee's i registers. -/
theorem Regs.read_save_in (l o : Vector Word 8) (h24 : 24 ≤ k.toNat) : (r.save l o).read k = r.read (k - 16) := by
  have sub : (k - 16).toNat = k.toNat - 16 := by bv_omega
  have same : (k - 16).setWidth 3 = k.setWidth 3 := by
    apply BitVec.eq_of_toNat_eq
    rw [BitVec.toNat_setWidth, BitVec.toNat_setWidth, sub]
    omega
  have := k.isLt
  have new : get8 (r.save l o).wins (r.save l o).cwp = ⟨l, r.outsNow⟩ := by rw [Regs.save_wins]; exact get8_set8_self _ _ _
  rw [Regs.read_in _ h24, Regs.read_out r (k := k - 16) (by omega) (by omega), same, new]

/-- The callee's i registers are the caller's o registers again. -/
theorem Regs.read_restore_out (l i : Vector Word 8) (h8 : 8 ≤ k.toNat) (h16 : k.toNat < 16) :
    (r.restore l i).read k = r.read (k + 16) := by
  have add : (k + 16).toNat = k.toNat + 16 := by bv_omega
  have same : (k + 16).setWidth 3 = k.setWidth 3 := by
    apply BitVec.eq_of_toNat_eq
    rw [BitVec.toNat_setWidth, BitVec.toNat_setWidth, add]
    omega
  have back : (r.restore l i).outsNow = (get8 r.wins r.cwp).i := if_pos rfl
  rw [Regs.read_out _ h8 h16, Regs.read_in r (k := k + 16) (by omega), same, back]

end

/-- Registers replaced, one of the new ones written, then completion. -/
theorem State.setRegs_wr_retire_completed (s : State) (f : Regs → Regs) (rd : Reg) (v : Word) :
    Completed s (((s.onCur fun t => { t with regs := f t.regs }).wr rd v).retire) s.after ((f s.cur.regs).write rd v) 0 := by
  have e : (s.onCur fun t => { t with regs := f t.regs }).wr rd v = s.onCur fun t =>
      { t with regs := (f s.cur.regs).write rd v, sp := { t.sp with fs := t.sp.fs ||| 0 } } := by
    simp only [State.wr, State.onCur_onCur]
    simp [State.onCur, State.onThread, State.cur]
  have after : ((s.onCur fun t => { t with regs := f t.regs }).wr rd v).after = s.after := rfl
  rw [State.retire, after, e]
  exact s.onCur_retireTo_completed s.after _ _

section
variable {i : Instr} {s : State} {limit : BitVec 4} {c : Cause} {tval : BitVec 3} {f : Regs → Regs} {rd ra : Reg}
  {imm : BitVec 10} (h : exec i s = .next (s.moveWindow limit c tval f rd ra imm))
include h

/-- A window move waits for the results on their way to windowed registers (R116). -/
theorem exec_moveWindow_waits (pending : s.cur.windowedPending = true) : exec i s = .next (s.stall .windows) := by
  rw [h, State.moveWindow, if_pos pending]

/-- At its limit it traps. -/
theorem raises_of_moveWindow (idle : s.cur.windowedPending = false) (full : s.cur.regs.wres = limit) :
    Raises i s c (tval.setWidth 64) := by
  rw [State.moveWindow, if_neg (ne_true_of_eq_false idle), if_pos full] at h
  exact h

/-- Otherwise it moves and writes its result in the new window. -/
theorem passes_of_moveWindow (idle : s.cur.windowedPending = false) (room : s.cur.regs.wres ≠ limit) :
    Passes i s ((f s.cur.regs).write rd (s.rd ra + imm.signExtend 64)) 0 := by
  rw [State.moveWindow, if_neg (ne_true_of_eq_false idle), if_neg room] at h
  exact ⟨_, h, s.setRegs_wr_retire_completed f rd _⟩

end

/-- Settles O20, from what a window move does and what it leaves to read. -/
theorem windowMoves : Obligations.WindowMoves := by
  intro s rd ra imm v r
  have save : exec (.save rd ra imm) s = .next _ := rfl
  have restore : exec (.restore rd ra imm) s = .next _ := rfl
  refine ⟨fun pending i hi => ?waits, fun idle => ⟨raises_of_moveWindow save idle, raises_of_moveWindow restore idle,
    fun room => ⟨_, passes_of_moveWindow save idle room, rfl, rfl, fun k => r.read_save_in _ _, fun k => Regs.read_global rfl,
      fun w other => get8_set8_ne _ _ other, rfl, rfl⟩,
    fun room => ⟨_, passes_of_moveWindow restore idle room, rfl, rfl, fun k => r.read_restore_out _ _,
      fun k => Regs.read_global rfl, fun k => Regs.read_window ?caller, fun w other => get8_set8_ne _ _ other, rfl, rfl⟩⟩⟩
  case waits =>
    rcases hi with rfl | rfl
    · exact exec_moveWindow_waits save pending
    · exact exec_moveWindow_waits restore pending
  case caller =>
    have moved : ∀ w : BitVec 3, w - 1 ≠ w := by decide
    exact get8_set8_ne _ _ (moved r.cwp)

/-! ### Loop set-up -/

/-- A loop set up, in the layout of LA (R118). -/
theorem Loops.setUp_eq (l : Loops) (k : Bool) (ls le : Word) (n : BitVec 32) (on : Bool) : l.setUp k ls le n on =
    if k then { l with ls1 := ls, le1 := le, lc1 := n, la := BitVec.ofBool on ++ l.la.setWidth 1 }
    else { l with ls0 := ls, le0 := le, lc0 := n, la := l.la.extractLsb' 1 1 ++ BitVec.ofBool on } := by
  have set1 : ∀ (la : BitVec 2) (on : Bool), (la &&& 1) ||| (if on then 2 else 0) = BitVec.ofBool on ++ la.setWidth 1 := by
    decide
  have set0 : ∀ (la : BitVec 2) (on : Bool), (la &&& 2) ||| (if on then 1 else 0) = la.extractLsb' 1 1 ++ BitVec.ofBool on := by
    decide
  rw [Loops.setUp, set1, set0]

/-- Loop registers changed, then completion. -/
theorem State.onLoops_retireTo_completed (s : State) (f : Loops → Loops) (next : Word) :
    Completed (s.onLoops f) ((s.onLoops f).retireTo next) next s.cur.regs 0 := by
  have regs : (s.onLoops f).cur.regs = s.cur.regs := by rw [State.onLoops, State.cur_onCur]
  exact regs ▸ (s.onLoops f).retireTo_completed next

/-- Where the last instruction of a loop lies. -/
def State.loopEnd (s : State) (span : BitVec 16) : Word := s.ctx.p + BitVec.ofNat 64 (2 * span.toNat)

section
variable {s s1 : State} {k : Bool} {span : BitVec 16}

/-- With a count the set is written and the body follows (R118). -/
theorem State.startLoop_of_count {n : BitVec 32} (h : n ≠ 0) : s.startLoop k n span =
    (s.onLoops fun l => l.setUp k (s.ctx.p + 8) (s.loopEnd span) n true).retireTo (s.ctx.p + 8) :=
  if_neg h

/-- With a count of zero the body is not executed: the form waits for the instruction at LE (R118). -/
theorem State.startLoop_zero_waits (h : s.lengthAt (s.loopEnd span) = (s1, .error none)) :
    s.startLoop k 0 span = s1.stall .fetch := by
  rw [State.loopEnd] at h
  rw [State.startLoop, if_pos rfl, h]

/-- A fault on the way traps, the loop registers unchanged. -/
theorem State.startLoop_zero_faults {a : Word} (h : s.lengthAt (s.loopEnd span) = (s1, .error (some a))) :
    s.startLoop k 0 span = s1.trap .fetchFault a := by
  rw [State.loopEnd] at h
  rw [State.startLoop, if_pos rfl, h]

/-- Once its length is known the thread continues behind it. -/
theorem State.startLoop_zero_skips {len : Nat} (h : s.lengthAt (s.loopEnd span) = (s1, .ok len)) : s.startLoop k 0 span =
    ((s1.onLoops fun l => l.setUp k (s.ctx.p + 8) (s.loopEnd span) 0 false).retireTo
      (s.loopEnd span + BitVec.ofNat 64 len)).onCur Thread.discard := by
  rw [State.loopEnd] at h
  rw [State.startLoop, if_pos rfl, h]
  rfl

end

/-- Settles O21: both forms start the loop of their count. -/
theorem loopSetUp : Obligations.LoopSetUp := by
  intro s k ra count span i n form le set
  have starts : exec i s = .next (s.startLoop k n span) := by
    rcases form with ⟨rfl, rfl⟩ | ⟨rfl, rfl⟩ <;> rfl
  have sets (on : Bool) : (fun l => l.setUp k (s.ctx.p + 8) (s.loopEnd span) n on) = fun l => set l on :=
    funext fun l => l.setUp_eq k _ _ _ on
  refine ⟨fun some => ?count, fun zero s1 => ?zero⟩
  case count =>
    rw [starts, State.startLoop_of_count some, sets]
    exact ⟨_, rfl, s.onLoops_retireTo_completed (fun l => set l true) _⟩
  case zero =>
    rw [starts]
    refine ⟨fun waits => ?_, fun a faults => ⟨_, ?_, s1.trap_enters .fetchFault a⟩, fun len found => ?_⟩
    · rw [zero, State.startLoop_zero_waits waits]
    · rw [zero, State.startLoop_zero_faults faults]
    · have skips := State.startLoop_zero_skips (k := k) found
      rw [← zero, sets] at skips
      exact ⟨_, congrArg _ skips, s1.onLoops_retireTo_completed (fun l => set l false) _⟩

/-- Loops ended by LOOPX: one set, or both (R120). -/
def Loops.endSet (l : Loops) (which : BitVec 2) : Loops :=
  { l with la := if which = 0 then l.la &&& 2 else if which = 1 then l.la &&& 1 else 0 }

/-- LOOPX ends its sets and completes. -/
theorem execLoopx_eq (which : BitVec 2) (s : State) :
    execLoopx which s = .next ((s.onLoops fun l => l.endSet which).retireTo s.after) := by
  have mask (la : BitVec 2) : la &&& (if which = 0 then 2 else if which = 1 then 1 else 0) =
      if which = 0 then la &&& 2 else if which = 1 then la &&& 1 else 0 := by
    rw [apply_ite (la &&& ·), apply_ite (la &&& ·), show la &&& 0 = 0 from BitVec.and_zero]
  simp only [execLoopx, mask]
  rfl

/-- An immediate above 2 is no LOOPX. -/
theorem decodeI_loopx_above (imm : BitVec 10) (h : 3 ≤ imm.toNat) : keepWf (decodeI .loopx imm 0 0) = none := by
  by_cases three : imm = 3
  · subst three; decide
  · have ne : imm.toNat ≠ 3 := fun e => three (BitVec.eq_of_toNat_eq e)
    have above : decide (imm.toNat < 4) = false := decide_eq_false (by omega)
    simp [decodeI, only, above, keepWf]

/-- Settles O22: LOOPX completes with the sets ended, and its other immediates decode to nothing. -/
theorem loopEnd : Obligations.LoopEnd :=
  ⟨fun s w _ => ⟨_, execLoopx_eq w s, s.onLoops_retireTo_completed (fun l => l.endSet w) s.after⟩,
    fun imm h => (decode_i .loopx imm 0 0 rfl).trans (decodeI_loopx_above imm h)⟩

end Sys2Proof.Machine

/-!
PROOFS. Traps (spec/07 R168, R174), fences and waits on tags (R175; spec/03 R82, R83; spec/10 R207), and what the system
registers read back (spec/07 R173).
-/
namespace Sys2Proof.Machine
set_option Elab.async false

open Claims

/-! ### Trap entry of a plain thread -/

/-- A change of the executing thread and the fate leave everything else. -/
theorem State.onCur_fated_onlyThread (s : State) (f : Thread → Thread) (fate : Fate) :
    OnlyThread s ((s.onCur f).fated fate) where
  rest := rfl
  cores n other := s.core_onThread_ne _ f other
  core := by rw [State.curCore, State.core_fated, State.fated_ctx, State.onCur_ctx, State.onCur, State.core_onThread]; rfl
  slots k other := s.thread_onThread_ne f (.inr other)

section
variable {s : State} {n : Nat}

/-- Without an armed budget a trap faults no request (spec/18 R375). -/
theorem State.faultRequest_of_disarmed {t : BitVec 2} (off : (s.thread n t).sp.lkbud.en = false) (a : Word) (c : Cause)
    (v : Word) : s.faultRequest n t a c v = s := by
  simp [State.faultRequest, off]

/-- A thread without a hold has none to end. -/
theorem State.endHolds_of_none {t : BitVec 2} (free : s.holdsAny n t = false) : s.endHolds n t = s := by
  have empty : ((s.core n).req.holds.filter fun h => h.thr = t.toNat) = [] := by
    rw [List.filter_eq_nil_iff]
    exact List.any_eq_false.mp free
  rw [State.endHolds, empty, List.foldl_nil]

/-- A thread outside gangs breaks none. -/
theorem State.gangBreak_of_none {k : Nat} (outside : s.gangSlot n k = none) : s.gangBreak n k = s := by
  have alone : s.attachedTo n k = [] := by simp [State.attachedTo, State.leads, outside]
  have stays : s.detach n k = s := by rw [State.detach, outside]
  rw [State.gangBreak, alone, stays, State.forward, List.foldl_nil]

/-- Where nothing is traced nothing is recorded. -/
theorem State.traceRec_of_untraced (off : ∀ p, s.corePart n = some p → p.trace = none) (t kind : Nat) (pc data : Word) :
    s.traceRec n t kind pc data = s := by
  cases part : s.corePart n with
  | none => rw [State.traceRec, part]
  | some p => rw [State.traceRec, part]; simp only [off p part]

end

@[simp] theorem State.gangSlot_onThread (s : State) (n : Nat) (t : BitVec 2) (f : Thread → Thread) (k : Nat) :
    (s.onThread n t f).gangSlot n k = s.gangSlot n k := by
  rw [State.gangSlot, State.core_onThread, State.gangSlot]

@[simp] theorem State.corePart_onThread (s : State) (n : Nat) (t : BitVec 2) (f : Thread → Thread) :
    (s.onThread n t f).corePart n = s.corePart n := by
  rw [State.corePart, State.coreLaunch, State.core_onThread]; rfl

/-- A trap of a plain thread is the entry and nothing else. -/
theorem State.trap_of_plain {s : State} (h : Plain s) (c : Cause) (v : Word) :
    s.trap c v = (s.onCur fun th => th.enter false s.ctx.a c v).fated .trapped := by
  obtain ⟨holds, gang, budget, trace, arrived⟩ := h
  have absent : ¬ (s.thread s.ctx.core s.ctx.thr).run.arrived.isSome = true := by
    rw [← State.cur, arrived]; exact Bool.false_ne_true
  rw [State.trap, State.trapAt, holds, State.faultRequest_of_disarmed budget, State.endHolds_of_none holds, if_neg absent,
    State.gangBreak_of_none ((s.gangSlot_onThread ..).trans gang),
    State.traceRec_of_untraced fun p hp => trace p ((s.corePart_onThread ..).symm.trans hp), State.onCur]

/-- Settles O23: what every trap does to its thread, and all that a trap of a plain thread does. -/
theorem trapEntrySavesAndRedirects : Obligations.TrapEntrySavesAndRedirects := by
  refine ⟨State.trapAt_enters, State.trap_enters, fun s c v plain => ?_⟩
  simp only [State.trap_of_plain plain, State.cur_fated, State.cur_onCur]
  exact ⟨s.onCur_fated_onlyThread _ _, rfl, rfl, rfl⟩

/-- Completing leaves the context but for the fate. -/
@[simp] theorem State.retireTo_ctx (s : State) (next : Word) : (s.retireTo next).ctx = { s.ctx with fate := .issued } := by
  rw [State.retireTo, State.fated_ctx, State.yielded_ctx, State.onCur_ctx]

/-- Settles O24: TRAP is a completion, then a trap at the address this selected. -/
theorem trapInstruction : Obligations.TrapInstruction := by
  intro s imm
  have enters := s.retire.trapAt_enters s.retire.cur.pc .trap (imm.setWidth 64)
  have core : s.retire.ctx.core = s.ctx.core := by rw [State.retire, State.retireTo_ctx]
  have thr : s.retire.ctx.thr = s.ctx.thr := by rw [State.retire, State.retireTo_ctx]
  rw [core, thr] at enters
  exact ⟨_, rfl, s.retireTo_completed s.after, enters⟩

/-! ### Fences -/

/-- TFENCE with an enabled flag set traps (R175). -/
theorem State.tfence_of_flags {s : State} (raised : s.cur.sp.fs &&& s.cur.sp.fe ≠ 0) :
    s.tfence = s.trap .arith ((s.cur.sp.fs &&& s.cur.sp.fe).setWidth 64) :=
  if_pos (bne_iff_ne.mpr raised)

/-- Without one it completes. -/
theorem State.tfence_of_clear {s : State} (clear : s.cur.sp.fs &&& s.cur.sp.fe = 0) : s.tfence = s.retire :=
  if_neg (by simp [clear])

/-! ### Waits on tags -/

section
variable {s : State} {mask : BitVec 6} {next : State → State}

/-- While a tag of the mask is pending the thread waits (spec/03 R82). -/
theorem State.waitTags_pending (pending : s.cur.tags &&& mask ≠ 0) : s.waitTags mask next = s.stall (.tags mask) :=
  if_pos (bne_iff_ne.mpr pending)

/-- Then a failure among the operations waited for traps (spec/10 R207). -/
theorem State.waitTags_failed (clear : s.cur.tags &&& mask = 0) {v : Word} {u : State}
    (failed : s.failure (waitsFor mask) = some (v, u)) : s.waitTags mask next = u.trap .engine v := by
  rw [State.waitTags, if_neg (by simp [clear]), failed]

/-- Without one their flags are merged. -/
theorem State.waitTags_merged (clear : s.cur.tags &&& mask = 0) (fine : s.failure (waitsFor mask) = none) :
    s.waitTags mask next = next (s.mergeFlags (waitsFor mask)) := by
  rw [State.waitTags, if_neg (by simp [clear]), fine]

end

/-- DEP lets its instruction issue, with the tag and the yield that it names (spec/03 R83). -/
def State.letIssue (yield : Bool) (tag : BitVec 3) (s : State) : State :=
  { s with ctx := { s.ctx with tag := tag.toNat, yield := yield, fate := .issued } }

/-- The instruction under way has not begun to wait: at most the DEP before it has. -/
def State.NotBegun (s : State) : Prop := s.stage = none ∨ ∃ m, s.stage = some (.tags m)

/-- Before its instruction DEP waits on its mask. -/
theorem exec_dep_of_notBegun {s : State} (early : s.NotBegun) (y : Bool) (mask : BitVec 6) (g : BitVec 3) :
    exec (.dep y mask g) s = .next (s.waitTags mask (State.letIssue y g)) := by
  show execDep y mask g s = _
  rcases early with stage | ⟨m, stage⟩ <;> simp only [execDep, stage] <;> rfl

/-- An instruction that has begun to wait has its DEP behind it (R83). -/
theorem exec_dep_of_waiting {s : State} (waiting : ¬ s.NotBegun) (y : Bool) (mask : BitVec 6) (g : BitVec 3) :
    exec (.dep y mask g) s = .next (s.letIssue y g) := by
  show execDep y mask g s = _
  rw [execDep]
  split
  · next stage => exact absurd (.inl stage) waiting
  · next m stage => exact absurd (.inr ⟨m, stage⟩) waiting
  · rfl

/-! ### Flags and failures of the operations waited for -/

/-- A change of the executing core that leaves its threads. -/
theorem State.cur_onCurCore (s : State) {f : Core → Core} (threads : ∀ c, (f c).thr = c.thr) : (s.onCurCore f).cur = s.cur := by
  rw [State.cur, State.onCurCore_ctx, State.thread, State.onCurCore, State.core_onCore_self, threads]; rfl

/-- Merging flags ors them into FS and leaves the rest of the thread. -/
theorem State.cur_mergeFlags (s : State) (f : Unreported → Bool) : (s.mergeFlags f).cur =
    { s.cur with sp := { s.cur.sp with fs := (s.covered f).foldl (fun m u => m ||| u.flags) s.cur.sp.fs } } := by
  have ored : s.cur.sp.fs ||| (s.covered f).foldl (fun m u => m ||| u.flags) 0 =
      (s.covered f).foldl (fun m u => m ||| u.flags) s.cur.sp.fs := by
    simp only [← List.foldl_map (f := Unreported.flags) (g := (· ||| ·))]
    exact List.foldl_assoc.symm.trans (congrArg (List.foldl _ · _) BitVec.or_zero)
  rw [State.mergeFlags, State.cur_sticky, State.cur_onCurCore, ored]
  exact fun _ => rfl

/-- Settles O26: both fences by their flags, both waits by the three outcomes of a wait on tags. -/
theorem fencesAndTagWaits : Obligations.FencesAndTagWaits := by
  refine ⟨?fences, ?waits⟩
  case fences =>
    intro s f i hi
    have exec_eq : exec i s = .next s.tfence := by rcases hi with rfl | rfl <;> rfl
    exact ⟨fun raised => exec_eq.trans (congrArg _ (State.tfence_of_flags raised)),
      fun clear => passes_of_retire (exec_eq.trans (congrArg _ (State.tfence_of_clear clear)))⟩
  case waits =>
    intro s y mask g _ _
    have waitt : exec (.cWaitt mask) s = .next (s.waitTags mask State.retire) := rfl
    have dep (early : s.NotBegun) := exec_dep_of_notBegun early y mask g
    refine ⟨fun pending => ?pending, fun waiting => exec_dep_of_waiting waiting y mask g,
      fun clear => ⟨fun v u failed => ?failed, fun fine => ?merged⟩⟩
    case pending =>
      exact ⟨waitt.trans (congrArg _ (State.waitTags_pending pending)),
        fun early => (dep early).trans (congrArg _ (State.waitTags_pending pending))⟩
    case failed =>
      have enters := u.trap_enters .engine v
      exact ⟨⟨_, waitt.trans (congrArg _ (State.waitTags_failed clear failed)), enters⟩,
        fun early => ⟨_, (dep early).trans (congrArg _ (State.waitTags_failed clear failed)), enters⟩⟩
    case merged =>
      refine ⟨waitt.trans (congrArg _ (State.waitTags_merged clear fine)),
        fun early => (dep early).trans (congrArg _ (State.waitTags_merged clear fine)), ?_, ?_⟩ <;> rw [s.cur_mergeFlags]

/-! ### System registers read back (spec/07 R173) -/

/-- The low bits of a word are the word under their mask. -/
theorem setWidth_setWidth_eq_and {n : Nat} (v mask : Word) (low : mask.toNat = 2 ^ n - 1) (fits : n ≤ 64) :
    (v.setWidth n).setWidth 64 = v &&& mask := by
  apply BitVec.eq_of_toNat_eq
  rw [BitVec.toNat_setWidth_of_le fits, BitVec.toNat_setWidth, BitVec.toNat_and, low, Nat.and_two_pow_sub_one_eq_mod]

/-- Bits 54:4 of a word in their place are the word under their mask. -/
theorem extract_shift_eq_and (v : Word) : (v.extractLsb' 4 51).setWidth 64 <<< 4 = v &&& 0x007FFFFFFFFFFFF0 := by
  have maskBit : ∀ i < 64, (0x007FFFFFFFFFFFF0 : Word).getLsbD i = (decide (4 ≤ i) && decide (i - 4 < 51)) := by decide
  apply BitVec.eq_of_getLsbD_eq
  intro i hi
  rw [BitVec.getLsbD_and, maskBit i hi, BitVec.getLsbD_shiftLeft, BitVec.getLsbD_setWidth, BitVec.getLsbD_extractLsb']
  by_cases h : 4 ≤ i
  · simp [h, hi, show i - 4 < 64 by omega, Bool.and_comm]
  · simp [h, show i < 4 by omega]

section
variable (s : State) (n : Nat) (t : BitVec 2)

/-! The thread or core registers that a read looks at, after a write of one field. -/

theorem State.onSp_thread (f : Special → Special) :
    get4 ((s.onSp n t f).core n).thr t = { s.thread n t with sp := f (s.thread n t).sp } :=
  s.thread_onThread_self n t _

theorem State.onTrap_thread (f : TrapCtx → TrapCtx) :
    get4 ((s.onTrap n t f).core n).thr t = { s.thread n t with trap := f (s.thread n t).trap } :=
  s.thread_onThread_self n t _

theorem State.onThread_thread (f : Thread → Thread) : get4 ((s.onThread n t f).core n).thr t = f (s.thread n t) :=
  s.thread_onThread_self n t f

theorem State.onRegs_regs (f : CoreRegs → CoreRegs) : ((s.onRegs n f).core n).regs = f (s.core n).regs :=
  congrArg Core.regs (s.core_onCore_self n _)

end

/-- The start of a loop is read back as it is put, an even address. -/
theorem Loops.put_ls (l : Loops) (k : Bool) (v : Word) :
    (if k then (l.put (.ls k) v).ls1 else (l.put (.ls k) v).ls0) = v &&& ~~~1 := by
  cases k <;> rfl

/-- So is the end of its loop. -/
theorem Loops.put_le (l : Loops) (k : Bool) (v : Word) :
    (if k then (l.put (.le k) v).le1 else (l.put (.le k) v).le0) = v &&& ~~~1 := by
  cases k <;> rfl

/-- So are the low 32 bits of its count. -/
theorem Loops.put_lc (l : Loops) (k : Bool) (v : Word) :
    (if k then (l.put (.lc k) v).lc1 else (l.put (.lc k) v).lc0) = v.setWidth 32 := by
  cases k <;> rfl

/-- A number of windows that may be written is written (spec/03 R87). -/
theorem Regs.setWres_wres (r : Regs) {v : BitVec 4} (fill : BitVec 3 → Win) (one : 1 ≤ v.toNat) (eight : v.toNat ≤ 8) :
    (r.setWres v fill).wres = v := by
  have nonzero : v ≠ 0 := by rintro rfl; exact absurd one (by decide)
  have fits : ¬ 9 ≤ v.toNat := by omega
  have written : (v = 0 || 9 ≤ v.toNat : Bool) = false := by rw [decide_eq_false nonzero, decide_eq_false fits]; rfl
  rw [Regs.setWres, written]; rfl

/-- PWBkA is read back from its window's base, which a write of it keeps in place (spec/05 R136). -/
theorem State.writePwb_base (s : State) (n : Nat) (t : BitVec 2) (k : BitVec 3) (v : Word) :
    (get8 (get4 ((s.writePwb n t k false v).core n).thr t).sp.pwb k).base = v.extractLsb' 4 51 := by
  rw [State.writePwb, State.core_onCore_self, State.onThread_thread, get8_set8_self]
  rfl

/-- CYCLE is what is written. -/
theorem State.setCycle_cycle (s : State) (n : Nat) (v : Word) : ((s.setCycle n v).core n).regs.cycle = v := by
  rw [State.setCycle, State.core_onCore_self]

/-- Settles O28: each register is read from the field that its write sets, which holds its bits of the word. -/
theorem systemRegisterReadBack : Obligations.SystemRegisterReadBack := by
  intro s n t k2 k3 b v back
  have low {w : Nat} (mask : Word) := setWidth_setWidth_eq_and (n := w) v mask
  simp only [back, State.sysWrite, State.sysRead, State.onSp_thread, State.onTrap_thread, State.onThread_thread,
    State.onRegs_regs, get4_set4_self]
  refine ⟨low 0xFF rfl (by decide), low 0xFF rfl (by decide), low 7 rfl (by decide), low 7 rfl (by decide),
    Loops.put_ls _ b v, Loops.put_le _ b v, ?lc, low 3 rfl (by decide), low 0xF rfl (by decide), low 0xFF rfl (by decide),
    rfl, rfl, trivial, trivial, s.setCycle_cycle n v, trivial, low 0x7FF rfl (by decide), trivial, trivial, ?pwbA, ?lquota,
    fun one eight => ?wres⟩
  case lc => rw [Loops.put_lc]; exact low 0xFFFFFFFF rfl (by decide)
  case pwbA => rw [State.writePwb_base]; exact extract_shift_eq_and v
  case lquota =>
    rw [BitVec.toNat_setWidth_of_le (by decide), BitVec.toNat_ofNat]
    omega
  case wres =>
    have number : (v.setWidth 4).toNat = v.toNat % 16 := BitVec.toNat_setWidth 4 v
    rw [Regs.setWres_wres _ _ (number ▸ one) (number ▸ eight)]
    exact low 0xF rfl (by decide)

end Sys2Proof.Machine

/-!
PROOFS. What an event named by the agenda runs, and what stops (spec/10 R190). A step takes the head of its agenda away and
then closes with the state before it: nothing in the close looks at the agenda.
-/
namespace Sys2Proof.Machine
set_option Elab.async false

/-- A state with another agenda. -/
def State.planned (s : State) (g : List Agent) : State := { s with agenda := g }

/-! ### Accesses under another agenda -/

theorem State.snoopAll_planned (s : State) (g : List Agent) (pas : List Nat) :
    (s.planned g).snoopAll pas = (s.snoopAll pas).planned g := by
  have one : ∀ (u : State) (halves : List Nat), (u.planned g).snoop halves = (u.snoop halves).planned g := by
    intro u halves
    have link : (u.planned g).backInv = u.backInv := rfl
    unfold State.snoop
    rw [link]
    split <;> rfl
  have all : ∀ (l : List (Nat × BitVec 32)) (u : State),
      l.foldl (fun v p => v.snoop (v.hostHalves p.1 p.2)) (u.planned g) =
        (l.foldl (fun v p => v.snoop (v.hostHalves p.1 p.2)) u).planned g := by
    intro l
    induction l with
    | nil => exact fun _ => rfl
    | cons p l ih => exact fun u => (congrArg (l.foldl _) (one u _)).trans (ih _)
  exact all _ s

theorem State.walkFrom_planned (s : State) (g : List Agent) (forced : Bool) (part : Nat) (asid : BitVec 16) (va table : Nat)
    (sizes : List Nat) :
    (s.planned g).walkFrom forced part asid va table sizes = s.walkFrom forced part asid va table sizes := by
  induction sizes generalizing table with
  | nil => rfl
  | cons bits rest ih => simp only [State.walkFrom, ih]; rfl

theorem State.translateRaw_planned (s : State) (g : List Agent) (n : Nat) (level : Level) (acc : Acc) (va : Nat) :
    (s.planned g).translateRaw n level acc va =
      ((s.translateRaw n level acc va).1.planned g, (s.translateRaw n level acc va).2) := by
  have launch : (s.planned g).coreLaunch n = s.coreLaunch n := rfl
  have tlb : (s.planned g).core n = s.core n := rfl
  have ctlb : (s.planned g).ctlb = s.ctlb := rfl
  have walk : ∀ p a b, (s.planned g).walk p a b va = s.walk p a b va := fun _ _ _ => s.walkFrom_planned g _ _ _ _ _ _
  have under : ∀ e, (s.planned g).under e level acc va = s.under e level acc va := fun _ => rfl
  unfold State.translateRaw
  rw [launch]
  split
  · rfl
  · dsimp only
    rw [tlb, ctlb, walk]
    split
    · rfl
    · split
      · rfl
      · rw [State.snoopAll_planned]
      · rw [under]
        split <;> rfl

/-- The translation of a read. -/
theorem State.translate_planned (s : State) (g : List Agent) (n : Nat) (level : Level) (va : Nat) :
    (s.planned g).translate n level .read va =
      ((s.translate n level .read va).1.planned g, (s.translate n level .read va).2) := by
  unfold State.translate
  rw [State.translateRaw_planned]
  rcases s.translateRaw n level .read va with ⟨u, t⟩
  cases t with
  | ok pa c =>
    have spilled : (u.planned g).spilledPage pa = u.spilledPage pa := rfl
    have launch : (u.planned g).coreLaunch n = u.coreLaunch n := rfl
    dsimp only
    rw [spilled, launch]
    split
    · rfl
    · split <;> rfl
  | fault => rfl
  | wait => rfl

theorem State.reach_planned (s : State) (g : List Agent) (n : Nat) (level : Level) (va len : Nat) :
    (s.planned g).reach n level .read va len =
      ((s.reach n level .read va len).1.planned g, (s.reach n level .read va len).2) := by
  have ctl : (s.planned g).ctlOff n va = s.ctlOff n va := rfl
  unfold State.reach
  rw [ctl, State.translate_planned]
  split
  · rfl
  · rcases s.translate n level .read va with ⟨u, t⟩
    cases t <;> rfl

theorem State.checkGlobal_planned (s : State) (g : List Agent) (n : Nat) (level : Level) (va size : Nat) :
    (s.planned g).checkGlobal n level .read va size =
      ((s.checkGlobal n level .read va size).1.planned g, (s.checkGlobal n level .read va size).2) := by
  unfold State.checkGlobal
  dsimp only
  rw [State.reach_planned]
  rcases s.reach n level .read va (min size (0x10000 - va % 0x10000)) with ⟨u, r⟩
  cases r with
  | ok here =>
    dsimp only
    rw [State.reach_planned]
    split
    · rfl
    · split
      · rfl
      · rcases u.reach n level .read (va + min size (0x10000 - va % 0x10000))
          (size - min size (0x10000 - va % 0x10000)) with ⟨v, r⟩
        cases r <;> rfl
  | fault => rfl
  | wait => rfl

theorem State.check_planned (s : State) (g : List Agent) (n : Nat) (level : Level) (a : Word) (size : Nat) :
    (s.planned g).check n level .read a size =
      ((s.check n level .read a size).1.planned g, (s.check n level .read a size).2) := by
  have fits : ∀ k, (s.planned g).localEnd k = s.localEnd k := fun _ => rfl
  have part : ∀ k, (s.planned g).inPart n k = s.inPart n k := fun _ => rfl
  have shadow : ∀ k, (s.planned g).shadow k = s.shadow k := fun _ => rfl
  unfold State.check
  dsimp only
  simp only [fits, part, shadow]
  split
  · rfl
  · split
    · rfl
    · split
      · rfl
      · split <;> rfl
  · split
    · rfl
    · split
      · rfl
      · split <;> rfl
  · exact s.checkGlobal_planned g n level a.toNat size

/-! ### The close -/

theorem State.askedOut_planned (s before : State) (g : List Agent) (n : Nat) :
    s.askedOut (before.planned g) n = s.askedOut before n := by
  have decoding : (before.planned g).decodeTable n s.ctx.thr = before.decodeTable n s.ctx.thr := rfl
  have walked : ∀ va, (before.planned g).walkedTo n va = before.walkedTo n va := fun _ => rfl
  have thread : (before.planned g).thread n s.ctx.thr = before.thread n s.ctx.thr := rfl
  have reads : ∀ x, ((before.planned g).issuing n s.ctx.thr 0 0 0 0).rd x = (before.issuing n s.ctx.thr 0 0 0 0).rd x :=
    fun _ => rfl
  have data : ∀ i, ((before.planned g).issuing n s.ctx.thr 0 0 0 0).dataAddr i =
      (before.issuing n s.ctx.thr 0 0 0 0).dataAddr i := fun _ => rfl
  have check : ∀ a size, ((before.planned g).issuing n s.ctx.thr 0 0 0 0).checkCur .read a size =
      (((before.issuing n s.ctx.thr 0 0 0 0).checkCur .read a size).1.planned g,
        ((before.issuing n s.ctx.thr 0 0 0 0).checkCur .read a size).2) := fun a size =>
    (before.issuing n s.ctx.thr 0 0 0 0).check_planned g _ _ a size
  unfold State.askedOut
  simp only [decoding, walked, thread, reads, data, check]
  split
  · congr 3
    split
    · rfl
    · rcases (before.issuing n s.ctx.thr 0 0 0 0).checkCur .read _ _ with ⟨u, _ | _ | _⟩ <;> rfl
    · rfl
  · rfl

theorem State.requested_planned (s before : State) (g : List Agent) (n : Nat) :
    s.requested (before.planned g) n = s.requested before n := by
  unfold State.requested
  simp only [State.askedOut_planned]
  rfl

theorem State.checkpoints_planned (s before : State) (g : List Agent) :
    s.checkpoints (before.planned g) = s.checkpoints before := by
  unfold State.checkpoints
  simp only [State.requested_planned]
  rfl

/-- The close of a step does not look at the agenda before it. -/
theorem State.close_planned (s before : State) (g : List Agent) : (before.planned g).close s = before.close s := by
  unfold State.close
  rw [State.checkpoints_planned]
  rfl

/-! ### A step of the agenda's head -/

/-- A step whose agenda names an agent: what the agent does, then the close. -/
theorem step_of_agenda {s : State} {a : Agent} {rest : List Agent} (h : s.agenda = a :: rest) :
    step s = match (s.planned rest).act a with
      | .next v => .next ((s.planned rest).close v)
      | r => r := by
  have close : ∀ v, s.close v = (s.planned rest).close v := fun v => State.close_planned v (s.planned rest) s.agenda
  have act : s.oneStep = match (s.planned rest).act a with
      | .next v => .next (s.close v)
      | r => r := by
    unfold State.oneStep
    rw [h]
    rfl
  rw [step, act]
  simp only [close]

end Sys2Proof.Machine

namespace Sys2Proof.Claims
set_option Elab.async false

open Machine

/-- Settles O12: a step of the agenda's head is what the agent does, case by case. -/
theorem eventsRunTheirRow : Obligations.EventsRunTheirRow := by
  intro s rest u
  refine ⟨fun e named event fine => ?_, fun e named bad => ?_, fun n k named beyond => ?_, fun n k named core still => ?_⟩
    <;> rw [step_of_agenda named]
  · have act : (s.planned rest).act (.event e) = exec e u := if_pos (by rw [event, fine]; rfl)
    rw [act]
    cases exec e u <;> rfl
  · have act : (s.planned rest).act (.event e) = .refused .illFormedEvent := if_neg (by rw [bad]; decide)
    rw [act]
  · have act : (s.planned rest).act (.thread n k) = .fault .noSuchCore := if_pos beyond
    rw [act]
  · have act : (s.planned rest).act (.thread n k) = .next u :=
      (if_neg (Nat.not_le.mpr core)).trans (if_neg (Bool.not_eq_true _ ▸ still))
    rw [act]
    rfl

end Sys2Proof.Claims

/-!
PROOFS. A state may list a core twice, and reads see the first entry alone. The step mirrors every listed pair into its shadow,
the entry that nothing reads included, and with it a local memory that is in no canonical form (spec/10 R212).
-/
namespace Sys2Proof.Claims
set_option Elab.async false

open Machine

/-- A core that leads a lockstep pair and lists a zero byte of its local memory, as no canonical form does. -/
def looseLeader : Core :=
  { Core.init with
    mem := { Core.init.mem with lmem := [(0, 0)] }
    lock := { Core.init.lock with en := true } }

/-- The part after reset, with core 0 listed as power-on leaves it and a second time as that leader. -/
def listedTwice : State := { State.reset with cores := [(0, Core.init), (0, looseLeader)] }

/-- The second entry is never read. -/
theorem listedTwice_core (n : Nat) : listedTwice.core n = Core.init := by
  unfold State.core
  by_cases e : 0 = n
  · rw [show assoc listedTwice.cores n = some Core.init from if_pos e]; rfl
  · rw [show assoc listedTwice.cores n = none from (if_neg e).trans (if_neg e)]; rfl

theorem listedTwice_canonical : CanonicalLocal listedTwice :=
  ⟨fun n => by rw [listedTwice_core n]; rfl, fun _ h => absurd h List.not_mem_nil⟩

/-- Nobody moves, so the step is its close. -/
theorem step_listedTwice : step listedTwice = .next (listedTwice.close listedTwice) := by
  have nobody : listedTwice.pick = none := by decide +kernel
  have turn : listedTwice.turn = .next listedTwice := by rw [State.turn, nobody]
  have head : listedTwice.agenda = [] := rfl
  rw [step, State.oneStep, head]
  dsimp only
  rw [turn]

/-- Core 1, the shadow, has the leader's local memory after the close. -/
theorem close_listedTwice_shadow : ((listedTwice.close listedTwice).core 1).mem.lmem = [(0, 0)] := by decide +kernel

/-- Refutes O16: core 0 is listed twice, the entry that no read sees leads a pair, and the step copies its local memory, which
is not canonical, into core 1. -/
theorem not_stepKeepsLocalMemoryCanonical : ¬ Obligations.StepKeepsLocalMemoryCanonical := by
  intro h
  have shadow := (h _ _ listedTwice_canonical step_listedTwice).1 1
  rw [close_listedTwice_shadow] at shadow
  exact absurd shadow (by decide)

end Sys2Proof.Claims

/-!
PROOFS. Push stores, holds and task deques (spec/13 R260 to R274). The checks of an access and a store leave the instruction
under way as it is, so what follows them (a refusal counted, a push, a hold) is for the thread that executes; a steal changes
one deque and what one thread waits for.
-/
namespace Sys2Proof.Machine
set_option Elab.async false

open Claims

/-! ### What the checks of an access leave to every thread -/

namespace Keeps

theorem fst {α : Type} {s u : State} {p : State × α} {x : α} (h : Keeps s p.1) (e : p = (u, x)) : Keeps s u := by
  subst e; exact h

theorem foldlFst {α β : Type} (g : State × β → α → State × β) (hg : ∀ p x, Keeps p.1 (g p x).1) (l : List α) (p : State × β) :
    Keeps p.1 (l.foldl g p).1 := by
  induction l generalizing p with
  | nil => exact refl p.1
  | cons x l ih => exact (hg p x).trans (ih (g p x))

/-- A change of a core that leaves its threads and its holds, after others. -/
theorem andCore {s u : State} {n : Nat} {f : Core → Core} (h : Keeps s u) (threads : ∀ c, (f c).thr = c.thr := by intro; rfl)
    (holds : ∀ c, (f c).req.holds = c.req.holds := by intro; rfl) : Keeps s (u.onCore n f) :=
  h.trans (onCore u n f threads holds)

theorem enterTlb (s : State) (n : Nat) (e : TlbEnt) : Keeps s (s.enterTlb n e) := by
  have own : Keeps s (s.onCore n fun c =>
      { c with mem := { c.mem with tlb := (c.mem.tlb ++ [e]).drop (c.mem.tlb.length + 1 - 8) } }) := (refl s).andCore
  exact own.trans (of_cores rfl rfl)

theorem translateRaw (s : State) (n : Nat) (level : Level) (acc : Acc) (va : Nat) : Keeps s (s.translateRaw n level acc va).1 := by
  unfold State.translateRaw
  split
  · exact refl s
  · dsimp only
    split
    · exact refl s
    · split
      · exact refl s
      · exact snoopAll _ _
      · split
        · exact enterTlb _ _ _
        · exact refl s

theorem translate (s : State) (n : Nat) (level : Level) (acc : Acc) (va : Nat) : Keeps s (s.translate n level acc va).1 := by
  have raw := translateRaw s n level acc va
  unfold State.translate
  split
  · have here := raw.fst ‹_›
    split
    · exact here.trans (fetchPage _ _)
    · split
      · split
        · exact here
        · split
          · exact here.trans (notePage _ _ _)
          · exact here.trans (snoop _ _)
      · exact here
  · exact raw

theorem reach (s : State) (n : Nat) (level : Level) (acc : Acc) (va len : Nat) : Keeps s (s.reach n level acc va len).1 := by
  unfold State.reach
  split
  · exact refl s
  · split <;> exact (translate s n level acc va).fst ‹_›

theorem checkGlobal (s : State) (n : Nat) (level : Level) (acc : Acc) (va size : Nat) :
    Keeps s (s.checkGlobal n level acc va size).1 := by
  have first := reach s n level acc va (min size (0x10000 - va % 0x10000))
  unfold State.checkGlobal
  dsimp only
  split
  · exact first.fst ‹_›
  · exact first.fst ‹_›
  · have here := first.fst ‹_›
    split
    · exact here
    · split
      · exact here
      · split <;> exact here.trans ((reach _ n level acc _ _).fst ‹_›)

theorem check (s : State) (n : Nat) (level : Level) (acc : Acc) (a : Word) (size : Nat) :
    Keeps s (s.check n level acc a size).1 := by
  unfold State.check
  dsimp only
  split
  · exact refl s
  · split
    · exact refl s
    · split
      · exact refl s
      · split <;> exact refl s
  · split
    · exact refl s
    · split
      · exact refl s
      · split <;> exact refl s
  · exact checkGlobal _ _ _ _ _ _

/-! ### What a store leaves to every thread -/

theorem track (s : State) (id : Nat) : Keeps s (s.track id) := by
  unfold State.track
  split
  · exact refl s
  · exact onThread s _ _ _ fun _ => rfl

theorem trackAll (s : State) (ids : List Nat) : Keeps s (s.trackAll ids) := foldl _ track _ _

theorem request (s : State) (r : HomeReq) : Keeps s (s.request r) := of_cores rfl rfl

theorem count (s : State) (n : Nat) (t : Option (BitVec 2)) (event k : Nat) : Keeps s (s.count n t event k) :=
  onCore s n _ (fun _ => rfl) fun _ => rfl

theorem fresh (s : State) : Keeps s s.fresh.2 := of_cores rfl rfl

theorem register (s : State) (agent n : Nat) (t : BitVec 2) (num : Nat) (bs : List (Nat × Byte)) (words : BitVec 32)
    (op : HomeOp) : Keeps s (s.register agent n t num bs words op).1 := by
  unfold State.register
  exact (fresh s).andCore.trans (request _ _)

theorem useLine (s : State) (agent num : Nat) : Keeps s (s.useLine agent num) := by
  unfold State.useLine
  split
  · exact refl s
  · exact onCore s _ _ (fun _ => rfl) fun _ => rfl

theorem writeBack (s : State) (l : Line) : Keeps s (s.writeBack l) := by
  unfold State.writeBack
  split
  · exact mergeHome _ _ _
  · have words := foldl (fun s w => (s.putCellWord l.num w (get32 l.words w).val).setPsn l.num w
      (s.homePsn l.num w || (get32 l.words w).psn)) (fun s w => (putCellWord s _ _ _).trans (setPsn _ _ _ _)) (l.wordsIn .o) s
    dsimp only
    split
    · exact words
    · exact words.trans (setDir _ _ _)

theorem allocate {s u : State} {agent num : Nat} {sw : Bool} (h : s.allocate agent num sw = some u) : Keeps s u := by
  unfold State.allocate at h
  split at h
  · cases h; exact refl s
  · dsimp only at h
    split at h
    · cases h; exact (refl s).andCore
    · split at h
      · cases h
        exact (writeBack s _).andCore.andCore
      · cases h

theorem storeLine (s : State) (n : Nat) (t : BitVec 2) (num : Nat) (bs : List (Nat × Byte)) (c : Bool) :
    Keeps s (s.storeLine n t num bs c).1 := by
  unfold State.storeLine
  extract_lets agent s1
  have counted : Keeps s s1 := by
    unfold s1
    split
    · exact count _ _ _ _ _
    · exact refl s
  split
  · exact counted.trans (register _ _ _ _ _ _ _ _)
  · rename_i u found
    have used : Keeps s (u.useLine agent num) := by
      split at found
      · cases found
      · exact (counted.trans (allocate found)).trans (useLine _ _ _)
    split
    · exact used.trans (onLine _ _ _ _)
    · refine used.trans (foldlFst _ (fun p w => ?_) _ (u.useLine agent num, []))
      extract_lets v mine
      generalize (wordsOf w).all _ = owned
      cases owned
      · exact register _ _ _ _ _ _ _ _
      · exact onLine _ _ _ _

theorem storeGlobal (s : State) (n : Nat) (t : BitVec 2) (bs : List (Nat × Byte)) (c : Nat → Bool) :
    Keeps s (s.storeGlobal n t bs c).1 := by
  refine foldlFst _ (fun p x => ?_) _ (s, [])
  exact storeLine p.1 _ _ _ _ _

theorem ctlWrite (s : State) (n : Nat) (cells : List (Place × Byte)) : Keeps s (s.ctlWrite n cells) := by
  refine foldl _ (fun s p => ?_) _ s
  split
  · unfold State.ctlPut
    split
    · split
      · exact of_cores rfl rfl
      · exact refl s
    · exact refl s
  · exact refl s


/-- Logging a row for the rollback changes neither the threads nor the holds of the core. -/
theorem logRow_keeps (c : Core) (r : Nat) : (c.logRow r).thr = c.thr ∧ (c.logRow r).req.holds = c.req.holds := by
  unfold Core.logRow
  split <;> exact ⟨rfl, rfl⟩

/-- Nor does a write of its local memory. -/
theorem lwrite_keeps (c : Core) (off : Nat) (bs : List Byte) (psn : Bool) :
    (c.lwrite off bs psn).thr = c.thr ∧ (c.lwrite off bs psn).req.holds = c.req.holds := by
  have logged : ∀ (rows : List Nat) (c : Core),
      (rows.foldl Core.logRow c).thr = c.thr ∧ (rows.foldl Core.logRow c).req.holds = c.req.holds := by
    intro rows
    induction rows with
    | nil => exact fun _ => ⟨rfl, rfl⟩
    | cons r rows ih =>
      intro c
      obtain ⟨threads, holds⟩ := ih (c.logRow r)
      exact ⟨threads.trans (logRow_keeps c r).1, holds.trans (logRow_keeps c r).2⟩
  exact logged _ c

theorem lwrite (s : State) (n off : Nat) (bs : List Byte) (psn : Bool) : Keeps s (s.lwrite n off bs psn) := by
  have one : ∀ (u : State) (m : Nat), Keeps u (u.onCore m fun c => c.lwrite off bs psn) := fun u m =>
    onCore u m _ (fun c => (lwrite_keeps c off bs psn).1) fun c => (lwrite_keeps c off bs psn).2
  unfold State.lwrite
  dsimp only
  split
  · exact (one s n).trans (one _ _)
  · exact one s n

theorem sendRemote (s : State) (n : Nat) (t : BitVec 2) (pa size : Nat) (op : Option AtomicOp)
    (store : Option (List (Byte × Bool))) (async cmd : Option Nat) :
    Keeps s (s.sendRemote n t pa size op store async cmd).1 := of_cores rfl rfl

theorem storePlaces (s : State) (n : Nat) (t : BitVec 2) (ps : List Place) (bs : List Byte) :
    Keeps s (s.storePlaces n t ps bs).1 := by
  unfold State.storePlaces
  extract_lets qs
  generalize qs = qs
  match qs with
  | .own off :: _ => exact lwrite _ _ _ _ _
  | .peer k off :: _ =>
    dsimp only
    split
    · exact lwrite _ _ _ _ _
    · exact refl s
  | [] | .glob .. :: _ | .fab .. :: _ | .ctl .. :: _ =>
    refine ((ctlWrite s n _).trans (storeGlobal _ _ _ _ _)).trans (foldlFst _ (fun p r => ?_) _ _)
    exact sendRemote p.1 _ _ _ _ _ _ _ _

end Keeps

/-- The checks of an access are for the thread that executes. -/
theorem State.checkCur_ctx {s u : State} {acc : Acc} {a : Word} {size : Nat} {r : Checked} (h : s.checkCur acc a size = (u, r)) :
    u.ctx = s.ctx := ((Keeps.check s s.ctx.core s.level acc a size).fst h).ctx

/-- So is what a store leaves to be awaited. -/
theorem State.storePlaces_ctx (s : State) (n : Nat) (t : BitVec 2) (ps : List Place) (bs : List Byte) :
    ((s.storePlaces n t ps bs).1.trackAll (s.storePlaces n t ps bs).2).ctx = s.ctx :=
  ((Keeps.storePlaces s n t ps bs).trans (Keeps.trackAll _ _)).ctx

/-- A byte of the own local memory passes every check (spec/05 R122). -/
theorem State.checkCur_near {s : State} {a : Word} (acc : Acc) (h : Near s a 1) :
    s.checkCur acc a 1 = (s, .ok [.own a.toNat]) := by
  have near : a.toNat + 1 ≤ s.localEnd s.ctx.core := h
  have size : s.localEnd s.ctx.core ≤ localSize := by
    unfold State.localEnd localSize
    split <;> decide
  have zone : zoneOf a.toNat = .own a.toNat := if_pos (by omega)
  unfold State.checkCur State.check
  dsimp only
  rw [zone]
  dsimp only
  rw [if_neg (by omega), if_neg (by omega), if_neg (by omega)]
  rfl

/-! ### Pushes (spec/13 R260, R263 to R265) -/

/-- The count of refusals of a thread stops at 0xFFFF, and the cause is the last one's. -/
theorem State.thread_refused (s : State) (n : Nat) (t : BitVec 2) (k cause : Nat) :
    (s.refused n t k cause).thread n t = { s.thread n t with
      sp := { (s.thread n t).sp with
        pref := BitVec.ofNat 16 (min 0xFFFF ((s.thread n t).sp.pref.toNat + k)), pcause := BitVec.ofNat 4 cause } } := by
  unfold State.refused State.onSp
  rw [State.thread_onThread_self]
  rfl

/-- Only a coherent global place is pushed. -/
theorem State.pushLines_refused (s : State) (v : Word) {p : Place} (rest : List Place) (regs : Nat → List Nat)
    (h : ∀ pa, p ≠ .glob pa true) : s.pushLines v (p :: rest) regs = s.refused s.ctx.core s.ctx.thr 1 4 := by
  unfold State.pushLines
  split
  · rename_i e
    exact absurd (List.cons.inj e).1 (h _)
  · rfl

/-- An invalid core set is refused with its own cause. -/
theorem State.pushLines_badSet {s : State} {v : Word} (pa : Nat) (rest : List Place) (regs : Nat → List Nat)
    (h : s.pushDests s.ctx.core v = none) :
    s.pushLines v (.glob pa true :: rest) regs = s.refused s.ctx.core s.ctx.thr 1 5 := by
  unfold State.pushLines
  dsimp only
  rw [h]

/-- One line goes to the cores of the set. -/
theorem State.pushLines_one {s : State} {v : Word} {k : Nat} (pa : Nat) (regs : Nat → List Nat)
    (h : s.pushDests s.ctx.core v = some [k]) :
    s.pushLines v [.glob pa true] regs = s.addPush s.ctx.core s.ctx.thr (lineOf pa) [k] (regs (lineOf pa)) := by
  unfold State.pushLines
  dsimp only
  rw [h]
  rfl

/-- A release that is not asked for, or that has been awaited, delays nothing. -/
theorem release_passed {asked released : Bool} (h : asked = false ∨ released = true) : (asked && !released) = false := by
  rcases h with rfl | rfl
  · rfl
  · exact Bool.and_false asked

section
variable {s u : State} {rd ra rb : Reg} {disp : BitVec 32} {wd : Width} {o : Bool} {ps : List Place}

theorem stp_waits_for_room (h : s.pushFits (s.rd rb) (s.rd ra + disp.signExtend 64) (wsize wd) = false) :
    Waits (.stp rd ra rb disp wd o) s s .pushes := by
  have full : (!s.pushFits (s.rd rb) (s.addrLong ra disp) (wsize wd)) = true := by rw [State.addrLong, h]; rfl
  exact congrArg Host.Outcome.next (if_pos full)

/-- A push store that has room, passes its checks and need not wait stores, and then pushes. -/
theorem stp_stores (fits : s.pushFits (s.rd rb) (s.rd ra + disp.signExtend 64) (wsize wd) = true)
    (checked : s.checkCur .write (s.rd ra + disp.signExtend 64) (wsize wd) = (u, .ok ps))
    (free : o = false ∨ u.released s.ctx.core s.ctx.thr = true) (own : u.cur.awaitsAny ps = false)
    (room : u.roomFor s.ctx.core ps = true) :
    let r := u.storePlaces s.ctx.core s.ctx.thr ps (leBytes (wsize wd) (u.rd rd).toNat)
    Ends (.stp rd ra rb disp wd o) s ((r.1.trackAll r.2).pushLines (s.rd rb) ps fun line =>
      (r.1.lineRegs s.ctx.core line).filter r.2.contains) := by
  have ctx := State.checkCur_ctx checked
  have free' := release_passed free
  show execStp rd ra rb disp wd o s = _
  unfold execStp
  simp only [State.addrLong, fits, checked, ctx, free', own, room, Bool.not_true, Bool.false_eq_true, if_false]
  rfl

/-- The push of a store to a place that is not coherent global memory is refused; the store has been performed. -/
theorem stp_refused {p : Place} {rest : List Place} (fits : s.pushFits (s.rd rb) (s.rd ra + disp.signExtend 64) (wsize wd) = true)
    (checked : s.checkCur .write (s.rd ra + disp.signExtend 64) (wsize wd) = (u, .ok (p :: rest)))
    (place : ∀ pa, p ≠ .glob pa true) (free : o = false ∨ u.released s.ctx.core s.ctx.thr = true)
    (own : u.cur.awaitsAny (p :: rest) = false) (room : u.roomFor s.ctx.core (p :: rest) = true) :
    let r := u.storePlaces s.ctx.core s.ctx.thr (p :: rest) (leBytes (wsize wd) (u.rd rd).toNat)
    Ends (.stp rd ra rb disp wd o) s ((r.1.trackAll r.2).refused s.ctx.core s.ctx.thr 1 4) := by
  have stored := stp_stores (rd := rd) fits checked free own room
  dsimp only at stored ⊢
  rwa [State.pushLines_refused _ _ _ _ place, State.storePlaces_ctx, State.checkCur_ctx checked] at stored

theorem pushl_waits_for_room (h : s.pushFits (s.rd rb) (s.rd ra) 1 = false) : Waits (.pushl ra rb) s s .pushes := by
  have full : (!s.pushFits (s.rd rb) (s.rd ra) 1) = true := by rw [h]; rfl
  exact congrArg Host.Outcome.next (if_pos full)

theorem pushl_pushes (fits : s.pushFits (s.rd rb) (s.rd ra) 1 = true) (checked : s.checkCur .read (s.rd ra) 1 = (u, .ok ps)) :
    Ends (.pushl ra rb) s (u.pushLines (s.rd rb) ps fun line => u.lineRegs s.ctx.core line) := by
  show execPushl ra rb s = _
  unfold execPushl
  simp only [fits, checked, Bool.not_true, Bool.false_eq_true, if_false]

theorem pushl_refused {p : Place} {rest : List Place} (fits : s.pushFits (s.rd rb) (s.rd ra) 1 = true)
    (checked : s.checkCur .read (s.rd ra) 1 = (u, .ok (p :: rest))) (place : ∀ pa, p ≠ .glob pa true) :
    Ends (.pushl ra rb) s (u.refused s.ctx.core s.ctx.thr 1 4) := by
  have pushed := pushl_pushes fits checked
  rwa [State.pushLines_refused _ _ _ _ place, State.checkCur_ctx checked] at pushed

theorem pushl_badSet {pa : Nat} {rest : List Place} (fits : s.pushFits (s.rd rb) (s.rd ra) 1 = true)
    (checked : s.checkCur .read (s.rd ra) 1 = (u, .ok (.glob pa true :: rest))) (set : u.pushDests s.ctx.core (s.rd rb) = none) :
    Ends (.pushl ra rb) s (u.refused s.ctx.core s.ctx.thr 1 5) := by
  have ctx := State.checkCur_ctx checked
  have pushed := pushl_pushes fits checked
  rwa [State.pushLines_badSet _ _ _ (ctx ▸ set), ctx] at pushed

theorem pushl_one {pa k : Nat} (fits : s.pushFits (s.rd rb) (s.rd ra) 1 = true)
    (checked : s.checkCur .read (s.rd ra) 1 = (u, .ok [.glob pa true])) (set : u.pushDests s.ctx.core (s.rd rb) = some [k]) :
    Ends (.pushl ra rb) s (u.addPush s.ctx.core s.ctx.thr (lineOf pa) [k] (u.lineRegs s.ctx.core (lineOf pa))) := by
  have ctx := State.checkCur_ctx checked
  have pushed := pushl_pushes fits checked
  rwa [State.pushLines_one _ _ (ctx ▸ set), ctx] at pushed

end

/-! ### Holds (spec/13 R267, R268, R270) -/

section
variable {s u : State} {rd ra rb : Reg} {o : Bool}

/-- A HOLD whose line has been registered. -/
theorem hold_starts {id line d : Nat} (stage : s.stage = some (.held id line d))
    (done : ((s.sharers s.ctx.core).any fun k => (s.outRegs k).any fun r => r.id = id) = false) :
    Ends (.hold rd ra rb o) s (((s.startTimer s.ctx.core line d).wr rd 0).acquireIf o) := by
  show execHold rd ra rb o s = _
  unfold execHold
  rw [stage]
  dsimp only
  rw [done]
  rfl

/-- A HOLD that begins. -/
theorem exec_hold_fresh (stage : s.stage = none) : exec (.hold rd ra rb o) s = .next (s.holdStart rd ra rb o) := by
  show execHold rd ra rb o s = _
  unfold execHold
  rw [stage]

/-- The limits on holds of a thread and of a core. -/
theorem hold_limit (stage : s.stage = none) {ps : List Place} (checked : s.checkCur .read (s.rd ra) 1 = (s, .ok ps))
    (limit : 2 ≤ ((s.core s.ctx.core).req.holds.filter fun h => h.thr = s.ctx.thr.toNat).length ∨
      4 ≤ (s.core s.ctx.core).req.holds.length) : Raises (.hold rd ra rb o) s .lease (s.rd ra) := by
  refine (exec_hold_fresh stage).trans (congrArg Host.Outcome.next ?_)
  unfold State.holdStart
  rw [checked]
  dsimp only
  rw [if_pos (by simpa using limit)]

section
variable {rest : List Place}
  (few : ((u.core s.ctx.core).req.holds.filter fun h => h.thr = s.ctx.thr.toNat).length < 2)
  (core : (u.core s.ctx.core).req.holds.length + (u.holdsComing s.ctx.core s.ctx.thr).length < 4)

include few core in
/-- Neither limit is reached, the other threads' HOLDs on their way counted. -/
theorem below_limits : ¬ (decide (2 ≤ ((u.core s.ctx.core).req.holds.filter fun h => h.thr = s.ctx.thr.toNat).length) ||
    decide (4 ≤ (u.core s.ctx.core).req.holds.length)) = true := by
  simp only [Bool.or_eq_true, decide_eq_true_eq]
  omega

include few core in
/-- A HOLD below the limits takes a line of global memory. -/
theorem holdStart_global {pa : Nat} {c : Bool} (checked : s.checkCur .read (s.rd ra) 1 = (u, .ok (.glob pa c :: rest))) :
    s.holdStart rd ra rb o = u.holdLine rd ra rb o pa c := by
  unfold State.holdStart
  rw [checked]
  dsimp only
  rw [State.checkCur_ctx checked, if_neg (below_limits few core), if_neg (by omega)]

include few core in
/-- It refuses local memory. -/
theorem holdStart_local {off : Nat} (checked : s.checkCur .read (s.rd ra) 1 = (u, .ok (.own off :: rest))) :
    s.holdStart rd ra rb o = (u.wr rd 5).retire := by
  unfold State.holdStart
  rw [checked]
  dsimp only
  rw [State.checkCur_ctx checked, if_neg (below_limits few core), if_neg (by omega)]

end

theorem hold_near (stage : s.stage = none) (near : Near s (s.rd ra) 1)
    (few : ((s.core s.ctx.core).req.holds.filter fun h => h.thr = s.ctx.thr.toNat).length < 2)
    (core : (s.core s.ctx.core).req.holds.length + (s.holdsComing s.ctx.core s.ctx.thr).length < 4) :
    Answers (.hold rd ra rb o) s rd 5 :=
  ⟨_, (exec_hold_fresh stage).trans (congrArg Host.Outcome.next (holdStart_local few core (State.checkCur_near .read near))),
    s.wr_retire_writes rd 5⟩

/-- A line that the thread, or another thread of the core, holds. -/
theorem hold_held {pa : Nat} {rest : List Place} {h : Hold} (stage : s.stage = none)
    (checked : s.checkCur .read (s.rd ra) 1 = (u, .ok (.glob pa true :: rest)))
    (few : ((u.core s.ctx.core).req.holds.filter fun h => h.thr = s.ctx.thr.toNat).length < 2)
    (core : (u.core s.ctx.core).req.holds.length + (u.holdsComing s.ctx.core s.ctx.thr).length < 4)
    (found : ((u.core s.ctx.core).req.holds.find? fun h => h.line = lineOf pa) = some h) :
    Ends (.hold rd ra rb o) s (u.wr rd (if h.thr = s.ctx.thr.toNat then 2 else 3)) := by
  refine (exec_hold_fresh stage).trans (congrArg Host.Outcome.next ((holdStart_global few core checked).trans ?_))
  unfold State.holdLine
  rw [State.checkCur_ctx checked]
  dsimp only
  rw [found]
  rfl

theorem unhold_waits (asked : o = true) (due : s.released s.ctx.core s.ctx.thr = false) : Waits (.unhold rd ra o) s s .release := by
  have waits : (o && !s.released s.ctx.core s.ctx.thr) = true := by rw [asked, due]; rfl
  exact congrArg Host.Outcome.next (if_pos waits)

variable (free : o = false ∨ s.released s.ctx.core s.ctx.thr = true)

include free in
theorem unhold_ends {h : Hold} (found : ((s.core s.ctx.core).req.holds.find? fun h =>
      h.thr = s.ctx.thr.toNat && h.vline = (s.rd ra).toNat / 128) = some h) :
    Ends (.unhold rd ra o) s ((s.endHold s.ctx.core h false).wr rd 0) := by
  show execUnhold rd ra o s = _
  unfold execUnhold
  dsimp only
  rw [release_passed free, found]
  rfl

include free in
/-- Without a hold of the line, what matters is whether one has ended early and has not been reported. -/
theorem exec_unhold_none (absent : ((s.core s.ctx.core).req.holds.find? fun h =>
      h.thr = s.ctx.thr.toNat && h.vline = (s.rd ra).toNat / 128) = none) :
    exec (.unhold rd ra o) s = .next (if s.cur.run.endings.contains ((s.rd ra).toNat / 128) then
        ((s.onCur fun th => { th with run := { th.run with
          endings := th.run.endings.filter (· != (s.rd ra).toNat / 128) } }).wr rd 1).retire
      else (s.wr rd 2).retire) := by
  show execUnhold rd ra o s = _
  unfold execUnhold
  dsimp only
  rw [release_passed free, absent]
  rfl

include free in
theorem unhold_none (absent : ((s.core s.ctx.core).req.holds.find? fun h =>
      h.thr = s.ctx.thr.toNat && h.vline = (s.rd ra).toNat / 128) = none)
    (ended : s.cur.run.endings.contains ((s.rd ra).toNat / 128) = false) : Answers (.unhold rd ra o) s rd 2 :=
  ⟨_, (exec_unhold_none free absent).trans (congrArg Host.Outcome.next (if_neg (by rw [ended]; decide))), s.wr_retire_writes rd 2⟩

include free in
theorem unhold_reports (absent : ((s.core s.ctx.core).req.holds.find? fun h =>
      h.thr = s.ctx.thr.toNat && h.vline = (s.rd ra).toNat / 128) = none)
    (ended : s.cur.run.endings.contains ((s.rd ra).toNat / 128) = true) :
    Ends (.unhold rd ra o) s ((s.onCur fun th => { th with run := { th.run with
      endings := th.run.endings.filter (· != (s.rd ra).toNat / 128) } }).wr rd 1) :=
  (exec_unhold_none free absent).trans (congrArg Host.Outcome.next (if_pos ended))

end

/-! ### Task deques (spec/13 R272, R273) -/

section
variable {s : State} {rd ra : Reg} {wait : Bool}

theorem dqpush_zero (zero : s.rd ra = 0) : Answers (.dqpush rd ra) s rd 2 :=
  ⟨_, congrArg Host.Outcome.next (if_pos zero), s.wr_retire_writes rd 2⟩

theorem dqpush_full (task : s.rd ra ≠ 0) (full : 64 ≤ s.curCore.deque.length) : Answers (.dqpush rd ra) s rd 1 :=
  ⟨_, congrArg Host.Outcome.next ((if_neg task).trans (if_pos full)), s.wr_retire_writes rd 1⟩

variable (task : s.rd ra ≠ 0) (space : s.curCore.deque.length < 64)

include task space in
theorem dqpush_waits (due : s.released s.ctx.core s.ctx.thr = false) : Waits (.dqpush rd ra) s s .release := by
  have waits : (!s.released s.ctx.core s.ctx.thr) = true := by rw [due]; rfl
  exact congrArg Host.Outcome.next ((if_neg task).trans ((if_neg (Nat.not_le.mpr space)).trans (if_pos waits)))

include task space in
theorem dqpush_pushes (free : s.released s.ctx.core s.ctx.thr = true) :
    Ends (.dqpush rd ra) s ((s.onCurCore fun c => { c with deque := s.rd ra :: c.deque }).wr rd 0) := by
  have passes : ¬ (!s.released s.ctx.core s.ctx.thr) = true := by rw [free]; decide
  exact congrArg Host.Outcome.next ((if_neg task).trans ((if_neg (Nat.not_le.mpr space)).trans (if_neg passes)))

/-- A pop that begins. -/
theorem exec_dqpop_fresh (stage : s.stage = none) : exec (.dqpop rd wait) s = .next (s.pop rd) := by
  show execDqpop rd wait s = _
  unfold execDqpop
  rw [stage]

theorem dqpop_own {x : Word} {rest : List Word} (stage : s.stage = none) (own : s.curCore.deque = x :: rest) :
    Ends (.dqpop rd wait) s ((((s.onCurCore fun c => { c with deque := rest }).wr rd x).sign s.ctx.core s.ctx.thr x).acquireIf
      (x != 0)) := by
  refine (exec_dqpop_fresh stage).trans ?_
  unfold State.pop
  rw [own]
  rfl

theorem dqpop_asks (stage : s.stage = none) (own : s.curCore.deque = []) :
    Waits (.dqpop rd wait) s s (.steal (s.victims s.ctx.core) true) := by
  refine (exec_dqpop_fresh stage).trans ?_
  unfold State.pop
  rw [own]

theorem dqpop_asks_next {left : List Nat} {sent : Bool} (stage : s.stage = some (.steal left sent)) :
    Waits (.dqpop rd wait) s s (.steal left true) := by
  show execDqpop rd wait s = _
  unfold execDqpop
  rw [stage]

/-- The search of a pop has ended with an entry or, as zero, without one. -/
theorem exec_dqpop_got {x : Word} (stage : s.stage = some (.deqGot x)) :
    exec (.dqpop rd wait) s = .next (if x != 0 || !wait then s.popped rd x else s.stall .deque) := by
  show execDqpop rd wait s = _
  unfold execDqpop
  rw [stage]

theorem dqpop_waits (stage : s.stage = some (.deqGot 0)) (waits : wait = true) : Waits (.dqpop rd wait) s s .deque :=
  (exec_dqpop_got stage).trans (congrArg Host.Outcome.next (if_neg (by rw [waits]; decide)))

theorem dqpop_ends {x : Word} (stage : s.stage = some (.deqGot x)) (ends : x ≠ 0 ∨ wait = false) :
    Ends (.dqpop rd wait) s (((s.wr rd x).sign s.ctx.core s.ctx.thr x).acquireIf (x != 0)) := by
  have known : (x != 0 || !wait) = true := by
    rcases ends with task | rfl
    · rw [bne_iff_ne.mpr task]; rfl
    · exact Bool.or_true _
  exact (exec_dqpop_got stage).trans (congrArg Host.Outcome.next (if_pos known))

end

/-! ### Steals (spec/13 R274) -/

/-- What a change of a core leaves of every core, it leaves of each. -/
theorem State.field_onCore {α : Type} (g : Core → α) (s : State) (n m : Nat) (f : Core → Core) (h : ∀ c, g (f c) = g c) :
    g ((s.onCore n f).core m) = g (s.core m) := by
  by_cases e : m = n
  · subst e; rw [State.core_onCore_self, h]
  · rw [State.core_onCore_ne s f e]

theorem State.deque_count (s : State) (n : Nat) (t : Option (BitVec 2)) (event k m : Nat) :
    ((s.count n t event k).core m).deque = (s.core m).deque := s.field_onCore Core.deque n m _ fun _ => rfl

theorem State.deque_waitFor (s : State) (n : Nat) (t : BitVec 2) (w : Option Wait) (m : Nat) :
    ((s.waitFor n t w).core m).deque = (s.core m).deque := s.field_onCore Core.deque n m _ fun _ => rfl

theorem State.thread_count (s : State) (n : Nat) (t : Option (BitVec 2)) (event k m : Nat) (j : BitVec 2) :
    (s.count n t event k).thread m j = s.thread m j := s.field_onCore (fun c => get4 c.thr j) n m _ fun _ => rfl

theorem State.wait_waitFor (s : State) (n : Nat) (t : BitVec 2) (w : Option Wait) : ((s.waitFor n t w).thread n t).run.wait = w := by
  unfold State.waitFor
  rw [State.thread_onThread_self]

section
variable {s : State} {c k : Nat} {left : List Nat} (sent : (s.thread c (tid k)).run.wait = some (.steal left true))

/-- The first deque that is not empty gives its oldest entry. -/
theorem State.steal_found {run : List Nat} {m : Nat} {x : Word} {q : List Word}
    (found : run.find? (fun j => !(s.core j).deque.isEmpty) = some m) (entries : (s.core m).deque = q ++ [x]) :
    s.steal run = (s.onCore m fun core => { core with deque := core.deque.dropLast }, x) := by
  unfold State.steal
  rw [found]
  dsimp only
  rw [entries, List.getLastD_concat]

theorem State.steal_none {run : List Nat} (absent : run.find? (fun j => !(s.core j).deque.isEmpty) = none) : s.steal run = (s, 0) := by
  unfold State.steal
  rw [absent]

include sent in
/-- What serving a request gives, by what its run of members holds. -/
theorem exec_stealRequest {u : State} {e : Word} (served : s.steal (stealRun c left) = (u, e)) :
    exec (.stealRequest c k) s = .next (if e != 0 then
        (u.waitFor c (tid k) (some (.deqGot e))).count c (some (tid k)) 14 1
      else u.waitFor c (tid k) (some (if (left.drop (stealRun c left).length).isEmpty then .deqGot 0
        else .steal (left.drop (stealRun c left).length) false))) := by
  show execStealRequest c k s = _
  unfold execStealRequest
  rw [sent]
  dsimp only
  rw [served]

include sent in
/-- The thread that asked has the entry, which has left its deque, or asks the next run of members. -/
theorem stealRequest_serves : ∃ u, exec (.stealRequest c k) s = .next u ∧
    (∀ m x q, (stealRun c left).find? (fun j => !(s.core j).deque.isEmpty) = some m → (s.core m).deque = q ++ [x] → x ≠ 0 →
      (u.core m).deque = q ∧ (u.thread c (tid k)).run.wait = some (.deqGot x)) ∧
    ((stealRun c left).find? (fun j => !(s.core j).deque.isEmpty) = none →
      (u.thread c (tid k)).run.wait = some (if (left.drop (stealRun c left).length).isEmpty then .deqGot 0
        else .steal (left.drop (stealRun c left).length) false) ∧
      ∀ j, (u.core j).deque = (s.core j).deque) := by
  rcases served : s.steal (stealRun c left) with ⟨u, e⟩
  refine ⟨_, exec_stealRequest sent served, fun m x q found entries task => ?_, fun absent => ?_⟩
  · cases (State.steal_found found entries).symm.trans served
    rw [if_pos (bne_iff_ne.mpr task), State.deque_count, State.deque_waitFor, State.core_onCore_self, State.thread_count,
      State.wait_waitFor, entries]
    exact ⟨List.dropLast_concat, rfl⟩
  · cases (State.steal_none absent).symm.trans served
    rw [if_neg (by decide)]
    exact ⟨State.wait_waitFor _ _ _ _, State.deque_waitFor _ _ _ _⟩

end

/-! ### Waits that an event ends or renews (spec/05 R139; spec/13 R269, R273) -/

theorem dqpopResearch_again {s : State} {c k : Nat} (waits : (s.thread c (tid k)).run.wait = some .deque)
    (gain : s.mayGain c = true) : exec (.dqpopResearch c k) s = .next (s.waitFor c (tid k) none) := by
  show execDqpopResearch c k s = _
  unfold execDqpopResearch
  rw [waits]
  dsimp only
  rw [if_pos gain]

theorem waitwReread_looks {s : State} {c k : Nat} {ps : List Place} {x a : Word} {again : Bool}
    (waits : (s.thread c (tid k)).run.wait = some (.word ps x a again)) :
    exec (.waitwReread c k) s = .next (s.waitFor c (tid k) (some (.word ps x a true))) := by
  show execWaitwReread c k s = _
  unfold execWaitwReread State.waitFor State.onThread
  dsimp only
  rw [waits]

theorem holdTimerExpiry_ends {s : State} {c : Nat} {h : Hold}
    (found : ((s.core c).req.holds.find? fun x => x.thr = h.thr && x.line = h.line) = some h) (zero : h.dur = some 0) :
    exec (.holdTimerExpiry c h.thr h.line) s = .next (s.endHold c h true) := by
  show execHoldTimerExpiry c h.thr h.line s = _
  unfold execHoldTimerExpiry
  rw [found]
  dsimp only
  rw [if_pos zero]

end Sys2Proof.Machine

namespace Sys2Proof.Claims
set_option Elab.async false

open Machine

/-- Settles O49, clause by clause: pushes behind a store and alone, holds, the owner end of the deque, steals and timers. -/
theorem pushStoresHoldsAndDeques : Obligations.PushStoresHoldsAndDeques := by
  intro s rd ra rb disp wd o wait n t a b v vline
  exact ⟨stp_waits_for_room, fun _ _ fits checked free own room => stp_stores fits checked free own room, pushl_waits_for_room,
    fun _ _ fits checked => pushl_pushes fits checked,
    fun fits near => pushl_refused fits (State.checkCur_near .read near) nofun,
    fun _ _ _ fits checked place => pushl_refused fits checked place,
    fun _ _ _ fits checked place free own room => stp_refused fits checked place free own room,
    fun _ _ _ fits checked set => pushl_badSet fits checked set, fun w m k cause _ => w.thread_refused m (tid k) 1 cause,
    fun _ _ _ fits checked set => pushl_one fits checked set, fun _ _ _ stage done => hold_starts stage done,
    fun stage near => ⟨hold_limit stage (State.checkCur_near .read near), hold_near stage near⟩,
    fun _ _ _ _ stage checked few core found => hold_held stage checked few core found, unhold_waits,
    fun free => ⟨fun _ found => unhold_ends free found, unhold_none free, unhold_reports free⟩,
    dqpush_zero, dqpush_full, dqpush_waits, dqpush_pushes, fun _ _ stage own => dqpop_own stage own, dqpop_asks,
    fun _ _ stage => dqpop_asks_next stage, dqpop_waits, fun _ stage ends => dqpop_ends stage ends,
    fun _ _ _ _ sent => stealRequest_serves sent, fun _ _ waits gain => dqpopResearch_again waits gain,
    fun _ _ _ _ _ _ waits => waitwReread_looks waits, fun _ _ found zero => holdTimerExpiry_ends found zero⟩

end Sys2Proof.Claims
